-- ==== Sys2Proof/Word.lean ====
section
/-! DEFINITION. The word types of the LV-1024 (R1): registers are 32 bits, stack and scratchpad cells are bytes, and
a computed address or a device time is 64 bits. -/

namespace Sys2Proof

/-- A register of a register page. -/
abbrev Word := BitVec 32

/-- One byte of the stack, of a scratchpad or of boot flash. -/
abbrev Byte := BitVec 8

/-- A device time in nanoseconds, a host bus address or a 64-bit counter. -/
abbrev Dword := BitVec 64

/-- A PCI Express function: 0 is the PF, 1 to 31 are the VFs (R21). -/
abbrev Func := Fin 32

end Sys2Proof
end

