-- ==== Sys2Proof/Config.lean ====
section
/-! DEFINITION. Values the spec leaves open: each is an opaque constant or function, so nothing can be proved about its
value. -/

namespace Sys2Proof

/-- The `n`-th free value: what the spec leaves undefined or unstated, 64 bits of it (log entry 3). -/
opaque Config.freeValue : Nat → BitVec 64

/-- A value the spec does not state but which depends on its operands alone: of site `n`, from a list of operands
(log entry 3). -/
opaque Config.unstated : Nat → List Nat → BitVec 64

/-- The table-interpolated functions before the bounds of R76 are held against them: function code and binary32
argument to binary32 result (log entry 22). -/
opaque Config.tableFn : Nat → Nat → BitVec 32

/-- The Walzeram vendor identifier that every function reports (R24): the spec names it without its number. -/
opaque Config.vendorId : BitVec 16

/-- The revision that every function reports beside its class code (R24): the spec gives none. -/
opaque Config.revisionId : BitVec 8

/-- The two digests of vendor keys held in ROM (R369), by their number. -/
opaque Config.romDigest : Nat → BitVec 256

/-- Which table numbers of a block class a control image may load (R371): the spec names no numbers. -/
opaque Config.imageTable : Nat → Nat → Bool

/-- The alert point and the trip point that the records of a control image with this payload set, where they set one
(R371, R425): the spec gives no layout of a record. -/
opaque Config.imageLimits : Nat → Option (BitVec 8) × Option (BitVec 8)

/-- The default of an ordinary setting that the records of a control image with this payload set, where they set one
(R371): the spec gives no layout of a record. -/
opaque Config.imageDefault : Nat → Nat → Option (List (BitVec 8))

/-- The payload bits of a track message, from its kind and what it carries (R341, R353): the spec gives no layout. -/
opaque Config.trackPayload : Nat → List Nat → BitVec 2048

/-- The payload bits of a hello frame, from the chain's device count and trust root identifier (R350): the spec gives no
layout. -/
opaque Config.helloPayload : Nat → BitVec 64 → BitVec 512

end Sys2Proof
end

