-- ==== Sys2Proof/Syntax.lean ====
section
/-! DEFINITION. The commands the block takes: one constructor per row of the table of operations and events, with the
operands the command carries from outside. What the device finds in its own state is no operand. Where a row happens at
a moment of time, its operand `now` is the device time of that moment. -/

namespace Sys2Proof

/-- The windows of a function (R24). -/
inductive Bar where
  | bar0 | bar4
  deriving DecidableEq, Repr

/-- One access of a window: its size in bytes (R25 accepts 4 and 8) and, for a write, the value. -/
inductive Access where
  | read (size : Nat)
  | write (size : Nat) (value : Dword)
  deriving DecidableEq, Repr

/-- The kinds of bind unit (R47). -/
inductive UnitKind where
  | array | pooled | semRange | pipe | stream | output | videoPair | graphicPair | window | partition
  deriving DecidableEq, Repr

/-- A bind unit: its kind and its number (R47). -/
structure UnitId where
  kind : UnitKind
  num : Nat
  deriving DecidableEq, Repr

/-- Who was reading host memory when a read timed out or failed (R37). -/
inductive HostReader where
  /-- A job ring fetching its next descriptor. -/
  | jobRing (f : Func) (ring : Fin 8)
  /-- A stream context fetching an access unit, of the ring entry given. -/
  | stream (ctx : Fin 1024) (entry : BitVec 256)
  /-- An engine's request. -/
  | engine (e : Fin 80) (tag : Nat)
  /-- A job fetching its body. -/
  | jobBody (f : Func) (ring : Fin 8) (desc : BitVec 1024)
  deriving DecidableEq, Repr

/-- The self-checks of an array (R118). -/
inductive SelfCheck where
  | parity (column : Nat) | residue (column : Nat) | sequencer
  deriving DecidableEq, Repr

/-- The three memories of an array's scratchpad (R146). -/
inductive SpMem where
  | wm | am | pm
  deriving DecidableEq, Repr


/-- How a request's far end ends it, as far as the device's own state does not say (R194): done, with the data a host
read has returned; a host completion error or timeout; a parity failure of a scratchpad line (R161). -/
inductive RequestResult where
  | done (data : List Byte)
  | hostError
  | hostTimeout
  | parity (mem : SpMem) (line : Nat)
  deriving DecidableEq, Repr
/-- Who reads or writes the stack (R209, R166): a stream engine or its list fetch, by engine number; a sequencer, by
array; the others are one of their kind. -/
inductive ClientKind where
  | engine (e : Nat) | listFetch (e : Nat) | sequencer (a : Nat)
  | display | floor | decoder | track | walk | restore | fill | bar2 | patrol | writeback | trust | job | window
  deriving DecidableEq, Repr

/-- A client of the memory system: its kind and the function it works for. -/
structure StackClient where
  kind : ClientKind
  func : Func
  deriving DecidableEq, Repr

/-- What an activated SPS says (R224, R225): whether the tools it uses are supported, whether it is progressive,
its profile and level numbers, its cropped size and its bit depth. -/
structure Sps where
  supported : Bool
  progressive : Bool
  profile : Nat
  level : Nat
  width : Nat
  height : Nat
  depth : Nat
  deriving DecidableEq, Repr

/-- What the headers of an access unit say (R225, R233): non-reference, IDR or IRAP, and the SPS it activates. -/
structure UnitInfo where
  nonRef : Bool
  irap : Bool
  sps : Option Sps
  deriving DecidableEq, Repr

/-- A picture as the codec's standard decodes it (R224, R230, R234): its cropped size, its bit depth, its samples in
raster order (chroma interleaved, half the rows), whether it stays a reference, the slots that are references after it,
the slots it is predicted from, its damaged areas in luma samples (x, y, width, height) with the causes met, and the
slot of the nearest reference. -/
structure Picture where
  width : Nat
  height : Nat
  depth : Nat
  luma : List Nat
  chroma : List Nat
  reference : Bool
  refs : List Nat
  uses : List Nat
  damaged : List (Nat × Nat × Nat × Nat)
  causes : List Nat
  nearest : Option Nat
  deriving DecidableEq, Repr

/-- How an AUX transaction ends (R303, R305): ACK with the bytes returned, NACK, DEFER after all retries, or timeout. -/
inductive AuxReply where
  | ack (data : List Byte)
  | nack
  | defer
  | timeout
  deriving DecidableEq, Repr

/-- A layer whose data has not arrived when composition needs it (R315): graphic or video, its slot, and the pixel of the
line from which it is missing. -/
structure Underrun where
  graphic : Bool
  slot : Nat
  x : Nat
  deriving DecidableEq, Repr
/-- What a track offer says (R341): the identifier, class, embedding and last time of the track, its camera and device,
the camera it is offered to, and the edge's bias and times. The layout of a message's payload is not in the spec, so a
command that brings one says what it holds (log entry 41). -/
structure OfferMsg where
  ident : Nat
  cls : Nat
  emb : List Byte
  tLast : Nat
  cam : Nat
  dev : Nat
  dest : Nat
  bias : Nat
  tMin : Nat
  tMax : Nat
  deriving DecidableEq, Repr

/-- What a self-test of the arrays and decode pipes would find (R393, R394): the ones that fail, by bit. -/
structure SelfTest where
  arrays : BitVec 32
  pipes : BitVec 16
  deriving DecidableEq, Repr

/-- The units of R400 found missing after boot or a warm reset, by bit: 0 the display engine, 1 the decode cluster, 2 the
track engine, 3 the chain ports; 4 the host port, 5 the trust unit, 6 the scheduler. -/
abbrev LostUnits : Type := BitVec 7

/-- What boot step 1 finds at the rise of POR_N (R372, R414, R425): the straps, the hottest sensor in °C, what the
self-test finds, and which units are missing (R400). -/
structure Straps where
  recovery : Bool
  copy1 : Bool
  osc : Bool
  hottest : Int
  test : SelfTest
  lost : LostUnits
  deriving DecidableEq, Repr

/-- The triggers of a warm reset (R395), in the order of the reset kinds of R403 from 1 on. -/
inductive ResetKind where
  | pfWrite | pfFlr | pcie | fault
  deriving DecidableEq, Repr

/-- A warm reset: its trigger, what its self-test would find, whether a PLL that lost lock has relocked within 1 ms
(R392), and which units are missing after it (R400). -/
structure ResetTrigger where
  kind : ResetKind
  test : SelfTest
  relocked : Bool
  lost : LostUnits
  deriving DecidableEq, Repr

/-- The PCI Express resets (R395): PE_PERST_N, a hot reset, link down. -/
inductive PcieReset where
  | fundamental | hot | linkDown
  deriving DecidableEq, Repr

/-- The reference clocks (R413). -/
inductive RefClock where
  | system | pcie | chain
  deriving DecidableEq, Repr

/-- The commands of the block: one constructor per row of spec/opcode_table.json. -/
inductive Instr where
  /-- LINK_CHANGE (R23): The PCI Express link trains or retrains to a new speed or width; below x8 at 16 GT/s
  GL_LINK.degraded is set and event 0x0111 is written to PF ring 0. -/
  | linkChange (speed width : Nat)
  /-- D3HOT_ENTRY (R21): A function enters D3hot, which stops all its work as a function-level reset does. `now` is the
  moment. -/
  | d3hotEntry (f : Func) (now : Dword)
  /-- REGISTER_WRITE (R4): A host write to a register or field that has no step of its own takes effect by its access
  type (RW, W1C, SH and so on). -/
  | registerWrite (f : Func) (bar : Bar) (off : Nat) (acc : Access)
  /-- BAR2_READ (R27): A PF read through BAR2 returns device physical memory without a billet check, or 0 with cause
  0x1B where no memory lies behind it. -/
  | bar2Read (off len : Nat)
  /-- BAR2_WRITE (R27): A PF write through BAR2 writes device physical memory and recomputes the checksums of the
  billets it touches. -/
  | bar2Write (off : Nat) (data : List Byte)
  /-- STREAM_RING_DOORBELL (R228): A write of a stream context's producer index is window-checked and recorded for its
  decode pipe. -/
  | streamRingDoorbell (f : Func) (ctx : Fin 1024) (value : Word)
  /-- JOB_RING_PRODUCER_DOORBELL (R29): A job-ring producer-index write is checked for binding, page state and window,
  then sets JR_PROD. -/
  | jobRingProducerDoorbell (f : Func) (ring : Fin 8) (value : Word)
  /-- EVENT_RING_CONSUMER_DOORBELL (R40): An event-ring consumer-index write is window-checked, sets EVR_CONS and frees
  ring space. -/
  | eventRingConsumerDoorbell (f : Func) (ring : Fin 8) (value : Word)
  /-- SEMAPHORE_SIGNAL_DOORBELL (R28): A BAR4 semaphore doorbell adds the written value to a semaphore bound to the
  writer. -/
  | semaphoreSignalDoorbell (f : Func) (sem : Fin 4096) (value : Word)
  /-- EVENT_RING_INTERRUPT_TIMER (R39): The EVR_MOD time limit expires with unsignalled records, and the ring's MSI-X
  interrupt fires. -/
  | eventRingInterruptTimer (f : Func) (ring : Fin 8) (now : Dword)
  /-- EVENT_RING_ENABLE (R39): Writing EVR_CFG.enable = 1 validates the ring configuration and starts the ring at index
  0, or records cause 0x14. -/
  | eventRingEnable (f : Func) (ring : Fin 8) (cfg : Word)
  /-- EVENT_RING_DISABLE (R39): Writing EVR_CFG.enable = 0 stops the event ring. -/
  | eventRingDisable (f : Func) (ring : Fin 8) (cfg : Word)
  /-- JOB_RING_ENABLE (R41): Writing JR_CFG.enable = 1 validates the ring and starts fetching at index 0. -/
  | jobRingEnable (f : Func) (ring : Fin 8) (cfg : Word)
  /-- JOB_RING_DISABLE (R41): Writing JR_CFG.enable = 0 stops the job ring. -/
  | jobRingDisable (f : Func) (ring : Fin 8) (cfg : Word)
  /-- JR_SEQ_WRITE (R41): A write of JR_SEQ.expected is applied only while the ring is disabled or halted, and is
  otherwise ignored with cause 0x13. -/
  | jrSeqWrite (f : Func) (ring : Fin 8) (value : Word)
  /-- JOB_RING_RESTART (R41): JR_CTL.restart clears halted, and fetching resumes at JR_CONS. -/
  | jobRingRestart (f : Func) (ring : Fin 8)
  /-- JOB_RING_SKIP (R41): JR_CTL.skip advances JR_CONS past the refused descriptor, clears halted and resumes fetching.
  -/
  | jobRingSkip (f : Func) (ring : Fin 8)
  /-- JOB_KIND_REFUSED (R430): A fetched job descriptor fails an envelope check (CRC, sequence, kind, class, reserved
  field or semaphores) and halts its ring. -/
  | jobKindRefused (f : Func) (ring : Fin 8) (desc : BitVec 1024)
  /-- JOB_WAIT_END (R42): A job's envelope semaphore test is satisfied and the job may start. -/
  | jobWaitEnd (job : Nat)
  /-- JOB_NOT_BEFORE (R42): Device time reaches a job's not_before time and the job may start. -/
  | jobNotBefore (job : Nat) (now : Dword)
  /-- HOST_COMPLETION_TIMEOUT (R37): A device read from host memory times out, recording cause 0x1A, and the reading
  ring halts or the owning block handles it. -/
  | hostCompletionTimeout (reader : HostReader)
  /-- FENCE (R43): A fence job is checked, completes when its wait ends, and then signals. -/
  | fence (f : Func) (ring : Fin 8) (desc : BitVec 1024)
  /-- VF_FLR (R46): A function-level reset of a VF tears down its contexts, scrubs its handles, disables its rings and
  restores its MSI-X table, leaving its units bound. -/
  | vfFlr (f : Func)
  /-- PF_FLR (R46): A function-level reset of the PF performs a warm reset. `now` is the moment. -/
  | pfFlr (now : Dword)
  /-- PG_COMMIT_GO (R34): A write of PG_COMMIT.go copies the page's shadows into a pending set, records seq and
  validates it. -/
  | pgCommitGo (f : Func) (page : Nat) (seq : BitVec 24)
  /-- COMMIT_POINT (R34): A valid pending set applies whole at its block's commit point, and commit_applied and the
  common event 0x01 follow. -/
  | commitPoint (page : Nat)
  /-- PG_COMMIT_ABANDON (R35): PG_COMMIT.abandon discards a pending commit and returns its state to idle. -/
  | pgCommitAbandon (f : Func) (page : Nat)
  /-- ERR_CLEAR (R32): PG_CTL.err_clear clears PG_ERR, PG_ERR_INFO0 and PG_ERR_INFO1. -/
  | errClear (f : Func) (page : Nat)
  /-- BIND (R50): A bind command takes an unbound unit through the re-binding sequence to a new owner. -/
  | bind (f : Func) (ring : Fin 8) (desc : BitVec 1024)
  /-- UNBIND (R50): An unbind command stops and scrubs a bound unit and leaves it unbound. -/
  | unbind (f : Func) (ring : Fin 8) (desc : BitVec 1024)
  /-- MOVE (R50): A move command stops and scrubs a bound unit and binds it to the named owner. -/
  | move (f : Func) (ring : Fin 8) (desc : BitVec 1024)
  /-- RELEASE_HOLD (R57): A release-hold command continues a held unit's sequence with the scrub step. -/
  | releaseHold (f : Func) (ring : Fin 8) (desc : BitVec 1024)
  /-- SHARE_READ_ONLY (R50): A share command maps a PF-only page read-only into a VF and sets PG_BIND.shared. -/
  | shareReadOnly (f : Func) (ring : Fin 8) (desc : BitVec 1024)
  /-- WITHDRAW_SHARE (R50): A withdraw-share command removes a read-only page mapping from a VF and clears
  PG_BIND.shared. -/
  | withdrawShare (f : Func) (ring : Fin 8) (desc : BitVec 1024)
  /-- REBIND_STOP_DONE (R52): The unit's work has stopped and its tags have retired, so the sequence goes on to hold or
  scrub. -/
  | rebindStopDone (unit : UnitId)
  /-- REBIND_SCRUB_DONE (R52): The binding scrub of the unit ends and the hand-over step runs. -/
  | rebindScrubDone (unit : UnitId)
  /-- ORPHANED_TAG_RETURN (R53): The data of an orphaned tag arrives or times out; it is discarded and the tag returns
  to its pool. -/
  | orphanedTagReturn (engine : Fin 80) (tag : Nat)
  /-- QP_MAXABS_READ (R91): A read of QP_MAXABS returns the main-path max-abs statistic and clears it. -/
  | qpMaxabsRead (f : Func) (array : Fin 32) (profile : Fin 8)
  /-- QP_HW_MAXABS_READ (R91): A read of QP_HW_MAXABS returns the heartwood max-abs statistic and clears it. -/
  | qpHwMaxabsRead (f : Func) (array : Fin 32) (profile : Fin 8)
  /-- TILE_STEP_FETCH (R100): A fetched tile-step descriptor enters the step queue and is validated, with its bound
  computed. -/
  | tileStepFetch (array : Fin 32)
  /-- STEP_ISSUE (R112): The sequencer issues the step at the head of the queue when the issue rule and scoreboard allow
  it. -/
  | stepIssue (array : Fin 32) (parity : Option (SpMem × Nat))
  /-- PHASE_WAIT_MET (R102): A waiting PHASE step's take is satisfiable; it is applied indivisibly and the step
  completes. -/
  | phaseWaitMet (array : Fin 32)
  /-- STEP_COMPLETE (R116): A step's results commit and its completion record is written if due, after which its
  semaphore is signalled. -/
  | stepComplete (array : Fin 32)
  /-- STEP_OVERRUN (R114): A step passes its bound by 32 cycles without a record, raising cause 0x0540 and felling the
  array. -/
  | stepOverrun (array : Fin 32)
  /-- ARRAY_SELF_CHECK_FAILURE (R118): A parity, residue or sequencer self-check failure raises cause 0x41 or 0x42 and
  fells the array. -/
  | arraySelfCheckFailure (array : Fin 32) (check : SelfCheck)
  /-- ARRAY_STOP_REQUEST (R113): PG_CTL.stop asks the sequencer to issue no further step and to stop at the next kerf
  point. -/
  | arrayStopRequest (f : Func) (array : Fin 32)
  /-- KERF_POINT (R113): No step is in flight and issue is withheld, so the phase becomes stopped and kerf is raised. -/
  | kerfPoint (array : Fin 32)
  /-- ARRAY_FELL (R121): A PF write of PG_CTL.fell fells the array with cause 0x4F. -/
  | arrayFell (f : Func) (array : Fin 32)
  /-- SINGLE_STEP_NEXT (R121): PG_CTL.next issues one step while single-step mode is on. -/
  | singleStepNext (f : Func) (array : Fin 32)
  /-- WINDOW_WRITE (R361): A window write frame is checked and accepted into the stack or an arrival queue, or answered
  refused or busy. -/
  | windowWrite (port : Fin 2) (frame : List Byte)
  /-- ARRIVAL_COMMIT (R157): Every granule of an accepted arrival has committed, so its granule count is added to the
  handle's arrival semaphore. -/
  | arrivalCommit (array : Fin 32)
  /-- WINDOW_WRITE_COMMIT (R361): The memory system has accepted a whole stack-window write, so its granules are added
  to WIN_SEM. -/
  | windowWriteCommit (window : Fin 64)
  /-- BANK_RETENTION (R158): An unused bank has been idle for SP_CFG.idle cycles and enters retention. -/
  | bankRetention (array : Fin 32) (mem : SpMem) (bank : Nat)
  /-- BANK_WAKE_DONE (R158): A retained bank finishes its 64-cycle wake and the waiting dispatch goes on. -/
  | bankWakeDone (array : Fin 32) (mem : SpMem) (bank : Nat)
  /-- CONTEXT_SCRUB_DONE (R246): The retirement or teardown scrub of a context ends, the context is freed and the array
  becomes free. -/
  | contextScrubDone (ctx : Fin 2048)
  /-- BOOT_SCRUB_DONE (R159): The boot scrub of all scratchpads and the landing cache ends, after which bindings are
  accepted. -/
  | bootScrubDone
  /-- SP_PMW_READ (R160): A read of the post-mortem window returns lines of a held unit's memory, or 0 with cause 0x1A
  if the unit is not held. -/
  | spPmwRead (f : Func) (array : Fin 32) (word : Fin 512) (bad : Bool)
  /-- SP_DUMP_START (R160): SP_DUMP_CTL.go starts copying a held unit's memories to the stack, or is refused. -/
  | spDumpStart (f : Func) (array : Fin 32) (ctl : Word)
  /-- SP_DUMP_DONE (R160): A post-mortem dump finishes, and dump done is raised. -/
  | spDumpDone (array : Fin 32) (bad : Nat)
  /-- MODEL_BUNDLE_LOAD (R376): A model bundle load job starts checking its image under R371. -/
  | modelBundleLoad (f : Func) (ring : Fin 8) (desc : BitVec 1024)
  /-- BUNDLE_CHECK_DONE (R376): The hash and signature checks of a bundle finish, and the bundle is refused or handed to
  its landing-cache request. -/
  | bundleCheckDone
  /-- LC_INSTALL (R165): An install request picks a slot, evicts unpinned models if needed, and starts filling frames. -/
  | lcInstall
  /-- LC_EVICT (R163): An evict request frees its owner's landing-cache slot. -/
  | lcEvict (f : Func) (ring : Fin 8) (desc : BitVec 1024)
  /-- LC_SET_PINS (R164): A set-pins request replaces the pin set of its owner's resident model. -/
  | lcSetPins (f : Func) (ring : Fin 8) (desc : BitVec 1024)
  /-- LC_FILL_DONE (R165): An install's fill finishes, so the slot becomes valid and event 0x0714 is written, or the
  install is refused. -/
  | lcFillDone
  /-- STREAM_LIST_FETCH (R185): A stream-list descriptor fetch returns, or fails with cause 0x081D. -/
  | streamListFetch (engine : Fin 80)
  /-- DESCRIPTOR_CURRENT (R179): A stream descriptor becomes current, is checked and range-checked, and starts its pass
  or waits armed. -/
  | descriptorCurrent (engine : Fin 80)
  /-- UNIT_TAKE (R181): The engine's take on wait_sem is met, the unit starts and its requests issue. -/
  | unitTake (engine : Fin 80)
  /-- REQUEST_RETIRE (R181): An engine request retires, its tag is freed, and completed units signal in order. -/
  | requestRetire (engine : Fin 80) (tag : Nat) (result : RequestResult)
  /-- REARM (R187): ENG_RA_CTL.go submits a re-arm to the current descriptor or to a pending index shadow. -/
  | rearm (f : Func) (engine : Fin 80) (ctl : Word)
  /-- ENGINE_START (R185): PG_CTL.start starts a pooled engine's owner-written list. -/
  | engineStart (f : Func) (pooled : Fin 16)
  /-- ENGINE_RESUME (R195): PG_CTL.resume restarts a faulted engine at its saved resume point. -/
  | engineResume (f : Func) (engine : Fin 80)
  /-- ENGINE_RESET (R196): PG_CTL.reset retires a pooled engine's tags and returns it to idle. -/
  | engineReset (f : Func) (pooled : Fin 16)
  /-- SEMAPHORE_SET (R190): A SEM_VAL write sets a semaphore's value. -/
  | semaphoreSet (f : Func) (sem : Fin 4096) (value : Word)
  /-- SEMAPHORE_ADD (R189): A SEM_ADD write adds its value to a semaphore. -/
  | semaphoreAdd (f : Func) (sem : Fin 4096) (value : Word)
  /-- STACK_READ (R208): A read request is served from the billet buffer, a landing-cache hit or a whole-billet read,
  with its checksum result. -/
  | stackRead (client : StackClient) (asid : Option (Fin 4)) (addr len : Nat) (upset : List (Nat × Byte)) (parity : Bool)
  /-- STACK_WRITE (R210): A write is accepted as a whole-billet write or held as a partial write, evicting any
  landing-cache slot it overlaps. -/
  | stackWrite (client : StackClient) (asid : Option (Fin 4)) (addr : Nat) (data : List Byte)
  /-- PARTIAL_WRITE_TIMEOUT (R210): A held partial write reaches 1 µs, or its entry is needed, so the merge read of its
  billet starts. -/
  | partialWriteTimeout (billet : Nat)
  /-- MERGE_READ_DONE (R210): A merge read returns; the billet is merged and written whole, or it is poisoned on a
  checksum failure. -/
  | mergeReadDone (billet : Nat) (upset : List (Nat × Byte))
  /-- PATROL_READ (R212): The patrol interval expires, and the next billet is read and checked. -/
  | patrolRead (upset : List (Nat × Byte))
  /-- STACK_ZEROING_DONE (R211): The power-on zeroing of the data area ends. -/
  | stackZeroingDone
  /-- TRANSLATION_WALK_DONE (R215): A translation walk returns a leaf, or an absent, malformed or permission failure,
  and event 0x0310 is written on failure. -/
  | translationWalkDone (client : StackClient) (asid : Fin 4) (va len : Nat) (write : Bool)
  /-- INVALIDATION_START (R216): MEM_INV_CTL.go starts an invalidation of a span or address space, or is ignored with
  cause 0x16. -/
  | invalidationStart (f : Func) (ctl : Word)
  /-- INVALIDATION_DONE (R216): The caches have dropped the span and affected requests are accepted, so done is set and
  event 0x0313 is written. -/
  | invalidationDone
  /-- CONTEXT_CONFIGURE (R226): A stream context control configure loads the 64-byte record and adds the stream's
  declared load to its pipe. -/
  | contextConfigure (f : Func) (ring : Fin 8) (desc : BitVec 1024) (body : List Byte)
  /-- CONTEXT_START (R226): A start op begins fetching at the ring's consumer index. -/
  | contextStart (f : Func) (ring : Fin 8) (desc : BitVec 1024)
  /-- CONTEXT_STOP (R226): A stop op finishes the picture in progress and stops the context. -/
  | contextStop (f : Func) (ring : Fin 8) (desc : BitVec 1024)
  /-- CONTEXT_FLUSH (R226): A flush op decodes every entry up to the producer index and then stops. -/
  | contextFlush (f : Func) (ring : Fin 8) (desc : BitVec 1024)
  /-- CONTEXT_QUERY (R226): A query op writes the context record and status block to the job body. -/
  | contextQuery (f : Func) (ring : Fin 8) (desc : BitVec 1024)
  /-- CONTEXT_RESET (R226): A reset op clears the record to unconfigured and zeroes the ring indices. -/
  | contextReset (f : Func) (ring : Fin 8) (desc : BitVec 1024)
  /-- ACCESS_UNIT_FETCH (R228): A ring entry and its access unit have been fetched and become pending, or are dropped as
  malformed or failed. -/
  | accessUnitFetch (ctx : Fin 1024) (entry : BitVec 256) (fetched : Option UnitInfo)
  /-- PIPE_SELECT (R233): A pipe selects the oldest pending access unit and a free slot, shedding work first if its
  backlog exceeds shed_ms. -/
  | pipeSelect (pipe : Fin 16) (now : Dword)
  /-- PICTURE_WRITTEN (R230): A decoded picture's billets and table entry are written, and out_sem is signalled. -/
  | pictureWritten (pipe : Fin 16) (pic : Picture)
  /-- BATCH_JOB (R240): A batch job is checked and its entries become dispatchable, or for class 1 it registers a raster
  lane's programs. -/
  | batchJob (f : Func) (ring : Fin 8) (desc : BitVec 1024)
  /-- DISPATCH (R245): A free array takes the first queue member that can use it, and its context is loaded and started.
  -/
  | dispatch (array : Fin 32)
  /-- CONTEXT_SAVE_DONE (R248): A context's save image is complete with its header, the context becomes saved, and event
  0x0912 is written. -/
  | contextSaveDone (ctx : Fin 2048) (parity : Option (SpMem × Nat))
  /-- CONTEXT_RESTORE_DONE (R250): A restore has read and verified its image, and the sequencer resumes, or the context
  is lost with event 0x0913. -/
  | contextRestoreDone (ctx : Fin 2048)
  /-- TEARDOWN_ORPHAN_TIMEOUT (R251): Tags still outstanding 150 µs after a context fault are orphaned. -/
  | teardownOrphanTimeout (ctx : Fin 2048)
  /-- RANGER_PERIOD (R253): Every period_us the ranger projects analytics entries and moves late lanes to coppice. -/
  | rangerPeriod (now : Dword)
  /-- RANGER_DEADLINE (R253): An analytics entry reaches its deadline while queued or waiting, and it ends with status 3
  and event 0x0915. -/
  | rangerDeadline (entry : Nat) (now : Dword)
  /-- SLOWDOWN_REPORT (R255): Every report_ms the ranger writes the slowdown report event 0x0916 for each class. -/
  | slowdownReport (now : Dword)
  /-- RNG_LANE_WRITE (R259): A PF write of RNG_LANE sets a lane's rung and force bit, or is ignored for rung 0b11. -/
  | rngLaneWrite (f : Func) (lane : Nat) (value : Word)
  /-- PTM_DIALOGUE (R263): The PTM interval expires; a PTM dialogue runs and device time steps or slews toward master
  time. -/
  | ptmDialogue (now : Dword) (master : Option Dword)
  /-- TB_SET (R264): TB_SET_CTL.go sets device time once per power-on while PTM is off, or is refused with cause 0x15. -/
  | tbSet (f : Func)
  /-- MAINS_POSITIVE_CROSSING (R266): A deglitched rising MSENSE edge restarts the mains angle and updates the
  frequency, history, state and disturbance classes. -/
  | mainsPositiveCrossing (now : Dword)
  /-- MAINS_NEGATIVE_CROSSING (R267): A falling MSENSE edge is checked for half-cycle asymmetry. -/
  | mainsNegativeCrossing (now : Dword)
  /-- MAINS_MISSING_CROSSING (R267): No positive crossing arrives within 1.25 mean periods, so the state becomes holding
  and a disturbance is reported. -/
  | mainsMissingCrossing (now : Dword)
  /-- PFW_FALL (R269): PFW_N stays low through the 2 µs deglitch, so the warning is recorded, event 0x0A12 is written
  and keep-store commits stop starting. -/
  | pfwFall (now : Dword)
  /-- PFW_RISE (R269): PFW_N stays high for 2 µs after a warning, so TB_PFW.low clears and event 0x0A12 reports the
  duration. -/
  | pfwRise (now : Dword)
  /-- PFW_REARM (R269): PFW_N has stayed high for rearm_ms, and keep-store commits are accepted again. -/
  | pfwRearm (now : Dword)
  /-- TA_ARM (R272): A TA_CTL write with trig not 0 validates the timed action and arms it. -/
  | taArm (f : Func) (entry : Fin 256) (ctl : Word)
  /-- TA_DISARM (R272): A TA_CTL write with trig 0 disarms the timed action. -/
  | taDisarm (f : Func) (entry : Fin 256) (ctl : Word)
  /-- TA_FIRE_COMMIT (R273): A timed action whose trigger is met writes PG_COMMIT.go to its page on behalf of func. -/
  | taFireCommit (entry : Fin 256) (now : Dword)
  /-- TA_FIRE_SIGNAL (R273): A timed action whose trigger is met adds its amount to its semaphore. -/
  | taFireSignal (entry : Fin 256) (now : Dword)
  /-- TA_FIRE_EVENT (R273): A timed action whose trigger is met writes event 0x0A14 to func's event ring 0. -/
  | taFireEvent (entry : Fin 256) (now : Dword)
  /-- TA_FIRE_SNAPSHOT (R273): A timed action whose trigger is met copies device time, the mains state and the output
  lines into a snapshot slot. -/
  | taFireSnapshot (entry : Fin 256) (now : Dword)
  /-- TA_STAT_READ (R277): A read of TA_STAT returns the entry status and clears its held and late bits. -/
  | taStatRead (f : Func) (entry : Fin 256)
  /-- OUTPUT_LINE (R270): An output's timing generator begins a line and composes and scans it out, feeding the check
  rectangles and writeback. -/
  | outputLine (out : Fin 4) (line : Nat) (now : Dword) (underruns : List Underrun)
  /-- STRIP_REQUEST (R281): At a strip's request line, brackets are selected, a parameter record is written and raster
  steps are queued for each enhanced layer. -/
  | stripRequest (out : Fin 4) (strip : Nat) (now : Dword)
  /-- DEADLINE_LINE (R254): At a strip's deadline line each incomplete layer strip is handed to the next rung within 1
  µs. -/
  | deadlineLine (out : Fin 4) (strip : Nat) (now : Dword)
  /-- TAKE_LINE (R290): At the take line each layer strip's source is fixed as its buffer or the floor scaler. -/
  | takeLine (out : Fin 4) (strip : Nat) (now : Dword)
  /-- DISPLAY_GROUP_COMMIT (R310): A go on an output page requests a group commit of the output's pages and assigned
  slot blocks, which is validated. -/
  | displayGroupCommit (f : Func) (page : Nat) (seq : BitVec 24)
  /-- COMMIT_LATCH (R312): At the cut-off line fences are tested, and the pending set latches as the next frame's state
  or is deferred. -/
  | commitLatch (out : Fin 4) (now : Dword)
  /-- FRAME_START (R312): At line 0 the latched set applies to scan-out, and the replaced buffers retire. -/
  | frameStart (out : Fin 4) (now : Dword)
  /-- DISPLAY_PLL_LOCKED (R312): The display PLL relocks after a timing change or enable, and the first frame starts at
  line 0. -/
  | displayPllLocked (out : Fin 4) (now : Dword)
  /-- DP_TRAIN (R303): DP_TRAIN.go starts DisplayPort link training at the active lanes and rate. -/
  | dpTrain (f : Func) (out : Fin 4)
  /-- DP_TRAIN_DONE (R303): Training ends as done or failed, and event 0x0B17 is written. -/
  | dpTrainDone (out : Fin 4) (ok : Bool)
  /-- HPD_LOW_TIMEOUT (R303): HPD stays low for more than 2 ms, so link_up clears and event 0x0B17 is written. -/
  | hpdLowTimeout (out : Fin 4)
  /-- IRQ_HPD (R303): An IRQ_HPD pulse makes the device read the DPCD lane status and drop link_up if a lane is
  unlocked. -/
  | irqHpd (out : Fin 4) (locked : Bool)
  /-- AUX_NATIVE_WRITE (R305): DP_AUX_CTL.go with command 0x8 starts a native AUX write. -/
  | auxNativeWrite (f : Func) (out : Fin 4) (ctl : Word)
  /-- AUX_NATIVE_READ (R305): DP_AUX_CTL.go with command 0x9 starts a native AUX read. -/
  | auxNativeRead (f : Func) (out : Fin 4) (ctl : Word)
  /-- AUX_I2C_WRITE (R305): DP_AUX_CTL.go with command 0x0 starts an I2C-over-AUX write. -/
  | auxI2cWrite (f : Func) (out : Fin 4) (ctl : Word)
  /-- AUX_I2C_READ (R305): DP_AUX_CTL.go with command 0x1 starts an I2C-over-AUX read. -/
  | auxI2cRead (f : Func) (out : Fin 4) (ctl : Word)
  /-- AUX_I2C_WRITE_MOT (R305): DP_AUX_CTL.go with command 0x4 starts an I2C-over-AUX write with MOT. -/
  | auxI2cWriteMot (f : Func) (out : Fin 4) (ctl : Word)
  /-- AUX_I2C_READ_MOT (R305): DP_AUX_CTL.go with command 0x5 starts an I2C-over-AUX read with MOT. -/
  | auxI2cReadMot (f : Func) (out : Fin 4) (ctl : Word)
  /-- AUX_REPLY (R305): An AUX transaction ends with ACK, NACK, DEFER after retries or timeout, and event 0x0B1A is
  written. -/
  | auxReply (out : Fin 4) (reply : AuxReply)
  /-- PSYNC_EDGE (R304): A rising PSYNC edge adjusts the front porch and moves the panel-sync state. -/
  | psyncEdge (out : Fin 4) (now : Dword)
  /-- PSYNC_LOST (R304): No edge is accepted for two frame periods, so sync becomes lost and the output runs free. -/
  | psyncLost (out : Fin 4)
  /-- TRACK_SET (R334): A set job decodes candidate boxes, suppresses overlaps and writes the detection list. -/
  | trackSet (f : Func) (ring : Fin 8) (desc : BitVec 1024)
  /-- TRACK_ASSOCIATE (R335): An associate job is checked and queued as an association problem for one camera picture. -/
  | trackAssociate (f : Func) (ring : Fin 8) (desc : BitVec 1024)
  /-- GRAPH_LOAD (R340): A graph load job replaces the camera graph, or is refused with cause 0x17. -/
  | graphLoad (f : Func) (ring : Fin 8) (desc : BitVec 1024)
  /-- TRACK_FLUSH (R332): A flush job ends every track of one camera with reason flushed. -/
  | trackFlush (f : Func) (ring : Fin 8) (desc : BitVec 1024)
  /-- PROBLEM_START (R342): The oldest association problem reaches the head with its stand cached, and is gated,
  assigned and updated, or coasted. -/
  | problemStart (now : Dword)
  /-- TRACK_BLOCK_FILL (R331): A track-cache block read completes, or on a checksum failure its tracks end and the block
  is freed. -/
  | trackBlockFill (part : Fin 8) (emb : Bool) (block : Fin 2048) (upset : List (Nat × Byte))
  /-- PARTITION_RESUME (R331): PG_CTL.resume restarts a faulted partition's stopped problem from its beginning. -/
  | partitionResume (f : Func) (part : Fin 8)
  /-- OFFER (R341): A track offer message is received and stored in the offer table, dropping the oldest offer if the
  table is full. -/
  | offer (port : Fin 2) (frame : List Byte) (offer : OfferMsg)
  /-- TAKEN_NOTICE (R341): A taken notice reaches the source device, which writes a taken entry and withdraws the other
  offers. -/
  | takenNotice (port : Fin 2) (frame : List Byte) (ident : Nat)
  /-- WITHDRAWAL (R341): A withdrawal message removes the identifier's offers. -/
  | withdrawal (port : Fin 2) (frame : List Byte) (ident : Nat)
  /-- DUPLICATE_NOTICE (R345): A duplicate notice makes the device give its record a new identifier and write a
  duplicate entry. -/
  | duplicateNotice (port : Fin 2) (frame : List Byte) (ident : Nat)
  /-- OFFER_EXPIRY (R341): An offer's eligibility ends at t_last + t_max and it is removed. -/
  | offerExpiry (now : Dword)
  /-- TP_RING_CONS_WRITE (R344): A write of TP_RING_CONS frees track-ring space and lets a pending overflow marker be
  written. -/
  | tpRingConsWrite (f : Func) (part : Fin 8) (value : Word)
  /-- PORT_TRAIN (R350): PG_CTL.train starts chain-port lane training. -/
  | portTrain (f : Func) (port : Fin 2)
  /-- PORT_DOWN (R363): PG_CTL.down takes a port down, discarding its frames and failing requests routed through it. -/
  | portDown (f : Func) (port : Fin 2)
  /-- PORT_TRAINING_DONE (R350): Lane training ends, and the port sends its hello frame or goes down with cause 0x12. -/
  | portTrainingDone (port : Fin 2) (lanes : BitVec 8)
  /-- HELLO (R350): A hello frame is checked for count, number and trust root, and the port goes up or is refused. -/
  | hello (port : Fin 2) (frame : List Byte) (count : Nat) (root : BitVec 64)
  /-- CH_ID_WRITE (R351): A write of CH_ID sets the device number and count, or is ignored with cause 0x17 while a port
  is up. -/
  | chIdWrite (f : Func) (value : Word)
  /-- WINDOW_READ_REQUEST (R362): A window read request is served from a readable stack window, or answered refused or
  with a checksum status. -/
  | windowReadRequest (port : Fin 2) (frame : List Byte)
  /-- COMPLETION (R353): A completion frame retires the requester's tag, or halts it, or schedules a busy retry by its
  status. -/
  | completion (port : Fin 2) (frame : List Byte)
  /-- FRAME_FORWARD (R356): A frame for another device is forwarded by its route, or discarded or answered unreachable. -/
  | frameForward (port : Fin 2) (frame : List Byte)
  /-- ACK (R355): An ack frees the covered frames from the replay buffer. -/
  | ack (port : Fin 2) (frame : List Byte)
  /-- NAK (R355): A nak makes the sender replay from the oldest unacked frame. -/
  | nak (port : Fin 2) (frame : List Byte)
  /-- CREDIT (R354): A credit frame returns buffer credits for one virtual channel. -/
  | credit (port : Fin 2) (frame : List Byte)
  /-- ACK_TIMER (R355): 1 µs after the oldest unacked received frame, the receiver sends an ack. -/
  | ackTimer (port : Fin 2)
  /-- REPLAY_TIMEOUT (R355): 8 µs without an ack causes a replay, and four replays without progress take the port down
  with cause 0x13. -/
  | replayTimeout (port : Fin 2)
  /-- REMOTE_TIMEOUT (R358): A remote request with no completion after timeout_us halts its requester with cause 0x081C.
  -/
  | remoteTimeout (ttag : Nat)
  /-- BUSY_RETRY (R353): 1 µs after a busy answer, the request is issued again. -/
  | busyRetry (ttag : Nat)
  /-- POWER_ON_RESET (R372): The rise of POR_N starts boot: straps are sampled, settings and identity selected, the
  random source started, and the control image read and checked. -/
  | powerOnReset (straps : Straps)
  /-- BOOT_COMPLETE (R372): Image loading and stack zeroing have both ended, and the host port is released. -/
  | bootComplete
  /-- FLASH_READ (R375): TR_FL_CTL with op 1 reads 256 B of boot flash into TR_FL_DATA. -/
  | flashRead (f : Func)
  /-- FLASH_PROGRAM (R375): TR_FL_CTL with op 2 programs 256 B of boot flash from TR_FL_DATA. -/
  | flashProgram (f : Func)
  /-- FLASH_ERASE (R375): TR_FL_CTL with op 3 erases a 64 KiB boot-flash sector. -/
  | flashErase (f : Func)
  /-- FLASH_DONE (R375): A flash operation completes and flash done is raised. -/
  | flashDone
  /-- ORDINARY_SET (R385): A keep-store command with op 1 checks and commits an ordinary setting change. -/
  | ordinarySet (f : Func) (ring : Fin 8) (desc : BitVec 1024) (body : List Byte)
  /-- SIGNED_CHANGE (R385): A keep-store command with op 2 checks format, serial, sequence, signature, value and tally,
  then commits a signed change or enrolment. -/
  | signedChange (f : Func) (ring : Fin 8) (desc : BitVec 1024) (body : List Byte)
  /-- ATTEST (R385): A keep-store command with op 3 writes a signed attestation report carrying the nonce. -/
  | attest (f : Func) (ring : Fin 8) (desc : BitVec 1024)
  /-- KEEP_COMMIT_DONE (R382): The tally mark, history entry and settings bank have been written, so the change applies
  and event 0x0211 is written. -/
  | keepCommitDone (failed : Bool)
  /-- RNG_HEALTH_FAILURE (R384): A random-source health test fails, so TR_RNG.failed is set and event 0x0213 is written.
  -/
  | rngHealthFailure (which : BitVec 2)
  /-- TR_RNG_DATA_READ (R384): A read of TR_RNG_DATA returns a conditioned random word, or is refused with cause 0x1B
  after a failure. -/
  | trRngDataRead (f : Func)
  /-- WARM_RESET (R396): GL_RST_CTL.warm or another trigger runs the fence, stop, re-select, restore and release steps
  of a warm reset. -/
  | warmReset (trigger : ResetTrigger)
  /-- DEVICE_FAULT (R391): A device-scope fault is logged and begins a warm reset, or enters no-service. -/
  | deviceFault (code : BitVec 16)
  /-- PCIE_RESET (R395): A PCI Express fundamental reset, hot reset or link-down performs a warm reset that waits for
  link training. -/
  | pcieReset (cause : PcieReset)
  /-- REFERENCE_CLOCK_LOSS (R413): A reference clock stops or leaves its accuracy, causing a device fault, a warm reset
  or the chain ports going down. -/
  | referenceClockLoss (clk : RefClock)
  /-- THERMAL_SENSOR_READ (R425): Every 100 µs the junction sensors are read and the alert, trip and thermtrip points
  are acted on. -/
  | thermalSensorRead (now : Dword) (sensors : List Int)
  /-- D3HOT_EXIT (R21): A function returns from D3hot to D0 and may take work again. -/
  | d3hotExit (f : Func)
  /-- POR_N_FALL (R410): The board drives POR_N low, and the device enters power-on reset and interrupts any keep-store
  commit as R382 sets out. -/
  | porNFall
  /-- NEIGHBOUR_LINK_DOWN (R405): The chain link drops because the neighbour resets or stops, and the local port goes
  down under R363. -/
  | neighbourLinkDown (port : Fin 2)
  /-- HOST_COMPLETION_ERROR (R37): A device read from host memory completes with UR, CA or poisoned data, recording
  cause 0x19, and the reading ring halts or the owning block handles it. -/
  | hostCompletionError (reader : HostReader)
  /-- TRACK_RING_INTERRUPT_TIMER (R347): The TP_RING_MOD time limit expires with unsignalled track-ring entries, and the
  partition's ring interrupt is raised. -/
  | trackRingInterruptTimer (part : Fin 8) (now : Dword)
  /-- SRIOV_VF_ENABLE (R51): The host enables or disables VFs through SR-IOV configuration space, which changes which
  functions may own units. -/
  | sriovVfEnable (count : Nat)
  deriving DecidableEq, Repr

end Sys2Proof
end

