-- ==== Sys2Proof/Machine/Sizes.lean ====
section
/-! DEFINITION. How many there are of what the device has: units, lines, banks, tags, and the sizes of the windows. -/

namespace Sys2Proof.Machine

/-- How many units of a kind there are (R47). -/
def unitCount : UnitKind → Nat
  | .array => 32
  | .pooled => 16
  | .semRange => 64
  | .pipe => 16
  | .stream => 1024
  | .output => 4
  | .videoPair => 32
  | .graphicPair => 8
  | .window => 64
  | .partition => 8

/-- The lines of a memory (R146). -/
def memLines : SpMem → Nat
  | .pm => 4096
  | _ => 16384

/-- The lines of a bank (R146). -/
def bankLines : SpMem → Nat
  | .pm => 512
  | _ => 1024

/-- The banks of a memory (R146). -/
def memBanks (m : SpMem) : Nat := memLines m / bankLines m

/-- The tags of an engine (R175). -/
def engTags (e : Nat) : Nat := if e < 64 then 256 else 512

/-- The size of a window of a function, in bytes (R24). -/
def barSize (f : Func) : Bar → Nat
  | .bar0 => if f.val = 0 then 2 ^ 24 else 2 ^ 20
  | .bar4 => 2 ^ 16

/-- The size of BAR2 (R24). -/
def bar2Size : Nat := 2 ^ 35

/-- The device ID that a function reports in configuration space (R24). -/
def deviceId (f : Func) : Nat := if f.val = 0 then 0x1024 else 0x1025

/-- The class code of every function: processing accelerator (R24). -/
def classCode : Nat := 0x120000

/-- The identity words of a function's configuration space, at offsets 0x00 and 0x08 (R24; the places are those of the PCI
Express base specification, PRESUMED, log entry 53): the vendor identifier and the revision, of which the spec gives no
number, are constants without a value. -/
def configWord (f : Func) (off : Nat) : Nat :=
  match off with
  | 0x00 => Config.vendorId.toNat + 2 ^ 16 * deviceId f
  | 0x08 => Config.revisionId.toNat + 2 ^ 8 * classCode
  | _ => 0

/-- The pages in the model's numbering: the 4,096 of BAR0, then the 32 global pages (R26). -/
def pageCount : Nat := 0x1020

end Sys2Proof.Machine
end

