-- ==== Sys2Proof/WellFormed.lean ====
section
/-! DEFINITION. Which commands are well formed: those whose operands name something the device has. A command that is not
names no page, unit, line, tag or code of this device and never reaches it; it changes nothing (log entry 57). -/

namespace Sys2Proof

open Sys2Proof.Machine

/-- A unit that exists (R47). -/
def UnitId.wf (u : UnitId) : Bool := decide (u.num < unitCount u.kind)

/-- A line of a scratchpad memory that exists (R146). -/
def lineWf (p : SpMem × Nat) : Bool := decide (p.2 < memLines p.1)

/-- An access that lies in a window, with a value of its size (R24, R25). -/
def accessWf (size off : Nat) : Access → Bool
  | .read n => decide (0 < n) && decide (off + n ≤ size)
  | .write n v => decide (0 < n) && decide (off + n ≤ size) && decide (v.toNat < 256 ^ n)

/-- A request result that names a line where it names one. -/
def RequestResult.wf : RequestResult → Bool
  | .parity m l => lineWf (m, l)
  | _ => true

/-- A self-check result whose column exists (R118). -/
def SelfCheck.wf : SelfCheck → Bool
  | .parity c | .residue c => decide (c < 128)
  | .sequencer => true

/-- A reader that exists. -/
def HostReader.wf : HostReader → Bool
  | .engine e t => decide (t < engTags e.val)
  | _ => true

/-- The codes of device faults (R392). -/
def deviceFaultCodes : List (BitVec 16) := [0x0130, 0x0131, 0x0132, 0x0133, 0x0134, 0x0137]

/-- Whether a command's operands name what the device has. -/
def Instr.wf : Instr → Bool
  | .linkChange speed width => decide (1 ≤ speed) && decide (speed ≤ 4) && [1, 4, 8].contains width
  | .registerWrite f bar off acc => accessWf (barSize f bar) off acc
  | .bar2Read off len => decide (off + len ≤ bar2Size)
  | .bar2Write off data => decide (off + data.length ≤ bar2Size)
  | .pgCommitGo _ page _ | .pgCommitAbandon _ page | .commitPoint page | .errClear _ page
  | .displayGroupCommit _ page _ => decide (page < pageCount)
  | .rebindStopDone u | .rebindScrubDone u => u.wf
  | .orphanedTagReturn e tag => decide (tag < engTags e.val)
  | .stepIssue _ p | .contextSaveDone _ p => (p.map lineWf).getD true
  | .arraySelfCheckFailure _ c => c.wf
  | .bankRetention _ m b | .bankWakeDone _ m b => decide (b < memBanks m)
  | .requestRetire e tag r => decide (tag < engTags e.val) && r.wf
  | .hostCompletionTimeout r | .hostCompletionError r => r.wf
  | .rngLaneWrite _ lane _ => decide (lane < 2048)
  | .outputLine _ line _ _ => decide (line < 4096)
  | .stripRequest _ k _ | .deadlineLine _ k _ | .takeLine _ k _ => decide (k < 256)
  | .deviceFault code => deviceFaultCodes.contains code
  | .powerOnReset t => decide (-128 ≤ t.hottest) && decide (t.hottest < 128)
  | .thermalSensorRead _ l => decide (l.length = 16) && l.all fun v => decide (-128 ≤ v) && decide (v < 128)
  | _ => true

end Sys2Proof
end

