-- ==== Sys2Proof/Machine/Bits.lean ====
section
/-! DEFINITION. Bit fields, byte order and CRC-32C (R1). -/

namespace Sys2Proof.Machine

/-- The value of field [lo+len-1:lo] of a register, descriptor or record (R1). -/
def fld {n : Nat} (w : BitVec n) (lo len : Nat) : Nat := (w.toNat >>> lo) % 2 ^ len

/-- Bit `i` of a register, descriptor or record. -/
def bit {n : Nat} (w : BitVec n) (i : Nat) : Bool := w.toNat.testBit i

/-- `w` with field [lo+len-1:lo] holding the low `len` bits of `v`. -/
def putFld {n : Nat} (w : BitVec n) (lo len v : Nat) : BitVec n :=
  (w &&& ~~~ BitVec.ofNat n ((2 ^ len - 1) <<< lo)) ||| BitVec.ofNat n ((v % 2 ^ len) <<< lo)

/-- 1 for true, 0 for false. -/
def b2n (b : Bool) : Nat := if b then 1 else 0

/-- The `i`-th byte of a value, byte 0 holding bits [7:0] (R1). -/
def byteAt {n : Nat} (w : BitVec n) (i : Nat) : Byte := BitVec.ofNat 8 (w.toNat >>> (8 * i))

/-- The low `k` bytes of a number, least significant first (R1). -/
def natBytes : Nat → Nat → List Byte
  | 0, _ => []
  | k + 1, v => BitVec.ofNat 8 v :: natBytes k (v / 256)

/-- The number a little-endian byte list stands for (R1). -/
def bytesNat : List Byte → Nat
  | [] => 0
  | b :: bs => b.toNat + 256 * bytesNat bs

/-- Two's complement reading of the low `len` bits of `v`. -/
def signedOf (v len : Nat) : Int :=
  if (v % 2 ^ len) < 2 ^ (len - 1) then ((v % 2 ^ len : Nat) : Int) else ((v % 2 ^ len : Nat) : Int) - (2 ^ len : Nat)

/-- The low `len` bits of an integer in two's complement. -/
def wrapInt (v : Int) (len : Nat) : Nat := (v % ((2 ^ len : Nat) : Int)).toNat

/-- `(a - b) mod 2^32` of two free-running 32-bit indices (R29). -/
def sub32 (a b : Nat) : Nat := (a + 2 ^ 32 - b % 2 ^ 32) % 2 ^ 32

/-- The semaphore test of R42 and R189: `(semaphore - target) mod 2^32 < 2^31`. -/
def reached (value target : Word) : Bool := sub32 value.toNat target.toNat < 2 ^ 31

/-- One bit step of CRC-32C, reflected form, polynomial 0x1EDC6F41. -/
def crcBit (c : Nat) : Nat := if c % 2 = 1 then (c / 2) ^^^ 0x82F63B78 else c / 2

/-- The CRC-32C register after one more byte. -/
def crcByte (c : Nat) (b : Byte) : Nat :=
  crcBit (crcBit (crcBit (crcBit (crcBit (crcBit (crcBit (crcBit (c ^^^ b.toNat))))))))

/-- CRC-32C of a byte list: initial value and final inversion all ones. -/
def crc32c (bs : List Byte) : Word := BitVec.ofNat 32 ((bs.foldl crcByte 0xFFFFFFFF) ^^^ 0xFFFFFFFF)

/-- Rounded-up quotient. -/
def ceilDiv (a b : Nat) : Nat := (a + b - 1) / b

/-- `v` held at most `m` (a saturating count). -/
def satNat (m v : Nat) : Nat := if v ≤ m then v else m

end Sys2Proof.Machine
end

