-- ==== Sys2Proof/Machine/Tables.lean ====
section
/-! DEFINITION. Sparse tables: a list of (key, value) pairs with keys strictly rising and no entry equal to what an
unlisted key holds, so that equal tables are equal lists. Every table of the state, memory among them, has this form. -/

namespace Sys2Proof.Machine

/-- A table from numbers to values; an unlisted key holds the table's default for it. -/
abbrev Table (α : Type) := List (Nat × α)

/-- The value at key `k`, where `d` gives what unlisted keys hold. -/
def tblGet {α : Type} (d : Nat → α) (k : Nat) : Table α → α
  | [] => d k
  | (k', v) :: t => if k' = k then v else tblGet d k t

/-- The table without key `k`. -/
def tblDrop {α : Type} (k : Nat) : Table α → Table α
  | [] => []
  | (k', v) :: t => if k' = k then tblDrop k t else (k', v) :: tblDrop k t

/-- `(k, v)` put before the first greater key. -/
def tblPut {α : Type} (k : Nat) (v : α) : Table α → Table α
  | [] => [(k, v)]
  | (k', v') :: t => if k < k' then (k, v) :: (k', v') :: t else (k', v') :: tblPut k v t

/-- The table that holds `v` at `k`: writing the default removes the entry. -/
def tblSet {α : Type} [DecidableEq α] (d : Nat → α) (k : Nat) (v : α) (t : Table α) : Table α :=
  if v = d k then tblDrop k t else tblPut k v (tblDrop k t)

/-- The table with every key from `lo` below `hi` back at its default. -/
def tblClear {α : Type} (lo hi : Nat) (t : Table α) : Table α := t.filter fun e => e.1 < lo ∨ hi ≤ e.1

/-- Every key of the table is greater than `k`, and the keys rise strictly. -/
def tblRising {α : Type} (k : Nat) : Table α → Bool
  | [] => true
  | (k', _) :: t => decide (k < k') && tblRising k' t

/-- The canonical form: keys strictly rising, no entry equal to its default. -/
def tblOk {α : Type} [DecidableEq α] (d : Nat → α) : Table α → Bool
  | [] => true
  | (k, v) :: t => decide (v ≠ d k) && tblRising k t && tblOk d t

end Sys2Proof.Machine
end

