-- ==== Sys2Proof/Machine/RegMap.lean ====
section
/-! DEFINITION. The register map: which register stands at which page and offset, the access type of each of its bits
(R4) and its reset value, written out from the register tables of every chapter, with the page numbers of R31. -/

namespace Sys2Proof.Machine

/-- One row of a register table: `count` registers from `base` on, `stride` bytes apart. Each mask names the bits of
one access type of R4; W1S bits read 0 and hold nothing, so they have no mask; bits in no mask are reserved and read 0
(R5). -/
structure RegSpec where
  base : Nat
  stride : Nat := 4
  count : Nat := 1
  rw : Nat := 0
  sh : Nat := 0
  w1c : Nat := 0
  rc : Nat := 0
  ro : Nat := 0
  reset : Nat := 0
  deriving DecidableEq, Repr

/-- The classes of register pages (R31). -/
inductive PageClass where
  | global | hostPort | msix | vfMsix | pba | array | quant | spad | handles | landing | engine | sem | memory | decode | pipe
  | sched | timebase | actions | link | comp | evid | strip | vslot | gslot | floor | track | part | port | chain
  | window | trust
  deriving DecidableEq, Repr

/-- Register map of the header page class (R32). -/
def RegMap.headerRegs : List RegSpec :=
  [ { base := 0x0, ro := 0xffffff },  -- PG_ID
    { base := 0x4, ro := 0xffff, reset := 0x100 },  -- PG_VER
    { base := 0x8, ro := 0xffffffff },  -- PG_CAP
    { base := 0xc, ro := 0xffff01df },  -- PG_BIND
    { base := 0x10, rw := 0xb },  -- PG_CTL
    { base := 0x14, ro := 0xffffffff },  -- PG_STAT
    { base := 0x18, w1c := 0xffffffff },  -- PG_IRQ_RAW
    { base := 0x1c, rw := 0xffffffff },  -- PG_IRQ_EN
    { base := 0x20, ro := 0xffffffff },  -- PG_ERR
    { base := 0x24, ro := 0xffffffff },  -- PG_ERR_INFO0
    { base := 0x28, ro := 0xffffffff },  -- PG_ERR_INFO1
    { base := 0x2c, rw := 0x7ff000f },  -- PG_EVT
    { base := 0x30, rw := 0xffffff00 },  -- PG_COMMIT
    { base := 0x34, ro := 0xffffff0f },  -- PG_COMMIT_STAT
    { base := 0x40, stride := 4, count := 48, ro := 0xffffffff } ]  -- counters

/-- Register map of the global page class (R39, R41, R44, R404, R415). -/
def RegMap.globalRegs : List RegSpec :=
  [ { base := 0x100, stride := 4, count := 64, ro := 0xffffffff },  -- size table
    { base := 0x200, stride := 4, count := 2, ro := 0xffffffff },  -- GL_TIME_LO
    { base := 0x208, ro := 0x3f },  -- GL_FUNC
    { base := 0x20c, ro := 0x10f0f },  -- GL_LINK
    { base := 0x210, ro := 0x7 },  -- GL_STRAP
    { base := 0x214, w1c := 0x2000, ro := 0x1fff },  -- GL_TEMP
    { base := 0x218, ro := 0xffff, reset := 0x7364 },  -- GL_TLIM
    { base := 0x300, rw := 0x6, reset := 0x4 },  -- GL_RST_CTL
    { base := 0x304, w1c := 0x8, ro := 0xffff0017 },  -- GL_RST_STAT
    { base := 0x308, ro := 0xffffffff },  -- GL_FELLED
    { base := 0x30c, ro := 0xffff },  -- GL_UNAVAIL
    { base := 0x310, ro := 0x3ff },  -- GL_FLOG_POS
    { base := 0x314, ro := 0xffffffff },  -- GL_FLOG_OVER
    { base := 0x318, rw := 0x3ff },  -- GL_FLOG_SEL
    { base := 0x320, stride := 4, count := 8, ro := 0xffffffff },  -- GL_FLOG_ENTRY
    { base := 0x400, stride := 32, count := 8, rw := 0xffffffff },  -- EVR_BASE_LO
    { base := 0x404, stride := 32, count := 8, rw := 0xffffffff },  -- EVR_BASE_HI
    { base := 0x408, stride := 32, count := 8, rw := 0x87ff001f },  -- EVR_CFG
    { base := 0x40c, stride := 32, count := 8, rw := 0xffffffff, reset := 0x1 },  -- EVR_MOD
    { base := 0x410, stride := 32, count := 8, ro := 0xffffffff },  -- EVR_PROD
    { base := 0x414, stride := 32, count := 8, ro := 0xffffffff },  -- EVR_CONS
    { base := 0x418, stride := 32, count := 8, ro := 0xffffffff },  -- EVR_DROP
    { base := 0x500, stride := 32, count := 8, rw := 0xffffffff },  -- JR_BASE_LO
    { base := 0x504, stride := 32, count := 8, rw := 0xffffffff },  -- JR_BASE_HI
    { base := 0x508, stride := 32, count := 8, rw := 0x8000001f },  -- JR_CFG
    { base := 0x50c, stride := 32, count := 8, rw := 0xffffff },  -- JR_SEQ
    { base := 0x510, stride := 32, count := 8, ro := 0xffffffff },  -- JR_PROD
    { base := 0x514, stride := 32, count := 8, ro := 0xffffffff },  -- JR_CONS
    { base := 0x518, stride := 32, count := 8, ro := 0xffff0001 },  -- JR_STAT
    { base := 0x51c, stride := 32, count := 8 },  -- JR_CTL
    { base := 0x800, stride := 4, count := 128, ro := 0xffffffff },  -- GL_PMAP
    { base := 0xa00, stride := 4, count := 32, ro := 0xffffffff } ]  -- GL_CTXMAP

/-- Register map of the array page class (R121, R122). -/
def RegMap.arrayRegs : List RegSpec :=
  [ { base := 0x10, rw := 0xc00 },  -- PG_CTL
    { base := 0x14, ro := 0x3fff00 },  -- PG_STAT
    { base := 0x18, w1c := 0x3f00 },  -- PG_IRQ_RAW
    { base := 0x100, ro := 0xffffffff },  -- ARR_PROG_LO
    { base := 0x104, ro := 0xffff },  -- ARR_PROG_HI
    { base := 0x108, ro := 0xffffffff },  -- ARR_STEP
    { base := 0x10c, ro := 0x7ffff },  -- ARR_CTX
    { base := 0x110, stride := 4, count := 4, ro := 0xffffffff },  -- ARR_LAST
    { base := 0x120, ro := 0xffffffff },  -- ARR_FAULT
    { base := 0x124, ro := 0xffffffff },  -- ARR_BOUND
    { base := 0x128, ro := 0x3ff } ]  -- ARR_CHECK

/-- Register map of the quant page class (R97). -/
def RegMap.quantRegs : List RegSpec :=
  [ { base := 0x100, stride := 32, count := 8, sh := 0xff3fff, reset := 0x7e0000 },  -- QP_CFG
    { base := 0x104, stride := 32, count := 8, sh := 0xffffffff, reset := 0x3f800000 },  -- QP_S2
    { base := 0x108, stride := 32, count := 8, rc := 0xffffffff },  -- QP_MAXABS
    { base := 0x10c, stride := 32, count := 8, rc := 0xffffffff } ]  -- QP_HW_MAXABS

/-- Register map of the spad page class (R169). -/
def RegMap.spadRegs : List RegSpec :=
  [ { base := 0x100, rw := 0xffff, reset := 0x400 },  -- SP_CFG
    { base := 0x104, ro := 0xffffffff },  -- SP_BANKS
    { base := 0x108, ro := 0xff },  -- SP_BANKS_PM
    { base := 0x10c, ro := 0xffff0007 },  -- SP_SCRUB
    { base := 0x110, rw := 0x3fff0003 },  -- SP_PMW_BASE
    { base := 0x114, rw := 0xffffffff },  -- SP_DUMP_LO
    { base := 0x118, rw := 0x7 },  -- SP_DUMP_HI
    { base := 0x11c, rw := 0xe, ro := 0x100, reset := 0xe },  -- SP_DUMP_CTL
    { base := 0x800, stride := 4, count := 512, ro := 0xffffffff } ]  -- SP_PMW

/-- Register map of the handles page class (R171). -/
def RegMap.handlesRegs : List RegSpec :=
  [ { base := 0x100, stride := 4, count := 256, ro := 0xffffffff },  -- HT_ENTRY
    { base := 0x500, ro := 0xffffffff },  -- HT_VALID_LO
    { base := 0x504, ro := 0xffffffff },  -- HT_VALID_HI
    { base := 0x508, ro := 0xffffffff },  -- HT_LIVE
    { base := 0x50c, ro := 0x7fff7fff },  -- HT_LINES
    { base := 0x510, ro := 0x1fff } ]  -- HT_LINES_PM

/-- Register map of the landing page class (R172). -/
def RegMap.landingRegs : List RegSpec :=
  [ { base := 0x100, rw := 0x3f, reset := 0x18 },  -- SP_LC_CFG
    { base := 0x104, ro := 0x7fff7fff, reset := 0x4000 },  -- SP_LC_FRAMES
    { base := 0x108, ro := 0x7f },  -- SP_LC_RES
    { base := 0x200, stride := 16, count := 64, ro := 0xffff07f7 },  -- SP_LC_SLOT word 0
    { base := 0x204, stride := 16, count := 64, ro := 0xffffff },  -- word 1
    { base := 0x208, stride := 16, count := 64, ro := 0xffffffff },  -- word 2
    { base := 0x20c, stride := 16, count := 64, ro := 0xffffffff } ]  -- word 3

/-- Register map of the engine page class (R200, R201). -/
def RegMap.engineRegs : List RegSpec :=
  [ { base := 0x10 },  -- PG_CTL
    { base := 0x14, ro := 0x1f00 },  -- PG_STAT
    { base := 0x18, w1c := 0x700 },  -- PG_IRQ_RAW
    { base := 0x100, rw := 0xffffffff },  -- ENG_LIST_LO
    { base := 0x104, rw := 0xffff },  -- ENG_LIST_HI
    { base := 0x108, rw := 0xffff, ro := 0xffff0000 },  -- ENG_LIST_LEN
    { base := 0x10c, rw := 0xffff },  -- ENG_HOST_HI
    { base := 0x110, ro := 0xfff, reset := 0x259 },  -- ENG_SPLIT
    { base := 0x114, ro := 0x3fffffff },  -- ENG_TAGS
    { base := 0x118, ro := 0xfffffff },  -- ENG_POS0
    { base := 0x11c, ro := 0xffffff },  -- ENG_POS1
    { base := 0x120, ro := 0xffff0fff },  -- ENG_POS2
    { base := 0x124, ro := 0xffffffff },  -- ENG_FAULT_LO
    { base := 0x128, ro := 0xffffffff },  -- ENG_FAULT_HI
    { base := 0x130, rw := 0xffffffff },  -- ENG_RA_SRC_LO
    { base := 0x134, rw := 0xffff },  -- ENG_RA_SRC_HI
    { base := 0x138, rw := 0xffffffff },  -- ENG_RA_DST_LO
    { base := 0x13c, rw := 0xffff },  -- ENG_RA_DST_HI
    { base := 0x140, rw := 0xffffff },  -- ENG_RA_SEQ
    { base := 0x144, rw := 0xffff00 },  -- ENG_RA_CTL
    { base := 0x180, stride := 4, count := 16, ro := 0xffffffff } ]  -- ENG_DESC

/-- Register map of the sem page class (R203). -/
def RegMap.semRegs : List RegSpec :=
  [ { base := 0x100, stride := 4, count := 64, rw := 0xffffffff },  -- SEM_VAL
    { base := 0x200, stride := 4, count := 64 },  -- SEM_ADD
    { base := 0x300, stride := 4, count := 64, ro := 0x1ffff },  -- SEM_CLAIM
    { base := 0x400, stride := 4, count := 2, ro := 0xffffffff },  -- SEM_WAIT
    { base := 0x408, ro := 0x3 } ]  -- SEM_INFO

/-- Register map of the memory page class (R221). -/
def RegMap.memoryRegs : List RegSpec :=
  [ { base := 0x100, ro := 0xffff, reset := 0x5fc0 },  -- MEM_MAP
    { base := 0x104, rw := 0xffff0001, reset := 0x3e80000 },  -- MEM_PATROL
    { base := 0x108, ro := 0xffffff },  -- MEM_PATROL_POS
    { base := 0x10c, rw := 0x3ff, ro := 0x3ff0000, reset := 0x80 },  -- MEM_RSV
    { base := 0x110, rw := 0xffffffff },  -- MEM_INV_VA_LO
    { base := 0x114, rw := 0xffff },  -- MEM_INV_VA_HI
    { base := 0x118, rw := 0xffffff04, ro := 0x2 },  -- MEM_INV_CTL
    { base := 0x200, stride := 4, count := 32, ro := 0xffffffff },  -- MEM_BAD
    { base := 0x280, ro := 0x1f },  -- MEM_BAD_POS
    { base := 0x400, stride := 8, count := 128, rw := 0xfffff001 },  -- MEM_ROOT low
    { base := 0x404, stride := 8, count := 128, rw := 0x7 } ]  -- MEM_ROOT high

/-- Register map of the decode page class (R236). -/
def RegMap.decodeRegs : List RegSpec :=
  [ { base := 0x100, rw := 0x3ff },  -- DEC_SEL
    { base := 0x104, ro := 0xffff3f07 },  -- DEC_CTX_STAT
    { base := 0x140, stride := 4, count := 32, ro := 0xffffffff } ]  -- DEC_REC

/-- Register map of the pipe page class (R236). -/
def RegMap.pipeRegs : List RegSpec :=
  [ { base := 0x100, rw := 0xff, reset := 0x14 },  -- DEC_PIPE_CFG
    { base := 0x104, ro := 0xffffffff },  -- DEC_PIPE_LOAD
    { base := 0x108, ro := 0xffffffff },  -- DEC_PIPE_BACKLOG
    { base := 0x10c, ro := 0x7ff } ]  -- DEC_PIPE_CTXS

/-- Register map of the sched page class (R258, R259). -/
def RegMap.schedRegs : List RegSpec :=
  [ { base := 0x10, rw := 0x100 },  -- PG_CTL
    { base := 0x14, ro := 0xfff00 },  -- PG_STAT
    { base := 0x18, w1c := 0xf00 },  -- PG_IRQ_RAW
    { base := 0x100, rw := 0xfff3, reset := 0x1f41 },  -- SCHED_CFG
    { base := 0x104, ro := 0xffffff },  -- SCHED_CTX
    { base := 0x110, rw := 0xff0fff, reset := 0x100064 },  -- RNG_CFG
    { base := 0x114, rw := 0xffffffff, reset := 0x138807d0 },  -- RNG_MARGIN
    { base := 0x118, rw := 0xff, reset := 0x4 },  -- RNG_RST
    { base := 0x11c, rw := 0xffff, reset := 0x3e8 },  -- RNG_REPORT
    { base := 0x120, rw := 0x7ff },  -- RNG_SEL
    { base := 0x124, rw := 0x7, ro := 0xffffff00 },  -- RNG_LANE
    { base := 0x130, rw := 0x7ff },  -- SCHED_CSEL
    { base := 0x134, ro := 0xffffff },  -- SCHED_CSTAT
    { base := 0x138, stride := 4, count := 2, ro := 0xffffffff } ]  -- SCHED_CDL

/-- Register map of the timebase page class (R276). -/
def RegMap.timebaseRegs : List RegSpec :=
  [ { base := 0x100, rw := 0x1ffff03, reset := 0xc80a00 },  -- TB_CFG
    { base := 0x104, ro := 0x3 },  -- TB_PTM_STAT
    { base := 0x108, ro := 0xffffffff },  -- TB_PTM_OFS
    { base := 0x10c, stride := 4, count := 2, rw := 0xffffffff },  -- TB_SET
    { base := 0x114 },  -- TB_SET_CTL
    { base := 0x120, rw := 0xffff, reset := 0x38e },  -- TB_MAINS_CFG
    { base := 0x124, w1c := 0x1f00, ro := 0x3 },  -- TB_MAINS_STAT
    { base := 0x128, ro := 0xffffffff },  -- TB_MAINS_FREQ
    { base := 0x12c, ro := 0xffff },  -- TB_MAINS_ANGLE
    { base := 0x130, ro := 0xffffffff },  -- TB_MAINS_CYC
    { base := 0x140, w1c := 0x2, ro := 0xffff0001 },  -- TB_PFW
    { base := 0x144, rw := 0xffff, reset := 0x64 },  -- TB_PFW_CFG
    { base := 0x148, stride := 4, count := 2, ro := 0xffffffff },  -- TB_PFW_T
    { base := 0x180, stride := 16, count := 4, ro := 0x3ffff },  -- TB_LINE
    { base := 0x184, stride := 16, count := 4, ro := 0xffffffff },  -- TB_LINE frame
    { base := 0x188, stride := 16, count := 4, ro := 0xffffffff },  -- TB_LINE t0 low
    { base := 0x18c, stride := 16, count := 4, ro := 0xffffffff },  -- TB_LINE t0 high
    { base := 0x200, stride := 4, count := 128, ro := 0xffffffff },  -- TB_SNAP
    { base := 0x400, stride := 4, count := 512, ro := 0xffffffff } ]  -- TB_MAINS_HIST

/-- Register map of the actions page class (R271, R277). -/
def RegMap.actionsRegs : List RegSpec :=
  [ { base := 0x100, stride := 16, count := 128, rw := 0xffffffff },  -- TA_CTL
    { base := 0x104, stride := 16, count := 128, rw := 0xffffffff },  -- TA_ARG
    { base := 0x108, stride := 16, count := 128, rw := 0xffffffff },  -- TA_TIME_LO
    { base := 0x10c, stride := 16, count := 128, rw := 0xffffffff },  -- TA_TIME_HI
    { base := 0x900, stride := 4, count := 128, rc := 0xc, ro := 0xffff0003 } ]  -- TA_STAT

/-- Register map of the link page class (R305). -/
def RegMap.linkRegs : List RegSpec :=
  [ { base := 0x100, sh := 0x1fff1fff },  -- DT_H
    { base := 0x104, sh := 0xfff0fff },  -- DT_HB
    { base := 0x108, sh := 0xfff0fff },  -- DT_V
    { base := 0x10c, sh := 0x3f0fff },  -- DT_VB
    { base := 0x110, sh := 0xfffff },  -- DT_PCLK
    { base := 0x114, sh := 0x3fff, reset := 0x100 },  -- DT_CFG
    { base := 0x118, ro := 0xff3f },  -- DT_STAT
    { base := 0x120, ro := 0xe },  -- DP_TRAIN
    { base := 0x130, rw := 0xfffffff },  -- DP_AUX_CTL
    { base := 0x134, ro := 0xff },  -- DP_AUX_STAT
    { base := 0x140, stride := 4, count := 4, rw := 0xffffffff } ]  -- DP_AUX_DATA

/-- Register map of the comp page class (R324). -/
def RegMap.compRegs : List RegSpec :=
  [ { base := 0x10, rw := 0x100 },  -- PG_CTL
    { base := 0x100, sh := 0x3fffffff },  -- DC_BG
    { base := 0x104, sh := 0xf103ff, reset := 0x200000 },  -- DC_CFG
    { base := 0x108, ro := 0xfff },  -- DC_CUT
    { base := 0x10c, sh := 0xffffffff },  -- DC_FLAT_LO
    { base := 0x110, sh := 0xffff },  -- DC_FLAT_HI
    { base := 0x114, ro := 0xf03 },  -- DC_FLAT_STAT
    { base := 0x118, sh := 0x8fff },  -- DC_RETIRE
    { base := 0x11c, ro := 0x3ff },  -- DC_RSV
    { base := 0x120, ro := 0xffff },  -- DC_STALE
    { base := 0x124, stride := 4, count := 2, ro := 0xffffffff },  -- DC_OFF
    { base := 0x12c, ro := 0xffff } ]  -- DC_OFF_G

/-- Register map of the evid page class (R325). -/
def RegMap.evidRegs : List RegSpec :=
  [ { base := 0x100, stride := 32, count := 16, sh := 0x3 },  -- CR_CFG
    { base := 0x104, stride := 32, count := 16, sh := 0x1fff1fff },  -- CR_POS
    { base := 0x108, stride := 32, count := 16, sh := 0x1fff1fff },  -- CR_SIZE
    { base := 0x10c, stride := 32, count := 16, sh := 0xffffffff },  -- CR_EXP
    { base := 0x110, stride := 32, count := 16, ro := 0xffffffff },  -- CR_CAP
    { base := 0x114, stride := 32, count := 16, ro := 0xffffffff },  -- CR_FRAME
    { base := 0x118, stride := 32, count := 16, ro := 0xffff },  -- CR_MISS
    { base := 0x300, ro := 0xffffffff },  -- CR_RESULT
    { base := 0x400, sh := 0x1ffff, reset := 0x2 },  -- WB_CFG
    { base := 0x404, sh := 0xffffffff },  -- WB_BASE_LO
    { base := 0x408, sh := 0xffff },  -- WB_BASE_HI
    { base := 0x40c, sh := 0xffff },  -- WB_PITCH
    { base := 0x410, sh := 0xffffffff },  -- WB_REC_LO
    { base := 0x414, sh := 0xffff },  -- WB_REC_HI
    { base := 0x418, rw := 0xffffffff },  -- WB_CONS
    { base := 0x41c, ro := 0xffffffff } ]  -- WB_PROD

/-- Register map of the strip page class (R295). -/
def RegMap.stripRegs : List RegSpec :=
  [ { base := 0x100, sh := 0xfffff, reset := 0x10243 },  -- RST_CFG
    { base := 0x104, ro := 0xffff },  -- RST_STAT
    { base := 0x108, ro := 0xff0fff },  -- RST_LINES
    { base := 0x10c, ro := 0xffffffff },  -- RST_LOAD
    { base := 0x110, ro := 0x3ff },  -- RST_RSV
    { base := 0x114, ro := 0xffff } ]  -- RST_SLOT

/-- Register map of the vslot page class (R296, R308). -/
def RegMap.vslotRegs : List RegSpec :=
  [ { base := 0x100, stride := 256, count := 2, sh := 0x7ff3f07, reset := 0x5b0000 },  -- VL_CFG
    { base := 0x104, stride := 256, count := 2, sh := 0x1fff1fff },  -- VL_SRC0
    { base := 0x108, stride := 256, count := 2, sh := 0x1fff1fff },  -- VL_SRC1
    { base := 0x10c, stride := 256, count := 2, sh := 0x1fff1fff },  -- VL_DST0
    { base := 0x110, stride := 256, count := 2, sh := 0x1fff1fff },  -- VL_DST1
    { base := 0x114, stride := 256, count := 2, sh := 0xff, reset := 0xff },  -- VL_ALPHA
    { base := 0x118, stride := 256, count := 2, ro := 0x3 },  -- VL_STAT
    { base := 0x600, stride := 128, count := 2, sh := 0x3ff01 },  -- RL_CFG
    { base := 0x604, stride := 128, count := 2, sh := 0xffffffff },  -- RL_DELAY
    { base := 0x608, stride := 128, count := 2, sh := 0xffffffff },  -- RL_EXP
    { base := 0x60c, stride := 128, count := 2, sh := 0x3fffff },  -- RL_GEOM
    { base := 0x610, stride := 128, count := 2, sh := 0xffff, reset := 0xc8 },  -- RL_SPAN
    { base := 0x614, stride := 128, count := 2, sh := 0xffffffff },  -- RL_BUF_LO
    { base := 0x618, stride := 128, count := 2, sh := 0xffff },  -- RL_BUF_HI
    { base := 0x61c, stride := 128, count := 2, sh := 0xffffffff },  -- RL_REC_LO
    { base := 0x620, stride := 128, count := 2, sh := 0xffff },  -- RL_REC_HI
    { base := 0x624, stride := 128, count := 2, ro := 0xffff007f },  -- RL_STAT
    { base := 0x628, stride := 128, count := 2, ro := 0x1f1f } ]  -- RL_PICS

/-- Register map of the gslot page class (R309). -/
def RegMap.gslotRegs : List RegSpec :=
  [ { base := 0x100, stride := 256, count := 2, sh := 0x3f7 },  -- GR_CFG
    { base := 0x104, stride := 256, count := 2, sh := 0xffffffff },  -- GR_ADDR_LO
    { base := 0x108, stride := 256, count := 2, sh := 0xffff },  -- GR_ADDR_HI
    { base := 0x10c, stride := 256, count := 2, sh := 0xffff },  -- GR_PITCH
    { base := 0x110, stride := 256, count := 2, sh := 0x1fff1fff },  -- GR_POS
    { base := 0x114, stride := 256, count := 2, sh := 0x1fff1fff },  -- GR_SIZE
    { base := 0x118, stride := 256, count := 2, sh := 0x8fff },  -- GR_FENCE
    { base := 0x11c, stride := 256, count := 2, sh := 0xffffffff },  -- GR_FVAL
    { base := 0x120, stride := 256, count := 2, sh := 0xff, reset := 0xff },  -- GR_ALPHA
    { base := 0x124, stride := 256, count := 2, ro := 0xf } ]  -- GR_STAT

/-- Register map of the floor page class (R326). -/
def RegMap.floorRegs : List RegSpec :=
  [ { base := 0x100, ro := 0x3ff },  -- FS_RSV
    { base := 0x800, stride := 4, count := 512, sh := 0xffffffff } ]  -- FS_COEF

/-- Register map of the track page class (R346). -/
def RegMap.trackRegs : List RegSpec :=
  [ { base := 0x100, rw := 0xff0f, reset := 0x4002 },  -- TE_CFG
    { base := 0x104, ro := 0x80001fff },  -- TE_GRAPH
    { base := 0x108, ro := 0xffff },  -- TE_EDGES
    { base := 0x10c, ro := 0xffff07ff },  -- TE_QUEUE
    { base := 0x110, ro := 0xfff0fff },  -- TE_CACHE
    { base := 0x114, rw := 0xffffffff },  -- TE_OFFER_LO
    { base := 0x118, rw := 0x7 },  -- TE_OFFER_HI
    { base := 0x11c, ro := 0x7fff } ]  -- TE_OFFERS

/-- Register map of the part page class (R347). -/
def RegMap.partRegs : List RegSpec :=
  [ { base := 0x100, sh := 0xffffffff },  -- TP_REC_LO
    { base := 0x104, sh := 0xffff },  -- TP_REC_HI
    { base := 0x108, sh := 0xffffffff },  -- TP_EMB_LO
    { base := 0x10c, sh := 0xffff },  -- TP_EMB_HI
    { base := 0x110, sh := 0xffffffff, reset := 0x38003c00 },  -- TP_GATE
    { base := 0x114, sh := 0xffffffff, reset := 0x3c003c00 },  -- TP_W
    { base := 0x118, sh := 0xffffffff, reset := 0x2e663800 },  -- TP_ALPHA
    { base := 0x11c, sh := 0x1ffffff, reset := 0x200f03 },  -- TP_LIFE
    { base := 0x120, sh := 0xffff, reset := 0x80 },  -- TP_CNEW
    { base := 0x124, ro := 0xfffffff, reset := 0x8000000 },  -- TP_LIVE
    { base := 0x130, stride := 4, count := 2, rw := 0xffffffff },  -- TP_RING_LO
    { base := 0x138, rw := 0x8000001f },  -- TP_RING_CFG
    { base := 0x13c, ro := 0xffffffff },  -- TP_RING_PROD
    { base := 0x140, rw := 0xffffffff },  -- TP_RING_CONS
    { base := 0x144, ro := 0xffffffff },  -- TP_RING_DROP
    { base := 0x148, rw := 0xffffffff, reset := 0x1 } ]  -- TP_RING_MOD

/-- Register map of the port page class (R365). -/
def RegMap.portRegs : List RegSpec :=
  [ { base := 0x100, ro := 0x1ff3f07 },  -- CP_STAT
    { base := 0x104, ro := 0x3fffffff },  -- CP_CREDIT
    { base := 0x108, ro := 0xfff } ]  -- CP_REPLAY

/-- Register map of the chain page class (R366). -/
def RegMap.chainRegs : List RegSpec :=
  [ { base := 0x100, rw := 0x7f3f, reset := 0x100 },  -- CH_ID
    { base := 0x104, rw := 0x3ffff, reset := 0x64 },  -- CH_CFG
    { base := 0x110, stride := 4, count := 4, rw := 0xffffffff, reset := 0xffffffff } ]  -- CH_ROUTE

/-- Register map of the window page class (R367). -/
def RegMap.windowRegs : List RegSpec :=
  [ { base := 0x100, sh := 0x3f1f0f },  -- WIN_CFG
    { base := 0x104, sh := 0xffffffff },  -- WIN_BASE_LO
    { base := 0x108, sh := 0xffff },  -- WIN_BASE_HI
    { base := 0x10c, sh := 0xffff },  -- WIN_SIZE
    { base := 0x110, sh := 0x8fff },  -- WIN_SEM
    { base := 0x114, stride := 4, count := 2, sh := 0xffffffff } ]  -- WIN_SRC

/-- Register map of the trust page class (R388). -/
def RegMap.trustRegs : List RegSpec :=
  [ { base := 0x100, ro := 0xffff003f },  -- TR_BOOT
    { base := 0x104, stride := 4, count := 3, ro := 0xffffffff },  -- TR_IMG_ID, TR_IMG_VER, TR_IMG_SVN
    { base := 0x110, ro := 0xffffffff },  -- TR_FLOOR
    { base := 0x114, ro := 0x7 },  -- TR_KEEP
    { base := 0x118, ro := 0xffffffff },  -- TR_KEEP_SEQ
    { base := 0x11c, ro := 0x71f0fff, reset := 0x100 },  -- TR_TALLY0
    { base := 0x120, ro := 0x7f },  -- TR_TALLY1
    { base := 0x124, ro := 0xffffffff },  -- TR_HIST
    { base := 0x128, ro := 0xffff000f },  -- TR_EVLOCK
    { base := 0x12c, ro := 0x3 },  -- TR_STRAP
    { base := 0x140, stride := 4, count := 15, ro := 0xffffffff },  -- TR_IDKEY
    { base := 0x180, stride := 4, count := 8, ro := 0xffffffff },  -- TR_OWNER_ID
    { base := 0x1a0, stride := 4, count := 2, ro := 0xffffffff },  -- TR_CHAIN_ID
    { base := 0x1b0, rw := 0x1ff },  -- TR_HSEL
    { base := 0x200, stride := 4, count := 32, ro := 0xffffffff },  -- TR_HENTRY
    { base := 0x280, ro := 0x3 },  -- TR_RNG
    { base := 0x284, rc := 0xffffffff },  -- TR_RNG_DATA
    { base := 0x300, rw := 0x7ffffff },  -- TR_FL_ADDR
    { base := 0x304, rw := 0x3, ro := 0x200 },  -- TR_FL_CTL
    { base := 0x400, stride := 4, count := 64, rw := 0xffffffff } ]  -- TR_FL_DATA

/-- Register map of the MSI-X table pages (R26, R31): entries of 16 B; the layout of an entry and its reset, masked,
are the PCI Express base specification's (PRESUMED, log entry 7). -/
def RegMap.msixRegs : List RegSpec :=
  [ { base := 0x0, stride := 16, count := 256, rw := 0xfffffffc },
    { base := 0x4, stride := 16, count := 256, rw := 0xffffffff },
    { base := 0x8, stride := 16, count := 256, rw := 0xffffffff },
    { base := 0xc, stride := 16, count := 256, rw := 0x1, reset := 1 } ]

/-- Register map of the MSI-X pending-bit array page (R31). -/
def RegMap.pbaRegs : List RegSpec := [ { base := 0x0, stride := 4, count := 64, ro := 0xffffffff } ]

/-- Register map of slot 1 of a VF: its MSI-X table and, from 0x800, its pending-bit array (R26). -/
def RegMap.vfMsixRegs : List RegSpec :=
  [ { base := 0x0, stride := 16, count := 64, rw := 0xfffffffc },
    { base := 0x4, stride := 16, count := 64, rw := 0xffffffff },
    { base := 0x8, stride := 16, count := 64, rw := 0xffffffff },
    { base := 0xc, stride := 16, count := 64, rw := 0x1, reset := 1 },
    { base := 0x800, stride := 4, count := 2, ro := 0xffffffff } ]

/-- The block registers of a page class, without the common header. -/
def blockRegs : PageClass → List RegSpec
  | .global => RegMap.globalRegs
  | .hostPort => []
  | .msix => RegMap.msixRegs
  | .vfMsix => RegMap.vfMsixRegs
  | .pba => RegMap.pbaRegs
  | .array => RegMap.arrayRegs
  | .quant => RegMap.quantRegs
  | .spad => RegMap.spadRegs
  | .handles => RegMap.handlesRegs
  | .landing => RegMap.landingRegs
  | .engine => RegMap.engineRegs
  | .sem => RegMap.semRegs
  | .memory => RegMap.memoryRegs
  | .decode => RegMap.decodeRegs
  | .pipe => RegMap.pipeRegs
  | .sched => RegMap.schedRegs
  | .timebase => RegMap.timebaseRegs
  | .actions => RegMap.actionsRegs
  | .link => RegMap.linkRegs
  | .comp => RegMap.compRegs
  | .evid => RegMap.evidRegs
  | .strip => RegMap.stripRegs
  | .vslot => RegMap.vslotRegs
  | .gslot => RegMap.gslotRegs
  | .floor => RegMap.floorRegs
  | .track => RegMap.trackRegs
  | .part => RegMap.partRegs
  | .port => RegMap.portRegs
  | .chain => RegMap.chainRegs
  | .window => RegMap.windowRegs
  | .trust => RegMap.trustRegs

/-- The page that holds VF `f`'s global page in the model's numbering: VFs reach theirs through slot 0 of their BAR0
(R26), so it has no number in BAR0 of the PF; the model keeps it at 0x1000 + f. -/
def globalPage (f : Func) : Nat := if f.val = 0 then 0 else 0x1000 + f.val

/-- The page that holds VF `f`'s slot 1, its MSI-X table and, from 0x800, its pending-bit array (R26). -/
def vfMsixPage (f : Func) : Nat := 0x1020 + f.val

/-- The class of a page (R31, and the chapters' own page numbers); none for a reserved page. -/
def pageClass (p : Nat) : Option PageClass :=
  if p = 0 ∨ (0x1000 < p ∧ p < 0x1020) then some .global
  else if p = 0x010 then some .hostPort
  else if p = 0x017 then some .pba
  else if 0x018 ≤ p ∧ p < 0x020 then some .msix
  else if 0x1020 < p ∧ p < 0x1040 then some .vfMsix
  else if p = 0x020 then some .trust
  else if p = 0x030 then some .memory
  else if p = 0x03F then some .landing
  else if p = 0x040 then some .decode
  else if 0x050 ≤ p ∧ p < 0x060 then some .pipe
  else if 0x080 ≤ p ∧ p < 0x100 then
    (if p % 4 = 0 then some .array else if p % 4 = 1 then some .quant
     else if p % 4 = 2 then some .spad else some .handles)
  else if 0x100 ≤ p ∧ p < 0x150 then some .engine
  else if p = 0x150 then some .sched
  else if p = 0x160 then some .timebase
  else if p = 0x161 ∨ p = 0x162 then some .actions
  else if 0x170 ≤ p ∧ p < 0x180 then
    (if p % 4 = 0 then some .link else if p % 4 = 1 then some .comp
     else if p % 4 = 2 then some .evid else some .strip)
  else if 0x180 ≤ p ∧ p < 0x1A0 then some .vslot
  else if 0x1A0 ≤ p ∧ p < 0x1A8 then some .gslot
  else if p = 0x1A8 then some .floor
  else if p = 0x1B0 then some .track
  else if 0x1B8 ≤ p ∧ p < 0x1C0 then some .part
  else if p = 0x1C0 ∨ p = 0x1C1 then some .port
  else if p = 0x1C2 then some .chain
  else if 0x200 ≤ p ∧ p < 0x240 then some .window
  else if 0x240 ≤ p ∧ p < 0x280 then some .sem
  else none

/-- Whether pages of the class begin with the common header (R31, R32). -/
def hasHeader : PageClass → Bool
  | .msix => false
  | .vfMsix => false
  | .pba => false
  | _ => true

/-- The block class of a page class: PG_ID.class, and the high byte of its error codes and event kinds (R36); the
global page reads 0x00 in PG_ID and records with class 0x01 (R32, R37). -/
def blockClass : PageClass → Nat
  | .global | .hostPort | .msix | .vfMsix | .pba => 0x01
  | .trust => 0x02
  | .memory => 0x03
  | .decode | .pipe => 0x04
  | .array => 0x05
  | .quant => 0x06
  | .spad | .handles | .landing => 0x07
  | .engine | .sem => 0x08
  | .sched => 0x09
  | .timebase | .actions => 0x0A
  | .link | .comp | .evid | .strip | .vslot | .gslot | .floor => 0x0B
  | .track | .part => 0x0C
  | .port | .chain | .window => 0x0D

/-- PG_ID.instance (R32; the chapters name the pages with an instance of their own: 0x03F and 0x1A8 have 0x20). Where
a chapter names none, the position of the page's unit in its block (DESIGN CHOICE, log entry 8). -/
def pageInstance (p : Nat) : Nat :=
  match pageClass p with
  | some .array | some .quant | some .spad | some .handles => (p - 0x080) / 4
  | some .landing | some .floor => 0x20
  | some .engine => p - 0x100
  | some .pipe => p - 0x050
  | some .link | some .comp | some .evid | some .strip => (p - 0x170) / 4
  | some .vslot => p - 0x180
  | some .gslot => p - 0x1A0
  | some .part => p - 0x1B8
  | some .port | some .chain => p - 0x1C0
  | some .window => p - 0x200
  | some .sem => p - 0x240
  | some .actions => p - 0x160
  | _ => 0

/-- PG_ID.kind (R32): the position of the page in its instance group. -/
def pageKind (p : Nat) : Nat :=
  match pageClass p with
  | some .quant | some .comp => 1
  | some .spad | some .evid => 2
  | some .handles | some .strip => 3
  | _ => 0

/-- PG_CAP.block as each chapter states it. -/
def capBlock (p : Nat) : Nat :=
  match pageClass p with
  | some .array => 0xF8080
  | some .quant => 0x78
  | some .spad => 0x6210
  | some .engine => if 0x140 ≤ p then 0x1C00 + 512 else if p % 2 = 0 then 256 else 0x1000 + 256
  | some .sem => 64
  | some .memory => 0xF0
  | some .decode => 7
  | some .pipe => 1
  | some .sched => 0x1800 + 2048 % 2048
  | some .timebase => 0x600 + 256
  | some .comp => 32 + 8 * 64 + 0x400
  | some .evid => 16 + 32
  | some .strip => 14
  | some .floor => 3 + 31 * 4
  | some .track => 8
  | some .trust => 7
  | _ => 0

/-- Whether pages of the class have shadowed fields and PG_COMMIT (PG_CAP.commit, R32). -/
def hasCommit (c : PageClass) : Bool := (blockRegs c).any fun e => e.sh ≠ 0

/-- Whether pages of the class have counters (PG_CAP.counters, R32; the handle-table page has none, R171). -/
def hasCounters : PageClass → Bool
  | .array | .quant | .spad | .landing | .engine | .sem | .memory | .pipe | .sched | .timebase | .link | .comp | .evid
  | .strip | .floor | .track | .part
  | .port | .chain | .window | .trust => true
  | _ => false

/-- PG_CAP of a page (R32). -/
def capWord (p : Nat) : Nat :=
  capBlock p + (match pageClass p with
    | some c => b2n (hasCounters c) * 2 ^ 30 + b2n (hasCommit c) * 2 ^ 31
    | none => 0)

/-- PG_ID of a page (R32). -/
def idWord (p : Nat) : Nat :=
  match pageClass p with
  | some .global => 0
  | some c => blockClass c + pageInstance p * 256 + pageKind p * 65536
  | none => 0

/-- Whether offset `off` is one of the registers of the row. -/
def rowHas (off : Nat) (r : RegSpec) : Bool :=
  decide (r.base ≤ off) && decide ((off - r.base) % r.stride = 0) && decide ((off - r.base) / r.stride < r.count)

/-- The rows of the register map that hold offset `off` of page `p`: the block's row and the header's may both hold
one (PG_CTL, PG_STAT, PG_IRQ_RAW). -/
def regRows (p off : Nat) : List RegSpec :=
  match pageClass p with
  | none => []
  | some c => ((if hasHeader c then RegMap.headerRegs else []) ++ blockRegs c).filter (rowHas off)

/-- The bits of an access type at an address, taken over its rows. -/
def rowMask (sel : RegSpec → Nat) (p off : Nat) : Word :=
  (regRows p off).foldl (fun m r => m ||| BitVec.ofNat 32 (sel r)) 0

/-- The address the model keeps a register at: page × 0x1000 + offset, as BAR0 of the PF addresses it (R26). -/
def regAddr (p off : Nat) : Nat := p * 0x1000 + off

/-- The bits of the register at an address that exist; all others are reserved and read 0 (R5). -/
def regMask (a : Nat) : Word :=
  rowMask (fun r => r.rw ||| r.sh ||| r.w1c ||| r.rc ||| r.ro) (a / 0x1000) (a % 0x1000)

/-- Reset of the floor scaler's coefficients: tap 3 holds 16,384 - 512 phi and tap 4 holds 512 phi of each phase phi,
two taps to a word (R326). -/
def floorCoefReset (off : Nat) : Nat :=
  let w := (off - 0x800) / 4
  let phase := w / 4 % 32
  if w % 4 = 1 then (16384 - 512 * phase) * 65536 else if w % 4 = 2 then 512 * phase else 0

/-- The value a register holds at reset. -/
def regReset (a : Nat) : Word :=
  let p := a / 0x1000
  let off := a % 0x1000
  match pageClass p with
  | none => 0
  | some c =>
    if hasHeader c ∧ off = 0 then BitVec.ofNat 32 (idWord p)
    else if hasHeader c ∧ off = 8 then BitVec.ofNat 32 (capWord p)
    else if c = .floor ∧ 0x800 ≤ off then rowMask (fun _ => floorCoefReset off) p off
    else rowMask RegSpec.reset p off

end Sys2Proof.Machine
end

