-- ==== Sys2Proof/Machine/State.lean ====
section
/-! DEFINITION. The state of the LV-1024 as plain data: every register, table, memory, queue and pin the spec gives the
device, and the queue of waiting commands. Records come first, the state after them, the reset values last. -/

namespace Sys2Proof.Machine

/-- Why a step stops with a fault: for no reason, since the spec gives every command an effect, and no rule of it stops
the device between two commands. -/
inductive Fault where
  deriving DecidableEq, Repr

/-- Why a command is refused by the model. -/
inductive Refusal where
  /-- The command has no meaning in the model yet: raised by the arms of `exec` that name their mnemonic. Safe: the
  model stops where the device goes on. -/
  | notModelled (mnemonic : String)
  deriving DecidableEq, Repr

/-- PG_BIND.state (R32). -/
inductive BindState where
  | unbound | bound | rebinding | held
  deriving DecidableEq, Repr

/-- The op of a re-binding sequence, and what started it (R50, R55, R119, R251). -/
inductive RebindOp where
  | bind | unbind | move | flr | fell | hold
  deriving DecidableEq, Repr

/-- Where a re-binding sequence stands (R52). -/
inductive RebindStep where
  | stop | held | scrub
  deriving DecidableEq, Repr

/-- A re-binding sequence in progress (R52): its op, where it stands, the old and the new owner, whether there was an
old owner and will be a new one, the hold asked for, the binding command and the release command by job number, what the
new binding sets (standing bit, semaphore class, split), whether a reset of the new owner follows (R56), and whether its
stop step has begun. -/
structure Rebind where
  op : RebindOp
  step : RebindStep
  oldOwner : Func
  newOwner : Func
  hadOwner : Bool
  bound : Bool
  hold : Bool := false
  job : Option Nat := none
  release : Option Nat := none
  standing : Bool := false
  semClass : Nat := 0
  split : Nat := 0
  flrAfter : Bool := false
  stopping : Bool := true
  deriving DecidableEq, Repr

/-- What the binding table holds of one unit (R47, R54). -/
structure UnitRec where
  state : BindState := .unbound
  owner : Func := 0
  epoch : BitVec 16 := 0
  standing : Bool := false
  semClass : Nat := 0
  felled : Bool := false
  seq : Option Rebind := none
  deriving DecidableEq, Repr

/-- What the device keeps of an event ring beside its registers (R39, R40): drops not yet reported by a marker, records
not yet signalled, and when the first of them was written. -/
structure RingAux where
  pendingDrop : Nat := 0
  unsignalled : Nat := 0
  firstAt : Dword := 0
  deriving DecidableEq, Repr

/-- A commit that is pending on a page: the shadows as they were at go (R34), its seq, and whether it was deferred. -/
structure CommitRec where
  seq : BitVec 24
  snap : Table Word
  deriving DecidableEq, Repr

/-- A job accepted from a job ring and not yet completed (R42): where it came from, its descriptor and body, whether
its work has started. -/
structure Job where
  func : Func
  ring : Fin 8
  desc : BitVec 1024
  body : List Byte
  started : Bool
  deriving DecidableEq, Repr

/-- What the device has sent out (newest first in the state): nothing reads it back. -/
inductive Output where
  /-- A write into host memory. -/
  | hostWrite (f : Func) (addr : Nat) (data : List Byte)
  /-- A read of host memory (R178). -/
  | hostRead (f : Func) (addr len : Nat)
  /-- An MSI-X message (R21). -/
  | msix (f : Func) (addr : Dword) (data : Word)
  /-- The data a read completes with (R25, R27). -/
  | readData (data : List Byte)
  /-- A read that completes as Unsupported Request (R25). -/
  | unsupported
  /-- A frame sent by a chain port. -/
  | frame (port : Fin 2) (bytes : List Byte)
  /-- One composed line of an output as it goes to the panel (R299). -/
  | line (out : Fin 4) (line : Nat) (pixels : List Nat)
  deriving DecidableEq, Repr

/-- The coding of a page (R214), with the format of a reference or spill page: `p010` of R219, `sfmt` of R214. -/
inductive Coding where
  | plain | spill (bf16 : Bool) | reference
  deriving DecidableEq, Repr

/-- A leaf of a translation table, with the page it maps (R214). -/
structure Leaf where
  func : Func
  asid : Nat
  /-- Virtual address of the page, in units of its size. -/
  vpage : Nat
  /-- Log2 of the page size: 16 or 21. -/
  shift : Nat
  pa : Nat
  r : Bool
  w : Bool
  x : Bool
  coding : Coding
  deriving DecidableEq, Repr

/-- What a translation cache keeps of a finished walk (R215): a leaf, or a level-2 entry that points to a level-3 table,
for a 2 MiB range of an address space. -/
inductive WalkRes where
  | leaf (l : Leaf)
  | table (func : Func) (asid : Nat) (range : Nat) (pa : Nat)
  deriving DecidableEq, Repr

/-- The translation caches (R215): the leaves of the units' caches, each with the cache that holds it, and the results of
level 2 and 3 that the shared walker holds; newest first. -/
structure TlbSt where
  caches : List (Nat × Leaf) := []
  results : List WalkRes := []
  deriving DecidableEq, Repr

/-- A billet in a channel's billet buffer (R208): its content as it was read, and whether it checked then. -/
structure BufBillet where
  billet : Nat
  data : List Byte
  ok : Bool
  deriving DecidableEq, Repr

/-- An entry of a channel's write buffer (R210): the held bytes by offset in the billet, how the billet is to be coded,
its order of arrival, whether its merge read has started, and what a whole-billet write meanwhile has decided. -/
structure HeldBillet where
  bytes : Table (Option Byte)
  ref : Option Bool
  serial : Nat
  merging : Bool
  superseded : Bool
  failed : Bool
  deriving DecidableEq, Repr

/-- An invalidation in progress (R216). -/
structure Inval where
  func : Func
  asid : Nat
  all : Bool
  va : Nat
  pages : Nat
  deriving DecidableEq, Repr

/-- A slot of the landing cache (R162, R172): its range, its pins, the device time of its last hit and the content its
frames hold. -/
structure LcSlot where
  valid : Bool := false
  filling : Bool := false
  owner : Func := 0
  cls : Nat := 0
  frames : Nat := 0
  base : Nat := 0
  pins : BitVec 32 := 0
  last : Dword := 0
  data : List Byte := []
  deriving DecidableEq, Repr

/-- A landing-cache request that waits its turn or has begun (R163, R165, R168), or the image of a bundle under check
(R376): its job and function, op, slot, whether it takes the lowest free slot, pins, class, where its image stands, the
physical ranges of its pages, the models evicted for it and whether a write to its range has been seen (R167, R376). -/
structure LcInstall where
  job : Nat
  func : Func
  op : Nat
  slot : Nat
  auto : Bool
  pins : BitVec 32
  cls : Nat
  va : Nat
  len : Nat
  frames : Nat
  base : Nat
  pages : List (Nat × Nat)
  evicted : Nat
  written : Bool
  deriving DecidableEq, Repr


/-- The phases of an array (R101). -/
inductive ArrayPhase where
  | idle | compute | transfer | stopped
  deriving DecidableEq, Repr

/-- Why an array is asked to stop (R113): by the host, for a save, a teardown, a re-binding, or by the ranger. -/
inductive StopWhy where
  | host | save | teardown | rebind | ranger
  deriving DecidableEq, Repr

/-- A place of the step queue (R100): the step's index, its descriptor, whether its fetch failed, its refusal code and
its bound. -/
structure QStep where
  index : Nat
  desc : BitVec 512
  failed : Bool
  refused : Option Nat
  bound : Nat
  deriving DecidableEq, Repr

/-- A step in flight: what it will leave when it completes (R112, R116). Scratchpad writes are by offset in the array's
scratchpads; `maxAbs` lists profile, whether it is the heartwood statistic, and value; `qctr` the quantiser page's
counters it raises. -/
structure InFlight where
  step : QStep
  writes : List (Nat × Byte)
  flags : Nat
  waiting : Bool
  passes : Nat
  maxAbs : List (Nat × Bool × Word)
  qctr : List (Nat × Nat)
  qirq : List Nat
  deriving DecidableEq, Repr

/-- A window write accepted into an array's arrival queue (R156); `landed` are its lines that have committed (R155),
`reply` the frame that its completion answers (R353). -/
structure Arrival where
  handle : Nat
  addr : Nat
  data : List Byte
  window : Nat
  port : Option Nat
  landed : List Nat := []
  reply : Option (List Byte) := none
  deriving DecidableEq, Repr

/-- An array's sequencer (R100 to R123), its arrival queue (R156), its waking banks (R158), the lines its gather buffer
holds, oldest first (R148), and the dump that runs, its address and its memories as bits WM, AM, PM (R160). `acc` is the
OR of flags since the last record; `closed` that no further descriptor is fetched; `grant` how many steps single-step
mode may still issue; `fell` that the PF has written `fell` in a transfer phase and the engines retire their tags first
(R120); `dropped` and `dropAt` the arrivals dropped since the last event 0x0711 and when that was; `reserved` the
context a pre-emption has placed next on the array (R247). -/
structure ArraySt where
  phase : ArrayPhase := .idle
  ctx : Option Nat := none
  prog : Nat := 0
  fetched : Nat := 0
  queue : List QStep := []
  closed : Bool := true
  flight : List InFlight := []
  next : Nat := 0
  records : Nat := 0
  acc : Nat := 0
  stop : Option StopWhy := none
  grant : Nat := 0
  fell : Bool := false
  arrivals : List Arrival := []
  dropped : Nat := 0
  dropAt : Option Dword := none
  reserved : Option Nat := none
  waking : List (Nat × Nat) := []
  gather : List Nat := []
  dump : Option (Nat × Nat) := none
  deriving DecidableEq, Repr

/-- The states of an engine (R200). -/
inductive EngState where
  | idle | loading | running | waiting | armed | faulted | refused | stopped
  deriving DecidableEq, Repr

/-- A re-arm (R187). -/
structure Rearm where
  src : Nat
  dst : Nat
  seq : Nat
  deriving DecidableEq, Repr

/-- One request of an engine (R182): its tag, the descriptor it belongs to by list index, its unit and its number in the
unit, its two addresses and its length, whether it is remote, whether it is a write at its far end, and the data read
for it while the write that follows is outstanding or the scratchpad is out of reach. -/
structure EReq where
  tag : Nat := 0
  pass : Nat
  unit : Nat
  idx : Nat
  src : Nat
  dst : Nat
  len : Nat
  remote : Bool := false
  write : Bool := false
  data : Option (List Byte) := none
  deriving DecidableEq, Repr

/-- A pass of a descriptor (R180, R181): its descriptor with the bases of the pass, its place in the list, whether it has
started (one that has not waits armed), units taken, units signalled, completed units not yet signalled, requests not
yet issued, and for an add op the requests retired in units not yet complete. -/
structure EPass where
  desc : BitVec 512
  index : Nat
  started : Bool
  taken : Nat := 0
  signalled : Nat := 0
  doneUnits : List Nat := []
  todo : List EReq := []
  doneReqs : List Nat := []
  deriving DecidableEq, Repr

/-- A stream engine (R175 to R201): its descriptors fetched ahead (none for a failed fetch), the current and the next
pass, re-arms held, requests outstanding, orphaned tags, the faults of a halt (list index, request, address, code), and
whether it is halting, stopping (with the state it had then) or resetting. -/
structure EngineSt where
  state : EngState := .idle
  asid : Nat := 0
  fetchNext : Nat := 0
  fetched : List (Option (BitVec 512)) := []
  cur : Option EPass := none
  nxt : Option EPass := none
  shadow : Option Rearm := none
  pend : List (Nat × Rearm) := []
  reqs : List EReq := []
  orphans : List Nat := []
  faults : List (Nat × Nat × Nat × Nat) := []
  halting : Bool := false
  stopping : Bool := false
  atStop : EngState := .idle
  resetting : Bool := false
  claimed : Option Nat := none
  deriving DecidableEq, Repr

/-- The states of a context (R242). -/
inductive CtxState where
  | free | dispatching | running | stopping | saving | saved | restoring | retiring | held
  deriving DecidableEq, Repr

/-- What a save keeps of a context beside its image in the stack (R249). -/
structure SavedCtx where
  seq : ArraySt
  load : EngineSt
  store : EngineSt
  pool : Option EngineSt
  profiles : List Word
  image : Nat
  size : Nat
  deriving DecidableEq, Repr

/-- An entry of the context table (R242): the entry it runs, its claims, how it will end, whether its scrub runs, and its
saved state. -/
structure CtxRec where
  state : CtxState := .free
  func : Func := 0
  cls : Nat := 0
  asid : Nat := 0
  array : Nat := 0
  entry : Nat := 0
  generation : Nat := 0
  claim : Nat := 0
  claimN : Nat := 0
  pool : Option Nat := none
  endStatus : Nat := 0
  endCode : Nat := 0
  faulted : Bool := false
  lost : Bool := false
  scrubbing : Bool := false
  saved : Option SavedCtx := none
  deriving DecidableEq, Repr

/-- Where a batch entry stands. -/
inductive EntryState where
  | waiting | queued | running | done
  deriving DecidableEq, Repr

/-- A strip's layer that a raster batch step draws (R281): output, frame strip, slot. -/
structure StripRef where
  out : Nat
  serial : Nat
  slot : Nat
  deriving DecidableEq, Repr

/-- A batch entry (R240, R243): its job, its queue keys, its full and coppice descriptors and which it uses, how it
stands and ended, the rung it was dispatched at, and for a raster step the strip and its re-arms (engine side, list
index, re-arm); `urgent` marks one put at the head of the raster queue (R289); `evtRing` is its job's evt_ring (R261). -/
structure EntryRec where
  job : Nat
  func : Func
  cls : Nat
  lane : Option Nat
  asid : Nat
  deadline : Nat
  notBefore : Nat
  ring : Nat
  target : Nat
  index : Nat
  body : BitVec 512
  cop : Option (BitVec 512)
  usesCop : Bool
  state : EntryState
  ctx : Option Nat
  status : Nat
  code : Nat
  late : Bool
  rung : Nat
  strip : Option StripRef
  rearms : List (Nat × Nat × Rearm)
  urgent : Bool := false
  evtRing : Nat := 0
  deriving DecidableEq, Repr

/-- A ranger lane (R252, R259) and, for a raster lane, its registered programs: address space, full and coppice entry,
and of its registration the evt_ring, the job number, the job ring and not_before (R241, R243). -/
structure LaneRec where
  rung : Nat := 0
  force : Bool := false
  streak : Nat := 0
  moves : Nat := 0
  probe : Nat := 0
  full : Option (BitVec 512) := none
  cop : Option (BitVec 512) := none
  asid : Nat := 0
  ring : Nat := 0
  job : Nat := 0
  jobRing : Nat := 0
  notBefore : Nat := 0
  deriving DecidableEq, Repr

/-- The ranger's counts of one class since its last slowdown report (R255): entries completed, completed late, compute
cycles spent and cycles estimated. -/
structure ClassCount where
  done : Nat := 0
  late : Nat := 0
  spent : Nat := 0
  est : Nat := 0
  deriving DecidableEq, Repr


/-- The pictures between which a layer is drawn, and how they were chosen (R283): their slots, capture times and
picture-table states, the phase, the flags (solo 1, stale 2, gap 4, early 8, none 16), and the newest capture time. -/
structure Bracket where
  ctx : Nat
  a : Nat := 0
  b : Nat := 0
  capA : Nat := 0
  capB : Nat := 0
  bitsA : Nat := 0
  bitsB : Nat := 0
  phase : Nat := 0
  flags : Nat := 0
  newest : Nat := 0
  deriving DecidableEq, Repr

/-- A layer strip requested and not yet scanned (R281, R289, R290): its output, strip and frame, its serial, the rung it
stands at, its brackets, the time of its deadline line, its batch step, when it was complete, and the source of its
lines (0 open, 1 strip buffer, 2 floor scaler, 3 left out), whether it is a probe, its programs with their re-arms,
whether its deadline and take lines have been acted on, and whether a coppice step is owed to it when its stopped step
has come to its kerf point. -/
structure StripRec where
  out : Nat
  strip : Nat
  frame : Nat
  serial : Nat
  rung : Nat
  br : Bracket
  deadline : Nat
  entry : Option Nat := none
  done : Option Dword := none
  source : Nat := 0
  probe : Bool := false
  lane : LaneRec := {}
  rearms : List (Nat × Nat × Rearm) := []
  checked : Bool := false
  taken : Bool := false
  owed : Bool := false
  deriving DecidableEq, Repr

/-- A video layer's slot in the raster pipeline: its strip counter (R285), its requests at rung 2 (R289), the brackets
selected and the frame they were selected for (R282), its strips, its last flags, the frames in which the messages
limited to one a frame were last written (flags, no program, hand-over, table failure), and the pictures it holds by
context and slot (R283). -/
structure LayerSt where
  serial : Nat := 0
  requests : Nat := 0
  sel : Option (Nat × Bracket) := none
  strips : List StripRec := []
  flags : Nat := 0
  flagTold : Option Nat := none
  noProgTold : Option Nat := none
  handTold : Option Nat := none
  failTold : Option Nat := none
  pics : List (Nat × Nat) := []
  deriving DecidableEq, Repr

/-- A group commit of an output (R310, R312): its seq, the values its registers take, all-or-none, late and deferred
flags, the first frame at whose cut-off line it may latch, the graphic slots it leaves stale (R313), and the pages whose
PG_COMMIT_STAT reports it. -/
structure GroupCommit where
  seq : BitVec 24
  snap : Table Word
  aon : Bool
  late : Bool
  deferred : Bool
  since : Nat
  stale : Nat := 0
  pages : List Nat := []
  deriving DecidableEq, Repr

/-- A part of a line fetched ahead of the beam (R315): of a graphic or a video layer, its slot, or none for the flattened
surface; its first pixel, its pixel words up to the first one that a failed fetch leaves out, and the cause of that
(R316). -/
structure LinePart where
  frame : Nat
  line : Nat
  graphic : Bool
  slot : Option Nat
  x : Nat
  words : List Nat
  fail : Option Nat
  deriving DecidableEq, Repr

/-- An output beside its registers (R299 to R323): its pending and its latched commit, the line it begins next, whether
it waits for its PLL, the strip to be requested next in the current and in the next frame, seq and flags of the last
applied commit, the seqs of the commits whose replaced buffers retire at the next line 0, what the flatten run was at
the last line 0 with the frames it has been unchanged, whether a capture has failed, the CRCs of the check rectangles so
far, the writeback buffer of this frame, the floor scaler's tables in use, panel sync (last edge, frames in the window,
lines added to this frame, times of the latest sync pulses), the mismatches of this frame, the parts of lines fetched
ahead of the beam, and while lines are fetched anew the video layers and lines of it, which are not counted again. -/
structure OutSt where
  pend : Option GroupCommit := none
  latched : Option GroupCommit := none
  next : Nat := 0
  gap : Bool := false
  nextReq : Nat := 0
  aheadReq : Nat := 0
  seq : Nat := 0
  late : Bool := false
  deferred : Bool := false
  stale : Bool := false
  retire : List Nat := []
  run : List Nat := []
  steady : Nat := 0
  flatBad : Bool := false
  crcs : List Nat := []
  wb : Option Nat := none
  coef : Table Word := []
  edge : Option Dword := none
  inWindow : Nat := 0
  adj : Int := 0
  pulses : List Nat := []
  match_ : Nat := 0
  miss : Nat := 0
  offSeen : Bool := false
  ahead : List LinePart := []
  again : List (Nat × Nat) := []
  deriving DecidableEq, Repr

/-- A frame waiting to leave a port (R354, R355, R359): its virtual channel, its bytes without lseq and CRC, and for a
transit frame the port whose buffer it holds credits of. -/
structure WaitingFrame where
  vc : Nat
  bytes : List Byte
  holds : Option (Nat × Nat × Nat)
  deriving DecidableEq, Repr

/-- A chain port's link layer (R350, R354, R355): the lseq it sends next and the one it expects, whether a nak for it is
out, frames received in order since the last ack, the replay buffer oldest first, replays without progress, frames
waiting for credit, frames received that a full arrival queue holds back (R156), the virtual channels whose last frame was
in transit, and which of the virtual channels 0 and 1 went last (R359). -/
structure PortSt where
  sendSeq : Nat := 0
  recvSeq : Nat := 0
  nakOut : Bool := false
  inOrder : Nat := 0
  replay : List (Nat × List Byte) := []
  replays : Nat := 0
  waiting : List WaitingFrame := []
  heldBack : List (List Byte) := []
  passed : List Nat := []
  lastVc : Nat := 1
  deriving DecidableEq, Repr

/-- What waits for a completion from another device (R353, R358): an engine's request, or a track message. `busy` marks
one answered busy, which BUSY_RETRY sends again. -/
structure RemoteReq where
  engine : Option (Nat × Nat)
  dst : Nat
  requester : Nat
  bytes : List Byte
  busy : Bool
  offer : Option Nat
  deriving DecidableEq, Repr

/-- A write into a stack window accepted and not yet committed, with the port it came through and the frame that its
completion answers (R353, R361, R363). -/
structure WinWrite where
  va : Nat
  data : List Byte
  granules : Nat
  port : Option Nat
  reply : Option (List Byte) := none
  deriving DecidableEq, Repr

/-- An inbound window's own state: accepted writes not yet committed, bytes of them for a scratchpad target, refusals
not yet reported and when the last report was (R361, R368). -/
structure WinSt where
  queue : List WinWrite := []
  inFlight : Nat := 0
  refusals : Nat := 0
  reportAt : Option Dword := none
  deriving DecidableEq, Repr


/-- What the device as a whole is doing (R372, R373, R396, R401, R425): held in reset, booting (with the boot's checks
passed or not), in service, in recovery, out of service, or between the fence of a warm reset of a kind (the reset
kinds of R403) and its release. -/
inductive DevPhase where
  | held | booting | service | recovery | noService | fenced (kind : Nat)
  deriving DecidableEq, Repr

/-- What the timebase keeps beside its registers (R263 to R269): whether a PTM dialogue has succeeded since ptm_on was
set, dialogues failed in a row, whether TB_SET has been used, the last edges of the mains (any positive one; the last
accepted), the last accepted periods newest first, accepted crossings in a row, whether the crossing now awaited is
missing, the disturbance classes of the current cycle and θ at the first of them, the power-fail warning's times, the
number of the mains cycle that the last crossing began, whether angle triggers were met in the cycle before it, the
frame or cycle in which the trigger of a timed action was last met (R273), the crossings held, newest first (R268), and
the moment of the power-fail warning's fall with θ at it (R269). -/
structure TimeAux where
  ptmFirst : Bool := false
  ptmFails : Nat := 0
  setUsed : Bool := false
  lastEdge : Option Dword := none
  cross : Option Dword := none
  periods : List Nat := []
  streak : Nat := 0
  missed : Bool := false
  classes : Nat := 0
  classAngle : Nat := 0
  pfwBlock : Bool := false
  roseAt : Dword := 0
  cycle : Nat := 0
  ran : Bool := false
  met : List (Nat × Nat) := []
  hist : List Nat := []
  fellAt : Dword := 0
  fellAngle : Nat := 0
  deriving DecidableEq, Repr

/-- The states of a stream context (R226), in the order of DEC_CTX_STAT's codes (R236). -/
inductive StreamState where
  | unconfigured | stopped | running | resync | refused | faulted
  deriving DecidableEq, Repr

/-- An access unit fetched and not yet consumed (R228): its length, end-of-stream and capture time, its user tag, what
its headers say, and whether it has been dropped. -/
structure AccessUnit where
  len : Nat
  eos : Bool
  capture : Dword
  tag : Nat
  info : UnitInfo
  dropped : Bool := false
  deriving DecidableEq, Repr

/-- The picture a pipe decodes for a context: its slot, its access unit, its frame counter. -/
structure Decoding where
  slot : Nat
  unit : AccessUnit
  frame : Nat
  deriving DecidableEq, Repr

/-- A stream context (R226 to R235): its state and record, its ring's indices and the next entry to fetch, access units
fetched and not consumed in ring order, counts, the picture in progress, what its stop or flush waits for, the next
picture's gap flag, the slots that are references and those that are concealed, the size last activated, since when it
has waited for a slot and the cycles of that wait already counted, the jobs that wait for its stop, and when its last
event 0x0411 was. -/
structure StreamSt where
  state : StreamState := .unconfigured
  record : BitVec 512 := 0
  prod : Nat := 0
  cons : Nat := 0
  fetch : Nat := 0
  units : List AccessUnit := []
  frames : Nat := 0
  decoded : Nat := 0
  nonRef : Nat := 0
  resyncs : Nat := 0
  concealed : Nat := 0
  lastCapture : Dword := 0
  cause : Nat := 0
  cur : Option Decoding := none
  stopping : Bool := false
  flushTo : Option Nat := none
  ended : Bool := false
  gap : Bool := false
  refs : List Nat := []
  tainted : List Nat := []
  size : Nat := 0
  noSlot : Option Dword := none
  stalled : Nat := 0
  jobs : List Nat := []
  toldAt : Option Dword := none
  deriving DecidableEq, Repr

/-- A pipe's drops since its last event 0x0412, and when that was (R233). -/
structure PipeSt where
  nonRef : Nat := 0
  resyncs : Nat := 0
  toldAt : Option Dword := none
  deriving DecidableEq, Repr

/-- A settings bank of the MRAM (R377): whether its record is valid, the record's sequence, and its settings as (id,
value), by rising id. -/
structure SettingsBank where
  valid : Bool := false
  seq : Nat := 0
  vals : List (Nat × List Byte) := []
  deriving DecidableEq, Repr

/-- An identity slot of the MRAM (R383). -/
structure IdSlot where
  valid : Bool := false
  seq : Nat := 0
  serial : Dword := 0
  count : Nat := 0
  priv : List Byte := []
  pub : List Byte := []
  deriving DecidableEq, Repr

/-- The MRAM (R377, R380, R381, R383): the settings banks and the active one, the identity slots and the one in force,
the tallies, the change history in order of its entries, and the ordinary entries overwritten. -/
structure KeepSt where
  bankA : SettingsBank := { valid := true }
  bankB : SettingsBank := {}
  activeB : Bool := false
  slot0 : IdSlot := { valid := true, count := 1, priv := List.replicate 57 0, pub := List.replicate 57 0 }
  slot1 : IdSlot := {}
  slot1On : Bool := false
  floorT : Nat := 0
  enrolT : Nat := 1
  ownerT : Nat := 0
  releaseT : Nat := 0
  chainT : Nat := 0
  hist : List (BitVec 1024) := []
  past : Nat := 0
  deriving DecidableEq, Repr

/-- A keep-store commit that runs (R382): its job, its op, the setting and its new value, and the identity slot it
writes, if it enrols. -/
structure KeepCommit where
  job : Nat
  setting : Nat
  value : List Byte
  slot : Option IdSlot
  deriving DecidableEq, Repr

/-- The trust unit beside its registers and the MRAM: the jobs that wait, in acceptance order (R386), the bundle under
check, the commit that runs, the flash operation that runs with its address and data (R375), and the digest of the
control image in force (R385). -/
structure TrustSt where
  queue : List Nat := []
  check : Option LcInstall := none
  commit : Option KeepCommit := none
  flashOp : Option (Nat × Nat × List Byte) := none
  digest : List Byte := List.replicate 64 0
  defaults : List (Nat × List Byte) := []
  deriving DecidableEq, Repr


/-- What the track engine keeps of a block of 16 records of a partition (R329): the camera it belongs to, if it has a
live record, and its live records. -/
structure TrackBlk where
  cam : Option Nat := none
  live : BitVec 16 := 0
  deriving DecidableEq, Repr

/-- A block held in the track cache (R331): its 2 KiB, whether it is modified, and the camera it is of. -/
structure CacheBlk where
  data : List Byte
  dirty : Bool
  cam : Nat
  deriving DecidableEq, Repr

/-- What the engine keeps of a camera of a partition: the capture time of its last associate job (R335), and when it was
last associated, in the engine's own count (R331). -/
structure CamRec where
  last : Option Nat := none
  order : Nat := 0
  deriving DecidableEq, Repr

/-- A camera entry of the graph (R340). -/
structure CamEntry where
  device : Nat
  part : Nat
  first : Nat
  count : Nat
  deriving DecidableEq, Repr

/-- An edge of the graph (R340). -/
structure EdgeEntry where
  dest : Nat
  bias : Nat
  tMin : Nat
  tMax : Nat
  deriving DecidableEq, Repr

/-- An association problem that waits, or a flush behind one (R342, R345): its job, partition, camera, period, capture
time, detection list, embeddings, and the time it was queued. -/
structure Problem where
  job : Nat
  part : Nat
  cam : Nat
  period : Nat
  capture : Nat
  det : Nat
  emb : Nat
  arrive : Dword
  flush : Bool
  deriving DecidableEq, Repr

/-- An offer this device has sent (R341): its identifier, the partition and camera of the track, its class and hits, the
devices it went to (one for each offer), and whether it has been taken. -/
structure SentOffer where
  ident : Nat
  part : Nat
  cam : Nat
  cls : Nat
  hits : Nat
  dests : List Nat
  taken : Bool
  deriving DecidableEq, Repr

/-- The track engine beside its pages: the camera graph (R340), the queue of problems (R342), the offer table with the
entry each offer stands at (R341), the offers sent and not forgotten, records taken over by identifier, partition and
index (R345), this device's creation count (R330), and the count of associations (R331). -/
structure TrackSt where
  cams : List CamEntry := []
  edges : List EdgeEntry := []
  problems : List Problem := []
  offers : List (Nat × OfferMsg) := []
  sent : List SentOffer := []
  handed : List (Nat × Nat × Nat) := []
  created : Nat := 0
  clock : Nat := 0
  deriving DecidableEq, Repr


/-- The state of the device. -/
structure State where
  /-- The commands that are waiting, first in, first out. -/
  pending : List Instr
  /-- Every register of every page, at page × 0x1000 + offset (R26, R31): active values, counters, semaphore values. -/
  regs : Table Word
  /-- The shadow of every register with SH fields (R4). -/
  shadows : Table Word
  /-- The pending commit of each page (R34). -/
  commits : Table (Option CommitRec)
  /-- The high half latched by a 32-bit read of a low half, at the address of that half (R25). -/
  latches : Table (Option (Nat × Word))
  /-- The binding table (R47). -/
  units : Table UnitRec
  /-- The event rings' bookkeeping, ring n of function f at 8 f + n (R39, R40). -/
  rings : Table RingAux
  /-- Jobs accepted and not completed, by acceptance number (R42). -/
  jobs : Table (Option Job)
  /-- The acceptance number of the next job. -/
  jobNext : Nat
  /-- Device time (R7, R262). -/
  time : Dword
  /-- The stack's content, by device physical address (R205); an unlisted byte is 0, as the zeroing leaves it (R211). -/
  mem : Table Byte
  /-- The coding map: one byte per data billet (R205, R219). -/
  codingMap : Table Byte
  /-- The stored checksum of each billet XOR the CRC-32C of its content: 0 for a billet that checks (R207). -/
  crcDiff : Table Word
  /-- The write buffers: partial writes held, by billet (R210). -/
  held : Table (Option HeldBillet)
  /-- The order of the next held billet. -/
  heldNext : Nat
  /-- The billets held by each channel's billet buffer (R208). -/
  buffered : Table (List BufBillet)
  /-- The translation caches (R215). -/
  tlb : TlbSt
  /-- The invalidation in progress (R216). -/
  inval : Option Inval
  /-- The power-on zeroing of the data area runs (R211). -/
  zeroing : Bool
  /-- The landing cache's slots (R162). -/
  lcSlots : Table LcSlot
  /-- Landing-cache requests waiting, in acceptance order (R168). -/
  lcWait : List LcInstall
  /-- The install whose fill runs (R165). -/
  lcFill : Option LcInstall
  /-- The scratchpads' content (R146). -/
  sp : Table Byte
  /-- The sequencers of the arrays (R100). -/
  arrays : Table ArraySt
  /-- The stream engines: 2a load, 2a + 1 store of array a, 64 + q pooled (R175). -/
  engines : Table EngineSt
  /-- The context table of 2,048 entries (R242). -/
  ctxs : Table CtxRec
  /-- The batch entries of jobs not completed (R240). -/
  entries : Table (Option EntryRec)
  /-- The number of the next batch entry. -/
  entryNext : Nat
  /-- The 1,088 ranger lanes (R239). -/
  lanes : Table LaneRec
  /-- The slowdown report's counts, by class (R255). -/
  classCounts : Table ClassCount
  /-- The link layers of CP0 and CP1 (R355). -/
  ports : Table PortSt
  /-- Requests to other devices without a completion, by ttag (R358). -/
  remotes : Table (Option RemoteReq)
  /-- The inbound windows (R361). -/
  windows : Table WinSt
  /-- The stream contexts (R226). -/
  streams : Table StreamSt
  /-- The decode pipes (R233). -/
  pipes : Table PipeSt
  /-- The 64 video layer slots in the raster pipeline (R281 to R291). -/
  layers : Table LayerSt
  /-- The four outputs beside their registers (R299 to R323). -/
  outs : Table OutSt
  /-- The keep store (R377). -/
  keep : KeepSt
  /-- The trust unit beside its registers and the keep store. -/
  trust : TrustSt
  /-- The boot flash (R372, R375): an erased byte reads 0xFF. -/
  flash : Table Byte
  /-- The track engine beside its pages and its cache. -/
  track : TrackSt
  /-- The blocks of the track partitions, at 2,048 × partition + block (R329). -/
  tblk : Table TrackBlk
  /-- The track cache: record tables first, then embedding tables, at 2,048 × (partition + 8 × table) + block (R331). -/
  tcache : Table (Option CacheBlk)
  /-- The cameras of each partition, at 4,096 × partition + camera (R331, R335). -/
  tcam : Table CamRec
  /-- The track rings' bookkeeping, by partition (R344). -/
  trings : Table RingAux
  /-- How many VFs the host has enabled through SR-IOV (R51; log entry 44). -/
  vfs : Nat
  /-- The functions in D3hot (R21), by bit. -/
  d3 : (BitVec 32)
  /-- A PCI Express reset has come during a warm reset and follows it (R426). -/
  pcieAfter : Bool
  /-- Events that wait for the PF to enable its event ring 0, oldest first: kind and payload (R372, R396). -/
  owed : List (Nat × List Byte)
  /-- What the device as a whole does (R372, R396, R401). -/
  phase : DevPhase
  /-- A thermal trip holds the warm reset in its fence step (R392). -/
  tripHold : Bool
  /-- The cause of a device fault that has taken away a unit of least service: the warm reset ends in the no-service
  state (R392, R400). -/
  ruin : (Option Nat)
  /-- A PLL has lost its lock since the fence of a warm reset began (R392). -/
  relock : Bool
  /-- The warm reset that runs waits at its release for the PCI Express link's training (R396). -/
  linkWait : Bool
  /-- The units of R400 found missing after the last boot or warm reset. -/
  lost : LostUnits
  /-- THERMTRIP_N is asserted, latched until a power-on reset (R425). -/
  thermtrip : Bool
  /-- Device times of the device faults of the last second (R391). -/
  faultsAt : List Dword
  /-- The fault log: 1,024 entries of 32 bytes (R403). -/
  flog : Table (BitVec 256)
  /-- Entries written to the fault log since power-on. -/
  flogN : Nat
  /-- The timebase beside its registers (R263 to R269). -/
  tb : TimeAux
  /-- The model's own: how many free values have been taken (log entry 3). -/
  free : Nat
  /-- What the device has sent out, newest first. -/
  out : List Output
  deriving DecidableEq, Repr

/-- The machine right after reset, as the spec says: every register at its reset value, no unit bound, no command
waiting; values the spec does not give are those of log entries 6 and 7. -/
def State.reset : State where
  pending := []
  regs := []
  shadows := []
  commits := []
  latches := []
  units := []
  rings := []
  jobs := []
  jobNext := 0
  time := 0
  mem := []
  codingMap := []
  crcDiff := []
  held := []
  heldNext := 0
  buffered := []
  tlb := {}
  inval := none
  zeroing := false
  lcSlots := []
  lcWait := []
  lcFill := none
  sp := []
  arrays := []
  engines := []
  ctxs := []
  entries := []
  entryNext := 0
  lanes := []
  classCounts := []
  ports := []
  remotes := []
  windows := []
  streams := []
  pipes := []
  layers := []
  outs := []
  keep := {}
  trust := {}
  flash := []
  track := {}
  tblk := []
  tcache := []
  tcam := []
  trings := []
  vfs := 0
  d3 := 0
  pcieAfter := false
  owed := []
  phase := .service
  tripHold := false
  ruin := none
  relock := false
  linkWait := false
  lost := 0
  thermtrip := false
  faultsAt := []
  flog := []
  flogN := 0
  tb := {}
  free := 0
  out := []

end Sys2Proof.Machine
end

