-- ==== Sys2Proof/Machine/Act.lean ====
section
/-! DEFINITION. What a meaning is made of: an `Effect` changes one entry of one table of the state, or one field of it;
an `Act` is a sequence of effects, each chosen by looking at the state reached so far. Every meaning is
`.next (run act s)` for an act, so what holds of every effect holds of every command. No effect touches the queue. -/

namespace Sys2Proof.Machine

/-- What an unlisted key of `regs` holds. -/
def regsDefault : Nat → Word := regReset

/-- What an unlisted key of `shadows` holds. -/
def shadowsDefault : Nat → Word := regReset

/-- What an unlisted key of `commits` holds. -/
def commitsDefault : Nat → (Option CommitRec) := fun _ => none

/-- What an unlisted key of `latches` holds. -/
def latchesDefault : Nat → (Option (Nat × Word)) := fun _ => none

/-- What an unlisted key of `units` holds. -/
def unitsDefault : Nat → UnitRec := fun _ => {}

/-- What an unlisted key of `rings` holds. -/
def ringsDefault : Nat → RingAux := fun _ => {}

/-- What an unlisted key of `jobs` holds. -/
def jobsDefault : Nat → (Option Job) := fun _ => none

/-- What an unlisted key of `mem` holds. -/
def memDefault : Nat → Byte := fun _ => 0

/-- What an unlisted key of `codingMap` holds. -/
def codingMapDefault : Nat → Byte := fun _ => 0

/-- What an unlisted key of `crcDiff` holds. -/
def crcDiffDefault : Nat → Word := fun _ => 0

/-- What an unlisted key of `held` holds. -/
def heldDefault : Nat → (Option HeldBillet) := fun _ => none

/-- What an unlisted key of `buffered` holds. -/
def bufferedDefault : Nat → (List BufBillet) := fun _ => []

/-- What an unlisted key of `lcSlots` holds. -/
def lcSlotsDefault : Nat → LcSlot := fun _ => {}

/-- What an unlisted key of `sp` holds. -/
def spDefault : Nat → Byte := fun _ => 0

/-- What an unlisted key of `arrays` holds. -/
def arraysDefault : Nat → ArraySt := fun _ => {}

/-- What an unlisted key of `engines` holds. -/
def enginesDefault : Nat → EngineSt := fun _ => {}

/-- What an unlisted key of `ctxs` holds. -/
def ctxsDefault : Nat → CtxRec := fun _ => {}

/-- What an unlisted key of `entries` holds. -/
def entriesDefault : Nat → (Option EntryRec) := fun _ => none

/-- What an unlisted key of `lanes` holds. -/
def lanesDefault : Nat → LaneRec := fun _ => {}

/-- What an unlisted key of `classCounts` holds. -/
def classCountsDefault : Nat → ClassCount := fun _ => {}

/-- What an unlisted key of `ports` holds. -/
def portsDefault : Nat → PortSt := fun _ => {}

/-- What an unlisted key of `remotes` holds. -/
def remotesDefault : Nat → (Option RemoteReq) := fun _ => none

/-- What an unlisted key of `windows` holds. -/
def windowsDefault : Nat → WinSt := fun _ => {}

/-- What an unlisted key of `streams` holds. -/
def streamsDefault : Nat → StreamSt := fun _ => {}

/-- What an unlisted key of `pipes` holds. -/
def pipesDefault : Nat → PipeSt := fun _ => {}

/-- What an unlisted key of `layers` holds. -/
def layersDefault : Nat → LayerSt := fun _ => {}

/-- What an unlisted key of `outs` holds. -/
def outsDefault : Nat → OutSt := fun _ => {}

/-- What an unlisted key of `flash` holds. -/
def flashDefault : Nat → Byte := fun _ => 0xFF

/-- What an unlisted key of `tblk` holds. -/
def tblkDefault : Nat → TrackBlk := fun _ => {}

/-- What an unlisted key of `tcache` holds. -/
def tcacheDefault : Nat → (Option CacheBlk) := fun _ => none

/-- What an unlisted key of `tcam` holds. -/
def tcamDefault : Nat → CamRec := fun _ => {}

/-- What an unlisted key of `trings` holds. -/
def tringsDefault : Nat → RingAux := fun _ => {}

/-- What an unlisted key of `flog` holds. -/
def flogDefault : Nat → (BitVec 256) := fun _ => 0

/-- One change of the state. -/
inductive Effect where
  | regs (k : Nat) (v : Word)
  | shadows (k : Nat) (v : Word)
  | commits (k : Nat) (v : (Option CommitRec))
  | latches (k : Nat) (v : (Option (Nat × Word)))
  | units (k : Nat) (v : UnitRec)
  | rings (k : Nat) (v : RingAux)
  | jobs (k : Nat) (v : (Option Job))
  | jobNext (v : Nat)
  | mem (k : Nat) (v : Byte)
  | codingMap (k : Nat) (v : Byte)
  | crcDiff (k : Nat) (v : Word)
  | held (k : Nat) (v : (Option HeldBillet))
  | heldNext (v : Nat)
  | buffered (k : Nat) (v : (List BufBillet))
  | tlb (v : TlbSt)
  | inval (v : Option Inval)
  | zeroing (v : Bool)
  | lcSlots (k : Nat) (v : LcSlot)
  | lcWait (v : List LcInstall)
  | lcFill (v : Option LcInstall)
  | sp (k : Nat) (v : Byte)
  | arrays (k : Nat) (v : ArraySt)
  | engines (k : Nat) (v : EngineSt)
  | ctxs (k : Nat) (v : CtxRec)
  | entries (k : Nat) (v : (Option EntryRec))
  | entryNext (v : Nat)
  | lanes (k : Nat) (v : LaneRec)
  | classCounts (k : Nat) (v : ClassCount)
  | ports (k : Nat) (v : PortSt)
  | remotes (k : Nat) (v : (Option RemoteReq))
  | windows (k : Nat) (v : WinSt)
  | streams (k : Nat) (v : StreamSt)
  | pipes (k : Nat) (v : PipeSt)
  | layers (k : Nat) (v : LayerSt)
  | outs (k : Nat) (v : OutSt)
  | keep (v : KeepSt)
  | trust (v : TrustSt)
  | flash (k : Nat) (v : Byte)
  | track (v : TrackSt)
  | tblk (k : Nat) (v : TrackBlk)
  | tcache (k : Nat) (v : (Option CacheBlk))
  | tcam (k : Nat) (v : CamRec)
  | trings (k : Nat) (v : RingAux)
  | vfs (v : Nat)
  | d3 (v : (BitVec 32))
  | pcieAfter (v : Bool)
  | owed (v : List (Nat × List Byte))
  | phase (v : DevPhase)
  | tripHold (v : Bool)
  | ruin (v : (Option Nat))
  | relock (v : Bool)
  | linkWait (v : Bool)
  | lost (v : LostUnits)
  | thermtrip (v : Bool)
  | faultsAt (v : List Dword)
  | flog (k : Nat) (v : (BitVec 256))
  | flogN (v : Nat)
  | tb (v : TimeAux)
  /-- Every entry of `commits` from key `lo` below `hi` goes to its default. -/
  | commitsClear (lo hi : Nat)
  /-- Every entry of `latches` from key `lo` below `hi` goes to its default. -/
  | latchesClear (lo hi : Nat)
  /-- Every entry of `units` from key `lo` below `hi` goes to its default. -/
  | unitsClear (lo hi : Nat)
  /-- Every entry of `rings` from key `lo` below `hi` goes to its default. -/
  | ringsClear (lo hi : Nat)
  /-- Every entry of `jobs` from key `lo` below `hi` goes to its default. -/
  | jobsClear (lo hi : Nat)
  /-- Every entry of `codingMap` from key `lo` below `hi` goes to its default. -/
  | codingMapClear (lo hi : Nat)
  /-- Every entry of `crcDiff` from key `lo` below `hi` goes to its default. -/
  | crcDiffClear (lo hi : Nat)
  /-- Every entry of `held` from key `lo` below `hi` goes to its default. -/
  | heldClear (lo hi : Nat)
  /-- Every entry of `buffered` from key `lo` below `hi` goes to its default. -/
  | bufferedClear (lo hi : Nat)
  /-- Every entry of `lcSlots` from key `lo` below `hi` goes to its default. -/
  | lcSlotsClear (lo hi : Nat)
  /-- Every entry of `arrays` from key `lo` below `hi` goes to its default. -/
  | arraysClear (lo hi : Nat)
  /-- Every entry of `engines` from key `lo` below `hi` goes to its default. -/
  | enginesClear (lo hi : Nat)
  /-- Every entry of `ctxs` from key `lo` below `hi` goes to its default. -/
  | ctxsClear (lo hi : Nat)
  /-- Every entry of `entries` from key `lo` below `hi` goes to its default. -/
  | entriesClear (lo hi : Nat)
  /-- Every entry of `lanes` from key `lo` below `hi` goes to its default. -/
  | lanesClear (lo hi : Nat)
  /-- Every entry of `classCounts` from key `lo` below `hi` goes to its default. -/
  | classCountsClear (lo hi : Nat)
  /-- Every entry of `ports` from key `lo` below `hi` goes to its default. -/
  | portsClear (lo hi : Nat)
  /-- Every entry of `remotes` from key `lo` below `hi` goes to its default. -/
  | remotesClear (lo hi : Nat)
  /-- Every entry of `windows` from key `lo` below `hi` goes to its default. -/
  | windowsClear (lo hi : Nat)
  /-- Every entry of `streams` from key `lo` below `hi` goes to its default. -/
  | streamsClear (lo hi : Nat)
  /-- Every entry of `pipes` from key `lo` below `hi` goes to its default. -/
  | pipesClear (lo hi : Nat)
  /-- Every entry of `layers` from key `lo` below `hi` goes to its default. -/
  | layersClear (lo hi : Nat)
  /-- Every entry of `outs` from key `lo` below `hi` goes to its default. -/
  | outsClear (lo hi : Nat)
  /-- Every entry of `flash` from key `lo` below `hi` goes to its default. -/
  | flashClear (lo hi : Nat)
  /-- Every entry of `tblk` from key `lo` below `hi` goes to its default. -/
  | tblkClear (lo hi : Nat)
  /-- Every entry of `tcache` from key `lo` below `hi` goes to its default. -/
  | tcacheClear (lo hi : Nat)
  /-- Every entry of `tcam` from key `lo` below `hi` goes to its default. -/
  | tcamClear (lo hi : Nat)
  /-- Every entry of `trings` from key `lo` below `hi` goes to its default. -/
  | tringsClear (lo hi : Nat)
  /-- Every entry of `flog` from key `lo` below `hi` goes to its default. -/
  | flogClear (lo hi : Nat)
  /-- Device time moves forward to `t` (R262); it never moves back by this effect. -/
  | time (t : Dword)
  /-- Device time is set to `t` by a TB_SET or a PTM step (R263, R264). -/
  | setTime (t : Dword)
  /-- One free value has been taken. -/
  | free
  /-- The device sends `o`. -/
  | out (o : Output)
  /-- Every cell of the stack from `lo` below `hi` becomes 0 (R211). -/
  | memClear (lo hi : Nat)
  /-- Every scratchpad cell with key from `lo` below `hi` becomes 0 (R159). -/
  | spClear (lo hi : Nat)
  /-- Every register from address `lo` below `hi` goes to its reset value. -/
  | regsReset (lo hi : Nat)
  /-- Every shadow from address `lo` below `hi` goes to its reset value (R35). -/
  | shadowsReset (lo hi : Nat)

/-- The state after one effect. -/
def Effect.apply : Effect → State → State
  | .regs k v, s => { s with regs := tblSet regReset k (v &&& regMask k) s.regs }
  | .shadows k v, s => { s with shadows := tblSet regReset k (v &&& regMask k) s.shadows }
  | .commits k v, s => { s with commits := tblSet commitsDefault k v s.commits }
  | .latches k v, s => { s with latches := tblSet latchesDefault k v s.latches }
  | .units k v, s => { s with units := tblSet unitsDefault k v s.units }
  | .rings k v, s => { s with rings := tblSet ringsDefault k v s.rings }
  | .jobs k v, s => { s with jobs := tblSet jobsDefault k v s.jobs }
  | .jobNext v, s => { s with jobNext := v }
  | .mem k v, s => { s with mem := tblSet memDefault k v s.mem }
  | .codingMap k v, s => { s with codingMap := tblSet codingMapDefault k v s.codingMap }
  | .crcDiff k v, s => { s with crcDiff := tblSet crcDiffDefault k v s.crcDiff }
  | .held k v, s => { s with held := tblSet heldDefault k v s.held }
  | .heldNext v, s => { s with heldNext := v }
  | .buffered k v, s => { s with buffered := tblSet bufferedDefault k v s.buffered }
  | .tlb v, s => { s with tlb := v }
  | .inval v, s => { s with inval := v }
  | .zeroing v, s => { s with zeroing := v }
  | .lcSlots k v, s => { s with lcSlots := tblSet lcSlotsDefault k v s.lcSlots }
  | .lcWait v, s => { s with lcWait := v }
  | .lcFill v, s => { s with lcFill := v }
  | .sp k v, s => { s with sp := tblSet spDefault k v s.sp }
  | .arrays k v, s => { s with arrays := tblSet arraysDefault k v s.arrays }
  | .engines k v, s => { s with engines := tblSet enginesDefault k v s.engines }
  | .ctxs k v, s => { s with ctxs := tblSet ctxsDefault k v s.ctxs }
  | .entries k v, s => { s with entries := tblSet entriesDefault k v s.entries }
  | .entryNext v, s => { s with entryNext := v }
  | .lanes k v, s => { s with lanes := tblSet lanesDefault k v s.lanes }
  | .classCounts k v, s => { s with classCounts := tblSet classCountsDefault k v s.classCounts }
  | .ports k v, s => { s with ports := tblSet portsDefault k v s.ports }
  | .remotes k v, s => { s with remotes := tblSet remotesDefault k v s.remotes }
  | .windows k v, s => { s with windows := tblSet windowsDefault k v s.windows }
  | .streams k v, s => { s with streams := tblSet streamsDefault k v s.streams }
  | .pipes k v, s => { s with pipes := tblSet pipesDefault k v s.pipes }
  | .layers k v, s => { s with layers := tblSet layersDefault k v s.layers }
  | .outs k v, s => { s with outs := tblSet outsDefault k v s.outs }
  | .keep v, s => { s with keep := v }
  | .trust v, s => { s with trust := v }
  | .flash k v, s => { s with flash := tblSet flashDefault k v s.flash }
  | .track v, s => { s with track := v }
  | .tblk k v, s => { s with tblk := tblSet tblkDefault k v s.tblk }
  | .tcache k v, s => { s with tcache := tblSet tcacheDefault k v s.tcache }
  | .tcam k v, s => { s with tcam := tblSet tcamDefault k v s.tcam }
  | .trings k v, s => { s with trings := tblSet tringsDefault k v s.trings }
  | .vfs v, s => { s with vfs := v }
  | .d3 v, s => { s with d3 := v }
  | .pcieAfter v, s => { s with pcieAfter := v }
  | .owed v, s => { s with owed := v }
  | .phase v, s => { s with phase := v }
  | .tripHold v, s => { s with tripHold := v }
  | .ruin v, s => { s with ruin := v }
  | .relock v, s => { s with relock := v }
  | .linkWait v, s => { s with linkWait := v }
  | .lost v, s => { s with lost := v }
  | .thermtrip v, s => { s with thermtrip := v }
  | .faultsAt v, s => { s with faultsAt := v }
  | .flog k v, s => { s with flog := tblSet flogDefault k v s.flog }
  | .flogN v, s => { s with flogN := v }
  | .tb v, s => { s with tb := v }
  | .commitsClear lo hi, s => { s with commits := tblClear lo hi s.commits }
  | .latchesClear lo hi, s => { s with latches := tblClear lo hi s.latches }
  | .unitsClear lo hi, s => { s with units := tblClear lo hi s.units }
  | .ringsClear lo hi, s => { s with rings := tblClear lo hi s.rings }
  | .jobsClear lo hi, s => { s with jobs := tblClear lo hi s.jobs }
  | .codingMapClear lo hi, s => { s with codingMap := tblClear lo hi s.codingMap }
  | .crcDiffClear lo hi, s => { s with crcDiff := tblClear lo hi s.crcDiff }
  | .heldClear lo hi, s => { s with held := tblClear lo hi s.held }
  | .bufferedClear lo hi, s => { s with buffered := tblClear lo hi s.buffered }
  | .lcSlotsClear lo hi, s => { s with lcSlots := tblClear lo hi s.lcSlots }
  | .arraysClear lo hi, s => { s with arrays := tblClear lo hi s.arrays }
  | .enginesClear lo hi, s => { s with engines := tblClear lo hi s.engines }
  | .ctxsClear lo hi, s => { s with ctxs := tblClear lo hi s.ctxs }
  | .entriesClear lo hi, s => { s with entries := tblClear lo hi s.entries }
  | .lanesClear lo hi, s => { s with lanes := tblClear lo hi s.lanes }
  | .classCountsClear lo hi, s => { s with classCounts := tblClear lo hi s.classCounts }
  | .portsClear lo hi, s => { s with ports := tblClear lo hi s.ports }
  | .remotesClear lo hi, s => { s with remotes := tblClear lo hi s.remotes }
  | .windowsClear lo hi, s => { s with windows := tblClear lo hi s.windows }
  | .streamsClear lo hi, s => { s with streams := tblClear lo hi s.streams }
  | .pipesClear lo hi, s => { s with pipes := tblClear lo hi s.pipes }
  | .layersClear lo hi, s => { s with layers := tblClear lo hi s.layers }
  | .outsClear lo hi, s => { s with outs := tblClear lo hi s.outs }
  | .flashClear lo hi, s => { s with flash := tblClear lo hi s.flash }
  | .tblkClear lo hi, s => { s with tblk := tblClear lo hi s.tblk }
  | .tcacheClear lo hi, s => { s with tcache := tblClear lo hi s.tcache }
  | .tcamClear lo hi, s => { s with tcam := tblClear lo hi s.tcam }
  | .tringsClear lo hi, s => { s with trings := tblClear lo hi s.trings }
  | .flogClear lo hi, s => { s with flog := tblClear lo hi s.flog }
  | .time t, s => { s with time := if s.time.toNat ≤ t.toNat then t else s.time }
  | .setTime t, s => { s with time := t }
  | .free, s => { s with free := s.free + 1 }
  | .out o, s => { s with out := o :: s.out }
  | .memClear lo hi, s => { s with mem := tblClear lo hi s.mem }
  | .spClear lo hi, s => { s with sp := tblClear lo hi s.sp }
  | .regsReset lo hi, s => { s with regs := tblClear lo hi s.regs }
  | .shadowsReset lo hi, s => { s with shadows := tblClear lo hi s.shadows }

/-- The fields of the state that an effect can change: all but the queue. -/
inductive StateField where
  | regs | shadows | commits | latches | units | rings | jobs | jobNext | time | mem | codingMap | crcDiff
  | held | heldNext | buffered | tlb | inval | zeroing | lcSlots | lcWait | lcFill | sp | arrays | engines
  | ctxs | entries | entryNext | lanes | classCounts | ports | remotes | windows | streams | pipes | layers | outs
  | keep | trust | flash | track | tblk | tcache | tcam | trings | vfs | d3 | pcieAfter | owed
  | phase | tripHold | ruin | relock | linkWait | lost | thermtrip | faultsAt | flog | flogN | tb | free | out
  deriving DecidableEq, Repr

/-- The field an effect changes. -/
def Effect.field : Effect → StateField
  | .regs _ _ => .regs
  | .shadows _ _ => .shadows
  | .commits _ _ => .commits
  | .latches _ _ => .latches
  | .units _ _ => .units
  | .rings _ _ => .rings
  | .jobs _ _ => .jobs
  | .jobNext _ => .jobNext
  | .mem _ _ => .mem
  | .codingMap _ _ => .codingMap
  | .crcDiff _ _ => .crcDiff
  | .held _ _ => .held
  | .heldNext _ => .heldNext
  | .buffered _ _ => .buffered
  | .tlb _ => .tlb
  | .inval _ => .inval
  | .zeroing _ => .zeroing
  | .lcSlots _ _ => .lcSlots
  | .lcWait _ => .lcWait
  | .lcFill _ => .lcFill
  | .sp _ _ => .sp
  | .arrays _ _ => .arrays
  | .engines _ _ => .engines
  | .ctxs _ _ => .ctxs
  | .entries _ _ => .entries
  | .entryNext _ => .entryNext
  | .lanes _ _ => .lanes
  | .classCounts _ _ => .classCounts
  | .ports _ _ => .ports
  | .remotes _ _ => .remotes
  | .windows _ _ => .windows
  | .streams _ _ => .streams
  | .pipes _ _ => .pipes
  | .layers _ _ => .layers
  | .outs _ _ => .outs
  | .keep _ => .keep
  | .trust _ => .trust
  | .flash _ _ => .flash
  | .track _ => .track
  | .tblk _ _ => .tblk
  | .tcache _ _ => .tcache
  | .tcam _ _ => .tcam
  | .trings _ _ => .trings
  | .vfs _ => .vfs
  | .d3 _ => .d3
  | .pcieAfter _ => .pcieAfter
  | .owed _ => .owed
  | .phase _ => .phase
  | .tripHold _ => .tripHold
  | .ruin _ => .ruin
  | .relock _ => .relock
  | .linkWait _ => .linkWait
  | .lost _ => .lost
  | .thermtrip _ => .thermtrip
  | .faultsAt _ => .faultsAt
  | .flog _ _ => .flog
  | .flogN _ => .flogN
  | .tb _ => .tb
  | .commitsClear _ _ => .commits
  | .latchesClear _ _ => .latches
  | .unitsClear _ _ => .units
  | .ringsClear _ _ => .rings
  | .jobsClear _ _ => .jobs
  | .codingMapClear _ _ => .codingMap
  | .crcDiffClear _ _ => .crcDiff
  | .heldClear _ _ => .held
  | .bufferedClear _ _ => .buffered
  | .lcSlotsClear _ _ => .lcSlots
  | .arraysClear _ _ => .arrays
  | .enginesClear _ _ => .engines
  | .ctxsClear _ _ => .ctxs
  | .entriesClear _ _ => .entries
  | .lanesClear _ _ => .lanes
  | .classCountsClear _ _ => .classCounts
  | .portsClear _ _ => .ports
  | .remotesClear _ _ => .remotes
  | .windowsClear _ _ => .windows
  | .streamsClear _ _ => .streams
  | .pipesClear _ _ => .pipes
  | .layersClear _ _ => .layers
  | .outsClear _ _ => .outs
  | .flashClear _ _ => .flash
  | .tblkClear _ _ => .tblk
  | .tcacheClear _ _ => .tcache
  | .tcamClear _ _ => .tcam
  | .tringsClear _ _ => .trings
  | .flogClear _ _ => .flog
  | .time _ | .setTime _ => .time
  | .free => .free
  | .out _ => .out
  | .memClear _ _ => .mem
  | .spClear _ _ => .sp
  | .regsReset _ _ => .regs
  | .shadowsReset _ _ => .shadows

/-- A sequence of effects, each chosen by the state reached so far. -/
inductive Act where
  | done
  | eff (e : Effect)
  | seq (a b : Act)
  | look (f : State → Act)

/-- The state an act leaves. -/
def run : Act → State → State
  | .done, s => s
  | .eff e, s => e.apply s
  | .seq a b, s => run b (run a s)
  | .look f, s => run (f s) s

/-- Acts one after the other. -/
def acts : List Act → Act
  | [] => .done
  | a :: l => .seq a (acts l)

/-- The act, if the condition holds. -/
def whenA (c : Bool) (a : Act) : Act := if c then a else .done

/-- One act for each member of a list, in order. -/
def forA {α : Type} : List α → (α → Act) → Act
  | [], _ => .done
  | x :: l, f => .seq (f x) (forA l f)

/-- The act of an optional value, if there is one. -/
def optA {α : Type} (o : Option α) (f : α → Act) : Act :=
  match o with
  | none => .done
  | some x => f x

/-- The entry `k` of `commits`. -/
def State.atCommits (s : State) (k : Nat) : (Option CommitRec) := tblGet commitsDefault k s.commits

/-- The entry `k` of `latches`. -/
def State.atLatches (s : State) (k : Nat) : (Option (Nat × Word)) := tblGet latchesDefault k s.latches

/-- The entry `k` of `units`. -/
def State.atUnits (s : State) (k : Nat) : UnitRec := tblGet unitsDefault k s.units

/-- The entry `k` of `rings`. -/
def State.atRings (s : State) (k : Nat) : RingAux := tblGet ringsDefault k s.rings

/-- The entry `k` of `jobs`. -/
def State.atJobs (s : State) (k : Nat) : (Option Job) := tblGet jobsDefault k s.jobs

/-- The entry `k` of `mem`. -/
def State.atMem (s : State) (k : Nat) : Byte := tblGet memDefault k s.mem

/-- The entry `k` of `codingMap`. -/
def State.atCodingMap (s : State) (k : Nat) : Byte := tblGet codingMapDefault k s.codingMap

/-- The entry `k` of `crcDiff`. -/
def State.atCrcDiff (s : State) (k : Nat) : Word := tblGet crcDiffDefault k s.crcDiff

/-- The entry `k` of `held`. -/
def State.atHeld (s : State) (k : Nat) : (Option HeldBillet) := tblGet heldDefault k s.held

/-- The entry `k` of `buffered`. -/
def State.atBuffered (s : State) (k : Nat) : (List BufBillet) := tblGet bufferedDefault k s.buffered

/-- The entry `k` of `lcSlots`. -/
def State.atLcSlots (s : State) (k : Nat) : LcSlot := tblGet lcSlotsDefault k s.lcSlots

/-- The entry `k` of `sp`. -/
def State.atSp (s : State) (k : Nat) : Byte := tblGet spDefault k s.sp

/-- The entry `k` of `arrays`. -/
def State.atArrays (s : State) (k : Nat) : ArraySt := tblGet arraysDefault k s.arrays

/-- The entry `k` of `engines`. -/
def State.atEngines (s : State) (k : Nat) : EngineSt := tblGet enginesDefault k s.engines

/-- The entry `k` of `ctxs`. -/
def State.atCtxs (s : State) (k : Nat) : CtxRec := tblGet ctxsDefault k s.ctxs

/-- The entry `k` of `entries`. -/
def State.atEntries (s : State) (k : Nat) : (Option EntryRec) := tblGet entriesDefault k s.entries

/-- The entry `k` of `lanes`. -/
def State.atLanes (s : State) (k : Nat) : LaneRec := tblGet lanesDefault k s.lanes

/-- The entry `k` of `classCounts`. -/
def State.atClassCounts (s : State) (k : Nat) : ClassCount := tblGet classCountsDefault k s.classCounts

/-- The entry `k` of `ports`. -/
def State.atPorts (s : State) (k : Nat) : PortSt := tblGet portsDefault k s.ports

/-- The entry `k` of `remotes`. -/
def State.atRemotes (s : State) (k : Nat) : (Option RemoteReq) := tblGet remotesDefault k s.remotes

/-- The entry `k` of `windows`. -/
def State.atWindows (s : State) (k : Nat) : WinSt := tblGet windowsDefault k s.windows

/-- The entry `k` of `streams`. -/
def State.atStreams (s : State) (k : Nat) : StreamSt := tblGet streamsDefault k s.streams

/-- The entry `k` of `pipes`. -/
def State.atPipes (s : State) (k : Nat) : PipeSt := tblGet pipesDefault k s.pipes

/-- The entry `k` of `layers`. -/
def State.atLayers (s : State) (k : Nat) : LayerSt := tblGet layersDefault k s.layers

/-- The entry `k` of `outs`. -/
def State.atOuts (s : State) (k : Nat) : OutSt := tblGet outsDefault k s.outs

/-- The entry `k` of `flash`. -/
def State.atFlash (s : State) (k : Nat) : Byte := tblGet flashDefault k s.flash

/-- The entry `k` of `tblk`. -/
def State.atTblk (s : State) (k : Nat) : TrackBlk := tblGet tblkDefault k s.tblk

/-- The entry `k` of `tcache`. -/
def State.atTcache (s : State) (k : Nat) : (Option CacheBlk) := tblGet tcacheDefault k s.tcache

/-- The entry `k` of `tcam`. -/
def State.atTcam (s : State) (k : Nat) : CamRec := tblGet tcamDefault k s.tcam

/-- The entry `k` of `trings`. -/
def State.atTrings (s : State) (k : Nat) : RingAux := tblGet tringsDefault k s.trings

/-- The entry `k` of `flog`. -/
def State.atFlog (s : State) (k : Nat) : (BitVec 256) := tblGet flogDefault k s.flog

end Sys2Proof.Machine
end

