-- ==== Sys2Proof/Machine/Ops.lean ====
section
/-! DEFINITION. The named operations every family uses: reading and writing registers, counters, interrupts, error
recording, event rings, the binding table, semaphores and free values. -/

namespace Sys2Proof.Machine

/-- The meaning of a command: its act runs. A command that names nothing the device has never reaches it, and leaves the
state as it is (DESIGN CHOICE, log entry 57). -/
def meaning (i : Instr) (a : Act) (s : State) : Host.Outcome State Fault Refusal :=
  .next (if i.wf then run a s else s)

/-! ## Registers -/

/-- The active value of the register at offset `off` of page `p`. -/
def State.reg (s : State) (p off : Nat) : Word := tblGet regReset (regAddr p off) s.regs

/-- The shadow of the register at offset `off` of page `p` (R4). -/
def State.shadow (s : State) (p off : Nat) : Word := tblGet regReset (regAddr p off) s.shadows

/-- A field of an active register. -/
def State.rfld (s : State) (p off lo len : Nat) : Nat := fld (s.reg p off) lo len

/-- A bit of an active register. -/
def State.rbit (s : State) (p off i : Nat) : Bool := bit (s.reg p off) i

/-- A 64-bit value held in two registers, low half at the lower offset. -/
def State.reg64 (s : State) (p off : Nat) : Nat := (s.reg p off).toNat + 2 ^ 32 * (s.reg p (off + 4)).toNat

/-- The register takes a value; reserved bits stay 0 (R5). -/
def setReg (p off : Nat) (v : Word) : Act := .eff (.regs (regAddr p off) v)

/-- The register takes the low 32 bits of a number. -/
def setRegN (p off v : Nat) : Act := setReg p off (BitVec.ofNat 32 v)

/-- A field of a register takes a value. -/
def setFld (p off lo len v : Nat) : Act := .look fun s => setReg p off (putFld (s.reg p off) lo len v)

/-- A 64-bit value put into two registers. -/
def setReg64 (p off v : Nat) : Act := .seq (setRegN p off v) (setRegN p (off + 4) (v / 2 ^ 32))

/-- The shadow takes a value. -/
def setShadow (p off : Nat) (v : Word) : Act := .eff (.shadows (regAddr p off) v)

/-- A 64-bit counter rises by `n`, unless the page's counters are frozen (PG_CTL.cnt_freeze, R32). -/
def bump (p off n : Nat) : Act := .look fun s =>
  if s.rbit p 0x010 3 then .done else setReg64 p off (s.reg64 p off + n)

/-! ## Free values -/

/-- The next free value, handed on to the act that uses it (log entry 3). -/
def withFree (k : BitVec 64 → Act) : Act := .look fun s => .seq (.eff .free) (k (Config.freeValue s.free))

/-! ## The binding table -/

/-- The number of a unit kind in the binding command (R47). -/
def unitCode : UnitKind → Nat
  | .array => 1
  | .pooled => 2
  | .semRange => 3
  | .pipe => 4
  | .stream => 5
  | .output => 6
  | .videoPair => 7
  | .graphicPair => 8
  | .window => 9
  | .partition => 10

/-- The key of a unit in the binding table. -/
def unitKey (u : UnitId) : Nat := unitCode u.kind * 0x1000 + u.num

/-- What the binding table holds of a unit. -/
def State.unitAt (s : State) (u : UnitId) : UnitRec := s.atUnits (unitKey u)

/-- The binding table's entry of a unit changes. -/
def setUnit (u : UnitId) (r : UnitRec) : Act := .eff (.units (unitKey u) r)

/-- The unit a page belongs to; none for a page that belongs to the PF permanently (R47, R48). -/
def unitOfPage (p : Nat) : Option UnitId :=
  match pageClass p with
  | some .array | some .quant | some .spad | some .handles => some ⟨.array, (p - 0x080) / 4⟩
  | some .engine => some (if p < 0x140 then ⟨.array, (p - 0x100) / 2⟩ else ⟨.pooled, p - 0x140⟩)
  | some .sem => some ⟨.semRange, p - 0x240⟩
  | some .pipe => some ⟨.pipe, p - 0x050⟩
  | some .link | some .comp | some .evid | some .strip => some ⟨.output, (p - 0x170) / 4⟩
  | some .vslot => some ⟨.videoPair, p - 0x180⟩
  | some .gslot => some ⟨.graphicPair, p - 0x1A0⟩
  | some .window => some ⟨.window, p - 0x200⟩
  | some .part => some ⟨.partition, p - 0x1B8⟩
  | _ => none

/-- The pages of a unit, in page order (R47). -/
def unitPages (u : UnitId) : List Nat :=
  match u.kind with
  | .array => [0x080 + 4 * u.num, 0x081 + 4 * u.num, 0x082 + 4 * u.num, 0x083 + 4 * u.num,
      0x100 + 2 * u.num, 0x101 + 2 * u.num]
  | .pooled => [0x140 + u.num]
  | .semRange => [0x240 + u.num]
  | .pipe => [0x050 + u.num]
  | .stream => []
  | .output => [0x170 + 4 * u.num, 0x171 + 4 * u.num, 0x172 + 4 * u.num, 0x173 + 4 * u.num]
  | .videoPair => [0x180 + u.num]
  | .graphicPair => [0x1A0 + u.num]
  | .window => [0x200 + u.num]
  | .partition => [0x1B8 + u.num]

/-- The VF whose global page a page is, or the PF. -/
def globalFunc (p : Nat) : Func := if 0x1000 ≤ p then Fin.ofNat 32 (p - 0x1000) else 0

/-- The function that owns a page: the owner of its unit, the function of a global page, else the PF (R47, R48). -/
def State.pageOwner (s : State) (p : Nat) : Func :=
  match unitOfPage p with
  | some u => (s.unitAt u).owner
  | none => globalFunc p

/-- The binding state of a page; pages that belong to the PF permanently count as bound (R48). -/
def State.pageState (s : State) (p : Nat) : BindState :=
  match unitOfPage p with
  | some u => (s.unitAt u).state
  | none => .bound

/-- The binding epoch of a page. -/
def State.pageEpoch (s : State) (p : Nat) : Nat :=
  match unitOfPage p with
  | some u => (s.unitAt u).epoch.toNat
  | none => 0

/-- Whether a number names a unit of its kind, and the unit is bound to a function and in the bound state (R47). -/
def State.boundTo (s : State) (u : UnitId) (f : Func) : Bool :=
  decide (u.num < unitCount u.kind) && decide ((s.unitAt u).state = .bound) && decide ((s.unitAt u).owner = f)

/-- Whether a function answers requests: the PF, or a VF the host has enabled, in D0 (R21, R51; log entry 44). -/
def State.present (s : State) (f : Func) : Bool := decide (f.val ≤ s.vfs) && !s.d3.getLsbD f.val

/-- The code of a binding state in PG_BIND (R32). -/
def bindCode : BindState → Nat
  | .unbound => 0
  | .bound => 1
  | .rebinding => 2
  | .held => 3

/-! ## Interrupts -/

/-- How many vectors a function has (R21). -/
def msixCount (f : Func) : Nat := if f.val = 0 then 2048 else 64

/-- Where the table entry of a function's vector stands: page and offset (R26, R31). -/
def msixEntry (f : Func) (v : Nat) : Nat × Nat :=
  if f.val = 0 then (0x018 + v / 256, 16 * (v % 256)) else (vfMsixPage f, 16 * v)

/-- Where the word with the pending bit of a function's vector stands: page and offset (R26, R31). -/
def msixPba (f : Func) (v : Nat) : Nat × Nat :=
  if f.val = 0 then (0x017, 4 * (v / 32)) else (vfMsixPage f, 0x800 + 4 * (v / 32))

/-- A vector of a function is signalled: masked, its pending bit is set; otherwise the message of its table entry is
sent. A vector the function does not have sends nothing (R21, R26, R31; log entry 7). -/
def fireVector (f : Func) (v : Nat) : Act := .look fun s =>
  let e := msixEntry f v
  let b := msixPba f v
  if msixCount f ≤ v then .done
  else if s.rbit e.1 (e.2 + 12) 0 then setReg b.1 b.2 (s.reg b.1 b.2 ||| BitVec.ofNat 32 (2 ^ (v % 32)))
  else .eff (.out (.msix f (BitVec.ofNat 64 (s.reg64 e.1 e.2)) (s.reg e.1 (e.2 + 8))))

/-- Bit `i` of a page's PG_IRQ_RAW is raised; the page's interrupt fires when an enabled bit goes from 0 to 1 with
PG_CTL.irq_on set (R32; the moment of firing is DEDUCED, log entry 9). -/
def raiseIrq (p i : Nat) : Act := .look fun s =>
  .seq (setReg p 0x018 (s.reg p 0x018 ||| BitVec.ofNat 32 (2 ^ i)))
    (whenA (!s.rbit p 0x018 i && s.rbit p 0x01C i && s.rbit p 0x010 1)
      (fireVector (s.pageOwner p) (s.rfld p 0x02C 16 11)))

/-! ## Errors and events -/

/-- PG_ERR, its count and its details are recorded and the error bit raised, with no event (R32, R40). -/
def recordQuiet (p code : Nat) (i0 i1 : Word) : Act := .look fun s =>
  acts [setRegN p 0x020 (code % 65536 + 65536 * satNat 0xFFFF (s.rfld p 0x020 16 16 + 1)),
    setReg p 0x024 i0, setReg p 0x028 i1, raiseIrq p 0]

/-- Offset of the registers of event ring `n` of a global page (R39). -/
def evrOff (n : Nat) : Nat := 0x400 + 32 * n

/-- The key of ring `n` of function `f` in the rings table. -/
def ringKey (f : Func) (n : Nat) : Nat := 8 * f.val + n

/-- Entries of a ring of log2 size `k`. -/
def evrEntries (s : State) (f : Func) (n : Nat) : Nat := 2 ^ s.rfld (globalPage f) (evrOff n + 8) 0 5

/-- The 32 bytes of an event record (R38); bytes of the payload that no rule names are 0 (log entry 10). -/
def eventBytes (kind inst : Nat) (phase : Bool) (code epoch : Nat) (t : Dword) (payload : List Byte) : List Byte :=
  natBytes 4 (kind % 65536 + 65536 * (inst % 256) + 2 ^ 31 * b2n phase) ++ natBytes 4 (code % 65536 + 65536 * epoch)
    ++ natBytes 8 t.toNat ++ (payload ++ List.replicate 16 0).take 16

/-- The moderated interrupt of an event ring fires if its count threshold is met (R39): tested when a record is written,
so that a lower threshold alone fires nothing (DESIGN CHOICE, log entry 53). -/
def moderate (f : Func) (n : Nat) : Act := .look fun s =>
  let g := globalPage f
  let r := s.atRings (ringKey f n)
  let need := max 1 (s.rfld g (evrOff n + 12) 0 16)
  whenA (decide (need ≤ r.unsignalled) && decide (s.reg g (evrOff n + 16) ≠ s.reg g (evrOff n + 20)))
    (.seq (.eff (.rings (ringKey f n) { r with unsignalled := 0 })) (fireVector f (s.rfld g (evrOff n + 8) 16 11)))

/-- A record is written at the producer index of a ring with room, and counted for moderation (R38, R39). -/
def writeRecord (f : Func) (n kind inst code epoch : Nat) (payload : List Byte) : Act := .look fun s =>
  let g := globalPage f
  let idx := (s.reg g (evrOff n + 16)).toNat
  let size := evrEntries s f n
  let r := s.atRings (ringKey f n)
  acts [
    .eff (.out (.hostWrite f (s.reg64 g (evrOff n) + 32 * (idx % size))
      (eventBytes kind inst (decide (idx / size % 2 = 0)) code epoch s.time payload))),
    setRegN g (evrOff n + 16) (idx + 1),
    .eff (.rings (ringKey f n)
      { r with unsignalled := r.unsignalled + 1, firstAt := if r.unsignalled = 0 then s.time else r.firstAt }),
    moderate f n]

/-- Whether an event ring is enabled. -/
def evrOn (s : State) (f : Func) (n : Nat) : Bool := s.rbit (globalPage f) (evrOff n + 8) 31

/-- Whether an event ring is full (R40). -/
def evrFull (s : State) (f : Func) (n : Nat) : Bool :=
  decide (sub32 (s.reg (globalPage f) (evrOff n + 16)).toNat (s.reg (globalPage f) (evrOff n + 20)).toNat
    = evrEntries s f n)

/-- An event for ring `n` of function `f`: not written and not counted on a ring that is not enabled; dropped, counted
and recorded with cause 0x15 on a full one; otherwise written (R40, R429). -/
def putEvent (f : Func) (n kind inst code epoch : Nat) (payload : List Byte) : Act := .look fun s =>
  let g := globalPage f
  if !evrOn s f n then .done
  else if evrFull s f n then
    let r := s.atRings (ringKey f n)
    acts [setRegN g (evrOff n + 24) ((s.reg g (evrOff n + 24)).toNat + 1),
      .eff (.rings (ringKey f n) { r with pendingDrop := r.pendingDrop + 1 }),
      withFree fun x => recordQuiet g 0x0115 (x.extractLsb' 0 32) (x.extractLsb' 32 32)]
  else writeRecord f n kind inst code epoch payload

/-- The block class of a page. -/
def classOf (p : Nat) : Nat :=
  match pageClass p with
  | some c => blockClass c
  | none => 0

/-- An event of a page for the page's owner, routed by PG_EVT (R429). -/
def pageEvent (p low code : Nat) (payload : List Byte) : Act := .look fun s =>
  whenA (s.rbit p 0x02C 3)
    (putEvent (s.pageOwner p) (s.rfld p 0x02C 0 3) (256 * classOf p + low) (pageInstance p) code (s.pageEpoch p) payload)

/-- An event of a page for a function that need not be its owner: event ring 0 of that function (R429). -/
def funcEvent (f : Func) (p low code : Nat) (payload : List Byte) : Act := .look fun s =>
  putEvent f 0 (256 * classOf p + low) (pageInstance p) code (s.pageEpoch p) payload

/-- An event of a page for its owner and for the PF; one record when both would be one (R429). -/
def ownerAndPf (p low code : Nat) (payload : List Byte) : Act := .look fun s =>
  .seq (pageEvent p low code payload)
    (whenA (!(decide (s.pageOwner p = 0) && s.rbit p 0x02C 3 && decide (s.rfld p 0x02C 0 3 = 0)))
      (funcEvent 0 p low code payload))

/-- An error with its two details: recorded, and reported by the common event 0x03 to the page's owner (R36, R38). -/
def recordErrI (p code : Nat) (i0 i1 : Word) : Act :=
  .seq (recordQuiet p code i0 i1) (pageEvent p 0x03 code (natBytes 4 i0.toNat ++ natBytes 4 i1.toNat))

/-- An error whose details the spec does not define: they are free values (R32, log entry 3). -/
def recordErr (p code : Nat) : Act := withFree fun x => recordErrI p code (x.extractLsb' 0 32) (x.extractLsb' 32 32)

/-- An error with a cause of the page's own class. -/
def pageErr (p cause : Nat) : Act := recordErr p (256 * classOf p + cause)

/-- A host-port error in the global page of a function (R37). -/
def hostErr (f : Func) (cause : Nat) : Act := recordErr (globalPage f) (0x0100 + cause)

/-! ## The fault log and device faults (R390 to R392, R403) -/

/-- An entry of the fault log: code, scope, function, page, reset kind, context, with the error details of page `src`
(R403). "Entries written since power-on" counts the entry itself (DEDUCED, log entry 29). -/
def flog (code scope : Nat) (f : Func) (page kind ctx src : Nat) : Act := .look fun s =>
  let pos := s.rfld 0 0x310 0 10
  acts [.eff (.flog pos (BitVec.ofNat 256 (code + 2 ^ 16 * scope + 2 ^ 19 * f.val + 2 ^ 32 * page + 2 ^ 44 * kind
      + 2 ^ 48 * ctx + 2 ^ 64 * s.time.toNat + 2 ^ 128 * (s.reg src 0x024).toNat + 2 ^ 160 * (s.reg src 0x028).toNat
      + 2 ^ 192 * ((s.flogN + 1) % 2 ^ 32) + 2 ^ 224 * s.rfld 0 0x304 16 16))),
    .eff (.flogN (s.flogN + 1)), setRegN 0 0x310 ((pos + 1) % 1024),
    whenA (decide (1024 ≤ s.flogN)) (setRegN 0 0x314 ((s.reg 0 0x314).toNat + 1))]

/-- The device enters the no-service state (R401). -/
def enterNoService : Act := .seq (.eff (.phase .noService)) (setFld 0 0x304 4 1 1)

/-- The device faults of the last second, this one with them (R391). -/
def State.recentFaults (s : State) : List Dword :=
  s.time :: s.faultsAt.filter fun t => decide (s.time.toNat < t.toNat + 10 ^ 9)

/-- A device fault is recorded in the PF's global page, logged at scope 4, shown in GL_RST_STAT, counted, and told with
event 0x0131, which waits for ring 0 while the device boots (R391, R392, R406). -/
def noteFault (code : Nat) : Act := .look fun s =>
  let payload := List.replicate 4 0 ++ natBytes 2 code ++ natBytes 2 0 ++ natBytes 4 (s.rfld 0 0x310 0 10)
  acts [recordErr 0 code, flog code 4 0 0xFFF 0 0xFFFF 0, setFld 0 0x304 3 1 1,
    if s.phase = .booting then .eff (.owed (s.owed ++ [(0x0131, payload)])) else putEvent 0 0 0x0131 0 0 0 payload,
    .eff (.faultsAt s.recentFaults), whenA (decide (code = 0x0131) || decide (code = 0x0137)) (.eff (.ruin (some code)))]

/-- A device fault (R391): it is noted; then the fence of a warm reset, or the no-service state when fault_reset is 0 or
this is the third fault within one second. A warm reset that runs begins again. -/
def deviceFault (code : Nat) : Act := .look fun s =>
  if s.phase = .noService ∨ s.phase = .held then .done else
  acts [noteFault code,
    whenA (decide (code = 0x0132)) (.eff (.tripHold true)), whenA (decide (code = 0x0133)) (.eff (.relock true)),
    if !s.rbit 0 0x300 2 || decide (3 ≤ s.recentFaults.length) then enterNoService else .eff (.phase (.fenced 4))]

/-- A command that the device takes only in service (R373, R396, R401): otherwise it has no effect. -/
def inService (a : Act) : Act := .look fun s => if s.phase = .service then a else .done

/-! ## Time -/

/-- Device time reaches `now`. -/
def tick (now : Dword) : Act := .eff (.time now)

/-- Whether a kind of units has gone with a missing optional block: the display engine, the decode cluster, the track
engine, the chain ports (R400). -/
def State.kindLost (s : State) : UnitKind → Bool
  | .output | .videoPair | .graphicPair => s.lost.getLsbD 0
  | .pipe | .stream => s.lost.getLsbD 1
  | .partition => s.lost.getLsbD 2
  | .window => s.lost.getLsbD 3
  | .array | .pooled | .semRange => false

/-- Whether a unit is out of service: a felled array, a withdrawn pipe, a unit of a missing block (R47, R394, R400). -/
def State.outOfService (s : State) (u : UnitId) : Bool :=
  s.kindLost u.kind || (match u.kind with
  | .array => (s.unitAt u).felled
  | .pipe => s.rbit 0 0x30C u.num
  | _ => false)

/-- The trust page. -/
def trustPage : Nat := 0x020

/-- The pages served in recovery and out of service, and whose reads by the PF survive the fence of a warm reset: its
global page and the trust page (R373, R396, R401). -/
def corePage (p : Nat) : Bool := decide (p = 0) || decide (p = trustPage)

/-- A command of a function on a page that the device takes in service, and from the PF on its global page and the trust
page also in recovery and out of service (R373, R401). -/
def whenServed (f : Func) (p : Nat) (a : Act) : Act := .look fun s =>
  whenA (decide (s.phase = .service) ||
    (decide (f = 0) && corePage p && (decide (s.phase = .recovery) || decide (s.phase = .noService)))) a

/-! ## Semaphores -/

/-- The page of a semaphore (R31). -/
def semPage (n : Nat) : Nat := 0x240 + n / 64

/-- The bind unit of a semaphore (R47). -/
def semUnit (n : Nat) : UnitId := ⟨.semRange, n / 64⟩

/-- The value of a semaphore (R189). -/
def State.sem (s : State) (n : Nat) : Word := s.reg (semPage n) (0x100 + 4 * (n % 64))

/-- A semaphore takes a value. -/
def putSem (n : Nat) (v : Word) : Act := setReg (semPage n) (0x100 + 4 * (n % 64)) v

/-- An add (R189). -/
def semAdd (n : Nat) (v : Word) : Act := .look fun s => .seq (putSem n (s.sem n + v)) (bump (semPage n) 0x040 1)

/-- A take whose condition is met (R189). -/
def semTake (n : Nat) (v : Word) : Act := .look fun s => .seq (putSem n (s.sem n - v)) (bump (semPage n) 0x048 1)

/-- Whether a take of `v`, or a test against `v`, is met (R189). -/
def State.semReached (s : State) (n : Nat) (v : Word) : Bool := reached (s.sem n) v

/-- Whether a semaphore is bound to a function (R58). -/
def State.semBound (s : State) (n : Nat) (f : Func) : Bool := s.boundTo (semUnit n) f

/-- The traffic class of a semaphore (R49, R54). -/
def State.semClass (s : State) (n : Nat) : Nat := (s.unitAt (semUnit n)).semClass

/-- The context that claims a semaphore, if one does (R192, SEM_CLAIM). -/
def State.semClaim (s : State) (n : Nat) : Option Nat :=
  if s.rbit (semPage n) (0x300 + 4 * (n % 64)) 16 then some (s.rfld (semPage n) (0x300 + 4 * (n % 64)) 0 16) else none

/-- A semaphore is claimed by a context, or its claim is released (R192). -/
def setClaim (n : Nat) (c : Option Nat) : Act :=
  setRegN (semPage n) (0x300 + 4 * (n % 64)) (match c with | some k => 65536 + k | none => 0)

end Sys2Proof.Machine
end

