-- ==== Sys2Proof/Machine/Timebase.lean ====
section
/-! DEFINITION. The timebase: PTM, the one-time set of device time, the mains phase with its disturbances and history,
and the power-fail warning (R262 to R269). -/

namespace Sys2Proof.Machine

/-- The timebase page. -/
def tbPage : Nat := 0x160

/-- The timebase's own state changes. -/
def updTb (f : TimeAux → TimeAux) : Act := .look fun s => .eff (.tb (f s.tb))

/-! ## PTM (R263, R264) -/

/-- TB_PTM_STAT.state changes, with event 0x0A13; its offset. -/
def ptmState (dst : Nat) : Act := .look fun s =>
  whenA (decide (s.rfld tbPage 0x104 0 2 ≠ dst))
    (acts [setRegN tbPage 0x104 dst, raiseIrq tbPage 10,
      pageEvent tbPage 0x13 0 (natBytes 4 dst ++ natBytes 4 (s.reg tbPage 0x108).toNat)])

/-- A signed offset in nanoseconds, saturating in 32 bits. -/
def satOffset (v : Int) : Nat := wrapInt (max (-(2 ^ 31)) (min (2 ^ 31 - 1) v)) 32

/-- PTM_DIALOGUE: a dialogue that succeeds reports master time less device time, and the first since ptm_on was set
steps device time forward; later ones slew, which the moments of later commands show. Three failures in a row give
unaligned. The state follows the offset that is left (DEDUCED, log entry 30). -/
def actPtmDialogue (now : Dword) (master : Option Dword) : Act := .look fun s0 =>
  if !s0.rbit tbPage 0x100 0 then .done else
  acts [tick now, bump tbPage 0x040 1, .look fun s =>
    match master with
    | none =>
      acts [bump tbPage 0x048 1, updTb fun x => { x with ptmFails := x.ptmFails + 1 },
        whenA (decide (3 ≤ s.tb.ptmFails + 1)) (ptmState 3)]
    | some m =>
      let ofs : Int := (m.toNat : Int) - (s.time.toNat : Int)
      let step := !s.tb.ptmFirst && decide (0 ≤ ofs)
      acts [setRegN tbPage 0x108 (satOffset ofs), whenA step (.eff (.setTime m)),
        updTb fun x => { x with ptmFirst := true, ptmFails := 0 },
        ptmState (if step ∨ (-1000 ≤ ofs ∧ ofs ≤ 1000) then 2 else 3)]]

/-- PTM_DIALOGUE. -/
def execPtmDialogue (now : Dword) (master : Option Dword) (s : State) : Host.Outcome State Fault Refusal :=
  meaning (.ptmDialogue now master) (inService (actPtmDialogue now master)) s

/-- TB_SET_CTL.go: device time is set once per power-on while PTM is off, never backwards (R264). -/
def actTbSet : Act := .look fun s =>
  let t := s.reg64 tbPage 0x10C
  if s.rbit tbPage 0x100 0 ∨ s.tb.setUsed ∨ t < s.time.toNat then pageErr tbPage 0x15
  else .seq (.eff (.setTime (BitVec.ofNat 64 t))) (updTb fun x => { x with setUsed := true })

/-! ## Mains phase (R266 to R268) -/

/-- Whether mains measurement is on. -/
def State.mainsOn (s : State) : Bool := s.rbit tbPage 0x100 1

/-- TB_MAINS_STAT.state: 0 off, 1 acquiring, 2 locked, 3 holding. -/
def State.mainsState (s : State) : Nat := s.rfld tbPage 0x124 0 2

/-- Sum and number of the periods the mean is taken over. -/
def State.meanPeriod (s : State) : Nat × Nat := (s.tb.periods.sum, s.tb.periods.length)

/-- The estimate of the mains angle at a time after crossing `c` (R266); 0 before a mean frequency is known. -/
def State.angleFrom (s : State) (c t : Nat) : Nat :=
  let m := s.meanPeriod
  if m.1 = 0 then 0 else (t - c) * 65536 * m.2 / m.1 % 65536

/-- The mains angle θ at device time `t` (R266). -/
def State.angle (s : State) (t : Nat) : Nat :=
  if !s.mainsOn then 0 else match s.tb.cross with
  | none => 0
  | some c => s.angleFrom c.toNat t

/-- The number of the mains cycle at device time `t`: the crossings accepted, and in holding the whole turns of θ since
the last of them (R266, R273; DEDUCED, log entry 30). -/
def State.cycleNo (s : State) (t : Nat) : Nat :=
  let m := s.meanPeriod
  s.tb.cycle + (match s.tb.cross with
    | some c => if s.mainsState = 3 ∧ m.1 ≠ 0 then (t - c.toNat) * m.2 / m.1 else 0
    | none => 0)

/-- The angle at `t` between two crossings held one after the other, the list being newest first (R268): none where `t`
is older than the oldest of them. -/
def angleBetween (t : Nat) : List Nat → Option Nat
  | c' :: c :: older => if c ≤ t then some ((t - c) * 65536 / (c' - c)) else angleBetween t (c :: older)
  | _ => none

/-- The mains angle at a past or coming device time with its flag: 0 exact, 1 predicted, 2 absent (R268). -/
def State.angleAt (s : State) (t : Nat) : Nat × Nat :=
  if !s.mainsOn then (0, 2) else match s.tb.hist with
  | [] => (0, 2)
  | c :: older =>
    if c ≤ t then (s.angleFrom c t, 1)
    else match angleBetween t (c :: older) with
    | some a => (a, 0)
    | none => (0, 2)

/-- TB_MAINS_STAT.state changes, with event 0x0A11. -/
def mainsTo (dst : Nat) : Act := .look fun s =>
  whenA (decide (s.mainsState ≠ dst))
    (.seq (setFld tbPage 0x124 0 2 dst) (pageEvent tbPage 0x11 0 (natBytes 4 (s.mainsState + 4 * dst))))

/-- A disturbance class is found: its bit, its count, and its place in the cycle's event (R267). -/
def disturb (cls : Nat) (theta : Nat) : Act := .look fun s =>
  acts [setReg tbPage 0x124 (s.reg tbPage 0x124 ||| BitVec.ofNat 32 (2 ^ (8 + cls))), bump tbPage 0x050 1,
    raiseIrq tbPage 8,
    updTb fun x => { x with
      classAngle := if x.classes = 0 then theta else x.classAngle, classes := x.classes ||| 2 ^ cls }]

/-- The end of a mains cycle writes one event 0x0A10 with the classes found in it (R267; that a cycle ends at its
positive crossing or when that crossing is missing is DEDUCED, log entry 30). -/
def endCycle : Act := .look fun s =>
  whenA (decide (s.tb.classes ≠ 0))
    (.seq (pageEvent tbPage 0x10 0
        (natBytes 4 s.tb.classes ++ natBytes 4 s.tb.classAngle ++ natBytes 4 (s.reg tbPage 0x128).toNat))
      (updTb fun x => { x with classes := 0 }))

/-- What a missing crossing does: class 0, state holding (R266, R267). -/
def missCrossing (t : Nat) : Act := .look fun s =>
  acts [disturb 0 (s.angle t), updTb fun x => { x with streak := 0, missed := true }, mainsTo 3]

/-- The mains cycle that a positive crossing at `t` begins: the next one, but in holding, where θ has wrapped since and
lies in its first half, the one that the wrap has begun (R266, R273; DEDUCED, log entry 30). -/
def State.cycleFrom (s : State) (t : Nat) : Nat :=
  s.cycleNo t + b2n (!(decide (s.mainsState = 3) && decide (s.meanPeriod.1 ≠ 0) && decide (s.angle t < 32768)))

/-- How far θ lies from `0`, either way. -/
def angleGap (theta from_ : Nat) : Nat :=
  let d := (theta + 65536 - from_) % 65536
  min d (65536 - d)

/-- An accepted positive crossing after `period` (none for the first): step and jump are classified against the mean
before it, θ restarts, the history (the crossings held and their register), the mean, the count and the state follow
(R266, R267). -/
def acceptCrossing (now : Nat) (period : Option Nat) : Act := .look fun s =>
  let m := s.meanPeriod
  let theta := s.angle now
  let step : Bool := match period with
    | some p => decide (m.1 ≠ 0) && decide (p * m.1 < 2 * 10 ^ 9 * (m.1 - m.2 * p + (m.2 * p - m.1)))
    | none => false
  let ps := match period with
    | some p => (p :: s.tb.periods).take 8
    | none => s.tb.periods
  let n := s.tb.streak + 1
  acts [whenA step (disturb 1 theta),
    whenA (decide (m.1 ≠ 0) && decide (1820 < angleGap theta 0)) (disturb 2 theta),
    updTb fun x => { x with
      cross := some (BitVec.ofNat 64 now), periods := ps, streak := n, cycle := s.cycleFrom now,
      ran := decide (2 ≤ s.mainsState), hist := (now :: x.hist).take 256 },
    setReg64 tbPage (0x400 + 8 * ((s.reg tbPage 0x130).toNat % 256)) now,
    setRegN tbPage 0x130 ((s.reg tbPage 0x130).toNat + 1),
    setRegN tbPage 0x128 (if ps.isEmpty then 0 else 10 ^ 12 * ps.length / ps.sum),
    whenA (decide (4 ≤ n)) (mainsTo 2)]

/-- MAINS_POSITIVE_CROSSING: a deglitched rising edge of MSENSE (R266, R267). A period outside 45 to 66 Hz counts as a
missing crossing, with cause 0x17. -/
def actMainsPositiveCrossing (now : Dword) : Act := .seq (tick now) (.look fun s =>
  let t := s.time.toNat
  let period := s.tb.lastEdge.map fun e => t - e.toNat
  whenA s.mainsOn
    (acts [updTb fun x => { x with lastEdge := some s.time, missed := false },
      if (period.map fun p => decide (10 ^ 9 ≤ 66 * p) && decide (45 * p ≤ 10 ^ 9)).getD true then
        acceptCrossing t period
      else .seq (missCrossing t) (pageErr tbPage 0x17),
      updTb fun x => { x with missed := false }, endCycle]))

/-- MAINS_POSITIVE_CROSSING. -/
def execMainsPositiveCrossing (now : Dword) (s : State) : Host.Outcome State Fault Refusal :=
  meaning (.mainsPositiveCrossing now) (inService (actMainsPositiveCrossing now)) s

/-- MAINS_NEGATIVE_CROSSING: a falling edge far from 32,768 is a half-cycle asymmetry (R267). -/
def actMainsNegativeCrossing (now : Dword) : Act := .seq (tick now) (.look fun s =>
  let theta := s.angle s.time.toNat
  whenA (s.mainsOn && decide (s.meanPeriod.1 ≠ 0) && decide (s.rfld tbPage 0x120 0 16 < angleGap theta 32768))
    (disturb 3 theta))

/-- MAINS_NEGATIVE_CROSSING. -/
def execMainsNegativeCrossing (now : Dword) (s : State) : Host.Outcome State Fault Refusal :=
  meaning (.mainsNegativeCrossing now) (inService (actMainsNegativeCrossing now)) s

/-- MAINS_MISSING_CROSSING: no positive crossing by 1.25 mean periods after the last one (R267). MSENSE that has never
risen since mains_on was set has no mean period: its crossing is missing all the same (R417). -/
def actMainsMissingCrossing (now : Dword) : Act := .seq (tick now) (.look fun s =>
  let m := s.meanPeriod
  let due : Bool := match s.tb.lastEdge with
    | some e => decide (5 * m.1 ≤ 4 * m.2 * (s.time.toNat - e.toNat))
    | none => true
  whenA (s.mainsOn && !s.tb.missed && due) (.seq (missCrossing s.time.toNat) endCycle))

/-- MAINS_MISSING_CROSSING. -/
def execMainsMissingCrossing (now : Dword) (s : State) : Host.Outcome State Fault Refusal :=
  meaning (.mainsMissingCrossing now) (inService (actMainsMissingCrossing now)) s

/-! ## TB_CFG (R263, R266) -/

/-- A write of TB_CFG: turning PTM or the mains measurement on starts acquiring, turning one off ends it. -/
def writeTbCfg (v : Word) : Act := .look fun s =>
  let old := s.reg tbPage 0x100
  acts [setReg tbPage 0x100 v,
    whenA (bit v 0 != bit old 0)
      (.seq (updTb fun x => { x with ptmFirst := false, ptmFails := 0 }) (ptmState (b2n (bit v 0)))),
    whenA (bit v 1 != bit old 1)
      (.seq (updTb fun x => { x with
          lastEdge := none, cross := none, periods := [], streak := 0, missed := false, classes := 0 })
        (mainsTo (b2n (bit v 1))))]

/-! ## Power-fail warning (R269) -/

/-- PFW_FALL: PFW_N has stayed low through its deglitch. The moment given is that of the fall at the ball (R269). A
device in power-on reset ignores the input (R409). -/
def actPfwFall (now : Dword) : Act := .look fun s0 => if s0.phase = .held then .done else .seq (tick now) (.look fun s =>
  let theta := s.angle now.toNat
  whenA (!s.rbit tbPage 0x140 0)
    (acts [setRegN tbPage 0x140 (3 + 65536 * theta), setReg64 tbPage 0x148 now.toNat, bump tbPage 0x058 1,
      raiseIrq tbPage 9, whenA (s.mainsOn && decide (s.mainsState = 2)) (disturb 4 theta),
      updTb fun x => { x with pfwBlock := true, fellAt := now, fellAngle := theta },
      funcEvent 0 tbPage 0x12 0 (natBytes 4 1 ++ natBytes 4 0 ++ natBytes 2 theta)]))

/-- PFW_FALL. -/
def execPfwFall (now : Dword) (s : State) : Host.Outcome State Fault Refusal :=
  meaning (.pfwFall now) (actPfwFall now) s

/-- PFW_RISE: PFW_N has stayed high for 2 µs after a warning; the event carries the warning's duration (R269). A
device in power-on reset ignores the input (R409). -/
def actPfwRise (now : Dword) : Act := .look fun s0 => if s0.phase = .held then .done else .seq (tick now) (.look fun s =>
  whenA (s.rbit tbPage 0x140 0)
    (acts [setFld tbPage 0x140 0 1 0, updTb fun x => { x with roseAt := now },
      funcEvent 0 tbPage 0x12 0 (natBytes 4 0 ++ natBytes 4 ((now.toNat - s.tb.fellAt.toNat) / 1000)
        ++ natBytes 2 s.tb.fellAngle)]))

/-- PFW_RISE. -/
def execPfwRise (now : Dword) (s : State) : Host.Outcome State Fault Refusal :=
  meaning (.pfwRise now) (actPfwRise now) s

/-- PFW_REARM: PFW_N has stayed high for rearm_ms, and keep-store commits are accepted again (R269). -/
def actPfwRearm (now : Dword) : Act := .seq (tick now) (.look fun s =>
  whenA (s.tb.pfwBlock && !s.rbit tbPage 0x140 0
      && decide (s.tb.roseAt.toNat + 10 ^ 6 * s.rfld tbPage 0x144 0 16 ≤ now.toNat))
    (updTb fun x => { x with pfwBlock := false }))

end Sys2Proof.Machine
end

