-- ==== Sys2Proof/Machine/Beam.lean ====
section
/-! DEFINITION. Outputs, layers and strips as registers describe them: the timing of an output, its layers, the lines of
a strip, and the records of layer strips (R270, R279, R280, R300, R305 to R309). -/

namespace Sys2Proof.Machine

/-! ## Pages and states of a frame -/

/-- The link page of an output. -/
def linkPage (o : Nat) : Nat := 0x170 + 4 * o

/-- The composition page of an output. -/
def compPage (o : Nat) : Nat := 0x171 + 4 * o

/-- The evidence page of an output. -/
def evidPage (o : Nat) : Nat := 0x172 + 4 * o

/-- The strip page of an output. -/
def stripPage (o : Nat) : Nat := 0x173 + 4 * o

/-- The page of a video slot. -/
def vPage (slot : Nat) : Nat := 0x180 + slot / 2

/-- The page of a graphic slot. -/
def gPage (slot : Nat) : Nat := 0x1A0 + slot / 2

/-- The floor-scaler page. -/
def floorPage : Nat := 0x1A8

/-- The bind unit of an output. -/
def outUnit (o : Nat) : UnitId := ⟨.output, o⟩

/-- A register as a frame's state gives it: the value a latched or validated set holds for it, else the active one. -/
def State.via (s : State) (v : Table Word) (p off : Nat) : Word :=
  tblGet (fun k => tblGet regReset k s.regs) (regAddr p off) v

/-- A field of a register as a frame's state gives it. -/
def State.vf (s : State) (v : Table Word) (p off lo len : Nat) : Nat := fld (s.via v p off) lo len

/-- A 64-bit value of two registers as a frame's state gives it. -/
def State.v64 (s : State) (v : Table Word) (p off : Nat) : Nat :=
  (s.via v p off).toNat + 2 ^ 32 * (s.via v p (off + 4)).toNat

/-- An output's record changes. -/
def updOut (o : Nat) (f : OutSt → OutSt) : Act := .look fun s => .eff (.outs o (f (s.atOuts o)))

/-- A layer's record changes. -/
def updLayer (slot : Nat) (f : LayerSt → LayerSt) : Act := .look fun s => .eff (.layers slot (f (s.atLayers slot)))

/-! ## Timing (R6, R270, R300) -/

/-- h_active. -/
def State.hActive (s : State) (v : Table Word) (o : Nat) : Nat := s.vf v (linkPage o) 0x100 0 13

/-- h_total. -/
def State.hTotal (s : State) (v : Table Word) (o : Nat) : Nat := s.vf v (linkPage o) 0x100 16 13

/-- v_active. -/
def State.vActive (s : State) (v : Table Word) (o : Nat) : Nat := s.vf v (linkPage o) 0x108 0 12

/-- v_total. -/
def State.vTotal (s : State) (v : Table Word) (o : Nat) : Nat := s.vf v (linkPage o) 0x108 16 12

/-- The pixel clock in kHz. -/
def State.khz (s : State) (v : Table Word) (o : Nat) : Nat := s.vf v (linkPage o) 0x110 0 20

/-- DT_CFG.enable. -/
def State.outOn (s : State) (v : Table Word) (o : Nat) : Bool := bit (s.via v (linkPage o) 0x114) 0

/-- The duration of `n` lines in ns, rounded down. -/
def State.linesNs (s : State) (v : Table Word) (o n : Nat) : Nat := n * s.hTotal v o * 1000000 / max 1 (s.khz v o)

/-- Whether the timing generator of an output is scanning. -/
def State.scanning (s : State) (o : Nat) : Bool := s.rbit (linkPage o) 0x118 0

/-- The offset of an output's TB_LINE. -/
def lineOff (o : Nat) : Nat := 0x180 + 16 * o

/-- The line an output is in. -/
def State.lineOf (s : State) (o : Nat) : Nat := s.rfld tbPage (lineOff o) 0 16

/-- The frame counter of an output. -/
def State.frameOf (s : State) (o : Nat) : Nat := (s.reg tbPage (lineOff o + 4)).toNat

/-- The device time at which line 0 of the current frame of an output began. -/
def State.t0Of (s : State) (o : Nat) : Nat := s.reg64 tbPage (lineOff o + 8)

/-! ## Layers (R296, R308, R309) -/

/-- Offset of a slot's layer block in its page. -/
def blockOff (slot : Nat) : Nat := 0x100 + 0x100 * (slot % 2)

/-- Offset of a video slot's raster block in its page. -/
def rasterOff (slot : Nat) : Nat := 0x600 + 0x80 * (slot % 2)

/-- A field of a video slot's layer block. -/
def State.vl (s : State) (v : Table Word) (slot off lo len : Nat) : Nat := s.vf v (vPage slot) (blockOff slot + off) lo len

/-- A field of a video slot's raster block. -/
def State.rl (s : State) (v : Table Word) (slot off lo len : Nat) : Nat := s.vf v (vPage slot) (rasterOff slot + off) lo len

/-- A field of a graphic slot's block. -/
def State.gr (s : State) (v : Table Word) (slot off lo len : Nat) : Nat := s.vf v (gPage slot) (blockOff slot + off) lo len

/-- The video slots shown on an output, by number. -/
def State.videoOn (s : State) (v : Table Word) (o : Nat) : List Nat :=
  (List.range 64).filter fun i => decide (s.vl v i 0 0 1 = 1) && decide (s.vl v i 0 1 2 = o)

/-- The graphic slots shown on an output, by number. -/
def State.graphicOn (s : State) (v : Table Word) (o : Nat) : List Nat :=
  (List.range 16).filter fun i => decide (s.gr v i 0 0 1 = 1) && decide (s.gr v i 0 1 2 = o)

/-- A slot put among slots ordered by a z, before the first with a greater one. -/
def insertZ (z : Nat → Nat) (x : Nat) : List Nat → List Nat
  | [] => [x]
  | y :: l => if z x < z y then x :: y :: l else y :: insertZ z x l

/-- Slots in increasing z, ties to the lower slot (R299). -/
def sortZ (z : Nat → Nat) (l : List Nat) : List Nat := l.foldl (fun a x => insertZ z x a) []

/-- dy and dh of a video slot. -/
def State.rowsOf (s : State) (v : Table Word) (slot : Nat) : Nat × Nat := (s.vl v slot 0x0C 16 13, s.vl v slot 0x10 16 13)

/-! ## Strips (R279, R280) -/

/-- The strips of an output. -/
def State.strips (s : State) (v : Table Word) (o : Nat) : Nat := (s.vActive v o + 15) / 16

/-- The first and the last line of a strip. -/
def State.stripLines (s : State) (v : Table Word) (o k : Nat) : Nat × Nat := (16 * k, min (16 * k + 15) (s.vActive v o - 1))

/-- Whether a strip meets a layer's destination rectangle. -/
def State.meets (s : State) (v : Table Word) (o k slot : Nat) : Bool :=
  let r := s.rowsOf v slot
  let l := s.stripLines v o k
  decide (r.2 ≠ 0) && decide (l.1 < r.1 + r.2) && decide (r.1 ≤ l.2)

/-- lead. -/
def State.lead (s : State) (v : Table Word) (o : Nat) : Nat := s.vf v (stripPage o) 0x100 0 3

/-- guard. -/
def State.guardOf (s : State) (v : Table Word) (o : Nat) : Nat := s.vf v (stripPage o) 0x100 4 4

/-- take. -/
def State.takeOf (s : State) (v : Table Word) (o : Nat) : Nat := s.vf v (stripPage o) 0x100 8 4

/-- The cut-off line, which may lie below 0 (R311). -/
def State.cutLine (s : State) (v : Table Word) (o : Nat) : Int :=
  (s.vActive v o : Int) - 1 - 16 * (s.lead v o : Int) - (s.vf v (compPage o) 0x104 0 10 : Int)

/-- The state of the frame after the current one: the latched set where there is one (R311, R312). -/
def State.nextView (s : State) (o : Nat) : Table Word := ((s.atOuts o).latched.map fun g => g.snap).getD []

/-- The state of a frame: the active registers for the current one, the latched set for the next. -/
def State.frameView (s : State) (o frame : Nat) : Table Word := if frame = s.frameOf o then [] else s.nextView o

/-- Whether a set changes the pixel clock, a total, lanes, rate or bits per component (R312). -/
def retimes (s : State) (v : Table Word) (o : Nat) : Bool :=
  decide (s.hTotal v o ≠ s.hTotal [] o) || decide (s.vTotal v o ≠ s.vTotal [] o) || decide (s.khz v o ≠ s.khz [] o)
    || decide (s.vf v (linkPage o) 0x114 1 5 ≠ s.vf [] (linkPage o) 0x114 1 5)

/-- Whether the latched set of an output ends its frame with a gap: it changes the timing or the link (R312). -/
def State.gapNext (s : State) (o : Nat) : Bool :=
  ((s.atOuts o).latched.map fun g => retimes s g.snap o || !s.outOn g.snap o).getD false

/-- The lines of the current frame of an output: its vertical total, and from its front porch on the lines that panel sync
adds or takes away (R304). -/
def State.frameTotal (s : State) (o : Nat) : Nat := ((s.vTotal [] o : Int) + (s.atOuts o).adj).toNat

/-- The beam's line as a frame counts it: below 0 in the frame before it, counted from that frame's total (R280), and in
the gap before a first frame (log entry 33). -/
def State.beamLine (s : State) (o frame : Nat) : Option Int :=
  if s.scanning o then
    if frame = s.frameOf o then some (s.lineOf o)
    else if frame = (s.frameOf o + 1) % 2 ^ 32 ∧ ¬ s.gapNext o then some ((s.lineOf o : Int) - s.frameTotal o)
    else none
  else if (s.atOuts o).gap ∧ frame = (s.frameOf o + 1) % 2 ^ 32 then some (-1)
  else none

/-- Whether the output has come to the line that lies `back` lines before the first line of strip `k` of a frame, and not
to that first line (R280): a line that panel sync has taken away, that a commit has moved, or that lies in the gap before
a first frame counts as come to (DEDUCED, log entry 33). -/
def State.atStripLine (s : State) (o k frame back : Nat) : Bool :=
  match s.beamLine o frame with
  | some l => decide ((16 * k : Int) ≤ l + back) && decide (l < 16 * k)
  | none => false

/-- The device time at which line 0 of the current or the coming frame begins; in a gap, the latest lock of the PLL
(R282, R312; DEDUCED, log entry 33). -/
def State.frameTime (s : State) (o frame : Nat) : Nat :=
  if frame = s.frameOf o then s.t0Of o
  else if (s.atOuts o).gap then s.time.toNat + 500000
  else s.t0Of o + s.linesNs [] o (s.frameTotal o)

/-- The device time at which the line `back` lines before strip `k` of a frame begins (R281, R282). -/
def State.stripTime (s : State) (o k frame back : Nat) : Nat :=
  let t := s.frameTime o frame
  let v := s.frameView o frame
  if back ≤ 16 * k then t + s.linesNs v o (16 * k - back) else t - s.linesNs v o (back - 16 * k)

/-- The layer strip of a slot with a serial changes. -/
def updStrip (slot serial : Nat) (f : StripRec → StripRec) : Act :=
  updLayer slot fun x => { x with strips := x.strips.map fun r => if r.serial = serial then f r else r }

/-- The layer strip of a slot with a serial. -/
def State.stripOf (s : State) (slot serial : Nat) : Option StripRec :=
  (s.atLayers slot).strips.find? fun r => decide (r.serial = serial)

/-- The lane of a video slot (R239). -/
def laneOf (slot : Nat) : Nat := 1024 + slot

end Sys2Proof.Machine
end

