-- ==== Sys2Proof/Machine/Coding.lean ====
section
/-! DEFINITION. The two codings of the stack: reference-frame coding of a billet (R219) and spill coding of a 256-byte
block of 16-bit floating values (R217). -/

namespace Sys2Proof.Machine

/-! ## Reference-frame coding -/

/-- `n` bytes of a byte list from offset `i`, 0 where the list ends. -/
def sliceBytes (bs : List Byte) (i n : Nat) : List Byte :=
  let r := (bs.drop i).take n
  r ++ List.replicate (n - r.length) 0

/-- The samples of a billet: bytes, or the upper ten bits of little-endian words in P010 mode (R219). -/
def refSamples (p010 : Bool) (bs : List Byte) : List Nat :=
  if p010 then (List.range 1024).map fun i => bytesNat (sliceBytes bs (2 * i) 2) / 64
  else (sliceBytes bs 0 2048).map fun b => b.toNat

/-- The bytes of samples: the inverse of `refSamples`. -/
def refBytes (p010 : Bool) (xs : List Nat) : List Byte :=
  if p010 then xs.flatMap fun x => natBytes 2 (64 * x) else xs.map fun x => BitVec.ofNat 8 x

/-- Sample depth of a mode (R219). -/
def refDepth (p010 : Bool) : Nat := if p010 then 10 else 8

/-- Samples of a row of 32 rows (R219). -/
def refRow (p010 : Bool) : Nat := if p010 then 32 else 64

/-- The zigzag residue of a sample against its prediction (R219). -/
def refResidue (bd x pred : Nat) : Nat :=
  let r := (x + 2 ^ bd - pred) % 2 ^ bd
  if r < 2 ^ (bd - 1) then 2 * r else 2 * (2 ^ bd - r) - 1

/-- The sample a residue stands for. -/
def refUnresidue (bd z pred : Nat) : Nat :=
  if z % 2 = 0 then (pred + z / 2) % 2 ^ bd else (pred + 2 ^ bd - (z + 1) / 2) % 2 ^ bd

/-- Residues of samples in raster order: `col` is the column of the next sample, `left` the sample before it in its row
(or the first of the row above at column 0), `first` the first sample of its row. -/
def refResidues (bd row : Nat) : List Nat → Nat → Nat → Nat → List Nat
  | [], _, _, _ => []
  | x :: xs, col, left, first =>
    let f := if col = 0 then x else first
    refResidue bd x left ::
      (if col + 1 = row then refResidues bd row xs 0 f f else refResidues bd row xs (col + 1) x f)

/-- Samples of residues in raster order: the inverse of `refResidues`. -/
def refUnresidues (bd row : Nat) : List Nat → Nat → Nat → Nat → List Nat
  | [], _, _, _ => []
  | z :: zs, col, left, first =>
    let x := refUnresidue bd z left
    let f := if col = 0 then x else first
    x :: (if col + 1 = row then refUnresidues bd row zs 0 f f else refUnresidues bd row zs (col + 1) x f)

/-- Bits needed for a number: 0 for 0. -/
def bitLen (v : Nat) : Nat := if v = 0 then 0 else Nat.log2 v + 1

/-- The groups of 16 residues packed least significant bit first: each a width in 4 bits and 16 values of that width.
The answer is the packed number and its length in bits; `k` bounds the groups. -/
def refPack : Nat → List Nat → Nat × Nat
  | 0, _ => (0, 0)
  | k + 1, zs =>
    if zs.isEmpty then (0, 0) else
    let g := zs.take 16
    let w := g.foldl (fun m z => max m (bitLen z)) 0
    let vals := g.foldr (fun z acc => z + 2 ^ w * acc) 0
    let rest := refPack k (zs.drop 16)
    (w + 16 * vals + 2 ^ (4 + 16 * w) * rest.1, 4 + 16 * w + rest.2)

/-- `n` groups unpacked from a packed number. -/
def refUnpack : Nat → Nat → List Nat
  | 0, _ => []
  | k + 1, v =>
    let w := v % 16
    let body := v / 16
    (List.range 16).map (fun i => body / 2 ^ (w * i) % 2 ^ w) ++ refUnpack k (v / 2 ^ (4 + 16 * w))

/-- A billet's content as it is stored in a reference page: its sectors and its coding-map byte (R219). -/
def refEncode (p010 : Bool) (bs : List Byte) : List Byte × Byte :=
  let raw := (bs, BitVec.ofNat 8 (32 * b2n p010))
  let bad := p010 && (List.range 1024).any fun i => decide (bytesNat (sliceBytes bs (2 * i) 2) % 64 ≠ 0)
  if bad then raw else
  let bd := refDepth p010
  let packed := refPack 128 (refResidues bd (refRow p010) (refSamples p010 bs) 0 (2 ^ (bd - 1)) 0)
  if 31 * 512 < packed.2 then raw
  else
    let sectors := ceilDiv packed.2 512
    (natBytes (64 * sectors) packed.1, BitVec.ofNat 8 (sectors + 32 * b2n p010))

/-- The content of a billet from its stored bytes and its coding-map byte (R219): length 0 is raw. -/
def refDecode (m : Byte) (stored : List Byte) : List Byte :=
  let sectors := m.toNat % 32
  if sectors = 0 then stored else
  let p010 := bit m 5
  let bd := refDepth p010
  let zs := refUnpack (if p010 then 64 else 128) (bytesNat (stored.take (64 * sectors)))
  refBytes p010 (refUnresidues bd (refRow p010) zs 0 (2 ^ (bd - 1)) 0)

/-! ## Spill coding -/

/-- The exponent field width and the fraction width of a 16-bit floating format: binary16, or BF16. -/
def half16 (bf16 : Bool) : Nat × Nat := if bf16 then (8, 7) else (5, 10)

/-- Whether a 16-bit element is a NaN or an infinity. -/
def spillNonFinite (bf16 : Bool) (e : Nat) : Bool :=
  let (ew, fw) := half16 bf16
  decide (e / 2 ^ fw % 2 ^ ew = 2 ^ ew - 1)

/-- The magnitude of a finite 16-bit element in units of 2^-133: exact for both formats, whose smallest subnormals are
2^-24 and 2^-133. -/
def spillMag (bf16 : Bool) (e : Nat) : Nat :=
  let (ew, fw) := half16 bf16
  let ex := e / 2 ^ fw % 2 ^ ew
  let fr := e % 2 ^ fw
  let sig := if ex = 0 then fr else fr + 2 ^ fw
  let pow := if ex = 0 then 1 else ex
  if bf16 then sig * 2 ^ (pow - 1) else sig * 2 ^ (pow - 1 + 109)

/-- `a / 2^k` rounded to nearest, ties to even. -/
def rneShift (a k : Nat) : Nat :=
  let q := a / 2 ^ k
  let r := a % 2 ^ k
  if 2 * r < 2 ^ k then q else if 2 ^ k < 2 * r then q + 1 else q + q % 2

/-- Log2 of the step of a sub-block in units of 2^-133, and its header byte, from the largest finite magnitude: the
exponent is clamped to -126 (R217). -/
def spillScale (m : Nat) : Nat × Nat :=
  if m = 0 then (2, 0) else
  let e := max 7 (Nat.log2 m)
  (e - 5, e - 6)

/-- The 7-bit code of an element under step 2^k (R217). -/
def spillCode (bf16 : Bool) (k : Nat) (e : Nat) : Nat :=
  if spillNonFinite bf16 e then 0x40
  else
    let m := min 63 (rneShift (spillMag bf16 e) k)
    if m = 0 then 0 else m + 64 * (e / 32768 % 2)

/-- The 128 elements of a 256-byte block. -/
def spillElems (bs : List Byte) : List Nat := (List.range 128).map fun i => bytesNat (sliceBytes bs (2 * i) 2)

/-- The coded block of a 256-byte virtual block, and how many non-finite elements it has (R217). -/
def spillEncode (bf16 : Bool) (bs : List Byte) : List Byte × Nat :=
  let es := spillElems bs
  let scales := (List.range 8).map fun s =>
    spillScale (((es.drop (16 * s)).take 16).foldl
      (fun m e => if spillNonFinite bf16 e then m else max m (spillMag bf16 e)) 0)
  let codes := (List.range 128).map fun i => spillCode bf16 (scales.getD (i / 16) (2, 0)).1 (es.getD i 0)
  (scales.map (fun s => BitVec.ofNat 8 s.2) ++ natBytes 112 (codes.foldr (fun c acc => c + 128 * acc) 0)
    ++ List.replicate 8 0, (es.filter (spillNonFinite bf16)).length)

/-- The 16-bit element nearest to a magnitude in units of 2^-133, rounded to nearest, ties to even, overflow to
infinity: a code's value is representable except where it is too small for the format. -/
def spillElem (bf16 : Bool) (neg : Bool) (mag : Nat) : Nat :=
  let (ew, fw) := half16 bf16
  let low := if bf16 then 0 else 109
  let units := rneShift mag low
  let v := if units < 2 ^ fw then units
    else
      let sh := Nat.log2 mag - fw - low
      let q := rneShift mag (low + sh)
      let r := q + sh * 2 ^ fw
      min r ((2 ^ ew - 1) * 2 ^ fw)
  if v = 0 then 0 else v + (if neg then 32768 else 0)

/-- The element a 7-bit code stands for under a header byte (R217): 0x40 is the canonical NaN. -/
def spillDecodeOne (bf16 : Bool) (h c : Nat) : Nat :=
  if c = 0x40 then (if bf16 then 0x7FC0 else 0x7E00)
  else spillElem bf16 (decide (64 ≤ c)) (if h = 0 then 0 else (c % 64) * 2 ^ (h + 1))

/-- The 256-byte virtual block of a coded block (R217). -/
def spillDecode (bf16 : Bool) (cs : List Byte) : List Byte :=
  let body := bytesNat ((cs.drop 8).take 112)
  (List.range 128).flatMap fun i =>
    natBytes 2 (spillDecodeOne bf16 (cs.getD (i / 16) 0).toNat (body / 2 ^ (7 * i) % 128))

end Sys2Proof.Machine
end

