-- ==== Sys2Proof/Machine/Memory.lean ====
section
/-! DEFINITION. The memory system (chapter 10): the physical map, billets and checksums, the write buffers, translation,
and the commands of its own steps. -/

namespace Sys2Proof.Machine

/-! ## The physical map (R205) -/

/-- The end of the data area. -/
def dataTop : Nat := 0x5FC000000

/-- The number of billets of the data area. -/
def billetCount : Nat := 12550144

/-- The end of the coding map. -/
def codingTop : Nat := 0x5FCC00000

/-- The base of the checksum region. -/
def crcBase : Nat := 0x5FD000000

/-- The end of the stack. -/
def stackTop : Nat := 0x600000000

/-- The memory-system page. -/
def memPage : Nat := 0x030

/-- The landing-cache page. -/
def lcPage : Nat := 0x03F

/-- The channel of a billet (R206). -/
def channelOf (b : Nat) : Nat := (b ^^^ (b >>> 4) ^^^ (b >>> 8)) % 16

/-- The canonical form of a memory: addresses strictly rising, and no entry equal to what an unlisted address reads as. -/
def Memory.wf (t : Table Byte) : Bool := tblOk memDefault t

/-- The stored byte at a physical address of the data area. -/
def State.stored (s : State) (a : Nat) : Byte := tblGet memDefault a s.mem

/-- The stored bytes of a billet. -/
def State.billetStored (s : State) (b : Nat) : List Byte := (List.range 2048).map fun i => s.stored (2048 * b + i)

/-- Whether a billet is stored raw: its coding-map byte gives no sectors (R219). -/
def State.rawBillet (s : State) (b : Nat) : Bool := decide ((s.atCodingMap b).toNat % 32 = 0)

/-- The content of a billet in the stack, decoded if its coding-map byte says so (R207, R219). -/
def State.billetContent (s : State) (b : Nat) : List Byte :=
  if s.rawBillet b then s.billetStored b else refDecode (s.atCodingMap b) (s.billetStored b)

/-- A billet in its channel's billet buffer, if it is there (R208). -/
def State.bufHit (s : State) (b : Nat) : Option BufBillet :=
  (s.atBuffered (channelOf b)).find? fun x => decide (x.billet = b)

/-- The content of a billet as a read finds it: the billet buffer's, else the stack's (R208). -/
def State.readContent (s : State) (b : Nat) : List Byte :=
  match s.bufHit b with
  | some x => x.data
  | none => s.billetContent b

/-- The byte a read at a physical address of the data area returns: a held byte if the write buffer holds one (R210),
else the one its billet is read with. -/
def State.content (s : State) (a : Nat) : Byte :=
  let b := a / 2048
  let under := match s.bufHit b with
    | some x => x.data.getD (a % 2048) 0
    | none => if s.rawBillet b then s.stored a else (s.billetContent b).getD (a % 2048) 0
  match s.atHeld b with
  | some h => (tblGet (fun _ => none) (a % 2048) h.bytes).getD under
  | none => under

/-- Whether a read of a billet finds that it checks (R207, R208): the result it was put into the billet buffer with, else
that of its checksum. -/
def State.billetOk (s : State) (b : Nat) : Bool :=
  match s.bufHit b with
  | some x => x.ok
  | none => decide (s.atCrcDiff b = 0)

/-- The stored checksum of a billet (R207). -/
def State.storedCrc (s : State) (b : Nat) : Word := crc32c (s.billetContent b) ^^^ s.atCrcDiff b

/-- A stored byte of the stack changes. -/
def putMem (a : Nat) (v : Byte) : Act := .eff (.mem a v)

/-- Bytes from address `a` on are stored. -/
def putMemList : Nat → List Byte → Act
  | _, [] => .done
  | a, v :: vs => .seq (putMem a v) (putMemList (a + 1) vs)

/-- A buffered billet that has been written holds from then on what the stack holds, so that a read after the write
returns what was written (R208; DEDUCED from R210, log entry 55). -/
def rebuffer (b : Nat) : Act := .look fun s =>
  whenA (s.bufHit b).isSome (.eff (.buffered (channelOf b) ((s.atBuffered (channelOf b)).map fun x =>
    if x.billet = b then ⟨b, s.billetContent b, decide (s.atCrcDiff b = 0)⟩ else x)))

/-- A billet takes new content, coded as its page asks, with its checksum XOR `diff` (R210, R219). -/
def writeBillet (b : Nat) (content : List Byte) (ref : Option Bool) (diff : Word) : Act :=
  .seq (match ref with
    | none => acts [putMemList (2048 * b) content, .eff (.codingMap b 0), .eff (.crcDiff b diff)]
    | some p010 =>
      let coded := refEncode p010 content
      let sectors := coded.2.toNat % 32
      acts [putMemList (2048 * b) coded.1, .eff (.codingMap b coded.2), .eff (.crcDiff b diff),
        if sectors = 0 then bump memPage 0x0A0 1
        else .seq (bump memPage 0x098 1) (bump memPage 0x0A8 (32 - sectors))])
    (rebuffer b)

/-! ## Billets read (R208) -/

/-- The changes a read finds in the stack: corruption since the last read of a billet's bytes (offsets below 2,048), of
its coding-map byte (2,048) or of its checksum (the four after), which the checksum then no longer covers (R208, R219). -/
def upsetBillet (b : Nat) (changes : List (Nat × Byte)) : Act := .look fun s =>
  if changes.isEmpty then .done else
  let old := s.storedCrc b
  acts [forA changes fun c =>
      let i := c.1 % 2053
      if i < 2048 then putMem (2048 * b + i) c.2 else whenA (decide (i = 2048)) (.eff (.codingMap b c.2)),
    .look fun t =>
      let crc := changes.foldl (fun v c => let i := c.1 % 2053
        if i ≤ 2048 then v else putFld v (8 * (i - 2049)) 8 c.2.toNat) old
      .eff (.crcDiff b (crc ^^^ crc32c (t.billetContent b)))]

/-- A billet comes into its channel's billet buffer of 32 with its content and the result of its check; which billet
gives way is a free value (R208, log entry 3). -/
def bufferBillet (b : Nat) : Act := .look fun s =>
  let ch := channelOf b
  let l := s.atBuffered ch
  let x : BufBillet := ⟨b, s.billetContent b, decide (s.atCrcDiff b = 0)⟩
  if l.length < 32 then .eff (.buffered ch (l ++ [x]))
  else withFree fun v => .eff (.buffered ch (l.set (v.toNat % 32) x))

/-- A billet is read whole into the billet buffer, with the corruption it has met, unless the buffer holds it (R208). -/
def fetchBillet (b : Nat) (changes : List (Nat × Byte)) : Act := .look fun s =>
  whenA (s.bufHit b).isNone (acts [upsetBillet b changes, bump memPage 0x040 1, bufferBillet b])

/-! ## Checksum failures (R209) -/

/-- The consumer code of MEM_BAD (R221); a landing-cache fill, a bundle check and a job body have none there and take a
free value (log entry 3). -/
def consumerCode : ClientKind → Option Nat
  | .engine _ | .listFetch _ => some 0
  | .sequencer _ => some 1
  | .display | .floor => some 2
  | .decoder => some 3
  | .track => some 4
  | .walk | .restore => some 5
  | .patrol => some 7
  | _ => none

/-- A failed billet enters the log of the last 32 (R221). -/
def logBad (b consumer : Nat) : Act := .look fun s =>
  let pos := s.rfld memPage 0x280 0 5
  .seq (setRegN memPage (0x200 + 4 * pos) (b + 2 ^ 24 * channelOf b + 2 ^ 29 * (consumer % 8)))
    (setRegN memPage 0x280 ((pos + 1) % 32))

/-- The three things the memory system does at every checksum failure: the log, the counter and event 0x0311, with
cause 0x13 recorded, or 0x10 for a read of a translation table (R209, R223). -/
def checksumFail (b : Nat) (c : StackClient) : Act :=
  let cause := if c.kind = .walk then 0x10 else 0x13
  let report (code : Nat) : Act :=
    acts [logBad b code, bump memPage 0x058 1, pageErr memPage cause, raiseIrq memPage 8,
      pageEvent memPage 0x11 (0x0300 + cause) (natBytes 4 (b + 2 ^ 24 * (code % 8)) ++ natBytes 2 c.func.val)]
  match consumerCode c.kind with
  | some code => report code
  | none => withFree fun x => report (x.toNat % 8)

/-! ## The landing cache's part in a read and a write (R166, R167) -/

/-- Whether a physical range meets the range of a slot. -/
def lcOverlap (l : LcSlot) (a n : Nat) : Bool :=
  decide (a < 2048 * (l.base + l.frames)) && decide (2048 * l.base < a + n)

/-- The clients whose reads may hit (R166). -/
def lcClient : ClientKind → Bool
  | .engine _ | .listFetch _ | .sequencer _ => true
  | _ => false

/-- The slot a read hits: valid, owned by the reader's function, with the whole read in its range (R166). -/
def State.lcHit (s : State) (c : StackClient) (a n : Nat) : Option Nat :=
  if lcClient c.kind then
    (List.range 64).find? fun k =>
      let l := s.atLcSlots k
      l.valid && decide (l.owner = c.func) && decide (2048 * l.base ≤ a)
        && decide (a + n ≤ 2048 * (l.base + l.frames))
  else none

/-- The free and pinned frames and the resident models as SP_LC_FRAMES and SP_LC_RES report them (R172). -/
def State.lcUsed (s : State) : Nat :=
  (List.range 64).foldl (fun m k => let l := s.atLcSlots k; if l.valid || l.filling then m + l.frames else m) 0

/-- Slots `k` of the list whose valid range a write meets: evicted when the write is accepted (R167). -/
def lcEvictWritten (a n : Nat) : List Nat → Act
  | [] => .done
  | k :: ks => .seq (.look fun s =>
      let l := s.atLcSlots k
      whenA (l.valid && lcOverlap l a n)
        (acts [.eff (.lcSlots k {}), bump lcPage 0x068 1,
          pageEvent lcPage 0x13 0 (natBytes 4 k ++ natBytes 4 (a / 2048))]))
      (lcEvictWritten a n ks)

/-- A request whose image a write meets in a billet of one of its pages has seen it. -/
def lcSeen (a n : Nat) (q : LcInstall) : LcInstall :=
  if q.pages.any fun r => decide (a < 2048 * ceilDiv (r.1 + r.2) 2048) && decide (2048 * (r.1 / 2048) < a + n)
  then { q with written := true } else q

/-- Every write to the stack is compared with the ranges of valid slots, of the running fill, and of every bundle from
the start of its check on (R167, R376). -/
def lcWatch (a n : Nat) : Act := .look fun s =>
  acts [lcEvictWritten a n (List.range 64), .eff (.lcFill (s.lcFill.map (lcSeen a n))),
    .eff (.lcWait (s.lcWait.map (lcSeen a n))),
    .eff (.trust { s.trust with check := s.trust.check.map (lcSeen a n) })]

/-! ## Writes (R210) -/

/-- The held bytes laid over a billet's content. -/
def mergeBytes (h : HeldBillet) (under : List Byte) : List Byte :=
  (List.range 2048).map fun i => (tblGet (fun _ => none) i h.bytes).getD (under.getD i 0)

/-- The held billets of a channel. -/
def State.heldOf (s : State) (ch : Nat) : List (Nat × HeldBillet) :=
  s.held.filterMap fun e => match e.2 with
    | some h => if channelOf e.1 = ch then some (e.1, h) else none
    | none => none

/-- The oldest of a list of held billets. -/
def oldestHeld (l : List (Nat × HeldBillet)) : Option Nat :=
  (l.foldl (fun m e => match m with
    | none => some e
    | some x => if e.2.serial < x.2.serial then some e else m) none).map Prod.fst

/-- A merge that has found a checksum failure poisons its billet: logged, counted, and reported (R210). -/
def poisonTold (b : Nat) : Act :=
  acts [logBad b 6, bump memPage 0x058 1, bump memPage 0x060 1, raiseIrq memPage 8, raiseIrq memPage 9,
    pageErr memPage 0x14, pageEvent memPage 0x12 0x0314 (natBytes 4 b)]

/-- The merge of a held billet ends: its entry is freed, and the billet is written whole, or poisoned when the merge
read has found a checksum failure (R210); when a whole-billet write has come meanwhile, that write stands and a failure
is only logged and reported (R220). -/
def finishMerge (b : Nat) : Act := .look fun s =>
  optA (s.atHeld b) fun h =>
    if h.superseded then
      .seq (whenA h.failed (acts [logBad b 6, bump memPage 0x058 1, raiseIrq memPage 8,
          pageEvent memPage 0x11 0x0313 (natBytes 4 (b + 2 ^ 24 * 6) ++ natBytes 2 0)]))
        (.eff (.held b (if h.bytes.isEmpty then none
          else some { h with merging := false, superseded := false, failed := false })))
    else
      let bad := !s.billetOk b || h.failed
      acts [bump memPage 0x048 1, writeBillet b (mergeBytes h (s.readContent b)) h.ref (if bad then 0xFFFFFFFF else 0),
        .eff (.held b none), whenA bad (poisonTold b)]

/-- The merge read of a held billet returns, from the billet buffer or from the stack with the corruption it has met; the
billet is merged and written whole, or poisoned (R208, R210, R220). -/
def mergeHeld (b : Nat) (changes : List (Nat × Byte)) : Act := .look fun s =>
  optA (s.atHeld b) fun h => acts [bump memPage 0x050 1,
    if h.superseded then
      .seq (bump memPage 0x040 1) (.eff (.held b (some { h with failed := h.failed || !changes.isEmpty })))
    else fetchBillet b changes,
    finishMerge b]

/-- A channel whose write buffer has no entry free merges its oldest held billet; `fuel` bounds the merges, since one that
a whole-billet write has superseded may leave its entry held (R210, R220). -/
def makeRoom (ch : Nat) : Nat → Act
  | 0 => .done
  | fuel + 1 => .look fun s => whenA (decide (16 ≤ (s.heldOf ch).length))
      (optA (oldestHeld (s.heldOf ch)) fun b => .seq (mergeHeld b []) (makeRoom ch fuel))

/-- Bytes laid into the entry of a held billet. -/
def layBytes (t : Table (Option Byte)) : Nat → List Byte → Table (Option Byte)
  | _, [] => t
  | i, v :: vs => layBytes (tblSet (fun _ => none) i (some v) t) (i + 1) vs

/-- A write to part of one billet joins its entry or takes a new one. In a channel with 16 entries it is not accepted
before the merge of the oldest billet has freed one; that wait passes within the command, whose requester sees the write
accepted (R210; the form is a DESIGN CHOICE, log entry 55). An entry that comes to hold the whole billet is written at
once. -/
def holdWrite (b off : Nat) (data : List Byte) (ref : Option Bool) : Act :=
  .seq (.look fun s => whenA (s.atHeld b).isNone (makeRoom (channelOf b) 32)) (.look fun s =>
    let h := (s.atHeld b).getD ⟨[], ref, s.heldNext, false, false, false⟩
    let bytes := layBytes h.bytes off data
    if bytes.length = 2048 ∧ ¬ h.merging then
      acts [bump memPage 0x048 1, writeBillet b (mergeBytes { h with bytes := bytes } []) ref 0, .eff (.held b none)]
    else .seq (.eff (.held b (some { h with bytes := bytes, ref := ref }))) (.eff (.heldNext (s.heldNext + 1))))

/-- A write of a whole billet needs no read; a merge of the billet already running is superseded (R210, R220). -/
def wholeWrite (b : Nat) (data : List Byte) (ref : Option Bool) : Act := .look fun s =>
  acts [match s.atHeld b with
      | some h =>
        if h.merging then .eff (.held b (some { h with bytes := [], superseded := true, failed := h.failed || !s.billetOk b }))
        else .eff (.held b none)
      | none => .done,
    bump memPage 0x048 1, writeBillet b data ref 0]

/-- The pieces of a physical range, one for each billet it touches: billet, offset in it, bytes. -/
def billetPieces : Nat → Nat → List Byte → List (Nat × Nat × List Byte)
  | 0, _, _ => []
  | k + 1, a, data =>
    if data.isEmpty then [] else
    let off := a % 2048
    let n := 2048 - off
    (a / 2048, off, data.take n) :: billetPieces k (a + n) (data.drop n)

/-- A write to physical addresses of the data area (R210). -/
def physWrite (a : Nat) (data : List Byte) (ref : Option Bool) : Act :=
  .seq (lcWatch a data.length)
    (forA (billetPieces (data.length / 2048 + 2) a data) fun p =>
      if p.2.2.length = 2048 then wholeWrite p.1 p.2.2 ref else holdWrite p.1 p.2.1 p.2.2 ref)

/-! ## Reads (R208) -/

/-- One billet read for a consumer: a held billet is served from the buffer with its result, any other is read whole and
checked (R208, R209). -/
def touchBillet (c : StackClient) (b : Nat) (changes : List (Nat × Byte)) : Act :=
  .seq (fetchBillet b changes) (.look fun t => whenA (!t.billetOk b) (checksumFail b c))

/-- The billets a physical range touches. -/
def billetsOf (a n : Nat) : List Nat := (List.range ((a + n + 2047) / 2048 - a / 2048)).map fun i => a / 2048 + i

/-- The content of a physical range. -/
def State.contents (s : State) (a n : Nat) : List Byte := (List.range n).map fun i => s.content (a + i)

/-- The part of the range from `a`, of `n` bytes, that lies in each billet of a list, read billet by billet; `k` gets the
bytes and whether every billet checked. -/
def readBillets (c : StackClient) (a n : Nat) (changes : List (Nat × Byte)) (k : List Byte → Bool → Act) :
    List Nat → List Byte → Bool → Act
  | [], acc, ok => k acc ok
  | b :: bs, acc, ok => .seq (touchBillet c b changes) (.look fun t =>
      let lo := max a (2048 * b)
      readBillets c a n changes k bs (acc ++ t.contents lo (min (a + n) (2048 * (b + 1)) - lo)) (ok && t.billetOk b))

/-- The content of a slot's frames that a range touches comes anew from the stack (R166). -/
def refillFrames (slot a n : Nat) : Act := .look fun s =>
  let l := s.atLcSlots slot
  .eff (.lcSlots slot { l with data := (List.range l.frames).flatMap fun i =>
    if (billetsOf a n).contains (l.base + i) then s.contents (2048 * (l.base + i)) 2048 else sliceBytes l.data (2048 * i) 2048 })

/-- A read of a physical range of the data area for a client: served by the landing cache on a hit, its lines of 128
bytes counted, and again from the stack with the frames refilled when a frame has lost parity (R166, R173), else billet
by billet (R208). `k` gets the bytes and whether every billet checked. -/
def physReadU (c : StackClient) (a n : Nat) (changes : List (Nat × Byte)) (parity : Bool)
    (k : List Byte → Bool → Act) : Act := .look fun s =>
  match s.lcHit c a n with
  | some slot =>
    let l := s.atLcSlots slot
    .seq (.eff (.lcSlots slot { l with last := s.time }))
      (if parity then
        .seq (bump lcPage 0x070 1) (readBillets c a n changes (fun bs ok =>
          .seq (whenA ok (refillFrames slot a n)) (k bs ok)) (billetsOf a n) [] true)
      else .seq (bump lcPage 0x040 ((a + n + 127) / 128 - a / 128)) (k (sliceBytes l.data (a - 2048 * l.base) n) true))
  | none =>
    acts [whenA (lcClient c.kind) (bump lcPage 0x048 1),
      whenA (decide (c.kind = .display) || decide (c.kind = .floor)) (bump memPage 0x0B8 n),
      readBillets c a n changes k (billetsOf a n) [] true]

/-- A read of a physical range that meets no new corruption. -/
def physRead (c : StackClient) (a n : Nat) (k : List Byte → Bool → Act) : Act := physReadU c a n [] false k

/-! ## Translation (R213 to R216) -/

/-- How a translation ends. -/
inductive Xlat where
  | ok (pa : Nat) (leaf : Leaf)
  /-- Absent, malformed or a checksum failure on a table: a translation fault. -/
  | fault
  /-- Present, but not permitted. -/
  | denied
  deriving DecidableEq, Repr

/-- The kinds of access (R216). -/
inductive AccessKind where
  | read | write | fetch | add
  deriving DecidableEq, Repr

/-- How a table walk ends: a leaf, absent, malformed, or a table billet that does not check. -/
inductive Walk where
  | leaf (l : Leaf)
  | absent
  | malformed
  | badTable (billet : Nat)
  deriving DecidableEq, Repr

/-- Eight bytes of a table. -/
def State.entry (s : State) (a : Nat) : Nat := bytesNat (s.contents a 8)

/-- Index of an address at a level (R214). -/
def levelIndex (va : Nat) : Nat → Nat
  | 0 => va / 2 ^ 39 % 512
  | 1 => va / 2 ^ 30 % 512
  | 2 => va / 2 ^ 21 % 512
  | _ => va / 2 ^ 16 % 32

/-- The coding a leaf entry names; none for 0b11 and for sfmt on a page that is no spill page (R214). -/
def leafCoding (e : Nat) : Option Coding :=
  let c := e / 32 % 4
  let sf := e / 128 % 2
  if c = 1 then some (.spill (sf = 1))
  else if sf = 1 then none
  else if c = 0 then some .plain
  else if c = 2 then some .reference
  else none

/-- The leaf an entry of level L2 or L3 is, if it is well formed and its page lies in the data area; a spill page lies at
its own alignment and takes half its size (R214, R217). -/
def entryLeaf (f : Func) (asid va e level : Nat) : Option Leaf :=
  let shift := if level = 2 then 21 else 16
  let pa := e / 256 % 2 ^ 27 * 256
  match leafCoding e with
  | none => none
  | some c =>
    let size := match c with | .spill _ => 2 ^ (shift - 1) | _ => 2 ^ shift
    if pa % 2 ^ shift ≠ 0 ∨ dataTop < pa + size then none
    else some ⟨f, asid, va / 2 ^ shift, shift, pa, e / 4 % 2 = 1, e / 8 % 2 = 1, e / 16 % 2 = 1, c⟩

/-- What an entry of a table says (R214): nothing, a malformed entry, a leaf, or a pointer to the next table. -/
inductive TableEntry where
  | absent
  | malformed
  | leaf (l : Leaf)
  | table (pa : Nat)
  deriving DecidableEq, Repr

/-- An entry `e` of a table of level `level`, met on the walk of an address (R214). -/
def entrySays (f : Func) (asid va level e : Nat) : TableEntry :=
  if e % 2 = 0 then .absent
  else if e / 2 ^ 35 ≠ 0 then .malformed
  else if e / 2 % 2 = 1 then
    (if level < 2 then .malformed
     else match entryLeaf f asid va e level with
      | some l => .leaf l
      | none => .malformed)
  else
    let pa := e / 256 % 2 ^ 27 * 256
    if level = 3 ∨ e / 4 % 64 ≠ 0 ∨ (level < 2 ∧ pa % 4096 ≠ 0) ∨ dataTop ≤ pa then .malformed else .table pa

/-- The walk from a table at `table` of level `level`; `k` bounds the levels left (R214). -/
def walkFrom (s : State) (f : Func) (asid va : Nat) : Nat → Nat → Nat → Walk
  | 0, _, _ => .malformed
  | k + 1, level, table =>
    let a := table + 8 * levelIndex va level
    if ¬ s.billetOk (a / 2048) then .badTable (a / 2048) else
    match entrySays f asid va level (s.entry a) with
    | .absent => .absent
    | .malformed => .malformed
    | .leaf l => .leaf l
    | .table pa => walkFrom s f asid va k (level + 1) pa

/-- The root of an address space: valid, and the L0 table (R213, R221). -/
def State.root (s : State) (f : Func) (asid : Nat) : Nat := s.reg64 memPage (0x400 + 8 * (4 * f.val + asid))

/-- The full walk of an address over the tables as they stand (R214). -/
def walk (s : State) (f : Func) (asid va : Nat) : Walk :=
  let r := s.root f asid
  if r % 2 = 0 then .absent
  else if dataTop ≤ r / 4096 * 4096 then .malformed
  else walkFrom s f asid va 4 0 (r / 4096 * 4096)

/-- The translation cache a client uses (R215): its array unit's or pooled engine's, the display's, the decode cluster's
or the track engine's; the others use the shared walker alone. -/
def cacheOf : ClientKind → Option Nat
  | .engine e | .listFetch e => some (if e < 64 then e / 2 else e - 32)
  | .sequencer a => some a
  | .display | .floor | .writeback => some 48
  | .decoder => some 49
  | .track => some 50
  | _ => none

/-- Whether a leaf is that of an address. -/
def leafOf (f : Func) (asid va : Nat) (l : Leaf) : Bool :=
  decide (l.func = f) && decide (l.asid = asid) && decide (l.vpage = va / 2 ^ l.shift)

/-- The leaf of an address that a client's own cache holds, if it does (R215). -/
def State.ownCached (s : State) (c : StackClient) (asid va : Nat) : Option Leaf :=
  (s.tlb.caches.find? fun x => decide (some x.1 = cacheOf c.kind) && leafOf c.func asid va x.2).map Prod.snd

/-- The leaf of an address that the shared walker holds, if it does (R215). -/
def State.walkerLeaf (s : State) (f : Func) (asid va : Nat) : Option Leaf :=
  s.tlb.results.findSome? fun x => match x with
    | .leaf l => if leafOf f asid va l then some l else none
    | .table _ _ _ _ => none

/-- The level-3 table of an address that the shared walker holds, if it does (R215). -/
def State.walkerTable (s : State) (f : Func) (asid va : Nat) : Option Nat :=
  s.tlb.results.findSome? fun x => match x with
    | .leaf _ => none
    | .table g a r pa => if g = f ∧ a = asid ∧ r = va / 2 ^ 21 then some pa else none

/-- The leaf of an address for a client without a walk: from its own cache, else from the walker's results (R215). -/
def State.cached (s : State) (c : StackClient) (asid va : Nat) : Option Leaf :=
  (s.ownCached c asid va).or (s.walkerLeaf c.func asid va)

/-- Whether a client is a stream engine. -/
def isEngine : ClientKind → Bool
  | .engine _ => true
  | _ => false

/-- Whether a leaf permits an access of `n` bytes at `va` by a client (R216). -/
def permitted (l : Leaf) (c : StackClient) (kind : AccessKind) (va n : Nat) : Bool :=
  let spillOk := match l.coding with
    | .spill _ => isEngine c.kind && (match kind with
        | .read => true
        | .write => decide (va % 256 = 0) && decide (n = 256)
        | _ => false)
    | _ => true
  spillOk && (match kind with
    | .read => l.r
    | .write => l.w
    | .fetch => l.x
    | .add => l.r && l.w)

/-- The physical address a leaf gives a virtual one; a spill page's byte at offset o stands at half of o (R217). -/
def leafAddr (l : Leaf) (va : Nat) : Nat :=
  let o := va % 2 ^ l.shift
  match l.coding with
  | .spill _ => l.pa + o / 2
  | _ => l.pa + o

/-- The class a requester's event names (R216, R36). -/
def requesterClass : ClientKind → Nat
  | .engine _ | .listFetch _ => 0x08
  | .sequencer _ => 0x05
  | .display | .floor | .writeback => 0x0B
  | .decoder => 0x04
  | .track => 0x0C
  | .restore | .job => 0x09
  | .fill => 0x07
  | .trust => 0x02
  | .window => 0x0D
  | _ => 0x03

/-- A failed translation: the memory page counts it, raises its bit and writes event 0x0310 to the PF (R216). -/
def reportXlat (c : StackClient) (asid va : Nat) (write : Bool) (code : Nat) : Act :=
  acts [bump memPage 0x070 1, raiseIrq memPage 11,
    pageEvent memPage 0x10 code (natBytes 4 (c.func.val + 32 * asid + 128 * b2n write + 256 * requesterClass c.kind)
      ++ natBytes 6 va ++ natBytes 2 code)]

/-- A leaf enters a client's own cache, of 64 entries, for the oldest one there (R215; the order of replacement is a
DESIGN CHOICE, log entry 18). -/
def cacheOwn (c : StackClient) (l : Leaf) : Act := .look fun s => optA (cacheOf c.kind) fun n =>
  let mine := ((n, l) :: s.tlb.caches.filter fun x => decide (x.1 = n)).take 64
  .eff (.tlb { s.tlb with caches := mine ++ s.tlb.caches.filter fun x => decide (x.1 ≠ n) })

/-- A result enters those the shared walker holds, at most 4,096, for the oldest one (R215, log entry 18). -/
def keepResult (x : WalkRes) : Act := .look fun s =>
  .eff (.tlb { s.tlb with results := (x :: s.tlb.results.filter fun y => decide (y ≠ x)).take 4096 })

/-- The levels of a walk, each reading its table's billet through the billet buffer (R208, R214); `n` bounds them, and the
walker keeps what level 2 and level 3 give (R215). -/
def walkLevels (f : Func) (asid va : Nat) (k : Walk → Act) : Nat → Nat → Nat → Act
  | 0, _, _ => k .malformed
  | n + 1, level, table =>
    let a := table + 8 * levelIndex va level
    .seq (touchBillet ⟨.walk, f⟩ (a / 2048) []) (.look fun s =>
      if ¬ s.billetOk (a / 2048) then k (.badTable (a / 2048)) else
      match entrySays f asid va level (s.entry a) with
      | .absent => k .absent
      | .malformed => k .malformed
      | .leaf l => .seq (keepResult (.leaf l)) (k (.leaf l))
      | .table pa => .seq (whenA (decide (level = 2)) (keepResult (.table f asid (va / 2 ^ 21) pa)))
          (walkLevels f asid va k n (level + 1) pa))

/-- The shared walker finds the leaf of an address: from level 3 where it holds the table, else from the root (R215). -/
def walkFor (f : Func) (asid va : Nat) (k : Walk → Act) : Act := .look fun s =>
  let r := s.root f asid
  match s.walkerTable f asid va with
  | some pa => walkLevels f asid va k 1 3 pa
  | none =>
    if r % 2 = 0 then k .absent
    else if dataTop ≤ r / 4096 * 4096 then k .malformed
    else walkLevels f asid va k 4 0 (r / 4096 * 4096)

/-- A translation of an address for a client, with the walk's counters, errors and events. `code` and `permCode` are the
causes of the client's own class for a fault and for a denied access (R216); `k` gets the result. -/
def translate (c : StackClient) (asid va n : Nat) (kind : AccessKind) (code permCode : Nat) (k : Xlat → Act) : Act :=
  .look fun s =>
  let write := decide (kind = .write) || decide (kind = .add)
  let use (l : Leaf) : Act :=
    if permitted l c kind va n then k (.ok (leafAddr l va) l)
    else .seq (reportXlat c asid va write permCode) (k .denied)
  let fail (a : Act) : Act := acts [a, reportXlat c asid va write code, k .fault]
  match s.ownCached c asid va, s.walkerLeaf c.func asid va with
  | some l, _ => use l
  | none, some l => .seq (cacheOwn c l) (use l)
  | none, none => .seq (bump memPage 0x068 1) (walkFor c.func asid va fun w => match w with
    | .leaf l => .seq (cacheOwn c l) (use l)
    | .absent | .badTable _ => fail .done
    | .malformed => fail (.seq (bump memPage 0x078 1) (pageErr memPage 0x11)))

/-! ## Virtual reads and writes -/

/-- How a read ends for its consumer. -/
inductive ReadEnd where
  | ok (bytes : List Byte)
  | fault
  | denied
  | badSum
  deriving DecidableEq, Repr

/-- A read of bytes within one page that is no spill page, or of one spill page, at a translated address (R217), with the
corruption its billets meet and whether a landing-cache frame has lost parity (R208). -/
def leafRead (c : StackClient) (l : Leaf) (va n : Nat) (changes : List (Nat × Byte)) (parity : Bool) (k : ReadEnd → Act) :
    Act :=
  let finish (bytes : List Byte) (ok : Bool) : Act := k (if ok then .ok bytes else .badSum)
  match l.coding with
  | .spill bf16 =>
    let blocks := (List.range ((va + n + 255) / 256 - va / 256)).map fun i => va / 256 + i
    let start := leafAddr l (256 * (va / 256))
    physReadU c start (128 * blocks.length) changes parity fun bytes ok =>
      finish (sliceBytes ((List.range blocks.length).flatMap fun i => spillDecode bf16 ((bytes.drop (128 * i)).take 128))
        (va % 256) n) ok
  | _ => physReadU c (leafAddr l va) n changes parity finish

/-- A read of `n` bytes at a virtual address, page by page (64 KiB); `acc` holds what the pages before gave. -/
def virtReadFrom (c : StackClient) (asid : Nat) (kind : AccessKind) (code permCode : Nat) (changes : List (Nat × Byte))
    (parity : Bool) (k : ReadEnd → Act) : Nat → Nat → Nat → List Byte → Act
  | 0, _, _, acc => k (.ok acc)
  | fuel + 1, va, n, acc =>
    if n = 0 then k (.ok acc) else
    let m := min n (65536 - va % 65536)
    translate c asid va m kind code permCode fun x => match x with
      | .ok _ l => leafRead c l va m changes parity fun r => match r with
        | .ok bs => virtReadFrom c asid kind code permCode changes parity k fuel (va + m) (n - m) (acc ++ bs)
        | e => k e
      | .fault => k .fault
      | .denied => k .denied

/-- A read of `n` bytes at a device-virtual address, with the corruption its billets meet (R208, R213). -/
def virtReadU (c : StackClient) (asid va n : Nat) (kind : AccessKind) (code permCode : Nat) (changes : List (Nat × Byte))
    (parity : Bool) (k : ReadEnd → Act) : Act :=
  virtReadFrom c asid kind code permCode changes parity k (n / 65536 + 2) va n []

/-- A read of `n` bytes at a device-virtual address that meets no new corruption (R213). -/
def virtRead (c : StackClient) (asid va n : Nat) (kind : AccessKind) (code permCode : Nat) (k : ReadEnd → Act) : Act :=
  virtReadU c asid va n kind code permCode [] false k

/-- How a write ends for its requester. -/
inductive WriteEnd where
  | ok
  | fault
  | denied
  deriving DecidableEq, Repr

/-- The coding of the billets a write to a reference page makes: the mode the billet has, or that the writer names
(R219; which mode a writer other than the decoder leaves is a DESIGN CHOICE, log entry 12). -/
def refMode (s : State) (pa : Nat) (l : Leaf) (p010 : Option Bool) : Option Bool :=
  match l.coding with
  | .reference => some (p010.getD (bit (s.atCodingMap (pa / 2048)) 5))
  | _ => none

/-- A write at a translated address within one page (R210, R217, R219). -/
def leafWrite (l : Leaf) (va : Nat) (data : List Byte) (p010 : Option Bool) : Act := .look fun s =>
  match l.coding with
  | .spill bf16 =>
    let coded := spillEncode bf16 data
    acts [bump memPage 0x088 1, whenA (decide (0 < coded.2)) (bump memPage 0x090 coded.2),
      physWrite (leafAddr l va) coded.1 none]
  | _ => physWrite (leafAddr l va) data (refMode s (leafAddr l va) l p010)

/-- A write of bytes at a virtual address, page by page (64 KiB): a page that fails ends it, and the pages before it
stand. -/
def virtWriteFrom (c : StackClient) (asid : Nat) (code permCode : Nat) (p010 : Option Bool) (k : WriteEnd → Act) :
    Nat → Nat → List Byte → Act
  | 0, _, _ => k .ok
  | fuel + 1, va, data =>
    if data.isEmpty then k .ok else
    let m := min data.length (65536 - va % 65536)
    translate c asid va m .write code permCode fun x => match x with
      | .ok _ l => .seq (leafWrite l va (data.take m) p010)
          (virtWriteFrom c asid code permCode p010 k fuel (va + m) (data.drop m))
      | .fault => k .fault
      | .denied => k .denied

/-- A write of bytes at a device-virtual address (R213). -/
def virtWrite (c : StackClient) (asid va : Nat) (data : List Byte) (code permCode : Nat) (p010 : Option Bool)
    (k : WriteEnd → Act) : Act :=
  virtWriteFrom c asid code permCode p010 k (data.length / 65536 + 2) va data

/-! ## BAR2 (R27, R205) -/

/-- The byte a BAR2 read returns at a physical address: the bytes of the data area, the coding map, 0 in the reserved
range, the checksum region. Of a billet stored coded it returns the stored bytes, and none that the write buffer holds
for it, whose places under the coding are not yet known (DESIGN CHOICE: R27 and R210 do not say how they meet, log entry
53). -/
def State.physByte (s : State) (a : Nat) : Byte :=
  if a < dataTop then (if s.rawBillet (a / 2048) then s.content a else s.stored a)
  else if a < codingTop then (if a - dataTop < billetCount then s.atCodingMap (a - dataTop) else 0)
  else if a < crcBase then 0
  else if (a - crcBase) / 4 < billetCount then byteAt (s.storedCrc ((a - crcBase) / 4)) (a % 4)
  else 0

/-- A BAR2 write to one billet of the data area (R27): whole, or a partial write as any other (R210). On a coded billet a
partial write changes the stored sectors under their coding, after what the write buffer holds for it (DESIGN CHOICE, log
entry 12); a billet that does not check stays poisoned, as by any partial write. -/
def bar2Piece (p : Nat × Nat × List Byte) : Act := .look fun s =>
  if p.2.2.length = 2048 then wholeWrite p.1 p.2.2 none
  else if s.rawBillet p.1 then holdWrite p.1 p.2.1 p.2.2 none
  else acts [mergeHeld p.1 [], fetchBillet p.1 [], bump memPage 0x050 1, .look fun t =>
    let bad := !t.billetOk p.1
    acts [putMemList (2048 * p.1 + p.2.1) p.2.2, .eff (.crcDiff p.1 (if bad then 0xFFFFFFFF else 0)), rebuffer p.1,
      bump memPage 0x048 1, whenA bad (poisonTold p.1)]]

/-- BAR2_READ (R27): the bytes at a device physical offset; the billets of the data area are read whole through their
channels' buffers like any (R208), and not checked; an offset with no memory behind it reads 0 with cause 0x1B. A PF in
D3hot completes no read (R21). -/
def actBar2Read (off len : Nat) : Act := .look fun s =>
  if !s.present 0 then .eff (.out .unsupported)
  else if stackTop < off + len then .seq (.eff (.out (.readData (List.replicate len 0)))) (hostErr 0 0x1B)
  else .seq (forA ((billetsOf off len).filter fun b => decide (2048 * b < dataTop) && decide (len ≠ 0)) fun b => fetchBillet b [])
    (.look fun t => .eff (.out (.readData ((List.range len).map fun i => t.physByte (off + i)))))

/-- BAR2_WRITE (R27, R205): stored in the data area; dropped with memory cause 0x15 in the coding map and the checksum
region, dropped silently in the reserved range, dropped with host-port cause 0x1B where no memory is. A PF in D3hot takes
no write (R21). -/
def actBar2Write (off : Nat) (data : List Byte) : Act := .look fun s =>
  if !s.present 0 then .done
  else if stackTop < off + data.length then hostErr 0 0x1B
  else if off + data.length ≤ dataTop then
    .seq (lcWatch off data.length) (forA (billetPieces (data.length / 2048 + 2) off data) bar2Piece)
  else if codingTop ≤ off ∧ off + data.length ≤ crcBase then .done
  else pageErr memPage 0x15

/-- BAR2_READ. -/
def execBar2Read (off len : Nat) (s : State) : Host.Outcome State Fault Refusal :=
  meaning (.bar2Read off len) (inService (actBar2Read off len)) s

/-- BAR2_WRITE. -/
def execBar2Write (off : Nat) (data : List Byte) (s : State) : Host.Outcome State Fault Refusal :=
  meaning (.bar2Write off data) (inService (actBar2Write off data)) s

/-! ## The memory system's own commands -/

/-- The causes a client's class names for a translation fault and for a denied access (R185, R194, R115, R165, R316,
R331); a class that names none reports cause 0 of its class. -/
def clientCodes : ClientKind → Nat × Nat
  | .engine _ => (0x0818, 0x0819)
  | .listFetch _ => (0x081D, 0x081D)
  | .sequencer _ => (0x053C, 0x053C)
  | .display | .floor => (0x0B22, 0x0B22)
  | .track => (0x0C16, 0x0C16)
  | .fill => (0x0724, 0x0724)
  | k => (256 * requesterClass k, 256 * requesterClass k)

/-- The access of a client: a list fetch, and a sequencer's read of its program, is a fetch (R214, R216). -/
def clientAccess (k : ClientKind) (write : Bool) : AccessKind :=
  if write then .write else match k with
    | .listFetch _ | .sequencer _ => .fetch
    | _ => .read

/-- STACK_READ (R208): a client's read, with its address space or physical, the corruption its billets have met and
whether a landing-cache frame has lost parity; the data goes out to the client, with no data on a failure. -/
def actStackRead (c : StackClient) (asid : Option (Fin 4)) (addr len : Nat) (changes : List (Nat × Byte))
    (parity : Bool) : Act := .look fun s =>
  let deliver (bytes : List Byte) (ok : Bool) : Act := whenA ok (.eff (.out (.readData bytes)))
  if s.zeroing then .done else
  match asid with
  | none => whenA (decide (addr + len ≤ dataTop)) (physReadU c addr len changes parity deliver)
  | some a =>
    let codes := clientCodes c.kind
    virtReadU c a.val addr len (clientAccess c.kind false) codes.1 codes.2 changes parity fun r => match r with
      | .ok bs => deliver bs true
      | _ => .done

/-- STACK_READ. -/
def execStackRead (c : StackClient) (asid : Option (Fin 4)) (addr len : Nat) (changes : List (Nat × Byte)) (parity : Bool) (s : State) : Host.Outcome State Fault Refusal :=
  meaning (.stackRead c asid addr len changes parity) (inService (actStackRead c asid addr len changes parity)) s

/-- STACK_WRITE (R210): a client's write, accepted as a whole-billet write or held as a partial one. -/
def actStackWrite (c : StackClient) (asid : Option (Fin 4)) (addr : Nat) (data : List Byte) : Act := .look fun s =>
  if s.zeroing then .done else
  match asid with
  | none => whenA (decide (addr + data.length ≤ dataTop)) (physWrite addr data none)
  | some a =>
    let codes := clientCodes c.kind
    virtWrite c a.val addr data codes.1 codes.2 none fun _ => .done

/-- STACK_WRITE. -/
def execStackWrite (c : StackClient) (asid : Option (Fin 4)) (addr : Nat) (data : List Byte) (s : State) :
    Host.Outcome State Fault Refusal :=
  meaning (.stackWrite c asid addr data) (inService (actStackWrite c asid addr data)) s

/-- PARTIAL_WRITE_TIMEOUT (R210): the merge read of a held billet starts. -/
def actPartialWriteTimeout (b : Nat) : Act := .look fun s =>
  optA (s.atHeld b) fun h => .eff (.held b (some { h with merging := true }))

/-- PARTIAL_WRITE_TIMEOUT. -/
def execPartialWriteTimeout (b : Nat) (s : State) : Host.Outcome State Fault Refusal :=
  meaning (.partialWriteTimeout b) (inService (actPartialWriteTimeout b)) s

/-- MERGE_READ_DONE: the merge read of a billet that has started returns (R210). -/
def actMergeReadDone (b : Nat) (changes : List (Nat × Byte)) : Act := .look fun s =>
  whenA (((s.atHeld b).map fun h => h.merging).getD false) (mergeHeld b changes)

/-- MERGE_READ_DONE. -/
def execMergeReadDone (b : Nat) (changes : List (Nat × Byte)) (s : State) : Host.Outcome State Fault Refusal :=
  meaning (.mergeReadDone b changes) (inService (actMergeReadDone b changes)) s

/-- PATROL_READ (R212, R220): the next billet is read from the stack and checked (past the billet buffer, whose billets
have been checked already: DEDUCED, log entry 55); a billet held in the write buffer is skipped. -/
def actPatrolRead (changes : List (Nat × Byte)) : Act := .look fun s =>
  let b := s.rfld memPage 0x108 0 24
  whenA (s.rbit memPage 0x104 0 && !s.zeroing)
    (acts [setRegN memPage 0x108 ((b + 1) % billetCount),
      whenA (s.atHeld b).isNone
        (acts [upsetBillet b changes, bump memPage 0x040 1, bump memPage 0x0B0 1,
          .look fun t => whenA (decide (t.atCrcDiff b ≠ 0))
            (acts [logBad b 7, bump memPage 0x058 1, pageErr memPage 0x12, raiseIrq memPage 8,
              pageEvent memPage 0x14 0x0312 (natBytes 4 b)])])])

/-- PATROL_READ. -/
def execPatrolRead (changes : List (Nat × Byte)) (s : State) : Host.Outcome State Fault Refusal :=
  meaning (.patrolRead changes) (inService (actPatrolRead changes)) s

/-- TRANSLATION_WALK_DONE (R215): a walk for a requester returns a leaf, which the caches then hold, or fails; while an
invalidation covers its address the result is not cached (R220). -/
def actWalkDone (c : StackClient) (asid : Fin 4) (va len : Nat) (kind : AccessKind) : Act := .look fun s =>
  let codes := clientCodes c.kind
  let covered := match s.inval with
    | some i => decide (i.func = c.func) && decide (i.asid = asid.val)
        && (i.all || (decide (i.va ≤ va) && decide (va < i.va + 65536 * i.pages)))
    | none => false
  .seq (translate c asid.val va len kind codes.1 codes.2 fun _ => .done)
    (whenA covered (.eff (.tlb s.tlb)))

/-- INVALIDATION_START (R216): the write sets the fields of MEM_INV_CTL; its go is ignored with cause 0x16 while an
invalidation runs. -/
def actInvalidationStart (ctl : Word) : Act := .look fun s =>
  if s.inval.isSome then .seq (setReg memPage 0x118 (ctl &&& 0xFFFFFF04)) (pageErr memPage 0x16)
  else acts [setReg memPage 0x118 (ctl &&& 0xFFFFFF04),
    .eff (.inval (some ⟨Fin.ofNat 32 (fld ctl 8 5), fld ctl 13 2, bit ctl 2,
      s.reg64 memPage 0x110 % 2 ^ 48, fld ctl 15 17 + 1⟩))]

/-- Whether an invalidation drops a cached leaf (R216). -/
def invCovers (i : Inval) (l : Leaf) : Bool :=
  decide (l.func = i.func) && decide (l.asid = i.asid)
    && (i.all || (decide (l.vpage * 2 ^ l.shift < i.va + 65536 * i.pages)
      && decide (i.va < (l.vpage + 1) * 2 ^ l.shift)))

/-- Whether an invalidation drops a result of the walker: a leaf as above, a table if its range meets the span. -/
def invResult (i : Inval) : WalkRes → Bool
  | .leaf l => invCovers i l
  | .table g a r _ => decide (g = i.func) && decide (a = i.asid)
      && (i.all || (decide (r * 2 ^ 21 < i.va + 65536 * i.pages) && decide (i.va < (r + 1) * 2 ^ 21)))

/-- INVALIDATION_DONE (R216): every cache has dropped the span, done is set and event 0x0313 is written. -/
def actInvalidationDone : Act := .look fun s =>
  optA s.inval fun i =>
    acts [.eff (.tlb ⟨s.tlb.caches.filter fun x => !invCovers i x.2,
        s.tlb.results.filter fun x => !invResult i x⟩), .eff (.inval none), setFld memPage 0x118 1 1 1,
      bump memPage 0x080 1, raiseIrq memPage 10,
      pageEvent memPage 0x13 0 (natBytes 4 (i.func.val + 32 * i.asid))]

/-- INVALIDATION_DONE. -/
def execInvalidationDone (s : State) : Host.Outcome State Fault Refusal :=
  meaning .invalidationDone (inService actInvalidationDone) s

/-- TRANSLATION_WALK_DONE. -/
def execTranslationWalkDone (c : StackClient) (asid : Fin 4) (va len : Nat) (write : Bool) (s : State) :
    Host.Outcome State Fault Refusal :=
  meaning (.translationWalkDone c asid va len write)
    (inService (actWalkDone c asid va len (clientAccess c.kind write))) s

/-- STACK_ZEROING_DONE (R211): every billet of the data area holds zeros, with a valid checksum and coding-map byte 0. -/
def actStackZeroingDone : Act := .look fun s =>
  whenA s.zeroing
    (acts [.eff (.memClear 0 dataTop), forA s.codingMap fun e => .eff (.codingMap e.1 0),
      forA s.crcDiff fun e => .eff (.crcDiff e.1 0), .eff (.zeroing false)])

end Sys2Proof.Machine
end

