-- ==== Sys2Proof/Machine/Frames.lean ====
section
/-! DEFINITION. The chain ports' frames and their link layer as what sends a frame uses them (R350 to R359). -/

namespace Sys2Proof.Machine

/-! ## Pages -/

/-- The page of a port. -/
def portPage (p : Nat) : Nat := 0x1C0 + p

/-- The common chain page. -/
def chainPage : Nat := 0x1C2

/-- This device's number (R351). -/
def State.deviceNo (s : State) : Nat := s.rfld chainPage 0x100 0 6

/-- The devices in the chain; 0 acts as 1 (R366). -/
def State.chainCount (s : State) : Nat := max 1 (s.rfld chainPage 0x100 8 7)

/-- The state of a port (R350). -/
def State.portState (s : State) (p : Nat) : Nat := s.rfld (portPage p) 0x100 0 3

/-- A port's link layer changes. -/
def updPort (p : Nat) (f : PortSt → PortSt) : Act := .look fun s => .eff (.ports p (f (s.atPorts p)))

/-! ## Frames (R352) -/

/-- A transport frame's header, without lseq: type, vc, destination, source, length, hops, ttag, window, status,
requester, offset, first and last valid byte. -/
structure Header where
  typ : Nat
  vc : Nat
  dst : Nat
  src : Nat
  len : Nat
  hops : Nat := 0
  ttag : Nat
  window : Nat := 0
  status : Nat := 0
  requester : Nat
  offset : Nat := 0
  first : Nat := 0
  last : Nat := 0
  deriving DecidableEq, Repr

/-- The 28 bytes of a header with link sequence number `lseq` (R352). -/
def headerBytes (h : Header) (lseq : Nat) : List Byte :=
  natBytes 4 (h.typ + 16 * h.vc + 256 * h.dst + 16384 * h.src + 2 ^ 20 * lseq)
    ++ natBytes 4 (h.len + 512 * h.hops + 65536 * h.ttag)
    ++ natBytes 4 (h.window + 256 * h.status + 65536 * h.requester)
    ++ natBytes 4 h.offset ++ natBytes 2 (h.first + 256 * h.last) ++ List.replicate 10 0

/-- A frame before the link layer has given it an lseq and a CRC: header with lseq 0, then payload. -/
def frameBody (h : Header) (payload : List Byte) : List Byte := headerBytes h 0 ++ payload

/-- The header of a received frame (R352). -/
def parseHeader (b : List Byte) : Header :=
  let w (i : Nat) : Nat := bytesNat (sliceBytes b (4 * i) 4)
  { typ := w 0 % 16, vc := w 0 / 16 % 4, dst := w 0 / 256 % 64, src := w 0 / 16384 % 64,
    len := w 1 % 512, hops := w 1 / 512 % 64, ttag := w 1 / 65536,
    window := w 2 % 64, status := w 2 / 256 % 256, requester := w 2 / 65536 % 128,
    offset := w 3, first := w 4 % 256, last := w 4 / 256 % 256 }

/-- The link sequence number of a received frame. -/
def frameSeq (b : List Byte) : Nat := bytesNat (sliceBytes b 0 4) / 2 ^ 20

/-- The payload of a received frame. -/
def framePayload (b : List Byte) : List Byte := (b.drop 28).take (b.length - 32)

/-- Whether a received transport frame's CRC-32C passes (R352). -/
def frameCrcOk (b : List Byte) : Bool :=
  decide (32 ≤ b.length) && decide ((crc32c (b.take (b.length - 4))).toNat = bytesNat (b.drop (b.length - 4)))

/-- Whether a frame is well formed: its reserved bits 0, its type listed, its vc and its payload length the type's (R352,
R353). -/
def frameFormOk (b : List Byte) : Bool :=
  let w (i : Nat) : Nat := bytesNat (sliceBytes b (4 * i) 4)
  let h := parseHeader b
  decide (w 0 / 64 % 4 = 0) && decide (w 1 / 2 ^ 15 % 2 = 0) && decide (w 2 / 64 % 4 = 0) && decide (w 2 / 2 ^ 23 = 0)
    && decide (w 4 / 65536 = 0) && decide (w 5 = 0) && decide (w 6 = 0) && decide (h.len + 32 = b.length)
    && decide (h.len % 64 = 0) && decide (h.len ≤ 256)
    && ((decide (h.typ = 1) && decide (h.vc = 0) && decide (h.len ≠ 0))
      || (decide (h.typ = 2) && decide (h.vc = 1) && decide (h.len = 0))
      || (decide (h.typ = 3) && decide (h.vc = 2))
      || (decide (h.typ = 5) && decide (h.vc = 0) && decide (h.len = 64 ∨ h.len = 256))
      || (decide (h.typ = 6) && decide (h.vc = 2) && decide (h.len = 64)))

/-- The credits a frame of a payload length takes (R354). -/
def frameCredits (len : Nat) : Nat := ceilDiv (len + 32) 64

/-- The frame as it goes out: lseq in its header, CRC-32C at its end (R352, R355). -/
def sealFrame (body : List Byte) (lseq : Nat) : List Byte :=
  let w0 := bytesNat (sliceBytes body 0 4) % 2 ^ 20 + 2 ^ 20 * (lseq % 4096)
  let b := natBytes 4 w0 ++ body.drop 4
  b ++ natBytes 4 (crc32c b).toNat

/-- A link control frame: its word and CRC-32C (R354). -/
def controlFrame (w : Nat) : List Byte := natBytes 4 w ++ natBytes 4 (crc32c (natBytes 4 w)).toNat

/-- A control frame goes out; it takes no credit (R354). -/
def sendControl (p : Fin 2) (w : Nat) : Act := .eff (.out (.frame p (controlFrame w)))

/-- The first bit and width of a vc's credits in CP_CREDIT (R365). -/
def creditLo (vc : Nat) : Nat := 10 * vc

/-- Credits return to the neighbour for a frame that has left the receive buffer (R354). -/
def returnCredit (p : Fin 2) (vc n : Nat) : Act := whenA (decide (0 < n)) (sendControl p (0xA + 16 * vc + 64 * n))

/-- A frame leaves a port: lseq, replay buffer, credits and counters (R354, R355). -/
def emitFrame (p : Fin 2) (f : WaitingFrame) : Act := .look fun s =>
  let st := s.atPorts p.val
  let len := f.bytes.length - 28
  let out := sealFrame f.bytes st.sendSeq
  acts [
    .eff (.out (.frame p out)),
    updPort p.val fun x => { x with sendSeq := (x.sendSeq + 1) % 4096, replay := x.replay ++ [(st.sendSeq, out)] },
    setFld (portPage p.val) 0x104 (creditLo f.vc) 10 (s.rfld (portPage p.val) 0x104 (creditLo f.vc) 10 - frameCredits len),
    bump (portPage p.val) 0x040 1, bump (portPage p.val) 0x050 len,
    optA f.holds fun h => returnCredit (Fin.ofNat 2 h.1) h.2.1 h.2.2]

/-- Whether a frame may leave now: credits, at most 2,048 frames unacknowledged, and room in the 64 KiB replay buffer
(R354, R355). -/
def canEmit (s : State) (p : Nat) (f : WaitingFrame) : Bool :=
  let st := s.atPorts p
  decide (frameCredits (f.bytes.length - 28) ≤ s.rfld (portPage p) 0x104 (creditLo f.vc) 10)
    && decide (st.replay.length < 2048)
    && decide (st.replay.foldl (fun n x => n + x.2.length) 0 + f.bytes.length + 4 ≤ 65536)

/-- The first waiting frame of a virtual channel and an origin, in transit or this device's own, if it may leave. -/
def State.readyFrame (s : State) (p vc : Nat) (transit : Bool) : Option WaitingFrame :=
  ((s.atPorts p).waiting.find? fun f => decide (f.vc = vc) && (f.holds.isSome == transit)).filter fun f => canEmit s p f

/-- The next frame of a virtual channel: where both origins have one ready they take turns, one to one (R359). -/
def State.nextOfVc (s : State) (p vc : Nat) : Option WaitingFrame :=
  let own := s.readyFrame p vc false
  let transit := s.readyFrame p vc true
  if (s.atPorts p).passed.contains vc then own.or transit else transit.or own

/-- The next frame of a port: of virtual channel 2, else of 0 and 1 in rotation (R359). -/
def State.nextFrame (s : State) (p : Nat) : Option WaitingFrame :=
  let last := (s.atPorts p).lastVc
  (s.nextOfVc p 2).or ((s.nextOfVc p (1 - last)).or (s.nextOfVc p last))

/-- A frame has had its turn (R359). -/
def takeTurn (p : Fin 2) (f : WaitingFrame) : Act := updPort p.val fun x => { x with
  waiting := x.waiting.erase f, lastVc := if f.vc < 2 then f.vc else x.lastVc,
  passed := if f.holds.isSome then f.vc :: x.passed.erase f.vc else x.passed.erase f.vc }

/-- The waiting frames of a port leave as far as they may, in the order of R359; `k` bounds them. -/
def drainPort (p : Fin 2) : Nat → Act
  | 0 => .done
  | k + 1 => .look fun s =>
    optA (s.nextFrame p.val) fun f => .seq (takeTurn p f) (.seq (emitFrame p f) (drainPort p k))

/-- A frame is handed to a port: it waits its turn and leaves when it may. A port that is not up takes no transport
frame but a hello (R350, R363). -/
def sendFrame (p : Fin 2) (f : WaitingFrame) : Act := .look fun s =>
  whenA (decide (s.portState p.val = 3) || decide ((parseHeader f.bytes).typ = 6))
    (.seq (updPort p.val fun x => { x with waiting := x.waiting ++ [f] }) (drainPort p ((s.atPorts p.val).waiting.length + 1)))

/-- The route of a device: 0 local, 1 CP0, 2 CP1, 3 unreachable; the own entry acts as local (R356, R366). -/
def State.route (s : State) (d : Nat) : Nat :=
  if d = s.deviceNo then 0 else s.rfld chainPage (0x110 + 4 * (d / 16)) (2 * (d % 16)) 2

/-- A completion goes back to a requester's device (R353). -/
def sendCompletion (h : Header) (status : Nat) (payload : List Byte) : Act := .look fun s =>
  let body := frameBody {
    typ := 3, vc := 2, dst := h.src, src := s.deviceNo, len := payload.length, ttag := h.ttag,
    window := h.window, status := status, requester := h.requester, offset := h.offset, first := h.first, last := h.last }
    payload
  match s.route h.src with
  | 1 => sendFrame 0 ⟨2, body, none⟩
  | 2 => sendFrame 1 ⟨2, body, none⟩
  | _ => .done

/-- The completion of a write that another device has sent, by the header of its frame (R353). -/
def replyTo (reply : Option (List Byte)) (status : Nat) : Act :=
  optA reply fun b => sendCompletion (parseHeader b) status []

end Sys2Proof.Machine
end

