-- ==== Sys2Proof/Machine/Scratch.lean ====
section
/-! DEFINITION. The scratchpads' shared operations (R146 to R161): addresses, handles, reading, writing, scrubbing, the
arrival queue's drops and the banks. -/

namespace Sys2Proof.Machine

/-- The array page, its quantiser page, scratchpad page and handle-table page (R31). -/
def arrPage (a : Nat) : Nat := 0x080 + 4 * a

/-- The quantiser page of an array. -/
def qntPage (a : Nat) : Nat := 0x081 + 4 * a

/-- The scratchpad page of an array. -/
def spPage (a : Nat) : Nat := 0x082 + 4 * a

/-- The handle-table page of an array. -/
def htPage (a : Nat) : Nat := 0x083 + 4 * a

/-- The code of a memory in a handle entry (R149). -/
def memCode : SpMem → Nat
  | .wm => 0
  | .am => 1
  | .pm => 2

/-- The memory a code names; 0b11 names none (R149). -/
def memOf : Nat → Option SpMem
  | 0 => some .wm
  | 1 => some .am
  | 2 => some .pm
  | _ => none

/-- The offset of a byte in an array's scratchpads: each memory has 2 MiB of offsets. -/
def spOff (m : SpMem) (byte : Nat) : Nat := memCode m * 2 ^ 21 + byte

/-- The key of a scratchpad byte in the state. -/
def spKey (a off : Nat) : Nat := a * 2 ^ 23 + off

/-- A byte of an array's scratchpads. -/
def State.spByte (s : State) (a off : Nat) : Byte := tblGet spDefault (spKey a off) s.sp

/-- `n` bytes of an array's scratchpads. -/
def State.spBytes (s : State) (a off n : Nat) : List Byte := (List.range n).map fun i => s.spByte a (off + i)

/-- A byte of an array's scratchpads changes. -/
def putSp (a off : Nat) (v : Byte) : Act := .eff (.sp (spKey a off) v)

/-- Bytes of an array's scratchpads from `off` on change. -/
def putSpList (a : Nat) : Nat → List Byte → Act
  | _, [] => .done
  | off, v :: vs => .seq (putSp a off v) (putSpList a (off + 1) vs)

/-! ## Handles (R149) -/

/-- A handle entry as its 128 bits. -/
def State.handle (s : State) (a h : Nat) : BitVec 128 :=
  BitVec.ofNat 128 (s.reg64 (htPage a) (0x100 + 16 * h) + 2 ^ 64 * s.reg64 (htPage a) (0x108 + 16 * h))

/-- Whether a handle is allocated. -/
def hValid (e : BitVec 128) : Bool := bit e 0

/-- The memory of a handle. -/
def hMem (e : BitVec 128) : SpMem := (memOf (fld e 1 2)).getD .wm

/-- Whether inbound-window writes may land in a handle. -/
def hRmt (e : BitVec 128) : Bool := bit e 3

/-- Whether a handle is not saved. -/
def hTransient (e : BitVec 128) : Bool := bit e 4

/-- The first line of a handle. -/
def hBase (e : BitVec 128) : Nat := fld e 32 14

/-- The lines of a handle. -/
def hLines (e : BitVec 128) : Nat := fld e 48 15

/-- The arrival semaphore of a handle. -/
def hSem (e : BitVec 128) : Nat := fld e 64 12

/-- Whether committed window writes signal the arrival semaphore. -/
def hSemOn (e : BitVec 128) : Bool := bit e 79

/-- The scratchpad offset of byte `i` of a handle. -/
def hOff (e : BitVec 128) (i : Nat) : Nat := spOff (hMem e) (128 * hBase e + i)

/-- The bytes of a handle. -/
def hSize (e : BitVec 128) : Nat := 128 * hLines e

/-- The entries of the handle table, by number. -/
def State.handles (s : State) (a : Nat) : List (Nat × BitVec 128) :=
  (List.range 64).map fun h => (h, s.handle a h)

/-- The valid handles of the table. -/
def State.validHandles (s : State) (a : Nat) : List (Nat × BitVec 128) := (s.handles a).filter fun e => hValid e.2

/-- Live handle bytes: handles with valid = 1 and transient = 0 (R150). -/
def liveBytes (hs : List (Nat × BitVec 128)) : Nat :=
  hs.foldl (fun n e => if hValid e.2 && !hTransient e.2 then n + hSize e.2 else n) 0

/-- The handle table takes an entry (R149). -/
def putHandle (a h : Nat) (e : BitVec 128) : Act :=
  .seq (setReg64 (htPage a) (0x100 + 16 * h) (fld e 0 64)) (setReg64 (htPage a) (0x108 + 16 * h) (fld e 64 64))

/-- The handle table is emptied. -/
def clearHandles (a : Nat) : Act := .eff (.regsReset (regAddr (htPage a) 0x100) (regAddr (htPage a) 0x500))

/-- The must-be-0 fields of a valid entry, and an all-zero invalid one, with `mem` a memory (R149, check 0x10). -/
def handleMbz (e : BitVec 128) : Bool :=
  if hValid e then
    decide (fld e 1 2 ≠ 3) && decide (fld e 5 27 = 0) && decide (fld e 46 2 = 0) && decide (fld e 63 1 = 0)
      && decide (fld e 76 3 = 0) && decide (fld e 80 48 = 0)
  else decide (e = 0)

/-- Two handles of one memory share a line. -/
def handlesMeet (x y : BitVec 128) : Bool :=
  hValid x && hValid y && decide (hMem x = hMem y) && decide (hBase x < hBase y + hLines y)
    && decide (hBase y < hBase x + hLines x)

/-- Whether an entry passes a check of R150 (0 to 4 for causes 0x10 to 0x14). -/
def handlePasses (s : State) (f : Func) (map : List (Nat × BitVec 128)) (check : Nat) (h : Nat) (e : BitVec 128) : Bool :=
  match check with
  | 0 => handleMbz e
  | 1 => !hValid e || (decide (hLines e ≠ 0) && decide (hBase e + hLines e ≤ memLines (hMem e)))
  | 2 => map.all fun x => decide (x.1 = h) || !handlesMeet x.2 e
  | 3 => !hValid e || decide (hMem e ≠ .pm) || (decide (hBase e % 4 = 0) && decide (hLines e % 4 = 0))
  | _ => !hValid e || ((!hRmt e || decide (hMem e ≠ .pm)) && (!hSemOn e || hRmt e)
      && (!hSemOn e || s.semBound (hSem e) f))

/-- The first check of R150 that an entry of a map fails, with the lowest handle that fails it: its cause and the
handle. -/
def mapFailure (s : State) (f : Func) (map : List (Nat × BitVec 128)) : Option (Nat × Nat) :=
  (List.range 5).findSome? fun c =>
    (map.find? fun e => !handlePasses s f map c e.1 e.2).map fun e => (0x10 + c, e.1)

/-! ## Banks (R158) -/

/-- The register and first bit that report a memory's banks out of retention (R169). -/
def bankReg : SpMem → Nat × Nat
  | .wm => (0x104, 0)
  | .am => (0x104, 16)
  | .pm => (0x108, 0)

/-- The lines that `n` bytes from an offset on touch. -/
def linesOf (off n : Nat) : Nat := if n = 0 then 0 else (off + n - 1) / 128 + 1 - off / 128

/-- Lines of a memory are read: counted in the scratchpad page (R170). -/
def countRead (a : Nat) (m : SpMem) (n : Nat) : Act := bump (spPage a) (0x040 + 8 * memCode m) n

/-- The memory an offset of an array's scratchpads lies in. -/
def memAt (off : Nat) : SpMem := (memOf (off / 2 ^ 21)).getD .wm

/-- Whether a bank is out of retention. -/
def State.bankOn (s : State) (a : Nat) (m : SpMem) (b : Nat) : Bool :=
  s.rbit (spPage a) (bankReg m).1 ((bankReg m).2 + b)

/-- A bank leaves or enters retention. The bank-cycles in retention that end are a free count (R170, log entry 48). -/
def setBank (a : Nat) (m : SpMem) (b : Nat) (on : Bool) : Act := .look fun s =>
  .seq (whenA (on && !s.bankOn a m b) (withFree fun x => bump (spPage a) 0x098 x.toNat))
    (setFld (spPage a) (bankReg m).1 ((bankReg m).2 + b) 1 (b2n on))

/-- The banks a handle's lines lie in. -/
def handleBanks (e : BitVec 128) : List (SpMem × Nat) :=
  if hValid e then
    (List.range ((hBase e + hLines e + bankLines (hMem e) - 1) / bankLines (hMem e) - hBase e / bankLines (hMem e))).map
      fun i => (hMem e, hBase e / bankLines (hMem e) + i)
  else []

/-! ## The dump (R160) -/

/-- The first `n` lines of a memory are copied to the stack, billet by billet. -/
def dumpMem (a : Nat) (m : SpMem) (addr n : Nat) : Act := .look fun s =>
  forA (List.range (ceilDiv n 16)) fun i =>
    .seq (physWrite (addr + memCode m * 2 ^ 21 + 2048 * i) (s.spBytes a (spOff m (2048 * i)) (min 2048 (128 * (n - 16 * i)))) none)
      (countRead a m (min 16 (n - 16 * i)))

/-- The first `n` lines of the memories of the dump that runs are copied to the address it was started with: WM at +0, AM
at +2 MiB, PM at +4 MiB (R160). -/
def dumpLines (a n : Nat) : Act := .look fun s => optA (s.atArrays a).dump fun d =>
  let addr := d.1
  let wm := if d.2.testBit 0 then memLines .wm else 0
  let am := if d.2.testBit 1 then memLines .am else 0
  let pm := if d.2.testBit 2 then memLines .pm else 0
  acts [dumpMem a .wm addr (min wm n), dumpMem a .am addr (min am (n - wm)), dumpMem a .pm addr (min pm (n - wm - am))]

/-- A dump that runs ends at its next line: how many lines it has copied by then is a free value (R160, log entry 3). -/
def cutDump (a : Nat) : Act := .look fun s =>
  whenA (s.rbit (spPage a) 0x11C 8)
    (acts [withFree fun x => dumpLines a (x.toNat % 36865), setFld (spPage a) 0x11C 8 1 0,
      .look fun s => .eff (.arrays a { s.atArrays a with dump := none })])

/-! ## Scrubs and arrivals (R151, R156, R159) -/

/-- The page of a window. -/
def winPage (w : Nat) : Nat := 0x200 + w

/-- A window's own state changes. -/
def updWin (w : Nat) (f : WinSt → WinSt) : Act := .look fun s => .eff (.windows w (f (s.atWindows w)))

/-- The lines of handles become zero. -/
def zeroHandles (a : Nat) (hs : List (Nat × BitVec 128)) : Act :=
  forA hs fun e => whenA (hValid e.2) (.eff (.spClear (spKey a (hOff e.2 0)) (spKey a (hOff e.2 0) + hSize e.2)))

/-- All three memories of an array become zero. -/
def zeroArray (a : Nat) : Act := .eff (.spClear (spKey a 0) (spKey (a + 1) 0))

/-- SP_SCRUB shows a scrub running, or none (R169). -/
def setScrub (a kind : Nat) (busy : Bool) : Act := setRegN (spPage a) 0x10C (b2n busy + 2 * kind)

/-- The sequencer of an array changes. -/
def updArr (a : Nat) (f : ArraySt → ArraySt) : Act := .look fun s => .eff (.arrays a (f (s.atArrays a)))

/-- Lines the gather buffer holds are dropped when a byte of them is written (R148). -/
def dropGather (a off n : Nat) : Act := updArr a fun x =>
  { x with gather := x.gather.filter fun l => decide (l < off / 128) || decide ((off + n + 127) / 128 ≤ l) }

/-- The lines an arrival takes of the 32-line queue (R156). -/
def arrivalLines (a : Arrival) : Nat := (a.addr + a.data.length + 127) / 128 - a.addr / 128

/-- The lines of an arrival that have not committed yet. -/
def arrivalOpen (v : Arrival) : List Nat :=
  ((List.range (arrivalLines v)).map fun i => v.addr / 128 + i).filter fun l => !v.landed.contains l

/-- Whether an array's arrival queue has room for an arrival (R156). -/
def arrivalRoom (st : ArraySt) (a : Arrival) : Bool :=
  decide (st.arrivals.foldl (fun n x => n + (arrivalOpen x).length) 0 + arrivalLines a ≤ 32)

/-- The bytes of an arrival that fall in one line commit, all of them at once (R155). -/
def putPiece (a : Nat) (v : Arrival) (l : Nat) : Act :=
  let lo := max v.addr (128 * l)
  let n := min (v.addr + v.data.length) (128 * l + 128) - lo
  acts [putSpList a lo (sliceBytes v.data (lo - v.addr) n), dropGather a lo n, bump (spPage a) 0x058 1]

/-- How many of the queued pieces of each line commit before a read: any number of them in queue order, by a free
choice (R154, R155). `before` are the arrivals ahead of the rest; the answer gives the lines of each arrival. -/
def piecesNow (free : BitVec 64) (all : List Arrival) : List Arrival → List Arrival → List (Arrival × List Nat)
  | _, [] => []
  | before, v :: rest =>
    let count (l : Nat) (q : List Arrival) : Nat := (q.filter fun x => (arrivalOpen x).contains l).length
    (v, (arrivalOpen v).filter fun l =>
      decide (count l before < (Config.unstated 9 [free.toNat, l]).toNat % (count l all + 1)))
      :: piecesNow free all (before ++ [v]) rest

/-- Pieces of waiting arrivals commit line by line before a step or the store engine reads: each piece of a line whole,
in the order of the queue, so that a read may find one line of a write new and the next old, but no line in part (R155).
Which have committed by then is free (log entry 56); the arrival semaphore waits for the whole write (R157). -/
def landPieces (a : Nat) : Act := .look fun s =>
  let q := (s.atArrays a).arrivals
  whenA (!q.isEmpty) (withFree fun x =>
    let l := piecesNow x q [] q
    .seq (updArr a fun y => { y with arrivals := l.map fun e => { e.1 with landed := e.1.landed ++ e.2 } })
      (forA l fun e => forA e.2 fun n => putPiece a e.1 n))

/-- A read of the store engine from an array's scratchpads: pieces of waiting arrivals may commit before it; its lines are
counted, and how often it meets a waiting arrival in one cycle is a free count (R155, R170; log entry 48). -/
def spRead (a off n : Nat) (k : List Byte → Act) : Act := acts [landPieces a, countRead a (memAt off) (linesOf off n),
  .look fun s => .seq (whenA (!(s.atArrays a).arrivals.isEmpty) (withFree fun x => bump (spPage a) 0x070 (fld x 0 32)))
    (k (s.spBytes a off n))]

/-- An arrival commits to its scratchpad: all its granules, and only then its arrival semaphore, if that is still the
owner's (R157, R58). Its completion goes out then (R353, R363; DEDUCED, log entry 42). The cycles it waited for a write
port are a free count (R170, log entry 48). -/
def commitArrival (a : Nat) (v : Arrival) : Act := .look fun s =>
  let n := v.data.length / 64
  let e := s.handle a v.handle
  acts [forA (arrivalOpen v) (putPiece a v), bump (spPage a) 0x078 n,
    withFree fun x => bump (spPage a) 0x088 x.toNat, bump (winPage v.window) 0x048 n,
    updWin v.window fun x => { x with inFlight := x.inFlight - v.data.length }, replyTo v.reply 0,
    whenA (hSemOn e && s.semBound (hSem e) (s.unitAt ⟨.array, a⟩).owner) (semAdd (hSem e) (BitVec.ofNat 32 n))]

/-- Every queued arrival of an array commits: before a save reads or a scrub begins (R168). -/
def commitArrivals (a : Nat) : Act := .look fun s =>
  .seq (updArr a fun x => { x with arrivals := [] }) (forA (s.atArrays a).arrivals fun v => commitArrival a v)

/-- An arrival is dropped: counted at 0x080, its bit raised, and event 0x0711 written at most once per 100 µs for each
array (R156, R174; the places of window and handle in its payload are a DESIGN CHOICE, log entry 11). -/
def dropArrival (a window handle n : Nat) : Act := .look fun s =>
  let st := s.atArrays a
  let due := match st.dropAt with
    | none => true
    | some t => decide (t.toNat + 100000 ≤ s.time.toNat)
  acts [bump (spPage a) 0x080 n, raiseIrq (spPage a) 9,
    if due then
      .seq (updArr a fun x => { x with dropped := 0, dropAt := some s.time })
        (pageEvent (spPage a) 0x11 0 (natBytes 4 (window + 64 * handle) ++ natBytes 4 (st.dropped + n)))
    else updArr a fun x => { x with dropped := x.dropped + n }]

/-- The lines of the valid handles. -/
def handleLines (hs : List (Nat × BitVec 128)) : Nat := (hs.map fun h => if hValid h.2 then hLines h.2 else 0).sum

/-- The queued arrivals of an array are dropped by a scrub and counted; their writers are told that they are refused
(R156, R159). -/
def dropQueued (a : Nat) : Act := .look fun s =>
  let q := (s.atArrays a).arrivals
  .seq (updArr a fun x => { x with arrivals := [] })
    (forA q fun v => .seq (.seq (dropArrival a v.window v.handle 1) (replyTo v.reply 1))
      (.look fun t => .eff (.windows v.window
        { t.atWindows v.window with inFlight := (t.atWindows v.window).inFlight - v.data.length })))

end Sys2Proof.Machine
end

