-- ==== Sys2Proof/Machine/Streams.lean ====
section
/-! DEFINITION. Stream descriptors: their fields, the traversal of a pass, its units and requests, and the checks made
when a descriptor becomes current (R175 to R183). -/

namespace Sys2Proof.Machine

/-! ## Fields (R177) -/

/-- op. -/
def sdOp (d : BitVec 512) : Nat := fld d 0 4
/-- src_kind, or dst_kind for `dst`. -/
def sdKind (d : BitVec 512) (dst : Bool) : Nat := if dst then fld d 7 3 else fld d 4 3
/-- persist. -/
def sdPersist (d : BitVec 512) : Bool := bit d 10
/-- drain. -/
def sdDrain (d : BitVec 512) : Bool := bit d 11
/-- ndims. -/
def sdNdims (d : BitVec 512) : Nat := fld d 12 3
/-- unit_dims. -/
def sdUnitDims (d : BitVec 512) : Nat := fld d 15 3
/-- The largest request in bytes, by req. -/
def sdReq (d : BitVec 512) : Nat := if fld d 18 2 = 0 then 256 else if fld d 18 2 = 1 then 128 else 64
/-- sig_sem. -/
def sdSigSem (d : BitVec 512) : Nat := fld d 20 12
/-- seq. -/
def sdSeq (d : BitVec 512) : Nat := fld d 32 24
/-- tag. -/
def sdTag (d : BitVec 512) : Nat := fld d 56 8
/-- The source base, or the destination base for `dst`. -/
def sdBase (d : BitVec 512) (dst : Bool) : Nat := if dst then fld d 112 48 else fld d 64 48
/-- Count of dimension `j`: bytes for dimension 0. -/
def sdCount (d : BitVec 512) (j : Nat) : Nat :=
  (match j with
   | 0 => fld d 160 16 | 1 => fld d 176 12 | 2 => fld d 192 12 | 3 => fld d 204 12 | _ => fld d 224 12) + 1
/-- take. -/
def sdTake (d : BitVec 512) : Nat := fld d 188 4
/-- add. -/
def sdAdd (d : BitVec 512) : Nat := fld d 216 4
/-- wait_sem. -/
def sdWaitSem (d : BitVec 512) : Nat := fld d 236 12
/-- evt. -/
def sdEvt (d : BitVec 512) : Bool := bit d 248
/-- once. -/
def sdOnce (d : BitVec 512) : Bool := bit d 249
/-- The stride of dimension `j` of a side, in bytes, signed. -/
def sdStride (d : BitVec 512) (dst : Bool) (j : Nat) : Int :=
  signedOf (fld d ((if dst then 384 else 256) + 32 * (j - 1)) 32) 32

/-- Whether the op is one of the adds. -/
def sdIsAdd (d : BitVec 512) : Bool := decide (sdOp d = 2) || decide (sdOp d = 3)

/-- The descriptor with the bases and seq of a re-arm (R187). -/
def sdRearmed (d : BitVec 512) (r : Rearm) : BitVec 512 := putFld (putFld (putFld d 64 48 r.src) 112 48 r.dst) 32 24 r.seq

/-! ## Sides (R178) -/

/-- The handle of a scratchpad side. -/
def sdHandle (base : Nat) : Nat := base / 2 ^ 21 % 64

/-- The window of a window side. -/
def sdWindow (base : Nat) : Nat := base / 2 ^ 32 % 64

/-- The device of a window side. -/
def sdDevice (base : Nat) : Nat := base / 2 ^ 38 % 64

/-- Where a side's addresses start: an offset in the handle or window, or an address. -/
def sdOrigin (kind base : Nat) : Int :=
  if kind = 1 then ((base % 2 ^ 21 : Nat) : Int) else if kind = 3 then ((base % 2 ^ 32 : Nat) : Int) else (base : Int)

/-- An address of a side as its kind holds it. -/
def sdWrap (kind : Nat) (v : Int) : Nat := wrapInt v (if kind = 3 then 32 else 48)

/-- Whether a side is a far side (R182). -/
def farSide (kind : Nat) : Bool := decide (kind ≠ 1)

/-! ## Traversal (R180, R182) -/

/-- Dimensions `j` to `j + n - 1` as counts and strides, innermost first. -/
def sdDims (d : BitVec 512) (j n : Nat) : List (Nat × Int × Int) :=
  (List.range n).map fun i => (sdCount d (j + i), sdStride d false (j + i), sdStride d true (j + i))

/-- The units of a pass. -/
def sdUnits (d : BitVec 512) : Nat :=
  (sdDims d (sdUnitDims d) (sdNdims d - sdUnitDims d)).foldl (fun n x => n * x.1) 1

/-- The offsets of the outer indices of unit `u`. -/
def outerOffset : List (Nat × Int × Int) → Nat → Int × Int
  | [], _ => (0, 0)
  | (c, s, t) :: ds, u =>
    let r := outerOffset ds (u / c)
    ((u % c : Nat) * s + r.1, (u % c : Nat) * t + r.2)

/-- The offsets of a unit's rows in traversal order. -/
def rowOffsets : List (Nat × Int × Int) → List (Int × Int)
  | [] => [(0, 0)]
  | (c, s, t) :: ds => (rowOffsets ds).flatMap fun o =>
      (List.range c).map fun (i : Nat) => (o.1 + (i : Int) * s, o.2 + (i : Int) * t)

/-- Rows that continue one another merge into one run (R182). -/
def mergeRuns : List (Nat × Nat × Nat) → List (Nat × Nat × Nat)
  | [] => []
  | x :: l => match mergeRuns l with
    | [] => [x]
    | y :: m => if x.1 + x.2.2 = y.1 ∧ x.2.1 + x.2.2 = y.2.1 then (x.1, x.2.1, x.2.2 + y.2.2) :: m else x :: y :: m

/-- A run cut where it crosses a block of `req` bytes on a far side (R182); `k` bounds the pieces. -/
def cutRun (req : Nat) (sFar dFar : Bool) : Nat → Nat × Nat × Nat → List (Nat × Nat × Nat)
  | 0, _ => []
  | k + 1, (s, t, n) =>
    if n = 0 then [] else
    let a := if sFar then req - s % req else n
    let b := if dFar then req - t % req else n
    let m := min n (min a b)
    (s, t, m) :: cutRun req sFar dFar k (s + m, t + m, n - m)

/-- The rows of unit `u`: source, destination, bytes. -/
def unitRows (d : BitVec 512) (u : Nat) : List (Nat × Nat × Nat) :=
  let sk := sdKind d false
  let dk := sdKind d true
  let o := outerOffset (sdDims d (sdUnitDims d) (sdNdims d - sdUnitDims d)) u
  (rowOffsets (sdDims d 1 (sdUnitDims d - 1))).map fun r =>
    (sdWrap sk (sdOrigin sk (sdBase d false) + o.1 + r.1), sdWrap dk (sdOrigin dk (sdBase d true) + o.2 + r.2), sdCount d 0)

/-- Runs cut into requests. -/
def cutRuns (d : BitVec 512) (rs : List (Nat × Nat × Nat)) : List (Nat × Nat × Nat) :=
  rs.flatMap fun r => cutRun (sdReq d) (farSide (sdKind d false)) (farSide (sdKind d true)) (2 * (r.2.2 / 64) + 4) r

/-- Whether a request of a descriptor is remote: a side is a window of another device (R183). -/
def sdRemote (dev : Nat) (d : BitVec 512) : Bool :=
  (decide (sdKind d false = 3) && decide (sdDevice (sdBase d false) ≠ dev))
    || (decide (sdKind d true = 3) && decide (sdDevice (sdBase d true) ≠ dev))

/-- The requests of unit `u` of a pass at place `index` of the list (R182). A request counts as a write when its source
is the scratchpad, else as a read (R183; DEDUCED, log entry 26). -/
def unitReqs (dev : Nat) (d : BitVec 512) (index u : Nat) : List EReq :=
  let l := cutRuns d (mergeRuns (unitRows d u))
  (List.range l.length).zip l |>.map fun e => {
    pass := index, unit := u, idx := e.1, src := e.2.1, dst := e.2.2.1, len := e.2.2.2,
    remote := sdRemote dev d, write := decide (sdKind d false = 1) }

/-- The requests that merging saves a unit (R202). -/
def savedByMerging (d : BitVec 512) (u : Nat) : Nat :=
  (cutRuns d (unitRows d u)).length - (cutRuns d (mergeRuns (unitRows d u))).length

/-- A request's place in its pass. -/
def reqOrder (r : EReq) : Nat := r.unit * 2 ^ 32 + r.idx

/-- The least and the greatest byte a pass touches on a side (R179). -/
def sideSpan (d : BitVec 512) (dst : Bool) : Int × Int :=
  let o := sdOrigin (sdKind d dst) (sdBase d dst)
  (sdDims d 1 (sdNdims d - 1)).foldl (fun (r : Int × Int) (x : Nat × Int × Int) =>
    let v : Int := ((x.1 - 1 : Nat) : Int) * (if dst then x.2.2 else x.2.1)
    (r.1 + min 0 v, r.2 + max 0 v)) (o, o + ((sdCount d 0 - 1 : Nat) : Int))

/-! ## An engine's place in the device -/

/-- The page of an engine (R175): 0x100 + 2a, 0x101 + 2a and 0x140 + q lie in one run. -/
def engPage (e : Nat) : Nat := 0x100 + e

/-- The bind unit of an engine. -/
def engUnit (e : Nat) : UnitId := if e < 64 then ⟨.array, e / 2⟩ else ⟨.pooled, e - 64⟩

/-- The function an engine works for. -/
def State.engOwner (s : State) (e : Nat) : Func := (s.unitAt (engUnit e)).owner

/-- The context an engine works for: its array's, or the one that has claimed it. -/
def State.engCtx (s : State) (e : Nat) : Option Nat := if e < 64 then (s.atArrays (e / 2)).ctx else (s.atEngines e).claimed

/-- The passes of an engine, the current one first. -/
def engPasses (st : EngineSt) : List EPass := st.cur.toList ++ st.nxt.toList

/-- The pass an engine issues from: the first that has units to start or requests to issue (R181, R186). -/
def engIssuing (st : EngineSt) : Option EPass :=
  (engPasses st).find? fun p => decide (p.taken < sdUnits p.desc) || !p.todo.isEmpty

/-- The pass whose next unit is to start next, with every request of the units before it issued and at most 16 units in
flight (R181). -/
def engStarting (st : EngineSt) : Option EPass :=
  if (engPasses st).foldl (fun n p => n + (p.taken - p.signalled)) 0 < 16 then
    (engIssuing st).filter fun p => p.started && p.todo.isEmpty
  else none

/-- The pass of a running engine, the current or the next one, whose next unit waits on its take (R181, R200). -/
def State.engTaking (s : State) (e : Nat) : Option EPass :=
  if (s.atEngines e).state = .running then
    (engStarting (s.atEngines e)).filter fun p => decide (sdTake p.desc ≠ 0)
      && !s.semReached (sdWaitSem p.desc) (BitVec.ofNat 32 (sdTake p.desc))
  else none

/-- The state of an engine as PG_STAT and the state record name it (R197, R200): a running engine whose next unit waits
on its take is waiting, one whose descriptor awaits a re-arm is armed. -/
def State.engState (s : State) (e : Nat) : EngState :=
  let st := s.atEngines e
  if st.state = .running then
    if (st.cur.map fun p => p.started) = some false then .armed
    else if (s.engTaking e).isSome then .waiting
    else .running
  else st.state

/-- A share of the engine's split: 0 read, 1 write, 2 remote (R49, R201). -/
def State.share (s : State) (e i : Nat) : Nat := s.rfld (engPage e) 0x110 (4 * i) 4

end Sys2Proof.Machine
end

