-- ==== Sys2Proof/Machine/Contexts.lean ====
section
/-! DEFINITION. What arrays, engines and the scheduler share: stopping engines, ending batch steps, tearing contexts
down, ending entries and jobs, and the ranger's lanes (R113, R117, R196, R246, R251 to R253). -/

namespace Sys2Proof.Machine

/-- The scheduler page. -/
def schedPage : Nat := 0x150

/-- The array unit. -/
def arrUnit (a : Nat) : UnitId := ⟨.array, a⟩

/-- An engine's record changes. -/
def updEng (e : Nat) (f : EngineSt → EngineSt) : Act := .look fun s => .eff (.engines e (f (s.atEngines e)))

/-- A context's record changes. -/
def updCtx (c : Nat) (f : CtxRec → CtxRec) : Act := .look fun s => .eff (.ctxs c (f (s.atCtxs c)))

/-- An entry's record changes. -/
def updEntry (n : Nat) (f : EntryRec → EntryRec) : Act := .look fun s =>
  optA (s.atEntries n) fun e => .eff (.entries n (some (f e)))

/-- The engines a context uses: its array's two, and the pooled engine it has claimed. -/
def ctxEngines (c : CtxRec) : List Nat :=
  [2 * c.array, 2 * c.array + 1] ++ (match c.pool with | some q => [64 + q] | none => [])

/-! ## Fields of a job descriptor (R42) -/

/-- The job's class. -/
def jobClass (d : BitVec 1024) : Nat := fld d 16 2

/-- evt_done. -/
def jobEvt (d : BitVec 1024) : Bool := bit d 24

/-- seq. -/
def jobSeq (d : BitVec 1024) : Nat := fld d 32 24

/-- evt_ring. -/
def jobRing (d : BitVec 1024) : Nat := fld d 56 3

/-- deadline. -/
def jobDeadline (d : BitVec 1024) : Nat := fld d 64 64

/-- not_before. -/
def jobNotBefore (d : BitVec 1024) : Nat := fld d 128 64

/-- epoch. -/
def jobEpoch (d : BitVec 1024) : Nat := fld d 192 16

/-- target. -/
def jobTarget (d : BitVec 1024) : Nat := fld d 208 16

/-- tag. -/
def jobTag (d : BitVec 1024) : Nat := fld d 224 32

/-- The envelope's signal of a function's job is applied (R42), if its semaphore is still the function's (R58; a
withdrawal meanwhile takes the signal away, DEDUCED, log entry 54). -/
def jobSignal (f : Func) (d : BitVec 1024) : Act := .look fun s =>
  whenA (bit d 335 && s.semBound (fld d 320 12) f) (semAdd (fld d 320 12) (BitVec.ofNat 32 (fld d 352 32)))

/-- An event tied to a job goes to its evt_ring (R429). -/
def jobEvent (f : Func) (d : BitVec 1024) (p low code : Nat) (payload : List Byte) : Act := .look fun s =>
  putEvent f (jobRing d) (256 * classOf p + low) (pageInstance p) code (s.pageEpoch p) payload

/-! ## Jobs end -/

/-- A job leaves the list of jobs, with its signal. -/
def endJob (j : Nat) (d : BitVec 1024) : Act := .look fun s =>
  optA (s.atJobs j) fun job => .seq (.eff (.jobs j none)) (jobSignal job.func d)

/-- The entries of a job. -/
def State.entriesOf (s : State) (j : Nat) : List (Nat × EntryRec) :=
  s.entries.filterMap fun e => match e.2 with
    | some r => if r.job = j ∧ r.strip = none then some (e.1, r) else none
    | none => none

/-- The payload of event 0x0910 (R261). -/
def batchPayload (status : Nat) (late : Bool) (rung tag code n : Nat) : List Byte :=
  natBytes 4 (status + 8 * b2n late + 16 * rung) ++ natBytes 4 tag ++ natBytes 2 code ++ natBytes 2 n

/-- The entry whose status a job reports: the highest status (R240; "worst" read as highest, DEDUCED, log entry 20). -/
def worstEntry (l : List (Nat × EntryRec)) : Nat × Nat :=
  l.foldl (fun m e => if m.1 < e.2.status then (e.2.status, e.2.code) else m) (0, 0)

/-- A batch job all of whose entries are done completes: its event, if it asks for one, and its signal (R240). -/
def finishBatch (j : Nat) : Act := .look fun s =>
  match s.atJobs j with
  | none => .done
  | some job =>
    let l := s.entriesOf j
    whenA (l.all fun e => decide (e.2.state = .done))
      (acts [
        whenA (jobEvt job.desc) (jobEvent job.func job.desc schedPage 0x10 0
          (batchPayload (worstEntry l).1 (l.any fun e => e.2.late) (l.foldl (fun m e => max m e.2.rung) 0)
            (jobTag job.desc) (worstEntry l).2 l.length)),
        forA l fun e => .eff (.entries e.1 none),
        endJob j job.desc])

/-! ## Lanes (R252) -/

/-- The unit a lane belongs to (R239). -/
def laneUnit (l : Nat) : UnitId := if l < 1024 then ⟨.stream, l⟩ else ⟨.videoPair, (l - 1024) / 2⟩

/-- Event 0x0914 to the given ring of a lane's owner: the lane, its rung before and after, and whether a raster hand-over
causes it (R261; the function and ring are a DESIGN CHOICE, log entry 20). -/
def laneEvent (l src dst ring : Nat) (handover : Bool) : Act := .look fun s =>
  putEvent (s.unitAt (laneUnit l)).owner ring 0x0914 0 0 0
    (natBytes 4 (l + 4096 * src + 16384 * dst + 65536 * b2n handover))

/-- A lane changes rung: counted in its moves, its bit raised, and where `event` is set event 0x0914 (R252). A rise ends
the streak that earned it, a fall leaves it (R253). `handover` marks a raster hand-over. -/
def moveLane (l dst ring : Nat) (handover event : Bool) : Act := .look fun s =>
  let r := s.atLanes l
  whenA (decide (r.rung ≠ dst))
    (acts [.eff (.lanes l { r with
        rung := dst, streak := if dst < r.rung then 0 else r.streak, moves := satNat 0xFFFF (r.moves + 1) }),
      whenA (decide (dst < r.rung)) (bump schedPage 0x0A0 1),
      raiseIrq schedPage 10,
      whenA event (laneEvent l r.rung dst ring handover)])

/-- The ranger's rule at the completion of a class-0 entry with a deadline and a lane: the streak and the rise (R253). -/
def laneStreak (e : EntryRec) : Act := .look fun s =>
  match e.lane with
  | none => .done
  | some l =>
    let r := s.atLanes l
    if e.cls ≠ 0 ∨ e.deadline = 0 then .done
    else
      let streak := if s.time.toNat + 1000 * s.rfld schedPage 0x114 16 16 ≤ e.deadline then min 255 (r.streak + 1) else 0
      .seq (.eff (.lanes l { r with streak := streak }))
        (whenA (decide (max 1 (s.rfld schedPage 0x110 16 8) ≤ streak) && decide (r.rung = 1) && !r.force)
          (moveLane l 0 e.evtRing false true))

/-- The ranger's rule at the completion of a raster strip: one that completes up_lines lines before its deadline line
adds to the lane's streak, another ends it; the streak raises the lane by a rung it has (R252, R254). -/
def stripStreak (r : StripRef) (ok : Bool) : Act := .look fun s =>
  let l := laneOf r.slot
  let x := s.atLanes l
  let n := if ok then min 255 (x.streak + 1) else 0
  .seq (.eff (.lanes l { x with streak := n }))
    (whenA (ok && decide (max 1 (s.rfld schedPage 0x110 16 8) ≤ n) && decide (x.rung ≠ 0) && !x.force)
      (moveLane l (if x.rung = 2 ∧ x.cop.isSome then 1 else 0) x.ring false true))

/-- A raster step has written its last record: its layer strip is complete, if no other source is fixed for it and the
entry `n` is its step still, not one that another has replaced (R288, R289, R290). -/
def stripDone (n : Nat) (r : StripRef) : Act := .look fun s =>
  optA (s.stripOf r.slot r.serial) fun k =>
    whenA (decide (k.source = 0) && k.done.isNone && decide (k.entry = some n))
      (acts [updStrip r.slot r.serial fun x => { x with done := some s.time },
        bump (stripPage r.out) (if k.rung = 0 then 0x048 else 0x050) 1,
        stripStreak r (decide (s.time.toNat + s.linesNs [] r.out (s.rfld schedPage 0x118 0 8) ≤ k.deadline))])

/-! ## Entries end -/

/-- The estimate of a batch entry (R240). -/
def bodyEst (b : BitVec 512) : Nat := fld b 384 32

/-- The body entry an entry runs: its full or its coppice descriptor (R240). -/
def entryBody (e : EntryRec) : BitVec 512 := if e.usesCop then e.cop.getD 0 else e.body

/-- Whether a body entry has `after` set (R240). -/
def bodyAfter (b : BitVec 512) : Bool := bit b 448

/-- The entry after one that has ended becomes dispatchable if it had to wait for it (R240; an entry that ends in any way
counts as completed, DEDUCED, log entry 35). -/
def releaseNext (e : EntryRec) : Act := .look fun s =>
  whenA (((s.atJobs e.job).map fun j => j.started).getD false)
    (forA ((s.entriesOf e.job).filter fun x => decide (x.2.index = e.index + 1) && decide (x.2.state = .waiting)
        && bodyAfter x.2.body) fun x => updEntry x.1 fun y => { y with state := .queued })

/-- An entry ends: its status and lateness, the report's counts, the lane's streak, and the job when it was the last
(R240, R246, R253, R255). The compute cycles spent are a free value (log entry 3). -/
def endEntry (n status code : Nat) : Act := .look fun s =>
  match s.atEntries n with
  | none => .done
  | some e =>
    let late := decide (e.deadline ≠ 0) && decide (e.deadline < s.time.toNat)
    acts [
      .eff (.entries n (some { e with state := .done, status := status, code := code, late := late, ctx := none })),
      whenA (late && decide (status = 0)) (bump schedPage 0x0B0 1),
      whenA (decide (status = 0)) (withFree fun x => .look fun t =>
        let c := t.atClassCounts e.cls
        .eff (.classCounts e.cls { c with
          done := c.done + 1, late := c.late + b2n late,
          spent := c.spent + (x.extractLsb' 0 32).toNat, est := c.est + bodyEst (entryBody e) })),
      whenA (decide (status = 0)) (laneStreak e),
      if e.strip.isSome then .eff (.entries n none) else .seq (releaseNext e) (finishBatch e.job)]

/-! ## Claims -/

/-- The claims of context `c` are released (R192): those that are still its own, because another context of its job may
have taken one over (R243), and the semaphore's range may have been withdrawn (R427). -/
def releaseClaims (c : Nat) (r : CtxRec) : Act := forA (List.range r.claimN) fun i => .look fun s =>
  whenA (decide (s.semClaim (r.claim + i) = some c)) (setClaim (r.claim + i) none)

/-- The unit of a pooled engine. -/
def poolUnit (q : Nat) : UnitId := ⟨.pooled, q⟩

/-- A pooled engine that context `c` claims is released: it goes back to idle, its orphaned tags stay out (R246). One that
is being withdrawn or is held keeps what it holds until its scrub (R52, R57); one that has been re-bound since is
another's (R58). -/
def releasePool (c : Nat) (r : CtxRec) : Act := optA r.pool fun q => .look fun s =>
  whenA (decide ((s.atEngines (64 + q)).claimed = some c))
    (updEng (64 + q) fun x => if (s.unitAt (poolUnit q)).state = .bound then { orphans := x.orphans }
      else { x with claimed := none })

/-- A context's claims are taken (R192). -/
def takeClaims (ctx first n : Nat) : Act := forA (List.range n) fun i => setClaim (first + i) (some ctx)

/-! ## Engines stop (R194, R197) -/

/-- The first of a halt's faults in issue order: its address and code (R194). -/
def firstFault (l : List (Nat × Nat × Nat × Nat)) : Nat × Nat :=
  ((l.foldl (fun m x => match m with
    | none => some x
    | some y => if x.1 < y.1 ∨ (x.1 = y.1 ∧ x.2.1 < y.2.1) then some x else m) none).map fun x => x.2.2).getD (0, 0)

/-- An engine with no tag outstanding that is being reset is idle, whatever its requests have met meanwhile (R196, R200);
one that has been asked to stop is stopped; one that has met a fault is faulted, with
its first fault recorded and event 0x0811 written to the owner (R194, R197). One that meets it after the stop was asked
keeps the state it had then. -/
def settleEngine (e : Nat) : Act := .look fun s =>
  let st := s.atEngines e
  if ¬ st.reqs.isEmpty then .done
  else if st.resetting then updEng e fun x => { orphans := x.orphans, claimed := x.claimed }
  else if st.halting then
    let f := firstFault st.faults
    let pos := (st.cur.map fun p => p.index).getD 0
    acts [
      updEng e fun x => { x with
        halting := false, state := if x.stopping then .stopped else .faulted },
      setRegN (engPage e) 0x124 f.1, setRegN (engPage e) 0x128 (f.1 / 2 ^ 32 % 65536 + 65536 * f.2),
      recordErr (engPage e) f.2, raiseIrq (engPage e) 8,
      pageEvent (engPage e) 0x11 f.2
        (natBytes 4 (pos + 65536 * ((st.cur.map fun p => fld p.desc 56 8).getD 0)) ++ natBytes 6 f.1 ++ natBytes 2 f.2)]
  else whenA st.stopping (updEng e fun x => { x with state := .stopped })

/-- An engine is asked to stop: it issues nothing more, and is stopped when its last tag has retired (R197). -/
def stopEngine (e : Nat) : Act := .look fun s =>
  let st := s.atEngines e
  .seq (whenA (!st.stopping) (updEng e fun x => { x with
      stopping := true,
      atStop := if (x.state = .running ∨ x.state = .loading) ∧ x.cur.isNone then .idle else s.engState e }))
    (settleEngine e)

/-- An engine's outstanding tags are orphaned: event 0x0814 for each, and the tag stays out of the pool until its data
returns (R53, R251). -/
def orphanTags (e : Nat) : Act := .look fun s =>
  let st := s.atEngines e
  acts [forA st.reqs fun r => .seq (bump (engPage e) 0x0F8 1)
      (pageEvent (engPage e) 0x14 0 (natBytes 4 r.tag ++ natBytes 2 (s.pageEpoch (engPage e)))),
    updEng e fun x => { x with orphans := x.orphans ++ x.reqs.map fun r => r.tag, reqs := [] }, settleEngine e]

/-! ## The ladder of a layer strip (R14, R252, R254, R281, R289) -/

/-- The next rung down that a lane's programs give (R252). -/
def nextRung (l : LaneRec) (rung : Nat) : Nat := if rung = 0 ∧ l.cop.isSome then 1 else 2

/-- When a hand-over takes place: at dispatch, at the deadline line, at the take line. -/
inductive HandAt where
  | dispatch | deadline | take
  deriving DecidableEq, Repr

/-- A layer strip stands at a rung from now on; RL_STAT.rung shows it while the strip is its layer's last (R296). -/
def setRung (slot serial rung : Nat) : Act := .look fun s =>
  .seq (updStrip slot serial fun x => { x with rung := rung })
    (whenA (decide (((s.atLayers slot).strips.getLast?.map fun x => x.serial) = some serial))
      (setFld (vPage slot) (rasterOff slot + 0x24) 0 2 rung))

/-- A hand-over to a rung lowers the lane by one rung, unless it stands as low already or is held; event 0x0914 is
written at most once per frame per lane, with the lane's rung before and after (R252, R254; log entry 20). -/
def lowerLane (slot dst frame : Nat) : Act := .look fun s =>
  let l := s.atLanes (laneOf slot)
  let down := if l.rung < dst ∧ ¬ l.force then nextRung l l.rung else l.rung
  acts [.eff (.lanes (laneOf slot) { l with streak := 0 }), moveLane (laneOf slot) down l.ring true false,
    whenA (decide ((s.atLayers slot).handTold ≠ some frame))
      (.seq (updLayer slot fun x => { x with handTold := some frame })
        (laneEvent (laneOf slot) l.rung down l.ring true))]

/-- A layer strip goes to the floor scaler for lateness: flagged, counted, its lane lowered (R254, R289, R297). -/
def floorStrip (slot serial : Nat) (at_ : HandAt) : Act := .look fun s =>
  optA (s.stripOf slot serial) fun k =>
    acts [setRung slot serial 2, updStrip slot serial fun x => { x with source := 2, entry := none, owed := false },
      bump (stripPage k.out) (if at_ = .dispatch then 0x070 else 0x078) 1, bump schedPage 0x098 1,
      raiseIrq (stripPage k.out) 8, lowerLane slot 2 k.frame]

/-- The standing arrays of a function in service (R14, R293). -/
def State.standingArrays (s : State) (f : Func) : Nat :=
  ((List.range 32).filter fun a => s.boundTo (arrUnit a) f && (s.unitAt (arrUnit a)).standing
    && !(s.unitAt (arrUnit a)).felled).length

/-- The queued raster steps of a function go to the floor scaler as at dispatch when it has no standing array left
(R14). -/
def floorQueued (f : Func) : Act := .look fun s =>
  whenA (decide (s.standingArrays f = 0))
    (forA s.entries fun (e : Nat × Option EntryRec) => optA e.2 fun r => optA r.strip fun k =>
      whenA (decide (r.func = f) && decide (r.state = .queued))
        (.seq (.eff (.entries e.1 none)) (floorStrip k.slot k.serial .dispatch)))

/-- A raster batch step of a layer strip is queued at a rung, with the strip's programs and the re-arms of its persistent
descriptors (R281, R286, R289); with no standing array in service the strip goes to the floor scaler as at dispatch
(R14). -/
def queueStrip (slot serial : Nat) (rung : Nat) (urgent : Bool) : Act := .look fun s =>
  let owner := (s.unitAt (laneUnit (laneOf slot))).owner
  optA (s.stripOf slot serial) fun k =>
    if s.standingArrays owner = 0 then floorStrip slot serial .dispatch
    else acts [.eff (.entries s.entryNext (some {
        job := k.lane.job, func := owner, cls := 1, lane := some (laneOf slot),
        asid := k.lane.asid, deadline := k.deadline, notBefore := k.lane.notBefore, ring := k.lane.jobRing, target := 0xFFFF, index := 0,
        body := k.lane.full.getD 0, cop := k.lane.cop, usesCop := decide (rung = 1), state := .queued, ctx := none,
        status := 0, code := 0, late := false, rung := rung, strip := some ⟨k.out, serial, slot⟩, rearms := k.rearms,
        urgent := urgent, evtRing := k.lane.ring })),
      .eff (.entryNext (s.entryNext + 1)), setRung slot serial rung,
      updStrip slot serial fun x => { x with entry := some s.entryNext, owed := false }]

/-- The coppice step owed to a layer strip enters the raster queue when the context it replaces has stopped (R254,
R289). -/
def enterOwed (c : Nat) : Act := .look fun s =>
  optA ((s.atEntries (s.atCtxs c).entry).bind fun e => e.strip) fun r => optA (s.stripOf r.slot r.serial) fun k =>
    whenA k.owed (queueStrip r.slot r.serial 1 true)

/-! ## Contexts end (R246, R251) -/

/-- A context that is retiring goes on when every engine it uses has retired its tags: its claims and pooled engine are
released; a faulted one is held when its entry or SCHED_CFG asks for it, which takes a standing array out of service
(R14); else the scrub of its handles starts. While the array's unit is re-binding, the scrub is the unit's (R52). -/
def settleRetire (c : Nat) : Act := .look fun s =>
  let r := s.atCtxs c
  if r.state ≠ .retiring ∨ r.scrubbing ∨ (ctxEngines r).any (fun e => !(s.atEngines e).reqs.isEmpty) then .done
  else
    let u := arrUnit r.array
    let ur := s.unitAt u
    let release : Act := acts [releaseClaims c r, releasePool c r, updCtx c fun x => { x with pool := none, claimN := 0 }]
    let hold := r.faulted && (s.rbit schedPage 0x100 1 ||
      ((s.atEntries r.entry).map fun e => bit (entryBody e) 449).getD false)
    if ur.state = .rebinding then release
    else if hold then
      acts [release, updCtx c fun x => { x with state := .held },
        setUnit u { ur with
            state := .held,
            seq := some {
              op := .hold, step := .held, oldOwner := ur.owner, newOwner := ur.owner, hadOwner := true, bound := true,
              hold := true, standing := ur.standing, semClass := ur.semClass } },
        optA (s.atEntries r.entry) fun e =>
          let payload := natBytes 4 (c + 2048 * r.array)
          .seq (putEvent e.func e.evtRing 0x0917 0 0 0 payload)
            (whenA (decide (e.func ≠ 0 ∨ e.evtRing ≠ 0)) (putEvent 0 0 0x0917 0 0 0 payload)),
        whenA ur.standing (floorQueued ur.owner)]
    else acts [release, updCtx c fun x => { x with scrubbing := true }, setScrub r.array 1 true]

/-- A stop is honoured: the counter and the bit of the array page (R113). -/
def stopHonoured (a : Nat) : Act := .seq (bump (arrPage a) 0x080 1) (raiseIrq (arrPage a) 13)

/-- A batch step ends on its array: the context retires (R246), and a stop asked for is satisfied with it (R113,
R120), its phase then stopped. Else the sequencer is idle from here on (DEDUCED from R101, log entry 21). -/
def endBatchStep (a status code : Nat) : Act := .look fun s =>
  match (s.atArrays a).ctx with
  | none => .done
  | some c => acts [
      whenA (s.atArrays a).stop.isSome (stopHonoured a), commitArrivals a,
      updArr a fun x => { x with
        phase := if x.stop.isSome then .stopped else .idle, queue := [], closed := true, flight := [], stop := none },
      raiseIrq (arrPage a) 9,
      whenA (decide (status = 0)) (optA ((s.atEntries (s.atCtxs c).entry).bind fun e => e.strip)
        (stripDone (s.atCtxs c).entry)),
      updCtx c fun x => { x with state := .retiring, endStatus := status, endCode := code },
      forA (ctxEngines (s.atCtxs c)) stopEngine, enterOwed c,
      settleRetire c]

/-- What a page records of an array-class error of a step (R117). -/
def arrayError (a step tag code : Nat) (info1 : Word) : Act :=
  recordErrI (arrPage a) code (BitVec.ofNat 32 (step % 65536 + 65536 * tag)) info1

/-- The context loaded on an array that a fault or a stop can still reach: one that runs or stops (R257). -/
def State.liveCtx (s : State) (a : Nat) : Option Nat :=
  match (s.atArrays a).ctx with
  | none => none
  | some c =>
    let st := (s.atCtxs c).state
    if st = .running ∨ st = .stopping ∨ st = .dispatching then some c else none

/-- What a fault of context `c` does at once (R117): the steps in flight stop without records, `record` puts the error
into the page of its class, page `src`, the fault log gets an entry of scope 1, queued arrivals commit (R168), the array
page records the fault and writes event 0x0511, and the context's engines stop. -/
def failCtx (a c step code src : Nat) (record : Act) : Act := .look fun s => acts [
  commitArrivals a, updArr a fun x => { x with phase := .stopped, queue := [], closed := true, flight := [], stop := none },
  setRegN (arrPage a) 0x120 (step % 65536 + 65536 * code),
  record, flog code 1 (s.atCtxs c).func src 0 c src, bump (arrPage a) 0x078 1, raiseIrq (arrPage a) 11,
  pageEvent (arrPage a) 0x11 code (natBytes 4 (step % 65536 + 65536 * c) ++ natBytes 2 code),
  updCtx c fun x => { x with state := .retiring, faulted := true, endStatus := 2, endCode := code },
  forA (ctxEngines (s.atCtxs c)) stopEngine, enterOwed c]

/-- A fault of the context that runs on an array (R117). -/
def faultCtx (a step code src : Nat) (record : Act) : Act := .look fun s =>
  optA (s.liveCtx a) fun c => failCtx a c step code src record

/-- A context fault, and the teardown that follows it (R117, R251). -/
def ctxFault (a step code src : Nat) (record : Act) : Act := .look fun s =>
  .seq (faultCtx a step code src record) (optA (s.atArrays a).ctx settleRetire)

/-- The context of an array ends without a teardown: its batch step has ended, and its handles are not yet freed (R246).
-/
def endsWhole (r : CtxRec) : Bool :=
  decide (r.state = .retiring) && !r.faulted && decide (r.endStatus ≠ 2) && decide (r.endStatus ≠ 6)

/-- A context that a pre-emption has placed next on an array goes back to its queue (R247, R257). -/
def unreserve (a : Nat) : Act := .look fun s =>
  optA (s.atArrays a).reserved fun c =>
    let r := s.atCtxs c
    .seq (updArr a fun x => { x with reserved := none })
      (whenA (decide (r.state = .dispatching))
        (acts [releaseClaims c r, updEntry r.entry fun e => { e with state := .queued, ctx := none }, .eff (.ctxs c {})]))

/-- A stop is asked of an array's sequencer, for a reason. -/
def askStop (a : Nat) (why : StopWhy) : Act := .look fun s =>
  optA (s.liveCtx a) fun c =>
    .seq (updArr a fun x => { x with stop := some why })
      (updCtx c fun x => { x with state := if x.state = .running then .stopping else x.state })

/-- The context of an array is stopped without save, for a reason, and ends with a status: at the next kerf point if its
steps run, at once if it is being loaded, saved or restored; one already ending ends as it would (R52, R251, R254,
R257). -/
def stopCtx (a status : Nat) (why : StopWhy) : Act := .look fun s =>
  optA (s.atArrays a).ctx fun c =>
    let st := (s.atCtxs c).state
    if st = .retiring ∨ st = .held then .done
    else if (st = .running ∨ st = .stopping) ∧ (s.atArrays a).phase ≠ .stopped then
      .seq (updCtx c fun x => { x with endStatus := status, endCode := 0, lost := false }) (askStop a why)
    else acts [
      commitArrivals a, updArr a fun x => { x with phase := .stopped, stop := none },
      updCtx c fun x => { x with state := .retiring, endStatus := status, endCode := 0 },
      forA (ctxEngines (s.atCtxs c)) stopEngine, enterOwed c, settleRetire c]

/-- The unit of an array stops for a re-binding: a context placed next on it goes back to its queue (R52, R247). -/
def stopUnitCtx (a status : Nat) : Act := .seq (unreserve a) (stopCtx a status .rebind)

/-- A context is freed: its array loses it, its engines are unloaded and its table entry is empty. -/
def freeCtx (c : Nat) : Act := .look fun s =>
  let r := s.atCtxs c
  acts [
    whenA (decide ((s.atArrays r.array).ctx = some c))
      (.seq (updArr r.array fun x => {
          arrivals := x.arrivals, dropped := x.dropped, dropAt := x.dropAt,
          reserved := x.reserved, waking := x.waking })
        (forA [2 * r.array, 2 * r.array + 1] fun e => updEng e fun x => { orphans := x.orphans })),
    .eff (.ctxs c {})]

end Sys2Proof.Machine
end

