-- ==== Sys2Proof/Machine/Flags.lean ====
section
/-! DEFINITION. Numbers and numeric flags (chapter 4): the floating formats, rounding, the arithmetic of the cells and
of the element-wise unit with the flags each operation sets (R75), conversions and the table-interpolated functions. -/

namespace Sys2Proof.Machine

/-! ## Flags (R75) -/

/-- nan_in. -/
def flNan : Nat := 1
/-- invalid. -/
def flInvalid : Nat := 2
/-- overflow. -/
def flOverflow : Nat := 4
/-- underflow. -/
def flUnderflow : Nat := 8
/-- int_sat. -/
def flIntSat : Nat := 16
/-- conv_sat. -/
def flConvSat : Nat := 32

/-- A value with the flags its computation has set. -/
abbrev Flagged (α : Type) := α × Nat

/-- A value goes on into a computation; the flags of both add up. -/
def Flagged.on {α β : Type} (x : Flagged α) (f : α → Flagged β) : Flagged β :=
  let y := f x.1
  (y.1, x.2 ||| y.2)

/-! ## Formats (R61 to R65) -/

/-- Bits of an element of a format code; 0 for a refused code (R61). -/
def fmtBits : Nat → Nat
  | 0 => 4
  | 1 | 2 | 3 => 8
  | 4 | 5 => 16
  | 6 | 7 => 32
  | _ => 0

/-- Whether a code is one of the integer formats. -/
def fmtInt (f : Nat) : Bool := decide (f = 0) || decide (f = 1) || decide (f = 7)

/-- Exponent and fraction widths of a floating format (R64). -/
def ffWidths : Nat → Nat × Nat
  | 2 => (4, 3)
  | 3 => (5, 2)
  | 4 => (8, 7)
  | 5 => (5, 10)
  | _ => (8, 23)

/-- The code of the largest finite value (R64). -/
def ffMax (f : Nat) : Nat :=
  if f = 2 then 0x7E else (2 ^ (ffWidths f).1 - 1) * 2 ^ (ffWidths f).2 - 1

/-- The canonical quiet NaN (R65). -/
def ffNan : Nat → Nat
  | 2 => 0x7F
  | 3 => 0x7F
  | 4 => 0x7FC0
  | 5 => 0x7E00
  | _ => 0x7FC00000

/-- The code of +infinity; E4M3 has none and the code is that of its largest finite value (R64). -/
def ffInf (f : Nat) : Nat := if f = 2 then 0x7E else (2 ^ (ffWidths f).1 - 1) * 2 ^ (ffWidths f).2

/-- The sign bit of a format. -/
def ffSign (f : Nat) : Nat := 2 ^ ((ffWidths f).1 + (ffWidths f).2)

/-- A floating value: a NaN, an infinity, or a sign, a magnitude and a power of two. -/
inductive Fv where
  | nan
  | inf (neg : Bool)
  | fin (neg : Bool) (m : Nat) (e : Int)
  deriving DecidableEq, Repr

/-- The exact value of a floating code (R64). -/
def ffValue (f c : Nat) : Fv :=
  let (ew, fw) := ffWidths f
  let neg := decide (c / ffSign f % 2 = 1)
  let ex := c / 2 ^ fw % 2 ^ ew
  let fr := c % 2 ^ fw
  let low : Int := 2 - 2 ^ (ew - 1) - fw
  if ex = 2 ^ ew - 1 ∧ (f ≠ 2 ∨ fr = 7) then (if f ≠ 2 ∧ fr = 0 then .inf neg else .nan)
  else if ex = 0 then .fin neg fr low
  else .fin neg (fr + 2 ^ fw) (low + (ex - 1 : Nat))

/-- The value of a binary32 code. -/
def f32Value (c : Nat) : Fv := ffValue 6 c

/-- Whether a binary32 code is a NaN. -/
def f32IsNan (c : Nat) : Bool := decide (0x7F800000 < c % 2 ^ 31)

/-- Whether a binary32 code is an infinity. -/
def f32IsInf (c : Nat) : Bool := decide (c % 2 ^ 31 = 0x7F800000)

/-- Whether a binary32 code is negative, -0 included. -/
def f32Neg (c : Nat) : Bool := decide (2 ^ 31 ≤ c)

/-! ## Rounding (R71, R86) -/

/-- `n / d` rounded to a natural number: toward zero, or to nearest with ties to even. -/
def roundDiv (rtz : Bool) (n d : Nat) : Nat :=
  let q := n / d
  let r := n % d
  if rtz then q else if 2 * r < d then q else if d < 2 * r then q + 1 else q + q % 2

/-- Floor of the binary logarithm of `n / d`, both positive. -/
def ratLog (n d : Nat) : Int :=
  let k : Int := (Nat.log2 n : Int) - Nat.log2 d
  let ok := if 0 ≤ k then d * 2 ^ k.toNat ≤ n else d ≤ n * 2 ^ (-k).toNat
  if ok then k else k - 1

/-- `n / d × 2^e` as numerator and denominator. -/
def ratShift (n d : Nat) (e : Int) : Nat × Nat := (n * 2 ^ e.toNat, d * 2 ^ (-e).toNat)

/-- The magnitude `n / d × 2^e` rounded to a format with unbounded exponent: its code without sign, and whether the
rounding was inexact. -/
def roundMag (f : Nat) (rtz : Bool) (n d : Nat) (e : Int) : Nat × Bool :=
  if n = 0 then (0, false) else
  let (ew, fw) := ffWidths f
  let low : Int := 2 - 2 ^ (ew - 1) - fw
  let qe := max low (ratLog n d + e - fw)
  let (a, b) := ratShift n d (e - qe)
  ((qe - low).toNat * 2 ^ fw + roundDiv rtz a b, decide (a % b ≠ 0))

/-- The underflow of R75: an inexact result that is subnormal or zero. -/
def tiny (f : Nat) (r : Nat × Bool) : Nat := if r.2 && decide (r.1 < 2 ^ (ffWidths f).2) then flUnderflow else 0

/-- The sign of a binary32 code. -/
def signBit (neg : Bool) : Nat := if neg then 2 ^ 31 else 0

/-- A binary32 result: the exact value `±n / d × 2^e` rounded by the mode in force (R71). Overflow is judged on the
rounded result: toward zero, an exact value below 2^128 that rounds to the largest finite value sets none (DESIGN
CHOICE, log entry 59; the rule leaves it open). -/
def f32Round (rtz neg : Bool) (n d : Nat) (e : Int) : Flagged Nat :=
  let r := roundMag 6 rtz n d e
  if 0x7F7FFFFF < r.1 then (signBit neg + (if rtz then 0x7F7FFFFF else 0x7F800000), flOverflow)
  else (signBit neg + r.1, tiny 6 r)

/-! ## binary32 arithmetic (R65, R69, R71, R72) -/

/-- The exact sum of two finite values as a signed number over a power of two. -/
def finSum (n1 : Bool) (m1 : Nat) (e1 : Int) (n2 : Bool) (m2 : Nat) (e2 : Int) : Int × Int :=
  let e := min e1 e2
  let a : Int := (m1 * 2 ^ (e1 - e).toNat : Nat)
  let b : Int := (m2 * 2 ^ (e2 - e).toNat : Nat)
  ((if n1 then -a else a) + (if n2 then -b else b), e)

/-- Addition in binary32. An exact zero sum is -0 only for two negative zeros (R65). -/
def f32Add (rtz : Bool) (x y : Nat) : Flagged Nat :=
  match f32Value x, f32Value y with
  | .nan, _ | _, .nan => (0x7FC00000, flNan)
  | .inf a, .inf b => if a = b then (signBit a + 0x7F800000, 0) else (0x7FC00000, flInvalid)
  | .inf a, _ | _, .inf a => (signBit a + 0x7F800000, 0)
  | .fin n1 m1 e1, .fin n2 m2 e2 =>
    let s := finSum n1 m1 e1 n2 m2 e2
    if s.1 = 0 then (signBit (n1 && n2), 0) else f32Round rtz (decide (s.1 < 0)) s.1.natAbs 1 s.2

/-- Multiplication in binary32. -/
def f32Mul (rtz : Bool) (x y : Nat) : Flagged Nat :=
  match f32Value x, f32Value y with
  | .nan, _ | _, .nan => (0x7FC00000, flNan)
  | .inf a, .inf b => (signBit (a != b) + 0x7F800000, 0)
  | .inf a, .fin b m _ | .fin a m _, .inf b =>
    if m = 0 then (0x7FC00000, flInvalid) else (signBit (a != b) + 0x7F800000, 0)
  | .fin n1 m1 e1, .fin n2 m2 e2 => f32Round rtz (n1 != n2) (m1 * m2) 1 (e1 + e2)

/-- Division of a binary32 value by a positive count (R108, R137). -/
def f32DivNat (rtz : Bool) (x d : Nat) : Flagged Nat :=
  match f32Value x with
  | .nan => (0x7FC00000, flNan)
  | .inf a => (signBit a + 0x7F800000, 0)
  | .fin n m e => f32Round rtz n m d e

/-- Division of two binary32 values; a finite value by zero is the infinity of its sign. -/
def f32Div (rtz : Bool) (x y : Nat) : Flagged Nat :=
  match f32Value x, f32Value y with
  | .nan, _ | _, .nan => (0x7FC00000, flNan)
  | .inf _, .inf _ => (0x7FC00000, flInvalid)
  | .inf a, .fin b _ _ => (signBit (a != b) + 0x7F800000, 0)
  | .fin a _ _, .inf b => (signBit (a != b), 0)
  | .fin n1 m1 e1, .fin n2 m2 e2 =>
    if m2 = 0 then (if m1 = 0 then (0x7FC00000, flInvalid) else (signBit (n1 != n2) + 0x7F800000, 0))
    else f32Round rtz (n1 != n2) m1 m2 (e1 - e2)

/-- The rank of a binary32 value that is no NaN: -0 below +0 (R106). -/
def f32Rank (x : Nat) : Int := if f32Neg x then -((x % 2 ^ 31 : Nat) : Int) - 1 else ((x % 2 ^ 31 : Nat) : Int)

/-- The larger of two binary32 values (R106). -/
def f32Max (x y : Nat) : Flagged Nat :=
  if f32IsNan x || f32IsNan y then (0x7FC00000, flNan) else (if f32Rank y ≤ f32Rank x then x else y, 0)

/-- The smaller of two binary32 values (R106). -/
def f32Min (x y : Nat) : Flagged Nat :=
  if f32IsNan x || f32IsNan y then (0x7FC00000, flNan) else (if f32Rank x ≤ f32Rank y then x else y, 0)

/-- An integer in binary32: exact or rounded, with no flag (R66). -/
def f32OfInt (rtz : Bool) (v : Int) : Nat := (f32Round rtz (decide (v < 0)) v.natAbs 1 0).1

/-- A 32-bit word as INT32. -/
def i32 (w : Nat) : Int := signedOf w 32

/-- INT32 addition: saturates at the ends of its range (R70). -/
def i32Sat (v : Int) : Flagged Int :=
  if 0x7FFFFFFF < v then (0x7FFFFFFF, flIntSat) else if v < -0x80000000 then (-0x80000000, flIntSat) else (v, 0)

/-! ## Conversions (R66) -/

/-- A code of a floating format widened to binary32: exact; a NaN operand sets nan_in (R65, R75). -/
def f32Widen (f c : Nat) : Flagged Nat :=
  if f = 6 then (c, 0) else
  match ffValue f c with
  | .nan => (0x7FC00000, flNan)
  | .inf a => (signBit a + 0x7F800000, 0)
  | .fin n m e => f32Round true n m 1 e

/-- A binary32 value converted to a floating format by the mode in force (R66). -/
def ffConvert (f : Nat) (rtz : Bool) (x : Nat) : Flagged Nat :=
  if f = 6 then (if f32IsNan x then 0x7FC00000 else x, 0) else
  let s (neg : Bool) : Nat := if neg then ffSign f else 0
  match f32Value x with
  | .nan => (ffNan f, flNan)
  | .inf a => (s a + ffInf f, if f = 2 then flConvSat else 0)
  | .fin n m e =>
    let r := roundMag f rtz m 1 e
    if ffMax f < r.1 then (s n + ffMax f, flConvSat) else (s n + r.1, tiny f r)

/-- A binary32 value divided by a positive count, rounded once to INT32 by the mode in force (R66, R108). -/
def f32QuotI32 (rtz : Bool) (x d : Nat) : Flagged Int :=
  match f32Value x with
  | .nan => (0, flNan)
  | .inf a => (if a then -0x80000000 else 0x7FFFFFFF, flConvSat)
  | .fin n m e =>
    let (a, b) := ratShift m 1 e
    let q : Int := (roundDiv rtz a (b * d) : Nat)
    let v := if n then -q else q
    if v < -0x80000000 then (-0x80000000, flConvSat) else if 0x7FFFFFFF < v then (0x7FFFFFFF, flConvSat) else (v, 0)

/-- A binary32 value converted to INT32 by the mode in force (R66). -/
def f32ToI32 (rtz : Bool) (x : Nat) : Flagged Int := f32QuotI32 rtz x 1

/-- The exact value of a finite binary32 code as a signed numerator over a power of two; 0 for a NaN or an infinity. -/
def f32Exact (x : Nat) : Int × Int :=
  match f32Value x with
  | .fin n m e => (if n then -(m : Int) else m, e)
  | _ => (0, 0)

/-! ## Table-interpolated functions (R76, R77)

The device's tables are not in the spec; R76 bounds their error and orders their results. The results inside a table are
the free function `Config.tableFn` if it keeps R76 everywhere, and values next to the exact ones if it does not, so that
they range over all the tables that R76 allows (log entry 22). Bounds are held in fixed point with 256 fraction bits. -/

/-- One in fixed point. -/
def fxOne : Nat := 2 ^ 256

/-- A non-negative finite value in fixed point: exact for every binary32 value. -/
def fxOf (m : Nat) (e : Int) : Nat := m * 2 ^ (e + 256).toNat

/-- Taylor terms of the exponential from term `i` on, `k` of them, rounded down. -/
def fxTaylor (x : Nat) : Nat → Nat → Nat → Nat
  | 0, _, _ => 0
  | k + 1, i, term => term + fxTaylor x k (i + 1) (term * x / (fxOne * (i + 1)))

/-- Repeated squaring, rounded down or up. -/
def fxSquare (up : Nat) : Nat → Nat → Nat
  | 0, v => v
  | k + 1, v => fxSquare up k (v * v / fxOne + up)

/-- Lower and upper bounds of e^x, x ≥ 0. -/
def fxExp (x : Nat) : Nat × Nat :=
  let lo := fxTaylor (x / 256) 60 0 fxOne
  (fxSquare 0 8 lo, fxSquare 1 8 (lo + 256))

/-- Bounds of 1 / v from bounds of v. -/
def fxInv (v : Nat × Nat) : Nat × Nat := (fxOne * fxOne / v.2, fxOne * fxOne / v.1 + 1)

/-- Bounds of e^x of a signed x. -/
def fxExpS (neg : Bool) (x : Nat) : Nat × Nat := if neg then fxInv (fxExp x) else fxExp x

/-- The series of the normal distribution function from term `i` on: `term` is x^(2i+1) / (2^i i!). -/
def fxPhiSeries (sq : Nat) : Nat → Nat → Nat → Int
  | 0, _, _ => 0
  | k + 1, i, term =>
    (term / (2 * i + 1) : Nat) - fxPhiSeries sq k (i + 1) (term * sq / (fxOne * (2 * (i + 1))))

/-- 1 / sqrt(2 pi) in fixed point, to 60 decimals. -/
def fxInvSqrt2Pi : Nat := 398942280401432677939946059934381868475858631164934657665925 * fxOne / 10 ^ 60

/-- Bounds of the standard normal distribution function of a signed x with |x| < 10. -/
def fxPhi (neg : Bool) (x : Nat) : Nat × Nat :=
  let v := (fxOne / 2 : Nat) + (fxPhiSeries (x * x / fxOne) 260 0 x) * fxInvSqrt2Pi / fxOne
  let w := if neg then (fxOne : Int) - v else v
  ((w - (2 ^ 100 : Nat)).toNat, (w + (2 ^ 100 : Nat)).toNat)

/-- Integer square root by bits, from bit `k` down. -/
def isqrtBits (v : Nat) : Nat → Nat → Nat
  | 0, acc => acc
  | k + 1, acc => isqrtBits v k (if (acc + 2 ^ k) * (acc + 2 ^ k) ≤ v then acc + 2 ^ k else acc)

/-- The largest natural number whose square is at most `v`. -/
def isqrt (v : Nat) : Nat := isqrtBits v (Nat.log2 v / 2 + 1) 0

/-- A signed fixed-point value as the nearest binary32 code. -/
def fxToF32 (neg : Bool) (v : Nat) : Nat := (f32Round false neg v 1 (-256)).1

/-- Whether a finite binary32 code lies between two signed fixed-point bounds. -/
def fxBetween (r : Nat) (lo hi : Int) : Bool :=
  match f32Value r with
  | .fin n m e => let v : Int := (fxOf m e : Nat); decide (lo ≤ (if n then -v else v)) && decide ((if n then -v else v) ≤ hi)
  | _ => false

/-- What R76 says of the result for an argument: its least and greatest value in fixed point, and a finite code next to
the exact value. -/
structure TableSpan where
  lo : Int
  hi : Int
  near : Nat
  deriving DecidableEq, Repr

/-- A code next to a signed fixed-point value, finite. -/
def fxNear (neg : Bool) (v : Nat) : Nat := let r := fxToF32 neg v; signBit neg + min (r % 2 ^ 31) 0x7F7FFFFF

/-- The results with absolute error `err` (fixed point) about a value between `v.1` and `v.2`. -/
def absSpan (neg : Bool) (v : Nat × Nat) (err : Nat) : TableSpan :=
  ⟨if neg then -((v.2 + err : Nat) : Int) else (v.1 : Int) - err,
    if neg then (err : Int) - v.1 else ((v.2 + err : Nat) : Int), fxNear neg v.1⟩

/-- The results with relative error 2^-k. -/
def relSpan (neg : Bool) (v : Nat × Nat) (k : Nat) : TableSpan :=
  let lo : Int := (v.1 - v.1 / 2 ^ k - 1 : Nat)
  let hi : Int := (v.2 + v.2 / 2 ^ k + 1 : Nat)
  ⟨if neg then -hi else lo, if neg then -lo else hi, fxNear neg v.1⟩

/-- What R76 says of a function, by its code 0x5 to 0xA of R106, for a finite argument inside its table: none where the
limits give the result. tanh is tabled for positive arguments, since it is odd. -/
def tableSpan (code x : Nat) : Option TableSpan :=
  match f32Value x with
  | .fin neg m e =>
    let v := fxOf m e
    if code = 5 then
      (if (¬ neg ∧ 8872 * fxOne < 100 * v) ∨ (neg ∧ 8733 * fxOne < 100 * v) then none else some (relSpan false (fxExpS neg v) 16))
    else if code = 6 then
      (if (¬ neg ∧ 16 * fxOne ≤ v) ∨ (neg ∧ 24 * fxOne ≤ v) then none
       else
        let ex := fxExpS (!neg) v
        some (absSpan false (fxInv (fxOne + ex.1, fxOne + ex.2)) (fxOne / 2 ^ 16)))
    else if code = 7 then
      (if 91 * fxOne ≤ 10 * v ∨ m = 0 ∨ neg then none
       else
        let ex := fxExp (2 * v)
        let s := absSpan false ((ex.1 - fxOne) * fxOne / (ex.1 + fxOne), (ex.2 - fxOne) * fxOne / (ex.2 + fxOne) + 1)
          (fxOne / 2 ^ 16)
        some { s with lo := max 0 s.lo })
    else if code = 8 then
      (if 10 * fxOne ≤ v then none
       else
        let p := fxPhi neg v
        some (absSpan neg (v * p.1 / fxOne, v * p.2 / fxOne + 1) (fxOne / 2 ^ 14 + v / 2 ^ 16)))
    else if code = 9 then
      (if m = 0 ∨ 2 ^ 126 * fxOne < v ∨ v < fxOne / 2 ^ 128 then none else some (relSpan neg (fxInv (v, v)) 15))
    else
      (if m = 0 ∨ neg then none
       else
        let root := isqrt (fxOne * fxOne * fxOne / v)
        some (relSpan false (root, root + 1) 15))
  | _ => none

/-- The value of a binary32 code that is no NaN, for comparison: -0 equals +0. -/
def f32Key (x : Nat) : Int := if f32Neg x then -((x % 2 ^ 31 : Nat) : Int) else ((x % 2 ^ 31 : Nat) : Int)

/-- Whether the free table keeps R76 at a pair of arguments: within its error at both, exp, sigmoid and tanh not
decreasing, reciprocal and rsqrt not increasing on each sign. Between an argument inside the table and one beyond a limit
no order is asked (DESIGN CHOICE, log entry 22; the rule leaves it open). -/
def tablePair (code x y : Nat) : Bool :=
  let rx := (Config.tableFn code x).toNat
  let ry := (Config.tableFn code y).toNat
  match tableSpan code x, tableSpan code y with
  | some a, some b =>
    fxBetween rx a.lo a.hi && fxBetween ry b.lo b.hi
      && (decide (f32Key y < f32Key x)
        || (if code ≤ 7 then decide (f32Key rx ≤ f32Key ry)
            else decide (code = 8) || (f32Neg x != f32Neg y) || decide (f32Key ry ≤ f32Key rx)))
  | _, _ => true

/-- The free table of a function is one that R76 allows: it keeps the rule at every pair of arguments. -/
@[irreducible] def tableLegal (code : Nat) : Bool :=
  (List.range (2 ^ 32)).all fun x => (List.range (2 ^ 32)).all fun y => tablePair code x y

/-- The result inside a function's table: the free table's, if R76 allows that table, else the value next to the exact
one. -/
def tableAt (code x : Nat) : Nat :=
  if tableLegal code then (Config.tableFn code x).toNat else ((tableSpan code x).map fun t => t.near).getD 0

/-- A result that is zero although the exact value is not sets underflow (R75). -/
def zeroFlag (r : Nat) : Flagged Nat := (r, if r % 2 ^ 31 = 0 then flUnderflow else 0)

/-- The six functions by their codes 0x5 to 0xA of R106, of a binary32 argument (R76, R77). -/
def tableFn (code x : Nat) : Flagged Nat :=
  match f32Value x with
  | .nan => (0x7FC00000, flNan)
  | .inf neg =>
    if code = 5 then (if neg then 0 else 0x7F800000, 0)
    else if code = 6 then (if neg then 0 else 0x3F800000, 0)
    else if code = 7 then (signBit neg + 0x3F800000, 0)
    else if code = 8 then (if neg then 0x80000000 else 0x7F800000, 0)
    else if code = 9 then (signBit neg, 0)
    else if neg then (0x7FC00000, flInvalid) else (0, 0)
  | .fin neg m e =>
    let v := fxOf m e
    if code = 5 then
      (if ¬ neg ∧ 8872 * fxOne < 100 * v then (0x7F800000, flOverflow)
       else if neg ∧ 8733 * fxOne < 100 * v then (0, flUnderflow)
       else zeroFlag (tableAt code x))
    else if code = 6 then
      (if ¬ neg ∧ 16 * fxOne ≤ v then (0x3F800000, 0)
       else if neg ∧ 24 * fxOne ≤ v then (0, flUnderflow)
       else zeroFlag (tableAt code x))
    else if code = 7 then
      (if 91 * fxOne ≤ 10 * v then (signBit neg + 0x3F800000, 0)
       else if m = 0 then (x, 0)
       else
        let r := zeroFlag (tableAt code (x % 2 ^ 31))
        (signBit neg + r.1 % 2 ^ 31, r.2))
    else if code = 8 then
      (if ¬ neg ∧ 10 * fxOne ≤ v then (x, 0)
       else if neg ∧ 10 * fxOne ≤ v then (0x80000000, flUnderflow)
       else if m = 0 then (tableAt code x, 0) else zeroFlag (tableAt code x))
    else if code = 9 then
      (if m = 0 then (signBit neg + 0x7F800000, 0)
       else if 2 ^ 126 * fxOne < v then (signBit neg, flUnderflow)
       else if v < fxOne / 2 ^ 128 then (signBit neg + 0x7F800000, flOverflow)
       else zeroFlag (tableAt code x))
    else
      (if m = 0 then (signBit neg + 0x7F800000, 0)
       else if neg then (0x7FC00000, flInvalid)
       else (tableAt code x, 0))

end Sys2Proof.Machine
end

