-- ==== Sys2Proof/Machine/Operands.lean ====
section
/-! DEFINITION. Every operand form of a tile step: the descriptor's fields (R103), quantiser profiles (R78, R97), the
regions a step reads and writes (R104, R153, R428), the geometry record (R125), the bound (R111, R135, R138) and
validation (R110, R134). -/

namespace Sys2Proof.Machine

/-! ## Fields of a tile-step descriptor (R103) -/

/-- op. -/
def tsOp (d : BitVec 512) : Nat := fld d 0 4
/-- sub. -/
def tsSub (d : BitVec 512) : Nat := fld d 4 4
/-- round: toward zero. -/
def tsRtz (d : BitVec 512) : Bool := bit d 8
/-- last. -/
def tsLast (d : BitVec 512) : Bool := bit d 9
/-- cmpl. -/
def tsCmpl (d : BitVec 512) : Bool := bit d 10
/-- dest. -/
def tsDest (d : BitVec 512) : Nat := fld d 11 2
/-- set. -/
def tsSet (d : BitVec 512) : Bool := bit d 13
/-- sig_on. -/
def tsSigOn (d : BitVec 512) : Bool := bit d 14
/-- sig_sem. -/
def tsSigSem (d : BitVec 512) : Nat := fld d 16 12
/-- w_fmt. -/
def tsWFmt (d : BitVec 512) : Nat := fld d 32 4
/-- a_fmt. -/
def tsAFmt (d : BitVec 512) : Nat := fld d 36 4
/-- o_fmt. -/
def tsOFmt (d : BitVec 512) : Nat := fld d 40 4
/-- o_prof. -/
def tsOProf (d : BitVec 512) : Nat := fld d 52 3
/-- o_q. -/
def tsOQ (d : BitVec 512) : Bool := bit d 55
/-- tag. -/
def tsTag (d : BitVec 512) : Nat := fld d 56 8
/-- o_h. -/
def tsOH (d : BitVec 512) : Nat := fld d 128 6
/-- o_sc. -/
def tsOSc (d : BitVec 512) : Nat := fld d 134 6
/-- o_hw. -/
def tsOHw (d : BitVec 512) : Nat := fld d 140 6
/-- o_kn. -/
def tsOKn (d : BitVec 512) : Nat := fld d 146 6
/-- p_h. -/
def tsPH (d : BitVec 512) : Nat := fld d 152 6
/-- idx_h. -/
def tsIdx (d : BitVec 512) : Nat := fld d 160 6
/-- msk_h. -/
def tsMsk (d : BitVec 512) : Nat := fld d 166 6
/-- seg_h. -/
def tsSeg (d : BitVec 512) : Nat := fld d 172 6
/-- b_h. -/
def tsBH (d : BitVec 512) : Nat := fld d 178 6
/-- x_h. -/
def tsXH (d : BitVec 512) : Nat := fld d 184 6
/-- o_off. -/
def tsOOff (d : BitVec 512) : Nat := fld d 224 16
/-- p_off. -/
def tsPOff (d : BitVec 512) : Nat := fld d 240 16
/-- m. -/
def tsM (d : BitVec 512) : Nat := fld d 256 16
/-- n. -/
def tsN (d : BitVec 512) : Nat := fld d 272 7 + 1
/-- ob. -/
def tsOb (d : BitVec 512) : Nat := fld d 279 9
/-- k. -/
def tsK (d : BitVec 512) : Nat := fld d 288 16
/-- kb. -/
def tsKb (d : BitVec 512) : Nat := fld d 304 16
/-- o_pitch. -/
def tsOPitch (d : BitVec 512) : Nat := fld d 336 16
/-- opa. -/
def tsOpa (d : BitVec 512) : Nat := fld d 384 32
/-- opb. -/
def tsOpb (d : BitVec 512) : Nat := fld d 416 32
/-- fn1 of operation word A (R106). -/
def tsFn1 (d : BitVec 512) : Nat := fld d 384 4
/-- fn2. -/
def tsFn2 (d : BitVec 512) : Nat := fld d 388 4
/-- bsrc. -/
def tsBsrc (d : BitVec 512) : Nat := fld d 392 2
/-- src. -/
def tsSrc (d : BitVec 512) : Bool := bit d 394
/-- wait_sem. -/
def tsWaitSem (d : BitVec 512) : Nat := fld d 448 12
/-- wait_on. -/
def tsWaitOn (d : BitVec 512) : Bool := bit d 463
/-- take. -/
def tsTake (d : BitVec 512) : Nat := fld d 464 16
/-- cost. -/
def tsCost (d : BitVec 512) : Nat := fld d 480 16
/-- sig_add. -/
def tsSigAdd (d : BitVec 512) : Nat := fld d 496 16

/-! ## Kinds (R105) -/

/-- MATMUL, CONV or GMM: the ops that read weights and use the cell grid. -/
def tsCells (d : BitVec 512) : Bool := decide (tsOp d = 1) || decide (tsOp d = 2) || decide (tsOp d = 5)

/-- Whether the step's operation words hold an epilogue (R106). -/
def tsEpilogue (d : BitVec 512) : Bool := (tsCells d && decide (2 ≤ tsDest d)) || decide (tsOp d = 4)

/-- Whether the step writes its output in o_fmt. -/
def tsWritesOut (d : BitVec 512) : Bool := tsEpilogue d || decide (tsOp d = 3)

/-- Whether the step reads activations from a_h. -/
def tsReadsA (d : BitVec 512) : Bool := decide (tsOp d ≠ 8) && !(decide (tsOp d = 4) && tsSrc d)

/-- Whether the geometry record applies. -/
def tsGeo (d : BitVec 512) : Bool := decide (tsOp d = 2) || decide (tsOp d = 3)

/-! ## Profiles (R78, R97) -/

/-- A quantiser profile. -/
structure Prof where
  num : Nat
  fmt : Nat
  group : Nat
  dyn : Bool
  esc : Bool
  cap : Nat
  hw : Nat
  s2src : Bool
  clip : Nat
  s2 : Nat
  deriving DecidableEq, Repr

/-- A profile as two words QP_CFG and QP_S2. -/
def profOf (num : Nat) (cfg s2 : Word) : Prof where
  num := num
  fmt := fld cfg 0 4
  group := [0, 32, 64, 128].getD (fld cfg 4 2) 0
  dyn := bit cfg 6
  esc := bit cfg 7
  cap := [256, 64, 128, 512, 1024].getD (fld cfg 8 3) 256
  hw := [0, 4, 8, 16].getD (fld cfg 11 2) 0
  s2src := bit cfg 13
  clip := fld cfg 16 8
  s2 := s2.toNat

/-- The active profile `p` of an array. -/
def State.prof (s : State) (a p : Nat) : Prof :=
  profOf p (s.reg (qntPage a) (0x100 + 32 * p)) (s.reg (qntPage a) (0x104 + 32 * p))

/-! ## Operands -/

/-- The weight or the activation operand of a step: which it is (0 weight, 1 activation), its format, profile, handles,
offset and pitches in bytes. -/
structure Side where
  which : Nat
  fmt : Nat
  prof : Option Prof
  h : Nat
  sc : Nat
  s2 : Nat
  hw : Nat
  kn : Nat
  off : Nat
  pitch : Nat
  scPitch : Nat
  deriving DecidableEq, Repr

/-- The weight operand. -/
def sideW (s : State) (a : Nat) (d : BitVec 512) : Side where
  which := 0
  fmt := tsWFmt d
  prof := if bit d 47 then some (s.prof a (fld d 44 3)) else none
  h := fld d 64 6
  sc := fld d 70 6
  s2 := fld d 76 6
  hw := fld d 82 6
  kn := fld d 88 6
  off := 128 * fld d 192 16
  pitch := fld d 352 16
  scPitch := 4 * fld d 368 8

/-- The activation operand. -/
def sideA (s : State) (a : Nat) (d : BitVec 512) : Side where
  which := 1
  fmt := tsAFmt d
  prof := if bit d 51 then some (s.prof a (fld d 48 3)) else none
  h := fld d 96 6
  sc := fld d 102 6
  s2 := fld d 108 6
  hw := fld d 114 6
  kn := fld d 120 6
  off := 128 * fld d 208 16
  pitch := fld d 320 16
  scPitch := 4 * fld d 376 8

/-- The profile of the output, if one is named. -/
def outProf (s : State) (a : Nat) (d : BitVec 512) : Option Prof :=
  if tsOQ d then some (s.prof a (tsOProf d)) else none

/-- The group size of an operand; 0 for none. -/
def Side.group (x : Side) : Nat := (x.prof.map Prof.group).getD 0

/-- The heartwood count of an operand. -/
def Side.hwCount (x : Side) : Nat := (x.prof.map Prof.hw).getD 0

/-- Whether an operand has escapes. -/
def Side.esc (x : Side) : Bool := (x.prof.map Prof.esc).getD false

/-- Whether an operand's second-level scales are read from a handle. -/
def Side.s2Handle (x : Side) : Bool := (x.prof.map Prof.s2src).getD false

/-- Bytes of `n` elements of a format, packed (R62). -/
def rowBytes (fmt n : Nat) : Nat := ceilDiv (n * fmtBits fmt) 8

/-- A number of bytes rounded up to a multiple. -/
def roundUp (v unit : Nat) : Nat := ceilDiv v unit * unit

/-- The blocks of a tensor row of a pitch: the row is as wide as its pitch (R428). -/
def rowBlocks (fmt pitch : Nat) : Nat := ceilDiv (pitch * 8 / max 1 (fmtBits fmt)) 128

/-- The row pitch of an output's scale stream (R428). -/
def outScPitch (fmt pitch group : Nat) : Nat :=
  if group = 0 then 0 else roundUp (2 * ceilDiv (pitch * 8 / max 1 (fmtBits fmt)) group) 4

/-- Where a heartwood handle holds its map, its slice rows and its scale rows: the first byte of the slice region, its
row pitch, the first byte of the scale region, its row pitch. The regions follow each other as in R132, each from a new
line on, for a tensor of `blocks` blocks and `rows` rows (DEDUCED, log entry 23). -/
def hwLayout (blocks rows hw : Nat) : Nat × Nat × Nat × Nat :=
  let slice := roundUp (16 * blocks) 128
  let sp := roundUp (blocks * hw) 4
  let scale := slice + roundUp (rows * sp) 128
  (slice, sp, scale, roundUp (2 * blocks) 4)

/-- The bytes a heartwood handle takes. -/
def hwSize (blocks rows hw : Nat) : Nat := let l := hwLayout blocks rows hw; l.2.2.1 + rows * l.2.2.2

/-- Bytes of a knot list (R93). -/
def knotSize (cap : Nat) : Nat := 4 + 4 * cap

/-! ## The geometry record (R125) -/

/-- A geometry record. -/
structure Geo where
  inW : Nat
  inH : Nat
  ay0 : Nat
  aRows : Nat
  kh : Nat
  kw : Nat
  ty0 : Nat
  tx0 : Nat
  th : Nat
  tw : Nat
  sy : Nat
  sx : Nat
  dy : Nat
  dx : Nat
  pad : Nat
  cb : Nat
  skipPad : Bool
  mbz : Nat
  pt : Nat
  pb : Nat
  pl : Nat
  pr : Nat
  oy0 : Nat
  ox0 : Nat
  ow : Nat
  cn : Nat
  c0 : Nat
  padVal : Nat
  deriving DecidableEq, Repr

/-- The record in 32 bytes. -/
def geoOf (bs : List Byte) : Geo :=
  let w (i : Nat) : Nat := bytesNat (sliceBytes bs (4 * i) 4)
  let f (i lo len : Nat) : Nat := w i / 2 ^ lo % 2 ^ len
  { inW := f 0 0 16, inH := f 0 16 16, ay0 := f 1 0 16, aRows := f 1 16 16, kh := f 2 0 6 + 1, kw := f 2 6 6 + 1,
    ty0 := f 2 12 6, tx0 := f 2 18 6, th := f 2 24 4 + 1, tw := f 2 28 4 + 1, sy := f 3 0 4 + 1, sx := f 3 4 4 + 1,
    dy := f 3 8 4 + 1, dx := f 3 12 4 + 1, pad := f 3 16 2, cb := if f 3 18 1 = 1 then 32 else 16,
    skipPad := f 3 19 1 = 1, mbz := f 3 20 12, pt := f 4 0 8, pb := f 4 8 8, pl := f 4 16 8, pr := f 4 24 8,
    oy0 := f 5 0 16, ox0 := f 5 16 16, ow := f 6 0 16, cn := f 6 16 16, c0 := f 7 0 16, padVal := f 7 16 16 }

/-- The geometry record of a step, read from its x_h. -/
def State.geo (s : State) (a : Nat) (d : BitVec 512) : Geo :=
  geoOf (s.spBytes a (hOff (s.handle a (tsXH d)) 0) 32)

/-- The output extent of a dimension (R129). -/
def outExtent (size padA padB k dil stride : Nat) : Int :=
  (((size + padA + padB : Nat) : Int) - ((dil * (k - 1) + 1 : Nat) : Int)) / (stride : Int) + 1

/-- Where a coordinate outside an extent is mapped; none for the constant (R128). -/
def padMap (mode n : Nat) (i : Int) : Option Nat :=
  if 0 ≤ i ∧ i < n then some i.toNat
  else match mode with
  | 0 => none
  | 1 => some (min (max i 0) ((n : Int) - 1)).toNat
  | 2 =>
    if n = 1 then some 0
    else
      let p : Int := 2 * ((n : Int) - 1)
      let j := i % p
      some (if (n : Int) ≤ j then p - j else j).toNat
  | _ =>
    let p : Int := 2 * (n : Int)
    let j := i % p
    some (if (n : Int) ≤ j then p - 1 - j else j).toNat

/-- The image row and column of tap `t` of output position `p` before mapping (R127). -/
def tapAt (g : Geo) (p t : Nat) : Int × Int :=
  let oy := g.oy0 + p / max 1 g.ow
  let ox := g.ox0 + p % max 1 g.ow
  let ky := g.ty0 + t / g.tw
  let kx := g.tx0 + t % g.tw
  (((oy * g.sy + ky * g.dy : Nat) : Int) - g.pt, ((ox * g.sx + kx * g.dx : Nat) : Int) - g.pl)

/-- The source position of a tap, or none for a constant-padded one (R128). -/
def tapSource (g : Geo) (p t : Nat) : Option (Nat × Nat) :=
  let c := tapAt g p t
  match padMap g.pad g.inH c.1, padMap g.pad g.inW c.2 with
  | some y, some x => some (y, x)
  | _, _ => none

/-- Whether a tap lies in the image before mapping. -/
def tapInside (g : Geo) (p t : Nat) : Bool :=
  let c := tapAt g p t
  decide (0 ≤ c.1) && decide (c.1 < g.inH) && decide (0 ≤ c.2) && decide (c.2 < g.inW)

/-- The channels of a tap in the expanded row (R131). -/
def geoCp (x : Side) (g : Geo) : Nat :=
  if x.group ≠ 0 ∨ x.hwCount ≠ 0 then roundUp g.cn 128 else roundUp g.cn g.cb

/-- The elements of the expanded row: k of a CONV step (R131); a POOL step's rows are read in the same way (DEDUCED, log
entry 24). -/
def geoK (x : Side) (g : Geo) : Nat := g.th * g.tw * geoCp x g

/-- The first byte and row pitch of each region of the expanded buffer (R132): codes, group scales, map, slice, scales;
and the end. -/
structure XLayout where
  codes : Nat
  codesPitch : Nat
  scales : Nat
  scalesPitch : Nat
  map : Nat
  slice : Nat
  slicePitch : Nat
  hwScales : Nat
  hwPitch : Nat
  size : Nat
  deriving DecidableEq, Repr

/-- The regions of the expanded buffer (R132). -/
def xLayout (x : Side) (g : Geo) (m : Nat) : XLayout :=
  let k := geoK x g
  let cp := roundUp (ceilDiv (k * fmtBits x.fmt) 8) 4
  let scales := 128 + roundUp (m * cp) 128
  let sp := if x.group = 0 then 0 else roundUp (2 * ceilDiv k x.group) 4
  let map := scales + roundUp (m * sp) 128
  let hw := x.hwCount
  let slice := map + (if hw = 0 then 0 else roundUp (16 * (k / 128)) 128)
  let slp := if hw = 0 then 0 else roundUp (k / 128 * hw) 4
  let hs := slice + roundUp (m * slp) 128
  let hp := if hw = 0 then 0 else roundUp (2 * (k / 128)) 4
  { codes := 128, codesPitch := cp, scales := scales, scalesPitch := sp, map := map, slice := slice, slicePitch := slp,
    hwScales := hs, hwPitch := hp, size := hs + m * hp }

/-! ## Regions (R104, R153) -/

/-- A region a step uses: its handle, the memories the handle may lie in, first byte, bytes from the first to the last,
whether it is written, its rows with their pitch and their bytes, and the bits of one value in it. Length 0 asks only for
the handle. -/
structure Use where
  h : Nat
  mems : List SpMem
  off : Nat
  len : Nat
  write : Bool
  rows : Nat
  pitch : Nat
  row : Nat
  bits : Nat
  deriving DecidableEq, Repr

/-- Bytes from the first row to the end of the last of `rows` rows. -/
def span (rows pitch bytes : Nat) : Nat := if rows = 0 then 0 else (rows - 1) * pitch + bytes

/-- A region without gaps. -/
def useAt (h : Nat) (mems : List SpMem) (off len bits : Nat) (write : Bool) : Use := ⟨h, mems, off, len, write, 1, 0, len, bits⟩

/-- A region of rows. -/
def useRows (h : Nat) (mems : List SpMem) (off rows pitch row bits : Nat) (write : Bool) : Use :=
  ⟨h, mems, off, span rows pitch row, write, rows, pitch, row, bits⟩

/-- The regions of a heartwood handle: map, slice rows, scale rows. -/
def hwUses (h : Nat) (mems : List SpMem) (blocks rows hw : Nat) (write : Bool) : List Use :=
  let l := hwLayout blocks rows hw
  [useAt h mems 0 (16 * blocks) 128 write, useAt h mems l.1 (rows * l.2.1) 8 write,
    useAt h mems l.2.2.1 (rows * l.2.2.2) 16 write]

/-- The bytes of a heartwood handle that a step touches: the masks of `n` blocks from `first` on, which are read, and
those blocks' slices and scale entries in `cnt` rows from `row` on, written where `slice` and `scale` say so (R92). -/
def hwTouched (h : Nat) (mems : List SpMem) (blocks rows hw first n row cnt : Nat) (slice scale : Bool) : List Use :=
  let l := hwLayout blocks rows hw
  [useAt h mems (16 * first) (16 * n) 128 false,
    useRows h mems (l.1 + row * l.2.1 + first * hw) cnt l.2.1 (n * hw) 8 slice,
    useRows h mems (l.2.2.1 + row * l.2.2.2 + 2 * first) cnt l.2.2.2 (2 * n) 16 scale]

/-- The regions of an operand of `rows` rows with reduction elements from `kb` blocks on; `gather` leaves its rows to
the index list, and `geo` to the geometry record; `fine` gives the heartwood bytes the step reads in place of the whole
regions. -/
def sideUses (x : Side) (mem : SpMem) (rows kb k : Nat) (gather geo fine : Bool) : List Use :=
  let lazy_ := gather || geo
  let last := kb * 128 + k
  let n := if lazy_ then 0 else rows
  [useRows x.h [mem] (x.off + rowBytes x.fmt (kb * 128)) n x.pitch (rowBytes x.fmt last - rowBytes x.fmt (kb * 128))
      (fmtBits x.fmt) false]
  ++ (if x.group = 0 then [] else
      [useRows x.sc [mem] (2 * (kb * 128 / x.group)) n x.scPitch (2 * (ceilDiv last x.group - kb * 128 / x.group)) 16 false])
  ++ (if x.s2Handle then [useAt x.s2 [.wm, .am] 0 (if gather then 0 else 4 * rows) 32 false] else [])
  ++ (if x.hwCount = 0 then [] else
      if lazy_ then [useAt x.hw [mem] 0 0 8 false]
      else if fine then hwTouched x.hw [mem] (rowBlocks x.fmt x.pitch) rows x.hwCount kb (ceilDiv k 128) 0 rows false false
      else hwUses x.hw [mem] (rowBlocks x.fmt x.pitch) rows x.hwCount false)
  ++ (if x.esc then [useAt x.kn [mem] 0 (ceilDiv k 128 * knotSize ((x.prof.map Prof.cap).getD 256)) 32 false] else [])

/-- The regions of the output: rows of `n` elements from block `ob` on; `fine` gives the heartwood bytes the quantiser
reads and writes in place of the whole regions. -/
def outUses (s : State) (a : Nat) (d : BitVec 512) (rows n : Nat) (fine : Bool) : List Use :=
  let fmt := tsOFmt d
  let e0 := tsOb d * 128
  let mems := [SpMem.am, .wm]
  [useRows (tsOH d) mems (128 * tsOOff d + rowBytes fmt e0) rows (tsOPitch d) (rowBytes fmt (e0 + n) - rowBytes fmt e0)
    (fmtBits fmt) true]
  ++ (match outProf s a d with
    | none => []
    | some p =>
      (if p.group = 0 then [] else
        [useRows (tsOSc d) mems (2 * (e0 / p.group)) rows (outScPitch fmt (tsOPitch d) p.group)
          (2 * (ceilDiv (e0 + n) p.group - e0 / p.group)) 16 p.dyn])
      ++ (if p.hw = 0 then []
          else if fine then
            hwTouched (tsOHw d) mems (rowBlocks fmt (tsOPitch d)) rows p.hw (tsOb d) (ceilDiv n 128) 0 rows true p.dyn
          else hwUses (tsOHw d) mems (rowBlocks fmt (tsOPitch d)) rows p.hw true)
      ++ (if p.esc then [useAt (tsOKn d) mems 0 (ceilDiv n 128 * knotSize p.cap) 32 true] else []))

/-- The output elements of a row: n columns, or the channels of a POOL step. -/
def outCols (d : BitVec 512) : Nat := if tsOp d = 3 then tsK d else tsN d

/-- Every region a step uses, in the order of the descriptor's handle fields. With a geometry record the regions it
fixes are given too (R134). `fine` gives the bytes the step touches in place of the regions that bound and scoreboard
hold it to. -/
def stepUses (s : State) (a : Nat) (d : BitVec 512) (geo : Option Geo) (fine : Bool) : List Use :=
  let m := tsM d
  let xa := sideA s a d
  let bUse : List Use :=
    if tsEpilogue d ∧ tsBsrc d = 1 then [useAt (tsBH d) [.am, .pm] 0 (4 * tsN d) 32 false]
    else if tsEpilogue d ∧ tsBsrc d = 2 then [useRows (tsBH d) [.am, .pm] 0 m (tsOPitch d) (4 * tsN d) 32 false] else []
  let mask : List Use :=
    if tsSet d then [useAt (tsMsk d) [.am] 0 (4 + 4 * ceilDiv m 32 + 16) 32 false] else []
  let x : List Use := if tsGeo d then [useAt (tsXH d) [.am] 0
      (match geo with | some g => (xLayout xa g m).size | none => 32) 8 true] else []
  let aGeo : List Use := match geo with
    | some g =>
      let n := g.aRows * g.inW
      let lead := rowBytes xa.fmt g.c0
      let first := if fine then g.c0 / max 1 xa.group else 0
      [{ useAt xa.h [.am] (xa.off + lead) (n * xa.pitch - lead) (fmtBits xa.fmt) false with
          rows := n, pitch := xa.pitch, row := rowBytes xa.fmt (g.c0 + g.cn) - lead }]
      ++ (if xa.group = 0 then [] else
          [useRows xa.sc [.am] (2 * first) n xa.scPitch (2 * (ceilDiv (g.c0 + geoCp xa g) xa.group - first)) 16 false])
      ++ (if tsOp d = 3 ∧ xa.s2Handle then [useAt xa.s2 [.wm, .am] 0 (4 * n) 32 false] else [])
      ++ (if xa.hwCount = 0 then []
          else if fine then hwTouched xa.hw [.am] (rowBlocks xa.fmt xa.pitch) n xa.hwCount (g.c0 / 128) (geoCp xa g / 128) 0 n
            false false
          else hwUses xa.hw [.am] (rowBlocks xa.fmt xa.pitch) n xa.hwCount false)
    | none => []
  let pUse (w : Bool) : List Use := [useRows (tsPH d) [.pm] (128 * tsPOff d) m 512 (4 * tsN d) 32 w]
  match tsOp d with
  | 1 | 2 | 5 =>
    sideUses (sideW s a d) .wm (tsN d) (tsKb d) (tsK d) (tsOp d = 5 ∧ tsSub d = 1) false fine
      ++ sideUses xa .am m (tsKb d) (tsK d) (tsOp d = 5 ∧ tsSub d = 0) (tsGeo d) fine
      ++ (if 2 ≤ tsDest d then outUses s a d m (tsN d) fine else [])
      ++ (if tsDest d = 3 then [] else pUse true)
      ++ (if tsOp d = 5 then [useAt (tsIdx d) [.am] 0 (2 * (if tsSub d = 0 then m else tsN d)) 16 false] else [])
      ++ mask ++ bUse ++ x ++ aGeo
  | 3 => sideUses xa .am 0 0 (tsK d) false true fine ++ outUses s a d m (tsK d) fine ++ mask ++ x ++ aGeo
  | 4 => (if tsSrc d then [] else sideUses xa .am m (tsKb d) (tsN d) false false fine) ++ outUses s a d m (tsN d) fine
      ++ (if tsSrc d then pUse false else []) ++ mask ++ bUse
  | 6 => [useRows xa.h [.am] xa.off m xa.pitch (rowBytes xa.fmt (tsN d)) (fmtBits xa.fmt) false,
      useRows (tsOH d) [.am, .wm] (128 * tsOOff d) (tsOpa d % 65536) (tsOPitch d) (4 * tsN d) 32 true]
      ++ mask ++ [useAt (tsSeg d) [.am] 0 (2 * (tsOpa d % 65536 + 1)) 16 false]
  | 7 => [useRows xa.h [.am] xa.off m xa.pitch (rowBytes xa.fmt (tsK d)) (fmtBits xa.fmt) false,
      if tsSub d = 0 then useRows (tsOH d) [.am, .wm] (128 * tsOOff d) m (tsOPitch d) (rowBytes xa.fmt (tsK d)) (fmtBits xa.fmt) true
      else useRows (tsOH d) [.am, .wm] (128 * tsOOff d) (tsK d) (tsOPitch d) (rowBytes xa.fmt m) (fmtBits xa.fmt) true] ++ mask
  | _ => []

/-- Whether a used handle is allocated and lies in a memory it may lie in (R104). -/
def useHandleOk (s : State) (a : Nat) (u : Use) : Bool :=
  let e := s.handle a u.h
  hValid e && u.mems.contains (hMem e)

/-- Whether a used region lies inside its handle (R104). -/
def useRegionOk (s : State) (a : Nat) (u : Use) : Bool := u.len = 0 || decide (u.off + u.len ≤ hSize (s.handle a u.h))

/-- Two uses of one handle share a line. -/
def usesMeet (x y : Use) : Bool :=
  decide (x.h = y.h) && decide (x.len ≠ 0) && decide (y.len ≠ 0) && decide (x.off / 128 ≤ (y.off + y.len - 1) / 128)
    && decide (y.off / 128 ≤ (x.off + x.len - 1) / 128)

/-- The regions a step uses: with a geometry record, those the record gives (R134, R153). -/
def stepRegions (s : State) (a : Nat) (d : BitVec 512) (fine : Bool) : List Use :=
  if tsGeo d then (stepUses s a d (some (s.geo a d)) fine).filter fun u => decide (u.len ≠ 0) else stepUses s a d none fine

/-- The scoreboard's sets of a step; a gathered operand's set is the rest of its handle, since its rows stand in the index
list only (R153; DEDUCED, log entry 56). -/
def stepSets (s : State) (a : Nat) (d : BitVec 512) : List Use :=
  (stepRegions s a d false).map fun u =>
    if u.len = 0 then { u with len := hSize (s.handle a u.h) - u.off } else u

/-- Whether a step conflicts with a step in flight before it (R153). -/
def stepConflict (s : State) (a : Nat) (first second : BitVec 512) : Bool :=
  (stepSets s a first).any fun x => (stepSets s a second).any fun y => usesMeet x y && (x.write || y.write)

/-- Whether `n` bytes from byte `p` of a region's handle on meet one of its rows: the last row that begins before their
end decides it. -/
def rowsMeet (y : Use) (p n : Nat) : Bool :=
  let j := if y.pitch = 0 then 0 else min (y.rows - 1) ((p + n - 1 - y.off) / y.pitch)
  decide (0 < n) && decide (0 < y.rows) && decide (y.off < p + n) && decide (p < y.off + j * y.pitch + y.row)

/-- Two regions of one handle share a byte of a row of each. -/
def usesTouch (x y : Use) : Bool :=
  decide (x.h = y.h) && decide (x.off < y.off + y.len) && decide (y.off < x.off + x.len)
    && (List.range x.rows).any fun i => rowsMeet y (x.off + i * x.pitch) x.row

/-! ## The bound (R111, R135, R138) -/

/-- Elements of a pass (R67). -/
def passLen (d : BitVec 512) : Nat := if tsWFmt d = 0 then 256 else 128

/-- Main passes. -/
def mainPasses (d : BitVec 512) : Nat := ceilDiv (tsK d) (passLen d)

/-- Heartwood passes (R92). -/
def hwPasses (s : State) (a : Nat) (d : BitVec 512) : Nat :=
  ceilDiv (ceilDiv (tsK d) 128 * max (sideW s a d).hwCount (sideA s a d).hwCount) 128

/-- The term T of the bound. -/
def boundT (d : BitVec 512) : Nat :=
  8 + 12 * b2n (tsOQ d) + (if tsEpilogue d ∧ (tsFn1 d ≠ 0 ∨ tsFn2 d ≠ 0) then 10 else 0)

/-- The bound of a MATMUL, CONV or GMM step; the expansion term's b0 is not rounded to bytes (R135). -/
def cellBound (s : State) (a : Nat) (d : BitVec 512) : Nat :=
  let bf := decide (tsWFmt d = 4)
  let l := (if bf then 256 else 128) * (if tsOp d = 5 ∧ tsSub d = 1 then 2 else 1)
  let v := (if bf then 4 else 1) * tsM d
    * (if (tsOp d = 5 ∧ tsSub d = 0) ∨ (tsOp d = 2 ∧ tsWFmt d = 0 ∧ tsAFmt d = 1) then 2 else 1)
  let knots (x : Side) : Nat := if x.esc then (x.prof.map Prof.cap).getD 0 * ceilDiv (tsK d) 128 else 0
  let n := knots (sideW s a d) + knots (sideA s a d)
  let bits0 := min (tsK d) (passLen d) * fmtBits (tsAFmt d)
  16 + l + max ((mainPasses d + hwPasses s a d) * max v l) n + 255 + boundT d
    + (if tsOp d = 2 then 4 + ceilDiv (tsM d * bits0) 1024 else 0)

/-- The bound of a step; that of a POOL step takes its geometry record. -/
def stepBound (s : State) (a : Nat) (d : BitVec 512) (g : Geo) : Nat :=
  let m := tsM d
  let r := max 1 (fmtBits (tsAFmt d) / 8)
  match tsOp d with
  | 1 | 2 | 5 => cellBound s a d
  | 3 => 20 + m * ceilDiv g.cn 128 * g.th * g.tw * r + boundT d
  | 4 => 16 + m * (r + (if tsBsrc d = 2 then 4 else 0)) + boundT d
  | 6 => 16 + m * r + tsOpa d % 65536 + boundT d
  | 7 =>
    let rd := m * ceilDiv (tsK d * fmtBits (tsAFmt d)) 1024
    16 + 2 * (if tsSub d = 0 then rd else max rd (tsK d * ceilDiv (m * fmtBits (tsAFmt d)) 1024)) + 8
  | _ => 16

/-! ## Validation (R110) -/

/-- Whether a must-be-0 field of a used word is not 0. -/
def stepMbz (d : BitVec 512) : Bool :=
  let op := tsOp d
  let waitBad := if op = 8 then decide (fld d 460 3 ≠ 0) else decide (fld d 448 32 ≠ 0)
  let sop := tsGeo d || decide (op = 5) || tsSet d || decide (op = 6) || (tsEpilogue d && decide (tsBsrc d ≠ 0))
  bit d 15 || decide (fld d 28 4 ≠ 0) || waitBad
    || (decide (op ≠ 8) && ((tsCells d && decide (fld d 94 2 ≠ 0)) || (tsReadsA d && decide (fld d 126 2 ≠ 0))
      || decide (fld d 158 2 ≠ 0) || (sop && decide (fld d 190 2 ≠ 0))
      || ((decide (op = 6) || decide (op = 7)) && decide (tsOb d ≠ 0))
      || (decide (op = 6) && (decide (tsOpa d / 65536 ≠ 0) || decide (tsOpb d ≠ 0)))
      || (tsEpilogue d && decide (fld d 395 21 ≠ 0))))

/-- Whether op, sub, fn1, fn2, bsrc or src is refused (R105, R106, R137). -/
def stepOpBad (d : BitVec 512) : Bool :=
  let op := tsOp d
  let sub := tsSub d
  let subMax := match op with | 3 | 5 | 7 => 1 | 6 => 4 | _ => 0
  decide (op = 0) || decide (8 < op) || decide (subMax < sub)
    || (decide (op = 3) && (decide (tsOpa d ≠ 0) || decide (tsOpb d ≠ 0)))
    || (tsEpilogue d && (decide (4 < tsFn1 d) || decide (10 < tsFn2 d) || decide (tsFn2 d = 1) || decide (tsFn2 d = 2)
      || decide (tsBsrc d = 3) || (decide (tsBsrc d = 0) && decide (tsFn1 d ≠ 0))
      || (decide (op ≠ 4) && (decide (tsBsrc d = 2) || tsSrc d))))

/-- The format codes the op uses. -/
def stepFmts (d : BitVec 512) : List Nat :=
  match tsOp d with
  | 1 | 2 | 5 => [tsWFmt d, tsAFmt d] ++ (if 2 ≤ tsDest d then [tsOFmt d] else [])
  | 3 | 4 => [tsAFmt d, tsOFmt d]
  | 6 | 7 => [tsAFmt d]
  | _ => []

/-- Whether a weight and an activation format are a pairing of R67. -/
def pairingOk (w x : Nat) : Bool :=
  (decide (w = 0) && decide (x ≤ 1)) || (decide (w = 1) && decide (x = 1))
    || ((decide (w = 2) || decide (w = 3)) && (decide (x = 2) || decide (x = 3))) || (decide (w = 4) && decide (x = 4))

/-- Whether an operand names a profile it cannot have (R79). -/
def profBad (fmt : Nat) (p : Option Prof) : Bool :=
  match p with
  | none => false
  | some q => decide (1 < fmt) || decide (q.fmt ≠ fmt)

/-- Whether a size, pitch, take or sig_add is invalid (R110). The rows of a CONV or POOL step's input stand in its
geometry record, so that queue entry holds their pitches to one element and one scale entry, and the issue to the whole
row (DEDUCED from R110 and R134, log entry 62). -/
def stepSizesBad (s : State) (a : Nat) (d : BitVec 512) : Bool :=
  let op := tsOp d
  let xw := sideW s a d
  let xa := sideA s a d
  let bad (pitch bytes : Nat) : Bool := decide (pitch % 4 ≠ 0) || decide (pitch < bytes)
  let kEnd := tsKb d * 128 + tsK d
  let scBad (x : Side) : Bool := decide (x.group ≠ 0) && decide (x.scPitch < 2 * ceilDiv kEnd x.group)
  (tsSigOn d && decide (tsSigAdd d = 0))
    || (decide (op = 8) && tsWaitOn d && decide (tsTake d = 0))
    || (decide (op ≠ 8) && (decide (tsM d = 0) || decide (tsK d = 0)))
    || (tsCells d && (bad xw.pitch (rowBytes xw.fmt kEnd) || scBad xw))
    || ((decide (op = 1) || decide (op = 5)) && (bad xa.pitch (rowBytes xa.fmt kEnd) || scBad xa))
    || (tsGeo d && (bad xa.pitch (rowBytes xa.fmt 1) || (decide (xa.group ≠ 0) && decide (xa.scPitch < 2))))
    || (decide (op = 4) && !tsSrc d && (bad xa.pitch (rowBytes xa.fmt (tsKb d * 128 + tsN d))
      || (decide (xa.group ≠ 0) && decide (xa.scPitch < 2 * ceilDiv (tsKb d * 128 + tsN d) xa.group))))
    || (tsWritesOut d && bad (tsOPitch d) (rowBytes (tsOFmt d) (tsOb d * 128 + outCols d)))
    || (decide (op = 4) && decide (tsBsrc d = 2) && decide (tsOPitch d < 4 * tsN d))
    || (decide (op = 6) && (bad xa.pitch (rowBytes xa.fmt (tsN d)) || bad (tsOPitch d) (4 * tsN d)
      || decide (tsOpa d % 65536 = 0) || decide (4096 < tsOpa d % 65536)))
    || (decide (op = 7) && (bad xa.pitch (rowBytes xa.fmt (tsK d))
      || bad (tsOPitch d) (rowBytes xa.fmt (if tsSub d = 0 then tsK d else tsM d))
      || (decide (tsSub d = 1) && (decide (128 < tsM d) || decide (128 < tsK d)
        || (decide (fmtBits xa.fmt ≠ 8) && decide (fmtBits xa.fmt ≠ 16))))))

/-- Whether a context may use a semaphore: bound to the owner, not claimed by another context, and of class 1 for a
raster-class context (R58, R59, R192). -/
def semUsable (s : State) (c : Nat) (n : Nat) : Bool :=
  let r := s.atCtxs c
  s.semBound n r.func && (match s.semClaim n with | none => true | some k => decide (k = c))
    && (decide (r.cls ≠ 1) || decide (s.semClass n = 1))

/-- The semaphores a step names. -/
def stepSems (d : BitVec 512) : List Nat :=
  (if tsSigOn d then [tsSigSem d] else []) ++ (if tsOp d = 8 ∧ tsWaitOn d then [tsWaitSem d] else [])

/-- The first failing use, with its cause (R110). -/
def usesFailure (s : State) (a : Nat) (us : List Use) : Option Nat :=
  us.findSome? fun u =>
    if !useHandleOk s a u then some 0x0534 else if !useRegionOk s a u then some 0x0535 else none

/-- Validation at queue entry: the refusal code, if one applies, and the bound (R110). A reduction's output is never of a
profile's format, so that a profile named for it is refused (R79, R108). A step that writes no output names none by its
o_q, whatever o_fmt is: the output fields are ones it does not use (DESIGN CHOICE, log entry 62). -/
def validate (s : State) (a c : Nat) (d : BitVec 512) : Option Nat × Nat :=
  let op := tsOp d
  let xw := sideW s a d
  let xa := sideA s a d
  let outInt := tsWritesOut d && decide (tsOFmt d ≤ 1)
  let b := stepBound s a d (geoOf [])
  let code : Option Nat :=
    if stepMbz d then some 0x0505
    else if stepOpBad d then some 0x0533
    else if (stepFmts d).any fun f => decide (7 < f) then some 0x0530
    else if (tsCells d && !pairingOk xw.fmt xa.fmt)
        || (decide (op = 4) && tsSrc d && decide (xa.fmt ≠ 6) && decide (xa.fmt ≠ 7))
        || (decide (op = 3) && (decide (5 < xa.fmt) || (decide (xa.fmt ≤ 1) && xa.prof.isNone))) then some 0x0531
    else if (tsCells d && profBad xw.fmt xw.prof) || ((decide (op ≠ 7) && decide (op ≠ 8)) && profBad xa.fmt xa.prof)
        || (tsWritesOut d && profBad (tsOFmt d) (outProf s a d)) || (decide (op = 6) && tsOQ d) then some 0x0618
    else if outInt && !tsOQ d then some 0x0537
    else if stepSizesBad s a d then some 0x0536
    else match usesFailure s a (stepUses s a d none false) with
    | some k => some k
    | none =>
      if (stepSems d).any fun n => !semUsable s c n then some 0x053B
      else if op ≠ 3 ∧ (960 < b ∨ b ≠ tsCost d) then some 0x0532 else none
  (code, b)

/-- The image rows a step's taps read after mapping (R134). -/
def geoRows (g : Geo) (m : Nat) : List Nat :=
  (List.range m).flatMap fun p => (List.range (g.th * g.tw)).filterMap fun t => (tapSource g p t).map Prod.fst

/-- The checks at issue of a CONV or POOL step: the refusal code and the detail of R144 (R134). A scale pitch below a
row of entries is a pitch that R110 calls invalid (DEDUCED, log entry 62). -/
def checkGeometry (s : State) (a : Nat) (d : BitVec 512) (g : Geo) : Option (Nat × Nat) :=
  let xa := sideA s a d
  let pool := decide (tsOp d = 3)
  let m := tsM d
  let ohImg := outExtent g.inH g.pt g.pb g.kh g.dy g.sy
  let owImg := outExtent g.inW g.pl g.pr g.kw g.dx g.sx
  let grouped := decide (xa.group ≠ 0) || decide (xa.hwCount ≠ 0)
  let padBad := decide (xa.fmt ≤ 1) && decide (g.padVal / 2 ^ fmtBits xa.fmt ≠ 0)
  if g.mbz ≠ 0 ∨ (¬ pool ∧ g.skipPad) ∨ padBad then some (0x0505, 0)
  else if g.inW = 0 ∨ g.inH = 0 then some (0x0552, 0x00)
  else if g.aRows = 0 then some (0x0552, 0x04)
  else if g.ow = 0 ∨ g.cn = 0 then some (0x0552, 0x18)
  else if g.kh < g.ty0 + g.th ∨ g.kw < g.tx0 + g.tw then some (0x0552, 0x08)
  else if pool ∧ (g.ty0 ≠ 0 ∨ g.tx0 ≠ 0 ∨ g.th ≠ g.kh ∨ g.tw ≠ g.kw) then some (0x0552, 0x08)
  else if ohImg ≤ 0 ∨ owImg ≤ 0 then some (0x0550, 0x00)
  else if m % g.ow ≠ 0 then some (0x0551, 0x18)
  else if ohImg < ((g.oy0 + m / g.ow : Nat) : Int) ∨ owImg < ((g.ox0 + g.ow : Nat) : Int) then
    some (0x0551, 0x14)
  else if ¬ pool ∧ (tsK d ≠ geoK xa g ∨ tsKb d ≠ 0) then some (0x0553, 0x08)
  else if pool ∧ (tsK d ≠ g.cn ∨ tsKb d ≠ 0 ∨ tsN d ≠ 128) then some (0x0553, 0x18)
  else if g.c0 % g.cb ≠ 0 ∨ (grouped ∧ g.c0 % 128 ≠ 0) then some (0x0554, 0x1C)
  else if xa.pitch < ceilDiv ((g.c0 + g.cn) * fmtBits xa.fmt) 8 then some (0x0554, 0x18)
  else if xa.group ≠ 0 ∧ xa.scPitch < 2 * ceilDiv (g.c0 + g.cn) xa.group then some (0x0536, 0)
  else if xa.prof.isSome ∧ (xa.esc ∨ (g.pad = 0 ∧ g.padVal ≠ 0 ∧ grouped)) then some (0x0555, 0x1C)
  else match (geoRows g m).find? fun y => decide (y < g.ay0) || decide (g.ay0 + g.aRows ≤ y) with
  | some y => some (0x0556, y)
  | none => match usesFailure s a (stepUses s a d (some g) false) with
    | some k => some (k, 0)
    | none =>
      if pool ∧ (960 < stepBound s a d g ∨ stepBound s a d g ≠ tsCost d) then some (0x0532, 0) else none

end Sys2Proof.Machine
end

