-- ==== Sys2Proof/Machine/Quantise.lean ====
section
/-! DEFINITION. The quantiser (chapter 5): group scales, dequantised operands, knot lists, and rounding of outputs to
codes. A computation ends in a value, or in the fault that stops the step. -/

namespace Sys2Proof.Machine

/-- A fault found while a step computes (R117): its code, its two details where the spec defines them, and whether a knot
skew coincides with it (R96). -/
structure StepFault where
  code : Nat
  info : Option (Nat × Nat)
  knotSkew : Bool := false
  deriving DecidableEq, Repr

/-- A computation of a step: a value or a fault. -/
abbrev Calc (α : Type) := Except StepFault α

/-- Codes of `n` elements packed in bytes (R62). -/
def unpackCodes (fmt : Nat) (bs : List Byte) (n : Nat) : List Nat :=
  let v := bytesNat bs
  (List.range n).map fun i => v / 2 ^ (fmtBits fmt * i) % 2 ^ fmtBits fmt

/-- The bytes of codes, the last upper nibble of an odd INT4 row 0 (R62). -/
def packCodes (fmt : Nat) (cs : List Nat) : List Byte :=
  natBytes (ceilDiv (cs.length * fmtBits fmt) 8)
    (cs.foldr (fun c acc => c % 2 ^ fmtBits fmt + 2 ^ fmtBits fmt * acc) 0)

/-- The integer a code stands for (R62). -/
def codeInt (fmt c : Nat) : Int := signedOf c (fmtBits fmt)

/-- The escape code of an integer format (R63). -/
def escapeCode (fmt : Nat) : Nat := if fmt = 0 then 8 else 0x80

/-- Bytes of a handle from byte `i` on. -/
def State.hBytes (s : State) (a h i n : Nat) : List Byte := s.spBytes a (hOff (s.handle a h) i) n

/-- A little-endian number in a handle. -/
def State.hNat (s : State) (a h i n : Nat) : Nat := bytesNat (s.hBytes a h i n)

/-! ## Scales (R80 to R83) -/

/-- An E4M3 group factor in units of 2^-9: exact (R80). -/
def e4m3Units (c : Nat) : Nat := if c / 8 % 16 = 0 then c % 8 else (8 + c % 8) * 2 ^ (c / 8 % 16 - 1)

/-- A second-level scale that is positive and finite (R82). -/
def s2Ok (v : Nat) : Bool := decide (0 < v) && decide (v < 0x7F800000)

/-- The details of a scale skew (R83). -/
def skewInfo (want found prof which row : Nat) : Option (Nat × Nat) :=
  some (want % 256 + 256 * found + 65536 * prof + 524288 * which, row)

/-- The decoding of a group scale entry for data group `g` of a row: the factor in units of 2^-9, or the fault (R83). -/
def groupFactor (prof which row g entry s2 : Nat) : Calc Nat :=
  if entry / 256 % 256 ≠ g % 256 then .error { code := 0x0610, info := skewInfo g (entry / 256 % 256) prof which row }
  else if 0x7F ≤ entry % 256 then .error { code := 0x0612, info := none }
  else if ¬ s2Ok s2 then .error { code := 0x0613, info := none }
  else .ok (e4m3Units (entry % 256))

/-! ## Rows of operands -/

/-- A row of an operand as the cells see it: whether it is live, its row in the tensor, its place in the step, its codes
from the step's first element on, its second-level scale, and its group scale entries, heartwood masks, slice codes and
scale entries by absolute group and block. -/
structure Vec where
  live : Bool
  row : Nat
  place : Nat
  codes : List Nat
  s2 : Nat
  groupEntry : Nat → Nat
  hwMask : Nat → Nat
  hwCodes : Nat → List Nat
  hwEntry : Nat → Nat

/-- A row that enters the cells as zeros (R109). -/
def deadVec (k place : Nat) : Vec := ⟨false, 0, place, List.replicate k 0, 0x3F800000, fun _ => 0, fun _ => 0,
  fun _ => [], fun _ => 0⟩

/-- Row `r` of an operand, `k` elements from block `kb` on. -/
def sideVec (s : State) (a : Nat) (x : Side) (rows r place kb k : Nat) : Vec :=
  let l := hwLayout (rowBlocks x.fmt x.pitch) rows x.hwCount
  { live := true, row := r, place := place,
    codes := unpackCodes x.fmt (s.hBytes a x.h (x.off + r * x.pitch + rowBytes x.fmt (kb * 128)) (rowBytes x.fmt k)) k,
    s2 := match x.prof with
      | none => 0x3F800000
      | some p => if p.s2src then s.hNat a x.s2 (4 * r) 4 else p.s2,
    groupEntry := fun g => s.hNat a x.sc (r * x.scPitch + 2 * g) 2,
    hwMask := fun b => s.hNat a x.hw (16 * b) 16,
    hwCodes := fun b => unpackCodes 1 (s.hBytes a x.hw (l.1 + r * l.2.1 + b * x.hwCount) x.hwCount) x.hwCount,
    hwEntry := fun b => s.hNat a x.hw (l.2.2.1 + r * l.2.2.2 + 2 * b) 2 }

/-- How many bits of a block's mask are set. -/
def popCount (mask : Nat) : Nat := ((List.range 128).filter fun c => mask.testBit c).length

/-- The place of channel `c` among the set bits of a mask. -/
def maskPlace (mask c : Nat) : Nat := ((List.range c).filter fun i => mask.testBit i).length

/-- The mask of a block, refused when it has more bits set than the profile's count (R92). -/
def hwMaskOf (x : Side) (v : Vec) (b : Nat) : Calc Nat :=
  if x.hwCount = 0 then .ok 0
  else if x.hwCount < popCount (v.hwMask b) then .error { code := 0x0614, info := none } else .ok (v.hwMask b)

/-- The factor of an element of absolute index `e`: 1.0 without groups (R81), in units of 2^-9. -/
def elemFactor (x : Side) (v : Vec) (e : Nat) : Calc Nat :=
  if x.group = 0 ∨ ¬ v.live then .ok 512
  else groupFactor ((x.prof.map Prof.num).getD 0) x.which v.row (e / x.group) (v.groupEntry (e / x.group)) v.s2

/-- The factor of a block's heartwood group. -/
def hwFactor (x : Side) (v : Vec) (b : Nat) : Calc Nat :=
  groupFactor ((x.prof.map Prof.num).getD 0) x.which v.row b (v.hwEntry b) v.s2

/-- The integer the cells take for a code: 0 for an escape (R63). -/
def cellInt (x : Side) (c : Nat) : Int := if x.esc ∧ c = escapeCode x.fmt then 0 else codeInt x.fmt c

/-! ## Knot lists of operands (R93, R95) -/

/-- The escapes of a block met in order: place of the row, channel. -/
def blockEscapes (x : Side) (vs : List Vec) (b : Nat) : List (Nat × Nat) :=
  vs.flatMap fun v => if !v.live then [] else
    (List.range 128).filterMap fun c =>
      if 128 * b + c < v.codes.length ∧ v.codes.getD (128 * b + c) 0 = escapeCode x.fmt then some (v.place, c) else none

/-- The escapes of a block checked against its knot list, entry by entry: each gives row place, element and the entry's
binary16 value (R95). -/
def knotEntries (s : State) (a : Nat) (x : Side) (cap b blk : Nat) :
    List (Nat × Nat) → Nat → Calc (List (Nat × Nat × Nat))
  | [], k =>
    if s.hNat a x.kn (b * knotSize cap) 2 ≠ k then .error { code := 0x0611, info := some (k + 65536 * (blk % 256), 0) } else .ok []
  | (p, c) :: rest, k =>
    let e := s.hNat a x.kn (b * knotSize cap + 4 + 4 * k) 4
    if k < s.hNat a x.kn (b * knotSize cap) 2 ∧ k < cap ∧ e / 65536 % 128 = c ∧ e / 2 ^ 23 = p % 512 then
      (knotEntries s a x cap b blk rest (k + 1)).map fun l => (p, 128 * b + c, e % 65536) :: l
    else .error { code := 0x0611, info := some (k + 65536 * (blk % 256), 0) }

/-- The knots of an operand: row place, element of the step, binary16 value. -/
def sideKnots (s : State) (a : Nat) (x : Side) (vs : List Vec) (kb k : Nat) : Calc (List (Nat × Nat × Nat)) :=
  if !x.esc then .ok [] else do
  let cap := (x.prof.map Prof.cap).getD 256
  let ls ← (List.range (ceilDiv k 128)).mapM fun b =>
    if s.hNat a x.kn (b * knotSize cap + 2) 1 ≠ (kb + b) % 256 then
      (.error { code := 0x0611, info := some (65536 * ((kb + b) % 256), 0) } : Calc _)
    else knotEntries s a x cap b (kb + b) (blockEscapes x vs b) 0
  return ls.flatten

/-- The knot that serves an element of a row, if the element escaped. -/
def knotAt (ks : List (Nat × Nat × Nat)) (place e : Nat) : Option Nat :=
  (ks.find? fun t => decide (t.1 = place) && decide (t.2.1 = e)).map fun t => t.2.2

/-! ## Values of elements (R81) -/

/-- A knot's value, a binary16 code, times a binary32 value (R72, R81). -/
def mulKnot (rtz : Bool) (h y : Nat) : Flagged Nat := (f32Widen 5 h).on fun k => f32Mul rtz k y

/-- A knot's value times an exact value in units of 2^-9, rounded once (R94); a knot that is an infinity or a NaN as R72
says. -/
def knotTimes (rtz : Bool) (h : Nat) (v : Int) : Flagged Nat :=
  match ffValue 5 h with
  | .nan => (0x7FC00000, flNan)
  | .inf n => if v = 0 then (0x7FC00000, flInvalid) else (signBit (n != decide (v < 0)) + 0x7F800000, 0)
  | .fin n m e => f32Round rtz (n != decide (v < 0)) (m * v.natAbs) 1 (e - 9)

/-- A signed numerator and power of two times a binary32 value, rounded once. A numerator of 0 gives +0, whatever the sign
of the code that a factor of 0 has met (DESIGN CHOICE, log entry 62). -/
def mulS2 (rtz : Bool) (v : Int × Int) (s2 : Nat) : Flagged Nat :=
  match f32Value s2 with
  | .fin _ m e => f32Round rtz (decide (v.1 < 0)) (v.1.natAbs * m) 1 (v.2 + e)
  | _ => (0, 0)

/-- The binary32 value of element `i` of a row, at absolute element index `e` (R66, R81): a code times its scales, a
knot times S2, a heartwood code with its own scale, or a floating value widened. -/
def elemValue (x : Side) (rtz : Bool) (v : Vec) (ks : List (Nat × Nat × Nat)) (i e : Nat) : Calc (Flagged Nat) :=
  let c := v.codes.getD i 0
  if x.fmt = 7 then .ok (f32OfInt rtz (codeInt 7 c), 0)
  else if 1 < x.fmt then .ok (f32Widen x.fmt c)
  else match x.prof with
  | none => .ok (f32OfInt rtz (codeInt x.fmt c), 0)
  | some _ => do
    let b := e / 128
    let mask ← hwMaskOf x v b
    if mask.testBit (e % 128) then
      let f ← hwFactor x v b
      return mulS2 rtz (codeInt 1 ((v.hwCodes b).getD (maskPlace mask (e % 128)) 0) * f, -9) v.s2
    else do
      let f ← elemFactor x v e
      if ¬ s2Ok v.s2 then throw { code := 0x0613, info := none }
      match knotAt ks v.place i with
      | some h => return mulKnot rtz h v.s2
      | none => return mulS2 rtz (codeInt x.fmt c * f, -9) v.s2

/-! ## Rounding to codes (R86 to R93) -/

/-- What quantising gathers over the rows of a step: bytes written, knot entries by block, counters of the quantiser
page, the max-abs statistics, main and heartwood, and numeric flags. -/
structure QOut where
  writes : List (Nat × Byte) := []
  knots : List (Nat × Nat) := []
  ctr : List (Nat × Nat) := []
  main : Nat := 0
  heart : Nat := 0
  flags : Nat := 0

/-- A counter rises by one. -/
def QOut.count (q : QOut) (off : Nat) : QOut := { q with ctr := (off, 1) :: q.ctr }

/-- How often a counter has risen. -/
def QOut.counted (q : QOut) (off : Nat) : Nat := q.ctr.foldl (fun n e => if e.1 = off then n + e.2 else n) 0

/-- Knot entries a block has. -/
def QOut.knotsOf (q : QOut) (b : Nat) : List Nat := (q.knots.filter fun e => e.1 = b).map Prod.snd

/-- `|x| / (m × s2)` as numerator and denominator; x finite, m in units of 2^-9. -/
def quotient (x m s2 : Nat) : Nat × Nat :=
  match f32Value x, f32Value s2 with
  | .fin _ mx ex, .fin _ ms es => let p := ratShift mx (ms * m) (ex - es + 9); (p.1, p.2)
  | _, _ => (0, 1)

/-- The code of a group factor computed by R90 from the largest magnitude of the group (a binary32 code), and whether it
was limited to 448. -/
def dynCode (a qmax s2 : Nat) : Nat × Bool :=
  if a = 0 then (0, false)
  else if f32IsInf a then (0x7E, true)
  else match (List.range 0x7F).find? fun c =>
      let q := quotient a (e4m3Units c) s2
      decide (c ≠ 0) && decide (q.1 ≤ qmax * q.2) with
    | some c => (c, false)
    | none => (0x7E, true)

/-- x / S2 as a binary16 knot value, and whether it was beyond the format (R93). -/
def knotValue (rtz : Bool) (x s2 : Nat) : Nat × Bool :=
  let sg := if f32Neg x then 0x8000 else 0
  if f32IsInf x then (sg + 0x7BFF, true)
  else match f32Value x, f32Value s2 with
  | .fin _ mx ex, .fin _ ms es =>
    let r := roundMag 5 rtz mx ms (ex - es)
    if 0x7BFF < r.1 then (sg + 0x7BFF, true) else (sg + r.1, false)
  | _, _ => (sg, false)

/-- One element quantised against a factor: its code, with the counters and the knot list (R86, R87, R89); a NaN sets
nan_in, since the conversion takes it as an operand (R66, R75). `hw` marks a
heartwood element, `c` its channel in block `b`, `place` its row in the step. -/
def quantOne (p : Prof) (rtz hw : Bool) (m place b c x : Nat) (q : QOut) : Nat × QOut :=
  let fmt := if hw then 1 else p.fmt
  let qmax := if fmt = 0 then 7 else 127
  let neg := f32Neg x
  let code (v : Nat) : Nat := if neg ∧ v ≠ 0 then 2 ^ fmtBits fmt - v else v
  if f32IsNan x then (0, { q.count 0x088 with flags := q.flags ||| flNan })
  else if m = 0 then (0, q)
  else
    let r := quotient (x % 2 ^ 31) m p.s2
    let v := if f32IsInf x then qmax + 1 else roundDiv rtz r.1 r.2
    if v ≤ qmax then (code v, q)
    else if p.esc ∧ ¬ hw then
      (if (q.knotsOf b).length < p.cap then
        let k := knotValue rtz x p.s2
        let q1 := { q with knots := q.knots ++ [(b, k.1 + 65536 * c + 2 ^ 23 * (place % 512))] }
        let q2 := q1.count 0x058
        (escapeCode fmt, if k.2 then q2.count 0x068 else q2)
      else (code qmax, (q.count 0x048).count 0x060))
    else (code qmax, q.count (if hw then 0x050 else 0x048))

/-- The factor of a scale code an output is quantised against (R82, R90). -/
def staticFactor (s2 code : Nat) : Calc Nat :=
  if 0x7F ≤ code then .error { code := 0x0612, info := none }
  else if s2Ok s2 then .ok (e4m3Units code) else .error { code := 0x0613, info := none }

/-- Elements quantised one after the other: channel, value, factor. -/
def quantList (p : Prof) (rtz hw : Bool) (place b : Nat) : List (Nat × Nat × Nat) → QOut → List Nat × QOut
  | [], q => ([], q)
  | (c, x, m) :: rest, q =>
    let r := quantOne p rtz hw m place b c x q
    let t := quantList p rtz hw place b rest r.2
    (r.1 :: t.1, t.2)

/-- The largest magnitude of values that are no NaN. -/
def maxMag (xs : List Nat) : Nat := xs.foldl (fun m x => if f32IsNan x then m else max m (x % 2 ^ 31)) 0

/-- Bytes to write at an offset of an array's scratchpads. -/
def bytesAt (off : Nat) (bs : List Byte) : List (Nat × Byte) := (List.range bs.length).zip bs |>.map fun e => (off + e.1, e.2)

/-- One output row quantised, block by block (R86 to R93, R428). `xs` holds the binary32 values of the row's elements
from block `ob` on, none for a column that is not live. -/
def quantRow (s : State) (a : Nat) (d : BitVec 512) (p : Prof) (rows place : Nat) (xs : List (Option Nat)) (q0 : QOut) :
    Calc QOut :=
  let rtz := tsRtz d
  let ob := tsOb d
  let blocks := ceilDiv xs.length 128
  let wBlocks := rowBlocks (tsOFmt d) (tsOPitch d)
  let l := hwLayout wBlocks rows p.hw
  let sc := s.handle a (tsOSc d)
  let hwH := s.handle a (tsOHw d)
  let oneBlock (i : Nat) (st : List Nat × QOut) : Calc (List Nat × QOut) := do
    let b := ob + i
    let vals := (xs.drop (128 * i)).take 128
    let mask := if p.hw = 0 then 0 else s.hNat a (tsOHw d) (16 * b) 16
    if p.hw < popCount mask ∧ p.hw ≠ 0 then throw { code := 0x0614, info := none }
    let chans := List.range vals.length
    let live (c : Nat) : Option Nat := vals.getD c none
    let isMain (c : Nat) : Bool := !mask.testBit c
    let q := { st.2 with
      main := max st.2.main (maxMag (chans.filterMap fun c => if isMain c then live c else none)),
      heart := max st.2.heart (maxMag (chans.filterMap fun c => if isMain c then none else live c)),
      ctr := (0x040, (chans.filter fun c => (live c).isSome).length) :: st.2.ctr }
    let gs := if p.group = 0 then 128 else p.group
    -- the groups of the block: codes of the scale entries, and what they write and count
    let scaleOf (g : Nat) (q : QOut) : Calc (Nat × QOut) :=
      let at_ := place * outScPitch (tsOFmt d) (tsOPitch d) p.group + 2 * g
      if p.group = 0 then (if s2Ok p.s2 then .ok (512, q) else .error { code := 0x0613, info := none })
      else if p.dyn then
        let members := chans.filter fun c => decide ((128 * b + c) / gs = g) && isMain c
        let r := dynCode (maxMag (members.filterMap live)) (if p.fmt = 0 then 7 else 127) p.s2
        let c := min r.1 p.clip
        let q1 := { q with writes := q.writes ++ bytesAt (hOff sc at_) (natBytes 2 (c + 256 * (g % 256))) }
        let q2 := if r.2 then q1.count 0x078 else q1
        .ok (e4m3Units c, if c = 0 then q2.count 0x080 else q2)
      else
        let entry := s.hNat a (tsOSc d) at_ 2
        (staticFactor p.s2 (entry % 256)).map fun m => (m, if entry % 256 = 0 then q.count 0x080 else q)
    let gFirst := 128 * b / gs
    let gCount := (128 * b + vals.length + gs - 1) / gs - gFirst
    let (ms, q) ← (List.range gCount).foldlM (fun (acc : List Nat × QOut) t => do
      let r ← scaleOf (gFirst + t) acc.2
      return (acc.1 ++ [r.1], r.2)) (([], q) : List Nat × QOut)
    let items := chans.map fun c =>
      match live c with
      | some x => if isMain c then (c, x, ms.getD ((128 * b + c) / gs - gFirst) 0) else (c, 0, 0)
      | none => (c, 0, 0)
    let (codes, q) := quantList p rtz false place b items q
    if p.hw = 0 then return (st.1 ++ codes, q)
    -- heartwood channels of the block; one that is not live holds its place as +0 (R92, R109)
    let hs := chans.filter fun c => !isMain c
    let at_ := l.2.2.1 + place * l.2.2.2 + 2 * b
    let (m, q) ← (if p.dyn then
        let r := dynCode (maxMag (hs.filterMap live)) 127 p.s2
        let q1 := { q with writes := q.writes ++ bytesAt (hOff hwH at_) (natBytes 2 (r.1 + 256 * (b % 256))) }
        let q2 := if r.2 then q1.count 0x078 else q1
        .ok (e4m3Units r.1, if r.1 = 0 then q2.count 0x080 else q2)
      else
        let entry := s.hNat a (tsOHw d) at_ 2
        (staticFactor p.s2 (entry % 256)).map fun m => (m, if entry % 256 = 0 then q.count 0x080 else q) : Calc (Nat × QOut))
    let (hcodes, q) := quantList p rtz true place b (hs.map fun c => (c, (live c).getD 0, m)) q
    let slice := hcodes ++ List.replicate (p.hw - hcodes.length) 0
    return (st.1 ++ codes,
      { q with writes := q.writes ++ bytesAt (hOff hwH (l.1 + place * l.2.1 + b * p.hw)) (packCodes 1 slice) })
  do
    let (codes, q) ← (List.range blocks).foldlM (fun st i => oneBlock i st) (([], q0) : List Nat × QOut)
    let fmt := tsOFmt d
    let off := 128 * tsOOff d + place * tsOPitch d + rowBytes fmt (ob * 128)
    return { q with writes := q.writes ++ bytesAt (hOff (s.handle a (tsOH d)) off) (packCodes fmt codes) }

/-- The knot lists of a step's output, written when all its rows are quantised (R93): the list of the step's i-th block
stands at i lists of full capacity from the base of its handle (DESIGN CHOICE, log entry 62). -/
def knotWrites (s : State) (a : Nat) (d : BitVec 512) (p : Prof) (cols : Nat) (q : QOut) : List (Nat × Byte) :=
  if !p.esc then [] else
  (List.range (ceilDiv cols 128)).flatMap fun i =>
    let es := q.knotsOf (tsOb d + i)
    bytesAt (hOff (s.handle a (tsOKn d)) (i * knotSize p.cap))
      (natBytes 4 (es.length + 65536 * ((tsOb d + i) % 256)) ++ es.flatMap fun e => natBytes 4 e)

end Sys2Proof.Machine
end

