-- ==== Sys2Proof/Machine/Compute.lean ====
section
/-! DEFINITION. What a tile step computes (chapters 4 to 7): the cells' sums, quantised products, convolution windows,
the epilogue, segment reductions and moves. A step reads the scratchpads as they are at its issue and gives the bytes it
will write (R152); a fault gives its code. -/

namespace Sys2Proof.Machine

/-- What a step leaves: bytes written by scratchpad offset, numeric flags, passes made, max-abs statistics (profile,
heartwood, value), counters of the quantiser page, pieces expanded and generated. -/
structure StepOut where
  writes : List (Nat × Byte) := []
  flags : Nat := 0
  passes : Nat := 0
  maxAbs : List (Nat × Bool × Word) := []
  qctr : List (Nat × Nat) := []
  pieces : Nat := 0
  padded : Nat := 0
  deriving DecidableEq, Repr

/-! ## Set and graph mode (R107, R109) -/

/-- Which rows and columns are live by the set mask. -/
def setLive (s : State) (a : Nat) (d : BitVec 512) : Calc (List Bool × List Bool) :=
  let m := tsM d
  let n := if tsOp d = 7 then tsK d else outCols d
  if !tsSet d then .ok (List.replicate m true, List.replicate n true) else
  let h := tsMsk d
  let live := s.hNat a h 0 2
  if m < live then .error { code := 0x053A, info := some (0, live) } else
  let rows := s.hNat a h 4 (4 * ceilDiv m 32)
  let lanes := s.hNat a h (4 + 4 * ceilDiv m 32) 16
  .ok ((List.range m).map fun i => decide (i < live) && rows.testBit i,
    (List.range n).map fun j => lanes.testBit (j % 128))

/-- The index list of a gather: none for a null entry (R107). -/
def indexList (s : State) (a : Nat) (d : BitVec 512) (n : Nat) : List (Option Nat) :=
  (List.range n).map fun i =>
    let v := s.hNat a (tsIdx d) (2 * i) 2
    if v = 0xFFFF then none else some v

/-- Whether row `r` of an operand and its quantiser parts lie inside their handles. -/
def rowInside (s : State) (a : Nat) (x : Side) (r kb k : Nat) : Bool :=
  let size (h : Nat) : Nat := hSize (s.handle a h)
  let last := kb * 128 + k
  decide (x.off + r * x.pitch + rowBytes x.fmt last ≤ size x.h)
    && (decide (x.group = 0) || decide (r * x.scPitch + 2 * ceilDiv last x.group ≤ size x.sc))
    && (!x.s2Handle || decide (4 * r + 4 ≤ size x.s2))
    && (decide (x.hwCount = 0) || decide (hwSize (rowBlocks x.fmt x.pitch) (r + 1) x.hwCount ≤ size x.hw))

/-- The rows of an operand, straight or gathered, dead where the mask or a null index says so. The heartwood regions of a
gathered operand are laid out for as many rows as the step gathers, whichever rows the index list names; the spec does
not say how many they hold (DESIGN CHOICE, log entry 62). -/
def sideVecs (s : State) (a : Nat) (d : BitVec 512) (x : Side) (gather : Bool) (live : List Bool) :
    Calc (List Vec) :=
  let kb := tsKb d
  let k := tsK d
  let rows := live.length
  if gather then
    let idx := indexList s a d rows
    (List.range rows).mapM fun i =>
      match idx.getD i none with
      | none => (.ok (deadVec k i) : Calc Vec)
      | some r =>
        if ¬ rowInside s a x r kb k then .error { code := 0x0538, info := some (0, r) }
        else .ok (if live.getD i false then sideVec s a x rows r i kb k else deadVec k i)
  else .ok ((List.range rows).map fun i => if live.getD i false then sideVec s a x rows i i kb k else deadVec k i)

/-! ## Convolution windows (R126 to R133) -/

/-- What the expansion engine makes: the expanded rows, the bytes it writes into x_h, flags, and its piece counts. -/
structure Expanded where
  vecs : List Vec
  writes : List (Nat × Byte)
  flags : Nat
  pieces : Nat
  padded : Nat

/-- The constant padding code in the input format, with its flags (R125). -/
def padCode (x : Side) (rtz : Bool) (g : Geo) : Flagged Nat :=
  if x.fmt ≤ 1 then (g.padVal % 2 ^ fmtBits x.fmt, 0)
  else (f32Widen 5 g.padVal).on fun v => ffConvert x.fmt rtz v

/-- The scale entry of an expanded group, its tag checked against the source's and rewritten (R133). The groups beyond
the step's last channel, which hold zero codes, are copied and checked like every other (log entry 24). -/
def expandedEntry (x : Side) (src : Option Vec) (channel index : Nat) : Calc Nat :=
  match src with
  | none => .ok (0x38 + 256 * (index % 256))
  | some v =>
    let g := channel / x.group
    let e := v.groupEntry g
    if e / 256 % 256 ≠ g % 256 then
      .error { code := 0x0610, info := skewInfo g (e / 256 % 256) ((x.prof.map Prof.num).getD 0) x.which v.row }
    else .ok (e % 256 + 256 * (index % 256))

/-- One expanded row (R131, R133): the row of position `p`, and the bytes it writes. With `s2_src` = 1 its second-level
scale is the word of output position `p`, since one row may draw on several source rows, each with its own (DESIGN CHOICE,
log entry 24). -/
def expandRow (s : State) (a : Nat) (d : BitVec 512) (x : Side) (g : Geo) (p : Nat) :
    Calc (Vec × List (Nat × Byte)) := do
  let l := xLayout x g (tsM d)
  let xh := s.handle a (tsXH d)
  let cp := geoCp x g
  let k := geoK x g
  let cEnd := g.c0 + g.cn
  let positions := g.aRows * g.inW
  let taps := (List.range (g.th * g.tw)).map fun t =>
    (tapSource g p t).map fun yx => sideVec s a x positions ((yx.1 - g.ay0) * g.inW + yx.2) p 0 cEnd
  let pad := (padCode x (tsRtz d) g).1
  let codes := taps.flatMap fun v => (List.range cp).map fun i =>
    if g.cn ≤ i then 0 else match v with
    | none => pad
    | some w => w.codes.getD (g.c0 + i) 0
  let entries ← (if x.group = 0 then .ok [] else
    (List.range (ceilDiv k x.group)).mapM fun t =>
      expandedEntry x (taps.getD (t * x.group / cp) none) (g.c0 + t * x.group % cp) t)
  let blocks := if x.hwCount = 0 then [] else List.range (k / 128)
  let srcOf (b : Nat) : Option Vec := taps.getD (b * 128 / cp) none
  let blkOf (b : Nat) : Nat := (g.c0 + b * 128 % cp) / 128
  let masks := blocks.map fun b => s.hNat a x.hw (16 * blkOf b) 16
  let hwCodes := blocks.map fun b => match srcOf b with
    | some v => v.hwCodes (blkOf b)
    | none => List.replicate x.hwCount 0
  let hwEntries := blocks.map fun b =>
    (match srcOf b with
    | none => 0x38
    | some v => v.hwEntry (blkOf b) % 256) + 256 * (b % 256)
  let vec : Vec := {
    live := true, row := p, place := p, codes := codes,
    s2 := match x.prof with
      | none => 0x3F800000
      | some q => if q.s2src then s.hNat a x.s2 (4 * p) 4 else q.s2,
    groupEntry := fun t => entries.getD t 0, hwMask := fun b => masks.getD b 0,
    hwCodes := fun b => hwCodes.getD b [], hwEntry := fun b => hwEntries.getD b 0 }
  let writes := bytesAt (hOff xh (l.codes + p * l.codesPitch)) (packCodes x.fmt codes)
    ++ bytesAt (hOff xh (l.scales + p * l.scalesPitch)) (entries.flatMap fun e => natBytes 2 e)
    ++ bytesAt (hOff xh l.map) (masks.flatMap fun v => natBytes 16 v)
    ++ bytesAt (hOff xh (l.slice + p * l.slicePitch)) (packCodes 1 hwCodes.flatten)
    ++ bytesAt (hOff xh (l.hwScales + p * l.hwPitch)) (hwEntries.flatMap fun e => natBytes 2 e)
  return (vec, writes)

/-- The expansion of a step's live rows (R131 to R133, R145). -/
def expand (s : State) (a : Nat) (d : BitVec 512) (x : Side) (g : Geo) (live : List Bool) : Calc Expanded := do
  let cp := geoCp x g
  let rows ← (List.range live.length).mapM fun p =>
    if live.getD p false then expandRow s a d x g p else (.ok (deadVec (geoK x g) p, []) : Calc _)
  let runs := cp / g.cb
  let real := ceilDiv g.cn g.cb
  let taps := (List.range live.length).flatMap fun p =>
    if live.getD p false then (List.range (g.th * g.tw)).map fun t => (tapSource g p t).isSome else []
  let sources := (taps.filter id).length
  let anyPad := taps.any (!·)
  return { vecs := rows.map Prod.fst, writes := rows.flatMap Prod.snd,
           flags := if anyPad then (padCode x (tsRtz d) g).2 else 0,
           pieces := sources * real, padded := taps.length * runs - sources * real }

/-! ## The cells (R69 to R73, R84, R85) -/

/-- Integer pass sums added into the column register, saturating (R70). -/
def intColumn (plen : Nat) : Nat → List Int → List Int → Flagged Int → Flagged Int
  | 0, _, _, acc => acc
  | f + 1, ws, xs, acc =>
    if ws.isEmpty then acc else
    let p := ((ws.take plen).zip (xs.take plen)).foldl (fun t e => t + e.1 * e.2) 0
    intColumn plen f (ws.drop plen) (xs.drop plen) (acc.on fun r => i32Sat (r + p))

/-- A floating pass: each cell adds its rounded product to the sum from the north (R71, R73). What enters at row 0 the
rule leaves open: the model takes +0 (DESIGN CHOICE, log entry 59). -/
def floatPass (rtz : Bool) (ps : List (Nat × Nat)) : Flagged Nat :=
  ps.foldl (fun acc e => acc.on fun t => (f32Mul rtz e.1 e.2).on fun q => f32Add rtz t q) (0, 0)

/-- Floating pass sums added into the column register (R71, R73); the first pass fills it. -/
def floatColumn (rtz : Bool) : Nat → List (Nat × Nat) → Option (Flagged Nat) → Flagged Nat
  | 0, _, acc => acc.getD (0, 0)
  | f + 1, ps, acc =>
    if ps.isEmpty then acc.getD (0, 0) else
    let p := floatPass rtz (ps.take 128)
    floatColumn rtz f (ps.drop 128) (some (match acc with
      | none => p
      | some r => r.on fun u => p.on fun v => f32Add rtz u v))

/-- A contribution of the knot unit added into the accumulator (R94). -/
def addKnot (rtz : Bool) (acc k : Flagged Nat) : Flagged Nat := acc.on fun t => k.on fun q => f32Add rtz t q

/-- An exact product, in units of 2^e, added into the accumulator (R84). -/
def addExact (rtz : Bool) (acc : Flagged Nat) (v : Int) (e : Int) : Flagged Nat :=
  acc.on fun t => (f32Round rtz (decide (v < 0)) v.natAbs 1 e).on fun q => f32Add rtz t q

/-- Whether an integer operand is scaled: it has groups, escapes or heartwood. R84 names groups and escapes; that
heartwood alone takes the binary32 path too is a DESIGN CHOICE (log entry 59). -/
def Side.scaled (x : Side) : Bool := decide (x.group ≠ 0) || x.esc || decide (x.hwCount ≠ 0)

/-- The effective group of a step: the smaller of the operands' sizes (R84); a block of 128 when neither has groups, which
the rule leaves open (DESIGN CHOICE, log entry 59). -/
def effGroup (xw xa : Side) : Nat :=
  if xw.group = 0 then (if xa.group = 0 then 128 else xa.group) else if xa.group = 0 then xw.group else min xw.group xa.group

/-- The main groups of block `b` added in increasing order (R84, R85). -/
def mainGroups (xw xa : Side) (rtz : Bool) (kb k b : Nat) (vw va : Vec) (acc : Flagged Nat) : Calc (Flagged Nat) :=
  let eff := effGroup xw xa
  (List.range (128 / eff)).foldlM (fun acc t => do
    let lo := 128 * b + eff * t
    if k ≤ lo then return acc
    let p := (List.range (min eff (k - lo))).foldl (fun r i =>
      r + cellInt xw (vw.codes.getD (lo + i) 0) * cellInt xa (va.codes.getD (lo + i) 0)) (0 : Int)
    let fw ← elemFactor xw vw (128 * kb + lo)
    let fa ← elemFactor xa va (128 * kb + lo)
    return addExact rtz acc (p * fw * fa) (-18)) acc

/-- The knot contributions of block `b` (R94): those of the activation list first, then those of the weight list alone
(DEDUCED, log entry 23). -/
def blockKnots (xw xa : Side) (rtz : Bool) (kb k b : Nat) (vw va : Vec) (kw ka : List (Nat × Nat × Nat))
    (acc : Flagged Nat) : Calc (Flagged Nat) := do
  let es := (List.range 128).filterMap fun c => if 128 * b + c < k then some (128 * b + c) else none
  let acc ← es.foldlM (fun acc e =>
    match knotAt ka va.place e with
    | none => (.ok acc : Calc (Flagged Nat))
    | some h => match knotAt kw vw.place e with
      | some h2 => .ok (addKnot rtz acc ((f32Widen 5 h2).on fun k => mulKnot rtz h k))
      | none => do
        let f ← elemFactor xw vw (128 * kb + e)
        return addKnot rtz acc (knotTimes rtz h (cellInt xw (vw.codes.getD e 0) * f))) acc
  es.foldlM (fun acc e =>
    match knotAt kw vw.place e, knotAt ka va.place e with
    | some h, none => do
      let f ← elemFactor xa va (128 * kb + e)
      return addKnot rtz acc (knotTimes rtz h (cellInt xa (va.codes.getD e 0) * f))
    | _, _ => return acc) acc

/-- What an operand gives a heartwood row: the group its factor belongs to (0 for the heartwood group), its integer and
its factor (R92; an operand whose channel is no heartwood gives its main code, DEDUCED, log entry 23). -/
def hwTerm (x : Side) (kb : Nat) (v : Vec) (mask b c : Nat) : Calc (Nat × Int × Nat) := do
  let e := 128 * b + c
  if mask.testBit c then
    let f ← hwFactor x v (kb + b)
    return (0, codeInt 1 ((v.hwCodes (kb + b)).getD (maskPlace mask c) 0), f)
  else
    let f ← elemFactor x v (128 * kb + e)
    return (1 + (if x.group = 0 then 0 else (128 * kb + e) / x.group), cellInt x (v.codes.getD e 0), f)

/-- The heartwood groups of block `b` (R85, R92). Where its channels meet in several pairs of factors, each pair makes one
product of its own, and the products are added in the order of their first channels (DESIGN CHOICE, log entry 23). -/
def blockHeart (xw xa : Side) (rtz : Bool) (kb k b : Nat) (vw va : Vec) (acc : Flagged Nat) : Calc (Flagged Nat) := do
  let mw ← hwMaskOf xw vw (kb + b)
  let ma ← hwMaskOf xa va (kb + b)
  let cs := (List.range 128).filter fun c => decide (128 * b + c < k) && (mw.testBit c || ma.testBit c)
  let terms ← cs.mapM fun c => do
    let tw ← hwTerm xw kb vw mw b c
    let ta ← hwTerm xa kb va ma b c
    return ((tw.1, ta.1), tw.2.1 * ta.2.1, tw.2.2 * ta.2.2)
  let keys := terms.foldl (fun (l : List (Nat × Nat)) t => if l.contains t.1 then l else l ++ [t.1]) []
  return keys.foldl (fun acc key =>
    let mine := terms.filter fun t => t.1 == key
    let p := mine.foldl (fun r t => r + t.2.1) (0 : Int)
    let f := (mine.head?.map fun t => t.2.2).getD 0
    addExact rtz acc (p * f) (-18)) acc

/-- One quantised product (R84, R85). -/
def scaledCell (xw xa : Side) (rtz : Bool) (kb k : Nat) (kw ka : List (Nat × Nat × Nat)) (vw va : Vec) :
    Calc (Flagged Nat) := do
  let blocks := List.range (ceilDiv k 128)
  let acc ← blocks.foldlM (fun acc b => do
    let acc ← mainGroups xw xa rtz kb k b vw va acc
    blockKnots xw xa rtz kb k b vw va kw ka acc) ((0, 0) : Flagged Nat)
  let acc ← blocks.foldlM (fun acc b => blockHeart xw xa rtz kb k b vw va acc) acc
  if (xw.prof.isSome ∧ ¬ s2Ok vw.s2) ∨ (xa.prof.isSome ∧ ¬ s2Ok va.s2) then throw { code := 0x0613, info := none }
  return (acc.on fun t => f32Mul rtz t vw.s2).on fun t => f32Mul rtz t va.s2

/-- A result of the cells as a 32-bit word: INT32, or binary32 when the operands are floating or scaled. -/
def cellWord (xw xa : Side) (d : BitVec 512) (kw ka : List (Nat × Nat × Nat)) (vw va : Vec) : Calc (Flagged Nat) :=
  let k := tsK d
  if 1 < xw.fmt then
    .ok (floatColumn (tsRtz d) (k / 128 + 1)
      ((vw.codes.zip va.codes).map fun e => ((f32Widen xw.fmt e.1).1, (f32Widen xa.fmt e.2).1)) none)
  else if xw.scaled || xa.scaled then scaledCell xw xa (tsRtz d) (tsKb d) k kw ka vw va
  else
    let r := intColumn (passLen d) (k / passLen d + 1) (vw.codes.map (codeInt xw.fmt)) (va.codes.map (codeInt xa.fmt))
      (0, 0)
    .ok (wrapInt r.1 32, r.2)

/-! ## The epilogue and the output (R66, R106) -/

/-- The epilogue of a binary32 value with its operand b. -/
def epilogue (d : BitVec 512) (b x : Nat) : Flagged Nat :=
  let rtz := tsRtz d
  let y : Flagged Nat := match tsFn1 d with
    | 1 => f32Add rtz x b
    | 2 => f32Mul rtz x b
    | 3 => f32Max x b
    | 4 => f32Min x b
    | _ => (x, 0)
  y.on fun v => match tsFn2 d with
    | 0 => (v, 0)
    | 3 => f32Max v (tsOpb d)
    | 4 => f32Min v (tsOpb d)
    | code => tableFn code v

/-- The operand b of an output element (R106). -/
def bValue (s : State) (a : Nat) (d : BitVec 512) (i j : Nat) : Nat :=
  if tsBsrc d = 1 then s.hNat a (tsBH d) (4 * j) 4
  else if tsBsrc d = 2 then s.hNat a (tsBH d) (i * tsOPitch d + 4 * j) 4 else 0

/-- A binary32 value converted to a floating or INT32 output code (R66). -/
def outCode (d : BitVec 512) (x : Nat) : Flagged Nat :=
  if tsOFmt d = 7 then (f32ToI32 (tsRtz d) x).on fun v => (wrapInt v 32, 0) else ffConvert (tsOFmt d) (tsRtz d) x

/-- Output rows written: each a place and its binary32 values, none for a column that is not live (R66, R86, R109). -/
def writeRows (s : State) (a : Nat) (d : BitVec 512) (rows cols : Nat) (vals : List (Nat × List (Option Nat)))
    (out : StepOut) : Calc StepOut := do
  match (if tsOFmt d ≤ 1 then outProf s a d else none) with
  | some p =>
    let q ← vals.foldlM (fun q e => quantRow s a d p rows e.1 e.2 q) ({} : QOut)
    return { out with
      writes := out.writes ++ q.writes ++ knotWrites s a d p cols q,
      flags := out.flags ||| q.flags,
      maxAbs := [(p.num, false, BitVec.ofNat 32 q.main), (p.num, true, BitVec.ofNat 32 q.heart)],
      qctr := out.qctr ++ q.ctr }
  | none =>
    let fmt := tsOFmt d
    return vals.foldl (fun o e =>
      let cs := e.2.map fun x => match x with
        | none => ((0, 0) : Flagged Nat)
        | some v => outCode d v
      let off := 128 * tsOOff d + e.1 * tsOPitch d + rowBytes fmt (tsOb d * 128)
      { o with
        writes := o.writes ++ bytesAt (hOff (s.handle a (tsOH d)) off) (packCodes fmt (cs.map Prod.fst)),
        flags := cs.foldl (fun f c => f ||| c.2) o.flags }) out

/-- The epilogue of every output value, and the rows written. `asInt` marks INT32 words (R66). -/
def emitRows (s : State) (a : Nat) (d : BitVec 512) (asInt : Bool) (cols : List Bool) (rows : List (Nat × List Nat))
    (out : StepOut) : Calc StepOut :=
  let done := rows.map fun e => (e.1, (List.range e.2.length).map fun j =>
    if cols.getD j false then
      let w := e.2.getD j 0
      some (epilogue d (bValue s a d e.1 j) (if asInt then f32OfInt (tsRtz d) (i32 w) else w))
    else none)
  let flags := done.foldl (fun f e => e.2.foldl (fun f v => f ||| ((v.map Prod.snd).getD 0)) f) out.flags
  writeRows s a d (tsM d) (tsN d) (done.map fun e => (e.1, e.2.map fun v => v.map Prod.fst)) { out with flags := flags }

/-! ## Steps by kind (R105) -/

/-- The knots of both operands for the cells, whose own computation is `run`. Where a knot list and a scale stream of one
step have both slipped, the two meet: the fault is the scale skew, and the knot skew is counted beside it (R96). -/
def withKnots {α : Type} (ks : Calc (List (Nat × Nat × Nat) × List (Nat × Nat × Nat)))
    (run : List (Nat × Nat × Nat) → List (Nat × Nat × Nat) → Calc α) : Calc α :=
  match ks with
  | .ok k => run k.1 k.2
  | .error e => match run [] [] with
    | .error f => if f.code = 0x0610 then .error { f with knotSkew := true } else .error e
    | .ok _ => .error e

/-- MATMUL, CONV and GMM. -/
def computeCells (s : State) (a : Nat) (d : BitVec 512) : Calc StepOut := do
  let xw := sideW s a d
  let xa := sideA s a d
  let n := tsN d
  let gw := decide (tsOp d = 5) && decide (tsSub d = 1)
  let ga := decide (tsOp d = 5) && decide (tsSub d = 0)
  let (rowsLive, colsLive) ← setLive s a d
  let vw ← sideVecs s a d xw gw colsLive
  let ex ← (if tsOp d = 2 then expand s a d xa (s.geo a d) rowsLive
    else do
      let vs ← sideVecs s a d xa ga rowsLive
      return ⟨vs, [], 0, 0, 0⟩ : Calc Expanded)
  let knots : Calc (List (Nat × Nat × Nat) × List (Nat × Nat × Nat)) := do
    let kw ← sideKnots s a xw vw (tsKb d) (tsK d)
    let ka ← sideKnots s a xa ex.vecs (tsKb d) (tsK d)
    return (kw, ka)
  let colOn := vw.map fun v => v.live
  let asInt := decide (xw.fmt ≤ 1) && !(xw.scaled || xa.scaled)
  let liveVs := ex.vecs.filter fun v => v.live
  let (rows, consumed) ← withKnots knots fun kw ka => do
    let rows ← liveVs.mapM fun va => do
      let ws ← vw.mapM fun w => if w.live then cellWord xw xa d kw ka w va else (.ok (0, 0) : Calc (Flagged Nat))
      return (va.place, ws)
    return (rows, kw.length + ka.length)
  let flags0 := rows.foldl (fun f e => e.2.foldl (fun f w => f ||| w.2) f) ex.flags
  let pm := s.handle a (tsPH d)
  let pOff (i : Nat) : Nat := hOff pm (128 * tsPOff d + 512 * i)
  let summed := rows.map fun e => (e.1, (List.range n).map fun j =>
    let w := (e.2.getD j (0, 0)).1
    if tsDest d = 1 ∨ tsDest d = 2 then
      let old := bytesNat (s.spBytes a (pOff e.1 + 4 * j) 4)
      if asInt then (i32Sat (i32 old + i32 w)).on fun v => (wrapInt v 32, 0) else f32Add (tsRtz d) old w
    else (w, 0))
  let flags := summed.foldl (fun f e => e.2.foldl (fun f w => f ||| w.2) f) flags0
  let words := summed.map fun e => (e.1, e.2.map Prod.fst)
  let pmWrites := if tsDest d = 3 then [] else words.flatMap fun e => bytesAt (pOff e.1) (packCodes 7 e.2)
  let out : StepOut := {
    writes := ex.writes ++ pmWrites, flags := flags, passes := mainPasses d + hwPasses s a d,
    qctr := if consumed = 0 then [] else [(0x070, consumed)],
    pieces := ex.pieces, padded := ex.padded }
  if tsDest d < 2 then return out
  emitRows s a d asInt colOn words out

/-- ELTWISE (R106). -/
def computeEltwise (s : State) (a : Nat) (d : BitVec 512) : Calc StepOut := do
  let xa := sideA s a d
  let n := tsN d
  let (rowsLive, colsLive) ← setLive s a d
  let live := (List.range (tsM d)).filter fun i => rowsLive.getD i false
  if tsSrc d then
    let rows := live.map fun i =>
      (i, unpackCodes 7 (s.hBytes a (tsPH d) (128 * tsPOff d + 512 * i) (4 * n)) n)
    emitRows s a d (decide (xa.fmt = 7)) colsLive rows {}
  else
    let vs := live.map fun i => sideVec s a xa (tsM d) i i (tsKb d) n
    let knots := (sideKnots s a xa vs (tsKb d) n).map fun ks => (([] : List (Nat × Nat × Nat)), ks)
    let (rows, consumed) ← withKnots knots fun _ ks => do
      let rows ← vs.mapM fun v => do
        let xs ← (List.range n).mapM fun j =>
          if colsLive.getD j false then elemValue xa (tsRtz d) v ks j (128 * tsKb d + j)
          else (.ok (0, 0) : Calc (Flagged Nat))
        return (v.place, xs)
      return (rows, ks.length)
    let flags := rows.foldl (fun f e => e.2.foldl (fun f w => f ||| w.2) f) 0
    emitRows s a d false colsLive (rows.map fun e => (e.1, e.2.map Prod.fst))
      { flags := flags, qctr := if consumed = 0 then [] else [(0x070, consumed)] }

/-- The value of channel `c` of one POOL window: the largest, or the mean, of the counted taps (R137). -/
def poolValue (rtz avg : Bool) (taps : List (Flagged Nat)) : Flagged Nat :=
  match taps with
  | [] => (0, 0)
  | t :: ts =>
    if avg then
      (ts.foldl (fun acc x => acc.on fun u => x.on fun v => f32Add rtz u v) t).on fun v =>
        f32DivNat rtz v taps.length
    else ts.foldl (fun acc x => acc.on fun u => x.on fun v => f32Max u v)
      (t.on fun v => if f32IsNan v then (0x7FC00000, flNan) else (v, 0))

/-- The second-level scale of a tap of a POOL step: with s2_src = 1, that of the tap's own source row (R81); for a
constant-padded tap, which has no source row, the spec states none, and it is free (log entry 3). -/
def poolS2 (s : State) (a : Nat) (x : Side) (g : Geo) (p t : Nat) : Nat :=
  match x.prof with
  | none => 0x3F800000
  | some q =>
    if !q.s2src then q.s2
    else match tapSource g p t with
      | some yx => s.hNat a x.s2 (4 * ((yx.1 - g.ay0) * g.inW + yx.2)) 4
      | none => if g.padVal = 0 then 0x3F800000 else 1 + fld (Config.unstated 8 [p, t]) 0 32 % 0x7F7FFFFF

/-- POOL (R137). -/
def computePool (s : State) (a : Nat) (d : BitVec 512) : Calc StepOut := do
  let xa := sideA s a d
  let g := s.geo a d
  let cp := geoCp xa g
  let (rowsLive, colsLive) ← setLive s a d
  let ex ← expand s a d xa g rowsLive
  let live := ex.vecs.filter fun v => v.live
  let rows ← live.mapM fun v => do
    let xs ← (List.range g.cn).mapM fun c => do
      let taps ← ((List.range (g.th * g.tw)).filter fun t => !g.skipPad || tapInside g v.place t).mapM fun t =>
        elemValue xa (tsRtz d) { v with s2 := poolS2 s a xa g v.place t } [] (t * cp + c) (t * cp + c)
      return poolValue (tsRtz d) (decide (tsSub d = 1)) taps
    return (v.place, xs)
  let flags := rows.foldl (fun f e => (e.2.zip colsLive).foldl (fun f w => if w.2 then f ||| w.1.2 else f) f)
    (if g.skipPad then 0 else ex.flags)
  writeRows s a d (tsM d) g.cn
    (rows.map fun e => (e.1, (List.range e.2.length).map fun j =>
      if colsLive.getD j false then some (e.2.getD j (0, 0)).1 else none))
    { writes := ex.writes, flags := flags, pieces := ex.pieces, padded := ex.padded }

/-- The code a segment without a live row yields (R108). -/
def emptySegment (int : Bool) (sub : Nat) : Nat :=
  match sub with
  | 1 => if int then 0x80000000 else 0xFF800000
  | 2 => if int then 0x7FFFFFFF else 0x7F800000
  | 4 => 0xFFFFFFFF
  | _ => 0

/-- The place of the first maximum of binary32 values; with a NaN among them it is not stated (log entry 3). That
such a NaN sets nan_in is a DESIGN CHOICE (log entry 59): R75 names multiply, add, conversion and function only. -/
def argmaxF32 (xs : List (Nat × Nat)) : Flagged Nat :=
  if xs.any fun e => f32IsNan e.2 then (fld (Config.unstated 2 (xs.map Prod.snd)) 0 32, flNan)
  else ((xs.foldl (fun (m : Option (Nat × Nat)) e => match m with
    | none => some e
    | some b => if f32Rank b.2 < f32Rank e.2 then some e else m) none).elim 0 Prod.fst, 0)

/-- One reduced value of a segment: the live rows' offsets in the segment and their values (R108). -/
def segValue (d : BitVec 512) (int : Bool) (xs : List (Nat × Nat)) : Flagged Nat :=
  let rtz := tsRtz d
  let sub := tsSub d
  match xs with
  | [] => (emptySegment int sub, 0)
  | x :: rest =>
    if int then
      let v (e : Nat × Nat) : Int := i32 e.2
      let sum : Flagged Int := rest.foldl (fun (acc : Flagged Int) e => acc.on fun t => i32Sat (t + v e)) (v x, 0)
      match sub with
      | 0 => sum.on fun t => (wrapInt t 32, 0)
      | 1 => (wrapInt (rest.foldl (fun m e => max m (v e)) (v x)) 32, 0)
      | 2 => (wrapInt (rest.foldl (fun m e => min m (v e)) (v x)) 32, 0)
      | 3 => (rest.foldl (fun (acc : Flagged Nat) e => acc.on fun t => f32Add rtz t (f32OfInt rtz (v e)))
          (f32OfInt rtz (v x), 0)).on fun t => (f32QuotI32 rtz t xs.length).on fun r => (wrapInt r 32, 0)
      | _ => ((rest.foldl (fun m e => if v m < v e then e else m) x).1, 0)
    else
      let first : Flagged Nat := if f32IsNan x.2 then (0x7FC00000, flNan) else (x.2, 0)
      match sub with
      | 0 => rest.foldl (fun acc e => acc.on fun t => f32Add rtz t e.2) first
      | 1 => rest.foldl (fun acc e => acc.on fun t => f32Max t e.2) first
      | 2 => rest.foldl (fun acc e => acc.on fun t => f32Min t e.2) first
      | 3 => (rest.foldl (fun acc e => acc.on fun t => f32Add rtz t e.2) first).on fun t => f32DivNat rtz t xs.length
      | _ => argmaxF32 xs

/-- SEGRED (R108): integer input is reduced as INT32, floating input as binary32. -/
def computeSegred (s : State) (a : Nat) (d : BitVec 512) : Calc StepOut := do
  let xa := sideA s a d
  let m := tsM d
  let n := tsN d
  let segs := tsOpa d % 65536
  let int := fmtInt xa.fmt
  let (rowsLive, colsLive) ← setLive s a d
  let offs := (List.range (segs + 1)).map fun t => s.hNat a (tsSeg d) (2 * t) 2
  let bad := (List.range segs).find? fun t =>
    decide (offs.getD (t + 1) 0 < offs.getD t 0) || decide (m < offs.getD (t + 1) 0)
  match bad with
  | some t => throw { code := 0x0539, info := some (0, t) }
  | none => pure ()
  let codes := (List.range m).map fun i =>
    unpackCodes xa.fmt (s.hBytes a xa.h (xa.off + i * xa.pitch) (rowBytes xa.fmt n)) n
  let word (c : Nat) : Flagged Nat := if int then (wrapInt (codeInt xa.fmt c) 32, 0) else f32Widen xa.fmt c
  let out := (List.range segs).foldl (fun (o : StepOut) t =>
    let lo := offs.getD t 0
    let rows := (List.range (offs.getD (t + 1) 0 - lo)).filter fun i => rowsLive.getD (lo + i) false
    let vals := (List.range n).map fun j =>
      if colsLive.getD j false then
        let ws := rows.map fun i => (i, word ((codes.getD (lo + i) []).getD j 0))
        let r := segValue d int (ws.map fun e => (e.1, e.2.1))
        (r.1, ws.foldl (fun f e => f ||| e.2.2) r.2)
      else (0, 0)
    { o with
      writes := o.writes ++ bytesAt (hOff (s.handle a (tsOH d)) (128 * tsOOff d + t * tsOPitch d))
        (packCodes 7 (vals.map Prod.fst)),
      flags := vals.foldl (fun f v => f ||| v.2) o.flags }) ({} : StepOut)
  return out

/-- MOVE (R108): a copy row by row, or a transpose. With a set mask, a row or column that is not live is not copied, or
is written as +0 (R109). -/
def computeMove (s : State) (a : Nat) (d : BitVec 512) : Calc StepOut := do
  let xa := sideA s a d
  let m := tsM d
  let k := tsK d
  let (rowsLive, colsLive) ← setLive s a d
  let o := s.handle a (tsOH d)
  let live (i : Nat) : Bool := rowsLive.getD i false
  let row (i : Nat) : List Nat :=
    unpackCodes xa.fmt (s.hBytes a xa.h (xa.off + i * xa.pitch) (rowBytes xa.fmt k)) k
  let col (j : Nat) : Bool := colsLive.getD j false
  let base (i : Nat) : Nat := hOff o (128 * tsOOff d + i * tsOPitch d)
  let copied := (List.range m).map fun i =>
    (List.range k).map fun j => if live i && col j then (row i).getD j 0 else 0
  if tsSub d = 0 then
    return { writes := (List.range m).flatMap fun i =>
      if live i then bytesAt (base i) (packCodes xa.fmt (copied.getD i [])) else [] }
  else
    return { writes := (List.range k).flatMap fun j =>
      bytesAt (base j) (packCodes xa.fmt (copied.map fun r => r.getD j 0)) }

/-- The bytes a step reads and writes, a gathered operand's by the rows its index list names (R107, R152). -/
def stepTouched (s : State) (a : Nat) (d : BitVec 512) : List Use :=
  let kb := tsKb d
  let last := kb * 128 + tsK d
  let rows : List Use :=
    if tsOp d = 5 then
      let x := if tsSub d = 0 then sideA s a d else sideW s a d
      let mem : SpMem := if tsSub d = 0 then .am else .wm
      ((indexList s a d (if tsSub d = 0 then tsM d else tsN d)).filterMap id).flatMap fun r =>
        if ¬ rowInside s a x r kb (tsK d) then [] else
        [useAt x.h [mem] (x.off + r * x.pitch + rowBytes x.fmt (kb * 128))
          (rowBytes x.fmt last - rowBytes x.fmt (kb * 128)) (fmtBits x.fmt) false]
        ++ (if x.group = 0 then [] else [useAt x.sc [mem] (r * x.scPitch + 2 * (kb * 128 / x.group))
          (2 * (ceilDiv last x.group - kb * 128 / x.group)) 16 false])
        ++ (if x.s2Handle then [useAt x.s2 [.wm, .am] (4 * r) 4 32 false] else [])
        ++ (if x.hwCount = 0 then [] else hwTouched x.hw [mem] (rowBlocks x.fmt x.pitch)
          (if tsSub d = 0 then tsM d else tsN d) x.hwCount kb (ceilDiv (tsK d) 128) r 1 false false)
    else []
  (stepRegions s a d true).filter (fun u => decide (u.len ≠ 0)) ++ rows

/-- What a step computes, by its kind (R105). -/
def computeStep (s : State) (a : Nat) (d : BitVec 512) : Calc StepOut :=
  match tsOp d with
  | 1 | 2 | 5 => computeCells s a d
  | 3 => computePool s a d
  | 4 => computeEltwise s a d
  | 6 => computeSegred s a d
  | 7 => computeMove s a d
  | _ => .ok {}

end Sys2Proof.Machine
end

