-- ==== Sys2Proof/Machine/Queues.lean ====
section
/-! DEFINITION. The scheduler's queues and the pre-emption test: queue order, what may be dispatched, which array can
take it, and when a running context gives way (R243, R244, R247). -/

namespace Sys2Proof.Machine

/-- A member of a queue: a dispatchable entry, or a saved context (R243). -/
inductive Member where
  | entry (n : Nat)
  | saved (c : Nat)
  deriving DecidableEq, Repr

/-- The entry a member runs. -/
def State.memberEntry (s : State) : Member → Option EntryRec
  | .entry n => s.atEntries n
  | .saved c => s.atEntries (s.atCtxs c).entry

/-- claim and claim_n of a body entry (R240). -/
def bodyClaim (b : BitVec 512) : Nat × Nat := (fld b 416 12, fld b 428 7)

/-- The pooled engine of a body entry, with pool_on = 1 (R240). -/
def bodyPool (b : BitVec 512) : Option Nat := if bit b 450 then some (fld b 452 4) else none

/-- An entry as it is dispatched: from its lane's rung; one already moved to its coppice body stays there (R253). -/
def rungBody (s : State) (e : EntryRec) : EntryRec :=
  let cop := e.cls = 0 ∧ e.cop.isSome ∧ (e.lane.map fun l => (s.atLanes l).rung) = some 1
  if cop ∧ ¬ e.usesCop then { e with usesCop := true, rung := 1 } else e

/-- Whether two ranges of semaphores meet. -/
def rangesMeet (a n b m : Nat) : Bool := decide (0 < n) && decide (0 < m) && decide (a < b + m) && decide (b < a + n)

/-- Whether an entry's claims are free: its semaphores meet no claim of a live or saved context of any other job (R243),
and its pooled engine is idle and claimed by none (the pooled engine is read as one of the claims, DEDUCED, log entry
35). -/
def claimsFree (s : State) (e : EntryRec) : Bool :=
  let b := entryBody e
  (s.ctxs.all fun x => decide (x.2.state = .free) || decide (((s.atEntries x.2.entry).map fun y => y.job) = some e.job)
      || !rangesMeet (bodyClaim b).1 (bodyClaim b).2 x.2.claim x.2.claimN)
    && match bodyPool b with
      | none => true
      | some q => decide ((s.atEngines (64 + q)).state = .idle) && (s.atEngines (64 + q)).claimed.isNone
          && s.ctxs.all fun x => decide (x.2.state = .free) || decide (x.2.pool ≠ some q)

/-- The order of a queue: urgent ones, then by deadline with 0 last, not_before, ring, acceptance, index (R243, R289). -/
def memberKey (e : EntryRec) : List Nat :=
  [b2n (!e.urgent), if e.deadline = 0 then 2 ^ 64 else e.deadline, e.notBefore, e.ring, e.job, e.index]

/-- One key before another, first difference first. -/
def keyLess : List Nat → List Nat → Bool
  | a :: l, b :: m => decide (a < b) || (decide (a = b) && keyLess l m)
  | _, _ => false

/-- A member put into an ordered queue, after those of equal key. -/
def insertMember (x : List Nat × Member) : List (List Nat × Member) → List (List Nat × Member)
  | [] => [x]
  | y :: l => if keyLess x.1 y.1 then x :: y :: l else y :: insertMember x l

/-- The queue of a class and a function, in order (R243). -/
def State.queue (s : State) (cls : Nat) (f : Func) : List Member :=
  let fresh := s.entries.filterMap fun e => match e.2 with
    | some r => if r.cls = cls ∧ r.func = f ∧ r.state = .queued ∧ claimsFree s (rungBody s r) then
        some (memberKey r, Member.entry e.1) else none
    | none => none
  let placed := s.arrays.filterMap fun a => a.2.reserved
  let saved := s.ctxs.filterMap fun c =>
    if c.2.state = .saved ∧ c.2.cls = cls ∧ c.2.func = f ∧ ¬ placed.contains c.1 then
      (s.atEntries c.2.entry).map fun r => (memberKey r, Member.saved c.1) else none
  ((fresh ++ saved).foldl (fun (q : List (List Nat × Member)) x => insertMember x q) []).map Prod.snd

/-! ## Arrays (R244, R246) -/

/-- Whether an array serves a class of a function: bound to it, standing for raster work and not for analytics (R8). -/
def State.serves (s : State) (a cls : Nat) (f : Func) : Bool :=
  let u := s.unitAt (arrUnit a)
  s.boundTo (arrUnit a) f && !u.felled && decide (u.standing = decide (cls = 1))

/-- Whether an array is free to take work. -/
def State.arrayFree (s : State) (a : Nat) : Bool :=
  let st := s.atArrays a
  st.ctx.isNone && st.reserved.isNone && decide ((s.unitAt (arrUnit a)).state = .bound)
    && !(s.unitAt (arrUnit a)).felled

/-- The active quantiser profiles of an array: QP_CFG and QP_S2 of profiles 0 to 7 (R244). -/
def State.profiles (s : State) (a : Nat) : List Word :=
  (List.range 8).flatMap fun q => [s.reg (qntPage a) (0x100 + 32 * q), s.reg (qntPage a) (0x104 + 32 * q)]

/-- Whether an array is one a member's job targets (R238). -/
def State.targets (s : State) (a : Nat) (m : Member) : Bool :=
  match s.memberEntry m with
  | some e => decide (e.target = 0xFFFF) || decide (e.target = a)
  | none => false

/-- Whether an array can take a member: an entry for it; a saved context only with the profiles of its image (R244). -/
def State.canTake (s : State) (a : Nat) (m : Member) : Bool :=
  s.targets a m && match m with
    | .entry _ => true
    | .saved c => ((s.atCtxs c).saved.map fun v => decide (v.profiles = s.profiles a)).getD false

/-- Whether some free array of a function can take a member of its analytics queue. -/
def State.someArray (s : State) (f : Func) (m : Member) : Bool :=
  (List.range 32).any fun a => s.serves a 0 f && s.arrayFree a && s.canTake a m

/-- The lowest free context number (R242). -/
def State.freeCtxNo (s : State) : Option Nat := (List.range 2048).find? fun c => decide ((s.atCtxs c).state = .free)

/-! ## Assignment (R245) -/

/-- Whether the semaphores and the pooled engine a body entry claims are bound to a function (R58, R240). -/
def claimsBound (s : State) (f : Func) (b : BitVec 512) : Bool :=
  (decide ((bodyClaim b).2 = 0) || s.semBound (bodyClaim b).1 f)
    && ((bodyPool b).map fun q => s.boundTo ⟨.pooled, q⟩ f).getD true

/-- Dispatch step 1 and 2 for an entry: it is assigned a context on an array, the free one with the lowest number (DESIGN
CHOICE, log entry 60), and takes its claims. -/
def assignCtx (a n : Nat) (k : Nat → Act) : Act := .look fun s =>
  match s.atEntries n, s.freeCtxNo with
  | some e0, some c =>
    let e := rungBody s e0
    let b := entryBody e
    acts [.eff (.entries n (some { e with state := .running, ctx := some c })),
      .eff (.ctxs c {
        state := .dispatching, func := e.func, cls := e.cls, asid := e.asid, array := a, entry := n,
        claim := (bodyClaim b).1, claimN := (bodyClaim b).2, pool := bodyPool b }),
      takeClaims c (bodyClaim b).1 (bodyClaim b).2, k c]
  | _, _ => .done

/-! ## Pre-emption (R247) -/

/-- What remains of a context, in ns: its estimate less the compute cycles spent, a free value, with nothing spent before
it runs and nothing left once it retires (log entry 3). -/
def remaining (s : State) (x : BitVec 64) (c : Nat) : Nat :=
  let est := ((s.atEntries (s.atCtxs c).entry).map fun e => bodyEst (entryBody e)).getD 0
  match (s.atCtxs c).state with
  | .dispatching => est
  | .running | .stopping | .saving | .restoring | .saved => (Config.unstated 7 [x.toNat, c]).toNat % (est + 1)
  | _ => 0

/-- The deadline of the entry a context runs; 0 for a context that is free (R259). -/
def State.ctxDeadline (s : State) (c : Nat) : Nat :=
  if (s.atCtxs c).state = .free then 0 else ((s.atEntries (s.atCtxs c).entry).map fun e => e.deadline).getD 0

/-- The arrays whose context may give way to a member with a deadline: running class-0 contexts with no deadline, or one
later by the margin, on an array the member can use. -/
def victims (s : State) (f : Func) (m : Member) (deadline : Nat) : List Nat :=
  (List.range 32).filter fun a => s.serves a 0 f && s.canTake a m && (s.atArrays a).reserved.isNone
    && match (s.atArrays a).ctx with
      | none => false
      | some c => decide ((s.atCtxs c).state = .running) && decide ((s.atCtxs c).cls = 0)
          && (decide (s.ctxDeadline c = 0)
            || decide (deadline + 1000 * s.rfld schedPage 0x100 4 12 < s.ctxDeadline c))

/-- HT_LIVE of an array (R150). -/
def State.htLive (s : State) (a : Nat) : Nat := liveBytes (s.validHandles a)

/-- The victim: least HT_LIVE, then the later deadline with 0 latest, then the lower array. -/
def pickVictim (s : State) (l : List Nat) : Option Nat :=
  let late (a : Nat) : Nat :=
    match (s.atArrays a).ctx with
    | some c => if s.ctxDeadline c = 0 then 2 ^ 64 else s.ctxDeadline c
    | none => 0
  l.foldl (fun (m : Option Nat) a => match m with
    | none => some a
    | some b => if s.htLive a < s.htLive b ∨ (s.htLive a = s.htLive b ∧ late b < late a) then some a else m) none

/-- A member is placed next on an array whose context is to be saved. -/
def placeNext (a : Nat) (m : Member) : Act :=
  let keep (c : Nat) : Act := .seq (updArr a fun x => { x with reserved := some c }) (askStop a .save)
  .seq (bump schedPage 0x048 1) (match m with
    | .entry n => assignCtx a n keep
    | .saved c => keep c)

/-- Whether a member cannot be placed: an entry needs a free context number and claims that are still bound to its
function, a saved context keeps its own (R242, R58). -/
def State.noNumber (s : State) : Member → Bool
  | .entry n => s.freeCtxNo.isNone ||
    ((s.atEntries n).map fun e => !claimsBound s e.func (entryBody (rungBody s e))).getD true
  | .saved _ => false

/-- The contexts on a function's arrays. -/
def State.ctxsOn (s : State) (f : Func) : List Nat :=
  ((List.range 32).filter fun a => s.serves a 0 f).filterMap fun a => (s.atArrays a).ctx

/-- The test of R247 for the head of a function's analytics queue, and again for each head that the placing of one leaves
behind, `fuel` bounding the placings. -/
def preemptFrom (f : Func) : Nat → Act
  | 0 => .done
  | fuel + 1 => .look fun s =>
    match s.queue 0 f with
    | [] => .done
    | m :: _ => optA (s.memberEntry m) fun e0 =>
      let e := rungBody s e0
      if ¬ s.rbit schedPage 0x100 0 ∨ s.rbit schedPage 0x010 8 ∨ e.deadline = 0 ∨ s.someArray f m
          ∨ (victims s f m e.deadline).isEmpty ∨ s.noNumber m then .done
      else withFree fun x =>
        let frees := (s.ctxsOn f).map (remaining s x)
        let tFree := s.time.toNat + frees.foldl min (frees.headD 0)
        if tFree + bodyEst (entryBody e) + 1000 * s.rfld schedPage 0x114 0 16 ≤ e.deadline then .done
        else optA (pickVictim s (victims s f m e.deadline)) fun a => .seq (placeNext a m) (preemptFrom f fuel)

/-- The test of R247 for a function: each placing takes one of the 32 arrays. -/
def preemptTest (f : Func) : Act := preemptFrom f 33

/-! ## When the test runs -/

/-- The functions that have an array for analytics work. -/
def State.analyticsFuncs (s : State) : List Func :=
  (s.units.filterMap fun e => if e.1 / 0x1000 = 1 ∧ ¬ e.2.standing ∧ e.2.state = .bound then some e.2.owner else none).eraseDups

/-- What the test of a function watches: the head of its queue, the phases of its arrays and the states of the contexts
on them. -/
def State.watchKey (s : State) (f : Func) : Option Member × List (Nat × ArrayPhase × CtxState) :=
  ((s.queue 0 f).head?, ((List.range 32).filter fun a => s.serves a 0 f).map fun a =>
    (a, (s.atArrays a).phase, ((s.atArrays a).ctx.map fun c => (s.atCtxs c).state).getD .free))

/-- An act after which the pre-emption test runs for every function whose head, phases or context states it has changed
(R247). -/
def watched (a : Act) : Act := .look fun s => .seq a (.look fun t =>
  forA (t.analyticsFuncs.filter fun f => decide (s.watchKey f ≠ t.watchKey f)) preemptTest)

/-- A command of the device in service that may change what the scheduler watches. -/
def served (a : Act) : Act := inService (watched a)

end Sys2Proof.Machine
end

