-- ==== Sys2Proof/Machine/Ladder.lean ====
section
/-! DEFINITION. The ladder of a layer strip: its batch step at a rung, hand-overs to the coppice program and to the floor
scaler (R254, R281, R289, R294). -/

namespace Sys2Proof.Machine

/-- The program of a lane at a rung. -/
def laneProgram (l : LaneRec) (rung : Nat) : Option (BitVec 512) :=
  if rung = 0 then l.full else if rung = 1 then l.cop else none

/-- The batch step of a layer strip ends for good: a queued one leaves its queue, a running one is stopped at its kerf
point and retired without save (R254). -/
def endStripStep (n : Nat) : Act := .look fun s =>
  optA (s.atEntries n) fun e => match e.ctx with
    | none => .eff (.entries n none)
    | some c => stopCtx (s.atCtxs c).array 3 .ranger

/-- Whether a step runs that has yet to come to its kerf point. -/
def State.stepRuns (s : State) (n : Nat) : Bool :=
  match (s.atEntries n).bind fun e => e.ctx with
  | none => false
  | some c => (decide ((s.atCtxs c).state = .running) || decide ((s.atCtxs c).state = .stopping))
      && decide ((s.atArrays (s.atCtxs c).array).phase ≠ .stopped)

/-- A layer strip goes to the floor scaler for lateness, its step ended (R254, R289). -/
def stripToFloor (slot serial : Nat) (at_ : HandAt) : Act := .look fun s =>
  optA (s.stripOf slot serial) fun k => .seq (optA k.entry endStripStep) (floorStrip slot serial at_)

/-- A layer strip goes to its lane's coppice program, whose step enters the head of the raster queue, once a running full
step has come to its kerf point (R254, R289). -/
def stripToCoppice (slot serial : Nat) (at_ : HandAt) : Act := .look fun s =>
  optA (s.stripOf slot serial) fun k =>
    let waits := (k.entry.map s.stepRuns).getD false
    acts [setRung slot serial 1, updStrip slot serial fun x => { x with entry := none, owed := waits }, optA k.entry endStripStep,
      bump (stripPage k.out) (if at_ = .dispatch then 0x060 else 0x068) 1, bump schedPage 0x090 1,
      lowerLane slot 1 k.frame, whenA (!waits) (queueStrip slot serial 1 true)]

/-- A layer strip that is not complete goes to the next rung of its programs (R254; those it was requested with, R257).
At dispatch it goes on to the floor scaler, two rungs, where the coppice program would end too late as well (R289). -/
def handDown (slot serial : Nat) (at_ : HandAt) : Act := .look fun s =>
  optA (s.stripOf slot serial) fun k =>
    let cop := decide (nextRung k.lane k.rung = 1)
    let skip := cop && decide (at_ = .dispatch) && decide (k.deadline < s.time.toNat + bodyEst (k.lane.cop.getD 0))
    whenA (decide (k.source = 0) && k.done.isNone)
      (if cop && !skip then stripToCoppice slot serial at_
      else .seq (whenA skip (lowerLane slot 1 k.frame)) (stripToFloor slot serial at_))

/-- An array that leaves service in the middle of a raster step hands the layer strip on at once, to the next rung as at a
deadline line (R14, R294). When it was the function's last standing array, both sentences of R14 apply, the next rung and
the floor scaler of a function without a standing array: the strip goes straight to the floor, counted as at dispatch
(DESIGN CHOICE, log entry 58). -/
def handFelled (c : Nat) : Act := .look fun s =>
  optA ((s.atEntries (s.atCtxs c).entry).bind fun e => e.strip) fun r =>
    if s.standingArrays (s.atCtxs c).func = 0 then optA (s.stripOf r.slot r.serial) fun k =>
      whenA (decide (k.source = 0) && k.done.isNone) (stripToFloor r.slot r.serial .dispatch)
    else handDown r.slot r.serial .deadline

/-- A step that replaces a stopped one of its layer strip waits until every tag of that one's store engine has retired
(R289). -/
def stripGate (s : State) (c : Nat) : Bool :=
  match (s.atEntries (s.atCtxs c).entry).bind fun e => e.strip with
  | none => true
  | some r => s.ctxs.all fun x =>
      decide (x.1 = c) || decide (((s.atEntries x.2.entry).bind fun e => e.strip) ≠ some r)
        || decide (x.2.state = .free) || (s.atEngines (2 * x.2.array + 1)).reqs.isEmpty

/-- A failed write of a parameter record or a strip buffer: cause 0x0B46 in the strip page, event 0x0B41, and the layer
strip, if its source is open, goes to the floor scaler (R290, R294, R298). -/
def stripWriteFailed (slot serial : Nat) : Act := .look fun s =>
  optA (s.stripOf slot serial) fun k => acts [
    withFree fun x => recordErrI (stripPage k.out) 0x0B46 (BitVec.ofNat 32 slot) (x.extractLsb' 0 32),
    pageEvent (stripPage k.out) 0x41 0x0B46
      (natBytes 4 (slot + 64 * k.rung) ++ natBytes 4 0x0B46 ++ natBytes 4 serial),
    whenA (decide (k.source = 0)) (acts [optA k.entry endStripStep, setRung slot serial 2,
      updStrip slot serial fun x => { x with source := 2, entry := none, owed := false }])]

/-- The store engine of a raster step cannot write its strip buffer: the layer strip fails, once, while it is not yet
complete and its source is open (R290, R294). -/
def bufferWriteFailed (r : StripRef) : Act := .look fun s =>
  optA (s.stripOf r.slot r.serial) fun k =>
    whenA (decide (k.source = 0) && k.done.isNone) (stripWriteFailed r.slot r.serial)

end Sys2Proof.Machine
end

