-- ==== Sys2Proof/Machine/Links.lean ====
section
/-! DEFINITION. The inbound windows and the requests to other devices as the engines and the chain's commands use them (R353 to
R363). -/

namespace Sys2Proof.Machine

/-! ## Inbound windows (R360 to R362) -/

/-- The bind unit of a window. -/
def winUnit (w : Nat) : UnitId := ⟨.window, w⟩

/-- The kind of a window: 0 off, 1 stack, 2 scratchpad (R367). -/
def State.winKind (s : State) (w : Nat) : Nat := s.rfld (winPage w) 0x100 0 2

/-- Whether a source device is admitted (R360). -/
def State.winAdmits (s : State) (w src : Nat) : Bool := s.rbit (winPage w) (0x114 + 4 * (src / 32)) (src % 32)

/-- A refused window request: counted, cause 0x18, and event 0x0D12 at most once per 100 µs (R361, R368). -/
def winRefuse (w : Nat) : Act := .look fun s =>
  let st := s.atWindows w
  let due := match st.reportAt with
    | none => true
    | some t => decide (t.toNat + 100000 ≤ s.time.toNat)
  acts [bump (winPage w) 0x058 1, pageErr (winPage w) 0x18,
    if due then
      .seq (updWin w fun x => { x with refusals := 0, reportAt := some s.time })
        (pageEvent (winPage w) 0x12 0 (natBytes 4 w ++ natBytes 4 (st.refusals + 1)))
    else updWin w fun x => { x with refusals := x.refusals + 1 }]

/-- How a write into a window ends: the status of its completion (R353), or a full arrival queue that holds it back. -/
inductive WinEnd where
  | status (n : Nat)
  | wait
  deriving DecidableEq, Repr

/-- A scratchpad window's target (R156): the array and the handle's entry, if the loaded context holds the handle with
valid = 1 and rmt = 1 and the array is neither waking its banks (R158) nor stopped for save, teardown or re-binding; a
stop of the host's leaves the context loaded and running, and a context whose batch step has ended is loaded until it is
freed (R246). -/
def State.winTarget (s : State) (w : Nat) : Option (Nat × Nat × BitVec 128) :=
  let a := s.rfld (winPage w) 0x100 8 5
  let h := s.rfld (winPage w) 0x100 16 6
  let e := s.handle a h
  let loaded := (s.liveCtx a).isSome || ((s.atArrays a).ctx.map fun c => endsWhole (s.atCtxs c)).getD false
  if loaded ∧ (s.atArrays a).waking = [] ∧ (s.unitAt (arrUnit a)).state = .bound
    ∧ (s.unitAt (arrUnit a)).owner = (s.unitAt (winUnit w)).owner ∧ hValid e ∧ hRmt e then some (a, h, e) else none

/-- Whether a window may write all of a run of at most 256 bytes: both pages of one that crosses a page translate, so
that a frame is committed whole or not at all (R361). -/
def reachable (c : StackClient) (va n : Nat) (k : Bool → Act) : Act :=
  let m := min n (65536 - va % 65536)
  translate c 0 va m .write 0x0D00 0x0D00 fun x => match x with
    | .ok _ _ =>
      if m < n then translate c 0 (va + m) (n - m) .write 0x0D00 0x0D00 fun y => match y with
        | .ok _ _ => k true
        | _ => k false
      else k true
    | _ => k false

/-- A write of a payload run into a window by a source device (R156, R361). `k` gets how it ends; status 0 is a write that
is accepted, whose completion goes out when it commits, to the header that `reply` holds (R353, R363). -/
def windowWrite (w src offset first last : Nat) (data : List Byte) (port : Option Nat)
    (reply : Option (List Byte)) (k : WinEnd → Act) : Act := .look fun s =>
  let refuse : Act := .seq (winRefuse w) (k (.status 1))
  let st := s.atWindows w
  let open_ := decide ((s.unitAt (winUnit w)).state = .bound) && s.rbit (winPage w) 0x100 3 && s.winAdmits w src
  if ¬ open_ then refuse
  else if s.winKind w = 1 then
    let size := 65536 * s.rfld (winPage w) 0x10C 0 16
    if size < offset + last + 1 ∨ last < first then refuse
    else if 8192 < st.inFlight + data.length then
      .seq (bump (winPage w) 0x060 1) (.seq (pageErr (winPage w) 0x19) (k (.status 2)))
    else
      let va := s.reg64 (winPage w) 0x104 % 2 ^ 48 + offset + first
      let run_ := sliceBytes data first (last + 1 - first)
      reachable ⟨.window, (s.unitAt (winUnit w)).owner⟩ va run_.length fun ok =>
        if ok then acts [
            updWin w fun y => { y with
              queue := y.queue ++ [⟨va, run_, data.length / 64, port, reply⟩], inFlight := y.inFlight + data.length },
            bump (winPage w) 0x040 1, k (.status 0)]
        else k (.status 4)
  else if s.winKind w = 2 then
    let a := s.rfld (winPage w) 0x100 8 5
    let h := s.rfld (winPage w) 0x100 16 6
    let bad := decide (data.length % 64 ≠ 0) || decide (data.isEmpty) || decide (256 < data.length)
      || decide (offset % 64 ≠ 0) || decide (first ≠ 0) || decide (last + 1 ≠ data.length)
    let drop_ (cause : Nat) : Act := .seq (.seq (pageErr (spPage a) cause) (dropArrival a w h 1)) refuse
    if bad then drop_ 0x19
    else match s.winTarget w with
      | none => drop_ 0x18
      | some (_, _, e) =>
        if hSize e < offset + data.length then drop_ 0x18
        else if 8192 < st.inFlight + data.length then
          .seq (bump (winPage w) 0x060 1) (.seq (pageErr (winPage w) 0x19) (k (.status 2)))
        else
          let arr : Arrival :=
            { handle := h, addr := hOff e offset, data := data, window := w, port := port, reply := reply }
          if ¬ arrivalRoom (s.atArrays a) arr then k .wait
          else acts [updArr a fun y => { y with arrivals := y.arrivals ++ [arr] },
            updWin w fun y => { y with inFlight := y.inFlight + data.length }, bump (winPage w) 0x040 1, k (.status 0)]
  else refuse

/-- A read of a byte range of a window by a source device (R362): the data, or the status that answers it. -/
def windowRead (w src offset first last : Nat) (k : Nat → List Byte → Act) : Act := .look fun s =>
  let open_ := decide ((s.unitAt (winUnit w)).state = .bound) && decide (s.winKind w = 1) && s.rbit (winPage w) 0x100 2
    && s.winAdmits w src && decide (offset + last + 1 ≤ 65536 * s.rfld (winPage w) 0x10C 0 16) && decide (first ≤ last)
  if ¬ open_ then .seq (winRefuse w) (k 1 [])
  else virtRead ⟨.window, (s.unitAt (winUnit w)).owner⟩ 0 (s.reg64 (winPage w) 0x104 % 2 ^ 48 + offset + first)
    (last + 1 - first) .read 0x0D00 0x0D00 fun r => match r with
      | .ok bs => .seq (bump (winPage w) 0x050 1) (k 0 bs)
      | .badSum => k 3 []
      | _ => k 4 []

/-! ## Remote requests (R352, R358) -/

/-- The lowest ttag without a request. -/
def State.freeTtag (s : State) : Nat :=
  ((List.range (s.remotes.length + 1)).find? fun i => decide ((s.atRemotes i).isNone)).getD 0

/-- A request goes to another device; one whose route is unreachable or whose port is down is answered at once, with
status 5 or 6 (R356, R363). -/
def sendRemote (r : RemoteReq) (vc : Nat) (answer : Nat → Act) : Act := .look fun s =>
  let go (p : Fin 2) : Act :=
    if s.portState p.val = 3 then sendFrame p ⟨vc, r.bytes, none⟩ else answer 6
  match s.route r.dst with
  | 1 => go 0
  | 2 => go 1
  | _ => .seq (bump chainPage 0x050 1) (.seq (pageErr chainPage 0x15) (answer 5))

end Sys2Proof.Machine
end

