-- ==== Sys2Proof/Machine/Pages.lean ====
section
/-! DEFINITION. Pages as functions reach them, commits, the page maps, and the first and last steps of a re-binding
(R26, R33 to R35, R52). -/

namespace Sys2Proof.Machine

/-! ## The page map of a VF (R26) -/

/-- GL_PMAP entry `k` of a function: page in [11:0], read-only in [14], valid in [15]. -/
def State.pmap (s : State) (f : Func) (k : Nat) : Nat := s.rfld (globalPage f) (0x800 + 4 * (k / 2)) (16 * (k % 2)) 16

/-- GL_PMAP entry `k` of a function changes. -/
def putPmap (f : Func) (k v : Nat) : Act := setFld (globalPage f) (0x800 + 4 * (k / 2)) (16 * (k % 2)) 16 v

/-- The slots given to units (R51). -/
def bindSlots : List Nat := (List.range 254).map fun i => i + 2

/-- Whether slot `k` of a function is valid. -/
def State.slotUsed (s : State) (f : Func) (k : Nat) : Bool := decide (2 ^ 15 ≤ s.pmap f k)

/-- The slot in which a function has a page, if it has one. -/
def State.slotOf (s : State) (f : Func) (p : Nat) : Option Nat :=
  bindSlots.find? fun k => s.slotUsed f k && decide (s.pmap f k % 4096 = p)

/-- The free slots of a function (R51). -/
def State.freeSlots (s : State) (f : Func) : Nat := (bindSlots.filter fun k => !s.slotUsed f k).length

/-- The slots a function has for pages become invalid. -/
def unmapPages (f : Func) (ps : List Nat) : Act := .look fun s =>
  forA (bindSlots.filter fun k => s.slotUsed f k && ps.contains (s.pmap f k % 4096)) fun k => putPmap f k 0

/-- A page takes the lowest free slot of a function. -/
def mapPage (f : Func) (ro : Bool) (p : Nat) : Act := .look fun s =>
  optA (bindSlots.find? fun k => !s.slotUsed f k) fun k => putPmap f k (p + 2 ^ 14 * b2n ro + 2 ^ 15)

/-- The slot of a function's first page of a list; 0 for the PF. -/
def State.firstSlot (s : State) (f : Func) (ps : List Nat) : Nat :=
  if f = 0 then 0 else ((ps.head?.bind fun p => s.slotOf f p)).getD 0

/-! ## Access by a function (R26, R33, R46) -/

/-- Whether a function-level reset of a VF runs (R46, R55). -/
def State.resetting (s : State) (f : Func) : Bool :=
  s.units.any fun e => decide (e.2.owner = f) && ((e.2.seq.map fun r => decide (r.op = .flr)).getD false)

/-- The host-port cause under which a function's access to a page is turned away, if it is: an unmapped or read-only
slot (R26), a page that is re-binding or held (R33); the PF reads every page and writes none that is re-binding or
held. -/
def State.denied (s : State) (f : Func) (p : Nat) (write : Bool) : Option Nat :=
  let away := decide (s.pageState p = .rebinding) || decide (s.pageState p = .held)
  if f = 0 then (if write && away then some 0x04 else none)
  else if s.resetting f then some 0x04
  else if p = globalPage f ∨ p = vfMsixPage f then none
  else match s.slotOf f p with
    | none => some 0x10
    | some k => if write && decide (s.pmap f k / 2 ^ 14 % 2 = 1) then some 0x10 else if away then some 0x04 else none

/-- A write of a function to a page: done if the page lets it, else dropped with its cause. A function that is not there
takes no write. -/
def withWrite (f : Func) (p : Nat) (a : Act) : Act := .look fun s =>
  if !s.present f then .done else
  match s.denied f p true with
  | some cause => hostErr f cause
  | none => a

/-- The answer of a read that is turned away: `n` bytes of 0. -/
def readZero (n : Nat) : Act := .eff (.out (.readData (List.replicate n 0)))

/-- A read of a function of a page: `a` answers it if the page lets it, else it reads 0 with its cause. A function that
is not there completes no read. -/
def withRead (f : Func) (p n : Nat) (a : Act) : Act := .look fun s =>
  if !s.present f then .eff (.out .unsupported) else
  match s.denied f p false with
  | some cause => .seq (readZero n) (hostErr f cause)
  | none => a

/-- A read answers with a word. -/
def readWord (v : Nat) : Act := .eff (.out (.readData (natBytes 4 v)))

/-! ## Commits (R34, R35) -/

/-- The offsets of a page's registers with shadowed fields, each with its mask. -/
def shadowRegs (p : Nat) : List (Nat × Nat) :=
  match pageClass p with
  | none => []
  | some c => (blockRegs c).flatMap fun r =>
      if r.sh = 0 then [] else (List.range r.count).map fun i => (r.base + r.stride * i, r.sh)

/-- The shadowed fields of a page take the values of a pending set. -/
def applySnap (p : Nat) (snap : Table Word) : Act := .look fun s =>
  forA (shadowRegs p) fun e =>
    let m := BitVec.ofNat 32 e.2
    setReg p e.1 ((s.reg p e.1 &&& ~~~ m) ||| (tblGet regReset (regAddr p e.1) snap &&& m))

/-- A pending commit of a page settles: applied, in time or late, or refused with a code; its bit and its event. -/
def settleCommit (p : Nat) (seq : BitVec 24) (applied late : Bool) (code : Nat) : Act := .look fun s =>
  acts [.eff (.commits p none),
    setRegN p 0x034 ((if applied then 2 else 3) + 4 * b2n late + 8 * b2n (s.rbit p 0x034 3) + 256 * (seq.toNat % 256)
      + 65536 * code),
    raiseIrq p (if applied then 1 else 2),
    pageEvent p (if applied then 1 else 2) code (natBytes 4 (seq.toNat % 256 + 256 * b2n late))]

/-- Whether a page's commit point has come: for a quantiser page, no step in flight, a PHASE step that a stop has left
waiting aside (R78, R113); for the others at once (R34). -/
def State.atCommitPoint (s : State) (p : Nat) : Bool :=
  match pageClass p, unitOfPage p with
  | some .quant, some u =>
    let st := s.atArrays u.num
    st.flight.isEmpty || (decide (st.phase = .stopped) && st.flight.all fun x => x.waiting)
  | _, _ => true

/-- The pending set of a page applies whole (R34). -/
def applyCommit (p : Nat) (late : Bool) : Act := .look fun s =>
  optA (s.atCommits p) fun c => .seq (applySnap p c.snap) (settleCommit p c.seq true late 0)

/-- The pending set of a page is discarded: its state returns to idle, with no event (R35). -/
def discardCommit (p : Nat) : Act := .look fun s =>
  whenA (s.atCommits p).isSome (.seq (.eff (.commits p none)) (setFld p 0x034 0 4 0))

/-! ## Withdrawal and hand-over (R52) -/

/-- Bytes 0x10 to 0x17 of a binding event: op, kind, number, felled, epoch, slot. -/
def bindPayload (op : Nat) (u : UnitId) (felled : Bool) (epoch slot : Nat) : List Byte :=
  natBytes 4 (op + 16 * unitCode u.kind + 256 * u.num + 2 ^ 24 * b2n felled) ++ natBytes 2 epoch ++ natBytes 2 slot

/-- A binding event goes to event ring 0 of its function (R429); instance and epoch of its header are 0 (log entry
25). -/
def bindEvent (f : Func) (low : Nat) (payload : List Byte) : Act := putEvent f 0 (0x0100 + low) 0 0 0 payload

/-- Step 1 of the sequence: every page of the unit enters the re-binding state, the epoch rises by 1, shadows and
pending commits are discarded, and the old owner hears of it (R52). -/
def withdrawUnit (u : UnitId) (r : Rebind) : Act := .look fun s =>
  let ur := s.unitAt u
  acts [setUnit u { ur with state := .rebinding, epoch := ur.epoch + 1, seq := some r },
    forA (unitPages u) fun p => .seq (discardCommit p) (.eff (.shadowsReset (regAddr p 0) (regAddr (p + 1) 0))),
    whenA r.hadOwner (bindEvent r.oldOwner 0x23 (bindPayload 0 u false (ur.epoch + 1).toNat 0))]

/-- A unit's sequence changes where it stands. -/
def updSeq (u : UnitId) (f : Rebind → Rebind) : Act := .look fun s =>
  setUnit u { s.unitAt u with seq := (s.unitAt u).seq.map f }

end Sys2Proof.Machine
end

