-- ==== Sys2Proof/Machine/Felling.lean ====
section
/-! DEFINITION. Felling an array (R119 to R121): what it records, what it withdraws, and the felling that waits for a
transfer phase's tags. -/

namespace Sys2Proof.Machine

/-- Landing-cache pins of an array are dropped, those of an install that runs among them; event 0x0716 when a model is
left unpinned (R164). -/
def unpinArray (a : Nat) : Act := .look fun s =>
  let clear (p : BitVec 32) : BitVec 32 := p &&& ~~~ (BitVec.ofNat 32 (2 ^ a))
  .seq (forA s.lcSlots fun (e : Nat × LcSlot) =>
      whenA (bit e.2.pins a)
        (.seq (.eff (.lcSlots e.1 { e.2 with pins := clear e.2.pins }))
          (whenA (decide (clear e.2.pins = 0)) (pageEvent lcPage 0x16 0 (natBytes 4 (e.1 + 256 * a))))))
    (.eff (.lcFill (s.lcFill.map fun q => { q with pins := clear q.pins })))

/-- Felling an array for a step with a code: the error, ARR_FAULT and, with a context loaded, its fault; event 0x0512;
the landing cache's pins for it dropped (R164); and the withdrawal of the unit, unless its sequence already runs (R56,
R117, R119). -/
def fellArray (a step tag code : Nat) : Act := .look fun s =>
  let u := arrUnit a
  let ur := s.unitAt u
  let check := s.reg (arrPage a) 0x128
  let ctx := (s.atArrays a).ctx
  if ur.felled then .done else
  acts [
    match s.liveCtx a with
    | some _ => faultCtx a step code (arrPage a) (arrayError a step tag code check)
    | none => .seq (setRegN (arrPage a) 0x120 (step % 65536 + 65536 * code)) (arrayError a step tag code check),
    optA ctx fun c =>
      .seq (updCtx c fun x => if x.scrubbing ∨ x.state = .held then x else
          { x with state := .retiring, faulted := false, endStatus := 2, endCode := code })
        (forA (ctxEngines (s.atCtxs c)) stopEngine),
    unreserve a, flog code 2 ur.owner (arrPage a) 0 (ctx.getD 0xFFFF) (arrPage a),
    .look fun t => setUnit u { t.unitAt u with felled := true }, updArr a fun x => { x with fell := false },
    setFld 0 0x308 a 1 1,
    raiseIrq (arrPage a) 12, unpinArray a,
    (let payload := natBytes 4 (step % 65536 + 65536 * ctx.getD 0) ++ natBytes 2 code ++ natBytes 2 0 ++ natBytes 4 check.toNat
     if ur.state = .unbound then funcEvent 0 (arrPage a) 0x12 code payload else ownerAndPf (arrPage a) 0x12 code payload),
    if ur.seq.isSome then .done
    else
      .seq (withdrawUnit u {
          op := .fell, step := .stop, oldOwner := ur.owner, newOwner := 0, hadOwner := decide (ur.state ≠ .unbound),
          bound := false, hold := s.rbit (arrPage a) 0x010 10, standing := ur.standing })
        (forA [2 * a, 2 * a + 1] stopEngine),
    optA ctx handFelled, optA ctx settleRetire, floorQueued ur.owner,
    .look fun t => whenA ((List.range 32).all fun i => (t.unitAt (arrUnit i)).felled) (deviceFault 0x0137)]

/-- The index and tag of the step a fault of an array names: the oldest step in flight, else the next step. -/
def State.faultStep (s : State) (a : Nat) : Nat × Nat :=
  match (s.atArrays a).flight.head? with
  | some x => (x.step.index, tsTag x.step.desc)
  | none => ((s.atArrays a).next, 0)

/-- The felling that the PF has asked for in a transfer phase follows when the bound engines have stopped: `quiet` tells
whether their tags have retired, as far as the stop of R52 waits for them (R120, R53). -/
def settleFell (a : Nat) (quiet : State → Nat → Bool) : Act := .look fun s =>
  whenA ((s.atArrays a).fell && quiet s (2 * a) && quiet s (2 * a + 1))
    (fellArray a (s.faultStep a).1 (s.faultStep a).2 0x054F)

end Sys2Proof.Machine
end

