-- ==== Sys2Proof/Machine/Engines.lean ====
section
/-! DEFINITION. The stream engines and semaphores (chapter 9): lists, passes, units, requests and their retirement, faults
and resume, re-arms, and the commands of the engine and semaphore pages. -/

namespace Sys2Proof.Machine

/-- What the scratchpad page records of a parity failure (R161): cause 0x071C, its bit and count, and event 0x0712. -/
def parityTold (a : Nat) (m : SpMem) (line : Nat) : Act := .look fun s =>
  acts [withFree fun x => recordErrI (spPage a) 0x071C (BitVec.ofNat 32 (memCode m + 65536 * line)) (x.setWidth 32),
    raiseIrq (spPage a) 8, bump (spPage a) 0x0A8 1,
    pageEvent (spPage a) 0x12 0x071C (natBytes 4 (memCode m + 65536 * line) ++ natBytes 2 ((s.atArrays a).ctx.getD 0))]

/-- A parity failure of a compute or engine read (R161): it is told, and the context is torn down as for a context fault,
one whose engines still retire their tags before its save or after its batch step too; one that is torn down already
ends as it would. -/
def parityFault (a step : Nat) (m : SpMem) (line : Nat) : Act := .look fun s =>
  match (s.atArrays a).ctx with
  | none => parityTold a m line
  | some c =>
    let r := s.atCtxs c
    if (s.liveCtx a).isSome ∨ r.state = .saving ∨ (endsWhole r ∧ ¬ r.scrubbing) then
      .seq (failCtx a c step 0x071C (spPage a) (parityTold a m line)) (settleRetire c)
    else .seq (parityTold a m line) (settleRetire c)

/-! ## Checks when a descriptor becomes current (R177 to R179, R183, R192, R204) -/

/-- No must-be-0 field of a descriptor is set. -/
def sdMbzOk (d : BitVec 512) : Bool :=
  let side (dst : Bool) : Bool :=
    if sdKind d dst = 1 then decide (sdBase d dst < 2 ^ 27) else if sdKind d dst = 3 then decide (sdBase d dst < 2 ^ 44) else true
  decide (fld d 220 4 = 0) && decide (fld d 250 6 = 0) && side false && side true

/-- Op and kinds are ones the engine may use (R175). -/
def sdKindsOk (e : Nat) (d : BitVec 512) : Bool :=
  let sk := sdKind d false
  let dk := sdKind d true
  decide (1 ≤ sdOp d ∧ sdOp d ≤ 3)
    && (if 64 ≤ e then
          decide ((sk = 0 ∨ sk = 2 ∨ sk = 3) ∧ (dk = 0 ∨ dk = 2 ∨ dk = 3) ∧ ¬ (sk = 2 ∧ dk = 2) ∧ ¬ (sk = 3 ∧ dk = 3))
        else if e % 2 = 0 then decide ((sk = 0 ∨ sk = 3) ∧ dk = 1) else decide (sk = 1 ∧ (dk = 0 ∨ dk = 3)))

/-- ndims, unit_dims, req, once and the unused dimensions are valid. -/
def sdShapeOk (d : BitVec 512) : Bool :=
  decide (1 ≤ sdNdims d ∧ sdNdims d ≤ 5 ∧ 1 ≤ sdUnitDims d ∧ sdUnitDims d ≤ sdNdims d ∧ fld d 18 2 ≠ 3)
    && (!sdOnce d || sdPersist d)
    && (List.range 5).all fun j => decide (j < sdNdims d)
        || (decide (sdCount d j = 1) && decide (sdStride d false j = 0) && decide (sdStride d true j = 0))

/-- A side's base and strides are multiples of `m`. -/
def sideAligned (d : BitVec 512) (dst : Bool) (m : Nat) : Bool :=
  decide (sdBase d dst % m = 0) && (List.range 4).all fun j => decide (sdStride d dst (j + 1) % (m : Int) = 0)

/-- Alignment by op and kind (cause 0x12). Whether a window of another device targets a scratchpad is that device's
knowledge. -/
def sdAlignOk (s : State) (d : BitVec 512) : Bool :=
  let side (dst : Bool) : Bool :=
    let b := sdBase d dst
    if sdKind d dst = 1 then sideAligned d dst 4
    else if sdKind d dst = 3 ∧ sdDevice b = s.deviceNo ∧ s.winKind (sdWindow b) = 2 then
      sideAligned d dst 64 && decide (sdCount d 0 % 64 = 0)
    else true
  (!sdIsAdd d || (decide (sdKind d true = 0) && sideAligned d false 4 && sideAligned d true 4 && decide (sdCount d 0 % 4 = 0)))
    && side false && side true

/-- The bytes of a scratchpad or window side, 0 where no loaded context holds the handle, whatever keeps the window from
accepting now (R156); a window of another device is not measured here (log entry 26). -/
def sideSize (s : State) (e : Nat) (d : BitVec 512) (dst : Bool) : Nat :=
  let b := sdBase d dst
  if sdKind d dst = 1 then
    let h := s.handle (e / 2) (sdHandle b)
    if (s.atArrays (e / 2)).ctx.isSome ∧ hValid h then hSize h else 0
  else
    let w := sdWindow b
    if sdDevice b ≠ s.deviceNo then 2 ^ 32
    else if s.winKind w = 1 then 65536 * s.rfld (winPage w) 0x10C 0 16
    else
      let h := s.handle (s.rfld (winPage w) 0x100 8 5) (s.rfld (winPage w) 0x100 16 6)
      if hValid h then hSize h else 0

/-- Ranges on scratchpad and window sides (cause 0x13). -/
def sdRangeOk (s : State) (e : Nat) (d : BitVec 512) : Bool :=
  [false, true].all fun dst =>
    let r := sideSpan d dst
    if sdKind d dst = 1 ∨ sdKind d dst = 3 then decide (0 ≤ r.1 ∧ r.2 < (sideSize s e d dst : Nat)) else true

/-- The semaphores a descriptor names. -/
def sdSems (d : BitVec 512) : List Nat :=
  (if sdAdd d = 0 then [] else [sdSigSem d]) ++ (if sdTake d = 0 then [] else [sdWaitSem d])

/-- Semaphores and own windows are bound to the owner, and of class 1 for a raster context (cause 0x14). -/
def sdBoundOk (s : State) (e : Nat) (d : BitVec 512) : Bool :=
  let f := s.engOwner e
  let raster := ((s.engCtx e).map fun c => decide ((s.atCtxs c).cls = 1)).getD false
  ((sdSems d).all fun n => s.semBound n f && (!raster || decide (s.semClass n = 1)))
    && [false, true].all fun dst =>
      decide (sdKind d dst ≠ 3) || decide (sdDevice (sdBase d dst) ≠ s.deviceNo) || s.boundTo (winUnit (sdWindow (sdBase d dst))) f

/-- No named semaphore is claimed by another context (cause 0x15). -/
def sdClaimsOk (s : State) (e : Nat) (d : BitVec 512) : Bool :=
  (sdSems d).all fun n => match s.semClaim n with
    | none => true
    | some c => decide (s.engCtx e = some c)

/-- No needed class has share 0 (cause 0x16). -/
def sdSharesOk (s : State) (e : Nat) (d : BitVec 512) : Bool :=
  if sdRemote s.deviceNo d then decide (s.share e 2 ≠ 0)
  else (!farSide (sdKind d false) || decide (s.share e 0 ≠ 0)) && (!farSide (sdKind d true) || decide (s.share e 1 ≠ 0))

/-- The refusal of a descriptor that becomes current, if one applies (R179, R204). -/
def checkDesc (s : State) (e : Nat) (d : BitVec 512) : Option Nat :=
  if !sdMbzOk d then some 0x0805
  else if !sdKindsOk e d then some 0x0810
  else if !sdShapeOk d then some 0x0811
  else if !sdAlignOk s d then some 0x0812
  else if !sdRangeOk s e d then some 0x0813
  else if !sdBoundOk s e d then some 0x0814
  else if !sdClaimsOk s e d then some 0x0815
  else if !sdSharesOk s e d then some 0x0816
  else none

/-- The checks of a pass begun by a re-arm (R179). -/
def checkRearmed (s : State) (e : Nat) (d : BitVec 512) : Option Nat :=
  if !sdAlignOk s d then some 0x0812 else if !sdRangeOk s e d then some 0x0813 else none

/-- A descriptor is refused (R196): a context fault for a bound engine, the refused state for a pooled one. -/
def refuseDesc (e index tag code : Nat) : Act := .look fun s =>
  let rec_ : Act := acts [recordErr (engPage e) code, raiseIrq (engPage e) 9,
    pageEvent (engPage e) 0x10 code (natBytes 4 (index % 65536 + 65536 * tag) ++ natBytes 2 code)]
  if e < 64 then ctxFault (e / 2) (s.atArrays (e / 2)).next code (engPage e) rec_
  else .seq rec_ (updEng e fun x => { x with state := .refused })

/-- The descriptor of a pass that waits on its take is refused: cause 0x14, its semaphore being bound to the owner no
longer (R427). -/
def refuseTake (e : Nat) (p : EPass) : Act := refuseDesc e p.index (sdTag p.desc) 0x0814

/-! ## Issue (R181 to R183, R186) -/

/-- Whether an engine may issue. -/
def engActive (st : EngineSt) : Bool :=
  (decide (st.state = .running) || decide (st.state = .loading)) && !st.stopping && !st.halting && !st.resetting

/-- The pass a request belongs to. -/
def engPass (st : EngineSt) (index : Nat) : Option EPass := (engPasses st).find? fun p => decide (p.index = index)

/-- A request that may be outstanding when the stop ends: a read from the host or from another device, its data not yet
here (R53). -/
def orphanable (dev : Nat) (d : BitVec 512) (r : EReq) : Bool :=
  r.data.isNone
    && (decide (sdKind d false = 2) || (decide (sdKind d false = 3) && decide (sdDevice (sdBase d false) ≠ dev)))

/-- Whether an engine has retired its tags, as far as a stop waits for them (R52, R53). -/
def State.engStopped (s : State) (e : Nat) : Bool :=
  (s.atEngines e).reqs.all fun r => ((engPass (s.atEngines e) r.pass).map fun p => orphanable s.deviceNo p.desc r).getD true

/-- What waits for an engine's tags goes on: its own stop, a felling of its array, the retirement of its context. -/
def settleTags (e : Nat) : Act := .look fun s =>
  acts [settleEngine e, whenA (decide (e < 64)) (settleFell (e / 2) State.engStopped), optA (s.engCtx e) settleRetire]

/-- A pass of an engine, by its place in the list, changes. -/
def updPass (e index : Nat) (f : EPass → EPass) : Act :=
  updEng e fun x => { x with
    cur := x.cur.map fun p => if p.index = index then f p else p,
    nxt := x.nxt.map fun p => if p.index = index then f p else p }

/-- The lowest tag that is neither outstanding nor orphaned. -/
def freeTag (e : Nat) (st : EngineSt) : Option Nat :=
  (List.range (engTags e)).find? fun t => (!st.reqs.any fun r => decide (r.tag = t)) && !st.orphans.contains t

/-- A request put back in its place among those not issued. -/
def backTodo (r : EReq) (l : List EReq) : List EReq :=
  (l.filter fun x => decide (reqOrder x < reqOrder r)) ++ r :: l.filter fun x => decide (reqOrder r < reqOrder x)

/-- A request meets a fault (R194): it goes back among those not issued, the fault is kept, and the engine halts. One
fault is counted for all requests that meet the same cause in one 64 KiB page (DEDUCED from R194 and its example, log
entry 27). A raster step whose store engine cannot write its strip buffer fails (R294). -/
def faultReq (e : Nat) (r : EReq) (addr code : Nat) : Act := .look fun s =>
  let st := s.atEngines e
  let known := st.faults.any fun x => decide (x.2.2.2 = code) && decide (x.2.2.1 / 65536 = addr / 65536)
  acts [updEng e fun x => { x with
      reqs := x.reqs.filter fun y => decide (y.tag ≠ r.tag), halting := true,
      faults := x.faults ++ [(r.pass, reqOrder r, addr, code)] },
    updPass e r.pass fun p => { p with todo := backTodo { r with tag := 0, data := none } p.todo },
    whenA (!known) (bump (engPage e) 0x0E0 1), whenA (decide (code = 0x081A)) (bump (engPage e) 0x098 1),
    settleTags e,
    whenA (decide (e < 64) && decide (e % 2 = 1) && decide (r.pass = 0)
        && (decide (code = 0x0818) || decide (code = 0x0819)))
      (optA ((s.engCtx e).bind fun c => (s.atEntries (s.atCtxs c).entry).bind fun x => x.strip) bufferWriteFailed)]

/-- The frame of a request to a window of another device (R352): a write carries its bytes in their 64-byte blocks. -/
def windowFrame (s : State) (e : Nat) (r : EReq) (ttag dev win offset : Nat) (data : Option (List Byte)) : List Byte :=
  let first := offset % 64
  let len := (first + r.len + 63) / 64 * 64
  let h : Header := {
    typ := if data.isSome then 1 else 2, vc := if data.isSome then 0 else 1, dst := dev, src := s.deviceNo,
    len := if data.isSome then len else 0, ttag := ttag, window := win, requester := e, offset := offset - first,
    first := first, last := first + r.len - 1 }
  frameBody h (match data with
    | some bs => (List.replicate first 0 ++ bs ++ List.replicate 64 0).take len
    | none => [])

/-- A request to a window of another device is sent; an unreachable device or a link that is down ends it at once
(R183, R356, R363). -/
def sendWindow (e : Nat) (r : EReq) (base offset : Nat) (data : Option (List Byte)) : Act := .look fun s =>
  let t := s.freeTtag
  let rr : RemoteReq := {
    engine := some (e, r.tag), dst := sdDevice base, requester := e,
    bytes := windowFrame s e r t (sdDevice base) (sdWindow base) offset data, busy := false, offer := none }
  .seq (.eff (.remotes t (some rr)))
    (sendRemote rr (if data.isSome then 0 else 1) fun _ =>
      .seq (.eff (.remotes t none)) (faultReq e r offset 0x081C))

/-- The requests of a pass that have been taken and whose units are not complete, in order, with those that have
retired left in (R194). -/
def openReqs (dev : Nat) (p : EPass) : List EReq :=
  ((List.range (p.taken - p.signalled)).map fun i => p.signalled + i).flatMap fun u => unitReqs dev p.desc p.index u

/-- Whether a request of an add pass lies within the 64 places after the oldest outstanding one that the mask of retired
requests covers (R194). -/
def inMask (dev : Nat) (st : EngineSt) (p : EPass) (r : EReq) : Bool :=
  match (st.reqs.filter fun x => decide (x.pass = p.index)).foldl (fun (m : Option Nat) x =>
      some (min (reqOrder x) (m.getD (reqOrder x)))) none with
  | none => true
  | some o => decide (((openReqs dev p).filter fun x => decide (o ≤ reqOrder x) && decide (reqOrder x < reqOrder r)).length ≤ 64)

/-- Whether the next request of a pass may issue: a tag of its class is free, an add pass has fewer than 64 in flight and
none beyond its mask, and a scratchpad source is in a transfer phase (R176, R183, R194). -/
def mayIssue (s : State) (e : Nat) (p : EPass) (r : EReq) : Bool :=
  let st := s.atEngines e
  decide (st.reqs.length + st.orphans.length < engTags e)
    && (!r.remote || decide ((st.reqs.filter fun x => x.remote).length < engTags e * s.share e 2 / 16))
    && (!sdIsAdd p.desc || (decide ((st.reqs.filter fun x => decide (x.pass = p.index)).length < 64) && inMask s.deviceNo st p r))
    && (decide (sdKind p.desc false ≠ 1) || decide ((s.atArrays (e / 2)).phase = .transfer))

/-- A host bus address of an engine: bits [63:48] come from ENG_HOST_HI (R178). -/
def State.hostAddr (s : State) (e a : Nat) : Nat := a % 2 ^ 48 + 2 ^ 48 * s.rfld (engPage e) 0x10C 0 16

/-- Requests issue in order, the current descriptor's before the next one's; `k` bounds them. -/
def issueMore (e : Nat) : Nat → Act
  | 0 => .done
  | k + 1 => .look fun s =>
    let st := s.atEngines e
    match (engPasses st).find? fun p => !p.todo.isEmpty with
    | none => .done
    | some p => match p.todo, freeTag e st with
      | r0 :: rest, some t =>
        if engActive st && mayIssue s e p r0 then
          let d := p.desc
          let toWindow := decide (sdKind d true = 3)
          let send (data : Option (List Byte)) : Act :=
            let r : EReq := { r0 with tag := t, data := data }
            acts [updPass e p.index fun q => { q with todo := rest },
              updEng e fun x => { x with reqs := x.reqs ++ [r] },
              bump (engPage e) 0x050 1,
              whenA (decide (sdKind d false = 2)) (.eff (.out (.hostRead (s.engOwner e) (s.hostAddr e r.src) r.len))),
              whenA (r.remote && toWindow && data.isSome) (sendWindow e r (sdBase d true) r.dst data),
              whenA (r.remote && !toWindow) (sendWindow e r (sdBase d false) r.src none)]
          .seq (if sdKind d false = 1 then
              spRead (e / 2) (hOff (s.handle (e / 2) (sdHandle (sdBase d false))) r0.src) r0.len fun bs => send (some bs)
            else send none) (issueMore e k)
        else .done
      | _, _ => .done

/-- An engine issues all it may. -/
def issueAll (e : Nat) : Act := .look fun s =>
  issueMore e ((engPasses (s.atEngines e)).foldl (fun n p => n + p.todo.length) 0)

/-! ## Passes and units end (R181, R187) -/

/-- A pass begins with the bases a re-arm gives it; one that fails its checks does not start, and its descriptor, armed,
is refused (R179, R187). -/
def rearmPass (e index : Nat) (d : BitVec 512) (ra : Rearm) : Act := .look fun s =>
  let d' := sdRearmed d ra
  match checkRearmed s e d' with
  | some code => .seq (updEng e fun x => { x with cur := some { desc := d, index := index, started := false }, shadow := none })
      (refuseDesc e index (sdTag d) code)
  | none => updEng e fun x => { x with cur := some { desc := d', index := index, started := true }, shadow := none }

/-- The current pass has ended (R187): counted and reported; the descriptor applies its shadow, waits armed, or gives
way to the next one, which is never persistent and discards a re-arm held for it (R188); an engine whose list has ended
is idle. -/
def passEnd (e : Nat) (p : EPass) : Act := .look fun s =>
  let st := s.atEngines e
  let d := p.desc
  acts [bump (engPage e) 0x068 1,
    whenA (sdEvt d) (.seq (raiseIrq (engPage e) 10)
      (pageEvent (engPage e) 0x13 0 (natBytes 4 (sdSeq d + 2 ^ 24 * sdTag d) ++ natBytes 4 p.signalled))),
    if sdPersist d && !sdOnce d then
      (match st.shadow with
      | some ra => rearmPass e p.index d ra
      | none => updEng e fun x => { x with cur := some { desc := d, index := p.index, started := false } })
    else
      acts [whenA st.shadow.isSome (bump (engPage e) 0x0F0 1),
        optA st.nxt fun q => whenA (st.pend.any fun x => decide (x.1 = q.index))
          (.seq (recordErr (engPage e) 0x0817)
            (updEng e fun x => { x with pend := x.pend.filter fun y => decide (y.1 ≠ q.index) })),
        .look fun t =>
          let len := t.rfld (engPage e) 0x108 0 16
          updEng e fun x => { x with
            cur := x.nxt, nxt := none, shadow := none,
            state := if x.nxt.isNone ∧ x.fetched = [] ∧ len ≤ x.fetchNext ∧ x.state = .running then .idle else x.state }]]

/-- Units that are complete signal in order, and passes that are over end; `k` bounds the steps. -/
def settlePass (e : Nat) : Nat → Act
  | 0 => .done
  | k + 1 => .look fun s =>
    let st := s.atEngines e
    match st.cur with
    | none => .done
    | some p =>
      if p.doneUnits.contains p.signalled then
        acts [updPass e p.index fun q => { q with
            doneUnits := q.doneUnits.filter fun u => decide (u ≠ p.signalled), signalled := q.signalled + 1 },
          whenA (decide (sdAdd p.desc ≠ 0) && s.semBound (sdSigSem p.desc) (s.engOwner e))
            (semAdd (sdSigSem p.desc) (BitVec.ofNat 32 (sdAdd p.desc))),
          settlePass e k]
      else if p.started ∧ p.signalled = sdUnits p.desc ∧ ¬ (st.reqs.any fun r => decide (r.pass = p.index)) then
        .seq (passEnd e p) (settlePass e k)
      else .done

/-- What follows the retirement of a request: signals, pass ends, further issue, a stop or halt that waits, and the
retirement of the engine's context. -/
def settleAfter (e : Nat) : Act := .look fun s =>
  acts [settlePass e ((engPasses (s.atEngines e)).foldl (fun n p => n + p.doneUnits.length) 0 + 3),
    issueAll e, settleTags e]

/-- A request has retired: its tag is free, its unit may be complete (R181). -/
def finishReq (e : Nat) (r : EReq) : Act := .look fun s =>
  let st := s.atEngines e
  let rest := st.reqs.filter fun x => decide (x.tag ≠ r.tag)
  let here (x : EReq) : Bool := decide (x.pass = r.pass) && decide (x.unit = r.unit)
  match engPass st r.pass with
  | none => updEng e fun x => { x with reqs := rest }
  | some p =>
    let past := !rest.any here && !p.todo.any here
    acts [updEng e fun x => { x with reqs := rest },
      updPass e r.pass fun q => { q with
        doneUnits := if past then q.doneUnits ++ [r.unit] else q.doneUnits,
        doneReqs := if sdIsAdd q.desc then
            (if past then q.doneReqs.filter fun k => decide (k / 2 ^ 32 ≠ r.unit) else q.doneReqs ++ [reqOrder r])
          else [] },
      bump (engPage e) 0x040 (if farSide (sdKind p.desc false) then r.len else 0),
      bump (engPage e) 0x048 (if farSide (sdKind p.desc true) then r.len else 0),
      whenA past (bump (engPage e) 0x060 1), settleAfter e]

/-! ## Data of a request -/

/-- The engine as a client of the memory system. -/
def State.engClient (s : State) (e : Nat) : StackClient := ⟨.engine e, s.engOwner e⟩

/-- 32-bit elements of two byte lists added (R177): the sums, and whether an integer sum saturated. -/
def addWords (f32 : Bool) : Nat → List Byte → List Byte → List Byte × Bool
  | 0, _, _ => ([], false)
  | k + 1, xs, ys =>
    let x := bytesNat (xs.take 4)
    let y := bytesNat (ys.take 4)
    let rest := addWords f32 k (xs.drop 4) (ys.drop 4)
    if f32 then (natBytes 4 (f32Add false x y).1 ++ rest.1, rest.2)
    else
      let v := signedOf x 32 + signedOf y 32
      let c := max (-(2 ^ 31 : Int)) (min v (2 ^ 31 - 1))
      (natBytes 4 (wrapInt c 32) ++ rest.1, decide (c ≠ v) || rest.2)

/-- The fault a failed stack read or write is for an engine (R194). -/
def readFault : ReadEnd → Nat
  | .fault => 0x0818
  | .denied => 0x0819
  | _ => 0x081A

/-- A request keeps data it has read. -/
def keepData (e tag : Nat) (bs : List Byte) : Act :=
  updEng e fun x => { x with reqs := x.reqs.map fun r => if r.tag = tag then { r with data := some bs } else r }

/-- A write into a window of this device has been answered busy: it keeps its bytes and waits for its BUSY_RETRY as a
request to another device does (R353, R361). -/
def busyHere (e : Nat) (r : EReq) (bs : List Byte) : Act := .look fun s =>
  .seq (keepData e r.tag bs) (.eff (.remotes s.freeTtag (some
    { engine := some (e, r.tag), dst := s.deviceNo, requester := e, bytes := [], busy := true, offer := none })))

/-- Whether a request has been answered busy and waits to be issued again (R353). -/
def State.busyReq (s : State) (e tag : Nat) : Bool :=
  s.remotes.any fun r => r.2.any fun x => decide (x.engine = some (e, tag)) && x.busy

/-- The bytes of a request reach its destination, and it retires (R181). -/
def deliverReq (e : Nat) (r : EReq) (d : BitVec 512) (bs : List Byte) : Act := .look fun s =>
  let done_ : Act := finishReq e r
  let base := sdBase d true
  let store (data : List Byte) : Act :=
    virtWrite (s.engClient e) (s.atEngines e).asid r.dst data 0x0818 0x0819 none fun x => match x with
      | .ok => done_
      | .fault => faultReq e r r.dst 0x0818
      | .denied => faultReq e r r.dst 0x0819
  match sdKind d true with
  | 1 => acts [putSpList (e / 2) (hOff (s.handle (e / 2) (sdHandle base)) r.dst) bs,
      dropGather (e / 2) (hOff (s.handle (e / 2) (sdHandle base)) r.dst) bs.length,
      bump (spPage (e / 2)) 0x058 (linesOf (hOff (s.handle (e / 2) (sdHandle base)) r.dst) bs.length), done_]
  | 0 =>
    if sdIsAdd d then
      virtRead (s.engClient e) (s.atEngines e).asid r.dst r.len .add 0x0818 0x0819 fun x => match x with
        | .ok old =>
          let sum := addWords (decide (sdOp d = 3)) (r.len / 4) old bs
          .seq (whenA sum.2 (bump (engPage e) 0x090 1)) (store sum.1)
        | x => faultReq e r r.dst (readFault x)
    else store bs
  | 2 => .seq (.eff (.out (.hostWrite (s.engOwner e) (s.hostAddr e r.dst) bs))) done_
  | _ =>
    let first := r.dst % 64
    let len := (first + r.len + 63) / 64 * 64
    windowWrite (sdWindow base) s.deviceNo (r.dst - first) first (first + r.len - 1)
      ((List.replicate first 0 ++ bs ++ List.replicate 64 0).take len) none none fun x => match x with
      | .status 0 => done_
      | .status 2 => busyHere e r bs
      | .wait => keepData e r.tag bs
      | .status _ => faultReq e r r.dst 0x081C

/-- The bytes of a request are read at its source; `k` gets them (R181, R194). -/
def sourceReq (e : Nat) (r : EReq) (d : BitVec 512) (host : List Byte) (k : List Byte → Act) : Act := .look fun s =>
  match r.data with
  | some bs => k bs
  | none => match sdKind d false with
    | 0 => virtRead (s.engClient e) (s.atEngines e).asid r.src r.len .read 0x0818 0x0819 fun x => match x with
      | .ok bs => k bs
      | x => faultReq e r r.src (readFault x)
    | 2 => whenA (decide (host.length = r.len)) (k host)
    | 3 =>
      let first := r.src % 64
      windowRead (sdWindow (sdBase d false)) s.deviceNo (r.src - first) first (first + r.len - 1) fun st bs =>
        if st = 0 then k bs else faultReq e r r.src (if st = 3 then 0x081A else 0x081C)
    | _ =>
      spRead (e / 2) (hOff (s.handle (e / 2) (sdHandle (sdBase d false))) r.src) r.len k

/-- Whether an engine's data may reach its scratchpad: in a transfer phase, while the array is stopped, or, while the
engine is stopping, with no step in flight that computes (R176). -/
def commitPhase (s : State) (e : Nat) (d : BitVec 512) : Bool :=
  let st := s.atArrays (e / 2)
  decide (sdKind d true ≠ 1) || decide (st.phase = .transfer) || decide (st.phase = .stopped)
    || ((s.atEngines e).stopping && st.flight.all fun x => x.waiting)

/-- A request of an engine, by tag, with its descriptor. -/
def State.engReq (s : State) (e tag : Nat) : Option (EReq × BitVec 512) :=
  let st := s.atEngines e
  match st.reqs.find? fun r => decide (r.tag = tag) with
  | none => none
  | some r => (engPass st r.pass).map fun p => (r, p.desc)

/-- REQUEST_RETIRE (R181, R194): a request's far end has done its part. Data for a scratchpad waits in the return buffer
outside a transfer phase (R176); a write to another device goes out once its source has been read, and retires with
its completion. Nothing retires while a busy answer waits for its retry (R353). -/
def actRequestRetire (e : Fin 80) (tag : Nat) (result : RequestResult) : Act := .look fun s =>
  optA (s.engReq e.val tag) fun x =>
    let r := x.1
    let d := x.2
    if s.busyReq e.val tag then .done else
    match result with
    | .hostError | .hostTimeout => whenA (decide (sdKind d false = 2)) (faultReq e.val r r.src 0x081B)
    | .parity m line =>
      whenA (decide (sdKind d false = 1))
        (.seq (updEng e.val fun y => { y with reqs := y.reqs.filter fun z => decide (z.tag ≠ tag) })
          (.seq (parityFault (e.val / 2) (s.atArrays (e.val / 2)).next m line) (settleTags e.val)))
    | .done host =>
      if ¬ commitPhase s e.val d then
        whenA (!r.remote && r.data.isNone) (sourceReq e.val r d host fun bs => keepData e.val tag bs)
      else if r.remote ∧ sdKind d true = 3 then
        whenA r.data.isNone
          (sourceReq e.val r d host fun bs => .seq (keepData e.val tag bs) (sendWindow e.val r (sdBase d true) r.dst (some bs)))
      else if r.remote ∧ r.data = none then .done
      else sourceReq e.val r d host fun bs => deliverReq e.val r d bs

/-- REQUEST_RETIRE. -/
def execRequestRetire (e : Fin 80) (tag : Nat) (result : RequestResult) (s : State) :
    Host.Outcome State Fault Refusal :=
  meaning (.requestRetire e tag result) (served (actRequestRetire e tag result)) s

/-- An orphaned tag returns to its engine's pool (R53). -/
def dropOrphan (e tag : Nat) : Act := .look fun s =>
  whenA ((s.atEngines e).orphans.contains tag)
    (.seq (updEng e fun x => { x with orphans := x.orphans.filter fun t => decide (t ≠ tag) }) (issueAll e))

/-- The completion of a request to another device, with its status and the bytes of its range (R353); of an orphaned
one the data is discarded and the tag returns (R53). -/
def endRemote (e tag status : Nat) (payload : List Byte) : Act := .look fun s =>
  if (s.atEngines e).orphans.contains tag then dropOrphan e tag else
  optA (s.engReq e tag) fun x =>
    let r := x.1
    let d := x.2
    let far := if sdKind d true = 3 then r.dst else r.src
    if status = 0 then
      (if sdKind d true = 3 then finishReq e r
       else
         let bs := sliceBytes payload (r.src % 64) r.len
         if commitPhase s e d then deliverReq e r d bs else keepData e tag bs)
    else faultReq e r far (if status = 3 then 0x081A else 0x081C)

/-! ## Lists (R185 to R188) -/

/-- STREAM_LIST_FETCH (R185): the next descriptor of the list, up to four ahead; a failed fetch is held in its place. -/
def actStreamListFetch (e : Fin 80) : Act := .look fun s =>
  let st := s.atEngines e.val
  let len := s.rfld (engPage e.val) 0x108 0 16
  let base := s.reg64 (engPage e.val) 0x100 % 2 ^ 48 / 64 * 64
  if ¬ engActive st ∨ len ≤ st.fetchNext ∨ 4 ≤ st.fetched.length ∨ st.fetched.contains none then .done else
  let push (d : Option (BitVec 512)) : Act :=
    updEng e.val fun x => { x with fetched := x.fetched ++ [d], fetchNext := x.fetchNext + 1 }
  virtRead ⟨.listFetch e.val, s.engOwner e.val⟩ st.asid (base + 64 * st.fetchNext) 64 .fetch 0x081D 0x081D fun r => match r with
    | .ok bs => push (some (BitVec.ofNat 512 (bytesNat bs)))
    | _ => push none

/-- STREAM_LIST_FETCH. -/
def execStreamListFetch (e : Fin 80) (s : State) : Host.Outcome State Fault Refusal :=
  meaning (.streamListFetch e) (served (actStreamListFetch e)) s

/-- Whether a re-arm's seq lies in the window after a descriptor's (R187). -/
def seqAhead (new old : Nat) : Bool :=
  let v := (new + 2 ^ 24 - old % 2 ^ 24) % 2 ^ 24
  decide (0 < v) && decide (v < 2 ^ 23)

/-- A descriptor becomes the current one (R179, R187, R188): it is checked, takes a pending shadow, starts its first pass
or waits armed. -/
def makeCurrent (e index : Nat) (d : BitVec 512) (rest : List (Option (BitVec 512))) : Act := .look fun s =>
  let st := s.atEngines e
  match checkDesc s e d with
  | some code => refuseDesc e index (sdTag d) code
  | none =>
    let pend := (st.pend.find? fun x => decide (x.1 = index)).map Prod.snd
    let enter (p : EPass) : Act := updEng e fun x => { x with
      state := .running, fetched := rest, cur := some p, pend := x.pend.filter fun y => decide (index < y.1) }
    let plain : Act := enter { desc := d, index := index, started := !(sdPersist d && decide (sdSeq d = 0)) }
    match pend with
    | none => plain
    | some ra =>
      if sdPersist d && seqAhead ra.seq (sdSeq d) then
        match checkRearmed s e (sdRearmed d ra) with
        | some code => refuseDesc e index (sdTag d) code
        | none => enter { desc := sdRearmed d ra, index := index, started := true }
      else .seq (recordErr (engPage e) 0x0817) plain

/-- DESCRIPTOR_CURRENT (R179, R186, R196): the next descriptor becomes current; or, while the current one has issued all
its requests and neither drains nor stays, the next one begins beside it. A refusal waits for the current one's end. -/
def actDescriptorCurrent (e : Fin 80) : Act := .look fun s =>
  let st := s.atEngines e.val
  let index := st.fetchNext - st.fetched.length
  if ¬ engActive st then .done else
  match st.fetched, st.cur with
  | [], _ => .done
  | none :: _, none => refuseDesc e.val index 0 0x081D
  | none :: _, some _ => .done
  | some d :: rest, none => makeCurrent e.val index d rest
  | some d :: rest, some p =>
    let past := p.started && p.todo.isEmpty && decide (p.taken = sdUnits p.desc)
    let gives := !sdDrain p.desc && (!sdPersist p.desc || sdOnce p.desc)
    whenA (past && gives && st.nxt.isNone && !sdPersist d && (checkDesc s e.val d).isNone)
      (updEng e.val fun x => { x with fetched := rest, nxt := some { desc := d, index := index, started := true } })

/-- DESCRIPTOR_CURRENT. -/
def execDescriptorCurrent (e : Fin 80) (s : State) : Host.Outcome State Fault Refusal :=
  meaning (.descriptorCurrent e) (served (actDescriptorCurrent e)) s

/-- A unit of a pass starts: its requests are formed and issue (R181, R182). -/
def startUnit (e : Nat) (p : EPass) : Act := .look fun s =>
  acts [updPass e p.index fun q => { q with taken := q.taken + 1, todo := unitReqs s.deviceNo q.desc q.index q.taken },
    bump (engPage e) 0x058 (savedByMerging p.desc p.taken), issueAll e]

/-- UNIT_TAKE (R181): the next unit of the current descriptor, or of the one beside it, starts once its take is met, with
at most 16 units in flight; requests that had to wait for a tag or a transfer phase go on issuing. A unit that would take
from a semaphore withdrawn since its descriptor was checked refuses it, as R427 refuses a waiting one (DEDUCED from R58,
log entry 54). -/
def actUnitTake (e : Fin 80) : Act := .look fun s =>
  let st := s.atEngines e.val
  if ¬ engActive st then .done else
  match engStarting st with
  | none => issueAll e.val
  | some p =>
    let v := BitVec.ofNat 32 (sdTake p.desc)
    if sdTake p.desc = 0 then startUnit e.val p
    else if ¬ s.semBound (sdWaitSem p.desc) (s.engOwner e.val) then refuseTake e.val p
    else whenA (s.semReached (sdWaitSem p.desc) v) (.seq (semTake (sdWaitSem p.desc) v) (startUnit e.val p))

/-- UNIT_TAKE. -/
def execUnitTake (e : Fin 80) (s : State) : Host.Outcome State Fault Refusal :=
  meaning (.unitTake e) (served (actUnitTake e)) s

/-! ## Re-arms (R187, R188, R198) -/

/-- A re-arm for a list index of an engine. -/
def rearm (e index : Nat) (ra : Rearm) : Act := .look fun s =>
  let st := s.atEngines e
  let bad : Act := recordErr (engPage e) 0x0817
  let ahead : Bool := match st.cur with
    | some p => decide (p.index < index)
    | none => decide (st.fetchNext - st.fetched.length ≤ index)
  let pending : Act :=
    if index ≤ 7 ∧ ahead ∧ index < s.rfld (engPage e) 0x108 0 16 ∧ st.state ≠ .idle then
      .seq (whenA (st.pend.any fun x => decide (x.1 = index)) (bump (engPage e) 0x0F0 1))
        (updEng e fun x => { x with pend := (x.pend.filter fun y => decide (y.1 ≠ index)) ++ [(index, ra)] })
    else bad
  match st.cur with
  | some p =>
    if index ≠ p.index then pending
    else if ¬ sdPersist p.desc ∨ ¬ seqAhead ra.seq (sdSeq p.desc) then bad
    else if ¬ p.started ∧ engActive st then rearmPass e p.index p.desc ra
    else .seq (whenA st.shadow.isSome (bump (engPage e) 0x0F0 1)) (updEng e fun x => { x with shadow := some ra })
  | none => pending

/-- REARM (R187, R201): ENG_RA_CTL.go submits the re-arm that the ENG_RA registers hold. -/
def actRearm (f : Func) (e : Fin 80) (ctl : Word) : Act :=
  withWrite f (engPage e.val) (.look fun s =>
    let p := engPage e.val
    .seq (setReg p 0x144 (ctl &&& 0x00FFFF00))
      (rearm e.val (fld ctl 8 16) ⟨s.reg64 p 0x130 % 2 ^ 48, s.reg64 p 0x138 % 2 ^ 48, s.rfld p 0x140 0 24⟩))

/-- REARM. -/
def execRearm (f : Func) (e : Fin 80) (ctl : Word) (s : State) : Host.Outcome State Fault Refusal :=
  meaning (.rearm f e ctl) (served (actRearm f e ctl)) s

/-! ## Start, resume, reset (R185, R195, R196, R204) -/

/-- A pooled engine starts the list its owner has written, for a context or none. -/
def startList (e asid : Nat) (ctx : Option Nat) : Act :=
  updEng e fun x => { state := .loading, asid := asid, orphans := x.orphans, claimed := ctx }

/-- ENGINE_START (R185): in any state but idle, or while claimed, ignored with cause 0x1E. -/
def actEngineStart (f : Func) (q : Fin 16) : Act :=
  withWrite f (engPage (64 + q.val)) (.look fun s =>
    let e := 64 + q.val
    let st := s.atEngines e
    if st.state = .idle ∧ st.claimed = none ∧ st.stopping = false then
      whenA (decide (s.rfld (engPage e) 0x108 0 16 ≠ 0)) (startList e 0 none)
    else recordErr (engPage e) 0x081E)

/-- ENGINE_START. -/
def execEngineStart (f : Func) (q : Fin 16) (s : State) : Host.Outcome State Fault Refusal :=
  meaning (.engineStart f q) (served (actEngineStart f q)) s

/-- The requests of a pass to issue again from its resume point (R194, R195): those of every unit taken and not complete,
without the adds that have retired. -/
def resumeTodo (dev : Nat) (p : EPass) : List EReq :=
  ((List.range (p.taken - p.signalled)).map fun i => p.signalled + i).flatMap fun u =>
    if p.doneUnits.contains u then []
    else (unitReqs dev p.desc p.index u).filter fun r => !p.doneReqs.contains (reqOrder r)

/-- The data bytes of requests. -/
def reqBytes (l : List EReq) : Nat := l.foldl (fun n r => n + r.len) 0

/-- An engine goes on from its resume points; bytes of copies issued again are counted (R195, R197). -/
def resumeEngine (e : Nat) : Act := .look fun s =>
  let st := s.atEngines e
  let again (p : EPass) : Nat := reqBytes (resumeTodo s.deviceNo p) - reqBytes p.todo
  acts [bump (engPage e) 0x0E8 ((engPasses st).foldl (fun n p => n + again p) 0),
    updEng e fun x => { x with
      state := .running, halting := false, faults := [], stopping := false,
      cur := x.cur.map fun p => { p with todo := resumeTodo s.deviceNo p },
      nxt := x.nxt.map fun p => { p with todo := resumeTodo s.deviceNo p } },
    issueAll e]

/-- ENGINE_RESUME (R195): in any state but faulted, ignored with cause 0x1E. -/
def actEngineResume (f : Func) (e : Fin 80) : Act :=
  withWrite f (engPage e.val) (.look fun s =>
    let st := s.atEngines e.val
    if st.state = .faulted ∧ st.stopping = false then resumeEngine e.val else recordErr (engPage e.val) 0x081E)

/-- ENGINE_RESUME. -/
def execEngineResume (f : Func) (e : Fin 80) (s : State) : Host.Outcome State Fault Refusal :=
  meaning (.engineResume f e) (served (actEngineResume f e)) s

/-- ENGINE_RESET (R196, R200): a pooled engine retires its tags and is idle. -/
def actEngineReset (f : Func) (q : Fin 16) : Act :=
  withWrite f (engPage (64 + q.val))
    (.seq (updEng (64 + q.val) fun x => { x with resetting := true, halting := false }) (settleEngine (64 + q.val)))

/-- ENGINE_RESET. -/
def execEngineReset (f : Func) (q : Fin 16) (s : State) : Host.Outcome State Fault Refusal :=
  meaning (.engineReset f q) (served (actEngineReset f q)) s

/-- ORPHANED_TAG_RETURN (R53): the data of an orphaned host read is discarded and its tag returns to its pool; the tag
of a remote read returns with that read's own completion. -/
def actOrphanedTagReturn (e : Fin 80) (tag : Nat) : Act := .look fun s =>
  whenA (!s.remotes.any fun r => decide ((r.2.bind fun x => x.engine) = some (e.val, tag))) (dropOrphan e.val tag)

/-- ORPHANED_TAG_RETURN. -/
def execOrphanedTagReturn (e : Fin 80) (tag : Nat) (s : State) : Host.Outcome State Fault Refusal :=
  meaning (.orphanedTagReturn e tag) (served (actOrphanedTagReturn e tag)) s

/-! ## Semaphores (R189, R203) -/

/-- SEMAPHORE_SET (R189, R190). -/
def actSemaphoreSet (f : Func) (n : Fin 4096) (v : Word) : Act :=
  withWrite f (semPage n.val) (.seq (putSem n.val v) (bump (semPage n.val) 0x058 1))

/-- SEMAPHORE_SET. -/
def execSemaphoreSet (f : Func) (n : Fin 4096) (v : Word) (s : State) : Host.Outcome State Fault Refusal :=
  meaning (.semaphoreSet f n v) (served (actSemaphoreSet f n v)) s

/-- SEMAPHORE_ADD (R189, R203). -/
def actSemaphoreAdd (f : Func) (n : Fin 4096) (v : Word) : Act := withWrite f (semPage n.val) (semAdd n.val v)

/-- SEMAPHORE_ADD. -/
def execSemaphoreAdd (f : Func) (n : Fin 4096) (v : Word) (s : State) : Host.Outcome State Fault Refusal :=
  meaning (.semaphoreAdd f n v) (served (actSemaphoreAdd f n v)) s

end Sys2Proof.Machine
end

