-- ==== Sys2Proof/Machine/Arrays.lean ====
section
/-! DEFINITION. The sequencer of an array (chapter 6): fetching, issuing and completing tile steps, completion records,
stops, faults, felling, and the commands of the array and quantiser pages. -/

namespace Sys2Proof.Machine

/-- The host answers a read of a clearing register: the value, which then reads 0 (R4, R91). -/
def readClear (f : Func) (p off : Nat) : Act :=
  withRead f p 4 (.look fun s => .seq (readWord (s.reg p off).toNat) (setReg p off 0))

/-- QP_MAXABS_READ. -/
def actQpMaxabsRead (f : Func) (a : Fin 32) (q : Fin 8) : Act := readClear f (qntPage a.val) (0x108 + 32 * q.val)

/-- QP_MAXABS_READ (R91). -/
def execQpMaxabsRead (f : Func) (a : Fin 32) (q : Fin 8) (s : State) : Host.Outcome State Fault Refusal :=
  meaning (.qpMaxabsRead f a q) (served (actQpMaxabsRead f a q)) s

/-- QP_HW_MAXABS_READ. -/
def actQpHwMaxabsRead (f : Func) (a : Fin 32) (q : Fin 8) : Act := readClear f (qntPage a.val) (0x10C + 32 * q.val)

/-- QP_HW_MAXABS_READ (R91). -/
def execQpHwMaxabsRead (f : Func) (a : Fin 32) (q : Fin 8) (s : State) : Host.Outcome State Fault Refusal :=
  meaning (.qpHwMaxabsRead f a q) (served (actQpHwMaxabsRead f a q)) s

/-! ## The context of an array -/

/-- The body entry of a context. -/
def State.ctxBody (s : State) (c : Nat) : BitVec 512 := ((s.atEntries (s.atCtxs c).entry).map entryBody).getD 0

/-- prog of a body entry (R240). -/
def bodyProg (b : BitVec 512) : Nat := fld b 0 48

/-- hmap of a body entry. -/
def bodyHmap (b : BitVec 512) : Nat := fld b 64 48

/-- ld_list and ld_len of a body entry. -/
def bodyLd (b : BitVec 512) : Nat × Nat := (fld b 128 48, fld b 176 16)

/-- st_list and st_len of a body entry. -/
def bodySt (b : BitVec 512) : Nat × Nat := (fld b 192 48, fld b 240 16)

/-- cmpl of a body entry. -/
def bodyCmpl (b : BitVec 512) : Nat := fld b 256 48

/-- cmpl_n of a body entry; 0 acts as 1. -/
def bodyCmplN (b : BitVec 512) : Nat := max 1 (fld b 304 16)

/-- save of a body entry. -/
def bodySave (b : BitVec 512) : Nat := fld b 320 48

/-- save_kib of a body entry. -/
def bodySaveKib (b : BitVec 512) : Nat := fld b 368 16

/-- The sequencer as a client of the memory system, for the array's owner. -/
def State.seqClient (s : State) (a : Nat) : StackClient := ⟨.sequencer a, (s.unitAt (arrUnit a)).owner⟩

/-! ## Fetch and validation (R100, R110) -/

/-- TILE_STEP_FETCH (R100): the next descriptor enters the queue of 32 and is validated; a failed fetch is held in its
place; nothing is fetched beyond a last, refused or failed step. -/
def actTileStepFetch (a : Fin 32) : Act := .look fun s =>
  let st := s.atArrays a.val
  match s.liveCtx a.val with
  | none => .done
  | some c =>
    if st.closed ∨ 32 ≤ st.queue.length then .done else
    let push (q : QStep) : Act := updArr a.val fun x => { x with
      queue := x.queue ++ [q], fetched := x.fetched + 1,
      closed := q.failed || q.refused.isSome || tsLast q.desc }
    virtRead (s.seqClient a.val) (s.atCtxs c).asid (st.prog + 64 * st.fetched) 64 .fetch 0x053C 0x053C fun r =>
      match r with
      | .ok bs => .look fun t =>
        let d := BitVec.ofNat 512 (bytesNat bs)
        let v := validate t a.val c d
        push ⟨st.fetched, d, false, v.1, v.2⟩
      | _ => push ⟨st.fetched, 0, true, none, 0⟩

/-- TILE_STEP_FETCH. -/
def execTileStepFetch (a : Fin 32) (s : State) : Host.Outcome State Fault Refusal :=
  meaning (.tileStepFetch a) (served (actTileStepFetch a)) s

/-! ## Completion records (R115) -/

/-- The 16 bytes of a completion record. -/
def stepRecordBytes (step tag status flags acc a cycles code : Nat) (t : Dword) : List Byte :=
  natBytes 4 (step % 65536 + 65536 * tag + 2 ^ 24 * status) ++ natBytes 4 (flags + 256 * acc + 65536 * a)
    ++ natBytes 4 (cycles % 65536 + 65536 * code) ++ natBytes 4 t.toNat

/-- A completion record is mirrored in ARR_LAST and written to the completion area; `k` gets whether the write has
passed (R115). -/
def stepRecord (a step tag status flags cycles code : Nat) (k : Bool → Act) : Act := .look fun s =>
  let st := s.atArrays a
  match st.ctx with
  | none => .done
  | some c =>
    let body := s.ctxBody c
    let bs := stepRecordBytes step tag status flags (st.acc ||| flags) a cycles code s.time
    .seq (forA (List.range 4) fun i => setRegN (arrPage a) (0x110 + 4 * i) (bytesNat (sliceBytes bs (4 * i) 4)))
      (virtWrite (s.seqClient a) (s.atCtxs c).asid (bodyCmpl body + 16 * (st.records % bodyCmplN body)) bs 0x053C 0x053C
        none fun r => match r with
        | .ok => acts [updArr a fun x => { x with records := x.records + 1, acc := 0 }, bump (arrPage a) 0x0C0 1, k true]
        | _ => k false)

/-- The fault of a record that could not be written (R115, R117). -/
def recordFault (a step tag : Nat) : Act := ctxFault a step 0x053C (arrPage a) (arrayError a step tag 0x053C 0)

/-- A refused step: the error in the page of its class, the refused record, event 0x0510, and the end of the batch step
(R115, R117). -/
def refuseStep (a step tag code : Nat) (cmpl : Bool) (info1 : Nat) : Act :=
  acts [
    if code / 256 = 6 then recordErr (qntPage a) code else arrayError a step tag code (BitVec.ofNat 32 info1),
    bump (arrPage a) 0x070 1, raiseIrq (arrPage a) 10,
    stepRecord a step tag 1 0 0 code fun ok =>
      if ok then
        acts [whenA cmpl (raiseIrq (arrPage a) 8),
          pageEvent (arrPage a) 0x10 code (natBytes 4 (step % 65536 + 65536 * tag) ++ natBytes 2 code),
          endBatchStep a 1 code]
      else recordFault a step tag]

/-! ## Faults (R83, R95, R117, R161) -/

/-- The fault a step's computation has met: recorded in the quantiser page for its class, else in the array page. R95
gives a knot skew its first detail alone: the second is free (log entry 16). -/
def stepFault (a step tag : Nat) (e : StepFault) : Act :=
  ctxFault a step e.code (if e.code / 256 = 6 then qntPage a else if e.code / 256 = 7 then spPage a else arrPage a)
    (if e.code / 256 = 6 then
      acts [match e.info with
          | some i => withFree fun x => recordErrI (qntPage a) e.code (BitVec.ofNat 32 i.1)
              (if e.code = 0x0611 then x.extractLsb' 0 32 else BitVec.ofNat 32 i.2)
          | none => recordErr (qntPage a) e.code,
        raiseIrq (qntPage a) 8, whenA (decide (e.code = 0x0610)) (bump (qntPage a) 0x090 1),
        whenA (decide (e.code = 0x0611) || e.knotSkew) (bump (qntPage a) 0x098 1)]
    else arrayError a step tag e.code (BitVec.ofNat 32 ((e.info.map Prod.snd).getD 0)))

/-! ## Issue (R101, R102, R112) -/

/-- A free choice between two values (log entry 3). -/
def freeBit (site : Nat) (free : BitVec 64) (i : Nat) : Bool := (Config.unstated site [free.toNat, i]).getLsbD 0

/-- Whether a region a step writes is the region it reads, at the same handle, offset and pitch, in a kind that computes
in place (R152; the whole region read as the same rows of the same bytes, DEDUCED, log entry 56). -/
def inPlace (d : BitVec 512) (r w : Use) : Bool :=
  ((decide (tsOp d = 4) && !tsSrc d) || (decide (tsOp d = 7) && decide (tsSub d = 0)))
    && decide (r.h = w.h) && decide (r.off = w.off) && decide (r.pitch = w.pitch) && decide (r.rows = w.rows)
    && decide (r.row = w.row)

/-- The regions a step reads that overlap, other than in place, with one it writes (R152): the bytes shared by their rows
decide it. The expanded buffer of a CONV or POOL step is written by the step itself before it reads it. -/
def overlapReads (s : State) (a : Nat) (d : BitVec 512) : List Use :=
  let us := stepTouched s a d
  let x := us.filter fun u => tsGeo d && decide (u.h = tsXH d) && u.write && decide (u.off = 0)
  (us.filter (fun u => !u.write)).filter (fun r => us.any fun w => w.write && usesTouch r w && !inPlace d r w)
    ++ x.filter fun r => us.any fun w => w.write && decide (w ≠ r) && usesTouch r w

/-- Whether a step's read and write regions overlap other than in place (R152). -/
def stepOverlaps (s : State) (a : Nat) (d : BitVec 512) : Bool := !(overlapReads s a d).isEmpty

/-- A scratchpad byte of an array lies in one of some regions. -/
def inUses (s : State) (a : Nat) (us : List Use) (off : Nat) : Bool :=
  us.any fun u =>
    let first := hOff (s.handle a u.h) 0
    decide (first ≤ off) && rowsMeet u (off - first) 1

/-- The bits of the smallest value that some regions hold at a byte. -/
def valueBits (s : State) (a : Nat) (us : List Use) (off : Nat) : Nat :=
  (us.filter fun u => inUses s a [u] off).foldl (fun n u => min n u.bits) 128

/-- A byte that holds, value by value, what stood there or what a step wrote, by a free choice for each value of `bits`
bits: no value is torn (R152). -/
def mixByte (free : BitVec 64) (salt bits off : Nat) (old new : Byte) : Byte :=
  if bits = 4 then
    ((if freeBit 1 free (salt + 2 * off) then new else old) &&& 0x0F)
      ||| ((if freeBit 1 free (salt + 2 * off + 1) then new else old) &&& 0xF0)
  else if freeBit 1 free (salt + off * 8 / max 8 bits) then new else old

/-- A state in which bytes of an array's scratchpads hold other values. -/
def State.withSp (s : State) (a : Nat) (ws : List (Nat × Byte)) : State :=
  { s with sp := ws.foldl (fun t w => tblSet spDefault (spKey a w.1) w.2 t) s.sp }

/-- What a step computes when each value of the overlap it reads is the one before the step or one the step wrote, by a
free choice; values computed from it go round, as many times as the step has rows (R152). Its geometry record was read
before (R134). -/
def overlapRounds (s : State) (a : Nat) (d : BitVec 512) (rs : List Use) (free : BitVec 64) :
    Nat → List (Nat × Byte) → List (Nat × Byte)
  | 0, ws => ws
  | k + 1, ws =>
    let us := rs ++ (stepTouched s a d).filter fun u => u.write
    let record := hOff (s.handle a (tsXH d)) 0
    let seen := (ws.filter fun w => inUses s a rs w.1 && !(tsGeo d && decide (record ≤ w.1) && decide (w.1 < record + 32))).map
      fun w => (w.1, mixByte free (2 ^ 26 * (k + 1)) (valueBits s a us w.1) w.1 (s.spByte a w.1) w.2)
    match computeStep (s.withSp a seen) a d with
    | .ok o => overlapRounds s a d rs free k o.writes
    | .error _ => ws

/-- The bytes a step leaves when its regions overlap (R152): outside the overlap what it computes; inside, value by value,
what stood there or what it computes (log entry 3). Where the output meets the expanded buffer, every output may be
computed from the overlap. -/
def overlapBytes (s : State) (a : Nat) (d : BitVec 512) (free : BitVec 64) (ws : List (Nat × Byte)) : List (Nat × Byte) :=
  let rs := overlapReads s a d
  let wr := (stepTouched s a d).filter fun u => u.write
  let all := rs.any fun r => r.write
  (overlapRounds s a d rs free (tsM d) ws).map fun w =>
    if all || inUses s a rs w.1 then (w.1, mixByte free 0 (valueBits s a wr w.1) w.1 (s.spByte a w.1) w.2) else w

/-- The lines the gather buffer holds after a step's narrow reads: index, mask and segment lists, group scales, heartwood
and knot lists, the rows of a gather or a MOVE, and the pieces of an expansion (R148; the last 32 in the order of the
descriptor's handles, DESIGN CHOICE, log entry 56). -/
def gatherLines (s : State) (a : Nat) (d : BitVec 512) : List Nat :=
  let xw := sideW s a d
  let xa := sideA s a d
  let wide (h : Nat) : Bool := decide (h = tsBH d) || decide (h = tsPH d) || (decide (h = xw.h) && !decide (tsOp d = 5 ∧ tsSub d = 1))
    || (decide (h = xa.h) && !(tsGeo d || decide (tsOp d = 7) || decide (tsOp d = 5 ∧ tsSub d = 0)))
  let ls := ((stepSets s a d).filter fun u => !u.write && !wide u.h && decide (u.len ≠ 0)).flatMap fun u =>
    let first := hOff (s.handle a u.h) u.off / 128
    let n := hOff (s.handle a u.h) (u.off + u.len - 1) / 128 + 1 - first
    (List.range (min n 32)).map fun i => first + (n - min n 32) + i
  ls.drop (ls.length - 32)

/-- What a step's reads add to the scratchpad page's counters: lines of each memory it reads, gather accesses and lines,
and collisions with waiting arrivals. How many there are of each the spec does not give: free counts (R170, log entry
48). -/
def countStep (a : Nat) (d : BitVec 512) (gather : List Nat) : Act := .look fun s =>
  let reads (m : SpMem) : Bool := (stepRegions s a d false).any fun u => decide (hMem (s.handle a u.h) = m) &&
    (!u.write || (decide (u.h = tsPH d) && (decide (tsDest d = 1) || decide (tsDest d = 2))))
  acts [forA [SpMem.wm, .am, .pm] fun m => whenA (reads m) (withFree fun x => countRead a m (fld x 0 32)),
    whenA (!gather.isEmpty) (.seq (withFree fun x => bump (spPage a) 0x060 (fld x 0 32))
      (withFree fun x => bump (spPage a) 0x068 (fld x 0 32))),
    whenA (!(s.atArrays a).arrivals.isEmpty) (withFree fun x => bump (spPage a) 0x070 (fld x 0 32))]

/-- The step at the head of the queue enters the array: its results are computed, and a PHASE step's signal is given
(R102, R112). -/
def enterStep (a c : Nat) (q : QStep) : Act := .look fun s =>
  let d := q.desc
  let phase := decide (tsOp d = 8)
  let gather := gatherLines s a d
  let put (o : StepOut) (flags : Nat) (ws : List (Nat × Byte)) : Act :=
    acts [
      updArr a fun x => { x with
        queue := x.queue.drop 1, next := q.index + 1,
        grant := if s.rbit (arrPage a) 0x010 11 then x.grant - 1 else 0,
        phase := if phase then .transfer else .compute, gather := gather,
        flight := x.flight ++ [⟨q, ws, flags, phase && tsWaitOn d, o.passes, o.maxAbs, o.qctr, []⟩] },
      setFld (arrPage a) 0x124 0 16 q.bound,
      whenA (phase && tsSigOn d && semUsable s c (tsSigSem d))
        (semAdd (tsSigSem d) (BitVec.ofNat 32 (tsSigAdd d))),
      bump (arrPage a) 0x0C8 o.pieces, bump (arrPage a) 0x0D0 o.padded, countStep a d gather,
      whenA phase (.seq (issueAll (2 * a)) (issueAll (2 * a + 1)))]
  match computeStep s a d with
  | .error e => .seq (countStep a d gather) (stepFault a q.index (tsTag d) e)
  | .ok o =>
    if stepOverlaps s a d then withFree fun x => put o 0 (overlapBytes s a d x o.writes) else put o o.flags o.writes

/-- The head of the queue issues on the scratchpads as they stand now: its geometry record is read once, checked, and
governs the step (R134), a parity failure of that read going before what it would have told (R161); a PHASE step that
would wait on a semaphore its context may use no longer is refused with cause 0x053B (R427). A step that conflicts with
the one in flight waits (R153). -/
def issueHead (a c : Nat) (q : QStep) (parity : Option (SpMem × Nat)) : Act := .look fun s =>
  let d := q.desc
  let st := s.atArrays a
  if st.flight.any fun x => stepConflict s a x.step.desc d then .done
  else match (if tsGeo d then (if parity.isSome then none else checkGeometry s a d (s.geo a d))
      else if tsOp d = 8 ∧ tsWaitOn d ∧ ¬ semUsable s c (tsWaitSem d) then some (0x053B, 0) else none) with
  | some e => whenA st.flight.isEmpty
      (.seq (whenA (tsGeo d) (countRead a (hMem (s.handle a (tsXH d))) 1))
        (refuseStep a q.index (tsTag d) e.1 (tsCmpl d) e.2))
  | none => match parity with
    | some p => .seq (countStep a d (gatherLines s a d)) (parityFault a q.index p.1 p.2)
    | none => enterStep a c (if tsOp d = 3 then { q with bound := stepBound s a d (s.geo a d) } else q)

/-- STEP_ISSUE (R100, R112, R117): the head of the queue issues if nothing is in flight, or beside one step of the cell
grid with which it does not conflict; a failed fetch or a refused step acts when it is at the head with nothing in
flight. `parity` is a parity failure its reads meet (R161). -/
def actStepIssue (a : Fin 32) (parity : Option (SpMem × Nat)) : Act := .look fun s =>
  let st := s.atArrays a.val
  match s.liveCtx a.val, st.queue with
  | some c, q :: _ =>
    let d := q.desc
    let running := decide ((s.atCtxs c).state ≠ .dispatching) && decide (st.phase ≠ .stopped)
    let single := s.rbit (arrPage a.val) 0x010 11
    let beside : Bool := match st.flight with
      | [] => true
      | [x] => !q.failed && q.refused.isNone && tsCells x.step.desc && tsCells d
      | _ => false
    if ¬ running ∨ ¬ beside ∨ ¬ stripGate s c then .done
    else if q.failed then ctxFault a.val q.index 0x053C (arrPage a.val) (arrayError a.val q.index 0 0x053C 0)
    else match q.refused with
    | some code => refuseStep a.val q.index (tsTag d) code (tsCmpl d) 0
    | none =>
      if st.stop.isSome ∨ (s.atCommits (qntPage a.val)).isSome ∨ (single ∧ st.grant = 0) ∨ st.fell then .done
      else .seq (landPieces a.val) (issueHead a.val c q parity)
  | _, _ => .done

/-- STEP_ISSUE. -/
def execStepIssue (a : Fin 32) (parity : Option (SpMem × Nat)) (s : State) : Host.Outcome State Fault Refusal :=
  meaning (.stepIssue a parity) (served (actStepIssue a parity)) s

/-! ## Completion (R98, R115, R116) -/

/-- The counters of the array page that a step's flags raise (R123). -/
def countFlags (a flags : Nat) : Act :=
  forA (List.range 6) fun i => whenA (flags.testBit i) (bump (arrPage a) (0x088 + 8 * i) 1)

/-- The statistics of the quantiser: a profile's max-abs takes the larger magnitude (R91). -/
def raiseMaxAbs (a : Nat) (e : Nat × Bool × Word) : Act := .look fun s =>
  let off := (if e.2.1 then 0x10C else 0x108) + 32 * e.1
  whenA (decide ((s.reg (qntPage a) off).toNat < e.2.2.toNat)) (setReg (qntPage a) off e.2.2)

/-- How much a step has raised a counter of the quantiser page. -/
def qcount (l : List (Nat × Nat)) (off : Nat) : Nat := l.foldl (fun n e => if e.1 = off then n + e.2 else n) 0

/-- What the quantiser leaves of a step: counters, statistics, bits and events (R91, R97 to R99). -/
def quantDone (a : Nat) (x : InFlight) : Act :=
  let ovf := qcount x.qctr 0x060
  let sat := qcount x.qctr 0x048
  let hsat := qcount x.qctr 0x050
  let prof := tsOProf x.step.desc
  acts [forA x.qctr fun e => bump (qntPage a) e.1 e.2, forA x.maxAbs fun e => raiseMaxAbs a e,
    whenA (decide (0 < ovf)) (.seq (raiseIrq (qntPage a) 9) (pageEvent (qntPage a) 0x10 0 (natBytes 4 prof ++ natBytes 4 ovf))),
    whenA (decide (0 < sat + hsat)) (.seq (raiseIrq (qntPage a) 10)
      (pageEvent (qntPage a) 0x11 0 (natBytes 4 prof ++ natBytes 4 sat ++ natBytes 4 hsat)))]

/-- The step leaves flight; its record, if one is due, its signal and, after the last step, the end of the batch step
follow (R115, R116). -/
def leaveStep (a c : Nat) (x : InFlight) (cycles : Nat) : Act := .look fun s =>
  let d := x.step.desc
  let signal : Act := whenA (decide (tsOp d ≠ 8) && tsSigOn d && semUsable s c (tsSigSem d))
    (semAdd (tsSigSem d) (BitVec.ofNat 32 (tsSigAdd d)))
  let finish : Act := .seq signal (whenA (tsLast d) (endBatchStep a 0 0))
  acts [updArr a fun y => { y with flight := y.flight.drop 1 },
    bump (arrPage a) 0x060 1, bump (arrPage a) 0x068 x.passes,
    if tsCmpl d || tsLast d then
      stepRecord a x.step.index (tsTag d) 0 x.flags cycles 0 fun ok =>
        if ok then .seq (whenA (tsCmpl d) (raiseIrq (arrPage a) 8)) finish
        else recordFault a x.step.index (tsTag d)
    else .seq (updArr a fun y => { y with acc := y.acc ||| x.flags }) finish]

/-- STEP_COMPLETE (R116): the oldest step in flight commits its results, then its record, then its signal. Its cycles are
a free value within its bound (R111; log entry 3). -/
def actStepComplete (a : Fin 32) : Act := .look fun s =>
  match s.liveCtx a.val, (s.atArrays a.val).flight with
  | some c, x :: _ =>
    if x.waiting then .done else
    acts [forA x.writes fun w => putSp a.val w.1 w.2,
      whenA (!x.writes.isEmpty) (withFree fun y => bump (spPage a.val) 0x058 (fld y 0 32)),
      updArr a.val fun y => { y with gather := y.gather.filter fun l => !x.writes.any fun w => decide (w.1 / 128 = l) },
      countFlags a.val x.flags, quantDone a.val x,
      if tsOp x.step.desc = 8 then leaveStep a.val c x 16
      else withFree fun v => leaveStep a.val c x (v.toNat % (x.step.bound + 1))]
  | _, _ => .done

/-- STEP_COMPLETE. -/
def execStepComplete (a : Fin 32) (s : State) : Host.Outcome State Fault Refusal :=
  meaning (.stepComplete a) (served (actStepComplete a)) s

/-- A waiting PHASE step whose wait can no longer be met is refused with cause 0x053B (R427). -/
def refuseWait (a : Nat) : Act := .look fun s =>
  match (s.atArrays a).flight with
  | x :: _ => whenA x.waiting
      (.seq (updArr a fun y => { y with flight := [] })
        (refuseStep a x.step.index (tsTag x.step.desc) 0x053B (tsCmpl x.step.desc) 0))
  | [] => .done

/-- PHASE_WAIT_MET (R102): the take of a waiting PHASE step is applied and the step completes; a stop asked for wins
(R120). A wait that a save carried over the withdrawal of its semaphore is refused instead (R427). -/
def actPhaseWaitMet (a : Fin 32) : Act := .look fun s =>
  let st := s.atArrays a.val
  match s.liveCtx a.val, st.flight with
  | some c, x :: _ =>
    let v := BitVec.ofNat 32 (tsTake x.step.desc)
    whenA (x.waiting && st.stop.isNone && !st.fell && decide (st.phase ≠ .stopped)) <|
      if ¬ semUsable s c (tsWaitSem x.step.desc) then refuseWait a.val
      else whenA (s.semReached (tsWaitSem x.step.desc) v) (.seq (semTake (tsWaitSem x.step.desc) v)
        (withFree fun y => leaveStep a.val c x (max 16 (y.toNat % 65536))))
  | _, _ => .done

/-- PHASE_WAIT_MET. -/
def execPhaseWaitMet (a : Fin 32) (s : State) : Host.Outcome State Fault Refusal :=
  meaning (.phaseWaitMet a) (served (actPhaseWaitMet a)) s

/-! ## Array faults (R114, R118) -/

/-- STEP_OVERRUN (R114). -/
def actStepOverrun (a : Fin 32) : Act := .look fun s =>
  whenA (!(s.atArrays a.val).flight.isEmpty) (fellArray a.val (s.faultStep a.val).1 (s.faultStep a.val).2 0x0540)

/-- STEP_OVERRUN. -/
def execStepOverrun (a : Fin 32) (s : State) : Host.Outcome State Fault Refusal :=
  meaning (.stepOverrun a) (served (actStepOverrun a)) s

/-- ARRAY_SELF_CHECK_FAILURE (R118): ARR_CHECK names the column or the sequencer's own check; the array is felled. -/
def actArraySelfCheckFailure (a : Fin 32) (check : SelfCheck) : Act := .look fun s =>
  let st := s.faultStep a.val
  whenA (!(s.atArrays a.val).flight.isEmpty)
    (match check with
    | .parity col => .seq (setRegN (arrPage a.val) 0x128 (col % 128 + 128)) (fellArray a.val st.1 st.2 0x0541)
    | .residue col => .seq (setRegN (arrPage a.val) 0x128 (col % 128 + 256)) (fellArray a.val st.1 st.2 0x0541)
    | .sequencer => .seq (setRegN (arrPage a.val) 0x128 512) (fellArray a.val st.1 st.2 0x0542))

/-- ARRAY_SELF_CHECK_FAILURE. -/
def execArraySelfCheckFailure (a : Fin 32) (check : SelfCheck) (s : State) : Host.Outcome State Fault Refusal :=
  meaning (.arraySelfCheckFailure a check) (served (actArraySelfCheckFailure a check)) s

/-- ARRAY_FELL (R121): PF only, for a VF the bit is read-only; cause 0x4F. In a transfer phase the bound engines stop and
retire their tags first (R120). -/
def actArrayFell (f : Func) (a : Fin 32) : Act :=
  withWrite f (arrPage a.val) (.look fun s =>
    whenA (decide (f = 0)) (if (s.atArrays a.val).phase = .transfer then acts [
        updArr a.val fun x => { x with fell := true }, forA [2 * a.val, 2 * a.val + 1] stopEngine,
        settleFell a.val State.engStopped]
      else fellArray a.val (s.faultStep a.val).1 (s.faultStep a.val).2 0x054F))

/-- ARRAY_FELL. -/
def execArrayFell (f : Func) (a : Fin 32) (s : State) : Host.Outcome State Fault Refusal :=
  meaning (.arrayFell f a) (served (actArrayFell f a)) s

/-! ## Stops (R113) -/

/-- ARRAY_STOP_REQUEST (R113, R121): a stop already asked for stands; with no context loaded there is nothing to stop. -/
def actArrayStopRequest (f : Func) (a : Fin 32) : Act :=
  withWrite f (arrPage a.val) (.look fun s =>
    let st := s.atArrays a.val
    whenA (st.stop.isNone && decide (st.phase ≠ .stopped)) (askStop a.val .host))

/-- ARRAY_STOP_REQUEST. -/
def execArrayStopRequest (f : Func) (a : Fin 32) (s : State) : Host.Outcome State Fault Refusal :=
  meaning (.arrayStopRequest f a) (served (actArrayStopRequest f a)) s

/-- What follows a stop once it is honoured: nothing for the host's, the save for a pre-emption's (R248), retirement for
the others (R52, R251, R254). -/
def afterStop (c : Nat) (why : StopWhy) : Act := .look fun s =>
  let engines := ctxEngines (s.atCtxs c)
  match why with
  | .host => updCtx c fun x => { x with state := .running }
  | .save => .seq (updCtx c fun x => { x with state := .saving }) (forA engines stopEngine)
  | _ => acts [updCtx c fun x => { x with state := .retiring }, forA engines stopEngine, enterOwed c, settleRetire c]

/-- KERF_POINT (R113, R120, R78): with no step in flight but a waiting PHASE step, a stop is honoured; a refused head of
the queue ends the batch step first; with no stop asked for, a pending profile commit applies. -/
def actKerfPoint (a : Fin 32) : Act := .look fun s =>
  let st := s.atArrays a.val
  let clear := st.flight.all fun x => x.waiting
  let honour (c : Nat) (why : StopWhy) : Act :=
    acts [updArr a.val fun x => { x with phase := .stopped, stop := none }, stopHonoured a.val, commitArrivals a.val,
      applyCommit (qntPage a.val) false, afterStop c why]
  whenA clear
    (match st.stop, s.liveCtx a.val with
    | some why, some c =>
      (match st.queue.head?, st.flight with
      | some q, [] =>
        (match q.refused with
        | some code => refuseStep a.val q.index (tsTag q.desc) code (tsCmpl q.desc) 0
        | none => honour c why)
      | _, _ => honour c why)
    | _, _ => whenA (s.atCommitPoint (qntPage a.val)) (applyCommit (qntPage a.val) false))

/-- KERF_POINT. -/
def execKerfPoint (a : Fin 32) (s : State) : Host.Outcome State Fault Refusal :=
  meaning (.kerfPoint a) (served (actKerfPoint a)) s

/-- SINGLE_STEP_NEXT (R121): PF only; while single-step mode is on, each write lets one more step issue. -/
def actSingleStepNext (f : Func) (a : Fin 32) : Act :=
  withWrite f (arrPage a.val) (.look fun s =>
    whenA (decide (f = 0) && s.rbit (arrPage a.val) 0x010 11) (updArr a.val fun x => { x with grant := x.grant + 1 }))

/-- SINGLE_STEP_NEXT. -/
def execSingleStepNext (f : Func) (a : Fin 32) (s : State) : Host.Outcome State Fault Refusal :=
  meaning (.singleStepNext f a) (served (actSingleStepNext f a)) s

end Sys2Proof.Machine
end

