-- ==== Sys2Proof/Machine/JobCore.lean ====
section
/-! DEFINITION. Job rings: the checks of a fetched descriptor, acceptance, the gates of an accepted job and the halt of a
ring (R41 to R43, R430). -/

namespace Sys2Proof.Machine

/-! ## The ring (R41) -/

/-- Offset of the registers of job ring `n` of a global page. -/
def jrOff (n : Nat) : Nat := 0x500 + 32 * n

/-- Whether a job ring is enabled. -/
def State.jrOn (s : State) (f : Func) (n : Nat) : Bool := s.rbit (globalPage f) (jrOff n + 8) 31

/-- Whether a job ring is halted. -/
def State.jrHalted (s : State) (f : Func) (n : Nat) : Bool := s.rbit (globalPage f) (jrOff n + 0x18) 0

/-- Whether a job ring fetches: enabled, not halted, with descriptors the doorbell has announced, of a function that is
there. -/
def State.jrFetches (s : State) (f : Func) (n : Nat) : Bool :=
  let g := globalPage f
  s.jrOn f n && !s.jrHalted f n && decide (s.reg g (jrOff n + 0x10) ≠ s.reg g (jrOff n + 0x14)) && !s.resetting f && s.present f

/-- A ring halts at a descriptor it refuses (R41): JR_STAT, the error, and event 0x0112 to the function's event ring 0. -/
def haltRing (f : Func) (n code seq : Nat) : Act := .look fun s =>
  let g := globalPage f
  acts [setRegN g (jrOff n + 0x18) (1 + 65536 * code), recordErr g code,
    putEvent f 0 0x0112 n code 0
      (natBytes 4 (n + 65536 * code) ++ natBytes 4 (s.reg g (jrOff n + 0x14)).toNat ++ natBytes 4 seq)]

/-! ## Envelope checks (R42, R43, R430) -/

/-- kind. -/
def jobKind (d : BitVec 1024) : Nat := fld d 0 8

/-- ordered. -/
def jobOrdered (d : BitVec 1024) : Bool := bit d 25

/-- body. -/
def jobBodyAddr (d : BitVec 1024) : Nat := fld d 384 64

/-- body_len. -/
def jobBodyLen (d : BitVec 1024) : Nat := fld d 448 24

/-- body_host. -/
def jobBodyHost (d : BitVec 1024) : Bool := bit d 472

/-- The inline bytes 0x40 to 0x7B from byte `i` on, `n` of them. -/
def jobInline (d : BitVec 1024) (i n : Nat) : Nat := fld d (8 * i) (8 * n)

/-- Whether a kind is one a function may submit (R43); a graph load has no partition for its target, and its own check
looks at the submitter (R332). -/
def kindAllowed (s : State) (f : Func) (d : BitVec 1024) : Bool :=
  match jobKind d with
  | 1 | 2 | 5 => true
  | 3 => s.boundTo ⟨.stream, jobTarget d⟩ f
  | 4 => s.boundTo ⟨.partition, jobTarget d⟩ f || decide (fld d 512 4 = 3)
  | 6 | 7 => decide (f = 0)
  | _ => false

/-- An envelope field marked must-be-0 is set. -/
def envelopeMbz (d : BitVec 1024) : Bool :=
  decide (fld d 18 6 ≠ 0) || decide (fld d 27 5 ≠ 0) || decide (fld d 59 5 ≠ 0) || decide (fld d 268 3 ≠ 0)
    || decide (fld d 272 16 ≠ 0) || decide (fld d 332 3 ≠ 0) || decide (fld d 336 16 ≠ 0) || decide (fld d 473 7 ≠ 0)
    || decide (fld d 480 32 ≠ 0) || (!bit d 26 && decide (fld d 992 32 ≠ 0))

/-- A raster-class job that waits on a semaphore of another class (R59). A batch job is refused for it by its own check
0x0913; the cause for the other kinds, which the spec does not name, is that of a semaphore the job may not name (DESIGN
CHOICE, log entry 54). -/
def rasterWait (s : State) (d : BitVec 1024) : Bool :=
  decide (jobKind d ≠ 1) && decide (jobClass d = 1) && bit d 271 && decide (s.semClass (fld d 256 12) ≠ 1)

/-- The first envelope check a descriptor fails, of steps 1 to 6 (R430). -/
def envelopeRefusal (s : State) (f : Func) (n : Nat) (d : BitVec 1024) : Option Nat :=
  if bit d 26 ∧ (crc32c (natBytes 124 d.toNat)).toNat ≠ fld d 992 32 then some 0x0118
  else if jobSeq d ≠ s.rfld (globalPage f) (jrOff n + 0x0C) 0 24 then some 0x0116
  else if fld d 8 8 ≠ 1 ∨ ¬ kindAllowed s f d then some 0x0117
  else if jobClass d = 3 ∨ (jobKind d = 6 ∧ jobClass d ≠ 2) then some 0x011C
  else if envelopeMbz d then some 0x0105
  else if (bit d 271 ∧ ¬ s.semBound (fld d 256 12) f) ∨ (bit d 335 ∧ ¬ s.semBound (fld d 320 12) f)
      ∨ rasterWait s d then some 0x0111
  else none

/-! ## Acceptance and gates (R42) -/

/-- Whether every gate of a job is open: the jobs before it, its time and its semaphore test. -/
def gatesOpen (s : State) (n : Nat) (j : Job) : Bool :=
  let earlier := s.jobs.any fun e => match e.2 with
    | some x => decide (e.1 < n) && decide (x.func = j.func) && decide (x.ring = j.ring)
    | none => false
  (!jobOrdered j.desc || !earlier) && decide (jobNotBefore j.desc ≤ s.time.toNat)
    && (!bit j.desc 271 || s.semReached (fld j.desc 256 12) (BitVec.ofNat 32 (fld j.desc 288 32)))

/-- A job starts if its gates are open: its test is counted, and `start` does the work of its kind. -/
def startIfOpen (n : Nat) (start : Act) : Act := .look fun s =>
  optA (s.atJobs n) fun j =>
    whenA (!j.started && gatesOpen s n j)
      (acts [.eff (.jobs n (some { j with started := true })),
        whenA (bit j.desc 271) (bump (semPage (fld j.desc 256 12)) 0x050 1), start])

/-- A fetched descriptor of one kind: its envelope checks, then the kind's halting checks, then acceptance. `k` gets the
number of the accepted job. -/
def acceptJob (f : Func) (n : Fin 8) (d : BitVec 1024) (body : List Byte) (halting : State → Option Nat) (k : Nat → Act) :
    Act := .look fun s =>
  let g := globalPage f
  if ¬ s.jrFetches f n.val then .done
  else match (envelopeRefusal s f n.val d).or (halting s) with
  | some code => haltRing f n.val code (jobSeq d)
  | none =>
    acts [setRegN g (jrOff n.val + 0x14) ((s.reg g (jrOff n.val + 0x14)).toNat + 1),
      setFld g (jrOff n.val + 0x0C) 0 24 (jobSeq d + 1),
      .eff (.jobs s.jobNext (some ⟨f, n, d, body, false⟩)), .eff (.jobNext (s.jobNext + 1)), k s.jobNext]

/-- A descriptor of another kind than the command's has no such command. -/
def ofKind (kind : Nat) (d : BitVec 1024) (a : Act) : Act := whenA (decide (jobKind d = kind)) a

/-- JOB_KIND_REFUSED (R430): a descriptor that fails an envelope check halts its ring. -/
def actJobKindRefused (f : Func) (n : Fin 8) (d : BitVec 1024) : Act := .look fun s =>
  whenA (s.jrFetches f n.val) (optA (envelopeRefusal s f n.val d) fun code => haltRing f n.val code (jobSeq d))

/-- JOB_KIND_REFUSED. -/
def execJobKindRefused (f : Func) (n : Fin 8) (d : BitVec 1024) (s : State) : Host.Outcome State Fault Refusal :=
  meaning (.jobKindRefused f n d) (inService (actJobKindRefused f n d)) s

end Sys2Proof.Machine
end

