-- ==== Sys2Proof/Machine/Decoder.lean ====
section
/-! DEFINITION. The decode cluster: stream context control jobs, byte-stream rings, selection and shedding, and written
pictures (R224 to R237). -/

namespace Sys2Proof.Machine

/-! ## Jobs that complete, and job bodies -/

/-- A job completes with its completion event, written when it asks for one or was refused (log entry 31). -/
def completeJob (n code : Nat) (d : BitVec 1024) (event : Act) : Act :=
  .seq (whenA (jobEvt d || decide (code ≠ 0)) event) (endJob n d)

/-- The body of a job: the bytes fetched from the host, or read from the stack under an address space (R42). -/
def withBody (j : Job) (asid n : Nat) (k : Option (List Byte) → Act) : Act :=
  if jobBodyHost j.desc then k (if j.body.length = n then some j.body else none)
  else virtRead ⟨.job, j.func⟩ asid (jobBodyAddr j.desc) n .read 0x0911 0x0911 fun r => match r with
    | .ok bs => k (some bs)
    | _ => k none

/-! ## The record (R227) -/

/-- The page of a pipe. -/
def pipePage (p : Nat) : Nat := 0x050 + p

/-- The decode cluster's page. -/
def decPage : Nat := 0x040

/-- The bind unit of a stream context. -/
def streamUnit (c : Nat) : UnitId := ⟨.stream, c⟩

/-- codec. -/
def srCodec (r : BitVec 512) : Nat := fld r 0 2

/-- out_fmt is P010. -/
def srP010 (r : BitVec 512) : Bool := bit r 2

/-- pipe. -/
def srPipe (r : BitVec 512) : Nat := fld r 4 4

/-- evt_ring. -/
def srRing (r : BitVec 512) : Nat := fld r 8 3

/-- width. -/
def srWidth (r : BitVec 512) : Nat := fld r 32 16

/-- height. -/
def srHeight (r : BitVec 512) : Nat := fld r 48 16

/-- Entries of the byte-stream ring. -/
def srEntries (r : BitVec 512) : Nat := 2 ^ fld r 128 4

/-- slots. -/
def srSlots (r : BitVec 512) : Nat := fld r 136 8

/-- pool. -/
def srPool (r : BitVec 512) : Nat := fld r 192 48

/-- ptab. -/
def srTable (r : BitVec 512) : Nat := fld r 256 48

/-- The pitch of a slot (R229). -/
def srPitch (r : BitVec 512) : Nat :=
  if srP010 r then (2 * srWidth r + 127) / 128 * 128 else (srWidth r + 63) / 64 * 64

/-- The size of a slot (R229). -/
def srSlotSize (r : BitVec 512) : Nat := (srPitch r * srHeight r * 3 / 2 + 2047) / 2048 * 2048

/-- Pixels a second declared, in 1/256 (R232). -/
def srLoad (r : BitVec 512) : Nat := srWidth r * srHeight r * fld r 160 16

/-- The record and the fields of R227 that are in range. -/
def recordOk (s : State) (f : Func) (r : BitVec 512) : Bool :=
  decide (srCodec r < 2) && decide (fld r 2 2 < 2) && decide (fld r 11 21 = 0) && decide (srWidth r % 2 = 0)
    && decide (64 ≤ srWidth r ∧ srWidth r ≤ 4096) && decide (srHeight r % 2 = 0)
    && decide (64 ≤ srHeight r ∧ srHeight r ≤ 2304) && decide (fld r 64 64 % 4096 = 0)
    && decide (4 ≤ fld r 128 4 ∧ fld r 128 4 ≤ 12) && decide (2 ≤ srSlots r ∧ srSlots r ≤ 32)
    && decide (fld r 147 13 = 0) && decide (fld r 160 16 ≠ 0) && decide (fld r 176 16 ≠ 0)
    && decide (srPool r % 2048 = 0) && decide (srTable r % 64 = 0) && decide (fld r 352 160 = 0)
    && (!bit r 335 || s.semBound (fld r 320 12) f) && (!bit r 351 || s.semBound (fld r 336 12) f)

/-- The contexts configured on a pipe. -/
def State.onPipe (s : State) (p : Nat) : List (Nat × StreamSt) :=
  s.streams.filter fun e => decide (e.2.state ≠ .unconfigured) && decide (srPipe e.2.record = p)

/-- DEC_PIPE_LOAD of a pipe in pixels a second times 256 (R232). -/
def State.pipeLoad (s : State) (p : Nat) : Nat := ((s.onPipe p).map fun e => srLoad e.2.record).sum

/-! ## Context state -/

/-- A stream context's record changes. -/
def updStream (c : Nat) (f : StreamSt → StreamSt) : Act := .look fun s => .eff (.streams c (f (s.atStreams c)))

/-- The code of a context's state (R236). -/
def streamCode : StreamState → Nat
  | .unconfigured => 0
  | .stopped => 1
  | .running => 2
  | .resync => 3
  | .refused => 4
  | .faulted => 5

/-- An event of a context, on the event ring of its record (R227, R237). -/
def streamEvent (c low code : Nat) (payload : List Byte) : Act := .look fun s =>
  let r := (s.atStreams c).record
  putEvent (s.unitAt (streamUnit c)).owner (srRing r) (0x0400 + low) (srPipe r) code (s.pageEpoch (pipePage (srPipe r)))
    payload

/-- An error of a context, recorded in a page with the context (R237). -/
def streamErrAt (page c code : Nat) : Act :=
  withFree fun x => recordErrI page code (BitVec.ofNat 32 c) (x.extractLsb' 0 32)

/-- The page of a context's pipe; the cluster's while no record names a pipe (DEDUCED, log entry 32). -/
def State.streamPage (s : State) (c : Nat) : Nat :=
  let st := s.atStreams c
  if st.state = .unconfigured then decPage else pipePage (srPipe st.record)

/-- An error of a context, recorded in its pipe's page (R237). -/
def streamErr (c code : Nat) : Act := .look fun s => streamErrAt (s.streamPage c) c code

/-- A stream context control job ends, with event 0x0415 and, where it is refused, its error in the page concerned (R226,
R237). -/
def endStreamJobAt (page n code : Nat) : Act := .look fun s =>
  optA (s.atJobs n) fun j =>
    let c := jobTarget j.desc
    .seq (whenA (decide (code ≠ 0)) (streamErrAt page c code))
      (completeJob n code j.desc (jobEvent j.func j.desc page 0x15 code
        (natBytes 4 (c + 65536 * (jobInline j.desc 0x40 1 % 16)) ++ natBytes 4 code ++ natBytes 4 (jobTag j.desc))))

/-- A stream context control job ends, as its context's own. -/
def endStreamJob (n code : Nat) : Act := .look fun s =>
  optA (s.atJobs n) fun j => endStreamJobAt (s.streamPage (jobTarget j.desc)) n code

/-- A context's wait for a slot counts, as far as it has come, in its pipe's no-slot stall, in cycles of 800 MHz (R231,
R236). -/
def countStall (c : Nat) : Act := .look fun s =>
  let st := s.atStreams c
  optA st.noSlot fun t =>
    let cycles := (s.time.toNat - t.toNat) * 4 / 5
    .seq (bump (pipePage (srPipe st.record)) 0x078 (cycles - st.stalled)) (updStream c fun x => { x with stalled := cycles })

/-- A context's wait for a slot ends (R231). -/
def endStall (c : Nat) : Act := .look fun s =>
  whenA (s.atStreams c).noSlot.isSome
    (.seq (countStall c) (updStream c fun x => { x with noSlot := none, stalled := 0 }))

/-- A context leaves its running states: it fetches nothing more, its unconsumed entries stay in the ring, the jobs that
wait for the stop complete, and event 0x0414 is written (R226, R237). -/
def leaveRunning (c : Nat) (dst : StreamState) (code : Nat) : Act := .look fun s =>
  let st := s.atStreams c
  acts [endStall c, updStream c fun x => { x with
      state := dst, units := [], fetch := x.cons, cur := none, stopping := false, flushTo := none, ended := false,
      jobs := [], cause := if code = 0 then x.cause else code % 256 },
    streamEvent c 0x14 code (natBytes 4 (c + 65536 * streamCode dst) ++ natBytes 2 code),
    forA st.jobs fun n => endStreamJob n 0]

/-- A context enters or leaves resync, with event 0x0413; the cause that changes the state, if one does, is kept (R227,
R228, R233). -/
def setResync (c : Nat) (on : Bool) (cause : Nat) : Act := .look fun s =>
  whenA (decide ((s.atStreams c).state = (if on then StreamState.running else .resync)))
    (.seq (updStream c fun x => { x with
        state := if on then .resync else .running, cause := if cause = 0 then x.cause else cause })
      (streamEvent c 0x13 0 (natBytes 4 (c + 65536 * b2n on))))

/-! ## Consumption of access units (R228, R233) -/

/-- The front access unit is consumed: the consumer index, the frame counter, cons_sem if it is still the owner's (R58),
and the context's stop when it was the last of a stream, of a flush or before a stop (R226, R228, R235). -/
def consumeFront (c : Nat) : Act := .look fun s =>
  let st := s.atStreams c
  match st.units with
  | [] => .done
  | u :: rest =>
    let cons := (st.cons + 1) % 2 ^ 32
    acts [endStall c, updStream c fun x => { x with
        units := rest, cons := cons, frames := x.frames + 1, gap := x.gap || u.dropped },
      whenA (bit st.record 351 && s.semBound (fld st.record 336 12) (s.unitAt (streamUnit c)).owner)
        (semAdd (fld st.record 336 12) 1),
      whenA (u.eos || st.stopping || decide (st.flushTo = some cons)) (leaveRunning c .stopped 0)]

/-- Dropped access units at the front are consumed, unless a picture of the context is in progress. -/
def consumeDropped (c : Nat) : Nat → Act
  | 0 => .done
  | fuel + 1 => .look fun s =>
    let st := s.atStreams c
    whenA (st.cur.isNone && ((st.units.head?.map fun u => u.dropped).getD false))
      (.seq (consumeFront c) (consumeDropped c fuel))

/-- An access unit is dropped, as non-reference or for resynchronisation, and counted by context and pipe (R233). -/
def countDrop (c : Nat) (nonRef : Bool) : Act := .look fun s =>
  let p := srPipe (s.atStreams c).record
  let q := s.atPipes p
  if nonRef then
    acts [updStream c fun x => { x with nonRef := x.nonRef + 1 }, bump (pipePage p) 0x050 1,
      .eff (.pipes p { q with nonRef := q.nonRef + 1 })]
  else
    acts [updStream c fun x => { x with resyncs := x.resyncs + 1 }, bump (pipePage p) 0x058 1,
      .eff (.pipes p { q with resyncs := q.resyncs + 1 })]

/-- Event 0x0412 of a pipe, at most once a millisecond, with the drops since the last one (R233). -/
def tellDrops (p : Nat) : Act := .look fun s =>
  let q := s.atPipes p
  whenA (decide (0 < q.nonRef + q.resyncs)
      && (q.toldAt.map fun t => decide (t.toNat + 10 ^ 6 ≤ s.time.toNat)).getD true)
    (.seq (.eff (.pipes p { toldAt := some s.time }))
      (pageEvent (pipePage p) 0x12 0 (natBytes 4 p ++ natBytes 4 q.nonRef ++ natBytes 4 q.resyncs)))

/-! ## Stream context control (R226) -/

/-- The op of a control job. -/
def streamOp (d : BitVec 1024) : Nat := jobInline d 0x40 1 % 16

/-- Whether an op is allowed in a state (R226; configure in faulted: R227). -/
def opAllowed (op : Nat) (st : StreamState) : Bool :=
  match op, st with
  | 1, .unconfigured | 1, .stopped | 1, .faulted | 2, .stopped | 3, .running | 3, .resync | 4, .running | 4, .resync =>
    true
  | 5, _ => true
  | 6, .unconfigured => false
  | 6, _ => true
  | _, _ => false

/-- The status block that follows the record (R227). -/
def streamStatus (s : State) (c : Nat) : List Byte :=
  let st := s.atStreams c
  natBytes 2 (streamCode st.state) ++ natBytes 2 (s.unitAt (streamUnit c)).epoch.toNat ++ natBytes 4 st.cons
    ++ natBytes 4 st.prod ++ natBytes 4 st.frames ++ natBytes 8 st.decoded ++ natBytes 8 st.nonRef
    ++ natBytes 8 st.resyncs ++ natBytes 8 st.concealed ++ natBytes 8 st.lastCapture.toNat ++ natBytes 8 st.cause

/-- A configure with its record: refused with 0x10, 0x11 (pipe not bound to the owner, or withdrawn) or 0x12 (budget),
or loaded (R226, R227, R232, R394). -/
def configure (n c : Nat) (f : Func) (r : BitVec 512) : Act := .look fun s =>
  let others := ((s.onPipe (srPipe r)).filter fun e => decide (e.1 ≠ c)).map fun e => srLoad e.2.record
  let refuse (code : Nat) : Act := endStreamJobAt (pipePage (srPipe r)) n code
  if !recordOk s f r then refuse 0x0410
  else if !s.boundTo ⟨.pipe, srPipe r⟩ f || s.outOfService ⟨.pipe, srPipe r⟩ then refuse 0x0411
  else if 2000000000 * 256 < others.sum + srLoad r then refuse 0x0412
  else .seq (updStream c fun x => { x with state := .stopped, record := r, refs := [], tainted := [] }) (endStreamJob n 0)

/-- A control job whose gates are open does its op (R226); one whose context has been withdrawn since its acceptance is
refused as its epoch is now stale (R42, R57; log entry 54). -/
def startStream (n : Nat) : Act := .look fun s =>
  optA (s.atJobs n) fun j =>
    let c := jobTarget j.desc
    let st := s.atStreams c
    let op := streamOp j.desc
    if ¬ s.boundTo (streamUnit c) j.func ∨ jobEpoch j.desc ≠ (s.unitAt (streamUnit c)).epoch.toNat then
      endStreamJob n 0x0403
    else if !opAllowed op st.state then endStreamJob n 0x0413
    else match op with
    | 1 => withBody j 0 64 fun b => match b with
      | some bs => configure n c j.func (BitVec.ofNat 512 (bytesNat bs))
      | none => endStreamJob n 0x0410
    | 2 => .seq (updStream c fun x => { x with state := .running, fetch := x.cons, units := [] }) (endStreamJob n 0)
    | 3 => if st.cur.isNone then .seq (updStream c fun x => { x with jobs := x.jobs ++ [n] }) (leaveRunning c .stopped 0)
      else updStream c fun x => { x with stopping := true, jobs := x.jobs ++ [n] }
    | 4 => .seq (updStream c fun x => { x with flushTo := some x.prod, jobs := x.jobs ++ [n] })
        (whenA (decide (st.cons = st.prod)) (leaveRunning c .stopped 0))
    | 5 =>
      let bytes := natBytes 64 st.record.toNat ++ streamStatus s c
      if jobBodyHost j.desc then .seq (.eff (.out (.hostWrite j.func (jobBodyAddr j.desc) bytes))) (endStreamJob n 0)
      else virtWrite ⟨.decoder, j.func⟩ 0 (jobBodyAddr j.desc) bytes 0x041A 0x041A none fun w =>
        endStreamJob n (if w = .ok then 0 else 0x041A)
    | _ => acts [endStall c, updStream c fun x => { x with
          state := .unconfigured, record := 0, prod := 0, cons := 0, fetch := 0, units := [], cur := none, refs := [],
          tainted := [], stopping := false, flushTo := none, ended := false, gap := false, jobs := [] },
        forA st.jobs fun k => endStreamJob k 0, endStreamJob n 0]

/-- The checks of a control job before it waits: its class, its epoch, its op and its body's length (R226, R42). -/
def streamRefusal (s : State) (d : BitVec 1024) : Option Nat :=
  if jobClass d ≠ 0 then some 0x0410
  else if jobEpoch d ≠ (s.unitAt (streamUnit (jobTarget d))).epoch.toNat then some 0x0403
  else if streamOp d = 0 ∨ 6 < streamOp d then some 0x0410
  else if (streamOp d = 1 ∧ jobBodyLen d ≠ 64) ∨ (streamOp d = 5 ∧ jobBodyLen d ≠ 128) then some 0x0410
  else none

/-- A control job of one of the given ops is fetched from its ring. -/
def streamJob (ops : List Nat) (f : Func) (ring : Fin 8) (d : BitVec 1024) (body : List Byte) : Act :=
  ofKind 3 d (whenA (ops.contains (streamOp d)) (acceptJob f ring d body (fun _ => none) fun n => .look fun s =>
    match streamRefusal s d with
    | some code => endStreamJob n code
    | none => startIfOpen n (startStream n)))

/-- CONTEXT_CONFIGURE: op 1; the ops with no command of their own, 0 and 7 to 15, are refused here (R226). -/
def actContextConfigure (f : Func) (ring : Fin 8) (d : BitVec 1024) (body : List Byte) : Act :=
  streamJob [0, 1, 7, 8, 9, 10, 11, 12, 13, 14, 15] f ring d body

/-- CONTEXT_CONFIGURE. -/
def execContextConfigure (f : Func) (ring : Fin 8) (d : BitVec 1024) (body : List Byte) (s : State) :
    Host.Outcome State Fault Refusal :=
  meaning (.contextConfigure f ring d body) (inService (actContextConfigure f ring d body)) s

/-- CONTEXT_START: op 2. -/
def actContextStart (f : Func) (ring : Fin 8) (d : BitVec 1024) : Act := streamJob [2] f ring d []

/-- CONTEXT_START. -/
def execContextStart (f : Func) (ring : Fin 8) (d : BitVec 1024) (s : State) : Host.Outcome State Fault Refusal :=
  meaning (.contextStart f ring d) (inService (actContextStart f ring d)) s

/-- CONTEXT_STOP: op 3. -/
def actContextStop (f : Func) (ring : Fin 8) (d : BitVec 1024) : Act := streamJob [3] f ring d []

/-- CONTEXT_STOP. -/
def execContextStop (f : Func) (ring : Fin 8) (d : BitVec 1024) (s : State) : Host.Outcome State Fault Refusal :=
  meaning (.contextStop f ring d) (inService (actContextStop f ring d)) s

/-- CONTEXT_FLUSH: op 4. -/
def actContextFlush (f : Func) (ring : Fin 8) (d : BitVec 1024) : Act := streamJob [4] f ring d []

/-- CONTEXT_FLUSH. -/
def execContextFlush (f : Func) (ring : Fin 8) (d : BitVec 1024) (s : State) : Host.Outcome State Fault Refusal :=
  meaning (.contextFlush f ring d) (inService (actContextFlush f ring d)) s

/-- CONTEXT_QUERY: op 5. -/
def actContextQuery (f : Func) (ring : Fin 8) (d : BitVec 1024) : Act := streamJob [5] f ring d []

/-- CONTEXT_QUERY. -/
def execContextQuery (f : Func) (ring : Fin 8) (d : BitVec 1024) (s : State) : Host.Outcome State Fault Refusal :=
  meaning (.contextQuery f ring d) (inService (actContextQuery f ring d)) s

/-- CONTEXT_RESET: op 6. -/
def actContextReset (f : Func) (ring : Fin 8) (d : BitVec 1024) : Act := streamJob [6] f ring d []

/-- CONTEXT_RESET. -/
def execContextReset (f : Func) (ring : Fin 8) (d : BitVec 1024) (s : State) : Host.Outcome State Fault Refusal :=
  meaning (.contextReset f ring d) (inService (actContextReset f ring d)) s

/-! ## Byte-stream rings (R28, R228) -/

/-- A doorbell of a function for an object of a unit: dropped with 0x04 while the unit re-binds or is held, with 0x11
when it is not bound to the writer (R28). Where both hold, the cause is 0x04: the spec does not say which (R29, R33;
DESIGN CHOICE, log entry 53). -/
def doorbell (f : Func) (u : UnitId) (a : Act) : Act := .look fun s =>
  let st := (s.unitAt u).state
  if !s.present f then .done
  else if s.resetting f ∨ st = .rebinding ∨ st = .held then hostErr f 0x04
  else if !s.boundTo u f then hostErr f 0x11
  else a

/-- STREAM_RING_DOORBELL (R228). -/
def actStreamRingDoorbell (f : Func) (c : Fin 1024) (v : Word) : Act :=
  doorbell f (streamUnit c.val) (.look fun s =>
    let st := s.atStreams c.val
    if sub32 v.toNat st.cons ≤ srEntries st.record then updStream c.val fun x => { x with prod := v.toNat }
    else hostErr f 0x12)

/-- STREAM_RING_DOORBELL. -/
def execStreamRingDoorbell (f : Func) (c : Fin 1024) (v : Word) (s : State) : Host.Outcome State Fault Refusal :=
  meaning (.streamRingDoorbell f c v) (inService (actStreamRingDoorbell f c v)) s

/-- Whether a context fetches its next ring entry. -/
def streamFetches (s : State) (c : Nat) : Bool :=
  let st := s.atStreams c
  (decide (st.state = .running) || decide (st.state = .resync)) && decide ((s.unitAt (streamUnit c)).state = .bound)
    && decide (st.fetch ≠ st.prod) && !st.stopping && decide (st.flushTo ≠ some st.fetch) && !st.ended

/-- A fetched unit joins the context's units, and front units already dropped are consumed. -/
def addUnit (c : Nat) (u : AccessUnit) : Act := .look fun s =>
  .seq (updStream c fun x => { x with units := x.units ++ [u], fetch := (x.fetch + 1) % 2 ^ 32, ended := x.ended || u.eos })
    (consumeDropped c ((s.atStreams c).units.length + 1))

/-- The fetch of an entry or of its access unit fails: the unit is dropped with cause 0x19 and the context enters resync
(R228). -/
def fetchFailed (c : Nat) (entry : BitVec 256) : Act :=
  acts [streamErr c 0x0419, setResync c true 0x19, countDrop c false,
    addUnit c ⟨fld entry 64 24, bit entry 88, BitVec.ofNat 64 (fld entry 128 64), fld entry 192 32, ⟨false, false, none⟩,
      true⟩]

/-- ACCESS_UNIT_FETCH: a ring entry and its access unit have been fetched (R228, R233). -/
def actAccessUnitFetch (c : Fin 1024) (entry : BitVec 256) (fetched : Option UnitInfo) : Act := .look fun s =>
  let mk (i : UnitInfo) (dropped : Bool) : AccessUnit :=
    ⟨fld entry 64 24, bit entry 88, BitVec.ofNat 64 (fld entry 128 64), fld entry 192 32, i, dropped⟩
  let none_ : UnitInfo := ⟨false, false, none⟩
  whenA (streamFetches s c.val)
    (if fld entry 64 24 = 0 ∨ fld entry 90 6 ≠ 0 ∨ fld entry 96 32 ≠ 0 ∨ fld entry 224 32 ≠ 0 then
      acts [streamErr c.val 0x041C, addUnit c.val (mk none_ true)]
    else .seq (whenA (bit entry 89) (setResync c.val true 0)) (match fetched with
      | none => fetchFailed c.val entry
      | some i => .seq (bump (pipePage (srPipe (s.atStreams c.val).record)) 0x080 (fld entry 64 24)) (.look fun t =>
          if (t.atStreams c.val).state = .resync ∧ ¬ i.irap then
            .seq (countDrop c.val false) (addUnit c.val (mk i true))
          else .seq (setResync c.val false 0) (addUnit c.val (mk i false)))))

/-- ACCESS_UNIT_FETCH. -/
def execAccessUnitFetch (c : Fin 1024) (entry : BitVec 256) (fetched : Option UnitInfo) (s : State) :
    Host.Outcome State Fault Refusal :=
  meaning (.accessUnitFetch c entry fetched) (inService (actAccessUnitFetch c entry fetched)) s

/-! ## Selection and shedding (R231 to R233) -/

/-- The cost in ns of a picture of so many luma samples in an access unit: the larger of its pixel time and its bit time
(R232). -/
def unitCost (size : Nat) (u : AccessUnit) : Nat := max (size / 2) (20 * u.len)

/-- The summed cost of the undropped units of a list, each of the size of the last SPS at or before it. -/
def unitCosts : Nat → List AccessUnit → Nat
  | _, [] => 0
  | size, u :: l =>
    let n := match u.info.sps with
      | some sp => sp.width * sp.height
      | none => size
    (if u.dropped then 0 else unitCost n u) + unitCosts n l

/-- The pending units of a context: fetched, not dropped, not in progress. -/
def pendingUnits (st : StreamSt) : List AccessUnit :=
  (if st.cur.isSome then st.units.drop 1 else st.units).filter fun u => !u.dropped

/-- The cost of a context's pending units (R232); before its first SPS, at the size of its record (DESIGN CHOICE, log
entry 32). -/
def pendingCost (st : StreamSt) : Nat :=
  unitCosts (if st.size = 0 then srWidth st.record * srHeight st.record else st.size)
    (if st.cur.isSome then st.units.drop 1 else st.units)

/-- The backlog of a pipe in ns (R233). -/
def State.backlog (s : State) (p : Nat) : Nat :=
  ((s.onPipe p).map fun e => pendingCost e.2
    + ((e.2.noSlot.map fun t => s.time.toNat - t.toNat).getD 0)).sum

/-- The slack of a context with pending units, in ns, by its oldest one (R233). -/
def slackOf (s : State) (st : StreamSt) : Int :=
  let oldest := (pendingUnits st).foldl (fun m u => min m u.capture.toNat) (2 ^ 64 - 1)
  (1000000 * fld st.record 176 16 : Nat) - ((s.time.toNat : Int) - (oldest : Int))

/-- The context with the most slack of a list; ties go to the lower number (R233). -/
def mostSlack (s : State) (l : List (Nat × StreamSt)) : Option (Nat × StreamSt) :=
  l.foldl (fun m e => match m with
    | none => some e
    | some x => if slackOf s x.2 < slackOf s e.2 then some e else some x) none

/-- The first undropped unit that passes a test is dropped. -/
def dropFirst (test : AccessUnit → Bool) : List AccessUnit → List AccessUnit
  | [] => []
  | u :: l => if !u.dropped && test u then { u with dropped := true } :: l else u :: dropFirst test l

/-- Pending units up to, not including, the next IDR or IRAP after the first are dropped; with their number, and
whether such a unit was found. -/
def dropToIrap : List AccessUnit → Bool → List AccessUnit × Nat × Bool
  | [], _ => ([], 0, false)
  | u :: l, first =>
    if u.dropped then let r := dropToIrap l first; (u :: r.1, r.2)
    else if u.info.irap && !first then (u :: l, 0, true)
    else let r := dropToIrap l false; ({ u with dropped := true } :: r.1, r.2.1 + 1, r.2.2)

/-- The units of a context outside its picture in progress change. -/
def mapPending (c : Nat) (f : List AccessUnit → List AccessUnit) : Act := updStream c fun x =>
  if x.cur.isSome then { x with units := x.units.take 1 ++ f (x.units.drop 1) } else { x with units := f x.units }

/-- Shedding: while the backlog exceeds the threshold, a non-reference unit of the context with most slack is dropped,
or else that context's units up to its next IRAP (R233). That the latter begins with the context's front unit even where
that is an IRAP itself is DEDUCED (log entry 32). -/
def shed (p : Nat) : Nat → Act
  | 0 => .done
  | fuel + 1 => .look fun s =>
    let l := (s.onPipe p).filter fun e => !(pendingUnits e.2).isEmpty
    if s.backlog p ≤ 1000000 * max 1 (s.rfld (pipePage p) 0x100 0 8) then .done
    else match mostSlack s (l.filter fun e => (pendingUnits e.2).any fun u => u.info.nonRef) with
    | some e => acts [mapPending e.1 (dropFirst fun u => u.info.nonRef), countDrop e.1 true,
        consumeDropped e.1 (e.2.units.length + 1), shed p fuel]
    | none => match mostSlack s l with
      | none => .done
      | some e =>
        let r := dropToIrap (if e.2.cur.isSome then e.2.units.drop 1 else e.2.units) true
        acts [mapPending e.1 fun _ => r.1, forA (List.range r.2.1) fun _ => countDrop e.1 false,
          whenA (!r.2.2) (setResync e.1 true 0), consumeDropped e.1 (e.2.units.length + 1), shed p fuel]

/-- The lowest slot that is no reference, is not being written, and whose hold is at most 0 (R231); none when no slot
qualifies. A failed read of the picture table faults the context. -/
def findSlot (c : Nat) (st : StreamSt) (f : Func) (found : Option Nat → Act) : List Nat → Act
  | [] => found none
  | k :: ks =>
    if st.refs.contains k then findSlot c st f found ks
    else virtRead ⟨.decoder, f⟩ 0 (srTable st.record + 32 * k + 0x10) 4 .read 0x041A 0x041A fun r => match r with
      | .ok bs => if signedOf (bytesNat bs) 32 ≤ 0 then found (some k) else findSlot c st f found ks
      | .badSum => findSlot c st f found ks
      | _ => acts [streamErr c 0x041A, flog 0x041A 2 f (pipePage (srPipe st.record)) 0 c (pipePage (srPipe st.record)), leaveRunning c .faulted 0x041A]

/-- Whether a profile is one the cluster decodes, with its bit depths (R224). The numbers of the profiles are those of the
video standards the rule names: 66, 77 and 100 for H.264, 1 and 2 for H.265 (PRESUMED, log entry 32). -/
def profileOk (codec profile depth : Nat) : Bool :=
  if codec = 0 then [66, 77, 100].contains profile && decide (depth = 8)
  else (decide (profile = 1) && decide (depth = 8)) || (decide (profile = 2) && decide (8 ≤ depth) && decide (depth ≤ 10))

/-- The cause for which an activated SPS is refused (R225). -/
def spsRefusal (r : BitVec 512) (sp : Sps) : Option Nat :=
  if !sp.supported || !sp.progressive || !profileOk (srCodec r) sp.profile sp.depth
      || decide ((if srCodec r = 0 then 51 else 153) < sp.level) then some 0x0414
  else if sp.width < 64 ∨ sp.height < 64 ∨ srWidth r < sp.width ∨ srHeight r < sp.height then some 0x0415
  else if 8 < sp.depth ∧ ¬ srP010 r then some 0x041B
  else none

/-- The pipe takes a context's front unit into a slot, after the check of the SPS it activates (R225, R231). -/
def takeUnit (p c slot : Nat) (u : AccessUnit) : Act := .look fun s =>
  let st := s.atStreams c
  match u.info.sps.bind (spsRefusal st.record) with
  | some code => acts [endStall c, streamErr c code, bump (pipePage p) 0x068 1,
      streamEvent c 0x10 code (natBytes 4 c ++ (match u.info.sps with
        | some sp => natBytes 1 sp.profile ++ natBytes 1 sp.level
        | none => [0, 0]) ++ natBytes 2 code),
      updStream c fun x => { x with
        state := .refused, cause := code % 256, units := [], fetch := x.cons, stopping := false, flushTo := none, ended := false,
        jobs := [] },
      forA st.jobs fun n => endStreamJob n 0]
  | none => .seq (endStall c) <| updStream c fun x => { x with
      cur := some ⟨slot, u, x.frames + 1⟩,
      size := match u.info.sps with
        | some sp => sp.width * sp.height
        | none => x.size }

/-- The first context of a list that finds a slot is served; one that finds none waits (R231). -/
def selectFrom (p : Nat) : List (Nat × StreamSt) → Act
  | [] => .done
  | e :: l => .look fun s => match e.2.units.head? with
    | none => selectFrom p l
    | some u => findSlot e.1 e.2 (s.unitAt (streamUnit e.1)).owner (fun k => match k with
        | some slot => takeUnit p e.1 slot u
        | none => .seq (updStream e.1 fun x => { x with noSlot := some (x.noSlot.getD s.time) }) (selectFrom p l))
        (List.range (srSlots e.2.record))

/-- A context before the contexts of a list whose front unit was captured later (R233). -/
def byCapture (e : Nat × StreamSt) : List (Nat × StreamSt) → List (Nat × StreamSt)
  | [] => [e]
  | x :: l =>
    let t (y : Nat × StreamSt) : Nat := (y.2.units.head?.map fun u => u.capture.toNat).getD 0
    if t e < t x then e :: x :: l else x :: byCapture e l

/-- PIPE_SELECT: an idle pipe sheds what exceeds its threshold and takes the oldest pending access unit (R233). Units of
one context are taken in ring order (DEDUCED from their prediction, log entry 32). -/
def actPipeSelect (p : Fin 16) (now : Dword) : Act := .seq (tick now) (.look fun s =>
  let busy := (s.onPipe p.val).any fun e => e.2.cur.isSome
  whenA (decide ((s.unitAt ⟨.pipe, p.val⟩).state = .bound) && !busy)
    (acts [shed p.val (((s.onPipe p.val).map fun e => e.2.units.length).sum + 1), tellDrops p.val, .look fun t =>
      selectFrom p.val (((t.onPipe p.val).filter fun e =>
        (decide (e.2.state = .running) || decide (e.2.state = .resync)) && !e.2.stopping && !e.2.units.isEmpty
          && decide ((t.unitAt (streamUnit e.1)).state = .bound)).foldl (fun l e => byCapture e l) [])]))

/-- PIPE_SELECT. -/
def execPipeSelect (p : Fin 16) (now : Dword) (s : State) : Host.Outcome State Fault Refusal :=
  meaning (.pipeSelect p now) (inService (actPipeSelect p now)) s

/-! ## Pictures (R229, R230, R234) -/

/-- Whether luma sample (x, y) lies in one of the areas. -/
def inAreas (l : List (Nat × Nat × Nat × Nat)) (x y : Nat) : Bool :=
  l.any fun a => decide (a.1 ≤ x ∧ x < a.1 + a.2.2.1) && decide (a.2.1 ≤ y ∧ y < a.2.1 + a.2.2.2)

/-- The stored form of a sample (R229). -/
def sampleBytes (p010 : Bool) (depth v : Nat) : List Byte := if p010 then natBytes 2 (v * 2 ^ (16 - depth)) else natBytes 1 v

/-- Where byte `i` of a slot lies: column, luma row, row of its plane, and whether the plane is chroma (R229). -/
def slotPlace (r : BitVec 512) (i : Nat) : Nat × Nat × Nat × Bool :=
  let p := srPitch r
  let e := if srP010 r then 2 else 1
  let h := srHeight r
  if i < p * h then (i % p / e, i / p, i / p, false) else (i % p / e, 2 * ((i - p * h) / p), (i - p * h) / p, true)

/-- Whether byte `i` of a slot is a sample of the picture. -/
def isSample (r : BitVec 512) (pic : Picture) (i : Nat) : Bool :=
  let q := slotPlace r i
  decide (q.1 < pic.width) && decide (q.2.2.1 < if q.2.2.2 then pic.height / 2 else pic.height)

/-- Whether byte `i` of a slot is a sample of a damaged area. -/
def isDamaged (r : BitVec 512) (pic : Picture) (areas : List (Nat × Nat × Nat × Nat)) (i : Nat) : Bool :=
  let q := slotPlace r i
  isSample r pic i && inAreas areas (if q.2.2.2 then q.1 / 2 * 2 else q.1) q.2.1

/-- The bytes of a slot that holds a picture: luma rows, then chroma rows, at the record's pitch. A damaged sample is
the co-located one of the nearest reference, whose billets `near` gives where they were read, or mid-grey; bytes that are
no sample have no stated value (log entry 3). -/
def pictureBytes (r : BitVec 512) (pic : Picture) (areas : List (Nat × Nat × Nat × Nat)) (near : List (Option (List Byte)))
    (free : BitVec 64) : List Byte :=
  let e := if srP010 r then 2 else 1
  (List.range (srSlotSize r)).map fun i =>
    let q := slotPlace r i
    if isDamaged r pic areas i then
      match near.getD (i / 2048) none with
      | some bs => bs.getD (i % 2048) 0
      | none => (sampleBytes (srP010 r) pic.depth (2 ^ (pic.depth - 1))).getD (i % e) 0
    else if isSample r pic i then
      (sampleBytes (srP010 r) pic.depth ((if q.2.2.2 then pic.chroma else pic.luma).getD (q.2.2.1 * pic.width + q.1) 0)).getD
        (i % e) 0
    else BitVec.setWidth 8 (Config.unstated 40 [free.toNat, i])

/-- The areas that a reference read which failed damages: the macroblocks or coding tree units predicted from what could
not be read, which the command does not carry: any of the picture's 16 × 16 blocks, by a free choice (R234, log entry
3). -/
def lostAreas (pic : Picture) (free : BitVec 64) : List (Nat × Nat × Nat × Nat) :=
  (List.range (ceilDiv pic.height 16)).flatMap fun y => (List.range (ceilDiv pic.width 16)).filterMap fun x =>
    if (Config.unstated 41 [free.toNat, x, y]).getLsbD 0 then some (16 * x, 16 * y, 16, 16) else none

/-- The bytes of the picture-table entry of a slot (R230). -/
def tableEntry (cur : Decoding) (pic : Picture) (concealed gap : Bool) (holds : Nat) (now : Dword) : List Byte :=
  natBytes 8 cur.unit.capture.toNat ++ natBytes 4 cur.frame
    ++ natBytes 4 (1 + 2 * b2n concealed + 4 * b2n pic.reference + 8 * b2n cur.unit.info.irap + 16 * b2n gap)
    ++ natBytes 4 holds ++ natBytes 4 cur.unit.tag ++ natBytes 2 pic.width ++ natBytes 2 pic.height ++ natBytes 4 now.toNat

/-- A picture that is concealed: the highest cause recorded, and event 0x0411 at most once in 100 ms (R234). -/
def tellConcealed (c p frame : Nat) (causes : List Nat) : Act := .look fun s =>
  acts [updStream c fun x => { x with concealed := x.concealed + 1 }, bump (pipePage p) 0x060 1,
    whenA (!causes.isEmpty) (streamErr c (0x0400 + causes.foldl max 0)),
    whenA (((s.atStreams c).toldAt.map fun t => decide (t.toNat + 10 ^ 8 ≤ s.time.toNat)).getD true)
      (.seq (updStream c fun x => { x with toldAt := some s.time })
        (streamEvent c 0x11 (if causes.isEmpty then 0 else 0x0400 + causes.foldl max 0)
          (natBytes 4 c ++ natBytes 4 frame)))]

/-- A decoded picture is written: its billets, its table entry, out_sem, and its access unit is consumed; a write that
fails puts the context in state faulted (R227, R230, R234). `areas` are its damaged areas, `near` the billets read of the
nearest reference, `bad` the causes its reference reads met. -/
def writePicture (p c : Nat) (cur : Decoding) (pic : Picture) (areas : List (Nat × Nat × Nat × Nat))
    (near : List (Option (List Byte))) (bad : List Nat) : Act := .look fun s =>
  let st := s.atStreams c
  let f := (s.unitAt (streamUnit c)).owner
  let cl : StackClient := ⟨.decoder, f⟩
  let tainted := if cur.unit.info.irap then [] else st.tainted
  let concealed := !pic.damaged.isEmpty || !pic.causes.isEmpty || !bad.isEmpty || pic.uses.any fun k => tainted.contains k
  let fault : Act := acts [streamErr c 0x041A, flog 0x041A 2 f (pipePage p) 0 c (pipePage p),
    leaveRunning c .faulted 0x041A]
  withFree fun x =>
    virtWrite cl 0 (srPool st.record + cur.slot * srSlotSize st.record) (pictureBytes st.record pic areas near x) 0x041A 0x041A
      (some (srP010 st.record)) fun w =>
    if w ≠ .ok then fault else
    virtWrite cl 0 (srTable st.record + 32 * cur.slot)
      (tableEntry cur pic concealed st.gap (fld st.record 144 3) s.time) 0x041A 0x041A none fun w2 =>
    if w2 ≠ .ok then fault else
    acts [whenA (bit st.record 335 && s.semBound (fld st.record 320 12) f) (semAdd (fld st.record 320 12) 1),
      updStream c fun y => { y with
        cur := none, gap := false, decoded := y.decoded + 1, lastCapture := cur.unit.capture,
        refs := (if pic.reference then [cur.slot] else []) ++ pic.refs,
        tainted := (if concealed then [cur.slot] else []) ++ tainted.filter fun k => decide (k ≠ cur.slot) },
      bump (pipePage p) 0x040 1, bump (pipePage p) 0x048 (pic.width * pic.height),
      whenA concealed (tellConcealed c p cur.frame (pic.causes ++ bad)),
      consumeFront c, consumeDropped c st.units.length]

/-- The causes that reads of reference slots meet: 0x18 for a billet that fails its checksum (R209, R234), 0x17 for a slot
that cannot be read; each slot is read whole (DEDUCED, log entry 32). -/
def readRefs (cl : StackClient) (r : BitVec 512) (k : List Nat → Act) : List Nat → List Nat → Act
  | [], bad => k bad
  | n :: l, bad =>
    virtRead cl 0 (srPool r + n * srSlotSize r) (srSlotSize r) .read 0x0417 0x0417 fun x => match x with
      | .ok _ => readRefs cl r k l bad
      | .badSum => readRefs cl r k l (bad ++ [0x18])
      | _ => readRefs cl r k l (bad ++ [0x17])

/-- The billets of the nearest reference that hold co-located samples are read one by one: one that cannot be read gives
nothing, and its cause (R234). -/
def readNear (cl : StackClient) (base size : Nat) (need : Nat → Bool) (k : List (Option (List Byte)) → List Nat → Act) :
    List Nat → List (Option (List Byte)) → List Nat → Act
  | [], got, bad => k got bad
  | j :: l, got, bad =>
    if ¬ need j then readNear cl base size need k l (got ++ [none]) bad else
    virtRead cl 0 (base + 2048 * j) (min 2048 (size - 2048 * j)) .read 0x0417 0x0417 fun x => match x with
      | .ok bs => readNear cl base size need k l (got ++ [some bs]) bad
      | .badSum => readNear cl base size need k l (got ++ [none]) (bad ++ [0x18])
      | _ => readNear cl base size need k l (got ++ [none]) (bad ++ [0x17])

/-- PICTURE_WRITTEN: the picture a pipe was decoding, its references read, is written; its damaged areas are concealed,
with those that a reference read has lost (R230, R234). -/
def actPictureWritten (p : Fin 16) (pic : Picture) : Act := .look fun s =>
  optA ((s.onPipe p.val).find? fun e => e.2.cur.isSome) fun e => optA e.2.cur fun cur =>
    let cl : StackClient := ⟨.decoder, (s.unitAt (streamUnit e.1)).owner⟩
    let r := e.2.record
    let size := srSlotSize r
    let conceal (bad : List Nat) (areas : List (Nat × Nat × Nat × Nat)) : Act :=
      match (if areas.isEmpty then none else pic.nearest) with
      | none => writePicture p.val e.1 cur pic areas [] bad
      | some k =>
        readNear cl (srPool r + k * size) size
          (fun j => (List.range (min 2048 (size - 2048 * j))).any fun i => isDamaged r pic areas (2048 * j + i))
          (fun near more => writePicture p.val e.1 cur pic areas near (bad ++ more)) (List.range (ceilDiv size 2048)) [] []
    readRefs cl r (fun bad =>
      if bad.isEmpty then conceal bad pic.damaged
      else withFree fun x => conceal bad (pic.damaged ++ lostAreas pic x)) pic.uses []

/-- PICTURE_WRITTEN. -/
def execPictureWritten (p : Fin 16) (pic : Picture) (s : State) : Host.Outcome State Fault Refusal :=
  meaning (.pictureWritten p pic) (inService (actPictureWritten p pic)) s

/-! ## Re-binding (R52, R235) -/

/-- A pipe is withdrawn: the picture in progress is abandoned and counted as a resync drop, and its contexts stop. -/
def stopPipe (p : Nat) : Act := .look fun s =>
  forA (s.onPipe p) fun e =>
    .seq (whenA e.2.cur.isSome (acts [mapFront e.1, countDrop e.1 false, updStream e.1 fun x => { x with cur := none },
        consumeFront e.1]))
      (.look fun t => whenA (decide ((t.atStreams e.1).state = .running) || decide ((t.atStreams e.1).state = .resync))
        (leaveRunning e.1 .stopped 0))
where
  /-- The front unit counts as dropped. -/
  mapFront (c : Nat) : Act := updStream c fun x => { x with units := dropFirst (fun _ => true) x.units }

end Sys2Proof.Machine
end

