-- ==== Sys2Proof/Machine/TrackOps.lean ====
section
/-! DEFINITION. What the track engine's commands share: records, the track cache, the track ring, offers and the
arithmetic of association (R329 to R331, R336 to R341, R344). -/

namespace Sys2Proof.Machine

/-- The engine page. -/
def trackPage : Nat := 0x1B0

/-- The page of a partition. -/
def partPage (t : Nat) : Nat := 0x1B8 + t

/-- The bind unit of a partition. -/
def partUnit (t : Nat) : UnitId := ⟨.partition, t⟩

/-- A part of the track engine's own state changes. -/
def updTrack (f : TrackSt → TrackSt) : Act := .look fun s => .eff (.track (f s.track))

/-- The function a partition works for. -/
def State.partOwner (s : State) (t : Nat) : Func := (s.unitAt (partUnit t)).owner

/-- Whether a partition is faulted (R331). -/
def State.partFaulted (s : State) (t : Nat) : Bool := s.rbit (partPage t) 0x014 8

/-! ## Arithmetic in binary32 -/

/-- Sum. -/
def fAdd (x y : Nat) : Nat := (f32Add false x y).1

/-- The opposite. -/
def fNeg (x : Nat) : Nat := if f32Neg x then x - 2 ^ 31 else x + 2 ^ 31

/-- Difference. -/
def fSub (x y : Nat) : Nat := fAdd x (fNeg y)

/-- Product. -/
def fMul (x y : Nat) : Nat := (f32Mul false x y).1

/-- Quotient. -/
def fDiv (x y : Nat) : Nat := (f32Div false x y).1

/-- A place on the number line, both zeros at one. -/
def fKey (x : Nat) : Int := if f32Neg x then -((x % 2 ^ 31 : Nat) : Int) else ((x % 2 ^ 31 : Nat) : Int)

/-- x ≤ y; false with a NaN. -/
def fLe (x y : Nat) : Bool := !f32IsNan x && !f32IsNan y && decide (fKey x ≤ fKey y)

/-- x < y; false with a NaN. -/
def fLt (x y : Nat) : Bool := !f32IsNan x && !f32IsNan y && decide (fKey x < fKey y)

/-- A binary16 code as binary32. -/
def fHalf (c : Nat) : Nat := (f32Widen 5 c).1

/-- The magnitude. -/
def fAbs (x : Nat) : Nat := x % 2 ^ 31

/-- The greater. -/
def fMax2 (x y : Nat) : Nat := if fLt x y then y else x

/-- The lesser. -/
def fMin2 (x y : Nat) : Nat := if fLt y x then y else x

/-- The floor of a finite value; of an infinity or a NaN the spec states none (log entry 41). -/
def fFloor (x : Nat) : Int :=
  match f32Value x with
  | .fin n m e =>
    let (a, b) := ratShift m 1 e
    if n then -((ceilDiv a b : Nat) : Int) else ((a / b : Nat) : Int)
  | .inf n => if n then -(2 ^ 32 : Int) else (2 ^ 32 : Int)
  | .nan => ((Config.unstated 5 [x]).toNat : Int)

/-- 1.0. -/
def fOne : Nat := 0x3F800000

/-- Intersection over union of two boxes (centre and size) in binary32; 0 where the union is 0 (R334). The order of its
operations is DEDUCED (log entry 41). -/
def iou (a b : List Nat) : Nat :=
  let g (l : List Nat) (i : Nat) : Nat := l.getD i 0
  let half (x : Nat) : Nat := fMul x 0x3F000000
  let overlap (i : Nat) : Nat :=
    let lo := fMax2 (fSub (g a i) (half (g a (i + 2)))) (fSub (g b i) (half (g b (i + 2))))
    let hi := fMin2 (fAdd (g a i) (half (g a (i + 2)))) (fAdd (g b i) (half (g b (i + 2))))
    fMax2 0 (fSub hi lo)
  let inter := fMul (overlap 0) (overlap 1)
  let union := fSub (fAdd (fMul (g a 2) (g a 3)) (fMul (g b 2) (g b 3))) inter
  if fKey union = 0 ∧ !f32IsNan union then 0 else fDiv inter union

/-! ## Records (R330) -/

/-- A track record; `state` 1 tentative, 2 confirmed, 3 coasting; the box and its velocity are four binary32 codes each;
`prev` holds the previous camera and device. -/
structure TrackRec where
  ident : Nat
  state : Nat
  cls : Nat
  cam : Nat
  hits : Nat
  misses : Nat
  box : List Nat
  vel : List Nat
  tLast : Nat
  tBorn : Nat
  prev : Nat
  deriving DecidableEq, Repr

/-- The record 128 bytes hold. -/
def parseRec (b : List Byte) : TrackRec where
  ident := bytesNat (sliceBytes b 0 6)
  state := bytesNat (sliceBytes b 6 1) % 16
  cls := bytesNat (sliceBytes b 7 1)
  cam := bytesNat (sliceBytes b 8 2) % 4096
  hits := bytesNat (sliceBytes b 10 2)
  misses := bytesNat (sliceBytes b 12 2)
  box := (List.range 4).map fun i => bytesNat (sliceBytes b (0x10 + 4 * i) 4)
  vel := (List.range 4).map fun i => bytesNat (sliceBytes b (0x20 + 4 * i) 4)
  tLast := bytesNat (sliceBytes b 0x30 8)
  tBorn := bytesNat (sliceBytes b 0x38 8)
  prev := bytesNat (sliceBytes b 0x40 4)

/-- The 128 bytes of a record. -/
def recBytes (r : TrackRec) : List Byte :=
  natBytes 6 r.ident ++ natBytes 1 r.state ++ natBytes 1 r.cls ++ natBytes 2 r.cam ++ natBytes 2 r.hits
    ++ natBytes 2 r.misses ++ natBytes 2 0 ++ (r.box.flatMap (natBytes 4)) ++ (r.vel.flatMap (natBytes 4))
    ++ natBytes 8 r.tLast ++ natBytes 8 r.tBorn ++ natBytes 4 r.prev ++ List.replicate 60 0

/-! ## Blocks and the cache (R329, R331) -/

/-- The key of a block of a partition. -/
def blkKey (t b : Nat) : Nat := 2048 * t + b

/-- The key of a block in the cache: of the record table, or of the embedding table. -/
def cacheKey (t : Nat) (emb : Bool) (b : Nat) : Nat := 2048 * (t + 8 * b2n emb) + b

/-- The key of a camera of a partition. -/
def camKey (t cam : Nat) : Nat := 4096 * t + cam

/-- The content of a block with no record. -/
def blankBlock : List Byte := List.replicate 2048 0

/-- The cached content of a block; zeros where it is not cached. -/
def State.cacheData (s : State) (t : Nat) (emb : Bool) (b : Nat) : List Byte :=
  ((s.atTcache (cacheKey t emb b)).map fun x => x.data).getD blankBlock

/-- The record at an index of a partition, as the cache holds it. -/
def State.trackRec (s : State) (t i : Nat) : TrackRec := parseRec (sliceBytes (s.cacheData t false (i / 16)) (128 * (i % 16)) 128)

/-- The embedding of a record, as the cache holds it. -/
def State.trackEmb (s : State) (t i : Nat) : List Byte := sliceBytes (s.cacheData t true (i / 16)) (128 * (i % 16)) 128

/-- The blocks of a camera. -/
def State.camBlocks (s : State) (t cam : Nat) : List Nat :=
  (List.range 2048).filter fun b => decide ((s.atTblk (blkKey t b)).cam = some cam)

/-- The live records of a block. -/
def State.liveOf (s : State) (t b : Nat) : List Nat :=
  ((List.range 16).filter fun i => bit (s.atTblk (blkKey t b)).live i).map fun i => 16 * b + i

/-- A camera's stand: its live records (R335). -/
def State.stand (s : State) (t cam : Nat) : List Nat := (s.camBlocks t cam).flatMap fun b => s.liveOf t b

/-- Whether the stand of a camera is cached (R342). -/
def State.standCached (s : State) (t cam : Nat) : Bool :=
  (s.camBlocks t cam).all fun b =>
    (s.atTcache (cacheKey t false b)).isSome && (s.atTcache (cacheKey t true b)).isSome

/-- 128 bytes put into a cached block, which is then modified. -/
def putCached (t : Nat) (emb : Bool) (i : Nat) (bs : List Byte) : Act := .look fun s =>
  optA (s.atTcache (cacheKey t emb (i / 16))) fun c =>
    .eff (.tcache (cacheKey t emb (i / 16)) (some { c with
      data := c.data.take (128 * (i % 16)) ++ bs ++ c.data.drop (128 * (i % 16) + 128), dirty := true }))

/-- A record takes a value. -/
def putRec (t i : Nat) (r : TrackRec) : Act := putCached t false i (recBytes r)

/-- The virtual address of a block of one of the two tables (R329). -/
def State.blkAddr (s : State) (t : Nat) (emb : Bool) (b : Nat) : Nat :=
  s.reg64 (partPage t) (if emb then 0x108 else 0x100) % 2 ^ 48 + 2048 * b

/-- A partition faults on a table (R331): its problems wait. -/
def partFault (t addr : Nat) : Act := .look fun s =>
  acts [setFld (partPage t) 0x014 8 1 1, recordErr (partPage t) 0x0C16,
    flog 0x0C16 2 (s.partOwner t) (partPage t) 0 0xFFFF (partPage t),
    pageEvent (partPage t) 0x12 0x0C16 (natBytes 4 t ++ natBytes 6 addr)]

/-- A block is written back whole (R331); `k` gets whether the write has passed. A write that fails faults the partition
the block is of, and is not counted: the block has not been written (R346). -/
def writeBack (t : Nat) (emb : Bool) (b : Nat) (data : List Byte) (k : Bool → Act) : Act := .look fun s =>
  virtWrite ⟨.track, s.partOwner t⟩ 0 (s.blkAddr t emb b) data 0x0C16 0x0C16 none fun w =>
    if w = .ok then .seq (bump trackPage 0x070 1) (k true) else .seq (partFault t (s.blkAddr t emb b)) (k false)

/-- The cached block whose camera was least recently associated (R331). -/
def State.coldest (s : State) : Option Nat :=
  (s.tcache.foldl (fun (m : Option (Nat × Nat)) (e : Nat × Option CacheBlk) =>
    match e.2 with
    | none => m
    | some c =>
      let o := (s.atTcam (camKey (e.1 / 2048 % 8) c.cam)).order
      match m with
      | none => some (e.1, o)
      | some x => if o < x.2 then some (e.1, o) else m) none).map fun x => x.1

/-- Blocks the cache gives up, coldest first, until `n` more have room among its 2,048; a modified one is written back
first, and stays, its records unchanged, if the write faults: then `k` gets false (R331). -/
def cacheRoom (n : Nat) : Nat → (Bool → Act) → Act
  | 0, k => k true
  | m + 1, k => .look fun s =>
    if s.tcache.length + n ≤ 2048 then k true
    else match s.coldest with
    | none => k true
    | some key => match s.atTcache key with
      | none => k true
      | some c =>
        let drop : Act := .seq (.eff (.tcache key none)) (cacheRoom n m k)
        if c.dirty then writeBack (key / 2048 % 8) (decide (8 * 2048 ≤ key)) (key % 2048) c.data fun ok =>
          if ok then drop else k false
        else drop

/-- A block enters the cache, once it has room. -/
def cacheBlock (t : Nat) (emb : Bool) (b cam : Nat) (data : List Byte) (dirty : Bool) : Act := .look fun s =>
  cacheRoom 1 s.tcache.length fun ok => whenA ok (.eff (.tcache (cacheKey t emb b) (some ⟨data, dirty, cam⟩)))

/-- A camera is the one most recently associated (R331). -/
def touchCam (t cam : Nat) : Act := .look fun s =>
  .seq (updTrack fun x => { x with clock := x.clock + 1 })
    (.eff (.tcam (camKey t cam) { s.atTcam (camKey t cam) with order := s.track.clock + 1 }))

/-! ## The track ring (R344) -/

/-- Entries of a track ring. -/
def State.tringSize (s : State) (t : Nat) : Nat := 2 ^ s.rfld (partPage t) 0x138 0 5

/-- The moderated interrupt of a track ring is raised if its count threshold is met (R347, R39). -/
def tringModerate (t : Nat) : Act := .look fun s =>
  let r := s.atTrings t
  whenA (decide (max 1 (s.rfld (partPage t) 0x148 0 16) ≤ r.unsignalled)
      && decide (s.reg (partPage t) 0x13C ≠ s.reg (partPage t) 0x140))
    (.seq (.eff (.trings t { r with unsignalled := 0 })) (raiseIrq (partPage t) 8))

/-- An entry is written at the producer index of a track ring with room; `body` gives its 64 bytes without the phase. -/
def tringWrite (t : Nat) (body : List Byte) : Act := .look fun s =>
  let p := partPage t
  let idx := (s.reg p 0x13C).toNat
  let phase := b2n (decide (idx / s.tringSize t % 2 = 0))
  let r := s.atTrings t
  acts [.eff (.out (.hostWrite (s.partOwner t) (s.reg64 p 0x130 + 64 * (idx % s.tringSize t))
      (natBytes 4 (bytesNat (body.take 4) + 2 ^ 31 * phase) ++ body.drop 4))),
    setRegN p 0x13C (idx + 1), bump p 0x060 1,
    .eff (.trings t
      { r with unsignalled := r.unsignalled + 1, firstAt := if r.unsignalled = 0 then s.time else r.firstAt }),
    tringModerate t]

/-- Whether a track ring is full (R40). -/
def State.tringFull (s : State) (t : Nat) : Bool :=
  decide (sub32 (s.reg (partPage t) 0x13C).toNat (s.reg (partPage t) 0x140).toNat = s.tringSize t)

/-- An entry for a track ring: not written on a ring that is off, dropped and counted with cause 0x19 on a full one
(R344, R40). -/
def tringPut (t : Nat) (body : List Byte) : Act := .look fun s =>
  if !s.rbit (partPage t) 0x138 31 then .done
  else if s.tringFull t then
    let r := s.atTrings t
    acts [setRegN (partPage t) 0x144 ((s.reg (partPage t) 0x144).toNat + 1),
      .eff (.trings t { r with pendingDrop := r.pendingDrop + 1 }),
      withFree fun x => recordQuiet (partPage t) 0x0C19 (x.extractLsb' 0 32) (x.extractLsb' 32 32)]
  else tringWrite t body

/-- The 64 bytes of an entry, without its phase. -/
def entryBytes (kind reason cls cam idx cost ident hits capture : Nat) (six : List Nat) (tail : List Byte) : List Byte :=
  natBytes 4 (kind + 16 * reason + 256 * cls + 65536 * cam) ++ natBytes 4 (idx + 65536 * (cost % 65536))
    ++ natBytes 6 ident ++ natBytes 2 hits ++ natBytes 8 capture ++ (six.flatMap (natBytes 4)) ++ sliceBytes tail 0 16

/-- An entry about a record (R344). -/
def recEntry (t kind reason i cost capture : Nat) (r : TrackRec) (tail : List Byte) : Act :=
  tringPut t (entryBytes kind reason r.cls r.cam i cost r.ident r.hits capture (r.box ++ r.vel.take 2) tail)

/-! ## Tracks end -/

/-- A record is free again; a block with no live record is free (R329). -/
def freeRec (t i : Nat) : Act := .look fun s =>
  let b := s.atTblk (blkKey t (i / 16))
  let live := b.live &&& ~~~ BitVec.ofNat 16 (2 ^ (i % 16))
  acts [.eff (.tblk (blkKey t (i / 16)) { cam := if live = 0 then none else b.cam, live := live }),
    putRec t i { s.trackRec t i with state := 0 },
    updTrack fun x => { x with handed := x.handed.filter fun h => decide (h.2 ≠ (t, i)) }]

/-- A track ends for a reason, with its entry (R339, R344). -/
def endTrack (t i reason capture : Nat) (r : TrackRec) (tail : List Byte) : Act :=
  acts [recEntry t 4 reason i 0 capture r tail, bump (partPage t) 0x050 1, freeRec t i]

/-- The capture time of the first problem of a camera: that for which its blocks are read. -/
def State.captureOf (s : State) (t cam : Nat) : Nat :=
  ((s.track.problems.find? fun p => !p.flush && decide (p.part = t) && decide (p.cam = cam)).map fun p => p.capture).getD 0

/-- The records of a block as far as they are known, when the read of one of its two blocks has failed: what the failed
read gave of the record block, or the record block itself (log entry 41). -/
def withRecords (t : Nat) (emb : Bool) (b : Nat) (data : List Byte) (k : List Byte → Act) : Act := .look fun s =>
  if !emb then k data
  else match s.atTcache (cacheKey t false b) with
  | some c => k c.data
  | none => virtRead ⟨.track, s.partOwner t⟩ 0 (s.blkAddr t false b) 2048 .read 0x0C16 0x0C16 fun r =>
    k (match r with | .ok bs => bs | _ => blankBlock)

/-- A block whose read has failed its checksum (R331): every live track of it ends, the block is free and written back as
zeros. What the entries say of the tracks is what was read (log entry 41). -/
def loseBlock (t : Nat) (emb : Bool) (b : Nat) (data : List Byte) : Act := withRecords t emb b data fun recs => .look fun s =>
  let lost := s.liveOf t b
  let cam := ((s.atTblk (blkKey t b)).cam).getD 0
  acts [.eff (.tcache (cacheKey t false b) (some ⟨recs, false, cam⟩)),
    .look fun u => forA lost fun i => endTrack t i 4 (u.captureOf t cam) (u.trackRec t i) [],
    .eff (.tblk (blkKey t b) {}), .eff (.tcache (cacheKey t false b) none), .eff (.tcache (cacheKey t true b) none),
    writeBack t emb b blankBlock fun _ => .done, recordErr (partPage t) 0x0C15, bump (partPage t) 0x078 lost.length,
    pageEvent (partPage t) 0x11 0x0C15 (natBytes 4 (t + 8 * b) ++ natBytes 2 lost.length)]

/-- A block of a camera is read whole into the cache, with the corruption its billet has met (R331). -/
def fillBlock (t : Nat) (emb : Bool) (b : Nat) (changes : List (Nat × Byte)) : Act := .look fun s =>
  let c : StackClient := ⟨.track, s.partOwner t⟩
  let va := s.blkAddr t emb b
  match (s.atTblk (blkKey t b)).cam with
  | none => .done
  | some cam =>
    whenA (decide ((s.atTcache (cacheKey t emb b)).isNone) && !s.partFaulted t)
      (translate c 0 va 2048 .read 0x0C16 0x0C16 fun x => match x with
        | .ok pa _ => acts [touchCam t cam, bump trackPage 0x068 1, upsetBillet (pa / 2048) changes,
            virtRead c 0 va 2048 .read 0x0C16 0x0C16 fun r => .look fun u => match r with
              | .ok bs => cacheBlock t emb b cam bs false
              | .badSum => loseBlock t emb b (u.contents pa 2048)
              | _ => partFault t va]
        | _ => partFault t va)

/-- Every block of a camera is read into the cache, if its tables can be reached. -/
def fillStand (t cam : Nat) : Act := .look fun s =>
  forA (s.camBlocks t cam) fun b => .seq (fillBlock t false b []) (fillBlock t true b [])

/-! ## New records (R329) -/

/-- The lowest free record of the camera's blocks, or the first of the lowest wholly free block. -/
@[irreducible] def State.freeRecord (s : State) (t cam : Nat) : Option Nat :=
  match ((s.camBlocks t cam).flatMap fun b => (List.range 16).map fun i => 16 * b + i).find? fun i =>
      !bit (s.atTblk (blkKey t (i / 16))).live (i % 16) with
  | some i => some i
  | none => ((List.range 2048).find? fun b => decide ((s.atTblk (blkKey t b)).cam = none)).map fun b => 16 * b

/-- Record `i` of a camera becomes live. A wholly free block enters the cache as zeros. -/
def fillRec (t cam i : Nat) (r : TrackRec) (emb : List Byte) : Act := .look fun s =>
  acts [
    whenA (decide ((s.atTblk (blkKey t (i / 16))).cam = none))
      (.seq (cacheBlock t false (i / 16) cam blankBlock true) (cacheBlock t true (i / 16) cam blankBlock true)),
    .eff (.tblk (blkKey t (i / 16))
      { cam := some cam, live := (s.atTblk (blkKey t (i / 16))).live ||| BitVec.ofNat 16 (2 ^ (i % 16)) }),
    putRec t i r, putCached t true i (sliceBytes emb 0 128)]

/-- A new record of a camera, with its embedding; `k` gets its index. -/
def newRec (t cam : Nat) (r : TrackRec) (emb : List Byte) (none_ : Act) (k : Nat → Act) : Act := .look fun s =>
  match s.freeRecord t cam with
  | none => none_
  | some i => .seq (fillRec t cam i r emb) (k i)

/-- A new identifier: this device's number and its creation count (R330). -/
def newIdent (k : Nat → Act) : Act := .look fun s =>
  .seq (updTrack fun x => { x with created := x.created + 1 })
    (k ((s.track.created + 1) % 2 ^ 42 + 2 ^ 42 * s.deviceNo))

/-! ## Offers and notices (R341, R345) -/

/-- A track message that cannot be delivered is dropped (R341, R363). -/
def trackLost : Act := acts [recordErr trackPage 0x0C1E, bump trackPage 0x0A0 1, raiseIrq trackPage 9]

/-- A track message goes to another device over the chain (R341, R353). -/
def sendTrack (dst len kind : Nat) (fields : List Nat) : Act := .look fun s =>
  let ttag := s.freeTtag
  let payload := natBytes len (Config.trackPayload kind fields).toNat
  let r : RemoteReq :=
    {
      engine := none, dst := dst, requester := 0x7F, busy := false, offer := some kind,
      bytes := frameBody {
        typ := 5, vc := 0, dst := dst, src := s.deviceNo, len := len, ttag := ttag, requester := 0x7F,
        last := len - 1 } payload }
  .seq (.eff (.remotes ttag (some r))) (sendRemote r 0 fun _ => .seq (.eff (.remotes ttag none)) trackLost)

/-- The numbers an offer message carries. -/
def offerFields (o : OfferMsg) : List Nat :=
  [o.ident, o.cls, o.tLast, o.cam, o.dev, o.dest, o.bias, o.tMin, o.tMax] ++ o.emb.map fun b => b.toNat

/-- The lowest entry of the offer table without an offer. -/
def State.freeOffer (s : State) : Nat :=
  ((List.range (s.track.offers.length + 1)).find? fun i => !s.track.offers.any fun o => decide (o.1 = i)).getD 0

/-- `k` free values joined, 8 bytes each (log entry 3). -/
def withFreeBytes : Nat → List Byte → (List Byte → Act) → Act
  | 0, bs, f => f bs
  | k + 1, bs, f => withFree fun x => withFreeBytes k (bs ++ natBytes 8 x.toNat) f

/-- An offer enters the offer table; the oldest gives way when it is full. The 256 bytes of its entry in the stack have
no layout in the spec: they become free values (R341, log entry 41). -/
def storeOffer (o : OfferMsg) : Act := .look fun s =>
  acts [bump trackPage 0x088 1,
    whenA (decide (16384 ≤ s.track.offers.length))
      (acts [updTrack fun x => { x with offers := x.offers.drop 1 }, recordErr trackPage 0x0C1A, bump trackPage 0x0A0 1,
        raiseIrq trackPage 9]),
    .look fun u =>
      let slot := u.freeOffer
      let base := u.reg64 trackPage 0x114 + 256 * slot
      .seq (updTrack fun x => { x with offers := x.offers ++ [(slot, o)] })
        (whenA (decide (base + 256 ≤ dataTop)) (withFreeBytes 32 [] fun bs => physWrite base bs none))]

/-- The offers of an identifier are withdrawn on this device. -/
def dropOffers (ident : Nat) : Act :=
  updTrack fun x => { x with offers := x.offers.filter fun o => decide (o.2.ident ≠ ident) }

/-- A duplicate notice (R345): the record taken over under the identifier gets a new one, with a duplicate entry. -/
def renameRec (ident : Nat) : Act := .look fun s =>
  optA (s.track.handed.find? fun h => decide (h.1 = ident)) fun h =>
    let t := h.2.1
    let i := h.2.2
    acts [fillBlock t false (i / 16) [], .look fun u =>
      whenA (u.atTcache (cacheKey t false (i / 16))).isSome
        (newIdent fun n =>
          let r := { u.trackRec t i with ident := n }
          acts [putRec t i r, updTrack fun x => { x with handed := x.handed.filter fun e => decide (e.1 ≠ ident) },
            withFree fun x => recEntry t 9 0 i 0 x.toNat r []])]

/-- A taken notice reaches the source of an offer (R341, R345): the first is honoured, with a taken entry and the
withdrawal of the other offers; a later one is answered with a duplicate notice. -/
def noteTaken (ident taker : Nat) : Act := .look fun s =>
  optA (s.track.sent.find? fun e => decide (e.ident = ident)) fun e =>
    if e.taken then (if taker = s.deviceNo then renameRec ident else sendTrack taker 64 4 [ident])
    else
      let dests := (e.dests.erase taker).eraseDups
      acts [
        updTrack fun x => { x with sent := x.sent.map fun y => if y.ident = ident then { y with taken := true } else y },
        bump trackPage 0x090 1,
        withFree fun x =>
          tringPut e.part (entryBytes 6 0 e.cls e.cam 0 0 ident e.hits x.toNat (List.replicate 6 0) []),
        forA dests fun d => if d = s.deviceNo then dropOffers ident else sendTrack d 64 3 [ident]]

/-! ## Jobs of kind 0x04 (R332) -/

/-- The op. -/
def trackOp (d : BitVec 1024) : Nat := fld d 512 4

/-- A track control job ends, with event 0x0C10; a refusal is recorded. The signal applies when the job's work is done:
a job that ends with a code applies nothing (R332, R348). -/
def endTrackJob (n code : Nat) : Act := .look fun s =>
  optA (s.atJobs n) fun j =>
    let page := if trackOp j.desc = 3 ∨ 8 ≤ jobTarget j.desc then trackPage else partPage (jobTarget j.desc)
    .seq (whenA (decide (code ≠ 0)) (recordErr page code))
      (completeJob n code (if code = 0 then j.desc else putFld j.desc 335 1 0) (jobEvent j.func j.desc page 0x10 code
        (natBytes 4 (trackOp j.desc + 16 * (jobTarget j.desc % 8)) ++ natBytes 2 code ++ natBytes 2 0
          ++ natBytes 4 (jobTag j.desc))))

end Sys2Proof.Machine
end

