-- ==== Sys2Proof/Machine/Track.lean ====
section
/-! DEFINITION. The track engine: set, associate, graph load and flush jobs, association problems, and the offers that pass
tracks between cameras (R329 to R348). -/

namespace Sys2Proof.Machine

/-! ## Reading lists -/

/-- Bytes a job of the engine reads from its owner's memory; a list that cannot be read ends the job, with the cause of a
translation fault or of a checksum failure (log entry 41). -/
def trackRead (n : Nat) (f : Func) (va len : Nat) (k : List Byte → Act) : Act :=
  virtRead ⟨.track, f⟩ 0 va len .read 0x0C16 0x0C16 fun r => match r with
    | .ok bs => k bs
    | .badSum => endTrackJob n 0x0C15
    | _ => endTrackJob n 0x0C16

/-- Whether a binary16 code is finite. -/
def halfFinite (c : Nat) : Bool := decide (c / 1024 % 32 ≠ 31)

/-- A list sorted by a test that says whether its first argument comes before or with its second. -/
def insSorted {α : Type} (le : α → α → Bool) : List α → List α
  | [] => []
  | x :: l =>
    let r := insSorted le l
    r.takeWhile (fun y => !le x y) ++ [x] ++ r.dropWhile (fun y => !le x y)

/-! ## The set stage (R333, R334) -/

/-- A candidate of the set stage: its index, its 16 bytes. -/
abbrev SetCand := Nat × List Byte

/-- The score of a candidate, as binary32. -/
def candScore (c : SetCand) : Nat := fHalf (bytesNat (sliceBytes c.2 0 2))

/-- The class of a candidate. -/
def candClass (c : SetCand) : Nat := bytesNat (sliceBytes c.2 2 1)

/-- By falling score; ties: lower index. -/
def candBefore (x y : SetCand) : Bool :=
  fLt (candScore y) (candScore x) || (!fLt (candScore x) (candScore y) && decide (x.1 ≤ y.1))

/-- The candidates kept, in order, and how many were cut beyond 1,024 (R334). -/
def setKeep (thr : Nat) (cands : List SetCand) : List SetCand × Nat :=
  let l := insSorted candBefore (cands.filter fun c => fLe thr (candScore c))
  (l.take 1024, l.length - 1024)

/-- The box of a candidate with its anchor (ax, ay, aw, ah) (R334; exp as R76); one beyond the table is taken as a zero
anchor, and its box has w = h = 0, whatever dw and dh. -/
def setBox (c : SetCand) (anchor : Option (List Byte)) : List Nat :=
  let a (i : Nat) : Nat := (anchor.map fun bs => bytesNat (sliceBytes bs (4 * i) 4)).getD 0
  let d (i : Nat) : Nat := fHalf (bytesNat (sliceBytes c.2 (8 + 2 * i) 2))
  let size (i : Nat) : Nat := if anchor.isNone then 0 else fMul (a i) (tableFn 5 (d i)).1
  [fAdd (a 0) (fMul (d 0) (a 2)), fAdd (a 1) (fMul (d 1) (a 3)), size 2, size 3]

/-- Suppression (R334): the boxes taken, at most `m`, and how many were suppressed. -/
def suppress (thr m : Nat) : List (SetCand × List Nat) → List (SetCand × List Nat) → Nat → List (SetCand × List Nat) × Nat
  | [], out, k => (out, k)
  | c :: l, out, k =>
    if out.length = m then (out, k)
    else if out.any fun d => decide (candClass d.1 = candClass c.1) && fLt thr (iou c.2 d.2) then suppress thr m l out (k + 1)
    else suppress thr m l (out ++ [c]) k

/-- The 32 bytes of a detection (R333). -/
def detBytes (c : SetCand × List Nat) : List Byte :=
  (c.2.flatMap (natBytes 4)) ++ sliceBytes c.1.2 0 2 ++ natBytes 2 (candClass c.1) ++ natBytes 4 (c.1.1 % 65536)
    ++ List.replicate 8 0

/-- The anchors of candidates are read one by one; one whose anchor cannot be read takes a zero anchor: the spec states
no length of the table (log entry 41). -/
def withAnchors (f : Func) (anchors : Nat) (k : List (SetCand × List Nat) → Act) :
    List SetCand → List (SetCand × List Nat) → Act
  | [], acc => k acc
  | c :: l, acc =>
    virtRead ⟨.track, f⟩ 0 (anchors + 16 * bytesNat (sliceBytes c.2 4 2)) 16 .read 0x0C16 0x0C16 fun r =>
      withAnchors f anchors k l (acc ++ [(c, setBox c (match r with | .ok bs => some bs | _ => none))])

/-- Whether the body of a set job is valid (R333). -/
def setBodyOk (b : List Byte) : Bool :=
  let w (i n : Nat) : Nat := bytesNat (sliceBytes b i n)
  decide (w 0 6 % 64 = 0) && decide (w 8 6 % 64 = 0) && decide (w 0x10 6 % 64 = 0) && decide (w 6 2 ≠ 0)
    && decide (w 0xE 2 = 0) && decide (w 0x16 2 = 0) && halfFinite (w 0x18 2) && halfFinite (w 0x1A 2)
    && fLe 0 (fHalf (w 0x1A 2)) && fLe (fHalf (w 0x1A 2)) fOne && decide (1 ≤ w 0x1C 2) && decide (w 0x1C 2 ≤ 512)
    && decide (w 0x1E 34 = 0)

/-- A set job runs (R334). -/
def runSet (n : Nat) (j : Job) (b : List Byte) : Act :=
  let w (i k : Nat) : Nat := bytesNat (sliceBytes b i k)
  let page := partPage (jobTarget j.desc)
  if !setBodyOk b then endTrackJob n 0x0C11
  else trackRead n j.func (w 0 6) (16 * w 6 2) fun bs =>
    let cands : List SetCand := (List.range (w 6 2)).map fun i => (i, sliceBytes bs (16 * i) 16)
    let keep := setKeep (fHalf (w 0x18 2)) cands
    .seq (whenA (decide (0 < keep.2)) (.seq (recordErr page 0x0C13) (bump page 0x068 keep.2)))
      (withAnchors j.func (w 8 6) (fun boxes =>
        let out := suppress (fHalf (w 0x1A 2)) (w 0x1C 2) boxes [] 0
        let list := natBytes 32 out.1.length ++ out.1.flatMap detBytes
        virtWrite ⟨.track, j.func⟩ 0 (w 0x10 6) list 0x0C16 0x0C16 none fun e =>
          acts [bump trackPage 0x0A8 1, bump trackPage 0x0B0 out.2, endTrackJob n (if e = .ok then 0 else 0x0C16)])
        keep.1 [])

/-! ## The camera graph (R340) -/

/-- The cameras of a table. -/
def parseCams (n : Nat) (b : List Byte) : List CamEntry := (List.range n).map fun i =>
  let w := bytesNat (sliceBytes b (16 * i) 8)
  ⟨w % 64, w / 64 % 8, w / 2 ^ 32 % 65536, w / 2 ^ 48⟩

/-- The edges of a table. -/
def parseEdges (n : Nat) (b : List Byte) : List EdgeEntry := (List.range n).map fun i =>
  let w := bytesNat (sliceBytes b (8 * i) 8)
  ⟨w % 4096, w / 65536 % 65536, w / 2 ^ 32 % 65536, w / 2 ^ 48⟩

/-- Whether a graph is valid on a chain of `count` devices (R340): its reserved fields 0, edge ranges within the table and
apart, destinations within the cameras, times in order. -/
def graphOk (count nc ne : Nat) (cb eb : List Byte) : Bool :=
  let cams := parseCams nc cb
  let used := cams.flatMap fun c => (List.range c.count).map fun i => c.first + i
  ((List.range nc).all fun i => decide (bytesNat (sliceBytes cb (16 * i) 4) / 512 = 0)
      && decide (bytesNat (sliceBytes cb (16 * i + 8) 8) = 0))
    && ((List.range ne).all fun i => decide (bytesNat (sliceBytes eb (8 * i) 2) / 4096 = 0))
    && (cams.all fun c => decide (c.device < count) && decide (c.first + c.count ≤ ne || c.count = 0))
    && decide (used.eraseDups.length = used.length)
    && ((parseEdges ne eb).all fun e => decide (e.dest < nc) && decide (e.tMin ≤ e.tMax))

/-- A graph load runs: the graph is replaced, or refused with the one before left in force (R340). -/
def runGraph (n : Nat) (j : Job) (b : List Byte) : Act := .look fun s =>
  let w (i k : Nat) : Nat := bytesNat (sliceBytes b i k)
  if w 0x10 16 ≠ 0 ∨ w 6 2 = 0 ∨ 4096 < w 6 2 ∨ 32768 < w 0xE 2 then endTrackJob n 0x0C11
  else trackRead n j.func (w 0 6) (16 * w 6 2) fun cb => trackRead n j.func (w 8 6) (8 * w 0xE 2) fun eb =>
    if !graphOk s.chainCount (w 6 2) (w 0xE 2) cb eb then endTrackJob n 0x0C17
    else acts [
      updTrack fun x => { x with cams := parseCams (w 6 2) cb, edges := parseEdges (w 0xE 2) eb },
      setRegN trackPage 0x104 (w 6 2 + 2 ^ 31), setRegN trackPage 0x108 (w 0xE 2), raiseIrq trackPage 8,
      pageEvent trackPage 0x13 0 (natBytes 4 (w 6 2) ++ natBytes 2 (w 0xE 2)), endTrackJob n 0]

/-- Where the loaded graph places a camera. -/
def State.camPlace (s : State) (cam : Nat) : Option CamEntry := s.track.cams[cam]?

/-- The edges of a camera. -/
def State.camEdges (s : State) (cam : Nat) : List EdgeEntry :=
  ((s.camPlace cam).map fun c => (s.track.edges.drop c.first).take c.count).getD []

/-! ## Leaving (R341) -/

/-- A track leaves its camera: an offer for each edge, to the device of the edge's destination. What was kept of an
earlier leaving under the same identifier is over. -/
def sendOffers (t : Nat) (r : TrackRec) (emb : List Byte) : Act := .look fun s =>
  let edges := s.camEdges r.cam
  let device (e : EdgeEntry) : Nat := ((s.camPlace e.dest).map fun c => c.device).getD s.deviceNo
  .seq (updTrack fun x => { x with
      sent := x.sent.filter (fun e => decide (e.ident ≠ r.ident)) ++ [⟨r.ident, t, r.cam, r.cls, r.hits, edges.map device, false⟩] })
    (forA edges fun e =>
      let o : OfferMsg := ⟨r.ident, r.cls, emb, r.tLast, r.cam, s.deviceNo, e.dest, e.bias, e.tMin, e.tMax⟩
      .seq (bump trackPage 0x080 1)
        (if device e = s.deviceNo then storeOffer o else sendTrack (device e) 256 1 (offerFields o)))

/-! ## Gating (R335, R336) -/

/-- A candidate of a problem: a record of the stand, or an offer. -/
inductive Cand where
  | track (i : Nat) (r : TrackRec)
  | offer (o : OfferMsg)
  deriving DecidableEq, Repr

/-- Whether a candidate is a record of the stand. -/
def Cand.isTrack : Cand → Bool
  | .track _ _ => true
  | .offer _ => false

/-- A detection as the detection list holds it: its box, its class, its embedding. -/
structure Det where
  box : List Nat
  cls : Nat
  emb : List Byte
  deriving DecidableEq, Repr

/-- An offer's last eligible moment (R341). -/
def offerEnd (o : OfferMsg) : Nat := o.tLast + 10 ^ 6 * o.tMax

/-- The candidates of a problem in their order, and how many were cut (R335). -/
def State.candidates (s : State) (p : Problem) : List Cand × Nat :=
  let stand := insSorted (fun (x y : Nat × TrackRec) =>
    decide (x.2.misses < y.2.misses) || (decide (x.2.misses = y.2.misses) && decide (x.1 ≤ y.1)))
    ((s.stand p.part p.cam).map fun i => (i, s.trackRec p.part i))
  let offers := insSorted (fun (x y : OfferMsg) => decide (offerEnd x ≤ offerEnd y))
    ((s.track.offers.map fun e => e.2).filter fun o =>
      decide (o.dest = p.cam) && decide (o.tLast + 10 ^ 6 * o.tMin ≤ p.capture) && decide (p.capture ≤ offerEnd o))
  let l := (stand.map fun e => Cand.track e.1 e.2) ++ offers.map Cand.offer
  (l.take 1024, l.length - 1024)

/-- The time step of a prediction, in seconds, binary32 (R336). -/
def dtOf (r : TrackRec) (capture : Nat) : Nat := fMul (f32OfInt false ((capture : Int) - r.tLast)) 0x3089705F

/-- The predicted box of a track (R336). -/
def predict (r : TrackRec) (capture : Nat) : List Nat :=
  (List.range 4).map fun i => fAdd (r.box.getD i 0) (fMul (r.vel.getD i 0) (dtOf r capture))

/-- A gate of one axis: |x_d - x| ≤ g × w. -/
def gateAxis (g xd x w : Nat) : Bool := fLe (fAbs (fSub xd x)) (fMul g w)

/-- The parameters of a partition (R347). -/
def State.tpHalf (s : State) (t off lo : Nat) : Nat := fHalf (s.rfld (partPage t) off lo 16)

/-- Whether a pair passes the class and motion gates, with its m; an offer has no such gate, and m = 0 (R336). -/
def motionGate (s : State) (p : Problem) (d : Det) : Cand → Option Nat
  | .offer _ => some 0
  | .track _ r =>
    let b := predict r p.capture
    let g := s.tpHalf p.part 0x110 0
    if d.cls = r.cls ∧ gateAxis g (d.box.getD 0 0) (b.getD 0 0) (b.getD 2 0)
        ∧ gateAxis g (d.box.getD 1 0) (b.getD 1 0) (b.getD 3 0) then some (fSub fOne (iou d.box b)) else none

/-- The dot product of two INT8 embeddings (R336). -/
def dotOf (a b : List Byte) : Int :=
  (List.range 128).foldl (fun n i => n + (a.getD i 0).toInt * (b.getD i 0).toInt) 0

/-- The embedding distance e (R336). -/
def embDistance (a b : List Byte) : Nat :=
  fMin2 (fMax2 (fDiv (f32OfInt false (16129 - dotOf a b)) (f32OfInt false 32258)) 0) fOne

/-- The cost of a pair whose m is known, if its embeddings pass their gate (R336). -/
def pairCost (s : State) (p : Problem) (d : Det) (c : Cand) (m : Nat) : Option Int :=
  let emb := match c with | .track i _ => s.trackEmb p.part i | .offer o => o.emb
  let e := if p.emb = 0 then 0 else embDistance d.emb emb
  let we := s.tpHalf p.part 0x114 16
  let scale (x : Nat) : Int := fFloor (fAdd (fMul 0x43800000 x) 0x3F000000)
  if p.emb ≠ 0 ∧ !fLe e (s.tpHalf p.part 0x110 16) then none
  else match c with
  | .track _ _ => some (min 65535 (scale (fAdd (fMul (s.tpHalf p.part 0x114 0) m) (fMul we e))))
  | .offer o => some (scale (fMul we e) + o.bias)

/-- A gated pair: detection, candidate, cost. -/
abbrev Pair := Nat × Nat × Int

/-- The pairs that pass the class and motion gates, at most 65,536: those with the largest m are dropped, of equal m the
later (R336). The second part says how many were. -/
def motionPairs (s : State) (p : Problem) (ds : List Det) (cs : List Cand) : List (Nat × Nat × Nat) × Nat :=
  let all := (List.range ds.length).flatMap fun i => (List.range cs.length).filterMap fun j =>
    (ds[i]?.bind fun d => cs[j]?.bind fun c => motionGate s p d c).map fun m => (i, j, m)
  if all.length ≤ 65536 then (all, 0)
  else
    let byM := insSorted (fun (x y : Nat × Nat × Nat) => decide (fKey x.2.2 ≤ fKey y.2.2)) all
    let kept := byM.take 65536
    (all.filter fun x => kept.contains x, all.length - 65536)

/-- The gated pairs with their costs. -/
def gatedPairs (s : State) (p : Problem) (ds : List Det) (cs : List Cand) (l : List (Nat × Nat × Nat)) : List Pair :=
  l.filterMap fun x => (ds[x.1]?.bind fun d => cs[x.2.1]?.bind fun c => pairCost s p d c x.2.2).map fun c => (x.1, x.2.1, c)

/-! ## The auction (R337) -/

/-- Where the auction stands: prices and owners by candidate, the queue, bids, detections to be born, detections left by
the bid cap. -/
structure Auction where
  price : List Int
  owner : List (Option Nat)
  queue : List Nat
  bids : Nat := 0
  born : List Nat := []
  left : List Nat := []
  deriving DecidableEq, Repr

/-- The best of a list of values by candidate; ties: lower candidate. -/
def bestOf (l : List (Nat × Int)) : Option (Nat × Int) :=
  l.foldl (fun m e => match m with
    | none => some e
    | some x => if x.2 < e.2 then some e else m) none

/-- The auction, `k` turns at most (R337). -/
def auction (cap : Nat) (cNew : Int) (pairs : List Pair) : Nat → Auction → Auction
  | 0, a => a
  | k + 1, a =>
    match a.queue with
    | [] => a
    | i :: rest =>
      if a.bids = cap then { a with queue := [], left := a.queue }
      else
        let vals := (pairs.filter fun x => decide (x.1 = i)).map fun x => (x.2.1, cNew - x.2.2 - a.price.getD x.2.1 0)
        match bestOf vals with
        | none => auction cap cNew pairs k { a with queue := rest, born := a.born ++ [i] }
        | some (j, v1) =>
          if v1 ≤ 0 then auction cap cNew pairs k { a with queue := rest, born := a.born ++ [i] }
          else
            let v2 := max 0 (((bestOf (vals.filter fun x => decide (x.1 ≠ j))).map fun x => x.2).getD 0)
            auction cap cNew pairs k { a with
              price := a.price.set j (a.price.getD j 0 + v1 - v2 + 1), bids := a.bids + 1,
              queue := rest ++ (match a.owner.getD j none with | some o => [o] | none => []),
              owner := a.owner.set j (some i) }

/-! ## Updates (R338, R339) -/

/-- An embedding element after an update (R338). -/
def embStep (lambda : Nat) (g d : Int) : Int :=
  let v := (256 - lambda) * g + lambda * d
  let q := v.natAbs / 256
  let r := v.natAbs % 256
  let m : Int := (q + (if 128 < r ∨ (r = 128 ∧ q % 2 = 1) then 1 else 0) : Nat)
  max (-127) (min 127 (if v < 0 then -m else m))

/-- A stand track takes a detection (R338, R339). -/
def hitTrack (p : Problem) (i : Nat) (r : TrackRec) (d : Det) (cost : Int) : Act := .look fun s =>
  let hat := predict r p.capture
  let a := s.tpHalf p.part 0x118 0
  let b := s.tpHalf p.part 0x118 16
  let res (k : Nat) : Nat := fSub (d.box.getD k 0) (hat.getD k 0)
  let hits := satNat 65535 (r.hits + 1)
  let new : TrackRec := { r with
    box := (List.range 4).map fun k => fAdd (hat.getD k 0) (fMul a (res k)),
    vel := (List.range 4).map (fun k => fAdd (r.vel.getD k 0) (fMul (fDiv b (dtOf r p.capture)) (res k))),
    tLast := p.capture, hits := hits, misses := 0,
    state := if r.state = 1 ∧ hits < s.rfld (partPage p.part) 0x11C 0 8 then 1 else 2 }
  let lambda := s.rfld (partPage p.part) 0x11C 16 9
  let old := s.trackEmb p.part i
  acts [putRec p.part i new,
    whenA (decide (p.emb ≠ 0)) (putCached p.part true i ((List.range 128).map fun k =>
      BitVec.ofInt 8 (embStep lambda (old.getD k 0).toInt (d.emb.getD k 0).toInt))),
    recEntry p.part 1 0 i (wrapInt cost 16) p.capture new [],
    bump trackPage 0x048 1, bump (partPage p.part) 0x040 1]

/-- A detection takes an offer (R339, R341): a new confirmed record with the offer's identifier and class (DEDUCED, log
entry 41), a hand-over-in entry, and a taken notice to the source; `k` gets whether the partition had a record for it. -/
def takeOffer (p : Problem) (o : OfferMsg) (d : Det) (cost : Int) (k : Bool → Act) : Act :=
  let r : TrackRec := ⟨o.ident, 2, o.cls, p.cam, 1, 0, d.box, [0, 0, 0, 0], p.capture, p.capture, o.cam + 4096 * o.dev⟩
  newRec p.part p.cam r (if p.emb = 0 then o.emb else d.emb)
    (acts [recordErr (partPage p.part) 0x0C14, bump (partPage p.part) 0x070 1, k false]) fun i => .look fun s =>
      acts [
        updTrack fun x => { x with
          offers := x.offers.filter (fun e => decide (e.2 ≠ o)), handed := x.handed ++ [(o.ident, p.part, i)] },
        recEntry p.part 5 0 i (wrapInt cost 16) p.capture r (natBytes 2 o.cam ++ natBytes 2 o.dev),
        if o.dev = s.deviceNo then noteTaken o.ident s.deviceNo else sendTrack o.dev 64 2 [o.ident], k true]

/-- A stand track with no detection (R339); its t_last follows the box that is advanced to the prediction (DEDUCED, log
entry 41). -/
def missTrack (p : Problem) (i : Nat) (r : TrackRec) : Act := .look fun s =>
  if r.state = 1 then endTrack p.part i 1 p.capture r []
  else
    let new : TrackRec :=
      { r with misses := r.misses + 1, state := 3, box := predict r p.capture, tLast := p.capture }
    let edges := (s.camEdges p.cam).length
    if s.rfld (partPage p.part) 0x11C 8 8 ≤ new.misses then
      (if edges = 0 then endTrack p.part i 2 p.capture new []
       else .seq (sendOffers p.part new (s.trackEmb p.part i)) (endTrack p.part i 3 p.capture new (natBytes 4 edges)))
    else acts [putRec p.part i new, recEntry p.part 3 0 i 0 p.capture new [], bump (partPage p.part) 0x058 1]

/-- A detection nothing was assigned to is born, if the partition has a free record (R339); `k` gets whether it was. -/
def birth (p : Problem) (d : Det) (k : Bool → Act) : Act := .look fun s =>
  match s.freeRecord p.part p.cam with
  | none => acts [recordErr (partPage p.part) 0x0C14, bump (partPage p.part) 0x070 1, k false]
  | some _ => newIdent fun ident =>
    let r : TrackRec := ⟨ident, 1, d.cls, p.cam, 1, 0, d.box, [0, 0, 0, 0], p.capture, p.capture, 0xFFF⟩
    newRec p.part p.cam r d.emb .done fun i =>
      acts [recEntry p.part 2 0 i 0 p.capture r [], bump trackPage 0x050 1, bump (partPage p.part) 0x048 1, k true]

/-! ## Problems (R342) -/

/-- A problem ends: it leaves the queue, and its job completes. -/
def endProblem (p : Problem) (code : Nat) : Act :=
  .seq (updTrack fun x => { x with problems := x.problems.filter fun q => decide (q.job ≠ p.job) }) (endTrackJob p.job code)

/-- Every track of a camera ends, reason flushed (R332). No problem gives the entries a capture time: it is free
(log entry 41). -/
def flushCam (p : Problem) : Act := .look fun s =>
  .seq (withFree fun x => forA (s.stand p.part p.cam) fun i => .look fun u =>
      endTrack p.part i 5 x.toNat (u.trackRec p.part i) [])
    (endProblem p 0)

/-- Whether a flush and an associate of one camera, accepted before a problem, has still to come before it (R345): one
that is queued, or one whose gates are shut. The camera of an associate that waits at its gates stands in its body,
which is read when they open: every such associate of the partition counts (DEDUCED, log entry 41). -/
def State.heldBack (s : State) (p : Problem) : Bool :=
  (s.track.problems.any fun q => decide (q.job < p.job) && decide (q.part = p.part) && decide (q.cam = p.cam) && (q.flush != p.flush))
    || s.jobs.any fun e => decide (e.1 < p.job) && (e.2.map fun j => !j.started && decide (jobKind j.desc = 4)
      && decide (jobTarget j.desc = p.part)
      && (if p.flush then decide (trackOp j.desc = 2)
          else decide (trackOp j.desc = 4) && decide (jobInline j.desc 0x44 2 = p.cam))).getD false

/-- The flushes that nothing accepted earlier holds back are done (R345); `k` bounds them. -/
def runFlushes : Nat → Act
  | 0 => .done
  | k + 1 => .look fun s =>
    optA (s.track.problems.find? fun p => p.flush && !s.partFaulted p.part && !s.heldBack p) fun p =>
      .seq (fillStand p.part p.cam) (.look fun u =>
        whenA (!u.partFaulted p.part && u.standCached p.part p.cam) (.seq (flushCam p) (runFlushes k)))

/-- The problem at the head: the oldest capture time among the partitions that are not faulted, of those that nothing
accepted earlier holds back (R342, R345). -/
def State.headProblem (s : State) : Option Problem :=
  s.track.problems.foldl (fun (m : Option Problem) p =>
    if p.flush || s.partFaulted p.part || s.heldBack p then m else match m with
      | none => some p
      | some x => if p.capture < x.capture then some p else m) none

/-- A problem is coasted (R342): every stand track goes to its prediction. Its detections are counted as the frame is, in
the one counter there is for it (DEDUCED, log entry 41). -/
def coast (p : Problem) : Act := .look fun s =>
  acts [
    forA (s.stand p.part p.cam) fun i =>
      let r := s.trackRec p.part i
      putRec p.part i { r with box := predict r p.capture, tLast := p.capture },
    tringPut p.part (entryBytes 8 0 0 p.cam 0 0 0 0 p.capture (List.replicate 6 0) []),
    recordErr (partPage p.part) 0x0C1B, bump trackPage 0x078 1, endProblem p 0]

/-- The detections of a problem, from its list and its embeddings. -/
def detsOf (n : Nat) (db eb : List Byte) : List Det := (List.range n).map fun i =>
  { box := (List.range 4).map fun k => bytesNat (sliceBytes db (32 + 32 * i + 4 * k) 4),
    cls := bytesNat (sliceBytes db (32 + 32 * i + 0x12) 1), emb := sliceBytes eb (128 * i) 128 }

/-- Detections take what the auction has given them, in their order; `k` gets how many took a track or an offer. -/
def hitAll (p : Problem) : List (Det × Cand × Int) → Nat → (Nat → Act) → Act
  | [], n, k => k n
  | e :: l, n, k => match e.2.1 with
    | .track i r => .seq (hitTrack p i r e.1 e.2.2) (hitAll p l (n + 1) k)
    | .offer o => takeOffer p o e.1 e.2.2 fun ok => hitAll p l (n + b2n ok) k

/-- Detections are born in their order; `k` gets how many were. -/
def birthAll (p : Problem) : List Det → Nat → (Nat → Act) → Act
  | [], n, k => k n
  | d :: l, n, k => birth p d fun ok => birthAll p l (n + b2n ok) k

/-- The cache blocks that `n` new records of a camera may need beside the blocks it has, when the tracks `missed` may end
first: a block all of whose tracks end is the camera's no more, and gives its new records no place (R329). -/
def State.newBlocks (s : State) (t cam n : Nat) (missed : List Nat) : Nat :=
  let kept := (s.camBlocks t cam).filter fun b => (s.liveOf t b).any fun i => !missed.contains i
  2 * ceilDiv (n - (16 * kept.length - (kept.map fun b => (s.liveOf t b).length).sum)) 16

/-- A problem is gated, assigned and updated (R336 to R339); the cache makes room for the blocks of its new records first,
so that a fault stops it before any record changes (R331). -/
def solve (p : Problem) (ds : List Det) : Act := .look fun s =>
  let page := partPage p.part
  let cs := s.candidates p
  let mp := motionPairs s p ds cs.1
  let cNew : Int := s.rfld page 0x120 0 16
  let gated := gatedPairs s p ds cs.1 mp.1
  let pairs := gated.filter fun x => decide (x.2.2 < cNew)
  let cap := 256 * max 1 (s.rfld trackPage 0x100 8 8)
  let a := auction cap cNew pairs (cap + ds.length + 2)
    { price := List.replicate cs.1.length 0, owner := List.replicate cs.1.length none, queue := List.range ds.length }
  let taken (i : Nat) : Option Nat := (List.range cs.1.length).find? fun j => decide (a.owner.getD j none = some i)
  let cost (i j : Nat) : Int := ((pairs.find? fun x => decide (x.1 = i) && decide (x.2.1 = j)).map fun x => x.2.2).getD 0
  let won : List (Det × Cand × Int) := (List.range ds.length).filterMap fun i =>
    (taken i).bind fun j => ds[i]?.bind fun d => (cs.1[j]?).map fun c => (d, c, cost i j)
  let new := (won.filter fun e => !e.2.1.isTrack).length + a.born.length
  let missed := (List.range cs.1.length).filter fun j =>
    ((cs.1[j]?).map Cand.isTrack).getD false && (a.owner.getD j none).isNone
  let ending := missed.filterMap fun j => (cs.1[j]?).bind fun c => match c with
    | .track k _ => some k
    | .offer _ => none
  cacheRoom (s.newBlocks p.part p.cam new ending) (if new = 0 then 0 else s.tcache.length) fun room => whenA room <| acts [
    whenA (decide (0 < cs.2)) (.seq (recordErr page 0x0C13) (bump page 0x068 cs.2)),
    whenA (decide (0 < mp.2)) (recordErr page 0x0C1C),
    whenA (decide (a.left ≠ [])) (recordErr page 0x0C18),
    bump trackPage 0x040 1, bump trackPage 0x058 a.bids, bump trackPage 0x060 gated.length,
    hitAll p won 0 fun hits => .seq
      (forA missed fun j => optA (cs.1[j]?) fun (c : Cand) =>
        match c with
        | .track k r => missTrack p k r
        | .offer _ => .done)
      (birthAll p (a.born.filterMap fun i => ds[i]?) 0 fun births => .seq
        (tringPut p.part (entryBytes 7 0 0 p.cam 0 0 0 0 p.capture (List.replicate 6 0)
          (natBytes 4 (ds.length + 65536 * hits) ++ natBytes 2 births ++ natBytes 2 missed.length
            ++ natBytes 2 cs.1.length ++ natBytes 2 a.bids ++ natBytes 2 a.left.length)))
        (endProblem p 0))]

/-- A problem reads its detections and is solved; one whose lists cannot be read ends with the cause. -/
def runProblem (p : Problem) (f : Func) : Act :=
  let lost (code : Nat) : Act := endProblem p code
  let rd (va n : Nat) (k : List Byte → Act) : Act :=
    virtRead ⟨.track, f⟩ 0 va n .read 0x0C16 0x0C16 fun r => match r with
      | .ok bs => k bs
      | .badSum => lost 0x0C15
      | _ => lost 0x0C16
  rd p.det 32 fun head =>
    let n := bytesNat (sliceBytes head 0 2) % 1024
    if 512 < n then lost 0x0C11
    else rd p.det (32 + 32 * n) fun db =>
      if p.emb = 0 ∨ n = 0 then solve p (detsOf n db []) else rd p.emb (128 * n) fun eb => solve p (detsOf n db eb)

/-- PROBLEM_START (R342): the problem at the head, with its stand cached, is solved or coasted; then the flushes run that
nothing holds back any longer (R345). -/
def actProblemStart (now : Dword) : Act := .seq (tick now) (.look fun s => .seq
  (optA s.headProblem fun p =>
    whenA (s.standCached p.part p.cam)
      (.seq (touchCam p.part p.cam)
        (if 100000 * (max 1 (min 8 (s.rfld trackPage 0x100 0 4)) * p.period) < s.time.toNat - p.arrive.toNat then coast p
         else runProblem p (s.partOwner p.part))))
  (.look fun u => runFlushes (u.track.problems.length + 1)))

/-- PROBLEM_START. -/
def execProblemStart (now : Dword) (s : State) : Host.Outcome State Fault Refusal :=
  meaning (.problemStart now) (inService (actProblemStart now)) s

/-- TRACK_BLOCK_FILL (R331): the read of a block of one of a partition's tables returns, with the corruption it has met.
-/
def execTrackBlockFill (part : Fin 8) (emb : Bool) (block : Fin 2048) (upset : List (Nat × Byte)) (s : State) :
    Host.Outcome State Fault Refusal :=
  meaning (.trackBlockFill part emb block upset) (inService (fillBlock part.val emb block.val upset)) s

/-- PARTITION_RESUME (R331): a faulted partition's problems go on, the stopped one from its beginning. -/
def actPartitionResume (f : Func) (t : Nat) : Act :=
  withWrite f (partPage t) (.look fun s =>
    whenA (s.partFaulted t) (.seq (setFld (partPage t) 0x014 8 1 0) (runFlushes (s.track.problems.length + 1))))

/-- PARTITION_RESUME. -/
def execPartitionResume (f : Func) (part : Fin 8) (s : State) : Host.Outcome State Fault Refusal :=
  meaning (.partitionResume f part) (inService (actPartitionResume f part.val)) s

/-! ## Jobs (R332, R335) -/

/-- An associate job is checked and queued (R335). -/
def queueProblem (n : Nat) (j : Job) (b : List Byte) : Act := .look fun s =>
  let w (i k : Nat) : Nat := bytesNat (sliceBytes b i k)
  let t := jobTarget j.desc
  let cam := w 0 2 % 4096
  let rec_ := s.atTcam (camKey t cam)
  let away := match s.camPlace cam with
    | none => false
    | some c => decide (c.device ≠ s.deviceNo) || decide (c.part ≠ t)
  if w 0 2 / 4096 ≠ 0 ∨ w 2 2 = 0 ∨ w 4 4 ≠ 0 ∨ w 0x16 2 ≠ 0 ∨ w 0x1E 2 ≠ 0 ∨ w 0x20 32 ≠ 0 ∨ w 0x10 6 % 64 ≠ 0
      ∨ w 0x18 6 % 64 ≠ 0 then endTrackJob n 0x0C11
  else trackRead n j.func (w 0x10 6) 32 fun head =>
    if 512 < bytesNat (sliceBytes head 0 2) % 1024 then endTrackJob n 0x0C11
    else if away then endTrackJob n 0x0C12
    else if (rec_.last.map fun l => decide (w 8 8 ≤ l)).getD false then endTrackJob n 0x0C1D
    else .seq (.eff (.tcam (camKey t cam) { rec_ with last := some (w 8 8) }))
      (updTrack fun x => { x with
        problems := x.problems ++ [⟨n, t, cam, w 2 2, w 8 8, w 0x10 6, w 0x18 6, s.time, false⟩] })

/-- A track control job whose gates are open does its op; one whose partition has been withdrawn since its acceptance is
refused as its epoch is now stale (R42, R345; log entry 54). -/
def startTrack (n : Nat) : Act := .look fun s =>
  optA (s.atJobs n) fun j =>
    if trackOp j.desc ≠ 3 ∧ (¬ s.boundTo (partUnit (jobTarget j.desc)) j.func
        ∨ jobEpoch j.desc ≠ (s.unitAt (partUnit (jobTarget j.desc))).epoch.toNat) then endTrackJob n 0x0C03 else
    let body (len : Nat) (k : List Byte → Act) : Act := withBody j 0 len fun b => match b with
      | some bs => k bs
      | none => endTrackJob n 0x0C11
    match trackOp j.desc with
    | 1 => body 64 (runSet n j)
    | 2 => body 64 (queueProblem n j)
    | 3 => body 32 (runGraph n j)
    | _ =>
      .seq (updTrack fun x => { x with
          problems := x.problems ++ [⟨n, jobTarget j.desc, jobInline j.desc 0x44 2 % 4096, 0, 0, 0, 0, s.time, true⟩] })
        (runFlushes (s.track.problems.length + 2))

/-- Why a track control job is refused before it waits (R332, R42). -/
def trackRefusal (s : State) (f : Func) (d : BitVec 1024) : Option Nat :=
  let op := trackOp d
  let len := match op with | 1 | 2 => 64 | 3 => 32 | _ => 0
  if op = 0 ∨ 4 < op ∨ (op = 3 ∧ f ≠ 0) ∨ jobClass d ≠ 0 then some 0x0C10
  else if op ≠ 3 ∧ jobEpoch d ≠ (s.unitAt (partUnit (jobTarget d))).epoch.toNat then some 0x0C03
  else if op = 3 ∧ (jobTarget d ≠ 0xFFFF ∨ jobEpoch d ≠ 0) then some 0x0C11
  else if fld d 516 4 ≠ 0 ∨ jobInline d 0x41 3 ≠ 0 ∨ (op ≠ 4 ∧ jobInline d 0x44 2 ≠ 0) ∨ 4096 ≤ jobInline d 0x44 2
      ∨ jobInline d 0x46 54 ≠ 0 then some 0x0C05
  else if jobBodyHost d ∨ jobBodyLen d ≠ len then some 0x0C11
  else none

/-- A track control job of one of the given ops is fetched from its ring. -/
def trackJob (ops : List Nat) (f : Func) (ring : Fin 8) (d : BitVec 1024) : Act :=
  ofKind 4 d (whenA (ops.contains (trackOp d)) (acceptJob f ring d [] (fun _ => none) fun n => .look fun s =>
    match trackRefusal s f d with
    | some code => endTrackJob n code
    | none => startIfOpen n (startTrack n)))

/-- TRACK_SET: op 1; the ops with no command of their own, 0 and 5 to 15, are refused here (R332). -/
def execTrackSet (f : Func) (ring : Fin 8) (d : BitVec 1024) (s : State) : Host.Outcome State Fault Refusal :=
  meaning (.trackSet f ring d) (inService (trackJob [0, 1, 5, 6, 7, 8, 9, 10, 11, 12, 13, 14, 15] f ring d)) s

/-- TRACK_ASSOCIATE: op 2. -/
def execTrackAssociate (f : Func) (ring : Fin 8) (d : BitVec 1024) (s : State) : Host.Outcome State Fault Refusal :=
  meaning (.trackAssociate f ring d) (inService (trackJob [2] f ring d)) s

/-- GRAPH_LOAD: op 3. -/
def execGraphLoad (f : Func) (ring : Fin 8) (d : BitVec 1024) (s : State) : Host.Outcome State Fault Refusal :=
  meaning (.graphLoad f ring d) (inService (trackJob [3] f ring d)) s

/-- TRACK_FLUSH: op 4. -/
def execTrackFlush (f : Func) (ring : Fin 8) (d : BitVec 1024) (s : State) : Host.Outcome State Fault Refusal :=
  meaning (.trackFlush f ring d) (inService (trackJob [4] f ring d)) s

/-! ## Time and the ring's consumer -/

/-- OFFER_EXPIRY (R341): the offers whose eligibility has ended are removed. -/
def actOfferExpiry (now : Dword) : Act := .seq (tick now) (.look fun s =>
  let gone := s.track.offers.filter fun o => decide (offerEnd o.2 ≤ s.time.toNat)
  .seq (bump trackPage 0x098 gone.length)
    (updTrack fun x => { x with offers := x.offers.filter fun o => !decide (offerEnd o.2 ≤ s.time.toNat) }))

/-- OFFER_EXPIRY. -/
def execOfferExpiry (now : Dword) (s : State) : Host.Outcome State Fault Refusal :=
  meaning (.offerExpiry now) (inService (actOfferExpiry now)) s

/-- TP_RING_CONS_WRITE (R344, R40): a consumer index inside its window frees space, and a pending overflow marker is
written; one outside is dropped with the host-port cause of a doorbell (DEDUCED, log entry 41). -/
def actTpRingConsWrite (f : Func) (t : Nat) (v : Word) : Act :=
  withWrite f (partPage t) (.look fun s =>
    let p := partPage t
    let cons := (s.reg p 0x140).toNat
    if sub32 (s.reg p 0x13C).toNat cons < sub32 v.toNat cons then hostErr f 0x12
    else .seq (setReg p 0x140 v) (.look fun u =>
      let r := u.atTrings t
      whenA (decide (0 < r.pendingDrop) && !u.tringFull t && u.rbit p 0x138 31)
        (.seq (.eff (.trings t { r with pendingDrop := 0 }))
          (tringWrite t (entryBytes 15 0 0 0 0 0 0 0 0 (List.replicate 6 0) (natBytes 4 r.pendingDrop))))))

/-- TP_RING_CONS_WRITE. -/
def execTpRingConsWrite (f : Func) (part : Fin 8) (value : Word) (s : State) : Host.Outcome State Fault Refusal :=
  meaning (.tpRingConsWrite f part value) (inService (actTpRingConsWrite f part.val value)) s

/-- TRACK_RING_INTERRUPT_TIMER (R347, R39): the time limit of TP_RING_MOD has passed since the oldest entry not
signalled. -/
def actTrackRingTimer (t : Nat) (now : Dword) : Act := .seq (tick now) (.look fun s =>
  let r := s.atTrings t
  let limit := s.rfld (partPage t) 0x148 16 16
  whenA (decide (limit ≠ 0) && decide (0 < r.unsignalled) && decide (r.firstAt.toNat + 1000 * limit ≤ s.time.toNat)
      && decide (s.reg (partPage t) 0x13C ≠ s.reg (partPage t) 0x140))
    (.seq (.eff (.trings t { r with unsignalled := 0 })) (raiseIrq (partPage t) 8)))

/-- TRACK_RING_INTERRUPT_TIMER. -/
def execTrackRingInterruptTimer (part : Fin 8) (now : Dword) (s : State) : Host.Outcome State Fault Refusal :=
  meaning (.trackRingInterruptTimer part now) (inService (actTrackRingTimer part.val now)) s

end Sys2Proof.Machine
end

