-- ==== Sys2Proof/Machine/Chain.lean ====
section
/-! DEFINITION. The chain ports' commands: link control, training and hello, transport frames, windows, completions and
timeouts (R349 to R368). -/

namespace Sys2Proof.Machine

/-! ## Port states (R350, R363) -/

/-- A port's state changes, with event 0x0D10 (R350). -/
def portTo (p dst code : Nat) : Act := .look fun s =>
  whenA (decide (s.portState p ≠ dst))
    (acts [setFld (portPage p) 0x100 0 3 dst, raiseIrq (portPage p) 8,
      pageEvent (portPage p) 0x10 code (natBytes 4 (p + 2 * s.portState p + 16 * dst) ++ natBytes 2 code)])

/-- What a request to another device, or a track message, comes to when it ends without its completion (R353, R363). -/
def failRemote (r : RemoteReq) (status : Nat) : Act :=
  match r.engine with
  | some (e, tag) => endRemote e tag status []
  | none => trackLost

/-- Whether an arrival came through a port and no line of it has committed. -/
def untouched (p : Nat) (v : Arrival) : Bool := decide (v.port = some p) && v.landed.isEmpty

/-- Arrivals and window writes that came through a port and have not committed never do (R363). An arrival of which lines
have committed is committing: it stays in its place and commits whole, and its completion is lost (R361, R364). -/
def dropArrivalsOf (p : Nat) : Act := .look fun s =>
  .seq (forA s.arrays fun e =>
      let gone := e.2.arrivals.filter (untouched p)
      .seq (updArr e.1 fun x => { x with
          arrivals := (x.arrivals.filter fun v => !untouched p v).map fun v =>
            if v.port = some p then { v with port := none, reply := none } else v })
        (forA gone fun v => updWin v.window fun x => { x with inFlight := x.inFlight - v.data.length }))
    (forA s.windows fun e =>
      let gone := e.2.queue.filter fun v => decide (v.port = some p)
      updWin e.1 fun x => { x with
        queue := x.queue.filter (fun v => decide (v.port ≠ some p)),
        inFlight := x.inFlight - 64 * (gone.map fun v => v.granules).sum })

/-- A port goes down (R363): its frames are discarded, the transit frames among them giving their buffer at the other
port back (R354) and the frames that came in through it and wait at the other port owing it none, local requests whose
route uses it complete with status 6, and requests that came through it and have not committed never do; a track message
of another device that waited for the port, or lay in its replay buffer, is dropped with its cause, as this device's own
are with their requests. Where a fault, not the host, takes it down, the fault log gets an entry of scope 3 (R390). -/
def portDown (p code : Nat) (fault : Bool) : Act := .look fun s =>
  whenA (decide (s.portState p = 1) || decide (s.portState p = 2) || decide (s.portState p = 3))
    (acts [portTo p 4 code, .eff (.ports p {}), whenA fault (flog code 3 0 (portPage p) 0 0xFFFF (portPage p)),
      forA (((s.atPorts p).waiting.map fun f => f.bytes) ++ (s.atPorts p).replay.map fun e => e.2) fun b =>
        whenA (decide ((parseHeader b).typ = 5) && decide ((parseHeader b).src ≠ s.deviceNo)) trackLost,
      forA (s.atPorts p).waiting fun f => optA f.holds fun h =>
        whenA (decide (h.1 ≠ p)) (returnCredit (Fin.ofNat 2 h.1) h.2.1 h.2.2),
      updPort (1 - p) fun x => { x with waiting := x.waiting.map fun f =>
        if (f.holds.map Prod.fst) = some p then { f with holds := none } else f }, setRegN (portPage p) 0x104 0, dropArrivalsOf p,
      forA (s.remotes.filterMap fun e => e.2.bind fun r => if s.route r.dst = p + 1 then some (e.1, r) else none) fun e =>
        .seq (.eff (.remotes e.1 none)) (failRemote e.2 6)])

/-- PORT_TRAIN (R350): training starts from the states off, down and refused, of a port that is there (R400). A train in
any other state is ignored (DESIGN CHOICE, log entry 60). -/
def actPortTrain (f : Func) (p : Nat) : Act :=
  withWrite f (portPage p) (.look fun s =>
    whenA (!s.lost.getLsbD 3) (whenA (decide (s.portState p = 0) || decide (s.portState p = 4) || decide (s.portState p = 5)) (portTo p 1 0)))

/-- PORT_TRAIN. -/
def execPortTrain (f : Func) (port : Fin 2) (s : State) : Host.Outcome State Fault Refusal :=
  meaning (.portTrain f port) (inService (actPortTrain f port.val)) s

/-- PORT_DOWN (R363); a port that is off goes to down as well (R350). -/
def actPortDown (f : Func) (p : Nat) : Act :=
  withWrite f (portPage p) (.look fun s => if s.portState p = 0 then portTo p 4 0 else portDown p 0 false)

/-- PORT_DOWN. -/
def execPortDown (f : Func) (port : Fin 2) (s : State) : Host.Outcome State Fault Refusal :=
  meaning (.portDown f port) (served (actPortDown f port.val)) s

/-- NEIGHBOUR_LINK_DOWN (R405, R363). -/
def execNeighbourLinkDown (port : Fin 2) (s : State) : Host.Outcome State Fault Refusal :=
  meaning (.neighbourLinkDown port) (served (portDown port.val 0 true)) s

/-- The trust root identifier of this device, as the trust page shows it (R350, R388). -/
def State.trustRoot (s : State) : BitVec 64 := BitVec.ofNat 64 (s.reg64 0x020 0x1A0)

/-- PORT_TRAINING_DONE (R350): all eight lanes lock and the port sends its hello frame, or it goes down. -/
def actPortTrainingDone (p : Fin 2) (lanes : BitVec 8) : Act := .look fun s =>
  whenA (decide (s.portState p.val = 1))
    (.seq (setFld (portPage p.val) 0x100 16 8 lanes.toNat)
      (if lanes ≠ 0xFF then acts [pageErr (portPage p.val) 0x12, portTo p.val 4 0x0D12,
        flog 0x0D12 3 0 (portPage p.val) 0 0xFFFF (portPage p.val)]
       else acts [
        .eff (.ports p.val {}), setRegN (portPage p.val) 0x104 (512 + 2 ^ 10 * 128 + 2 ^ 20 * 384), portTo p.val 2 0,
        sendFrame p ⟨2, frameBody { typ := 6, vc := 2, dst := 0, src := s.deviceNo, len := 64, ttag := 0, requester := 0 }
          (natBytes 64 (Config.helloPayload s.chainCount s.trustRoot).toNat), none⟩]))

/-- PORT_TRAINING_DONE. -/
def execPortTrainingDone (port : Fin 2) (lanes : BitVec 8) (s : State) : Host.Outcome State Fault Refusal :=
  meaning (.portTrainingDone port lanes) (inService (actPortTrainingDone port lanes)) s

/-- CH_ID_WRITE (R351): taken while both ports are off, down or refused, else ignored with cause 0x17. -/
def actChIdWrite (f : Func) (v : Word) : Act :=
  withWrite f chainPage (.look fun s =>
    let idle (p : Nat) : Bool := decide (s.portState p = 0) || decide (s.portState p = 4) || decide (s.portState p = 5)
    if idle 0 && idle 1 then setReg chainPage 0x100 v else pageErr chainPage 0x17)

/-- CH_ID_WRITE. -/
def execChIdWrite (f : Func) (value : Word) (s : State) : Host.Outcome State Fault Refusal :=
  meaning (.chIdWrite f value) (inService (actChIdWrite f value)) s

/-! ## The link layer (R354, R355) -/

/-- An ack of the frames received in order goes out (R354). -/
def sendAck (p : Fin 2) : Act := .look fun s =>
  .seq (updPort p.val fun x => { x with inOrder := 0 })
    (sendControl p (8 + 2 ^ 20 * (((s.atPorts p.val).recvSeq + 4095) % 4096)))

/-- A received frame is discarded for its CRC or its lseq: counted, and one nak goes out until the frame expected arrives
(R355). -/
def rejectFrame (p : Fin 2) : Act := .look fun s =>
  acts [bump (portPage p.val) 0x060 1, pageErr (portPage p.val) 0x14,
    whenA (!(s.atPorts p.val).nakOut)
      (.seq (updPort p.val fun x => { x with nakOut := true }) (sendControl p (9 + 2 ^ 20 * (s.atPorts p.val).recvSeq)))]

/-- A transport frame arrives at a port. One that fails its CRC or is not the next is discarded; one that is malformed is
discarded after its CRC has passed (R353, R355); `want` says whether it is a frame of the command's row, and `k` gets its
header and payload. A port in the hello state takes a hello frame only, and rejects what fails its CRC or its place like a
port that is up. -/
def receive (p : Fin 2) (frame : List Byte) (want : State → Header → Bool) (k : Header → List Byte → Act) : Act := .look fun s =>
  let h := parseHeader frame
  let st := s.atPorts p.val
  let taken : Act := .seq
    (updPort p.val fun x => { x with recvSeq := (x.recvSeq + 1) % 4096, nakOut := false, inOrder := x.inOrder + 1 })
    (acts [bump (portPage p.val) 0x048 1, bump (portPage p.val) 0x058 (frame.length - 32),
      .look fun t => whenA (decide (16 ≤ (t.atPorts p.val).inOrder)) (sendAck p)])
  if ¬ (s.portState p.val = 3 ∨ s.portState p.val = 2) then .done
  else if !frameCrcOk frame || decide (frameSeq frame ≠ st.recvSeq) then rejectFrame p
  else if !frameFormOk frame then
    acts [taken, pageErr (portPage p.val) 0x14, whenA (decide (h.vc < 3)) (returnCredit p h.vc (frameCredits h.len))]
  else if !want s h || (decide (s.portState p.val = 2) && decide (h.typ ≠ 6)) then .done
  else .seq taken (k h (framePayload frame))

/-- Whether a frame is of a type and for this device. -/
def ownFrame (typ : Nat) (s : State) (h : Header) : Bool := decide (h.typ = typ) && decide (h.dst = s.deviceNo)

/-- A link control frame arrives at a port that trains no more (R354). -/
def receiveControl (p : Fin 2) (frame : List Byte) (typ : Nat) (k : Nat → Act) : Act := .look fun s =>
  let w := bytesNat (frame.take 4)
  if ¬ (s.portState p.val = 2 ∨ s.portState p.val = 3) then .done
  else if frame.length ≠ 8 ∨ (crc32c (frame.take 4)).toNat ≠ bytesNat (frame.drop 4) then rejectFrame p
  else whenA (decide (w % 16 = typ)) (k w)

/-- The frames an ack covers leave the replay buffer, and waiting frames may go (R355). -/
def ackFrames (p : Fin 2) (last : Nat) : Act := .look fun s =>
  let st := s.atPorts p.val
  whenA (st.replay.any fun e => decide (e.1 = last))
    (.seq (updPort p.val fun x => { x with
        replay := (x.replay.dropWhile fun e => decide (e.1 ≠ last)).drop 1, replays := 0 })
      (drainPort p st.waiting.length))

/-- ACK (R355). -/
def execAck (port : Fin 2) (frame : List Byte) (s : State) : Host.Outcome State Fault Refusal :=
  meaning (.ack port frame) (inService (receiveControl port frame 8 fun w => ackFrames port (w / 2 ^ 20))) s

/-- The replay buffer goes out again, oldest first; after four replays without progress the link goes down (R355). -/
def replayAll (p : Fin 2) : Act := .look fun s =>
  let st := s.atPorts p.val
  if st.replay.isEmpty ∨ ¬ (s.portState p.val = 2 ∨ s.portState p.val = 3) then .done
  else if 4 ≤ st.replays then .seq (pageErr (portPage p.val) 0x13) (portDown p.val 0x0D13 true)
  else acts [updPort p.val fun x => { x with replays := x.replays + 1 }, bump (portPage p.val) 0x068 1,
    forA st.replay fun e => .eff (.out (.frame p e.2))]

/-- NAK (R355): the sender replays from the oldest unacked frame; only an ack lets a frame go. -/
def execNak (port : Fin 2) (frame : List Byte) (s : State) : Host.Outcome State Fault Refusal :=
  meaning (.nak port frame)
    (served (receiveControl port frame 9 fun _ => replayAll port)) s

/-- CREDIT (R354): credits of one virtual channel return. -/
def actCredit (p : Fin 2) (w : Nat) : Act := .look fun s =>
  let vc := w / 16 % 4
  whenA (decide (vc < 3))
    (.seq (setFld (portPage p.val) 0x104 (creditLo vc) 10
        (satNat 1023 (s.rfld (portPage p.val) 0x104 (creditLo vc) 10 + w / 64 % 2 ^ 14)))
      (drainPort p (s.atPorts p.val).waiting.length))

/-- CREDIT. -/
def execCredit (port : Fin 2) (frame : List Byte) (s : State) : Host.Outcome State Fault Refusal :=
  meaning (.credit port frame) (inService (receiveControl port frame 0xA (actCredit port))) s

/-- ACK_TIMER (R355): 1 µs after the oldest frame received and not acked, an ack goes out. -/
def execAckTimer (port : Fin 2) (s : State) : Host.Outcome State Fault Refusal :=
  meaning (.ackTimer port)
    (inService (.look fun t => whenA (decide (0 < (t.atPorts port.val).inOrder)) (sendAck port))) s

/-- REPLAY_TIMEOUT (R355): 8 µs without an ack. -/
def execReplayTimeout (port : Fin 2) (s : State) : Host.Outcome State Fault Refusal :=
  meaning (.replayTimeout port) (served (replayAll port)) s

/-! ## Transport frames -/

/-- HELLO (R350): the neighbour's number, count and trust root are checked, and the port is up or refused; a refused port
keeps nothing to replay, since no traffic passes. -/
def actHello (p : Fin 2) (frame : List Byte) (count : Nat) (root : BitVec 64) : Act :=
  receive p frame (fun s h => decide (h.typ = 6) && decide (s.portState p.val = 2)) fun h _ => .look fun s =>
    acts [returnCredit p 2 (frameCredits h.len), setFld (portPage p.val) 0x100 8 6 h.src,
      if count ≠ s.chainCount ∨ h.src = s.deviceNo then
        acts [pageErr (portPage p.val) 0x10, .eff (.ports p.val {}), portTo p.val 5 0x0D10]
      else if root ≠ s.trustRoot then acts [pageErr (portPage p.val) 0x11, .eff (.ports p.val {}), portTo p.val 5 0x0D11]
      else portTo p.val 3 0]

/-- HELLO. -/
def execHello (port : Fin 2) (frame : List Byte) (count : Nat) (root : BitVec 64) (s : State) :
    Host.Outcome State Fault Refusal :=
  meaning (.hello port frame count root) (inService (actHello port frame count root)) s

/-- A window write that has been received is accepted or answered; on a full arrival queue it stays in the receive buffer
(R156, R361). The completion of one that is accepted goes out when it commits (R353, R363; DEDUCED from the example of
chapter 17 and from the senders that halt when a port goes down, log entry 42). -/
def serveWrite (p : Fin 2) (frame : List Byte) : Act :=
  let h := parseHeader frame
  windowWrite h.window h.src h.offset h.first h.last (framePayload frame) (some p.val) (some (frame.take 28)) fun e => match e with
    | .status st => .seq (whenA (decide (st ≠ 0)) (sendCompletion h st [])) (returnCredit p h.vc (frameCredits h.len))
    | .wait => updPort p.val fun x => { x with heldBack := x.heldBack ++ [frame] }

/-- The frames a port holds back are tried again, in order, until one waits again; `k` bounds them (R156). -/
def drainHeld (p : Fin 2) : Nat → Act
  | 0 => .done
  | k + 1 => .look fun s =>
    match (s.atPorts p.val).heldBack with
    | [] => .done
    | f :: rest =>
      acts [updPort p.val fun x => { x with heldBack := [] }, serveWrite p f, .look fun t =>
        if (t.atPorts p.val).heldBack.isEmpty then
          .seq (updPort p.val fun x => { x with heldBack := rest }) (drainHeld p k)
        else updPort p.val fun x => { x with heldBack := x.heldBack ++ rest }]

/-- WINDOW_WRITE (R361): a window write for this device; it waits behind frames held back, which are tried again first. -/
def actWindowWrite (p : Fin 2) (frame : List Byte) : Act :=
  receive p frame (ownFrame 1) fun _ _ => .look fun s =>
    if (s.atPorts p.val).heldBack.isEmpty then serveWrite p frame
    else .seq (updPort p.val fun x => { x with heldBack := x.heldBack ++ [frame] })
      (drainHeld p ((s.atPorts p.val).heldBack.length + 1))

/-- WINDOW_WRITE. -/
def execWindowWrite (port : Fin 2) (frame : List Byte) (s : State) : Host.Outcome State Fault Refusal :=
  meaning (.windowWrite port frame) (served (actWindowWrite port frame)) s

/-- ARRIVAL_COMMIT (R157): the oldest arrival of an array, if there is one, commits; the memories of a held unit stay
untouched (R160). Then frames held back are tried again, whatever has made room for them. -/
def actArrivalCommit (a : Nat) : Act := .look fun s => .seq
  (match (s.atArrays a).arrivals with
  | [] => .done
  | v :: rest => whenA (decide ((s.unitAt (arrUnit a)).state ≠ .held))
      (.seq (updArr a fun x => { x with arrivals := rest }) (commitArrival a v)))
  (.look fun t => .seq (drainHeld 0 (t.atPorts 0).heldBack.length) (drainHeld 1 (t.atPorts 1).heldBack.length))

/-- ARRIVAL_COMMIT. -/
def execArrivalCommit (array : Fin 32) (s : State) : Host.Outcome State Fault Refusal :=
  meaning (.arrivalCommit array) (served (actArrivalCommit array.val)) s

/-- The oldest accepted write of a stack window is accepted whole by the memory system, its granules signal WIN_SEM, and
its completion goes out; a write whose translation has failed since commits nothing of itself and is answered so (R353,
R361). -/
def commitWinWrite (w : Nat) : Act := .look fun s =>
  match (s.atWindows w).queue with
  | [] => .done
  | v :: rest =>
    let sem := s.reg (winPage w) 0x110
    let c : StackClient := ⟨.window, (s.unitAt (winUnit w)).owner⟩
    .seq (updWin w fun x => { x with queue := rest, inFlight := x.inFlight - 64 * v.granules })
      (reachable c v.va v.data.length fun ok =>
        if ¬ ok then replyTo v.reply 4
        else virtWrite c 0 v.va v.data 0x0D00 0x0D00 none fun r =>
          if r = .ok then acts [bump (winPage w) 0x048 v.granules,
            whenA (bit sem 15 && s.semBound (fld sem 0 12) (s.unitAt (winUnit w)).owner)
              (semAdd (fld sem 0 12) (BitVec.ofNat 32 v.granules)), replyTo v.reply 0]
          else replyTo v.reply 4)

/-- WINDOW_WRITE_COMMIT. -/
def execWindowWriteCommit (window : Fin 64) (s : State) : Host.Outcome State Fault Refusal :=
  meaning (.windowWriteCommit window) (served (commitWinWrite window.val)) s

/-- WINDOW_READ_REQUEST (R362): the data of the range, laid in its 64-byte blocks, or a status. -/
def actWindowReadRequest (p : Fin 2) (frame : List Byte) : Act :=
  receive p frame (ownFrame 2) fun h _ =>
    windowRead h.window h.src h.offset h.first h.last fun st bs =>
      let len := (h.first + bs.length + 63) / 64 * 64
      .seq (sendCompletion h st (if st = 0 then (List.replicate h.first 0 ++ bs ++ List.replicate 64 0).take len else []))
        (returnCredit p h.vc (frameCredits h.len))

/-- WINDOW_READ_REQUEST. -/
def execWindowReadRequest (port : Fin 2) (frame : List Byte) (s : State) : Host.Outcome State Fault Refusal :=
  meaning (.windowReadRequest port frame) (inService (actWindowReadRequest port frame)) s

/-- COMPLETION (R353): the request with its ttag ends by the status, or waits to be issued again after busy. -/
def actCompletion (p : Fin 2) (frame : List Byte) : Act :=
  receive p frame (ownFrame 3) fun h payload => .look fun s =>
    .seq (returnCredit p h.vc (frameCredits h.len))
      (optA (s.atRemotes h.ttag) fun r =>
        if r.requester ≠ h.requester then .done
        else if h.status = 2 then .eff (.remotes h.ttag (some { r with busy := true }))
        else .seq (.eff (.remotes h.ttag none))
          (match r.engine with
          | some (e, tag) => endRemote e tag h.status payload
          | none => whenA (decide (h.status ≠ 0)) trackLost))

/-- COMPLETION. -/
def execCompletion (port : Fin 2) (frame : List Byte) (s : State) : Host.Outcome State Fault Refusal :=
  meaning (.completion port frame) (served (actCompletion port frame)) s

/-- Whether an engine's source may be read again: a scratchpad in a transfer phase or, for a request that must still
retire, while the array is stopped (R176). -/
def sourceOpen (s : State) (e : Nat) (d : BitVec 512) : Bool :=
  let st := s.atArrays (e / 2)
  decide (sdKind d false ≠ 1) || decide (st.phase = .transfer) || decide (st.phase = .stopped)
    || ((s.atEngines e).stopping && st.flight.all fun x => x.waiting)

/-- BUSY_RETRY (R353): 1 µs after a busy answer the request is issued again; a write reads its source again, the host's by
a new read whose bytes come with REQUEST_RETIRE, a scratchpad's when its phase lets it (R176, R364). A window of this
device is written again at once. -/
def actBusyRetry (ttag : Nat) : Act := .look fun s =>
  optA (s.atRemotes ttag) fun r =>
    whenA r.busy
      (match r.engine.bind fun x => (s.engReq x.1 x.2).map fun q => (x.1, q.1, q.2) with
      | some (e, q, d) =>
        if sdKind d true = 3 then
          whenA (sourceOpen s e d) (acts [.eff (.remotes ttag none),
            updEng e fun x => { x with reqs := x.reqs.map fun y => if y.tag = q.tag then { y with data := none } else y },
            if sdKind d false = 2 then .eff (.out (.hostRead (s.engOwner e) (s.hostAddr e q.src) q.len))
            else sourceReq e { q with data := none } d [] fun bs =>
                if q.remote then .seq (keepData e q.tag bs) (sendWindow e q (sdBase d true) q.dst (some bs))
                else deliverReq e q d bs])
        else .seq (.eff (.remotes ttag (some { r with busy := false })))
          (sendRemote r 1 fun st => .seq (.eff (.remotes ttag none)) (failRemote r st))
      | none =>
        if r.engine.isSome then .eff (.remotes ttag none)
        else .seq (.eff (.remotes ttag (some { r with busy := false })))
          (sendRemote r 0 fun st => .seq (.eff (.remotes ttag none)) (failRemote r st)))

/-- BUSY_RETRY. -/
def execBusyRetry (ttag : Nat) (s : State) : Host.Outcome State Fault Refusal :=
  meaning (.busyRetry ttag) (served (actBusyRetry ttag)) s

/-- REMOTE_TIMEOUT (R358): no completion within CH_CFG.timeout_us: cause 0x1A, event 0x0D11, and the requester halts. -/
def actRemoteTimeout (ttag : Nat) : Act := .look fun s =>
  optA (s.atRemotes ttag) fun r =>
    acts [.eff (.remotes ttag none), bump chainPage 0x040 1, pageErr chainPage 0x1A,
      pageEvent chainPage 0x11 0x0D1A (natBytes 4 (r.dst + 64 * r.requester)), failRemote r 5]

/-- REMOTE_TIMEOUT. -/
def execRemoteTimeout (ttag : Nat) (s : State) : Host.Outcome State Fault Refusal :=
  meaning (.remoteTimeout ttag) (served (actRemoteTimeout ttag)) s

/-- A request that cannot go on is answered with a status; a track message is counted under cause 0x15 without a route,
and dropped with cause 0x0C1E at a port that is down (R356, R363). -/
def answerUnreached (p : Fin 2) (h : Header) (status : Nat) : Act :=
  acts [
    whenA (decide (status = 5)) (.seq (bump chainPage 0x050 1) (pageErr chainPage 0x15)),
    whenA (decide (status = 6) && decide (h.typ = 5)) trackLost,
    whenA (decide (h.typ = 1) || decide (h.typ = 2)) (sendCompletion h status []),
    returnCredit p h.vc (frameCredits h.len)]

/-- FRAME_FORWARD (R356, R357): a frame for another device leaves through the port of its route, holding its buffer until
then, or is discarded for hops or the dateline, or is answered as unreachable. -/
def actFrameForward (p : Fin 2) (frame : List Byte) : Act :=
  receive p frame (fun s h => decide (h.typ ≠ 6) && decide (h.dst ≠ s.deviceNo)) fun h payload => .look fun s =>
    let q := s.route h.dst
    if s.rbit chainPage 0x104 (16 + p.val) || decide (63 ≤ h.hops + 1) then
      acts [bump chainPage 0x048 1, pageErr chainPage 0x16, returnCredit p h.vc (frameCredits h.len)]
    else if q = p.val + 1 ∨ q = 0 ∨ q = 3 then answerUnreached p h 5
    else if s.portState (q - 1) ≠ 3 then answerUnreached p h 6
    else .seq (bump (portPage p.val) 0x070 1)
      (sendFrame (Fin.ofNat 2 (q - 1)) ⟨h.vc, frameBody { h with hops := h.hops + 1 } payload,
        some (p.val, h.vc, frameCredits h.len)⟩)

/-- FRAME_FORWARD. -/
def execFrameForward (port : Fin 2) (frame : List Byte) (s : State) : Host.Outcome State Fault Refusal :=
  meaning (.frameForward port frame) (inService (actFrameForward port frame)) s

/-! ## Track messages (R341, R345, R353) -/

/-- A track message for this device, of a length, is received, acted on and answered. -/
def trackMessage (p : Fin 2) (frame : List Byte) (len : Nat) (k : Header → Act) : Act :=
  receive p frame (fun s h => ownFrame 5 s h && decide (h.len = len)) fun h _ =>
    acts [k h, sendCompletion h 0 [], returnCredit p h.vc (frameCredits h.len)]

/-- OFFER. -/
def execOffer (port : Fin 2) (frame : List Byte) (offer : OfferMsg) (s : State) : Host.Outcome State Fault Refusal :=
  meaning (.offer port frame offer) (inService (trackMessage port frame 256 fun _ => storeOffer offer)) s

/-- TAKEN_NOTICE: from the device that has taken an offer of this one. -/
def execTakenNotice (port : Fin 2) (frame : List Byte) (ident : Nat) (s : State) : Host.Outcome State Fault Refusal :=
  meaning (.takenNotice port frame ident) (inService (trackMessage port frame 64 fun h => noteTaken ident h.src)) s

/-- WITHDRAWAL. -/
def execWithdrawal (port : Fin 2) (frame : List Byte) (ident : Nat) (s : State) : Host.Outcome State Fault Refusal :=
  meaning (.withdrawal port frame ident) (inService (trackMessage port frame 64 fun _ => dropOffers ident)) s

/-- DUPLICATE_NOTICE. -/
def execDuplicateNotice (port : Fin 2) (frame : List Byte) (ident : Nat) (s : State) :
    Host.Outcome State Fault Refusal :=
  meaning (.duplicateNotice port frame ident) (inService (trackMessage port frame 64 fun _ => renameRec ident)) s

end Sys2Proof.Machine
end

