-- ==== Sys2Proof/Machine/Raster.lean ====
section
/-! DEFINITION. The raster pipeline: brackets and holds, the parameter record and the re-arms, strip requests, deadline
and take lines, the reservation and the strip budget (R279 to R294). -/

namespace Sys2Proof.Machine

/-! ## The picture table as the display engine reads it (R230, R283) -/

/-- A picture of a table: its slot, capture time and state word. -/
abbrev Pic := Nat × Nat × Nat

/-- The valid pictures of a table. -/
def tablePics (n : Nat) (bs : List Byte) : List Pic :=
  ((List.range n).map fun k =>
    (k, bytesNat (sliceBytes bs (32 * k) 8), bytesNat (sliceBytes bs (32 * k + 12) 4))).filter fun p => p.2.2.testBit 0

/-- The latest picture captured at or before a time. -/
def latestBy (l : List Pic) (t : Int) : Option Pic :=
  l.foldl (fun m p => if t < (p.2.1 : Int) then m else match m with
    | none => some p
    | some x => if x.2.1 < p.2.1 then some p else some x) none

/-- The earliest picture captured after a time. -/
def earliestAfter (l : List Pic) (t : Int) : Option Pic :=
  l.foldl (fun m p => if (p.2.1 : Int) ≤ t then m else match m with
    | none => some p
    | some x => if p.2.1 < x.2.1 then some p else some x) none

/-- A bracket of one picture, with flags. -/
def soloBracket (ctx newest flags : Nat) (p : Pic) : Bracket :=
  ⟨ctx, p.1, p.1, p.2.1, p.2.1, p.2.2, p.2.2, 0, flags, newest⟩

/-- The selection of R283 among the valid pictures, for a camera time. -/
def selectPics (ctx : Nat) (l : List Pic) (tc : Int) (span : Nat) : Bracket :=
  match latestBy l (2 ^ 64), earliestAfter l (-1) with
  | some n, some o =>
    if (n.2.1 : Int) ≤ tc then soloBracket ctx n.2.1 (1 + 2 * b2n (decide ((span : Int) < tc - n.2.1))) n
    else if tc < (o.2.1 : Int) then soloBracket ctx n.2.1 8 o
    else match latestBy l tc, earliestAfter l tc with
    | some a, some b =>
      let da := tc.toNat - a.2.1
      let d := b.2.1 - a.2.1
      if span < d then soloBracket ctx n.2.1 4 (if da ≤ d - da then a else b)
      else ⟨ctx, a.1, b.1, a.2.1, b.2.1, a.2.2, b.2.2, min 65535 ((da * 131072 + d) / (2 * d)), 0, n.2.1⟩
    | _, _ => { ctx := ctx, flags := 16 }
  | _, _ => { ctx := ctx, flags := 16 }

/-- The function that owns a video slot. -/
def State.slotOwner (s : State) (slot : Nat) : Func := (s.unitAt ⟨.videoPair, slot / 2⟩).owner

/-! ## Holds (R231, R283) -/

/-- The hold of a picture of a context changes by `d`. -/
def addHold (f : Func) (ctx slot : Nat) (d : Int) : Act := .look fun s =>
  let at_ := srTable (s.atStreams ctx).record + 32 * slot + 0x10
  let c : StackClient := ⟨.display, f⟩
  whenA (decide ((s.atStreams ctx).state ≠ .unconfigured) && s.boundTo (streamUnit ctx) f)
    (virtRead c 0 at_ 4 .read 0x0B47 0x0B47 fun r => match r with
      | .ok bs => virtWrite c 0 at_ (natBytes 4 (wrapInt ((bytesNat bs : Int) + d) 32)) 0x0B47 0x0B47 none fun _ => .done
      | _ => .done)

/-- A layer takes hold of the pictures of its new brackets. -/
def holdPics (slot : Nat) : Act := .look fun s =>
  let l := s.atLayers slot
  optA l.sel fun x =>
    let b := x.2
    whenA (decide (b.flags / 16 = 0))
      (forA ([(b.ctx, b.a), (b.ctx, b.b)].eraseDups.filter fun p => !l.pics.contains p) fun p =>
        .seq (updLayer slot fun y => { y with pics := y.pics ++ [p] }) (addHold (s.slotOwner slot) p.1 p.2 1))

/-- A layer releases the pictures that are no bracket of it and that no strip still to be scanned uses (R283). -/
def releasePics (slot : Nat) : Act := .look fun s =>
  let l := s.atLayers slot
  let uses (b : Bracket) (p : Nat × Nat) : Bool :=
    decide (b.flags / 16 = 0) && decide (p.1 = b.ctx) && (decide (p.2 = b.a) || decide (p.2 = b.b))
  let keep (p : Nat × Nat) : Bool := (l.sel.map fun x => uses x.2 p).getD false || l.strips.any fun r => uses r.br p
  .seq (updLayer slot fun x => { x with pics := x.pics.filter keep })
    (forA (l.pics.filter fun p => !keep p) fun p => addHold (s.slotOwner slot) p.1 p.2 (-1))

/-! ## Bracket selection (R282, R283) -/

/-- The counters of the flags a selection has set, and event 0x0B40 when a layer's flags change, at most once a frame. -/
def countFlagsOf (o slot frame : Nat) (b : Bracket) (tc : Int) : Act := .look fun s =>
  let p := stripPage o
  let l := s.atLayers slot
  let us := max (-(2 ^ 31)) (min (2 ^ 31 - 1) ((tc - b.newest) / 1000))
  acts [forA [(0, 0x088), (1, 0x090), (2, 0x098), (3, 0x0A0), (4, 0x0A8)] fun e =>
      whenA (b.flags.testBit e.1) (bump p e.2 1),
    whenA (decide (l.flags ≠ b.flags) && decide (l.flagTold ≠ some frame))
      (acts [updLayer slot fun x => { x with flags := b.flags, flagTold := some frame }, raiseIrq p 9,
        pageEvent p 0x40 0 (natBytes 4 (slot + 64 * b.flags) ++ natBytes 4 frame ++ natBytes 4 (wrapInt us 32))])]

/-- The refresh instant of a strip (R282). -/
def State.refInstant (s : State) (v : Table Word) (o k frame : Nat) : Nat :=
  if s.vf v (stripPage o) 0x100 3 1 = 1 then s.stripTime o k frame 0
  else s.frameTime o frame

/-- The camera time of a layer for a strip. -/
def State.camTime (s : State) (v : Table Word) (o k frame slot : Nat) : Int :=
  (s.refInstant v o k frame : Int) - 1000 * (s.rl v slot 0x04 0 32 : Int)

/-- A layer's brackets for a strip of a frame: selected once per frame with roll = 0, at every request with roll = 1. A
failed read of the picture table leaves the layer out for the frame, with cause 0x0B47 (R294). -/
def selectBracket (o k frame slot : Nat) : Act := .look fun s =>
  let v := s.frameView o frame
  let l := s.atLayers slot
  let ctx := s.rl v slot 0 8 10
  let f := s.slotOwner slot
  let r := (s.atStreams ctx).record
  let tc := s.camTime v o k frame slot
  let known := decide ((l.sel.map Prod.fst) = some frame)
    && (decide (s.vf v (stripPage o) 0x100 3 1 = 0) || decide (l.failTold = some frame))
  let take (b : Bracket) : Act :=
    acts [updLayer slot fun x => { x with sel := some (frame, b) }, countFlagsOf o slot frame b tc, holdPics slot,
      releasePics slot]
  if known then .done
  else if (s.atStreams ctx).state = .unconfigured ∨ ¬ s.boundTo (streamUnit ctx) f then
    take { ctx := ctx, flags := 16 }
  else virtRead ⟨.display, f⟩ 0 (srTable r) (32 * srSlots r) .read 0x0B47 0x0B47 fun e => match e with
    | .ok bs => take (selectPics ctx (tablePics (srSlots r) bs) tc (1000000 * max 1 (s.rl v slot 0x10 0 16)))
    | _ => acts [withFree fun x => recordErrI (stripPage o) 0x0B47 (BitVec.ofNat 32 slot) (x.extractLsb' 0 32),
        updLayer slot fun x => { x with failTold := some frame }, take { ctx := ctx, flags := 16 }]

/-! ## The parameter record and the re-arms (R284 to R286, R288) -/

/-- Strip buffers of an output's layers: lead + 2. -/
def State.nbuf (s : State) (v : Table Word) (o : Nat) : Nat := s.lead v o + 2

/-- The size of a strip buffer. -/
def bufSize (dw : Nat) : Nat := (dw * 64 + 4095) / 4096 * 4096

/-- First and last line of a layer in a strip. -/
def State.layerLines (s : State) (v : Table Word) (o k slot : Nat) : Nat × Nat :=
  let r := s.rowsOf v slot
  let l := s.stripLines v o k
  (max l.1 r.1, min l.2 (r.1 + r.2 - 1))

/-- Twice dh, and the source row of a layer row times that (R285). -/
def State.sourceRow (s : State) (v : Table Word) (slot row : Nat) : Int × Nat :=
  let sh := s.vl v slot 0x08 16 13
  let dh := s.vl v slot 0x10 16 13
  ((((2 * row + 1) * sh : Nat) : Int) - dh + 2 * dh * s.vl v slot 0x04 16 13, 2 * dh)

/-- src_row0 of a layer in a strip (R285). -/
def State.srcRow0 (s : State) (v : Table Word) (o k slot : Nat) : Nat :=
  let row := (s.layerLines v o k slot).1 - (s.rowsOf v slot).1
  let q := s.sourceRow v slot row
  let r : Int := q.1 / (q.2 : Int) - s.rl v slot 0x0C 16 6
  let top : Int := (srHeight (s.atStreams (s.rl v slot 0 8 10)).record : Int) - s.rl v slot 0x0C 0 16
  (max 0 (min (r / 2 * 2) top)).toNat

/-- The 64 bytes of the parameter record (R285). -/
def recordBytes (s : State) (v : Table Word) (o k frame slot serial rung : Nat) (b : Bracket) : List Byte :=
  let lines := s.layerLines v o k slot
  let row := lines.1 - (s.rowsOf v slot).1
  let q := s.sourceRow v slot row
  let r0 := s.srcRow0 v o k slot
  let exp_ := signedOf (s.rl v slot 0x08 0 32) 32 * 1000
  let ang (cap : Nat) : Nat × Nat := s.angleAt (max 0 ((cap : Int) + exp_)).toNat
  let ta := ang b.capA
  let tb := ang b.capB
  let word08 := b.phase + 65536 * (b.flags % 32) + 2 ^ 21 * (b.bitsA / 2 % 2) + 2 ^ 22 * (b.bitsB / 2 % 2)
    + 2 ^ 23 * (b.bitsB / 16 % 2)
  natBytes 4 (serial + 2 ^ 24 * rung + 2 ^ 26 * o) ++ natBytes 4 (slot + 256 * k + 65536 * (frame % 65536))
    ++ natBytes 4 word08 ++ natBytes 4 (ta.1 + 65536 * ta.2) ++ natBytes 4 (tb.1 + 65536 * tb.2)
    ++ natBytes 4 (s.reg tbPage 0x128).toNat ++ natBytes 8 (s.refInstant v o k frame) ++ natBytes 8 b.capA
    ++ natBytes 8 b.capB ++ natBytes 4 (r0 + 65536 * row)
    ++ natBytes 4 (wrapInt (((q.1 - r0 * q.2) * 131072 + q.2) / (2 * (q.2 : Int))) 32)
    ++ natBytes 4 (lines.2 + 1 - lines.1 + 256 * (lines.1 - 16 * k))
    ++ natBytes 4 ((s.vl v slot 0x08 16 13 * 131072 + s.vl v slot 0x10 16 13) / (2 * max 1 (s.vl v slot 0x10 16 13)))

/-- The address of a plane row of a picture, at the layer's source column (R286). -/
def planeAddr (r : BitVec 512) (slot row sx : Nat) (chroma : Bool) : Nat :=
  srPool r + slot * srSlotSize r + (if chroma then srPitch r * srHeight r + row / 2 * srPitch r else row * srPitch r)
    + sx * (if srP010 r then 2 else 1)

/-- The re-arms of a layer strip, by engine (0 load, 1 store) and list index; the side an engine keeps is filled in from
the descriptor at dispatch (R286). -/
def stripRearms (s : State) (v : Table Word) (o k slot serial : Nat) (b : Bracket) : List (Nat × Nat × Rearm) :=
  let r := (s.atStreams b.ctx).record
  let row := s.srcRow0 v o k slot
  let sx := s.vl v slot 0x04 0 13
  let seq := serial % (2 ^ 23 - 1) + 1
  let n := serial % s.nbuf v o
  [(0, 0, ⟨s.v64 v (vPage slot) (rasterOff slot + 0x1C) + 64 * n, 0, seq⟩),
    (0, 1, ⟨planeAddr r b.a row sx false, 0, seq⟩), (0, 2, ⟨planeAddr r b.a row sx true, 0, seq⟩),
    (0, 3, ⟨planeAddr r b.b row sx false, 0, seq⟩), (0, 4, ⟨planeAddr r b.b row sx true, 0, seq⟩),
    (1, 0, ⟨0, s.v64 v (vPage slot) (rasterOff slot + 0x14) + n * bufSize (s.vl v slot 0x10 0 13), seq⟩)]

/-! ## Strip requests (R281, R289) -/

/-- The rung at which a request's step starts: the lane's, or at rung 2 a probe's every probe-th request (R289). -/
def startRung (l : LaneRec) (requests probe : Nat) : Nat × Bool :=
  if l.rung < 2 then (if l.rung = 1 ∧ l.cop.isNone then (0, false) else (l.rung, false))
  else if probe ≠ 0 ∧ requests % probe = 0 then ((if l.cop.isSome then 1 else 0), true)
  else (2, false)

/-- The layer request of one video layer that a strip meets: brackets, record, and its batch step or its other source
(R281, R289). While the function has no standing array in service, every strip of a layer with a program goes to the
floor scaler, counted as a hand-over at dispatch, whatever its lane's rung (R14; that a layer the floor scaler draws alone
has no rung to hand over is DEDUCED from R281, log entry 58). -/
def requestLayer (o k frame slot : Nat) : Act := .seq (selectBracket o k frame slot) (.look fun s =>
  let v := s.frameView o frame
  let l := s.atLayers slot
  let b := (l.sel.map Prod.snd).getD { ctx := 0, flags := 16 }
  let enh := decide (s.rl v slot 0 0 1 = 1)
  let lane := s.atLanes (laneOf slot)
  let serial := if enh then l.serial else 2 ^ 24 + k
  let requests := if lane.rung = 2 then l.requests + 1 else 0
  let start := startRung lane requests (s.vf v (stripPage o) 0x100 12 8)
  let absent := decide (b.flags / 16 = 1)
  let floored := enh && lane.full.isSome && !absent && decide (s.standingArrays (s.slotOwner slot) = 0)
  let rung := if enh ∧ lane.full.isSome then start.1 else 2
  let rec_ : StripRec := {
    out := o, strip := k, frame := frame, serial := serial, rung := rung, br := b,
    deadline := s.stripTime o k frame (s.guardOf v o), source := if absent then 3 else if rung = 2 then 2 else 0,
    probe := start.2, lane := lane, rearms := stripRearms s v o k slot serial b }
  acts [updLayer slot fun x => { x with strips := x.strips ++ [rec_] },
    setRegN (vPage slot) (rasterOff slot + 0x24) (rung + 4 * (b.flags % 32) + 65536 * b.phase),
    setRegN (vPage slot) (rasterOff slot + 0x28) (b.a + 256 * b.b),
    whenA enh (acts [
      updLayer slot fun x => { x with serial := (x.serial + 1) % 2 ^ 24, requests := requests },
      bump (stripPage o) 0x040 1,
      whenA (lane.full.isNone && decide (l.noProgTold ≠ some frame))
        (.seq (withFree fun x => recordErrI (stripPage o) 0x0B44 (BitVec.ofNat 32 slot) (x.extractLsb' 0 32))
          (updLayer slot fun x => { x with noProgTold := some frame })),
      virtWrite ⟨.display, s.slotOwner slot⟩ 0
        (s.v64 v (vPage slot) (rasterOff slot + 0x1C) + 64 * (serial % s.nbuf v o))
        (recordBytes s v o k frame slot serial (min rung 1) b) 0x0B46 0x0B46 none fun w =>
        if w = .ok then .seq (bump (stripPage o) 0x0B0 1) (whenA (decide (rung < 2) && !absent && !floored)
          (.seq (queueStrip slot serial rung false) (whenA start.2 (bump (stripPage o) 0x080 1))))
        else stripWriteFailed slot serial]),
    whenA floored (floorStrip slot serial .dispatch)])

/-- Whether strip `k` of a frame is due for its request: its request line has come, under the state of the frame it
belongs to (R281, R311). -/
def State.requestDue (s : State) (o k frame : Nat) : Bool :=
  let v := s.frameView o frame
  decide (k < s.strips v o) && s.outOn v o && decide ((s.unitAt (outUnit o)).state = .bound)
    && s.atStripLine o k frame (16 * s.lead v o)

/-- The frame after the current one. -/
def State.frameAfter (s : State) (o : Nat) : Nat := (s.frameOf o + 1) % 2 ^ 32

/-- The frame whose strip `k` is requested next: the current one's before the coming one's. -/
def State.requestFrame (s : State) (o k : Nat) : Option Nat :=
  if (s.atOuts o).nextReq ≤ k ∧ s.requestDue o k (s.frameOf o) then some (s.frameOf o)
  else if (s.atOuts o).aheadReq ≤ k ∧ s.requestDue o k (s.frameAfter o) then some (s.frameAfter o)
  else none

/-- RST_STAT.next_req: the strip to be requested next. -/
def showNextReq (o : Nat) : Act := .look fun s =>
  let x := s.atOuts o
  setFld (stripPage o) 0x104 8 8 (if s.scanning o ∧ x.nextReq < s.strips [] o then x.nextReq
    else if x.aheadReq < s.strips (s.nextView o) o then x.aheadReq else 0)

/-- STRIP_REQUEST: at a strip's request line every video layer the strip meets is requested, in slot order (R281). -/
def actStripRequest (o : Fin 4) (k : Nat) (now : Dword) : Act := .seq (tick now) (.look fun s =>
  optA (s.requestFrame o.val k) fun frame =>
    let v := s.frameView o.val frame
    acts [forA ((s.videoOn v o.val).filter fun i => s.meets v o.val k i) fun i => requestLayer o.val k frame i,
      updOut o.val fun y => if frame = s.frameOf o.val then { y with nextReq := k + 1 } else { y with aheadReq := k + 1 },
      showNextReq o.val])

/-- STRIP_REQUEST. -/
def execStripRequest (o : Fin 4) (k : Nat) (now : Dword) (s : State) : Host.Outcome State Fault Refusal :=
  meaning (.stripRequest o k now) (inService (actStripRequest o k now)) s

/-! ## Deadline and take lines (R254, R289, R290) -/

/-- The layer strips of a strip whose line `back` lines before it is now reached, by slot. -/
def State.stripsAt (s : State) (o k : Nat) (back : Table Word → Nat) : List (Nat × StripRec) :=
  s.layers.flatMap fun e => (e.2.strips.filter fun r => decide (r.out = o) && decide (r.strip = k)
    && s.atStripLine o k r.frame (back (s.frameView o r.frame))).map fun r => (e.1, r)

/-- DEADLINE_LINE: every layer strip not complete goes to its next rung, once (R254). -/
def actDeadlineLine (o : Fin 4) (k : Nat) (now : Dword) : Act := .seq (tick now) (.look fun s =>
  forA (s.stripsAt o.val k fun v => s.guardOf v o.val) fun e => whenA (!e.2.checked)
    (.seq (updStrip e.1 e.2.serial fun x => { x with checked := true }) (handDown e.1 e.2.serial .deadline)))

/-- DEADLINE_LINE. -/
def execDeadlineLine (o : Fin 4) (k : Nat) (now : Dword) (s : State) : Host.Outcome State Fault Refusal :=
  meaning (.deadlineLine o k now) (inService (actDeadlineLine o k now)) s

/-- A layer that an output shows no longer is drawn from no picture: it releases those that no strip still uses (R283,
R294). -/
def releaseLayer (slot : Nat) : Act := .seq (updLayer slot fun x => { x with sel := none }) (releasePics slot)

/-- Layer strips that are scanned, or never will be, leave a layer, and pictures no longer used are released (R283). -/
def dropStrips (slot : Nat) (gone : StripRec → Bool) : Act := .look fun s =>
  let l := s.atLayers slot
  whenA (l.strips.any gone)
    (acts [forA (l.strips.filter gone) fun r => optA r.entry endStripStep,
      updLayer slot fun x => { x with strips := x.strips.filter fun r => !gone r }, releasePics slot])

/-! ## Reservation and strip budget (R292, R293, R322) -/

/-- Bytes a line of a video layer needs, times 2 (R292). -/
def State.layerDemand (s : State) (v : Table Word) (slot : Nat) : Nat :=
  let sw := s.vl v slot 0x08 0 13
  let dw := s.vl v slot 0x10 0 13
  let r := (s.atStreams (s.rl v slot 0 8 10)).record
  max (sw * (if srP010 r then 6 else 3) * ceilDiv (s.vl v slot 0x08 16 13) (max 1 (s.vl v slot 0x10 16 13)))
    (if s.rl v slot 0 0 1 = 1 then dw * 8 else 0)

/-- RST_RSV of an output: whole GB/s, rounded up (R292). -/
def State.videoRsv (s : State) (v : Table Word) (o : Nat) : Nat :=
  ceilDiv (((s.videoOn v o).map (s.layerDemand v)).sum * s.khz v o) (max 1 (2 * s.hTotal v o * 1000000))

/-- DC_RSV of an output: E_o in whole GB/s, rounded up (R322). -/
def State.graphicRsv (s : State) (v : Table Word) (o : Nat) : Nat :=
  let wb := if s.vf v (evidPage o) 0x400 0 1 = 1 then 4 * s.hActive v o else 0
  let fl := if s.vf v (compPage o) 0x104 16 1 = 1 then 8 * s.hActive v o else 0
  let g := ((s.graphicOn v o).map fun i => 4 * s.gr v i 0x14 0 13).sum
  ceilDiv ((wb + g + fl) * s.khz v o) (max 1 (s.hTotal v o * 1000000))

/-- The cheapest registered program of a lane (R293). -/
def cheapest (l : LaneRec) : Nat :=
  match l.full, l.cop with
  | some a, some b => min (bodyEst a) (bodyEst b)
  | some a, none => bodyEst a
  | none, some b => bodyEst b
  | none, none => 0

/-- W_o of an output with given lanes (R293). -/
def State.stripLoad (s : State) (v : Table Word) (lanes : Nat → LaneRec) (o : Nat) : Nat :=
  let on := (s.videoOn v o).filter fun i => decide (s.rl v i 0 0 1 = 1) && (lanes (laneOf i)).full.isSome
  ((List.range (s.strips v o)).map fun k =>
    ((on.filter fun i => s.meets v o k i).map fun i => cheapest (lanes (laneOf i))).sum).foldl max 0

/-- The state each output is judged by: the view given for it. -/
abbrev Views := Nat → Table Word

/-- The budget condition of R293 for every function, with the views and lanes given. -/
def State.budgetOk (s : State) (vs : Views) (lanes : Nat → LaneRec) : Bool :=
  let on := (List.range 4).filter fun o => s.outOn (vs o) o
  let den := (on.map fun o => max 1 (s.hTotal (vs o) o)).foldl (· * ·) 1
  (List.range 32).all fun f =>
    let mine := on.filter fun o => decide ((s.unitAt (outUnit o)).owner.val = f)
    decide (100 * (mine.map fun o => s.stripLoad (vs o) lanes o * s.khz (vs o) o
        * (den / max 1 (s.hTotal (vs o) o))).sum
      ≤ 85 * 16 * 1000000 * s.standingArrays (Fin.ofNat 32 f) * den)

/-- The reservation condition of R292 and R322. -/
def State.rsvOk (s : State) (vs : Views) : Bool :=
  decide ((((List.range 4).filter fun o => s.outOn (vs o) o).map fun o => s.videoRsv (vs o) o + s.graphicRsv (vs o) o).sum
    ≤ min 512 (s.rfld memPage 0x10C 0 10))

/-- The views in force: for each output its pending set, else its latched one, else its active state: what an output will
show counts as what it has reserved (R15 does not say which of its sets does; DESIGN CHOICE, log entry 62). -/
def State.viewsNow (s : State) : Views := fun o =>
  match (s.atOuts o).pend with
  | some g => g.snap
  | none => s.nextView o

end Sys2Proof.Machine
end

