-- ==== Sys2Proof/Machine/Commit.lean ====
section
/-! DEFINITION. Group commits of an output: the group, its validation, the go, the latch and how a set applies (R300,
R302, R306, R307, R310 to R313, R318, R320). -/

namespace Sys2Proof.Machine

/-! ## The group (R310) -/

/-- A field of a shadow. -/
def State.shf (s : State) (p off lo len : Nat) : Nat := fld (s.shadow p off) lo len

/-- The video slots whose active or shadow state is shown on an output. -/
def State.groupVideo (s : State) (o : Nat) : List Nat :=
  (List.range 64).filter fun i => (decide (s.vl [] i 0 0 1 = 1) && decide (s.vl [] i 0 1 2 = o))
    || (decide (s.shf (vPage i) (blockOff i) 0 1 = 1) && decide (s.shf (vPage i) (blockOff i) 1 2 = o))

/-- The graphic slots whose active or shadow state is shown on an output. -/
def State.groupGraphic (s : State) (o : Nat) : List Nat :=
  (List.range 16).filter fun i => (decide (s.gr [] i 0 0 1 = 1) && decide (s.gr [] i 0 1 2 = o))
    || (decide (s.shf (gPage i) (blockOff i) 0 1 = 1) && decide (s.shf (gPage i) (blockOff i) 1 2 = o))

/-- The registers of a video slot's blocks. -/
def videoRegs (i : Nat) : List (Nat × Nat × Nat) :=
  ((shadowRegs (vPage i)).filter fun e => (decide (blockOff i ≤ e.1) && decide (e.1 < blockOff i + 0x20))
    || (decide (rasterOff i ≤ e.1) && decide (e.1 < rasterOff i + 0x80))).map fun e => (vPage i, e)

/-- The registers of a graphic slot's block. -/
def graphicRegs (i : Nat) : List (Nat × Nat × Nat) :=
  ((shadowRegs (gPage i)).filter fun e => decide (blockOff i ≤ e.1) && decide (e.1 < blockOff i + 0x40)).map fun e =>
    (gPage i, e)

/-- The four pages of an output. -/
def outPages (o : Nat) : List Nat := [linkPage o, compPage o, evidPage o, stripPage o]

/-- The registers of the commit group: page, offset and mask. -/
def State.groupRegs (s : State) (o : Nat) : List (Nat × Nat × Nat) :=
  (outPages o).flatMap (fun p => (shadowRegs p).map fun e => (p, e)) ++ (s.groupVideo o).flatMap videoRegs
    ++ (s.groupGraphic o).flatMap graphicRegs

/-- Whether keep-store setting 0x04 names an output (R379). -/
def State.evLocked (s : State) (o : Nat) : Bool := s.rbit trustPage 0x128 o

/-- Whether it names any output. -/
def State.evLockedAny (s : State) : Bool := decide (s.rfld trustPage 0x128 0 4 ≠ 0)

/-- A value that a commit gives a register, with the fields that setting 0x04 locks: writeback and a named rectangle that
are on stay on (R379). -/
def State.lockKept (s : State) (o a : Nat) (v : Word) : Word :=
  let off := a - regAddr (evidPage o) 0
  let rect := decide (0x100 ≤ off) && decide (off < 0x300) && decide (off % 32 = 0)
    && s.rbit trustPage 0x128 (16 + (off - 0x100) / 32)
  if s.evLocked o ∧ regAddr (evidPage o) 0 ≤ a ∧ (off = 0x400 ∨ rect) ∧ s.rbit (evidPage o) off 0 then putFld v 0 1 1 else v

/-- The values the group's registers would take: shadowed fields from the shadows (R34), locked ones kept (R379). -/
def State.groupSnap (s : State) (o : Nat) : Table Word :=
  (s.groupRegs o).map fun e =>
    let m := BitVec.ofNat 32 e.2.2
    let a := regAddr e.1 e.2.1
    (a, s.lockKept o a ((s.reg e.1 e.2.1 &&& ~~~ m) ||| (s.shadow e.1 e.2.1 &&& m)))

/-! ## Validation (R312) -/

/-- Timing fields in range (R300). -/
def timingOk (s : State) (v : Table Word) (o : Nat) : Bool :=
  let ha := s.hActive v o
  let ht := s.hTotal v o
  let va := s.vActive v o
  let vt := s.vTotal v o
  let p := linkPage o
  let hf := s.vf v p 0x104 0 12
  let hs := s.vf v p 0x104 16 12
  let vfr := s.vf v p 0x10C 0 12
  let vs := s.vf v p 0x10C 16 6
  decide (ha % 2 = 0) && decide (640 ≤ ha ∧ ha ≤ 4096) && decide (ha + 32 ≤ ht ∧ ht ≤ 8191)
    && decide (hf + hs + ha ≤ ht) && decide (1 ≤ hs) && decide (480 ≤ va ∧ va ≤ 2304) && decide (va + 8 ≤ vt ∧ vt ≤ 4095)
    && decide (1 + s.vf v p 0x114 8 4 ≤ vfr) && decide (1 ≤ vs) && decide (vfr + vs + va < vt)
    && decide (s.vf v p 0x114 2 2 ≠ 3)

/-- The pixel clock in range (R300). -/
def clockOk (s : State) (v : Table Word) (o : Nat) : Bool := decide (25000 ≤ s.khz v o ∧ s.khz v o ≤ 600000)

/-- The lane rate in kbit/s (R302). -/
def rateOf (n : Nat) : Nat := if n = 0 then 1620000 else if n = 1 then 2700000 else if n = 2 then 5400000 else 8100000

/-- The timing fits its link (R302). -/
def linkOk (s : State) (v : Table Word) (o : Nat) : Bool :=
  let bpc := if s.vf v (linkPage o) 0x114 1 1 = 1 then 10 else 8
  decide (s.khz v o * 3 * bpc * 1005 * 10 ≤ 2 ^ s.vf v (linkPage o) 0x114 2 2 * rateOf (s.vf v (linkPage o) 0x114 4 2) * 8000)

/-- A destination rectangle lies in the active area, with sizes of at least 1 (R306). -/
def inActive (s : State) (v : Table Word) (o x y w h : Nat) : Bool :=
  decide (1 ≤ w) && decide (1 ≤ h) && decide (x + w ≤ s.hActive v o) && decide (y + h ≤ s.vActive v o)

/-- The first check a video slot of the group fails (R287, R306, R307). -/
def videoRefusal (s : State) (v : Table Word) (o i : Nat) : Option Nat :=
  let f := (s.unitAt (outUnit o)).owner
  let sw := s.vl v i 0x08 0 13
  let sh := s.vl v i 0x08 16 13
  let dw := s.vl v i 0x10 0 13
  let dh := s.vl v i 0x10 16 13
  let sx := s.vl v i 0x04 0 13
  let vt := s.vl v i 0 16 3 + 1
  let ht := s.vl v i 0 19 3 + 1
  let ctx := s.rl v i 0 8 10
  let r := (s.atStreams ctx).record
  let rows := s.rl v i 0x0C 0 16
  if ¬ s.boundTo ⟨.videoPair, i / 2⟩ f then some 0x0B18
  else if (s.vl [] i 0 0 1 = 1 ∧ s.vl [] i 0 1 2 ≠ o) ∨ s.vl v i 0 1 2 ≠ o
      ∨ ((List.range 4).any fun o2 => decide (o2 ≠ o) && (s.videoOn (s.viewsNow o2) o2).contains i) then some 0x0B1E
  else if ¬ inActive s v o (s.vl v i 0x0C 0 13) (s.vl v i 0x0C 16 13) dw dh ∨ sx % 2 = 1 ∨ sw % 2 = 1 ∨ sw < 2 ∨ sh < 2
      ∨ srWidth r < sx + sw ∨ srHeight r < s.vl v i 0x04 16 13 + sh ∨ s.vl v i 0 22 2 = 3 then some 0x0B14
  else if vt < 2 ∨ ht < 2 ∨ 8 * dw < sw ∨ 8 * dh < sh ∨ 16 * sw < dw ∨ 16 * sh < dh then some 0x0B16
  else if 32768 < (vt + ceilDiv sh dh - 1) * sw then some 0x0B15
  else if (s.rl v i 0 0 1 = 1 ∧ rows < ceilDiv (16 * sh) dh + 2 * s.rl v i 0x0C 16 6 + 2) ∨ rows % 2 = 1
      ∨ srHeight r < rows ∨ ¬ s.boundTo (streamUnit ctx) f
      ∨ s.v64 v (vPage i) (rasterOff i + 0x14) % 4096 ≠ 0 ∨ s.v64 v (vPage i) (rasterOff i + 0x1C) % 4096 ≠ 0
      ∨ s.rl v i 0x04 0 32 = 0 then some 0x0B43
  else none

/-- The first check a graphic slot of the group fails (R306, R309). -/
def graphicRefusal (s : State) (v : Table Word) (o i : Nat) : Option Nat :=
  let f := (s.unitAt (outUnit o)).owner
  let w := s.gr v i 0x14 0 13
  if ¬ s.boundTo ⟨.graphicPair, i / 2⟩ f ∨ (s.gr v i 0x18 15 1 = 1 ∧ ¬ s.semBound (s.gr v i 0x18 0 12) f) then some 0x0B18
  else if (s.gr [] i 0 0 1 = 1 ∧ s.gr [] i 0 1 2 ≠ o) ∨ s.gr v i 0 1 2 ≠ o
      ∨ ((List.range 4).any fun o2 => decide (o2 ≠ o) && (s.graphicOn (s.viewsNow o2) o2).contains i) then some 0x0B1E
  else if ¬ inActive s v o (s.gr v i 0x10 0 13) (s.gr v i 0x10 16 13) w (s.gr v i 0x14 16 13) then some 0x0B14
  else if s.gr v i 0 8 2 = 3 ∨ s.v64 v (gPage i) (blockOff i + 4) % 64 ≠ 0 ∨ s.gr v i 0x0C 0 16 % 64 ≠ 0
      ∨ s.gr v i 0x0C 0 16 < 4 * w then some 0x0B19
  else none

/-- Whether every 64 KiB page of a range is mapped for writing in a function's address space 0. -/
def mappedFor (s : State) (f : Func) (va n : Nat) : Bool :=
  (List.range ((va + n + 65535) / 65536 - va / 65536)).all fun k =>
    match walk s f 0 ((va / 65536 + k) * 65536) with
    | .leaf l => l.w
    | _ => false

/-- Check rectangles, writeback and the flatten surface (R317, R318, R320). -/
def evidenceOk (s : State) (v : Table Word) (o : Nat) : Bool :=
  let f := (s.unitAt (outUnit o)).owner
  let p := evidPage o
  let rects := (List.range 16).all fun r =>
    decide (s.vf v p (0x100 + 32 * r) 0 1 = 0)
      || inActive s v o (s.vf v p (0x104 + 32 * r) 0 13) (s.vf v p (0x104 + 32 * r) 16 13)
        (s.vf v p (0x108 + 32 * r) 0 13) (s.vf v p (0x108 + 32 * r) 16 13)
  let wb := decide (s.vf v p 0x400 0 1 = 0)
    || (decide (s.vf v p 0x400 1 3 ≠ 0) && decide (s.v64 v p 0x404 % 65536 = 0) && decide (s.v64 v p 0x410 % 4096 = 0)
      && decide (s.vf v p 0x40C 0 16 % 256 = 0) && decide (4 * s.hActive v o ≤ s.vf v p 0x40C 0 16)
      && (decide (s.vf v p 0x400 16 1 = 0) || s.semBound (s.vf v p 0x400 4 12) f))
  let c := compPage o
  let flat := decide (s.vf v c 0x104 16 1 = 0)
    || (decide (s.v64 v c 0x10C % 65536 = 0) && mappedFor s f (s.v64 v c 0x10C) (8 * s.hActive v o * s.vActive v o))
  rects && wb && flat

/-- The video slots of an output's group that a set shows: on this output, or moved to another without having been
switched off, which R306 refuses. -/
def State.videoChecked (s : State) (v : Table Word) (o : Nat) : List Nat :=
  (List.range 64).filter fun i => decide (s.vl v i 0 0 1 = 1)
    && (decide (s.vl v i 0 1 2 = o) || (decide (s.vl [] i 0 0 1 = 1) && decide (s.vl [] i 0 1 2 = o)))

/-- The graphic slots of an output's group that a set shows, as for video slots. -/
def State.graphicChecked (s : State) (v : Table Word) (o : Nat) : List Nat :=
  (List.range 16).filter fun i => decide (s.gr v i 0 0 1 = 1)
    && (decide (s.gr v i 0 1 2 = o) || (decide (s.gr [] i 0 0 1 = 1) && decide (s.gr [] i 0 1 2 = o)))

/-- The code with which the group of an output is refused, if it is (R312). -/
def groupRefusal (s : State) (v : Table Word) (o : Nat) : Option Nat :=
  let f := (s.unitAt (outUnit o)).owner
  let c := compPage o
  let vs : Views := fun o2 => if o2 = o then v else s.viewsNow o2
  if ¬ timingOk s v o then some 0x0B10
  else if ¬ clockOk s v o then some 0x0B11
  else if ¬ linkOk s v o then some 0x0B12
  else if s.vf v c 0x118 15 1 = 1 ∧ ¬ s.semBound (s.vf v c 0x118 0 12) f then some 0x0B18
  else match ((s.videoChecked v o).findSome? (videoRefusal s v o)).or
      ((s.graphicChecked v o).findSome? (graphicRefusal s v o)) with
  | some code => some code
  | none =>
    let guard := s.guardOf v o
    let take := s.takeOf v o
    if 32 < (s.videoOn v o).length ∨ 8 < (s.graphicOn v o).length then some 0x0B13
    else if s.cutLine v o < 0 ∨ s.vf v c 0x104 20 4 = 0 then some 0x0B1A
    else if s.lead v o < 2 ∨ 6 < s.lead v o ∨ take < 1 ∨ 8 < take ∨ guard ≤ take then some 0x0B42
    else if ¬ evidenceOk s v o then some 0x0B1B
    else if ¬ s.rsvOk vs then some 0x0B40
    else if ¬ s.budgetOk vs s.atLanes then some 0x0B41
    else none

/-! ## How a set applies (R310, R312) -/

/-- The pages whose PG_COMMIT_STAT a group commit reports in: the output's four, and the slot pages whose blocks it
takes. -/
def groupPages (o : Nat) (snap : Table Word) : List Nat :=
  outPages o ++ (snap.filterMap fun e =>
      if 0x180 ≤ e.1 / 0x1000 ∧ e.1 / 0x1000 < 0x1A8 then some (e.1 / 0x1000) else none).eraseDups

/-- A group commit is pending, or pending no longer, with its late and deferred flags; seq is that of the commit last
settled (R32). -/
def groupStands (g : GroupCommit) (state : Nat) : Act := forA g.pages fun p => .look fun s =>
  setRegN p 0x034 (state + 256 * s.rfld p 0x034 8 8 + if state = 1 then 4 * b2n g.late + 8 * b2n g.deferred else 0)

/-- A group commit settles with its event, written once, from the composition page (R310). -/
def groupSettled (o : Nat) (g : GroupCommit) (applied : Bool) (code : Nat) : Act :=
  acts [forA g.pages fun p => setRegN p 0x034 ((if applied then 2 else 3) + 4 * b2n g.late + 8 * b2n g.deferred
      + 256 * (g.seq.toNat % 256) + 65536 * code),
    raiseIrq (compPage o) (if applied then 1 else 2),
    pageEvent (compPage o) (if applied then 1 else 2) code (natBytes 4 (g.seq.toNat % 256 + 256 * b2n g.late))]

/-- Whether a set replaces a graphic buffer or the flatten surface, or switches such a layer off (R314). -/
def replaces (s : State) (v : Table Word) (o : Nat) : Bool :=
  ((s.graphicOn [] o).any fun i => decide (s.gr v i 0 0 1 = 0)
      || decide (s.v64 v (gPage i) (blockOff i + 4) ≠ s.v64 [] (gPage i) (blockOff i + 4)))
    || (decide (s.vf [] (compPage o) 0x104 16 1 = 1)
      && (decide (s.vf v (compPage o) 0x104 16 1 = 0)
        || decide (s.v64 v (compPage o) 0x10C ≠ s.v64 [] (compPage o) 0x10C)))

/-- The layers of an output that a set has switched off, or that leave with the output, lose their flags of the frame and
their brackets (R283, R294, R308, R309). -/
def layersGone (o : Nat) (video graphic : List Nat) : Act := .look fun t =>
  let gone (shown : List Nat) (i : Nat) : Bool := !(t.outOn [] o && shown.contains i)
  .seq (forA (video.filter (gone (t.videoOn [] o))) fun i =>
      .seq (setFld (vPage i) (blockOff i + 0x18) 1 1 0) (releaseLayer i))
    (forA (graphic.filter (gone (t.graphicOn [] o))) fun i => setFld (gPage i) (blockOff i + 0x24) 1 3 0)

/-- A set becomes the active state at line 0 (R312), but for what setting 0x04 has locked since (R379). Every slot whose
block was not ready shows it (R313). -/
def applyGroup (o : Nat) (g : GroupCommit) : Act := .look fun s =>
  let rep := replaces s g.snap o
  acts [forA g.snap fun e => .eff (.regs e.1 (s.lockKept o e.1 e.2)),
    updOut o fun x => { x with
      latched := none, seq := g.seq.toNat % 256, late := g.late, deferred := g.deferred,
      stale := decide (g.stale ≠ 0), retire := x.retire ++ if rep then [g.seq.toNat % 256] else [] },
    setRegN (compPage o) 0x120 g.stale,
    layersGone o (s.videoOn [] o) (s.graphicOn [] o),
    .look fun t => forA ((List.range 16).filter fun i => (t.groupGraphic o).contains i || g.stale.testBit i) fun i =>
      setFld (gPage i) (blockOff i + 0x24) 1 1 (b2n (g.stale.testBit i)),
    bump (compPage o) 0x040 1, groupSettled o g true 0]

/-! ## The latch (R313) -/

/-- Whether a set holds the block of a graphic slot. -/
def holdsBlock (snap : Table Word) (i : Nat) : Bool := snap.any fun e => decide (e.1 = regAddr (gPage i) (blockOff i))

/-- Whether the fence of a graphic slot's block in a set names a semaphore that is still its function's (R306, R427). -/
def State.fenceBound (s : State) (g : GroupCommit) (i : Nat) : Bool :=
  s.semBound (s.gr g.snap i 0x18 0 12) (s.unitAt ⟨.graphicPair, i / 2⟩).owner

/-- The graphic slots with a block in a set whose fence is on, whose address changes, and whose semaphore has not reached
its value, or has been withdrawn since the set was validated (R313, R427). -/
def notReady (s : State) (g : GroupCommit) : List Nat :=
  (List.range 16).filter fun i => holdsBlock g.snap i
      && decide (s.gr g.snap i 0x18 15 1 = 1)
      && decide (s.v64 g.snap (gPage i) (blockOff i + 4) ≠ s.v64 [] (gPage i) (blockOff i + 4))
      && !(s.fenceBound g i && s.semReached (s.gr g.snap i 0x18 0 12) (s.via g.snap (gPage i) (blockOff i + 0x1C)))

/-- A mask of slots. -/
def slotMask (l : List Nat) : Nat := l.foldl (fun m i => m ||| 2 ^ i) 0

/-- The set without the blocks of graphic slots that are not ready, which keep their whole previous state (R313). -/
def dropBlocks (snap : Table Word) (l : List Nat) : Table Word :=
  snap.filter fun e => !l.any fun i => (graphicRegs i).any fun r => decide (regAddr r.1 r.2.1 = e.1)

/-- A set is taken by its output: latched as the state of the next frame by one that scans or is to be enabled, which
then waits for its PLL; applied at once by one that stays off (R312). -/
def takeSet (o : Nat) (g : GroupCommit) : Act := .look fun s =>
  if s.scanning o then updOut o fun x => { x with pend := none, latched := some g }
  else if s.outOn g.snap o then
    acts [updOut o fun x => { x with pend := none, latched := some g, gap := true, nextReq := 0, aheadReq := 0 },
      setFld (linkPage o) 0x118 1 1 0, setFld (stripPage o) 0x104 8 8 0]
  else .seq (updOut o fun x => { x with pend := none }) (applyGroup o g)

/-- The latch of a pending set: its fences are tested, and it is deferred or taken, without the blocks that are not ready
(R312, R313). Event 0x0B11 is written when a set is first deferred (DEDUCED from the example of R313, log entry 33). A set
that would wait for a semaphore that has been withdrawn is refused as one that names a semaphore of another (R427; the
code is DEDUCED from R312, log entry 54). -/
def latchSet (o : Nat) (g : GroupCommit) : Act := .look fun s =>
  let nr := notReady s g
  let tell (low : Nat) : Act :=
    pageEvent (compPage o) low 0 (natBytes 4 (g.seq.toNat % 256) ++ natBytes 4 (slotMask nr))
  if g.aon ∧ nr.any fun i => !s.fenceBound g i then
    acts [updOut o fun x => { x with pend := none }, bump (compPage o) 0x058 1, groupSettled o g false 0x0B18]
  else if g.aon ∧ nr ≠ [] then
    whenA (!g.deferred)
      (let g' := { g with deferred := true }
       acts [updOut o fun x => { x with pend := some g' }, groupStands g' 1,
        bump (compPage o) 0x050 1, raiseIrq (compPage o) 9, tell 0x11])
  else
    .seq (whenA (!nr.isEmpty) (acts [bump (compPage o) 0x060 nr.length, raiseIrq (compPage o) 10, tell 0x12]))
      (takeSet o { g with snap := dropBlocks g.snap nr, stale := slotMask nr })

/-- The fence tests of deferred sets that wait for a semaphore which passes end (R427). -/
def endFences (named : Nat → Bool) : Act := forA (List.range 4) fun o => .look fun s =>
  optA (s.atOuts o).pend fun g =>
    whenA (g.deferred && (notReady s g).any fun i => named (s.gr g.snap i 0x18 0 12)) (latchSet o g)

/-- COMMIT_LATCH: at the cut-off line the pending set comes to its latch; on an output that does not scan a deferred set
is tested again at each one (R312, R313; the latter DEDUCED, log entry 33). -/
def actCommitLatch (o : Fin 4) (now : Dword) : Act := .seq (tick now) (.look fun s =>
  optA (s.atOuts o.val).pend fun g =>
    let due := decide ((s.lineOf o.val : Int) = s.cutLine [] o.val) && decide (sub32 (s.frameOf o.val) g.since < 2 ^ 31)
    whenA (if s.scanning o.val then due else !(s.atOuts o.val).gap) (latchSet o.val g))

/-- COMMIT_LATCH. -/
def execCommitLatch (o : Fin 4) (now : Dword) (s : State) : Host.Outcome State Fault Refusal :=
  meaning (.commitLatch o now) (inService (actCommitLatch o now)) s

/-! ## The go (R310, R312) -/

/-- A go on one of an output's pages (R310, R312): ignored with common cause 0x01 while a set is pending; else the
group's shadows are copied and validated, and an output that does not scan comes to the latch at once. -/
def goGroup (o page : Nat) (seq : BitVec 24) : Act := .look fun s =>
  let x := s.atOuts o
  let snap := s.groupSnap o
  let late := s.scanning o && decide (s.cutLine [] o ≤ (s.lineOf o : Int))
  let g : GroupCommit := {
    seq := seq, snap := snap, aon := s.rbit (compPage o) 0x010 8, late := late, deferred := false,
    since := if late then (s.frameOf o + 1) % 2 ^ 32 else s.frameOf o, pages := groupPages o snap }
  if x.pend.isSome ∨ x.latched.isSome then pageErr page 0x01
  else match groupRefusal s snap o with
  | some code => .seq (bump (compPage o) 0x058 1) (groupSettled o { g with late := false } false code)
  | none =>
    acts [updOut o fun y => { y with pend := some g }, groupStands g 1,
      if s.scanning o then
        whenA late (acts [bump (compPage o) 0x048 1, raiseIrq (compPage o) 8,
          pageEvent (compPage o) 0x10 0
            (natBytes 4 (seq.toNat % 256) ++ natBytes 4 ((s.frameOf o + 2) % 2 ^ 32))])
      else latchSet o g]

/-- The pages of the outputs. -/
def outOfPage (p : Nat) : Option Nat := if 0x170 ≤ p ∧ p < 0x180 then some ((p - 0x170) / 4) else none

/-- DISPLAY_GROUP_COMMIT: PG_COMMIT.go on a page of an output (R310). -/
def actDisplayGroupCommit (f : Func) (page : Nat) (seq : BitVec 24) : Act :=
  optA (outOfPage page) fun o => withWrite f page (.look fun s =>
    .seq (whenA ((s.atOuts o).pend.isNone && (s.atOuts o).latched.isNone) (setRegN page 0x030 (256 * seq.toNat)))
      (goGroup o page seq))

/-- DISPLAY_GROUP_COMMIT. -/
def execDisplayGroupCommit (f : Func) (page : Nat) (seq : BitVec 24) (s : State) : Host.Outcome State Fault Refusal :=
  meaning (.displayGroupCommit f page seq) (inService (actDisplayGroupCommit f page seq)) s

/-- A pending group commit is abandoned: nothing happens once it has latched (R35, R312). -/
def abandonGroup (o : Nat) : Act := .look fun s =>
  optA (s.atOuts o).pend fun g => .seq (updOut o fun x => { x with pend := none }) (groupStands g 0)

/-- The sets of an output whose unit is re-bound are discarded, pending or latched (R35, R323). An output that waits for
its PLL to begin at all waits no longer. -/
def discardGroup (o : Nat) : Act := .look fun s =>
  let x := s.atOuts o
  acts [optA x.pend fun g => groupStands g 0, optA x.latched fun g => groupStands g 0,
    updOut o fun y => { y with pend := none, latched := none, gap := y.gap && s.outOn [] o }]

/-- A slot page that is re-bound leaves the sets that hold its registers (R35). -/
def leaveGroups (p : Nat) : Act :=
  let less (g : GroupCommit) : GroupCommit :=
    { g with snap := g.snap.filter fun e => decide (e.1 / 0x1000 ≠ p), pages := g.pages.filter fun q => decide (q ≠ p) }
  .seq (forA (List.range 4) fun o => updOut o fun y => { y with pend := y.pend.map less, latched := y.latched.map less })
    (.look fun s => whenA (decide (s.rfld p 0x034 0 2 = 1)) (setFld p 0x034 0 4 0))

end Sys2Proof.Machine
end

