-- ==== Sys2Proof/Machine/Pixels.lean ====
section
/-! DEFINITION. The value of a pixel: expansion, blending, the floor scaler's sampling and colour conversion, and the
composition of a line (R299, R301). -/

namespace Sys2Proof.Machine

/-- Red, green and blue, 0 to 1,023 each. -/
abbrev Rgb := Nat × Nat × Nat

/-- An 8-bit value at 10 bits (R299). -/
def expand8 (v : Nat) : Nat := 4 * v + v / 64

/-- A 2-bit alpha at 10 bits (R299). -/
def expand2 (v : Nat) : Nat := 341 * v

/-- ⌊n / 1,023 + ½⌋ (R299). -/
def div1023 (n : Nat) : Nat := (2 * n + 1023) / 2046

/-- A component blended over another with an alpha (R299). -/
def blend (c alpha under : Nat) : Nat := div1023 (c * alpha + under * (1023 - alpha))

/-- A colour blended over another. -/
def blendRgb (c : Rgb) (alpha : Nat) (under : Rgb) : Rgb :=
  (blend c.1 alpha under.1, blend c.2.1 alpha under.2.1, blend c.2.2 alpha under.2.2)

/-- A colour word: [9:0] blue, [19:10] green, [29:20] red (R288, R318, R324). -/
def rgbOf (w : Nat) : Rgb := (w / 2 ^ 20 % 1024, w / 2 ^ 10 % 1024, w % 1024)

/-- A colour as a word. -/
def rgbWord (c : Rgb) : Nat := c.2.2 + 2 ^ 10 * c.2.1 + 2 ^ 20 * c.1

/-- The graphic composite: a premultiplied colour and its alpha. -/
abbrev Gfx := Rgb × Nat

/-- Colour and alpha of a graphic pixel word of a format (R309). -/
def gfxPixel (fmt w : Nat) : Rgb × Nat :=
  if fmt = 2 then (rgbOf w, expand2 (w / 2 ^ 30 % 4))
  else ((expand8 (w / 2 ^ 16 % 256), expand8 (w / 256 % 256), expand8 (w % 256)), expand8 (w / 2 ^ 24 % 256))

/-- A graphic pixel laid over the composite so far (R299). -/
def gfxOver (fmt alphaG w : Nat) (g : Gfx) : Gfx :=
  let px := gfxPixel fmt w
  let ag := expand8 alphaG
  let a := div1023 (px.2 * ag)
  let pre (c : Nat) : Nat := if fmt = 1 then div1023 (c * ag) else div1023 (c * a)
  let onto (c under : Nat) : Nat := min 1023 (c + div1023 (under * (1023 - a)))
  ((onto (pre px.1.1) g.1.1, onto (pre px.1.2.1) g.1.2.1, onto (pre px.1.2.2) g.1.2.2), onto a g.2)

/-- The finished pixel (R299). -/
def finish (v : Rgb) (g : Gfx) : Rgb :=
  let f (c u : Nat) : Nat := min 1023 (c + div1023 (u * (1023 - g.2)))
  (f g.1.1 v.1, f g.1.2.1 v.2.1, f g.1.2.2 v.2.2)

/-- The transmitted word of a pixel at 10 or 8 bits per component (R299, R318). -/
def sentWord (bpc10 : Bool) (c : Rgb) : Nat :=
  let e (v : Nat) : Nat := min 255 ((v + 2) / 4)
  if bpc10 then rgbWord c else e c.2.2 + 256 * e c.2.1 + 65536 * e c.1

/-- A flatten-surface pixel: colour word and alpha (R317). -/
def gfxBytes (g : Gfx) : List Byte := natBytes 8 (rgbWord g.1 + 2 ^ 30 * g.2)

/-- The composite a flatten-surface pixel holds. -/
def gfxOf (n : Nat) : Gfx := (rgbOf n, n / 2 ^ 30 % 1024)

/-! ## The floor scaler (R301) -/

/-- A filter position: its whole part and its phase of 32, from a numerator and a denominator. -/
def tapPos (num : Int) (den : Nat) : Int × Nat := (num / (den : Int), ((num % (den : Int)).toNat * 32) / den)

/-- A weighted sum over `n` taps at a position, of samples given by index; the weights are S1.14 (R301). -/
def filter1 (taps : Nat → Nat → Int) (n : Nat) (pos : Int × Nat) (sample : Int → Int) : Int :=
  let h := (n + 1) / 2
  ((List.range n).map fun j => taps pos.2 (j + 4 - h) * sample (pos.1 - h + 1 + j)).foldl (· + ·) 0

/-- A two-dimensional filter: rows first, then columns; the result carries 28 fraction bits. -/
def filter2 (taps : Nat → Nat → Int) (nh nv : Nat) (px py : Int × Nat) (sample : Int → Int → Int) : Int :=
  filter1 taps nv py fun y => filter1 taps nh px fun x => sample x y

/-- The luma weights of a matrix times 10,000: red and blue (BT.601, BT.709, BT.2020). -/
def cscWeights (csc : Nat) : Int × Int := if csc = 0 then (2990, 1140) else if csc = 1 then (2126, 722) else (2627, 593)

/-- A rational in 0 to 1 at 10 bits, rounded to nearest and clamped (R301). -/
def round1023 (num den : Int) : Nat := (max 0 (min 1023 ((2 * 1023 * num + den) / (2 * den)))).toNat

/-- Y′CbCr with 28 fraction bits at 10-bit scale to R′G′B′ (R301). -/
def toRgb (csc : Nat) (full : Bool) (y cb cr : Int) : Rgb :=
  let d : Int := 2 ^ 28
  let kr := (cscWeights csc).1
  let kb := (cscWeights csc).2
  let kg := 10000 - kr - kb
  let yr : Int := if full then 1023 else 876
  let cn : Int := if full then 1023 else 896
  let y0 := y - (if full then 0 else 64 * d)
  let b0 := cb - 512 * d
  let r0 := cr - 512 * d
  let m := d * yr * cn * 10000
  (round1023 (y0 * cn * 10000 + 2 * (10000 - kr) * r0 * yr) m,
    round1023 (y0 * cn * 10000 * kg - 2 * kb * (10000 - kb) * b0 * yr - 2 * kr * (10000 - kr) * r0 * yr) (m * kg),
    round1023 (y0 * cn * 10000 + 2 * (10000 - kb) * b0 * yr) m)

/-- What the floor scaler needs of a layer (R301): source and destination geometry, taps, table, conversion. -/
structure FloorCfg where
  sx : Nat
  sy : Nat
  sw : Nat
  sh : Nat
  dw : Nat
  dh : Nat
  nh : Nat
  nv : Nat
  csc : Nat
  full : Bool
  p010 : Bool
  deriving DecidableEq, Repr

/-- The position in the source of destination `i`, times 2 × dst: (i + 0.5) × src / dst − 0.5 + origin (R301). -/
def floorPos (i src dst org : Nat) : Int := ((((2 * i + 1) * src : Nat) : Int) - dst) + 2 * dst * org

/-- A coordinate held within the source rectangle. -/
def clampTo (lo hi : Nat) (v : Int) : Nat := (max (lo : Int) (min (hi : Int) v)).toNat

/-- The pixels of layer row `row`; `luma x y` and `chroma second x y` give 10-bit samples (R301). -/
def floorRow (c : FloorCfg) (taps : Nat → Nat → Int) (luma : Nat → Nat → Nat) (chroma : Bool → Nat → Nat → Nat) (row : Nat) :
    List Rgb :=
  let v2 := floorPos row c.sh c.dh c.sy
  let py := tapPos v2 (2 * c.dh)
  let cy := tapPos (v2 - c.dh) (4 * c.dh)
  (List.range c.dw).map fun x =>
    let h2 := floorPos x c.sw c.dw c.sx
    let px := tapPos h2 (2 * c.dw)
    let cx := tapPos h2 (4 * c.dw)
    let y := filter2 taps c.nh c.nv px py fun a b =>
      (luma (clampTo c.sx (c.sx + c.sw - 1) a) (clampTo c.sy (c.sy + c.sh - 1) b) : Int)
    let ch (second : Bool) : Int := filter2 taps c.nh c.nv cx cy fun a b =>
      (chroma second (clampTo (c.sx / 2) ((c.sx + c.sw - 1) / 2) a) (clampTo (c.sy / 2) ((c.sy + c.sh - 1) / 2) b) : Int)
    toRgb c.csc c.full y (ch false) (ch true)

/-- A stored sample at 10 bits (R229, R301). -/
def sample10 (p010 : Bool) (bs : List Byte) (i : Nat) : Nat :=
  if p010 then bytesNat (sliceBytes bs (2 * i) 2) / 64 else expand8 (bs.getD i 0).toNat

/-! ## A line (R299) -/

/-- A video layer's part of a line: where it starts, its alpha, its pixels (none from where it is switched off). -/
structure VideoRun where
  dx : Nat
  alpha : Nat
  pixels : List Rgb
  deriving DecidableEq, Repr

/-- A graphic layer's part of a line: where it starts, its format and alpha, its pixel words; or the flattened run. -/
inductive GfxRun where
  | layer (x fmt alpha : Nat) (words : List Nat)
  | flat (words : List Nat)
  deriving DecidableEq, Repr

/-- The video stack at a pixel (R299). -/
def videoAt (bg : Rgb) (l : List VideoRun) (x : Nat) : Rgb :=
  l.foldl (fun v r => if x < r.dx then v else match r.pixels[x - r.dx]? with
    | some c => blendRgb c (expand8 r.alpha) v
    | none => v) bg

/-- The graphic composite at a pixel (R299, R317). -/
def gfxAt (l : List GfxRun) (x : Nat) : Gfx :=
  l.foldl (fun g r => match r with
    | .layer x0 fmt alpha ws => if x < x0 then g else match ws[x - x0]? with
      | some w => gfxOver fmt alpha w g
      | none => g
    | .flat ws => match ws[x]? with
      | some w => gfxOf w
      | none => g) ((0, 0, 0), 0)

end Sys2Proof.Machine
end

