-- ==== Sys2Proof/Machine/Display.lean ====
section
/-! DEFINITION. Scan-out: the start of a frame with the apply and the retirement, composition line by line with check
rectangles and writeback, the flatten cache, DisplayPort and panel sync (R299 to R304, R312 to R321). -/

namespace Sys2Proof.Machine

/-- The owner of an output. -/
def State.outOwner (s : State) (o : Nat) : Func := (s.unitAt (outUnit o)).owner

/-! ## The flatten cache (R317) -/

/-- The graphic layers of an output under a frame's state, in stacking order. -/
def State.graphicOrder (s : State) (v : Table Word) (o : Nat) : List Nat :=
  sortZ (fun i => s.gr v i 0 4 3) (s.graphicOn v o)

/-- The run under a frame's state: the static graphic layers from the lowest z, up to the first that is not static. -/
def State.flatRunIn (s : State) (v : Table Word) (o : Nat) : List Nat :=
  (s.graphicOrder v o).takeWhile fun i => decide (s.gr v i 0 7 1 = 1)

/-- The run of the current frame. -/
def State.flatRun (s : State) (o : Nat) : List Nat := s.flatRunIn [] o

/-- What makes a run the same run: its layers, everything a commit gives them, and the surface. -/
def State.runKey (s : State) (v : Table Word) (o : Nat) : List Nat :=
  let run := s.flatRunIn v o
  run ++ (run.flatMap graphicRegs).map (fun r => (s.via v r.1 r.2.1).toNat) ++ [s.v64 v (compPage o) 0x10C]

/-- The flatten state of an output: 0 off, 1 live, 2 capture, 3 flattened. -/
def State.flatState (s : State) (o : Nat) : Nat := s.rfld (compPage o) 0x114 0 2

/-- The flatten state changes, with event 0x0B19; the layers of the run show whether the surface stands for them. -/
def flatTo (o dst : Nat) : Act := .look fun s =>
  let run := s.flatRun o
  acts [setRegN (compPage o) 0x114 (dst + 256 * run.length),
    forA (s.graphicOn [] o) fun i => setFld (gPage i) (blockOff i + 0x24) 3 1 (b2n (decide (dst = 3) && run.contains i)),
    whenA (decide (s.flatState o ≠ dst))
      (pageEvent (compPage o) 0x19 0 (natBytes 4 (s.flatState o + 4 * dst + 256 * run.length)))]

/-- The frames the run has been unchanged at the next line 0 under a state, and the flatten state from there: the run is
captured when it has been unchanged for `settle` frames, and read from the surface after a capture that has not failed.
An empty run stays live. -/
def State.flatNext (s : State) (v : Table Word) (o : Nat) : Nat × Nat :=
  let x := s.atOuts o
  let was := s.flatState o
  if s.vf v (compPage o) 0x104 16 1 = 0 then (0, 0)
  else
    let steady := if s.runKey v o = x.run ∧ was ≠ 0 ∧ ¬ x.flatBad then x.steady + 1 else 0
    (steady, if steady = 0 ∨ (s.flatRunIn v o).isEmpty then 1
      else if was = 2 ∨ was = 3 then 3
      else if s.vf v (compPage o) 0x104 20 4 ≤ steady then 2 else 1)

/-- The flatten state of the frame that begins. -/
def flatFrame (o : Nat) : Act := .look fun s =>
  let n := s.flatNext [] o
  acts [updOut o fun y => { y with run := if n.2 = 0 then [] else s.runKey [] o, steady := n.1, flatBad := false },
    flatTo o n.2, whenA (decide (n.2 = 2)) (bump (compPage o) 0x088 1), whenA (decide (n.2 = 3)) (bump (compPage o) 0x090 1)]

/-- The output returns to live composition within a frame. -/
def flatFail (o : Nat) : Act := .seq (updOut o fun y => { y with flatBad := true }) (flatTo o 1)

/-! ## Fetching ahead of the beam (R290, R291, R301, R315, R316) -/

/-- Whether a layer has been switched off for the rest of the frame. -/
def State.layerIsOff (s : State) (graphic : Bool) (slot : Nat) : Bool :=
  if graphic then s.rbit (gPage slot) (blockOff slot + 0x24) 2 else s.rbit (vPage slot) (blockOff slot + 0x18) 1

/-- A display fetch under asid 0 of a function, billet by billet: the bytes before the first that fails, and the cause of
R316; `fuel` bounds the billets. -/
def fetchRun (kind : ClientKind) (f : Func) (k : List Byte → Option Nat → Act) : Nat → Nat → Nat → List Byte → Act
  | 0, _, _, acc => k acc none
  | fuel + 1, va, n, acc =>
    let m := min n (2048 - va % 2048)
    if n = 0 then k acc none
    else virtRead ⟨kind, f⟩ 0 va m .read 0x0B22 0x0B22 fun r => match r with
      | .ok bs => fetchRun kind f k fuel (va + m) (n - m) (acc ++ bs)
      | .badSum => k acc (some 0x21)
      | _ => k acc (some 0x22)

/-- A row of `n` bytes is fetched. -/
def fetchRow (kind : ClientKind) (f : Func) (va n : Nat) (k : List Byte → Option Nat → Act) : Act :=
  fetchRun kind f k (n / 2048 + 2) va n []

/-- Rows fetched one after the other, each with its key, and the first cause met. -/
def fetchRows (kind : ClientKind) (f : Func) (n : Nat) (k : List (Nat × List Byte) → Option Nat → Act) :
    List (Nat × Nat) → List (Nat × List Byte) → Option Nat → Act
  | [], acc, c => k acc c
  | e :: l, acc, c => fetchRow kind f e.2 n fun bs x => fetchRows kind f n k l (acc ++ [(e.1, bs)]) (c.or x)

/-- The bytes fetched for a row. -/
def lineBytes (l : List (Nat × List Byte)) (y : Nat) : List Byte := ((l.find? fun e => decide (e.1 = y)).map Prod.snd).getD []

/-- The 32-bit words of bytes. -/
def wordsOf (bs : List Byte) : List Nat := (List.range (bs.length / 4)).map fun i => bytesNat (sliceBytes bs (4 * i) 4)

/-- A tap of a coefficient table as the output uses it in this frame (R301, R326). -/
def State.floorTap (s : State) (o table phase i : Nat) : Int :=
  signedOf (fld (tblGet regReset (regAddr floorPage (0x800 + 512 * table + 16 * phase + 4 * (i / 2))) (s.atOuts o).coef)
    (16 * (i % 2)) 16) 16

/-- The source rows a vertical filter of `n` taps reads at a position, within `lo` to `hi`. -/
def tapRows (pos : Int × Nat) (n lo hi : Nat) : List Nat :=
  ((List.range n).map fun (j : Nat) => clampTo lo hi (pos.1 - ((n + 1) / 2 : Nat) + 1 + (j : Int))).eraseDups

/-- The pixels of a row before the first whose taps reach past the samples fetched: `la` luma samples and `ca` chroma
pairs of every row. -/
def floorReach (c : FloorCfg) (la ca : Nat) : Nat :=
  let last (pos : Int × Nat) (lo hi : Nat) : Nat := clampTo lo hi (pos.1 - ((c.nh + 1) / 2 : Nat) + c.nh) - lo
  ((List.range c.dw).takeWhile fun x =>
    let h2 := floorPos x c.sw c.dw c.sx
    decide (last (tapPos h2 (2 * c.dw)) c.sx (c.sx + c.sw - 1) < la)
      && decide (last (tapPos h2 (4 * c.dw)) (c.sx / 2) ((c.sx + c.sw - 1) / 2) < ca)).length

/-- A layer's line is counted as it is fetched, and not again when an output that has taken other coefficient tables at
its line 0 fetches it anew (R326, R327). -/
def countLine (o slot line : Nat) (a : Act) : Act := .look fun s => whenA (!(s.atOuts o).again.contains (slot, line)) a

/-- The floor scaler draws a line of a layer strip from bracket a, or from b with a phase of at least 32,768, up to the
pixel at which a fetch fails (R291, R301, R316). -/
def floorLine (o : Nat) (v : Table Word) (slot line : Nat) (b : Bracket) (k : List Nat → Option Nat → Act) : Act :=
  .look fun s =>
  let r := (s.atStreams b.ctx).record
  let p010 := srP010 r
  let g (off lo len : Nat) : Nat := s.vl v slot off lo len
  let c : FloorCfg := {
    sx := g 4 0 13, sy := g 4 16 13, sw := g 8 0 13, sh := g 8 16 13, dw := g 0x10 0 13, dh := g 0x10 16 13,
    nh := g 0 19 3 + 1, nv := g 0 16 3 + 1, csc := g 0 22 2, full := decide (g 0 24 1 = 1), p010 := p010 }
  let pic := if b.phase < 32768 then b.a else b.b
  let row := line - g 0x0C 16 13
  let v2 := floorPos row c.sh c.dh c.sy
  let ys := tapRows (tapPos v2 (2 * c.dh)) c.nv c.sy (c.sy + c.sh - 1)
  let cs := tapRows (tapPos (v2 - c.dh) (4 * c.dh)) c.nv (c.sy / 2) ((c.sy + c.sh - 1) / 2)
  let e := if p010 then 2 else 1
  let n := c.sw * e
  let f := s.slotOwner slot
  let least (l : List (Nat × List Byte)) : Nat := l.foldl (fun m x => min m x.2.length) n
  fetchRows .floor f n (fun lr x1 =>
      fetchRows .floor f n (fun cr x2 =>
          let px := floorRow c (fun ph i => s.floorTap o (g 0 25 2) ph i)
            (fun x y => sample10 p010 (lineBytes lr y) (x - c.sx))
            (fun second x y => sample10 p010 (lineBytes cr y) (2 * (x - c.sx / 2) + b2n second)) row
          acts [countLine o slot line (.seq (bump (compPage o) 0x0A0 ((lr ++ cr).map fun y => y.2.length).sum)
              (bump floorPage 0x040 1)),
            k ((px.map rgbWord).take (if (x1.or x2).isNone then px.length
              else floorReach c (least lr / e) (least cr / (2 * e)))) (x1.or x2)])
        (cs.map fun y => (y, planeAddr r pic (2 * y) c.sx true)) [] none)
    (ys.map fun y => (y, planeAddr r pic y c.sx false)) [] none

/-- The part of a line fetched for a layer, or for the flattened surface. -/
def State.partOf (s : State) (o frame line : Nat) (graphic : Bool) (slot : Option Nat) : Option LinePart :=
  (s.atOuts o).ahead.find? fun p =>
    decide (p.frame = frame) && decide (p.line = line) && decide (p.graphic = graphic) && decide (p.slot = slot)

/-- A part of a line has been fetched. -/
def putPart (o : Nat) (p : LinePart) : Act := updOut o fun x => { x with ahead := x.ahead ++ [p] }

/-- Whether a layer's part of a line is not to be fetched: it has been, or the layer is off for the frame. -/
def State.partSettled (s : State) (o frame line : Nat) (graphic : Bool) (slot : Nat) : Bool :=
  (s.partOf o frame line graphic (some slot)).isSome || (decide (frame = s.frameOf o) && s.layerIsOff graphic slot)

/-- A video layer's part of a line, if it has one, is fetched: from its strip buffer or by the floor scaler, as the take
line fixed (R290). -/
def fetchVideo (o frame line slot : Nat) : Act := .look fun s =>
  let v := s.frameView o frame
  let dy := s.vl v slot 0x0C 16 13
  let dw := s.vl v slot 0x10 0 13
  let strip := (s.atLayers slot).strips.find? fun r =>
    decide (r.out = o) && decide (r.strip = line / 16) && decide (r.frame = frame)
  let put (ws : List Nat) (c : Option Nat) : Act := putPart o ⟨frame, line, false, some slot, s.vl v slot 0x0C 0 13, ws, c⟩
  whenA (!s.partSettled o frame line false slot && decide (dy ≤ line) && decide (line < dy + s.vl v slot 0x10 16 13))
    (optA strip fun r =>
      let base := s.v64 v (vPage slot) (rasterOff slot + 0x14) + r.serial % s.nbuf v o * bufSize dw
      if r.source = 1 then
        fetchRow .display (s.slotOwner slot) (base + line % 16 * (4 * dw)) (4 * dw) fun bs c =>
          .seq (countLine o slot line (bump (stripPage o) 0x0B8 bs.length)) (put (wordsOf bs) c)
      else whenA (decide (r.source = 2)) (floorLine o v slot line r.br put))

/-- A graphic layer's part of a line, if it has one, is fetched (R309). -/
def fetchGraphic (o frame line slot : Nat) : Act := .look fun s =>
  let v := s.frameView o frame
  let y := s.gr v slot 0x10 16 13
  let w := s.gr v slot 0x14 0 13
  whenA (!s.partSettled o frame line true slot && decide (y ≤ line) && decide (line < y + s.gr v slot 0x14 16 13))
    (fetchRow .display (s.unitAt ⟨.graphicPair, slot / 2⟩).owner
      (s.v64 v (gPage slot) (blockOff slot + 4) + (line - y) * s.gr v slot 0x0C 0 16) (4 * w) fun bs c =>
        .seq (bump (compPage o) 0x098 bs.length)
          (putPart o ⟨frame, line, true, some slot, s.gr v slot 0x10 0 13, wordsOf bs, c⟩))

/-- The surface's row of a line is fetched (R317). -/
def fetchSurface (o frame line : Nat) : Act := .look fun s =>
  let v := s.frameView o frame
  let w := s.hActive v o
  whenA (s.partOf o frame line true none).isNone
    (fetchRow .display (s.outOwner o) (s.v64 v (compPage o) 0x10C + line * (8 * w)) (8 * w) fun bs c =>
      .seq (bump (compPage o) 0x098 bs.length)
        (putPart o ⟨frame, line, true, none, 0,
          (List.range (bs.length / 8)).map fun i => bytesNat (sliceBytes bs (8 * i) 8), c⟩))

/-- What an active line of the current or the coming frame needs, and has not, is fetched: under the frame's own state,
with the run's layers or the surface in their place (R311, R312, R317). -/
def fetchLine (o frame line : Nat) : Act := .look fun s =>
  let v := s.frameView o frame
  let flat := if frame = s.frameOf o then s.flatState o else (s.flatNext v o).2
  let run := if flat = 0 then [] else s.flatRunIn v o
  let rest := (s.graphicOrder v o).filter fun i => !run.contains i
  whenA (decide (line < s.vActive v o) && s.outOn v o)
    (acts [forA (s.videoOn v o) (fetchVideo o frame line),
      if flat = 3 then whenA (!(decide (frame = s.frameOf o) && run.all fun i => s.layerIsOff true i))
        (fetchSurface o frame line) else forA run (fetchGraphic o frame line),
      forA rest (fetchGraphic o frame line)])

/-- The two lines after the one the beam is in are fetched (R315); after a frame's last line come those of the next one,
unless a gap does. -/
def fetchAhead (o : Nat) : Act := .look fun s =>
  let total := s.frameTotal o
  forA [s.lineOf o + 1, s.lineOf o + 2] fun n =>
    if n < total then fetchLine o (s.frameOf o) n else whenA (!s.gapNext o) (fetchLine o (s.frameAfter o) (n - total))

/-- The output returns to live composition within a frame, for a change of its run: the lines fetched ahead of the beam
with the surface are fetched again with the layers of the run that are left (R315, R317). -/
def flatLive (o : Nat) : Act := .look fun s =>
  let lines := [s.lineOf o + 1, s.lineOf o + 2].filter fun n =>
    decide (n < s.frameTotal o) && (s.partOf o (s.frameOf o) n true none).isSome
  acts [flatTo o 1,
    updOut o fun y => { y with ahead := y.ahead.filter fun p =>
      !(decide (p.frame = s.frameOf o) && decide (p.slot = none) && lines.contains p.line) },
    forA lines (fetchLine o (s.frameOf o))]

/-! ## The start of a frame (R312, R314, R321) -/

/-- Buffers retire: event 0x0B14 and an add to DC_RETIRE's semaphore (R314). -/
def retireBuffers (o seq : Nat) : Act := .look fun s =>
  let c := compPage o
  acts [bump c 0x068 1, raiseIrq c 12, pageEvent c 0x14 0 (natBytes 4 seq ++ natBytes 4 (s.frameOf o)),
    whenA (s.rbit c 0x118 15 && s.semBound (s.rfld c 0x118 0 12) (s.outOwner o)) (semAdd (s.rfld c 0x118 0 12) 1)]

/-- A writeback frame is skipped or has failed: cause, event 0x0B16 and its counter (R321). -/
def wbFail (o cause counter : Nat) : Act := .look fun s =>
  let p := evidPage o
  acts [updOut o fun y => { y with wb := none }, pageErr p cause, bump p counter 1, raiseIrq p 10,
    pageEvent p 0x16 (0x0B00 + cause) (natBytes 4 0 ++ natBytes 4 (s.frameOf o) ++ natBytes 2 (0x0B00 + cause))]

/-- Buffers of the writeback ring. -/
def State.wbBuffers (s : State) (o : Nat) : Nat := s.rfld (evidPage o) 0x400 1 3 + 1

/-- The frame's writeback buffer is chosen, if the ring has room. -/
def wbFrame (o : Nat) : Act := .look fun s =>
  let p := evidPage o
  if s.rfld p 0x400 0 1 = 0 then updOut o fun y => { y with wb := none }
  else if sub32 (s.reg p 0x41C).toNat (s.reg p 0x418).toNat < s.wbBuffers o then
    updOut o fun y => { y with wb := some ((s.reg p 0x41C).toNat % s.wbBuffers o) }
  else wbFail o 0x24 0x060

/-- The entries of the floor-scaler page, which an output uses from its next line 0. -/
def State.floorTables (s : State) : Table Word :=
  s.regs.filter fun e => decide (regAddr floorPage 0x800 ≤ e.1) && decide (e.1 < regAddr floorPage 0x1000)

/-- The strips an output's layers have for a frame leave them. -/
def dropFrame (o : Nat) (gone : StripRec → Bool) : Act := .look fun s =>
  forA (s.layers.map Prod.fst) fun slot => dropStrips slot fun r => decide (r.out = o) && gone r

/-- What panel sync has seen of its edges and pulses is forgotten: it begins anew with the next edge (R304). -/
def forgetSync (o : Nat) : Act := updOut o fun y => { y with edge := none, inWindow := 0, pulses := [] }

/-- The panel-sync state changes, with event 0x0B18 (R304). -/
def syncTo (o dst : Nat) : Act := .look fun s =>
  let was := s.rfld (linkPage o) 0x118 4 2
  whenA (decide (was ≠ dst)) (acts [setFld (linkPage o) 0x118 4 2 dst, raiseIrq (linkPage o) 11,
    pageEvent (linkPage o) 0x18 0 (natBytes 4 (was + 4 * dst))])

/-- Line 0 of a frame: the latched set applies, replaced buffers retire, and everything kept per frame begins anew. From
here the output uses the coefficient tables as they are, and lines fetched ahead with others are fetched again (R326). -/
def startFrame (o : Nat) : Act := .look fun s =>
  let x := s.atOuts o
  let c := compPage o
  let old := x.ahead.filter fun p => decide (p.frame = s.frameAfter o) && !p.graphic && decide (x.coef ≠ s.floorTables)
  acts [
    dropFrame o fun r => decide (r.frame = s.frameOf o),
    updOut o fun y => { y with
      retire := [], late := false, deferred := false, stale := false, offSeen := false, adj := 0,
      nextReq := y.aheadReq, aheadReq := 0, ahead := y.ahead.filter fun p => decide (p.frame = s.frameAfter o)
        && (p.graphic || decide (y.coef = s.floorTables)) },
    setRegN tbPage (lineOff o + 4) (s.frameOf o + 1), setRegN tbPage (lineOff o) (2 ^ 16),
    setReg64 tbPage (lineOff o + 8) s.time.toNat,
    optA x.latched fun g => applyGroup o g,
    forA x.retire (retireBuffers o),
    bump (linkPage o) 0x040 1,
    setRegN c 0x124 0, setRegN c 0x128 0, setRegN c 0x12C 0,
    .look fun t => .seq (forA (t.videoOn [] o) fun i => setFld (vPage i) (blockOff i + 0x18) 1 1 0)
      (forA (t.graphicOn [] o) fun i => setFld (gPage i) (blockOff i + 0x24) 2 1 0),
    .look fun t => updOut o fun y => { y with
      next := 0, coef := t.floorTables, crcs := List.replicate 16 0xFFFFFFFF, match_ := 0, miss := 0 },
    wbFrame o, flatFrame o, setFld (stripPage o) 0x104 0 8 0, showNextReq o,
    updOut o fun y => { y with again := old.filterMap fun p => p.slot.map fun i => (i, p.line) },
    .look fun t => forA [0, 1] (fetchLine o (t.frameOf o)),
    updOut o fun y => { y with again := [] },
    .look fun t => whenA (decide (t.vf [] (linkPage o) 0x114 7 1 = 0)) (.seq (forgetSync o) (syncTo o 0))]

/-- A frame ends in which panel sync has accepted no edge: one is missed (R327; DEDUCED, log entry 34). -/
def countMissed (o : Nat) : Act := .look fun s =>
  let seen := ((s.atOuts o).edge.map fun e => decide (s.t0Of o ≤ e.toNat)).getD false
  whenA (decide (s.vf [] (linkPage o) 0x114 7 1 = 1) && !seen) (bump (linkPage o) 0x078 1)

/-- FRAME_START: the frame after the last line begins. A latched set that retimes the output holds it in a gap until its
PLL locks; one that disables it ends the scan (R304, R312). -/
def actFrameStart (o : Fin 4) (now : Dword) : Act := .seq (tick now) (.look fun s =>
  let x := s.atOuts o.val
  whenA (s.scanning o.val && decide (x.next = s.frameTotal o.val))
    (acts [countMissed o.val, setFld (linkPage o.val) 0x118 8 8 (wrapInt x.adj 8), bump (linkPage o.val) 0x070 x.adj.natAbs,
      if s.gapNext o.val then
        acts [dropFrame o.val fun r => decide (r.frame = s.frameOf o.val), setFld (linkPage o.val) 0x118 0 2 0,
          setRegN tbPage (lineOff o.val) (2 ^ 17), setFld (stripPage o.val) 0x104 0 8 0xFF,
          updOut o.val fun y => { y with ahead := [] }, forgetSync o.val,
          optA x.latched fun g =>
            if s.outOn g.snap o.val then updOut o.val fun y => { y with gap := true }
            else acts [dropFrame o.val fun _ => true, applyGroup o.val g, flatTo o.val 0,
              syncTo o.val 0, updOut o.val fun y => { y with run := [], steady := 0, wb := none, next := 0 }]]
      else startFrame o.val]))

/-- FRAME_START. -/
def execFrameStart (o : Fin 4) (now : Dword) (s : State) : Host.Outcome State Fault Refusal :=
  meaning (.frameStart o now) (inService (actFrameStart o now)) s

/-- DISPLAY_PLL_LOCKED: the gap ends with line 0 of the first frame at the new timing (R312). -/
def actDisplayPllLocked (o : Fin 4) (now : Dword) : Act := .seq (tick now) (.look fun s =>
  whenA (s.atOuts o.val).gap
    (acts [updOut o.val fun y => { y with gap := false }, setFld (linkPage o.val) 0x118 0 2 3, startFrame o.val]))

/-- DISPLAY_PLL_LOCKED. -/
def execDisplayPllLocked (o : Fin 4) (now : Dword) (s : State) : Host.Outcome State Fault Refusal :=
  meaning (.displayPllLocked o now) (inService (actDisplayPllLocked o now)) s

/-! ## Layers of a line (R299, R316) -/

/-- A layer is switched off for the rest of the frame: flags, cause, counter, event 0x0B13, and an entry of the fault log
at unit scope (R316, R390). -/
def layerOff (o : Nat) (graphic : Bool) (slot line cause : Nat) : Act := .look fun s =>
  let c := compPage o
  whenA (!s.layerIsOff graphic slot)
    (acts [if graphic then .seq (setFld (gPage slot) (blockOff slot + 0x24) 2 1 1) (setFld c 0x12C slot 1 1)
        else .seq (setFld (vPage slot) (blockOff slot + 0x18) 1 1 1) (setFld c (0x124 + 4 * (slot / 32)) (slot % 32) 1 1),
      updOut o fun y => { y with offSeen := true },
      pageErr c cause, bump c (0x070 + 8 * (cause - 0x20)) 1, raiseIrq c 11,
      pageEvent c 0x13 (0x0B00 + cause) (natBytes 4 (slot + 64 * b2n graphic + 256 * (line % 2048)) ++ natBytes 2 (0x0B00 + cause)),
      flog (0x0B00 + cause) 2 (s.outOwner o) c 0 0xFFFF c])

/-- What composition has of a part: the words before the pixel of an underrun or of a failed fetch, and the cause that
switches the layer off from there, if one does (R316). -/
def cutPart (p : LinePart) (under : Option Underrun) : List Nat × Option Nat :=
  match under with
  | some u => if u.x - p.x < p.words.length then (p.words.take (u.x - p.x), some 0x20) else (p.words, p.fail)
  | none => (p.words, p.fail)

/-- The video layers' parts of a line in stacking order, each with its slot and the cause that switches it off. -/
def State.videoRuns (s : State) (o line : Nat) (under : List Underrun) : List (Nat × VideoRun × Option Nat) :=
  (sortZ (fun i => s.vl [] i 0 8 6) (s.videoOn [] o)).filterMap fun i =>
    if s.layerIsOff false i then none
    else (s.partOf o (s.frameOf o) line false (some i)).map fun p =>
      let c := cutPart p (under.find? fun u => !u.graphic && decide (u.slot = i))
      (i, ⟨p.x, s.vl [] i 0x14 0 8, c.1.map rgbOf⟩, c.2)

/-- Graphic layers' parts of a line, in the order given. -/
def State.graphicRuns (s : State) (o line : Nat) (under : List Underrun) (l : List Nat) :
    List (Nat × GfxRun × Option Nat) :=
  l.filterMap fun i =>
    if s.layerIsOff true i then none
    else (s.partOf o (s.frameOf o) line true (some i)).map fun p =>
      let c := cutPart p (under.find? fun u => u.graphic && decide (u.slot = i))
      (i, .layer p.x (s.gr [] i 0 8 2) (s.gr [] i 0x20 0 8) c.1, c.2)

/-- The surface's part of a line while it stands for the run, with the cause of its failure (R317). -/
def State.surfaceRun (s : State) (o line : Nat) (under : List Underrun) : Option (List Nat × Option Nat) :=
  let run := s.flatRun o
  if s.flatState o ≠ 3 ∨ (run.all fun i => s.layerIsOff true i) then none
  else (s.partOf o (s.frameOf o) line true none).map fun p =>
    cutPart p (under.find? fun u => u.graphic && run.contains u.slot)

/-- The capture of a line: the composite after the run's last layer goes to the surface. A failed write, or a layer of
the run switched off, abandons the capture (R317). -/
def captureRow (o line : Nat) (runParts : List GfxRun) : Act := .look fun s =>
  let w := s.hActive [] o
  if s.flatState o ≠ 2 then .done
  else if (s.flatRun o).any fun i => s.layerIsOff true i then flatFail o
  else virtWrite ⟨.display, s.outOwner o⟩ 0 (s.v64 [] (compPage o) 0x10C + line * (8 * w))
    ((List.range w).flatMap fun x => gfxBytes (gfxAt runParts x)) 0x0B22 0x0B22 none fun r =>
      if r = .ok then .done else .seq (pageErr (compPage o) 0x22) (flatFail o)

/-! ## Evidence of a line (R318 to R321) -/

/-- Position and size of check rectangle `r`. -/
def State.rect (s : State) (o r : Nat) : Nat × Nat × Nat × Nat :=
  let p := evidPage o
  (s.rfld p (0x104 + 32 * r) 0 13, s.rfld p (0x104 + 32 * r) 16 13, s.rfld p (0x108 + 32 * r) 0 13,
    s.rfld p (0x108 + 32 * r) 16 13)

/-- Whether check rectangle `r` is enabled. -/
def State.rectOn (s : State) (o r : Nat) : Bool := s.rbit (evidPage o) (0x100 + 32 * r) 0

/-- A rectangle's CRC at its last line: captured, and compared unless it only captures (R319). -/
def rectDone (o r crc : Nat) : Act := .look fun s =>
  let p := evidPage o
  let v := crc ^^^ 0xFFFFFFFF
  acts [setRegN p (0x110 + 32 * r) v, setRegN p (0x114 + 32 * r) (s.frameOf o),
    if s.rbit p (0x100 + 32 * r) 1 then bump p 0x050 1
    else .seq (bump p 0x040 1) (if (s.reg p (0x10C + 32 * r)).toNat = v then
        updOut o fun y => { y with match_ := y.match_ ||| 2 ^ r }
      else acts [updOut o fun y => { y with miss := y.miss ||| 2 ^ r }, bump p 0x048 1, raiseIrq p 8,
        setRegN p (0x118 + 32 * r) (satNat 0xFFFF (s.rfld p (0x118 + 32 * r) 0 16 + 1)), pageErr p 0x25])]

/-- A line's words enter the CRC of every enabled rectangle that covers it. -/
def rectLine (o line : Nat) (ws : List Nat) : Act := .look fun s =>
  forA ((List.range 16).filter fun r => s.rectOn o r) fun r =>
    let q := s.rect o r
    whenA (decide (q.2.1 ≤ line) && decide (line < q.2.1 + q.2.2.2))
      (.look fun t =>
        let c := (((ws.drop q.1).take q.2.2.1).flatMap fun w => natBytes 4 w).foldl crcByte ((t.atOuts o).crcs.getD r 0)
        .seq (updOut o fun y => { y with crcs := y.crcs.set r c })
          (whenA (decide (line + 1 = q.2.1 + q.2.2.2)) (rectDone o r c)))

/-- The result of a frame's rectangles, with event 0x0B15 for those that mismatch. -/
def rectFrame (o : Nat) : Act := .look fun s =>
  let x := s.atOuts o
  .seq (setRegN (evidPage o) 0x300 (x.match_ + 65536 * x.miss))
    (whenA (decide (x.miss ≠ 0)) (pageEvent (evidPage o) 0x15 0x0B25 (natBytes 4 x.miss ++ natBytes 4 (s.frameOf o))))

/-- The 128 bytes of a frame's record (R320); the rectangles matched, mismatched and enabled are one bit for each
rectangle, as in CR_RESULT (DEDUCED, log entry 33). -/
def wbRecord (s : State) (o i : Nat) : List Byte :=
  let x := s.atOuts o
  let p := evidPage o
  natBytes 4 (s.frameOf o)
    ++ natBytes 4 (i + 8 * b2n x.offSeen + 16 * b2n x.stale + 32 * b2n x.late + 64 * b2n x.deferred + 256 * (x.seq % 256)
      + 65536 * s.flatState o)
    ++ natBytes 8 (s.t0Of o) ++ natBytes 4 (x.match_ + 65536 * x.miss)
    ++ natBytes 4 (slotMask ((List.range 16).filter fun r => s.rectOn o r)) ++ List.replicate 40 0
    ++ (List.range 16).flatMap fun r => natBytes 4 (s.reg p (0x110 + 32 * r)).toNat

/-- A write of writeback; a failure ends the frame's writeback (R321). -/
def wbWrite (o va : Nat) (bs : List Byte) (good : Act) : Act := .look fun s =>
  virtWrite ⟨.writeback, s.outOwner o⟩ 0 va bs 0x0B23 0x0B23 none fun r => if r = .ok then good else wbFail o 0x23 0x070

/-- A line goes to the frame's writeback buffer; after the last line comes the record, then the semaphore, then WB_PROD
(R320). -/
def wbLine (o line : Nat) (ws : List Nat) : Act := .look fun s =>
  let p := evidPage o
  let pitch := s.rfld p 0x40C 0 16
  let size := ceilDiv (pitch * s.vActive [] o) 65536 * 65536
  optA (s.atOuts o).wb fun i =>
    wbWrite o (s.reg64 p 0x404 + i * size + line * pitch) (ws.flatMap fun w => natBytes 4 w)
      (.seq (bump p 0x068 (4 * ws.length)) (whenA (decide (line + 1 = s.vActive [] o)) (.look fun t =>
        wbWrite o (t.reg64 p 0x410 + 128 * i) (wbRecord t o i)
          (acts [whenA (t.rbit p 0x400 16 && t.semBound (t.rfld p 0x400 4 12) (t.outOwner o))
              (semAdd (t.rfld p 0x400 4 12) 1),
            setRegN p 0x41C ((t.reg p 0x41C).toNat + 1), bump p 0x058 1, raiseIrq p 9,
            updOut o fun y => { y with wb := none }]))))

/-! ## A line (R270, R299) -/

/-- A line is composed from the parts fetched for it, sent, checked and written back (an output that is re-bound gives no
result of its rectangles any more, R323); a layer whose fetch failed or
underran goes off, and with the surface the whole run (R299, R316, R317). -/
def composeLine (o : Fin 4) (line : Nat) (under : List Underrun) : Act := .look fun s =>
  let n := o.val
  let bg := rgbOf (s.reg (compPage n) 0x100).toNat
  let run := if s.flatState n = 0 then [] else s.flatRun n
  let vs := s.videoRuns n line under
  let surface := s.surfaceRun n line under
  let low := if s.flatState n = 3 then [] else s.graphicRuns n line under run
  let high := s.graphicRuns n line under ((s.graphicOrder [] n).filter fun i => !run.contains i)
  let gs := (surface.toList.map fun p => GfxRun.flat p.1) ++ (low ++ high).map fun e => e.2.1
  let ws := (List.range (s.hActive [] n)).map fun x =>
    sentWord (decide (s.vf [] (linkPage n) 0x114 1 1 = 1)) (finish (videoAt bg (vs.map fun e => e.2.1) x) (gfxAt gs x))
  acts [forA vs fun e => optA e.2.2 (layerOff n false e.1 line),
    optA (surface.bind Prod.snd) fun c => .seq (forA run fun i => layerOff n true i line c) (flatFail n),
    forA (low ++ high) fun e => optA e.2.2 (layerOff n true e.1 line),
    captureRow n line (low.map fun e => e.2.1), .eff (.out (.line o line ws)), rectLine n line ws,
    whenA (decide (line + 1 = s.vActive [] n) && decide ((s.unitAt (outUnit n)).state = .bound)) (rectFrame n), wbLine n line ws,
    updOut n fun y => { y with ahead := y.ahead.filter fun p => decide (p.frame ≠ s.frameOf n ∨ line < p.line) }]

/-- The lines by which panel sync moves the sync pulse of the current frame, to come nearest to the edges that follow the
last one accepted, within max_adj; none while there is no such edge (R304; the nearest line is a DESIGN CHOICE, log
entry 34). -/
def State.psyncAdj (s : State) (o : Nat) : Int :=
  let frame : Int := s.linesNs [] o (s.vTotal [] o)
  let pulse : Int := s.t0Of o + s.linesNs [] o (s.vActive [] o + s.vf [] (linkPage o) 0x10C 0 12)
  let most : Int := s.vf [] (linkPage o) 0x114 8 4
  match (s.atOuts o).edge with
  | none => 0
  | some e =>
    if s.vf [] (linkPage o) 0x114 7 1 = 0 ∨ frame = 0 then 0
    else
      let d := ((e.toNat : Int) - pulse) % frame
      let near := if frame < 2 * d then d - frame else d
      let den : Int := s.hTotal [] o * 1000000
      max (-most) (min most ((2 * near * s.khz [] o + den) / (2 * max 1 den)))

/-- The front porch of a frame begins: panel sync fixes the frame's lines and the time of its sync pulse (R304). -/
def beginPorch (o : Nat) : Act := .look fun s =>
  let adj := s.psyncAdj o
  let lines : Int := (s.vActive [] o + s.vf [] (linkPage o) 0x10C 0 12 : Nat) + adj
  updOut o fun y => { y with adj := adj, pulses := (s.t0Of o + s.linesNs [] o lines.toNat) :: y.pulses.take 1 }

/-- OUTPUT_LINE: the timing generator begins the next line of the frame; an active one is composed and scanned out,
strips whose last line it is leave their layers, and the line two after it is fetched (R6, R270, R290, R299, R315). -/
def actOutputLine (o : Fin 4) (line : Nat) (now : Dword) (under : List Underrun) : Act := .seq (tick now) (.look fun s =>
  let active := decide (line < s.vActive [] o.val)
  let strip := line / 16
  whenA (s.scanning o.val && decide (line = (s.atOuts o.val).next) && decide (line < s.frameTotal o.val))
    (acts [setRegN tbPage (lineOff o.val) (line + 2 ^ 16 * b2n active + 2 ^ 17 * b2n (!active)),
      setFld (stripPage o.val) 0x104 0 8 (if active then strip else 0xFF),
      whenA active (composeLine o line under),
      whenA (active && decide (line = (s.stripLines [] o.val strip).2))
        (dropFrame o.val fun r => decide (r.frame = s.frameOf o.val) && decide (r.strip = strip)),
      whenA (decide (line = s.vActive [] o.val)) (beginPorch o.val), fetchAhead o.val,
      updOut o.val fun y => { y with next := line + 1 }]))

/-- OUTPUT_LINE. -/
def execOutputLine (o : Fin 4) (line : Nat) (now : Dword) (under : List Underrun) (s : State) :
    Host.Outcome State Fault Refusal :=
  meaning (.outputLine o line now under) (inService (actOutputLine o line now under)) s

/-! ## The take line (R289, R290) -/

/-- TAKE_LINE: each layer strip's source is fixed, once: its buffer if it is complete, else the floor scaler; lines of the
strip that the beam has come within two of are fetched (R289, R290, R315). -/
def actTakeLine (o : Fin 4) (k : Nat) (now : Dword) : Act := .seq (tick now) (.look fun s =>
  .seq (forA (s.stripsAt o.val k fun v => s.takeOf v o.val) fun e => whenA (!e.2.taken)
    (.seq (updStrip e.1 e.2.serial fun x => { x with taken := true })
      (if e.2.source = 0 ∧ e.2.done.isSome then updStrip e.1 e.2.serial fun x => { x with source := 1 }
      else .seq (whenA (decide (e.2.source = 0)) (stripToFloor e.1 e.2.serial .take))
        (whenA (decide (e.2.source = 0 ∨ e.2.source = 2)) (bump (stripPage o.val) 0x058 1)))))
    (whenA (s.scanning o.val) (fetchAhead o.val)))

/-- TAKE_LINE. -/
def execTakeLine (o : Fin 4) (k : Nat) (now : Dword) (s : State) : Host.Outcome State Fault Refusal :=
  meaning (.takeLine o k now) (inService (actTakeLine o k now)) s

/-! ## DisplayPort (R303, R305) -/

/-- Event 0x0B17: link state or training result. -/
def linkEvent (o : Nat) (up failed : Bool) : Act := .look fun s =>
  pageEvent (linkPage o) 0x17 (if failed || !up then 0x0B26 else 0) (natBytes 4 (b2n up + 2 * b2n failed
    + 4 * s.rfld (linkPage o) 0x114 2 2 + 16 * s.rfld (linkPage o) 0x114 4 2))

/-- DP_TRAIN: training starts at the active lanes and rate; a go while training runs does nothing. -/
def actDpTrain (f : Func) (o : Fin 4) : Act := withWrite f (linkPage o.val) (.look fun s =>
  whenA (!s.rbit (linkPage o.val) 0x120 1) (.seq (setRegN (linkPage o.val) 0x120 2) (bump (linkPage o.val) 0x048 1)))

/-- DP_TRAIN. -/
def execDpTrain (f : Func) (o : Fin 4) (s : State) : Host.Outcome State Fault Refusal :=
  meaning (.dpTrain f o) (inService (actDpTrain f o)) s

/-- DP_TRAIN_DONE: training ends as done or failed. -/
def actDpTrainDone (o : Fin 4) (ok : Bool) : Act := .look fun s =>
  let p := linkPage o.val
  whenA (s.rbit p 0x120 1)
    (acts [setRegN p 0x120 (if ok then 4 else 8), setFld p 0x118 3 1 (b2n ok),
      whenA (!ok) (.seq (pageErr p 0x26) (bump p 0x050 1)), raiseIrq p 9,
      whenA (decide (s.rbit p 0x118 3 ≠ ok)) (raiseIrq p 8), linkEvent o.val ok (!ok)])

/-- DP_TRAIN_DONE. -/
def execDpTrainDone (o : Fin 4) (ok : Bool) (s : State) : Host.Outcome State Fault Refusal :=
  meaning (.dpTrainDone o ok) (inService (actDpTrainDone o ok)) s

/-- The link of an output is lost (R303, R390). -/
def linkLost (o : Nat) : Act := .look fun s =>
  let p := linkPage o
  whenA (s.rbit p 0x118 3)
    (acts [setFld p 0x118 3 1 0, pageErr p 0x26, bump p 0x058 1, raiseIrq p 8, linkEvent o false false,
      flog 0x0B26 3 (s.outOwner o) p 0 0xFFFF p])

/-- HPD_LOW_TIMEOUT: HPD has been low for more than 2 ms. -/
def actHpdLowTimeout (o : Fin 4) : Act := .seq (setFld (linkPage o.val) 0x118 2 1 0) (linkLost o.val)

/-- HPD_LOW_TIMEOUT. -/
def execHpdLowTimeout (o : Fin 4) (s : State) : Host.Outcome State Fault Refusal :=
  meaning (.hpdLowTimeout o) (inService (actHpdLowTimeout o)) s

/-- IRQ_HPD: the lane status is read, and a lane that is not locked drops the link. The pulse shows HPD high between it
and the next (DEDUCED, log entry 34). -/
def actIrqHpd (o : Fin 4) (locked : Bool) : Act :=
  .seq (setFld (linkPage o.val) 0x118 2 1 1) (whenA (!locked) (linkLost o.val))

/-- IRQ_HPD. -/
def execIrqHpd (o : Fin 4) (locked : Bool) (s : State) : Host.Outcome State Fault Refusal :=
  meaning (.irqHpd o locked) (inService (actIrqHpd o locked)) s

/-- A write of DP_AUX_CTL with go sets its fields (R4) and starts the transaction: a request code the device does not
have is refused with cause 0x27; go alone does nothing while a transaction runs (log entry 34). -/
def auxStart (f : Func) (o : Nat) (ctl : Word) : Act := withWrite f (linkPage o) (.look fun s =>
  let p := linkPage o
  .seq (setRegN p 0x130 (ctl.toNat % 2 ^ 28))
    (if s.rbit p 0x134 0 then .done
    else if [8, 9, 0, 1, 4, 5].contains (fld ctl 0 4) then .seq (setRegN p 0x134 1) (bump p 0x060 1) else pageErr p 0x27))

/-- AUX_NATIVE_WRITE. -/
def execAuxNativeWrite (f : Func) (o : Fin 4) (ctl : Word) (s : State) : Host.Outcome State Fault Refusal :=
  meaning (.auxNativeWrite f o ctl) (inService (auxStart f o.val (putFld ctl 0 4 8))) s

/-- AUX_NATIVE_READ. -/
def execAuxNativeRead (f : Func) (o : Fin 4) (ctl : Word) (s : State) : Host.Outcome State Fault Refusal :=
  meaning (.auxNativeRead f o ctl) (inService (auxStart f o.val (putFld ctl 0 4 9))) s

/-- AUX_I2C_WRITE. -/
def execAuxI2cWrite (f : Func) (o : Fin 4) (ctl : Word) (s : State) : Host.Outcome State Fault Refusal :=
  meaning (.auxI2cWrite f o ctl) (inService (auxStart f o.val (putFld ctl 0 4 0))) s

/-- AUX_I2C_READ. -/
def execAuxI2cRead (f : Func) (o : Fin 4) (ctl : Word) (s : State) : Host.Outcome State Fault Refusal :=
  meaning (.auxI2cRead f o ctl) (inService (auxStart f o.val (putFld ctl 0 4 1))) s

/-- AUX_I2C_WRITE_MOT. -/
def execAuxI2cWriteMot (f : Func) (o : Fin 4) (ctl : Word) (s : State) : Host.Outcome State Fault Refusal :=
  meaning (.auxI2cWriteMot f o ctl) (inService (auxStart f o.val (putFld ctl 0 4 4))) s

/-- AUX_I2C_READ_MOT. -/
def execAuxI2cReadMot (f : Func) (o : Fin 4) (ctl : Word) (s : State) : Host.Outcome State Fault Refusal :=
  meaning (.auxI2cReadMot f o ctl) (inService (auxStart f o.val (putFld ctl 0 4 5))) s

/-- AUX_REPLY: the transaction ends; a read's bytes go to the data registers. -/
def actAuxReply (o : Fin 4) (reply : AuxReply) : Act := .look fun s =>
  let p := linkPage o.val
  let code : Nat := match reply with | .ack _ => 0 | .nack => 1 | .defer => 2 | .timeout => 3
  let data : List Byte := match reply with | .ack d => d.take 16 | _ => []
  whenA (s.rbit p 0x134 0)
    (acts [forA (List.range data.length) fun i =>
        setFld p (0x140 + 4 * (i / 4)) (8 * (i % 4)) 8 ((data.getD i 0).toNat),
      setRegN p 0x134 (2 * code + 8 * data.length),
      whenA (decide (code = 1) || decide (code = 3)) (bump p 0x068 1), raiseIrq p 10,
      pageEvent p 0x1A 0 (natBytes 4 (2 * code + 8 * data.length))])

/-- AUX_REPLY. -/
def execAuxReply (o : Fin 4) (reply : AuxReply) (s : State) : Host.Outcome State Fault Refusal :=
  meaning (.auxReply o reply) (inService (actAuxReply o reply)) s

/-! ## Panel sync (R304) -/

/-- How far a time lies from the nearer of the latest sync pulses, where panel sync has put them, in ns. -/
def State.pulseGap (s : State) (o t : Nat) : Nat :=
  (s.atOuts o).pulses.foldl (fun m p => min m (max p t - min p t)) (2 ^ 64)

/-- PSYNC_EDGE: an edge whose period differs from the frame period by more than 5 % is ignored; four accepted edges in a
row within one line of the pulse lock. -/
def actPsyncEdge (o : Fin 4) (now : Dword) : Act := .seq (tick now) (.look fun s =>
  let x := s.atOuts o.val
  let frame := s.linesNs [] o.val (s.vTotal [] o.val)
  let ok : Bool := match x.edge with
    | none => true
    | some e => let d := now.toNat - e.toNat
      decide (20 * (max d frame - min d frame) ≤ frame)
  let win := if s.pulseGap o.val now.toNat ≤ s.linesNs [] o.val 1 then x.inWindow + 1 else 0
  whenA (s.scanning o.val && decide (s.vf [] (linkPage o.val) 0x114 7 1 = 1) && ok)
    (.seq (updOut o.val fun y => { y with edge := some now, inWindow := win })
      (if 4 ≤ win then syncTo o.val 2
      else if s.rfld (linkPage o.val) 0x118 4 2 = 2 then .done else syncTo o.val 1)))

/-- PSYNC_EDGE. -/
def execPsyncEdge (o : Fin 4) (now : Dword) (s : State) : Host.Outcome State Fault Refusal :=
  meaning (.psyncEdge o now) (inService (actPsyncEdge o now)) s

/-- PSYNC_LOST: no edge has been accepted for two frame periods, and the output runs free. -/
def actPsyncLost (o : Fin 4) : Act := .look fun s =>
  whenA (s.scanning o.val && decide (s.vf [] (linkPage o.val) 0x114 7 1 = 1)
      && decide (s.rfld (linkPage o.val) 0x118 4 2 ≠ 3))
    (acts [updOut o.val fun y => { y with edge := none, inWindow := 0 }, pageErr (linkPage o.val) 0x28, syncTo o.val 3])

/-- PSYNC_LOST. -/
def execPsyncLost (o : Fin 4) (s : State) : Host.Outcome State Fault Refusal :=
  meaning (.psyncLost o) (inService (actPsyncLost o)) s

end Sys2Proof.Machine
end

