-- ==== Sys2Proof/Machine/HostPort.lean ====
section
/-! DEFINITION. The host port: the link, the doorbells, the event rings and the job rings (R23, R28 to R30, R39 to R41).
-/

namespace Sys2Proof.Machine

/-- A write of a function to its own global page: taken in service, and from the PF also in recovery and out of service
(R373, R401). -/
def globalWrite (f : Func) (a : Act) : Act := whenServed f (globalPage f) (withWrite f (globalPage f) a)

/-! ## The link (R23) -/

/-- LINK_CHANGE (R23): the link reports its speed and width. Below ×8 at 16.0 GT/s, or lower than before, it is
degraded and event 0x0111 goes to the PF. A link that has trained lets the release of a PCI Express reset go on (R396). -/
def actLinkChange (speed width : Nat) : Act := .look fun s =>
  let lower := decide (speed < s.rfld 0 0x20C 0 4) || decide (width < s.rfld 0 0x20C 8 4)
  let degraded := decide (speed < 4) || decide (width < 8)
  whenA (decide (s.phase ≠ .held))
    (acts [.eff (.linkWait false), setRegN 0 0x20C (speed + 256 * width + 65536 * b2n degraded),
      whenA (degraded || lower) (putEvent 0 0 0x0111 0 0 0 (natBytes 4 (speed + 256 * width)))])

/-- LINK_CHANGE. -/
def execLinkChange (speed width : Nat) (s : State) : Host.Outcome State Fault Refusal :=
  meaning (.linkChange speed width) (actLinkChange speed width) s

/-! ## Doorbells (R28, R29) -/

/-- A doorbell of a function for one of its own rings: dropped with 0x04 while the function resets. -/
def ringDoorbell (f : Func) (a : Act) : Act := .look fun s =>
  if !s.present f then .done else if s.resetting f then hostErr f 0x04 else a

/-- JOB_RING_PRODUCER_DOORBELL (R29): a value in the window of an enabled ring becomes JR_PROD. -/
def actJobRingProducerDoorbell (f : Func) (n : Fin 8) (v : Word) : Act := ringDoorbell f (.look fun s =>
  let g := globalPage f
  if s.jrOn f n.val ∧ sub32 v.toNat (s.reg g (jrOff n.val + 0x14)).toNat ≤ 2 ^ s.rfld g (jrOff n.val + 8) 0 5 then
    setReg g (jrOff n.val + 0x10) v
  else hostErr f 0x12)

/-- JOB_RING_PRODUCER_DOORBELL. -/
def execJobRingProducerDoorbell (f : Func) (ring : Fin 8) (value : Word) (s : State) :
    Host.Outcome State Fault Refusal :=
  meaning (.jobRingProducerDoorbell f ring value) (inService (actJobRingProducerDoorbell f ring value)) s

/-- The overflow marker: the first record after drops, once the ring has room (R40). -/
def overflowMarker (f : Func) (n : Nat) : Act := .look fun s =>
  let r := s.atRings (ringKey f n)
  whenA (decide (0 < r.pendingDrop) && !evrFull s f n)
    (.seq (.eff (.rings (ringKey f n) { r with pendingDrop := 0 }))
      (writeRecord f n 0x0110 n 0 0 (natBytes 4 r.pendingDrop ++ natBytes 4 (s.reg (globalPage f) (evrOff n + 24)).toNat)))

/-- EVENT_RING_CONSUMER_DOORBELL (R29, R40). -/
def actEventRingConsumerDoorbell (f : Func) (n : Fin 8) (v : Word) : Act := ringDoorbell f (.look fun s =>
  let g := globalPage f
  let cons := (s.reg g (evrOff n.val + 20)).toNat
  if evrOn s f n.val ∧ sub32 v.toNat cons ≤ sub32 (s.reg g (evrOff n.val + 16)).toNat cons then
    .seq (setReg g (evrOff n.val + 20) v) (overflowMarker f n.val)
  else hostErr f 0x12)

/-- EVENT_RING_CONSUMER_DOORBELL. -/
def execEventRingConsumerDoorbell (f : Func) (ring : Fin 8) (value : Word) (s : State) :
    Host.Outcome State Fault Refusal :=
  meaning (.eventRingConsumerDoorbell f ring value) (inService (actEventRingConsumerDoorbell f ring value)) s

/-- SEMAPHORE_SIGNAL_DOORBELL (R28, R189). -/
def actSemaphoreSignalDoorbell (f : Func) (n : Fin 4096) (v : Word) : Act := doorbell f (semUnit n.val) (semAdd n.val v)

/-- SEMAPHORE_SIGNAL_DOORBELL. -/
def execSemaphoreSignalDoorbell (f : Func) (sem : Fin 4096) (value : Word) (s : State) :
    Host.Outcome State Fault Refusal :=
  meaning (.semaphoreSignalDoorbell f sem value) (inService (actSemaphoreSignalDoorbell f sem value)) s

/-! ## Event rings (R39) -/

/-- EVENT_RING_INTERRUPT_TIMER (R39): the time threshold of EVR_MOD fires the ring's interrupt. -/
def actEventRingInterruptTimer (f : Func) (n : Fin 8) (now : Dword) : Act := .seq (tick now) (.look fun s =>
  let g := globalPage f
  let r := s.atRings (ringKey f n.val)
  let limit := s.rfld g (evrOff n.val + 12) 16 16
  whenA (evrOn s f n.val && decide (limit ≠ 0) && decide (0 < r.unsignalled)
      && decide (r.firstAt.toNat + 1000 * limit ≤ s.time.toNat)
      && decide (s.reg g (evrOff n.val + 16) ≠ s.reg g (evrOff n.val + 20)))
    (.seq (.eff (.rings (ringKey f n.val) { r with unsignalled := 0 })) (fireVector f (s.rfld g (evrOff n.val + 8) 16 11))))

/-- EVENT_RING_INTERRUPT_TIMER. -/
def execEventRingInterruptTimer (f : Func) (ring : Fin 8) (now : Dword) (s : State) :
    Host.Outcome State Fault Refusal :=
  meaning (.eventRingInterruptTimer f ring now) (inService (actEventRingInterruptTimer f ring now)) s

/-- A write of a ring's configuration register, EVR_CFG or JR_CFG at `off` with protected fields `mask`: while the ring
is enabled the protected fields keep their values, with cause 0x13 if the write would change one, and `enable` applies;
a ring not enabled takes the fields, and `enable` starts it if its base and size pass, with cause 0x14 if not (R39,
R41). A write of enable = 1 to a ring already enabled neither validates again nor restarts it (DESIGN CHOICE, log
entry 53). -/
def ringCfg (f : Func) (off : Nat) (mask : Word) (maxLog : Nat) (v : Word) (start : Act) : Act := .look fun s =>
  let g := globalPage f
  let old := s.reg g (off + 8)
  if bit old 31 then
    .seq (whenA (decide (v &&& mask ≠ old &&& mask)) (hostErr f 0x13)) (setFld g (off + 8) 31 1 (b2n (bit v 31)))
  else if bit v 31 then
    if fld (s.reg g off) 0 12 = 0 ∧ 6 ≤ fld v 0 5 ∧ fld v 0 5 ≤ maxLog then .seq (setReg g (off + 8) v) start
    else .seq (setRegN g (off + 8) (v.toNat % 2 ^ 31)) (hostErr f 0x14)
  else setReg g (off + 8) v

/-- An event ring starts at index 0 (R39); what was kept for the PF's ring 0 is written first (R372, R396). -/
def startEvr (f : Func) (n : Nat) : Act := .look fun s =>
  let g := globalPage f
  acts [setRegN g (evrOff n + 16) 0, setRegN g (evrOff n + 20) 0, setRegN g (evrOff n + 24) 0,
    .eff (.rings (ringKey f n) {}),
    whenA (decide (f = 0 ∧ n = 0))
      (.seq (.eff (.owed [])) (forA s.owed fun (e : Nat × List Byte) => putEvent 0 0 e.1 0 0 0 e.2))]

/-- A write of EVR_CFG (R39). -/
def writeEvrCfg (f : Func) (n : Nat) (v : Word) : Act := ringCfg f (evrOff n) 0x07FF001F 16 v (startEvr f n)

/-- EVENT_RING_ENABLE. -/
def execEventRingEnable (f : Func) (ring : Fin 8) (cfg : Word) (s : State) : Host.Outcome State Fault Refusal :=
  meaning (.eventRingEnable f ring cfg) (globalWrite f (writeEvrCfg f ring.val (cfg ||| 0x80000000))) s

/-- EVENT_RING_DISABLE. -/
def execEventRingDisable (f : Func) (ring : Fin 8) (cfg : Word) (s : State) : Host.Outcome State Fault Refusal :=
  meaning (.eventRingDisable f ring cfg) (globalWrite f (writeEvrCfg f ring.val (cfg &&& 0x7FFFFFFF))) s

/-! ## Job rings (R41) -/

/-- A job ring starts at index 0 (R41). One that had halted is halted no more and shows no code, and JR_SEQ keeps the
number it expects (DESIGN CHOICE, log entry 62). -/
def startJr (f : Func) (n : Nat) : Act :=
  let g := globalPage f
  acts [setRegN g (jrOff n + 0x10) 0, setRegN g (jrOff n + 0x14) 0, setRegN g (jrOff n + 0x18) 0]

/-- A write of JR_CFG (R41). -/
def writeJrCfg (f : Func) (n : Nat) (v : Word) : Act := ringCfg f (jrOff n) 0x0000001F 12 v (startJr f n)

/-- JOB_RING_ENABLE. -/
def execJobRingEnable (f : Func) (ring : Fin 8) (cfg : Word) (s : State) : Host.Outcome State Fault Refusal :=
  meaning (.jobRingEnable f ring cfg) (globalWrite f (writeJrCfg f ring.val (cfg ||| 0x80000000))) s

/-- JOB_RING_DISABLE. -/
def execJobRingDisable (f : Func) (ring : Fin 8) (cfg : Word) (s : State) : Host.Outcome State Fault Refusal :=
  meaning (.jobRingDisable f ring cfg) (globalWrite f (writeJrCfg f ring.val (cfg &&& 0x7FFFFFFF))) s

/-- JR_SEQ_WRITE (R41). -/
def writeJrSeq (f : Func) (n : Nat) (v : Word) : Act := .look fun s =>
  if s.jrOn f n ∧ ¬ s.jrHalted f n then hostErr f 0x13 else setReg (globalPage f) (jrOff n + 0x0C) v

/-- JR_SEQ_WRITE. -/
def execJrSeqWrite (f : Func) (ring : Fin 8) (value : Word) (s : State) : Host.Outcome State Fault Refusal :=
  meaning (.jrSeqWrite f ring value) (globalWrite f (writeJrSeq f ring.val value)) s

/-- JR_CTL.restart (R41). -/
def jrRestart (f : Func) (n : Nat) : Act := setFld (globalPage f) (jrOff n + 0x18) 0 1 0

/-- JOB_RING_RESTART. -/
def execJobRingRestart (f : Func) (ring : Fin 8) (s : State) : Host.Outcome State Fault Refusal :=
  meaning (.jobRingRestart f ring) (globalWrite f (jrRestart f ring.val)) s

/-- JR_CTL.skip (R41). -/
def jrSkip (f : Func) (n : Nat) : Act := .look fun s =>
  let g := globalPage f
  if s.jrHalted f n then
    .seq (setRegN g (jrOff n + 0x14) ((s.reg g (jrOff n + 0x14)).toNat + 1)) (jrRestart f n)
  else hostErr f 0x13

/-- JOB_RING_SKIP. -/
def execJobRingSkip (f : Func) (ring : Fin 8) (s : State) : Host.Outcome State Fault Refusal :=
  meaning (.jobRingSkip f ring) (globalWrite f (jrSkip f ring.val)) s

end Sys2Proof.Machine
end

