-- ==== Sys2Proof/Machine/EngState.lean ====
section
/-! DEFINITION. What an engine shows of itself: its state code, its resume point and its 128-byte state record (R194,
R197, R200, R201). -/

namespace Sys2Proof.Machine

/-- The code of a state (R200). -/
def engCode : EngState → Nat
  | .idle => 0
  | .loading => 1
  | .running => 2
  | .waiting => 3
  | .armed => 4
  | .faulted => 5
  | .refused => 6
  | .stopped => 7

/-- The index in dimension `j` of byte `lin` of unit `u`: inner dimensions from the byte, outer ones from the unit
(R180). -/
def posIndex (d : BitVec 512) (u lin j : Nat) : Nat :=
  let ud := sdUnitDims d
  let below (a b : Nat) : Nat := ((List.range (b - a)).map fun i => sdCount d (a + i)).foldl (· * ·) 1
  if sdNdims d ≤ j then 0
  else if j < ud then lin / below 0 j % max 1 (sdCount d j)
  else u / below ud j % max 1 (sdCount d j)

/-- Whether a request of an add pass has retired. -/
def reqRetired (p : EPass) (r : EReq) : Bool := p.doneUnits.contains r.unit || p.doneReqs.contains (reqOrder r)

/-- The oldest unretired request of an add pass and the mask of those after it that retired (R194). -/
def addResume (dev : Nat) (p : EPass) : Option EReq × Nat :=
  match (openReqs dev p).dropWhile (reqRetired p) with
  | [] => (none, 0)
  | r :: l => (some r, ((List.range 64).zip l).foldl (fun m e => if reqRetired p e.2 then m + 2 ^ e.1 else m) 0)

/-- The bytes of a unit before a request. -/
def bytesBefore (dev : Nat) (p : EPass) (r : EReq) : Nat :=
  ((unitReqs dev p.desc p.index r.unit).filter fun x => decide (x.idx < r.idx)).foldl (fun n x => n + x.len) 0

/-- The resume or current position of a pass: the indices, the completed-unit mask and the retired-request mask (R194,
R197). -/
def resumePoint (dev : Nat) (p : EPass) : (Nat → Nat) × Nat × Nat :=
  let mask := (List.range 16).foldl (fun m i => if p.doneUnits.contains (p.signalled + 1 + i) then m + 2 ^ i else m) 0
  if sdIsAdd p.desc then
    match addResume dev p with
    | (some r, m) => (posIndex p.desc r.unit (bytesBefore dev p r), mask, m)
    | (none, m) => (posIndex p.desc p.taken 0, mask, m)
  else (posIndex p.desc p.signalled 0, mask, 0)

/-- The number in its pass of the oldest unretired request of the next descriptor (R197). -/
def nextOldest (dev : Nat) (p : EPass) : Nat :=
  ((openReqs dev p).takeWhile (reqRetired p)).length

/-- The state a code stands for (R200). -/
def engStateOf (n : Nat) : EngState :=
  ([EngState.idle, .loading, .running, .waiting, .armed, .faulted, .refused, .stopped][n]?).getD .idle

/-- The engine state record (R197). -/
def engRecord (dev : Nat) (st : EngineSt) (fault : Nat × Nat) : List Byte :=
  let head : Nat := engCode st.atStop + 8 * b2n st.shadow.isSome
  let cur : List Byte := match st.cur with
    | none => natBytes 4 head ++ List.replicate 20 0
    | some p =>
      let r := resumePoint dev p
      let i := r.1
      natBytes 4 (head + 16 * (p.taken - p.signalled) + 65536 * r.2.1)
        ++ natBytes 4 (i 0 + 65536 * i 1) ++ natBytes 4 (i 2 + 4096 * i 3) ++ natBytes 4 (i 4 + 65536 * p.index)
        ++ natBytes 8 r.2.2
  let ra := st.shadow.getD ⟨0, 0, 0⟩
  let nxt : List Byte := match st.nxt with
    | none => List.replicate 16 0
    | some p =>
      let add := if sdIsAdd p.desc then (nextOldest dev p, (addResume dev p).2) else (0, 0)
      natBytes 4 (p.taken + 65536 * (List.range 16).foldl (fun m i => if p.doneUnits.contains i then m + 2 ^ i else m) 0)
        ++ natBytes 4 add.1 ++ natBytes 8 add.2
  natBytes 64 ((st.cur.map fun p => p.desc.toNat).getD 0) ++ cur
    ++ (if st.atStop = .faulted then natBytes 4 fault.1 ++ natBytes 4 (fault.1 / 2 ^ 32 % 65536 + 65536 * fault.2)
        else List.replicate 8 0)
    ++ natBytes 6 ra.src ++ natBytes 6 ra.dst ++ natBytes 4 ra.seq ++ nxt

/-- Pending index shadows as a save image holds them: 8 entries of 24 bytes, by list index (R188, R249). -/
def pendRecord (st : EngineSt) : List Byte :=
  ((List.range 8).flatMap fun i => match st.pend.find? fun x => decide (x.1 = i) with
    | some x => natBytes 8 x.2.src ++ natBytes 8 x.2.dst ++ natBytes 4 (x.2.seq % 2 ^ 24 + 2 ^ 31) ++ natBytes 4 0
    | none => List.replicate 24 0)

/-! ## Reading a state record back (R197, R250) -/

/-- A number of `n` bytes of a record. -/
def recNum (bs : List Byte) (i n : Nat) : Nat := bytesNat (sliceBytes bs i n)

/-- The unit, and the byte of it, that a resume point's indices name. -/
def unitOfIndices (d : BitVec 512) (i : Nat → Nat) : Nat × Nat :=
  let ud := sdUnitDims d
  let place (a n : Nat) : Nat :=
    ((List.range n).foldl (fun m j => (m.1 + i (a + j) * m.2, m.2 * max 1 (sdCount d (a + j)))) (0, 1)).1
  (place ud (sdNdims d - ud), place 0 ud)

/-- The places of the bits set in a mask of `n` bits. -/
def maskBits (n mask : Nat) : List Nat := (List.range n).filter fun i => mask.testBit i

/-- The requests of an add pass that had retired: those before the oldest unretired one, number `first` of the open ones,
and those the mask gives after it. -/
def retiredOf (dev : Nat) (p : EPass) (first mask : Nat) : List Nat :=
  let l := openReqs dev p
  if sdIsAdd p.desc then
    (l.take first ++ (maskBits 64 mask).filterMap fun i => l[first + 1 + i]?).map reqOrder
  else []

/-- The current pass of a state record, which has one unless the engine was idle. -/
def passOfRecord (dev : Nat) (bs : List Byte) : Option EPass :=
  let d := BitVec.ofNat 512 (recNum bs 0 64)
  let w := recNum bs 0x40 4
  let i (j : Nat) : Nat := match j with
    | 0 => recNum bs 0x44 2
    | 1 => recNum bs 0x46 2 % 4096
    | 2 => recNum bs 0x48 4 % 4096
    | 3 => recNum bs 0x48 4 / 4096 % 4096
    | _ => recNum bs 0x4C 2 % 4096
  let u := unitOfIndices d i
  let p : EPass := {
    desc := d, index := recNum bs 0x4E 2, started := decide (w % 8 ≠ 4), taken := u.1 + w / 16 % 32, signalled := u.1,
    doneUnits := (maskBits 16 (w / 65536)).map fun k => u.1 + 1 + k }
  let first := ((openReqs dev p).takeWhile fun r => decide (r.unit = u.1) && decide (bytesBefore dev p r < u.2)).length
  if d = 0 then none else some { p with doneReqs := retiredOf dev p first (recNum bs 0x50 8) }

/-- The progress of the next descriptor's pass that a state record gives. -/
def nextOfRecord (dev : Nat) (p0 : EPass) (bs : List Byte) : EPass :=
  let w := recNum bs 0x70 4
  let p : EPass := { p0 with taken := w % 32, doneUnits := maskBits 16 (w / 65536), doneReqs := [] }
  { p with doneReqs := if w = 0 then [] else retiredOf dev p (recNum bs 0x74 4) (recNum bs 0x78 8) }

/-- The index shadows of a pending record. -/
def pendOfRecord (ps : List Byte) : List (Nat × Rearm) :=
  (List.range 8).filterMap fun i =>
    let w := recNum ps (24 * i + 16) 4
    if w.testBit 31 then some (i, ⟨recNum ps (24 * i) 8, recNum ps (24 * i + 8) 8, w % 2 ^ 24⟩) else none

/-- An engine as its state record and its pending record give it; its list, the descriptor after the current one, whether
its pass had ended since the stop was asked (the record shows the state at that moment, and a pass that has ended stands
armed, R187, R197), and the requests that had never issued, by which the bytes rewritten are counted (R195, R202), are
those it had. -/
def engOfRecord (dev : Nat) (kept : EngineSt) (bs ps : List Byte) : EngineSt :=
  let w := recNum bs 0x40 4
  { kept with
    atStop := engStateOf (w % 8),
    cur := (passOfRecord dev bs).map fun p => { p with
      todo := (kept.cur.map fun q => q.todo).getD [], started := p.started && (kept.cur.map fun q => q.started).getD true },
    nxt := kept.nxt.map fun p => nextOfRecord dev p bs,
    shadow := if w.testBit 3 then some ⟨recNum bs 0x60 6, recNum bs 0x66 6, recNum bs 0x6C 4 % 2 ^ 24⟩ else none,
    pend := pendOfRecord ps }

end Sys2Proof.Machine
end

