-- ==== Sys2Proof/Machine/Scheduler.lean ====
section
/-! DEFINITION. The scheduler and the ranger: batch jobs, dispatch, saves and restores, teardown, and the lanes (chapter
12, with R254, R286 and R289 of the raster pipeline). -/

namespace Sys2Proof.Machine

/-! ## Batch jobs (R238 to R241) -/

/-- The client that reads job bodies and handle maps. -/
def jobClient (f : Func) : StackClient := ⟨.job, f⟩

/-- asid of a batch job. -/
def bjAsid (d : BitVec 1024) : Nat := jobInline d 0x40 4 % 4

/-- lane of a batch job, with lane_on = 1. -/
def bjLane (d : BitVec 1024) : Option Nat :=
  if bit d (512 + 19) then some (fld d (512 + 8) 11) else none

/-- cop of a batch job. -/
def bjCop (d : BitVec 1024) : Nat := jobInline d 0x44 6

/-- cop_len of a batch job. -/
def bjCopLen (d : BitVec 1024) : Nat := jobInline d 0x4A 2

/-- A must-be-0 field of the inline bytes is set. -/
def bjMbz (d : BitVec 1024) : Bool :=
  decide (fld d (512 + 2) 6 ≠ 0) || decide (fld d (512 + 20) 12 ≠ 0) || decide (fld d (8 * 0x4C) (8 * 0x30) ≠ 0)

/-- Whether a body length is valid for a class. -/
def bodyLenOk (cls n : Nat) : Bool := decide (n % 64 = 0) && decide (64 ≤ n ∧ n ≤ 256 * 64) && (decide (cls = 0) || decide (n = 64))

/-- The entries of a body. -/
def bodyEntries (bs : List Byte) : List (BitVec 512) :=
  (List.range (bs.length / 64)).map fun i => BitVec.ofNat 512 (bytesNat (sliceBytes bs (64 * i) 64))

/-- The first check an entry fails (R240). -/
def entryRefusal (s : State) (f : Func) (cls : Nat) (b : BitVec 512) : Option Nat :=
  let c := bodyClaim b
  if fld b 48 16 ≠ 0 ∨ fld b 112 16 ≠ 0 ∨ fld b 435 13 ≠ 0 ∨ bit b 451 ∨ fld b 456 24 ≠ 0 ∨ fld b 480 32 ≠ 0
      ∨ bodyProg b % 64 ≠ 0 ∨ bodyHmap b % 64 ≠ 0 ∨ (bodyLd b).1 % 64 ≠ 0 ∨ (bodySt b).1 % 64 ≠ 0
      ∨ bodyCmpl b % 16 ≠ 0 ∨ fld b 304 16 = 0 ∨ bodySave b % 4096 ≠ 0
      ∨ (cls = 1 ∧ (bodySave b ≠ 0 ∨ bodySaveKib b ≠ 0)) then some 0x0915
  else if 64 < c.2 ∨ (0 < c.2 ∧ (c.1 / 64 ≠ (c.1 + c.2 - 1) / 64 ∨ ¬ s.semBound c.1 f))
      ∨ ((bodyPool b).map fun q => !s.boundTo ⟨.pooled, q⟩ f) = some true then some 0x091C
  else none

/-- Whether a job may name its lane (R239). -/
def laneOk (s : State) (f : Func) (d : BitVec 1024) : Bool :=
  match bjLane d with
  | none => decide (jobClass d = 0)
  | some l => decide (l < 1088) && decide ((l < 1024) ↔ (jobClass d = 0)) && s.boundTo (laneUnit l) f

/-- The checks of a batch job that need no body (R238, R239). -/
def batchRefusal (s : State) (f : Func) (d : BitVec 1024) : Option Nat :=
  let t := jobTarget d
  if jobClass d = 2 then some 0x0910
  else if t ≠ 0xFFFF ∧ (32 ≤ t ∨ jobClass d = 1 ∨ ¬ s.serves t (jobClass d) f) then some 0x0912
  else if t ≠ 0xFFFF ∧ jobEpoch d ≠ (s.unitAt (arrUnit t)).epoch.toNat then some 0x0503
  else if jobClass d = 1 ∧ jobDeadline d ≠ 0 then some 0x0915
  else if jobBodyHost d ∨ ¬ bodyLenOk (jobClass d) (jobBodyLen d) then some 0x0911
  else if bjMbz d then some 0x0905
  else if ¬ laneOk s f d then some 0x091B
  else none

/-- A batch job is refused: its error in the submitter's page, event 0x0910 with status 5, and its completion (R240,
R261). `quiet` leaves the error out (R298). -/
def refuseBatch (j : Nat) (code : Nat) (quiet : Bool) : Act := .look fun s =>
  optA (s.atJobs j) fun job =>
    acts [whenA (!quiet) (recordErr (globalPage job.func) code),
      jobEvent job.func job.desc schedPage 0x10 code
        (batchPayload 5 false 0 (jobTag job.desc) code (jobBodyLen job.desc / 64)),
      endJob j job.desc]

/-- The entries of an accepted class-0 job enter the table, waiting. -/
def addEntries (j : Nat) (f : Func) (n : Fin 8) (d : BitVec 1024) (full cop : List (BitVec 512)) : Act :=
  forA (List.range full.length) fun i => .look fun s =>
    .seq (.eff (.entries s.entryNext (some {
        job := j, func := f, cls := 0, lane := bjLane d, asid := bjAsid d, deadline := jobDeadline d,
        notBefore := jobNotBefore d, ring := n.val, target := jobTarget d, index := i, body := full.getD i 0,
        cop := cop[i]?, usesCop := false, state := .waiting, ctx := none, status := 0, code := 0, late := false, rung := 0,
        strip := none, rearms := [], evtRing := jobRing d })))
      (.eff (.entryNext (s.entryNext + 1)))

/-- A batch job starts: the entries of a class-0 job that wait for no other become dispatchable; a registration puts its
programs into its lane, if the strip budget of the state in force allows it (R240, R241, R293). -/
def startBatch (j : Nat) : Act := .look fun s =>
  optA (s.atJobs j) fun job =>
    if jobClass job.desc = 0 then
      forA ((s.entriesOf j).filter fun e => decide (e.2.state = .waiting) && (decide (e.2.index = 0) || !bodyAfter e.2.body))
        fun e => updEntry e.1 fun x => { x with state := .queued }
    else optA (bjLane job.desc) fun l =>
      let full := bodyEntries (job.body.take 64)
      let r := { s.atLanes l with
        full := full.head?, cop := (bodyEntries (job.body.drop 64)).head?, asid := bjAsid job.desc, ring := jobRing job.desc,
        job := j, jobRing := job.ring.val, notBefore := jobNotBefore job.desc }
      if s.budgetOk (fun _ => []) (fun k => if k = l then r else s.atLanes k) then
        acts [.eff (.lanes l r),
          whenA (jobEvt job.desc) (jobEvent job.func job.desc schedPage 0x10 0
            (batchPayload 0 false 0 (jobTag job.desc) 0 1)),
          endJob j job.desc]
      else refuseBatch j 0x0B41 true

/-- The bodies of a batch job are read and checked, and the job is accepted (R238 to R240). -/
def checkBatch (j : Nat) (f : Func) (n : Fin 8) (d : BitVec 1024) : Act := .look fun s =>
  let refuse (code : Nat) : Act := refuseBatch j code false
  let accept (body cop : List Byte) : Act := .look fun t =>
    let full := bodyEntries body
    let cops := bodyEntries cop
    match full.findSome? (entryRefusal t f (jobClass d)) with
    | some code => refuse code
    | none =>
      if (cops.findSome? (entryRefusal t f (jobClass d))).isSome then refuse 0x0916
      else if jobClass d = 1 ∧ bit d 271 ∧ t.semClass (fld d 256 12) ≠ 1 then refuse 0x0913
      else .seq (if jobClass d = 0 then addEntries j f n d full cops
          else .eff (.jobs j (some ⟨f, n, d, body ++ cop, false⟩)))
        (startIfOpen j (startBatch j))
  match batchRefusal s f d with
  | some code => refuse code
  | none =>
    virtRead (jobClient f) (bjAsid d) (jobBodyAddr d) (jobBodyLen d) .read 0x0911 0x0911 fun r => match r with
      | .ok body =>
        if bjCop d = 0 then accept body []
        else if !bodyLenOk (jobClass d) (bjCopLen d) then refuse 0x0916
        else virtRead (jobClient f) (bjAsid d) (bjCop d) (bjCopLen d) .read 0x0916 0x0916 fun q => match q with
          | .ok cop => accept body cop
          | _ => refuse 0x0916
      | _ => refuse 0x0911

/-- BATCH_JOB (R240). -/
def actBatchJob (f : Func) (n : Fin 8) (d : BitVec 1024) : Act :=
  ofKind 1 d (acceptJob f n d [] (fun _ => none) fun j => checkBatch j f n d)

/-- BATCH_JOB. -/
def execBatchJob (f : Func) (n : Fin 8) (d : BitVec 1024) (s : State) : Host.Outcome State Fault Refusal :=
  meaning (.batchJob f n d) (served (actBatchJob f n d)) s

/-! ## The ranger (R252 to R255) -/

/-- The projected end of a class-0 entry lies past its deadline less the margin (R253): `q` cycles of queued work ahead,
`n` arrays, `rem` of its own. -/
def projectsLate (s : State) (e : EntryRec) (q n rem : Nat) : Bool :=
  decide (n = 0) || decide (e.deadline * n < s.time.toNat * n + q + rem * n + 1000 * s.rfld schedPage 0x114 0 16 * n)

/-- Whether an entry is queued: dispatchable, and its claims free (R243). -/
def State.inQueue (s : State) (e : EntryRec) : Bool :=
  decide (e.state = .queued) && claimsFree s (rungBody s e)

/-- The estimates of the queued entries ahead of one (R253). -/
def State.estAhead (s : State) (e : EntryRec) (n : Nat) : Nat :=
  (s.entries.filterMap fun x => match x.2 with
    | some r => if x.1 ≠ n ∧ r.cls = 0 ∧ r.func = e.func ∧ s.inQueue r ∧ keyLess (memberKey r) (memberKey e) then
        some (bodyEst (entryBody (rungBody s r))) else none
    | none => none).sum

/-- The ranger looks at one entry: a late one moves its lane to coppice, and a queued one takes its coppice entry. -/
def rangeEntry (n : Nat) (x : BitVec 64) : Act := .look fun s =>
  optA (s.atEntries n) fun e => optA e.lane fun l =>
    let arrays := ((List.range 32).filter fun a => s.serves a 0 e.func).length
    let queued := s.inQueue e
    let rem := match e.ctx with
      | some c => if queued then bodyEst (entryBody e) else remaining s x c
      | none => bodyEst (entryBody e)
    let onArray := (e.ctx.map fun c => decide ((s.atArrays (s.atCtxs c).array).ctx = some c)).getD false
    let q := if onArray then 0 else s.estAhead e n
    let job := (s.atJobs e.job).map fun j => bjCop j.desc
    whenA (decide (e.cls = 0) && decide (e.deadline ≠ 0) && (queued || decide (e.state = .running))
        && projectsLate s e q arrays rem)
      (.seq (whenA (decide ((s.atLanes l).rung = 0) && decide (job.getD 0 ≠ 0) && !(s.atLanes l).force)
          (moveLane l 1 e.evtRing false true))
        (.look fun t => whenA (queued && decide ((t.atLanes l).rung = 1) && !e.usesCop && e.cop.isSome)
          (.seq (updEntry n fun y => { y with usesCop := true, rung := 1 }) (bump schedPage 0x088 1))))

/-- The ranger looks at the analytics entries, in the order of their keys. -/
def rangePass : Act := .look fun s =>
  let l := s.entries.filterMap fun e => match e.2 with
    | some r => if r.cls = 0 then some (memberKey r, Member.entry e.1) else none
    | none => none
  let order := ((l.foldl (fun (q : List (List Nat × Member)) x => insertMember x q) []).map Prod.snd).filterMap fun m =>
    match m with | .entry n => some n | .saved _ => none
  whenA (!order.isEmpty) (withFree fun x => forA order fun n => rangeEntry n x)

/-- RANGER_PERIOD (R253). -/
def actRangerPeriod (now : Dword) : Act := .seq (tick now) rangePass

/-- RANGER_PERIOD. -/
def execRangerPeriod (now : Dword) (s : State) : Host.Outcome State Fault Refusal :=
  meaning (.rangerPeriod now) (served (actRangerPeriod now)) s

/-- An entry's wait ends at its deadline: error 0x0919, the count and event 0x0915. -/
def deadlineTold (e : EntryRec) (c : Nat) : Act := .look fun s =>
  acts [withFree fun x => recordErrI schedPage 0x0919 (BitVec.ofNat 32 c) (x.extractLsb' 0 32), bump schedPage 0x0A8 1,
    optA (s.atJobs e.job) fun j => jobEvent j.func j.desc schedPage 0x15 0x0919 (natBytes 4 c ++ natBytes 4 (jobTag j.desc))]

/-- RANGER_DEADLINE (R253): an analytics entry that is queued, saved, or waiting for its job, its claims or a PHASE take
at its deadline ends with status 3; a take that can be met wins (R257). -/
def actRangerDeadline (n : Nat) (now : Dword) : Act := .seq (tick now) (.look fun s =>
  optA (s.atEntries n) fun e =>
    whenA (decide (e.cls = 0) && decide (e.deadline ≠ 0) && decide (e.deadline ≤ s.time.toNat))
      (match e.state, e.ctx with
      | .running, some c =>
        let r := s.atCtxs c
        let placed := s.arrays.any fun a => decide (a.2.reserved = some c)
        if r.state = .saved then
          whenA (!placed) (acts [deadlineTold e c, releaseClaims c r, releasePool c r, .eff (.ctxs c {}), bump schedPage 0x078 1,
            endEntry n 3 0x0919])
        else if r.state = .running then
          (match (s.atArrays r.array).flight with
          | x :: _ => whenA (x.waiting && !s.semReached (tsWaitSem x.step.desc) (BitVec.ofNat 32 (tsTake x.step.desc)))
              (.seq (deadlineTold e c) (endBatchStep r.array 3 0x0919))
          | [] => .done)
        else .done
      | .running, none => .done
      | .done, _ => .done
      | _, _ => .seq (deadlineTold e 0) (endEntry n 3 0x0919)))

/-- RANGER_DEADLINE. -/
def execRangerDeadline (n : Nat) (now : Dword) (s : State) : Host.Outcome State Fault Refusal :=
  meaning (.rangerDeadline n now) (served (actRangerDeadline n now)) s

/-- SLOWDOWN_REPORT (R255): event 0x0916 for each class to the PF's event ring 0, and the counts begin anew. -/
def actSlowdownReport (now : Dword) : Act := .seq (tick now) (.look fun s =>
  whenA (decide (s.rfld schedPage 0x11C 0 16 ≠ 0))
    (forA [0, 1] fun cls =>
      let c := s.atClassCounts cls
      let mine := s.lanes.filter fun l => decide ((l.1 < 1024) ↔ (cls = 0))
      let at_ (r : Nat) : Nat := satNat 255 (mine.filter fun l => decide (l.2.rung = r)).length
      let ratio := if c.est = 0 then 0 else satNat (2 ^ 32 - 1) (c.spent * 65536 / c.est)
      acts [raiseIrq schedPage 11,
        funcEvent 0 schedPage 0x16 0 (natBytes 4 cls ++ natBytes 4 c.done ++ natBytes 2 c.late
          ++ natBytes 1 (at_ 1) ++ natBytes 1 (at_ 2) ++ natBytes 4 ratio),
        .eff (.classCounts cls {})]))

/-- SLOWDOWN_REPORT. -/
def execSlowdownReport (now : Dword) (s : State) : Host.Outcome State Fault Refusal :=
  meaning (.slowdownReport now) (served (actSlowdownReport now)) s

/-- RNG_LANE_WRITE (R259): rung 0b11, or a lane that does not exist, is ignored with cause 0x1B. -/
def actRngLaneWrite (f : Func) (lane : Nat) (v : Word) : Act := withWrite f schedPage (
  if fld v 0 2 = 3 ∨ 1088 ≤ lane then pageErr schedPage 0x1B
  else .seq (moveLane lane (fld v 0 2) 0 false false)
    (.look fun s => .eff (.lanes lane { s.atLanes lane with force := bit v 2 })))

/-- RNG_LANE_WRITE. -/
def execRngLaneWrite (f : Func) (lane : Nat) (v : Word) (s : State) : Host.Outcome State Fault Refusal :=
  meaning (.rngLaneWrite f lane v) (served (actRngLaneWrite f lane v)) s

/-! ## Dispatch (R245, R286, R289) -/

/-- A bound engine is loaded with a list for a context, with re-arms for its descriptors (R185, R241). -/
def loadList (e c asid : Nat) (list : Nat × Nat) (pend : List (Nat × Rearm)) : Act :=
  acts [setReg64 (engPage e) 0x100 list.1, setFld (engPage e) 0x108 0 16 list.2,
    if list.2 = 0 then updEng e fun x => { orphans := x.orphans, asid := asid, claimed := some c }
    else .seq (startList e asid (some c)) (updEng e fun x => { x with pend := pend })]

/-- A dispatch is refused: the claims are released, the context freed, and the entry ends with status 5 (R245). -/
def refuseDispatch (a c code : Nat) : Act := .look fun s =>
  let r := s.atCtxs c
  acts [releaseClaims c r, updArr a fun x => { x with ctx := none, reserved := none, stop := none, phase := .idle },
    .eff (.ctxs c {}), bump schedPage 0x080 1, endEntry r.entry 5 code]

/-- Dispatch steps 5 and 6: the engine lists, the pooled engine, and the sequencer at prog (R245, R101). Claims re-bound
while the banks woke refuse the dispatch, as at its start, a pooled engine that has come back to the function among them
(DEDUCED from R58, log entry 54). -/
def finishDispatch (a c : Nat) : Act := .look fun s =>
  optA (s.atEntries (s.atCtxs c).entry) fun e =>
    let b := entryBody e
    let side (k : Nat) : List (Nat × Rearm) := (e.rearms.filter fun r => decide (r.1 = k)).map Prod.snd
    if ¬ claimsBound s e.func b ∨ bodyPool b ≠ (s.atCtxs c).pool then .seq (clearHandles a) (refuseDispatch a c 0x091C)
    else acts [loadList (2 * a) c e.asid (bodyLd b) (side 0), loadList (2 * a + 1) c e.asid (bodySt b) (side 1),
      optA (bodyPool b) fun q => if s.rfld (engPage (64 + q)) 0x108 0 16 = 0 then
          updEng (64 + q) fun x => { orphans := x.orphans, claimed := some c }
        else startList (64 + q) e.asid (some c),
      updArr a fun x => { x with
        phase := .transfer, prog := bodyProg b, fetched := 0, queue := [], closed := false, flight := [], next := 0,
        records := 0, acc := 0, grant := 0 },
      updCtx c fun x => { x with state := .running }]

/-- The handle map of 64 entries in bytes. -/
def mapOf (bs : List Byte) : List (Nat × BitVec 128) :=
  (List.range 64).map fun h => (h, BitVec.ofNat 128 (bytesNat (sliceBytes bs (16 * h) 16)))

/-- The retained banks a map allocates lines in. -/
def sleepingBanks (s : State) (a : Nat) (map : List (Nat × BitVec 128)) : List (SpMem × Nat) :=
  ((map.flatMap fun e => handleBanks e.2).eraseDups).filter fun x => !s.bankOn a x.1 x.2

/-- A handle map fails a check: its cause in the scratchpad page, with the handle (R150). -/
def mapRefused (a : Nat) (x : Nat × Nat) : Act :=
  withFree fun v => recordErrI (spPage a) (0x0700 + x.1) (BitVec.ofNat 32 x.2) (v.extractLsb' 0 32)

/-- Dispatch steps 3 and 4: the handle map is read, checked and loaded, and retained banks wake (R150, R158, R245). A map
that cannot be read refuses the dispatch too (the spec names no cause for it, log entry 35). -/
def loadCtx (a c : Nat) : Act := .look fun s =>
  optA (s.atEntries (s.atCtxs c).entry) fun e =>
    let b := entryBody e
    acts [updArr a fun x => { x with ctx := some c, reserved := none, stop := none },
      updCtx c fun x => { x with array := a, state := .dispatching },
      bump schedPage 0x040 1, whenA (decide (e.cls = 1)) (bump schedPage 0x0E8 1),
      virtRead (jobClient e.func) e.asid (bodyHmap b) 1024 .read 0x0900 0x0900 fun r => match r with
        | .ok bs => .look fun t =>
          let map := mapOf bs
          match mapFailure t e.func map with
          | some x => .seq (mapRefused a x) (refuseDispatch a c (0x0700 + x.1))
          | none =>
            if e.cls = 0 ∧ 1024 * bodySaveKib b < 4096 + liveBytes map then
              .seq (withFree fun v => recordErrI schedPage 0x0914 (BitVec.ofNat 32 c) (v.extractLsb' 0 32))
                (refuseDispatch a c 0x0914)
            else
              let wake := sleepingBanks t a map
              acts [forA map fun x => putHandle a x.1 x.2,
                updArr a fun x => { x with waking := wake.map fun w => (memCode w.1, w.2) },
                whenA wake.isEmpty (finishDispatch a c)]
        | _ => refuseDispatch a c 0x0900]

/-- BANK_WAKE_DONE (R158): a bank has left retention; when none is still waking, the dispatch goes on. -/
def actBankWakeDone (a : Fin 32) (m : SpMem) (bank : Nat) : Act := .look fun s =>
  let st := s.atArrays a.val
  let rest := st.waking.filter fun w => decide (w ≠ (memCode m, bank))
  whenA (st.waking.contains (memCode m, bank))
    (acts [setBank a.val m bank true, bump (spPage a.val) 0x090 1, updArr a.val fun x => { x with waking := rest },
      whenA rest.isEmpty (optA st.ctx fun c => whenA (decide ((s.atCtxs c).state = .dispatching)) (finishDispatch a.val c))])

/-- BANK_WAKE_DONE. -/
def execBankWakeDone (a : Fin 32) (m : SpMem) (bank : Nat) (s : State) : Host.Outcome State Fault Refusal :=
  meaning (.bankWakeDone a m bank) (served (actBankWakeDone a m bank)) s

/-- The six descriptors a raster step re-arms are read: each must be persistent, with seq 0 and once = 1. `k` gets the
re-arms with the side each engine keeps, or none (R286). -/
def fillRearms (a : Nat) (f : Func) (asid : Nat) (ld st : Nat × Nat) (k : Option (List (Nat × Nat × Rearm)) → Act) :
    List (Nat × Nat × Rearm) → List (Nat × Nat × Rearm) → Act
  | [], acc => k (some acc)
  | (side, i, ra) :: l, acc =>
    let list := if side = 0 then ld else st
    if list.2 ≤ i then k none
    else virtRead ⟨.listFetch (2 * a + side), f⟩ asid (list.1 + 64 * i) 64 .fetch 0x081D 0x081D fun r => match r with
      | .ok bs =>
        let d := BitVec.ofNat 512 (bytesNat bs)
        let full : Rearm := if side = 0 then { ra with dst := sdBase d true } else { ra with src := sdBase d false }
        if sdPersist d ∧ sdOnce d ∧ sdSeq d = 0 then fillRearms a f asid ld st k l (acc ++ [(side, i, full)])
        else k none
      | _ => k none

/-- An entry is dispatched on an array; one whose claims have been re-bound since its acceptance ends with the refusal of
R240 instead (DEDUCED from R58, log entry 54). -/
def dispatchEntry (a n : Nat) : Act := .look fun s =>
  optA (s.atEntries n) fun e =>
    if claimsBound s e.func (entryBody (rungBody s e)) then assignCtx a n (loadCtx a)
    else .seq (bump schedPage 0x080 1) (endEntry n 5 0x091C)

/-- A raster step whose program breaks the layout: cause 0x0B45, event 0x0B41, and the next rung (R286). -/
def layoutBroken (slot serial : Nat) : Act := .look fun s =>
  optA (s.stripOf slot serial) fun k => acts [
    withFree fun x => recordErrI (stripPage k.out) 0x0B45 (BitVec.ofNat 32 slot) (x.extractLsb' 0 32),
    pageEvent (stripPage k.out) 0x41 0x0B45 (natBytes 4 (slot + 64 * k.rung) ++ natBytes 4 0x0B45 ++ natBytes 4 serial),
    handDown slot serial .dispatch]

/-- The rung at which a queued raster step is dispatched: its lane's as it now stands, unless the step is a probe or has
been handed down itself (R289). -/
def State.rungAt (s : State) (e : EntryRec) (r : StripRef) (k : StripRec) : Nat :=
  let lane := (s.atLanes (laneOf r.slot)).rung
  if k.probe ∨ e.urgent then e.rung else if lane = 1 ∧ k.lane.cop.isNone then 0 else lane

/-- A free standing array takes the head of the raster queue, at its lane's rung; a step that would end past its
deadline line goes to the next rung first, and one whose lane stands at rung 2 to the floor scaler; `fuel` bounds these
(R254, R289). A coppice step that a hand-over has put at the head is not held to the deadline line, which is past, but
to the take line (the example of chapter 14). -/
def dispatchRaster (a : Nat) (f : Func) : Nat → Act
  | 0 => .done
  | fuel + 1 => .look fun s =>
    match s.queue 1 f with
    | .entry n :: _ =>
      optA (s.atEntries n) fun e => optA e.strip fun r => optA (s.stripOf r.slot r.serial) fun k =>
        let rung := s.rungAt e r k
        if rung = 2 then .seq (stripToFloor r.slot r.serial .dispatch) (dispatchRaster a f fuel)
        else if rung ≠ e.rung then
          acts [updEntry n fun x => { x with rung := rung, usesCop := decide (rung = 1) },
            setRung r.slot r.serial rung, dispatchRaster a f fuel]
        else if ¬ e.urgent ∧ e.deadline < s.time.toNat + bodyEst (entryBody e) then
          .seq (handDown r.slot r.serial .dispatch) (dispatchRaster a f fuel)
        else fillRearms a f e.asid (bodyLd (entryBody e)) (bodySt (entryBody e)) (fun l => match l with
            | none => .seq (layoutBroken r.slot r.serial) (dispatchRaster a f fuel)
            | some rs => .seq (updEntry n fun x => { x with rearms := rs }) (dispatchEntry a n)) e.rearms []
    | _ => .done

/-- A saved context is restored on an array (R250). -/
def startRestore (a c : Nat) : Act :=
  acts [updArr a fun x => { x with ctx := some c, reserved := none, stop := none, phase := .stopped },
    updCtx c fun x => { x with state := .restoring, array := a }, bump schedPage 0x060 1]

/-- The first member of a function's analytics queue that array `a` takes: one it can use, with no free array lower than
it, or, for a saved context, the free array it was saved on (R244). -/
def State.takes (s : State) (a : Nat) (f : Func) : Option Member :=
  let free (b : Nat) (m : Member) : Bool := s.serves b 0 f && s.arrayFree b && s.canTake b m
  (s.queue 0 f).find? fun m => s.canTake a m && match m with
    | .entry _ => !(List.range a).any fun b => free b m
    | .saved c =>
      let own := (s.atCtxs c).array
      if free own m then decide (a = own) else !(List.range a).any fun b => free b m

/-- Whether a standing array of the function below `a` is free too: the lowest-numbered one takes the head (R244). -/
def State.standingBelow (s : State) (a : Nat) (f : Func) : Bool :=
  (List.range a).any fun b => s.serves b 1 f && s.arrayFree b

/-- DISPATCH (R244, R245): after the ranger's pass (R253; log entry 4), a free array takes what a pre-emption has placed
on it, or the first queue member that can use it. A saved context placed on an array whose profiles match its image no
longer goes back to its queue (R257). -/
def actDispatch (a : Fin 32) : Act := .look fun s =>
  let u := s.unitAt (arrUnit a.val)
  let st := s.atArrays a.val
  let takeNext : Act := .look fun t =>
    if u.standing then whenA (t.freeCtxNo.isSome && !t.standingBelow a.val u.owner)
      (dispatchRaster a.val u.owner (3 * t.entries.length + 3))
    else match t.takes a.val u.owner with
      | some (.entry n) => dispatchEntry a.val n
      | some (.saved c) => startRestore a.val c
      | none => .done
  whenA (decide (u.state = .bound) && !u.felled && st.ctx.isNone && !s.rbit schedPage 0x010 8)
    (.seq rangePass (.look fun t => match st.reserved with
      | some c =>
        if (t.atCtxs c).state ≠ .saved then loadCtx a.val c
        else if t.canTake a.val (.saved c) then startRestore a.val c
        else .seq (unreserve a.val) takeNext
      | none => takeNext))

/-- DISPATCH. -/
def execDispatch (a : Fin 32) (s : State) : Host.Outcome State Fault Refusal :=
  meaning (.dispatch a) (served (actDispatch a)) s

/-! ## Save and restore (R248 to R250) -/

/-- A save image without its CRC. The bytes of the sequencer state, whose places the spec does not give, are free
(R249; log entry 3). -/
def saveImage (s : State) (c : Nat) (r : CtxRec) (e : EntryRec) (x : BitVec 64) : List Byte :=
  let a := r.array
  let dev := s.deviceNo
  let fault (i : Nat) : Nat × Nat := (s.reg64 (engPage i) 0x124 % 2 ^ 48, s.rfld (engPage i) 0x128 16 16)
  let job := (s.atJobs e.job).map fun j => jobSeq j.desc
  let pool : List Byte × List Byte := match r.pool with
    | some q => (engRecord dev (s.atEngines (64 + q)) (fault (64 + q)), pendRecord (s.atEngines (64 + q)))
    | none => (List.replicate 128 0, List.replicate 192 0)
  let seqBytes := (List.range 128).map fun (i : Nat) => (Config.unstated 3 [x.toNat, i]).setWidth 8
  natBytes 4 0x4652454B ++ natBytes 4 (1 + 65536 * c)
    ++ natBytes 4 (r.func.val + 32 * r.asid + 128 * r.cls + 65536 * a) ++ natBytes 4 (s.htLive a / 128)
    ++ natBytes 8 s.time.toNat ++ natBytes 4 (job.getD 0 + 2 ^ 24 * e.index) ++ natBytes 4 (r.generation + 1)
    ++ List.replicate 32 0 ++ seqBytes ++ (s.profiles a).flatMap (fun w => natBytes 4 w.toNat)
    ++ (s.handles a).flatMap (fun h => natBytes 16 h.2.toNat)
    ++ engRecord dev (s.atEngines (2 * a)) (fault (2 * a)) ++ engRecord dev (s.atEngines (2 * a + 1)) (fault (2 * a + 1))
    ++ pool.1 ++ pendRecord (s.atEngines (2 * a)) ++ pendRecord (s.atEngines (2 * a + 1)) ++ pool.2
    ++ List.replicate 1856 0
    ++ ((s.validHandles a).filter fun h => !hTransient h.2).flatMap fun h => s.spBytes a (hOff h.2 0) (hSize h.2)

/-- The CRC of an image: over everything but its own place (R249). -/
def imageCrc (bs : List Byte) : Word := crc32c (bs.take 60 ++ bs.drop 64)

/-- What a save keeps of a sequencer: it fetches again from the next step to issue; a waiting PHASE step stays (R250). The
gather buffer's lines were zeroed behind the save (R148, R159). -/
def savedSeq (x : ArraySt) : ArraySt :=
  { x with
    fetched := x.next, queue := [], closed := x.flight.any (fun y => tsLast y.step.desc),
    stop := none, grant := 0, fell := false, gather := [], ctx := none, arrivals := [], dropped := 0, dropAt := none, reserved := none, waking := [] }

/-- What a save keeps of an engine: descriptors fetched ahead are fetched again. -/
def savedEng (x : EngineSt) : EngineSt :=
  { x with
    fetchNext := x.fetchNext - x.fetched.length, fetched := [], orphans := [] }

/-- A context whose image is invalid is lost: its lines are scrubbed, and its entry ends with status 4 (R250, R257). -/
def loseCtx (c : Nat) : Act := .look fun s =>
  let r := s.atCtxs c
  acts [withFree fun x => recordErrI schedPage 0x0918 (BitVec.ofNat 32 c) (x.extractLsb' 0 32), raiseIrq schedPage 9,
    bump schedPage 0x068 1,
    optA ((s.atEntries r.entry).bind fun e => s.atJobs e.job) fun j =>
      jobEvent j.func j.desc schedPage 0x13 0x0918 (natBytes 4 c ++ natBytes 4 r.generation),
    zeroHandles r.array (s.validHandles r.array), clearHandles r.array,
    bump (spPage r.array) 0x0A0 (handleLines (s.handles r.array)), releaseClaims c r, releasePool c r, freeCtx c,
    endEntry r.entry 4 0x0918]

/-- The array of a context that has been saved is empty: its lines were zeroed behind the save's reads and are counted
as scrubbed (R159, R170), its handles are gone and its engines unloaded. A pooled engine that is being withdrawn or is
held is the context's no more, and is left as it stopped (R52, R57). -/
def vacate (c a : Nat) : Act := .look fun s =>
  acts [zeroHandles a (s.validHandles a), clearHandles a, bump (spPage a) 0x0A0 (handleLines (s.handles a)),
    updArr a fun x => {
      arrivals := x.arrivals, dropped := x.dropped, dropAt := x.dropAt, reserved := x.reserved },
    forA [2 * a, 2 * a + 1] fun e => updEng e fun x => { orphans := x.orphans },
    optA (s.atCtxs c).pool fun q => if (s.unitAt (poolUnit q)).state = .bound then
        updEng (64 + q) fun x => { orphans := x.orphans, claimed := some c }
      else .seq (updEng (64 + q) fun x => { x with claimed := none }) (updCtx c fun x => { x with pool := none })]

/-- CONTEXT_SAVE_DONE (R248, R249, R161): every tag has retired; the magic word is zeroed, the image written, its header
last, and the context is saved. A parity failure of the save's reads, which the fault log takes as one of scope 1
(R390), or a failed write, leaves no header, and the context is lost (R257; a failed write is read like a parity
failure, DEDUCED, log entry 35). -/
def actContextSaveDone (c : Fin 2048) (parity : Option (SpMem × Nat)) : Act := .look fun s =>
  let r := s.atCtxs c.val
  let a := r.array
  whenA (decide (r.state = .saving) && (ctxEngines r).all fun e => (s.atEngines e).reqs.isEmpty)
    (optA (s.atEntries r.entry) fun e =>
      let at_ := bodySave (entryBody e)
      let cl : StackClient := ⟨.restore, r.func⟩
      let write (va : Nat) (bs : List Byte) (k : Act) : Act :=
        virtWrite cl r.asid va bs 0x0900 0x0900 none fun w => if w = .ok then k else loseCtx c.val
      let reads (t : State) : Act :=
        forA ((t.validHandles a).filter fun h => !hTransient h.2) fun h => countRead a (hMem h.2) (hLines h.2)
      write at_ (natBytes 4 0) (withFree fun x => .look fun t =>
        let img := saveImage t c.val r e x
        let body := img.drop 64
        write (at_ + 64) body (match parity with
          | some p => acts [
              withFree fun v => recordErrI (spPage a) 0x071C (BitVec.ofNat 32 (memCode p.1 + 65536 * p.2)) (v.setWidth 32),
              raiseIrq (spPage a) 8, bump (spPage a) 0x0A8 1, reads t, flog 0x071C 1 r.func (spPage a) 0 c.val (spPage a),
              loseCtx c.val]
          | none =>
            write at_ (img.take 60 ++ natBytes 4 (imageCrc img).toNat)
              (acts [
                updCtx c.val fun y => { y with
                  state := .saved, generation := y.generation + 1,
                  saved := some {
                    seq := savedSeq (t.atArrays a), load := savedEng (t.atEngines (2 * a)),
                    store := savedEng (t.atEngines (2 * a + 1)), pool := r.pool.map fun q => savedEng (t.atEngines (64 + q)),
                    profiles := t.profiles a, image := at_, size := img.length } },
                bump schedPage 0x050 1, bump schedPage 0x058 img.length,
                reads t,
                optA (t.atJobs e.job) fun j => jobEvent j.func j.desc schedPage 0x12 0
                  (natBytes 4 (c.val + 2048 * a + 65536 * ((t.atArrays a).reserved.getD 0)) ++ natBytes 4 img.length),
                vacate c.val a]))))

/-- CONTEXT_SAVE_DONE. -/
def execContextSaveDone (c : Fin 2048) (parity : Option (SpMem × Nat)) (s : State) :
    Host.Outcome State Fault Refusal :=
  meaning (.contextSaveDone c parity) (served (actContextSaveDone c parity)) s

/-- An engine goes on after a restore from its state record `bs` and its pending shadows `ps` in the state it was stopped
in; a faulted one shows its fault again and waits for resume, and one that stands armed takes the re-arm its shadow holds
(R197, R198, R250). -/
def restoreEng (e c : Nat) (kept : EngineSt) (bs ps : List Byte) : Act := .look fun s =>
  let v := engOfRecord s.deviceNo kept bs ps
  let len := s.rfld (engPage e) 0x108 0 16
  let idle := decide (len ≤ v.fetchNext) && v.cur.isNone && v.nxt.isNone
  .seq (updEng e fun x => { v with orphans := x.orphans, stopping := false, claimed := some c })
    (if v.atStop = .faulted then acts [updEng e fun x => { x with state := .faulted },
        setRegN (engPage e) 0x124 (recNum bs 0x58 4), setRegN (engPage e) 0x128 (recNum bs 0x5C 4)]
    else if v.atStop = .refused then updEng e fun x => { x with state := .refused }
    else if idle then updEng e fun x => { x with state := .idle }
    else match v.cur, v.shadow with
      | some p, some ra => if p.started then resumeEngine e else .seq (resumeEngine e) (rearmPass e p.index p.desc ra)
      | _, _ => resumeEngine e)

/-- The lines of handles come back from the bytes that follow the image's first 4 KiB. -/
def restoreLines (a : Nat) : List (Nat × BitVec 128) → List Byte → Act
  | [], _ => .done
  | h :: l, bs => acts [putSpList a (hOff h.2 0) (bs.take (hSize h.2)), bump (spPage a) 0x058 (hLines h.2),
      restoreLines a l (bs.drop (hSize h.2))]

/-- Whether an image is the one the context table knows, whole, and its quantiser profiles are those of its array (R244,
R250). -/
def imageOk (s : State) (r : CtxRec) (c : Nat) (bs : List Byte) : Bool :=
  let word (i : Nat) : Nat := recNum bs i 4
  decide (sliceBytes bs 0xC0 64 = (s.profiles r.array).flatMap fun w => natBytes 4 w.toNat)
    && decide (word 0 = 0x4652454B) && decide (word 4 = 1 + 65536 * c) && decide (word 8 % 32 = r.func.val)
    && decide (word 0x1C = r.generation) && decide (word 0x3C = (imageCrc bs).toNat)

/-- CONTEXT_RESTORE_DONE (R250): the image is read and verified; handle table, lines and engine states come from it. The
sequencer state, whose places in the image the spec does not give, comes from what the save recorded (DEDUCED, log entry
35). A pooled engine that has been withdrawn meanwhile, or is held, is not touched: the context goes on without it (R52,
R57, R58; DEDUCED, log entry 54). An image that fails a check, or a read that fails, loses the context; a handle map
that fails one is recorded in the scratchpad page too (R150). -/
def actContextRestoreDone (c : Fin 2048) : Act := .look fun s =>
  let r := s.atCtxs c.val
  let a := r.array
  whenA (decide (r.state = .restoring))
    (optA r.saved fun v => optA (s.atEntries r.entry) fun e =>
      virtRead ⟨.restore, r.func⟩ r.asid v.image v.size .read 0x0900 0x0900 fun q => match q with
        | .ok bs => .look fun t =>
          let map := mapOf (sliceBytes bs 0x100 1024)
          let b := entryBody e
          let rec_ (i : Nat) : List Byte := sliceBytes bs (0x500 + 128 * i) 128
          let pend (i : Nat) : List Byte := sliceBytes bs (0x680 + 192 * i) 192
          if ¬ imageOk t r c.val bs then loseCtx c.val
          else match mapFailure t r.func map with
          | some x => .seq (mapRefused a x) (loseCtx c.val)
          | none =>
          if bs.length ≠ 4096 + liveBytes map then loseCtx c.val
          else acts [
            forA map fun x => putHandle a x.1 x.2,
            forA (sleepingBanks t a map) fun w => .seq (setBank a w.1 w.2 true) (bump (spPage a) 0x090 1),
            restoreLines a (map.filter fun x => hValid x.2 && !hTransient x.2) (bs.drop 4096),
            setReg64 (engPage (2 * a)) 0x100 (bodyLd b).1, setFld (engPage (2 * a)) 0x108 0 16 (bodyLd b).2,
            setReg64 (engPage (2 * a + 1)) 0x100 (bodySt b).1, setFld (engPage (2 * a + 1)) 0x108 0 16 (bodySt b).2,
            updArr a fun x => { v.seq with
              ctx := some c.val, phase := .transfer, arrivals := x.arrivals, dropped := x.dropped, dropAt := x.dropAt },
            updCtx c.val fun x => { x with state := .running, saved := none },
            restoreEng (2 * a) c.val v.load (rec_ 0) (pend 0), restoreEng (2 * a + 1) c.val v.store (rec_ 1) (pend 1),
            optA r.pool fun p => optA v.pool fun y =>
              if t.boundTo (poolUnit p) r.func then restoreEng (64 + p) c.val y (rec_ 2) (pend 2)
              else updCtx c.val fun x => { x with pool := none }]
        | _ => loseCtx c.val)

/-- CONTEXT_RESTORE_DONE. -/
def execContextRestoreDone (c : Fin 2048) (s : State) : Host.Outcome State Fault Refusal :=
  meaning (.contextRestoreDone c) (served (actContextRestoreDone c)) s

/-! ## Teardown (R246, R251) -/

/-- TEARDOWN_ORPHAN_TIMEOUT (R251): tags still outstanding 150 µs after a fault are orphaned. -/
def actTeardownOrphanTimeout (c : Fin 2048) : Act := .look fun s =>
  let r := s.atCtxs c.val
  whenA (decide (r.state = .retiring) && r.faulted && !r.scrubbing)
    (.seq (forA (ctxEngines r) orphanTags) (settleRetire c.val))

/-- TEARDOWN_ORPHAN_TIMEOUT. -/
def execTeardownOrphanTimeout (c : Fin 2048) (s : State) : Host.Outcome State Fault Refusal :=
  meaning (.teardownOrphanTimeout c) (served (actTeardownOrphanTimeout c)) s

/-- A context that was torn down: counted, with event 0x0911; for a fault or a felled array, status 2, with cause 0x091A
(R251, R258; that a re-binding's teardown writes the event with code 0 is DEDUCED, log entry 35). -/
def tornDown (c : Nat) (r : CtxRec) : Act := .look fun s =>
  acts [
    whenA (decide (r.endStatus = 2)) (recordErrI schedPage 0x091A (BitVec.ofNat 32 c) (BitVec.ofNat 32 r.endCode)),
    raiseIrq schedPage 8, bump schedPage 0x070 1,
    optA (s.atEntries r.entry) fun e =>
      putEvent e.func e.evtRing 0x0911 0 r.endCode 0 (natBytes 4 (c + 2048 * r.array) ++ natBytes 2 r.endCode)]

end Sys2Proof.Machine
end

