-- ==== Sys2Proof/Machine/Crypto.lean ====
section
/-! DEFINITION. SHAKE256 (FIPS 202) and Ed448ph (RFC 8032), the two algorithms R369 names; written from those standards
(PRESUMED, log entry 36). -/

namespace Sys2Proof.Machine

/-! ## SHAKE256 -/

/-- Round constants of Keccak-f[1600]. -/
def keccakRc : List (BitVec 64) :=
  [0x0000000000000001, 0x0000000000008082, 0x800000000000808A, 0x8000000080008000, 0x000000000000808B,
   0x0000000080000001, 0x8000000080008081, 0x8000000000008009, 0x000000000000008A, 0x0000000000000088,
   0x0000000080008009, 0x000000008000000A] ++
  [0x000000008000808B, 0x800000000000008B, 0x8000000000008089, 0x8000000000008003, 0x8000000000008002,
   0x8000000000000080, 0x000000000000800A, 0x800000008000000A, 0x8000000080008081, 0x8000000000008080,
   0x0000000080000001, 0x8000000080008008]

/-- Rotation of lane x + 5 y. -/
def keccakRot : List Nat :=
  [0, 1, 62, 28, 27, 36, 44, 6, 55, 20, 3, 10, 43, 25, 39, 41, 45, 15, 21, 8, 18, 2, 61, 56, 14]

/-- Lane x + 5 y of a state. -/
def lane (a : List (BitVec 64)) (x y : Nat) : BitVec 64 := a.getD (x % 5 + 5 * (y % 5)) 0

/-- A state from its lanes. -/
def laneGrid (f : Nat → Nat → BitVec 64) : List (BitVec 64) := (List.range 25).map fun i => f (i % 5) (i / 5)

/-- One round of Keccak-f[1600]. -/
def keccakRound (a : List (BitVec 64)) (rc : BitVec 64) : List (BitVec 64) :=
  let c := (List.range 5).map fun x => lane a x 0 ^^^ lane a x 1 ^^^ lane a x 2 ^^^ lane a x 3 ^^^ lane a x 4
  let d := (List.range 5).map fun x => c.getD ((x + 4) % 5) 0 ^^^ (c.getD ((x + 1) % 5) 0).rotateLeft 1
  let t := laneGrid fun x y => (lane a x y ^^^ d.getD x 0).rotateLeft (keccakRot.getD (x + 5 * y) 0)
  -- lane (X, Y) after pi comes from (x, y) with X = y and Y = 2 x + 3 y, so x = X + 3 Y
  let b := laneGrid fun x y => lane t (x + 3 * y) x
  let e := laneGrid fun x y => lane b x y ^^^ (~~~ lane b (x + 1) y &&& lane b (x + 2) y)
  match e with
  | [] => []
  | l :: ls => (l ^^^ rc) :: ls

/-- Keccak-f[1600]. -/
def keccakF (a : List (BitVec 64)) : List (BitVec 64) := keccakRc.foldl keccakRound a

/-- A block of 136 bytes laid into the rate of a state. -/
def keccakXor (a : List (BitVec 64)) (block : List Byte) : List (BitVec 64) :=
  (List.range 25).map fun i => a.getD i 0 ^^^ BitVec.ofNat 64 (bytesNat ((block.drop (8 * i)).take 8))

/-- All blocks of a padded message absorbed; `k` bounds their number. -/
def keccakAbsorb : Nat → List Byte → List (BitVec 64) → List (BitVec 64)
  | 0, _, a => a
  | k + 1, bs, a => if bs.isEmpty then a else keccakAbsorb k (bs.drop 136) (keccakF (keccakXor a (bs.take 136)))

/-- `k` blocks squeezed. -/
def keccakSqueeze : Nat → List (BitVec 64) → List Byte
  | 0, _ => []
  | k + 1, a => ((a.take 17).flatMap fun l => natBytes 8 l.toNat) ++ keccakSqueeze k (keccakF a)

/-- A message padded for SHAKE256. -/
def shakePad (bs : List Byte) : List Byte :=
  let r := bs.length % 136
  if r = 135 then bs ++ [0x9F] else bs ++ [0x1F] ++ List.replicate (134 - r) 0 ++ [0x80]

/-- SHAKE256 of a message with `n` bytes of output. -/
def shake256 (n : Nat) (bs : List Byte) : List Byte :=
  (keccakSqueeze (ceilDiv n 136) (keccakAbsorb (bs.length / 136 + 1) (shakePad bs) (List.replicate 25 0))).take n

/-! ## Ed448ph -/

/-- The field's prime. -/
def edP : Nat := 2 ^ 448 - 2 ^ 224 - 1

/-- The order of the base point. -/
def edL : Nat := 2 ^ 446 - 13818066809895115352007386748515426880336692474882178609894547503885

/-- The curve's d, -39081. -/
def edD : Nat := edP - 39081

/-- The base point. -/
def edBase : Nat × Nat × Nat :=
  (224580040295924300187604334099896036246789641632564134246125461686950415467406032909029192869357953282578032075146446173674602635247710,
   298819210078481492676017930443930673437544040154080242095928241372331506189835876003536878655418784733982303233503462500531545062832660, 1)

/-- A power modulo `m`; `k` bounds the exponent's bits. -/
def powMod (b m : Nat) : Nat → Nat → Nat
  | 0, _ => 1
  | k + 1, e => let h := powMod b m k (e / 2); if e % 2 = 1 then h * h % m * b % m else h * h % m

/-- The sum of two points in projective coordinates. -/
def edAdd (p q : Nat × Nat × Nat) : Nat × Nat × Nat :=
  let a := p.2.2 * q.2.2 % edP
  let b := a * a % edP
  let c := p.1 * q.1 % edP
  let d := p.2.1 * q.2.1 % edP
  let e := edD * (c * d % edP) % edP
  let f := (b + edP - e) % edP
  let g := (b + e) % edP
  let h := (p.1 + p.2.1) * (q.1 + q.2.1) % edP
  (a * f % edP * ((h + 2 * edP - c - d) % edP) % edP, a * g % edP * ((d + edP - c) % edP) % edP, f * g % edP)

/-- A multiple of a point; `k` bounds the factor's bits. -/
def edMul (p : Nat × Nat × Nat) : Nat → Nat → Nat × Nat × Nat
  | 0, _ => (0, 1, 1)
  | k + 1, n => let h := edMul p k (n / 2); let h2 := edAdd h h; if n % 2 = 1 then edAdd h2 p else h2

/-- Whether two points are one. -/
def edEq (p q : Nat × Nat × Nat) : Bool :=
  decide (p.1 * q.2.2 % edP = q.1 * p.2.2 % edP) && decide (p.2.1 * q.2.2 % edP = q.2.1 * p.2.2 % edP)

/-- A point from its 57 bytes, if they decode. -/
def edDecode (bs : List Byte) : Option (Nat × Nat × Nat) :=
  let w := bytesNat bs
  let y := w % 2 ^ 455
  if bs.length ≠ 57 ∨ edP ≤ y then none
  else
    let u := (y * y + edP - 1) % edP
    let v := (edD * (y * y % edP) + edP - 1) % edP
    let u3 := u * u % edP * u % edP
    let v3 := v * v % edP * v % edP
    let x := u3 * v % edP * powMod (u3 * u % edP * u % edP * v3 % edP) edP 448 ((edP - 3) / 4) % edP
    if v * (x * x % edP) % edP ≠ u then none
    else if x = 0 ∧ w / 2 ^ 455 = 1 then none
    else some (if x % 2 = w / 2 ^ 455 then x else (edP - x) % edP, y, 1)

/-- The 57 bytes of a point. -/
def edEncode (p : Nat × Nat × Nat) : List Byte :=
  let i := powMod p.2.2 edP 448 (edP - 2)
  natBytes 57 (p.2.1 * i % edP + 2 ^ 455 * (p.1 * i % edP % 2))

/-- dom4 with the prehash flag and a context string. -/
def edDom (ctx : String) : List Byte :=
  let c := ctx.toList.map fun x => BitVec.ofNat 8 x.toNat
  ("SigEd448".toList.map fun x => BitVec.ofNat 8 x.toNat) ++ [1, BitVec.ofNat 8 c.length] ++ c

/-- The challenge of a signature. -/
def edChallenge (ctx : String) (r key msg : List Byte) : Nat :=
  bytesNat (shake256 114 (edDom ctx ++ r ++ key ++ shake256 64 msg)) % edL

/-- Whether a signature of a message under a key is valid: canonical, with a key that decodes (R369). -/
def edVerify (ctx : String) (key msg sig : List Byte) : Bool :=
  let s := bytesNat (sig.drop 57)
  match edDecode key, edDecode (sig.take 57) with
  | some a, some r =>
    decide (sig.length = 114) && decide (s < edL)
      && edEq (edMul edBase 450 (4 * s)) (edAdd (edMul r 3 4) (edMul a 450 (4 * edChallenge ctx (sig.take 57) key msg)))
  | _, _ => false

/-- The secret scalar and the prefix of a private key. -/
def edSecret (priv : List Byte) : Nat × List Byte :=
  let h := shake256 114 priv
  ((bytesNat (h.take 56)) % 2 ^ 447 / 4 * 4 + 2 ^ 447, h.drop 57)

/-- The public key of a private key. -/
def edPublic (priv : List Byte) : List Byte := edEncode (edMul edBase 448 (edSecret priv).1)

/-- The signature of a message by a private key. -/
def edSign (ctx : String) (priv msg : List Byte) : List Byte :=
  let k := edSecret priv
  let key := edEncode (edMul edBase 448 k.1)
  let r := bytesNat (shake256 114 (edDom ctx ++ k.2 ++ shake256 64 msg)) % edL
  let rb := edEncode (edMul edBase 448 r)
  rb ++ natBytes 57 ((r + edChallenge ctx rb key msg * k.1) % edL)

/-- A key id: the first 32 bytes of SHAKE256 of the key (R369). -/
def keyId (key : List Byte) : List Byte := shake256 32 key

end Sys2Proof.Machine
end

