-- ==== Sys2Proof/Machine/LandingCache.lean ====
section
/-! DEFINITION. The landing cache's requests: installs, evictions and pins, one at a time in acceptance order (R162 to
R168). -/

namespace Sys2Proof.Machine

/-- lc_op of a model bundle load (R163). -/
def lcOp (d : BitVec 1024) : Nat := fld d 512 2

/-- The image id a bundle load expects (R376). -/
def bundleId (d : BitVec 1024) : Nat := jobInline d 0x48 4

/-- Event 0x0212 of a job of kind 0x02: the model id and a code (R389). -/
def bundleEvent (j : Job) (code : Nat) : Act :=
  jobEvent j.func j.desc trustPage 0x12 code (natBytes 4 0 ++ natBytes 4 (bundleId j.desc) ++ natBytes 2 code)

/-- A job of kind 0x02 completes with a code (R174, R376). -/
def endBundle (n code : Nat) : Act := .look fun s =>
  optA (s.atJobs n) fun j => completeJob n code j.desc (bundleEvent j code)

/-- A landing-cache request is refused: nothing of it applies (R174). -/
def lcRefuse (n code : Nat) : Act := acts [recordErr lcPage code, bump lcPage 0x078 1, endBundle n code]

/-- The must-be-0 fields of a request by its op: for an evict and a set pins there is no body and no bundle field; `auto`
belongs to an install, pins to an install and a set pins (R163). -/
def lcMalformed (d : BitVec 1024) : Bool :=
  let op := lcOp d
  decide (fld d 521 23 ≠ 0) || (decide (op ≠ 1) && bit d 520) || ((decide (op = 0) || decide (op = 2)) && decide (fld d 544 32 ≠ 0))
    || ((decide (op = 2) || decide (op = 3)) && (decide (jobBodyLen d ≠ 0) || decide (jobInline d 0x48 52 ≠ 0)))

/-- The request of a job, its image not yet placed. -/
def lcRequest (n : Nat) (j : Job) : LcInstall where
  job := n
  func := j.func
  op := lcOp j.desc
  slot := fld j.desc 514 6
  auto := bit j.desc 520
  pins := BitVec.ofNat 32 (fld j.desc 544 32)
  cls := jobClass j.desc
  va := jobBodyAddr j.desc
  len := jobBodyLen j.desc
  frames := 0
  base := 0
  pages := []
  evicted := 0
  written := false

/-- Frames of pinned models in the slots other than `slot` (R164). -/
def State.lcPinned (s : State) (slot : Nat) : Nat :=
  (List.range 64).foldl (fun m k =>
    let l := s.atLcSlots k
    if (l.valid || l.filling) && decide (l.pins ≠ 0) && decide (k ≠ slot) then m + l.frames else m) 0

/-- Why a set of pins is refused: an array not bound to the loader, or too many pinned frames (R164; pin_max in MiB of
512 frames, above 32 acts as 32). -/
def pinRefusal (s : State) (q : LcInstall) (slot frames : Nat) : Option Nat :=
  if (List.range 32).any fun a => bit q.pins a && !s.boundTo (arrUnit a) q.func then some 0x0722
  else if q.pins ≠ 0 ∧ 512 * min 32 (s.rfld lcPage 0x100 0 6) < s.lcPinned slot + frames then some 0x0725
  else none

/-- The resident models that may be replaced, oldest last hit first (R165; equal times by slot number). -/
def State.lcVictims (s : State) : List Nat :=
  let l := (List.range 64).filter fun k => (s.atLcSlots k).valid && decide ((s.atLcSlots k).pins = 0)
  l.foldl (fun acc k =>
    acc.takeWhile (fun x => decide ((s.atLcSlots x).last.toNat ≤ (s.atLcSlots k).last.toNat)) ++ [k]
      ++ acc.dropWhile (fun x => decide ((s.atLcSlots x).last.toNat ≤ (s.atLcSlots k).last.toNat))) []

/-- The models an install evicts: the fewest of the victims, in order, that make room for its frames and, with `auto`, a
slot; none when evicting every one would not do (R165). -/
def State.lcEvictions (s : State) (frames : Nat) (needSlot : Bool) : Option (List Nat) :=
  let v := s.lcVictims
  let free (k : Nat) : Nat := 16384 - s.lcUsed + ((v.take k).map fun x => (s.atLcSlots x).frames).sum
  ((List.range (v.length + 1)).find? fun k => decide (frames ≤ free k) && (!needSlot || decide (1 ≤ k))).map fun k => v.take k

/-- The lowest free slot. -/
def State.lcFreeSlot (s : State) : Option Nat :=
  (List.range 64).find? fun k => !(s.atLcSlots k).valid && !(s.atLcSlots k).filling

/-- An evict: the owner's slot is freed (R163). -/
def lcEvict (q : LcInstall) : Act := .look fun s =>
  let l := s.atLcSlots q.slot
  if l.valid && decide (l.owner = q.func) then .seq (.eff (.lcSlots q.slot {})) (endBundle q.job 0) else lcRefuse q.job 0x0720

/-- A set pins: the pin set of the owner's model is replaced (R164). -/
def lcSetPins (q : LcInstall) : Act := .look fun s =>
  let l := s.atLcSlots q.slot
  if !(l.valid && decide (l.owner = q.func)) then lcRefuse q.job 0x0720
  else match pinRefusal s q q.slot l.frames with
  | some code => lcRefuse q.job code
  | none => .seq (.eff (.lcSlots q.slot { l with pins := q.pins })) (endBundle q.job 0)

/-- An install accepted before request `n` is still to come: its gates are shut, or its bundle waits for its check or is
under it (R168: in acceptance order). -/
def State.lcEarlier (s : State) (n : Nat) : Bool :=
  let kind (j : Job) : Bool := decide (jobKind j.desc = 2) && decide (lcOp j.desc = 1)
  let install (m : Nat) : Bool := decide (m < n) && ((s.atJobs m).map kind).getD false
  s.trust.queue.any install || (s.trust.check.map fun q => install q.job).getD false
    || s.jobs.any fun e => decide (e.1 < n) && (e.2.map fun j => !j.started && kind j).getD false

/-- Requests at the head that are no installs are done, up to the next install or to one that an install accepted earlier
has still to come before; `k` bounds them (R168). -/
def lcNext : Nat → Act
  | 0 => .done
  | k + 1 => .look fun s =>
    match s.lcFill, s.lcWait with
    | none, q :: rest =>
      whenA (decide (q.op ≠ 1) && !s.lcEarlier q.job)
        (acts [.eff (.lcWait rest), if q.op = 2 then lcEvict q else lcSetPins q, lcNext k])
    | _, _ => .done

/-- The requests that wait go on. -/
def lcGo : Act := .look fun s => lcNext (s.lcWait.length + 1)

/-- A request joins the queue of the landing cache in acceptance order (R168). -/
def lcAsk (q : LcInstall) : Act := .look fun s =>
  .seq (.eff (.lcWait (s.lcWait.takeWhile (fun x => decide (x.job < q.job)) ++ [q]
    ++ s.lcWait.dropWhile (fun x => decide (x.job < q.job))))) lcGo

/-- LC_INSTALL (R165): the install at the head picks its slot, evicts and starts its fill, or is refused; requests at the
head that are no installs are done, if an install they waited for has ended. -/
def actLcInstall : Act := .look fun s =>
  match s.lcFill, s.lcWait with
  | none, q :: rest =>
    let refuse (code : Nat) : Act := .seq (.eff (.lcWait rest)) (.seq (lcRefuse q.job code) (lcNext (rest.length + 1)))
    let free := s.lcFreeSlot
    let named := s.atLcSlots q.slot
    if q.op ≠ 1 ∨ s.lcEarlier q.job then lcNext (rest.length + 1)
    else if q.written then
      acts [.eff (.lcWait rest), recordErr trustPage 0x0221, bump trustPage 0x050 1, endBundle q.job 0x0221,
        lcNext (rest.length + 1)]
    else if !q.auto && (named.valid || named.filling) then refuse 0x0720
    else match pinRefusal s q (if q.auto then 64 else q.slot) q.frames with
    | some code => refuse code
    | none => match s.lcEvictions q.frames (q.auto && free.isNone) with
      | none => refuse 0x0721
      | some out => acts [.eff (.lcWait rest),
          forA out fun k => acts [.eff (.lcSlots k {}), bump lcPage 0x060 1,
            pageEvent lcPage 0x15 0 (natBytes 4 (k + 64 * (s.atLcSlots k).owner.val))],
          .look fun t =>
            let slot := if q.auto then (t.lcFreeSlot).getD 0 else q.slot
            .seq (.eff (.lcFill (some { q with slot := slot, evicted := out.length, written := false })))
              (.eff (.lcSlots slot {
                filling := true, owner := q.func, cls := q.cls, frames := q.frames, base := q.base, pins := q.pins }))]
  | _, _ => .done

/-- LC_INSTALL. -/
def execLcInstall (s : State) : Host.Outcome State Fault Refusal :=
  meaning .lcInstall (inService actLcInstall) s

/-- LC_FILL_DONE (R165): the fill has read the whole image; the slot becomes valid with event 0x0714, or the install is
refused and nothing of it stays resident. -/
def actLcFillDone : Act := .look fun s =>
  optA s.lcFill fun q0 =>
    let stop (code : Nat) : Act :=
      acts [.eff (.lcSlots q0.slot {}), .eff (.lcFill none), lcRefuse q0.job code]
    .seq (virtRead ⟨.fill, q0.func⟩ 0 q0.va q0.len .read 0x0724 0x0724 fun r => .look fun t =>
      match r with
      | .badSum => stop 0x0723
      | .fault | .denied => stop 0x0724
      | .ok _ =>
        if (t.lcFill.map fun q => q.written).getD false then stop 0x0727
        else
          let l := t.atLcSlots q0.slot
          acts [.eff (.lcSlots q0.slot { l with
              filling := false, valid := true, data := t.contents (2048 * q0.base) (2048 * q0.frames) }),
            .eff (.lcFill none), bump lcPage 0x050 q0.frames, bump lcPage 0x058 1,
            pageEvent lcPage 0x14 0 (natBytes 4 (q0.slot + 65536 * q0.frames) ++ natBytes 4 q0.evicted),
            optA (t.atJobs q0.job) fun j => endJob q0.job j.desc])
      lcGo

/-- LC_FILL_DONE. -/
def execLcFillDone (s : State) : Host.Outcome State Fault Refusal :=
  meaning .lcFillDone (inService actLcFillDone) s

/-- An evict or set-pins job whose gates are open asks the landing cache. -/
def startLc (n : Nat) : Act := .look fun s => optA (s.atJobs n) fun j => lcAsk (lcRequest n j)

/-- A job of kind 0x02 with the given lc_op and no bundle (R163). -/
def lcJob (op : Nat) (f : Func) (ring : Fin 8) (d : BitVec 1024) : Act :=
  ofKind 2 (d := d) (whenA (decide (lcOp d = op)) (acceptJob f ring d [] (fun _ => none) fun n =>
    if lcMalformed d then lcRefuse n 0x0705 else startIfOpen n (startLc n)))

/-- LC_EVICT. -/
def execLcEvict (f : Func) (ring : Fin 8) (d : BitVec 1024) (s : State) : Host.Outcome State Fault Refusal :=
  meaning (.lcEvict f ring d) (inService (lcJob 2 f ring d)) s

/-- LC_SET_PINS. -/
def execLcSetPins (f : Func) (ring : Fin 8) (d : BitVec 1024) (s : State) : Host.Outcome State Fault Refusal :=
  meaning (.lcSetPins f ring d) (inService (lcJob 3 f ring d)) s

end Sys2Proof.Machine
end

