-- ==== Sys2Proof/Machine/Trust.lean ====
section
/-! DEFINITION. The trust unit: images, model bundles, the keep store, attestation, the random source and the boot flash
(R369 to R389). -/

namespace Sys2Proof.Machine

/-- A part of the trust unit's own state changes. -/
def updTrust (f : TrustSt → TrustSt) : Act := .look fun s => .eff (.trust (f s.trust))

/-- A part of the keep store changes. -/
def updKeep (f : KeepSt → KeepSt) : Act := .look fun s => .eff (.keep (f s.keep))

/-! ## Images (R370, R371) -/

/-- A field of an image header. -/
def imgField (img : List Byte) (off n : Nat) : Nat := bytesNat (sliceBytes img off n)

/-- plen. -/
def imgPlen (img : List Byte) : Nat := imgField img 0x14 4

/-- The payload. -/
def imgPayload (img : List Byte) : List Byte := (img.drop 512).take (imgPlen img)

/-- Whether a control image's payload is a list of table records of known classes and tables; `k` bounds them (R371). -/
def recordsOk : Nat → List Byte → Bool
  | 0, bs => bs.isEmpty
  | k + 1, bs =>
    if bs.isEmpty then true
    else
      let n := 8 + (imgField bs 4 4 + 7) / 8 * 8
      Config.imageTable (imgField bs 0 1) (imgField bs 1 1) && decide (imgField bs 2 2 = 0) && decide (8 ≤ bs.length)
        && decide (8 + imgField bs 4 4 ≤ bs.length) && recordsOk k (bs.drop n)

/-- The alert point and the trip point of a control image; 100 °C and 115 °C where it sets none (R415, R425). -/
def imageLimits (payload : List Byte) : Nat × Nat :=
  let v := Config.imageLimits (bytesNat payload)
  ((v.1.map fun b => b.toNat).getD 100, (v.2.map fun b => b.toNat).getD 115)

/-- The ids of the settings that are ordinary and nothing else (R378). -/
def ordinaryIds : List Nat := [0x10, 0x11, 0x12, 0x13, 0x14]

/-- The defaults of ordinary settings that a control image sets (R371). -/
def imageDefaults (payload : List Byte) : List (Nat × List Byte) :=
  ordinaryIds.filterMap fun id => (Config.imageDefault (bytesNat payload) id).map fun v => (id, v)

/-- The thermal limits of a control image lie in their ranges (R425). -/
def limitsOk (payload : List Byte) : Bool :=
  let v := imageLimits payload
  decide (80 ≤ v.1 ∧ v.1 ≤ 105) && decide (105 ≤ v.2 ∧ v.2 ≤ 115)

/-- Whether the header fields of an image hold (check 1 of R371): `kind` 1 or 2, `room` the bytes for the payload. -/
def imgHeaderOk (img : List Byte) (kind room : Nat) : Bool :=
  decide (imgField img 0 4 = if kind = 1 then 0x4943564C else 0x424D564C) && decide (imgField img 4 2 = 1)
    && decide (imgField img 6 1 = kind) && decide (imgField img 7 1 = 0) && decide (imgPlen img % 64 = 0)
    && decide (64 ≤ imgPlen img) && decide (imgPlen img ≤ room) && decide (imgField img 0x18 8 = 0)
    && decide (imgField img 0x99 7 = 0) && decide (imgField img 0x112 238 = 0)
    && (decide (kind = 2) || recordsOk (img.length / 8) (imgPayload img) && limitsOk (imgPayload img))

/-- The signer key of an image. -/
def imgKey (img : List Byte) : List Byte := sliceBytes img 0x60 57

/-- The owner key, if one is set (R378). -/
def State.keepBank (s : State) : SettingsBank := if s.keep.activeB then s.keep.bankB else s.keep.bankA

/-- The value of a setting: the active bank's, else the default that the loaded image sets (R371, R372), if there is
one. -/
def State.setting (s : State) (id : Nat) : Option (List Byte) :=
  ((s.keepBank.vals ++ s.trust.defaults).find? fun e => decide (e.1 = id)).map fun e => e.2

/-- A setting as a number; one with no value reads 0. -/
def State.settingNat (s : State) (id : Nat) : Nat := bytesNat ((s.setting id).getD [])

/-- The TAP balls answer; otherwise TDO stays in high impedance (R422). -/
def State.tapAnswers (s : State) : Bool := decide (s.settingNat 0x11 = 1)

/-- The first check a control image fails (R371). -/
@[irreducible] def controlCause (s : State) (img : List Byte) : Option Nat :=
  if !imgHeaderOk img 1 2096640 then some 0x10
  else if bytesNat (keyId (imgKey img)) ≠ (Config.romDigest 0).toNat ∧ bytesNat (keyId (imgKey img)) ≠ (Config.romDigest 1).toNat
    then some 0x12
  else if shake256 64 (imgPayload img) ≠ sliceBytes img 0x20 64 then some 0x11
  else if !edVerify "LV1024 control image" (imgKey img) (img.take 0xA0) (sliceBytes img 0xA0 114) then some 0x12
  else if imgField img 8 4 < s.settingNat 2 then some 0x13
  else none

/-- The first check a bundle of `len` bytes fails (R371, R376). -/
def bundleCause (s : State) (j : Job) (img : List Byte) (len : Nat) : Option Nat :=
  if !imgHeaderOk img 2 (len - 512) || decide (len ≠ 512 + imgPlen img) then some 0x10
  else match s.setting 1 with
  | none => some 0x15
  | some owner =>
    if imgKey img ≠ owner then some 0x12
    else if shake256 64 (imgPayload img) ≠ sliceBytes img 0x20 64 then some 0x11
    else if !edVerify "LV1024 model bundle" (imgKey img) (img.take 0xA0) (sliceBytes img 0xA0 114) then some 0x12
    else if imgField img 8 4 < s.settingNat 0x14 then some 0x13
    else if imgField img 0xC 4 ≠ bundleId j.desc ∨ imgField img 0x10 4 < jobInline j.desc 0x4C 4 then some 0x1E
    else none

/-! ## The keep store's registers (R388) -/

/-- Bytes put into registers from an offset on, four to a register; `k` bounds the registers. -/
def setRegBytes (p : Nat) : Nat → Nat → List Byte → Act
  | 0, _, _ => .done
  | k + 1, off, bs => .seq (setRegN p off (bytesNat (bs.take 4))) (setRegBytes p k (off + 4) (bs.drop 4))

/-- The identity slot in force (R383). -/
def State.idSlot (s : State) : IdSlot := if s.keep.slot1On then s.keep.slot1 else s.keep.slot0

/-- The owner key id, or 0 (R388). -/
def State.ownerId (s : State) : List Byte := ((s.setting 1).map keyId).getD (List.replicate 32 0)

/-- The short id of the chain trust root, or 0 (R369, R388). -/
def State.chainId (s : State) : List Byte := ((s.setting 3).map fun k => (keyId k).take 8).getD (List.replicate 8 0)

/-- The tallied entries of the history. -/
def KeepSt.tallied (k : KeepSt) : Nat := (k.hist.filter fun e => bit e 24).length

/-- The registers that show the keep store follow it (R388). -/
def showKeep : Act := .look fun s => acts [
  setRegN trustPage 0x110 (s.settingNat 2),
  setFld trustPage 0x114 0 2 (b2n s.keep.activeB + 2 * b2n s.trust.commit.isSome),
  setRegN trustPage 0x118 s.keepBank.seq,
  setRegN trustPage 0x11C (s.keep.floorT + 256 * s.keep.enrolT + 65536 * s.keep.ownerT + 2 ^ 24 * s.keep.releaseT),
  setRegN trustPage 0x120 s.keep.chainT,
  setRegN trustPage 0x124 (s.keep.hist.length + 1024 * s.keep.tallied + 2 ^ 19 * satNat 8191 s.keep.past),
  setRegN trustPage 0x128 (s.settingNat 4), setRegBytes trustPage 15 0x140 s.idSlot.pub,
  setRegBytes trustPage 8 0x180 s.ownerId, setRegBytes trustPage 2 0x1A0 s.chainId]

/-- The bytes of a settings record (R377): its length counts its check too (DEDUCED, log entry 37). -/
def settingsBytes (b : SettingsBank) : List Byte :=
  let pad (v : List Byte) : List Byte := v ++ List.replicate ((4 - (v.length + 2) % 4) % 4) 0
  let body := b.vals.flatMap fun e => natBytes 1 e.1 ++ natBytes 1 e.2.length ++ pad e.2
  let head := natBytes 4 0x534B564C ++ natBytes 4 b.seq ++ natBytes 2 (12 + body.length + 32) ++ natBytes 2 b.vals.length
  head ++ body ++ shake256 32 (head ++ body)

/-! ## Jobs of the trust unit (R385, R386) -/

/-- The op of a keep-store command. -/
def keepOp (d : BitVec 1024) : Nat := jobInline d 0x40 1 % 16

/-- A keep-store command completes, with event 0x0211 (R389). -/
def endKeep (n setting code : Nat) : Act := .look fun s =>
  optA (s.atJobs n) fun j => completeJob n code j.desc (jobEvent j.func j.desc trustPage 0x11 code
    (natBytes 4 (keepOp j.desc + 256 * setting) ++ natBytes 2 code ++ natBytes 2 0 ++ natBytes 4 s.keepBank.seq))

/-- A keep-store command is refused: nothing of it applies (R386, R389). -/
def keepRefuse (n setting cause : Nat) : Act :=
  acts [recordErr trustPage (0x0200 + cause), bump trustPage 0x060 1, endKeep n setting (0x0200 + cause)]

/-- The device writes into a job's body, from an offset on (R383, R385). -/
def writeBody (j : Job) (off : Nat) (bs : List Byte) (k : Bool → Act) : Act :=
  if jobBodyHost j.desc then .seq (.eff (.out (.hostWrite j.func (jobBodyAddr j.desc + off) bs))) (k true)
  else virtWrite ⟨.trust, j.func⟩ 0 (jobBodyAddr j.desc + off) bs 0x0216 0x0216 none fun w => k (decide (w = .ok))

/-- An attestation report, signed by the identity key in force (R385). -/
def report (s : State) (flags : Nat) (nonce key : List Byte) : List Byte :=
  let body := natBytes 4 0x5441564C ++ natBytes 4 (1 + 65536 * flags) ++ nonce ++ natBytes 8 s.time.toNat ++ keyId key
    ++ sliceBytes s.trust.digest 0 32 ++ natBytes 4 (s.reg trustPage 0x104).toNat ++ natBytes 4 (s.reg trustPage 0x108).toNat
    ++ natBytes 4 (s.reg trustPage 0x10C).toNat ++ natBytes 4 (s.settingNat 2) ++ natBytes 4 s.keepBank.seq
    ++ natBytes 4 (s.keep.hist.length + 65536 * s.deviceNo + 2 ^ 22 * s.chainCount)
    ++ natBytes 2 s.keep.floorT ++ natBytes 2 s.keep.enrolT ++ natBytes 2 s.keep.ownerT ++ natBytes 2 s.keep.releaseT
    ++ natBytes 2 s.keep.chainT ++ natBytes 2 0 ++ natBytes 4 (s.settingNat 4) ++ s.chainId ++ s.ownerId
    ++ shake256 32 (settingsBytes s.keepBank) ++ natBytes 4 (s.reg 0 0x308).toNat
    ++ natBytes 4 (b2n (decide (s.phase = .recovery)) + 2 * b2n (s.rbit trustPage 0x100 5)) ++ List.replicate 24 0
  body ++ edSign "LV1024 attestation" s.idSlot.priv body ++ List.replicate 14 0

/-- The nonce of a command (R385). -/
def keepNonce (d : BitVec 1024) : List Byte := natBytes 32 (jobInline d 0x44 32)

/-- An attestation is served (R385). -/
def attest (n : Nat) (j : Job) : Act := .look fun s =>
  if jobBodyLen j.desc ≠ 384 then keepRefuse n 0 0x16
  else .seq (bump trustPage 0x068 1)
    (writeBody j 0 (report s 0 (keepNonce j.desc) s.idSlot.pub) fun ok => if ok then endKeep n 0 0 else keepRefuse n 0 0x16)

/-! ## Changes (R378 to R383) -/

/-- Whether a change of a setting is recorded in the history (R378). -/
def settingRecorded (id : Nat) : Bool := [1, 2, 3, 4, 5, 0x11, 0x13, 0x14].contains id

/-- The tally of a setting's signed change: marks written, and room (R380). -/
def tallyOf (k : KeepSt) (id : Nat) : Nat × Nat :=
  match id with
  | 1 => (k.ownerT, 16)
  | 2 => (k.floorT, 250)
  | 3 => (k.chainT, 64)
  | 4 => (k.releaseT, 4)
  | _ => (k.enrolT, 8)

/-- One more mark of a tally (R380). -/
def markTally (k : KeepSt) (id : Nat) : KeepSt :=
  match id with
  | 1 => { k with ownerT := k.ownerT + 1 }
  | 2 => { k with floorT := k.floorT + 1 }
  | 3 => { k with chainT := k.chainT + 1 }
  | 4 => { k with releaseT := k.releaseT + 1 }
  | _ => { k with enrolT := k.enrolT + 1 }

/-- A history entry (R381); `tallied` changes are the signed ones. -/
def histEntry (index id seq : Nat) (tallied : Bool) (t : Dword) (value signer : List Byte) : BitVec 1024 :=
  let body := natBytes 4 (index + 65536 * id + 2 ^ 24 * (3 * b2n tallied)) ++ natBytes 4 seq ++ natBytes 8 t.toNat
    ++ sliceBytes value 0 64 ++ natBytes 2 value.length ++ List.replicate 6 0 ++ sliceBytes signer 0 8 ++ List.replicate 28 0
  BitVec.ofNat 1024 (bytesNat (body ++ natBytes 4 (crc32c body).toNat))

/-- The oldest ordinary entry of a history: the one whose settings sequence is lowest (R381). -/
def oldestOrdinary (h : List (BitVec 1024)) : Option Nat :=
  ((List.range h.length).foldl (fun m i =>
    let e := h.getD i 0
    if bit e 24 then m else match m with
      | none => some (i, fld e 32 32)
      | some x => if fld e 32 32 < x.2 then some (i, fld e 32 32) else m) (none : Option (Nat × Nat))).map fun x => x.1

/-- An entry is written into the history (R381): the next free place, or over the oldest ordinary entry. -/
def addHist (k : KeepSt) (id seq : Nat) (tallied : Bool) (t : Dword) (value signer : List Byte) : KeepSt :=
  if k.hist.length < 512 then
    { k with hist := k.hist ++ [histEntry k.hist.length id seq tallied t value signer] }
  else match oldestOrdinary k.hist with
  | some i => { k with hist := k.hist.set i (histEntry i id seq tallied t value signer), past := k.past + 1 }
  | none => k

/-- A commit begins (R382): the tally mark, the history entry, and the other bank, which is invalid until its check is
written. `signer` is the short id, none for an ordinary change. -/
def beginCommit (n id : Nat) (value shown : List Byte) (signer : Option (List Byte)) (slot : Option IdSlot) : Act := .look fun s =>
  if s.tb.pfwBlock then keepRefuse n id 0x1C
  else
    let k1 := if signer.isSome then markTally s.keep id else s.keep
    let k2 := if settingRecorded id then
        addHist k1 id ((s.keepBank.seq + 1) % 2 ^ 32) signer.isSome s.time shown (signer.getD []) else k1
    let k3 := if s.keep.activeB then { k2 with bankA := { k2.bankA with valid := false } }
      else { k2 with bankB := { k2.bankB with valid := false } }
    acts [.eff (.keep k3), updTrust fun t => { t with commit := some ⟨n, id, value, slot⟩ }, showKeep]

/-- The length of a setting's value, where the spec gives one value; the others are 1 to 4 bytes (log entry 37). -/
def settingLenOk (id len : Nat) : Bool :=
  match id with
  | 1 | 3 => decide (len = 57)
  | 2 | 4 | 0x14 => decide (len = 4)
  | 5 => decide (len = 0)
  | 0x12 => decide (len = 2)
  | 0x10 | 0x11 | 0x13 => decide (1 ≤ len) && decide (len ≤ 4)
  | _ => decide (len ≤ 64)

/-- Whether an ordinary change may give a setting a value (R378). -/
def ordinaryOk (s : State) (id v : Nat) : Bool :=
  match id with
  | 4 => decide (v / 16 % 4096 = 0) && decide (s.settingNat 4 &&& v = s.settingNat 4)
  | 0x10 | 0x11 | 0x13 => decide (v ≤ 1)
  | 0x12 => true
  | 0x14 => decide (s.settingNat 0x14 ≤ v)
  | _ => false

/-- The setting a body of an ordinary set names. -/
def setId (bs : List Byte) : Nat := imgField bs 0 1

/-- The value a body of an ordinary set gives. -/
def setValue (bs : List Byte) : List Byte := sliceBytes bs 4 (imgField bs 1 1)

/-- The first check an ordinary set fails (R378, R385). -/
def ordinaryCause (s : State) (d : BitVec 1024) (bs : List Byte) : Option Nat :=
  let len := imgField bs 1 1
  if jobBodyLen d ≠ 8 ∨ 4 < len ∨ !settingLenOk (setId bs) len then some 0x16
  else if !ordinaryOk s (setId bs) (imgField bs 4 len) then some 0x1A
  else none

/-- An ordinary set is served (R385, R378). -/
def ordinarySet (n : Nat) (j : Job) : Act :=
  withBody j 0 8 fun b => .look fun s =>
    match b with
    | none => keepRefuse n 0 0x16
    | some bs => match ordinaryCause s j.desc bs with
      | some cause => keepRefuse n (setId bs) cause
      | none => beginCommit n (setId bs) (setValue bs) (setValue bs) none none

/-- `k` free values joined, 64 bits each. -/
def withFrees : Nat → List Byte → (List Byte → Act) → Act
  | 0, bs, f => f bs
  | k + 1, bs, f => withFree fun x => withFrees k (bs ++ natBytes 8 x.toNat) f

/-- Enrolment (R383): a new private key from the random source, its report into the command's body, then the commit that
writes the other slot. -/
def enrol (n : Nat) (j : Job) (signer : List Byte) : Act := .look fun s =>
  if s.rbit trustPage 0x280 1 then keepRefuse n 5 0x1B
  else if s.tb.pfwBlock then keepRefuse n 5 0x1C
  else withFrees 8 [] fun r => .look fun t =>
    let priv := r.take 57
    let pub := edPublic priv
    let old := t.idSlot
    writeBody j 0x100 (report t 1 (keepNonce j.desc) pub) fun ok =>
      if ok then beginCommit n 5 [] (keyId pub) (some signer)
        (some { valid := true, seq := old.seq + 1, serial := old.serial, count := old.count + 1, priv := priv, pub := pub })
      else keepRefuse n 5 0x16

/-- The setting a signed command names. -/
def changeId (bs : List Byte) : Nat := imgField bs 6 1

/-- The value a signed command gives. -/
def changeValue (bs : List Byte) : List Byte := sliceBytes bs 0x18 (imgField bs 0x14 2)

/-- The key that signs a command: the owner's, or the one the command sets while there is none (R378, R385). -/
def changeSigner (s : State) (bs : List Byte) : Option (List Byte) :=
  match s.setting 1 with
  | some k => some k
  | none => if changeId bs = 1 then some (changeValue bs) else none

/-- The fields of a signed command are well formed (R385). -/
def changeWell (d : BitVec 1024) (bs : List Byte) : Bool :=
  let id := changeId bs
  let len := imgField bs 0x14 2
  decide (jobBodyLen d = if id = 5 then 0x280 else 0xE0) && decide (imgField bs 0 4 = 0x434B564C)
    && decide (imgField bs 4 2 = 1) && decide (imgField bs 7 1 = 0) && decide (imgField bs 0x16 2 = 0)
    && decide (imgField bs 0x58 8 = 0) && decide (len ≤ 64) && settingLenOk id len

/-- Whether a signed command may give its setting its value (R378). -/
def changeValueOk (s : State) (bs : List Byte) : Bool :=
  let id := changeId bs
  let v := bytesNat (changeValue bs)
  decide (1 ≤ id) && decide (id ≤ 5) && !(decide (id = 2) && decide (v ≤ s.settingNat 2))
    && !(decide (id = 4) && decide (v / 16 % 4096 ≠ 0))

/-- The first check a signed change fails, in the order of R385: format, serial, sequence, signature, value, tally. -/
def changeCause (s : State) (d : BitVec 1024) (bs : List Byte) : Option Nat :=
  if !changeWell d bs then some 0x16
  else if imgField bs 8 8 ≠ s.idSlot.serial.toNat then some 0x17
  else if imgField bs 0x10 4 ≠ s.keepBank.seq then some 0x18
  else match changeSigner s bs with
  | none => some 0x15
  | some key =>
    if !edVerify "LV1024 keep command" key (bs.take 0x60) (sliceBytes bs 0x60 114) then some 0x12
    else if !changeValueOk s bs then some 0x1A
    else if (tallyOf s.keep (changeId bs)).2 ≤ (tallyOf s.keep (changeId bs)).1 then some 0x19
    else none

/-- A signed change is served: its checks, then its commit. -/
def signedChange (n : Nat) (j : Job) : Act :=
  withBody j 0 (jobBodyLen j.desc) fun b => .look fun s =>
    match b with
    | none => keepRefuse n 0 0x16
    | some bs => match changeCause s j.desc bs with
      | some cause => keepRefuse n (changeId bs) cause
      | none =>
        let signer := ((changeSigner s bs).map fun key => (keyId key).take 8).getD []
        if changeId bs = 5 then enrol n j signer
        else beginCommit n (changeId bs) (changeValue bs) (changeValue bs) (some signer) none

/-- A keep-store command has its turn (R385, R386). -/
def serveKeep (n : Nat) (j : Job) : Act :=
  if jobClass j.desc ≠ 2 then keepRefuse n 0 0x16
  else match keepOp j.desc with
  | 1 => ordinarySet n j
  | 2 => signedChange n j
  | 3 => attest n j
  | _ => keepRefuse n 0 0x16

/-- The physical ranges of the pages of `len` bytes from an address on, those left out that have no translation; `k` gets
them, in order. -/
def imagePages (f : Func) (k : List (Nat × Nat) → Act) : Nat → Nat → Nat → List (Nat × Nat) → Act
  | 0, _, _, l => k l
  | fuel + 1, va, len, l =>
    if len = 0 then k l else
    let n := min len (65536 - va % 65536)
    translate ⟨.trust, f⟩ 0 va n .read 0x0210 0x0210 fun x => imagePages f k fuel (va + n) (len - n) (match x with
      | .ok pa _ => l ++ [(pa, n)]
      | _ => l)

/-- A request with its image placed where its address leads now: its pages, the billet of its first byte, and its frames
(R162, R376). -/
def placeImage (q : LcInstall) (k : LcInstall → Act) : Act :=
  imagePages q.func (fun l => k { q with
      pages := l, base := ((l.head?.map Prod.fst).getD 0) / 2048, frames := ceilDiv q.len 2048 })
    (q.len / 65536 + 2) q.va q.len []

/-- The check of a bundle starts: from here on writes to its range are watched, every byte of it, wherever its pages stand
(R376). -/
def startCheck (n : Nat) (j : Job) : Act :=
  placeImage (lcRequest n j) fun q => updTrust fun t => { t with check := some q }

/-- The trust unit takes the jobs that wait, one at a time, in acceptance order; `k` bounds them (R386). -/
def trustNext : Nat → Act
  | 0 => .done
  | k + 1 => .look fun s =>
    match s.trust.check, s.trust.commit, s.trust.queue with
    | none, none, n :: rest =>
      .seq (updTrust fun t => { t with queue := rest })
        (match s.atJobs n with
        | none => trustNext k
        | some j => if jobKind j.desc = 2 then startCheck n j else .seq (serveKeep n j) (trustNext k))
    | _, _, _ => .done

/-- The trust unit goes on with what waits. -/
def trustGo : Act := .look fun s => trustNext (s.trust.queue.length + 1)

/-- A job whose gates are open joins the trust unit's queue, in acceptance order (R386). -/
def startTrust (n : Nat) : Act :=
  .seq (updTrust fun t => { t with
      queue := t.queue.takeWhile (fun m => decide (m < n)) ++ [n] ++ t.queue.dropWhile (fun m => decide (m < n)) })
    trustGo

/-! ## Commands -/

/-- The fields of a bundle load that must be 0 (R163, R376). -/
def bundleMalformed (d : BitVec 1024) : Option Nat :=
  if lcMalformed d then some 0x0705
  else if jobInline d 0x50 44 ≠ 0 then some 0x0205
  else if jobBodyHost d ∨ jobBodyLen d < 576 then some 0x0210
  else none

/-- A bundle is refused (R376). -/
def bundleRefuse (n code : Nat) : Act := acts [recordErr trustPage code, bump trustPage 0x050 1, endBundle n code]

/-- MODEL_BUNDLE_LOAD (R376): a bundle load is accepted; its check starts when its turn comes. -/
def actModelBundleLoad (f : Func) (ring : Fin 8) (d : BitVec 1024) : Act :=
  ofKind 2 d (whenA (decide (lcOp d ≤ 1)) (acceptJob f ring d [] (fun _ => none) fun n =>
    match bundleMalformed d with
    | some 0x0705 => lcRefuse n 0x0705
    | some code => bundleRefuse n code
    | none => startIfOpen n (startTrust n)))

/-- MODEL_BUNDLE_LOAD. -/
def execModelBundleLoad (f : Func) (ring : Fin 8) (d : BitVec 1024) (s : State) : Host.Outcome State Fault Refusal :=
  meaning (.modelBundleLoad f ring d) (inService (actModelBundleLoad f ring d)) s

/-- BUNDLE_CHECK_DONE (R376): the checks of R371 have ended; the bundle is refused, or its landing-cache request is asked
for. An image that cannot be read is refused with cause 0x10 (DESIGN CHOICE, log entry 38). -/
def actBundleCheckDone : Act := .look fun s =>
  optA s.trust.check fun q0 => optA (s.atJobs q0.job) fun j =>
    .seq (virtRead ⟨.trust, j.func⟩ 0 q0.va q0.len .read 0x0210 0x0210 fun r => .look fun t =>
      let q := t.trust.check.getD q0
      let cause : Option Nat := match r with
        | .ok img => bundleCause t j img q.len
        | _ => some 0x10
      acts [updTrust fun x => { x with check := none }, bump trustPage 0x048 1,
        match cause with
        | some c => bundleRefuse q.job (0x0200 + c)
        | none =>
          if q.written then bundleRefuse q.job 0x0221
          else if lcOp j.desc = 1 then .seq (whenA (jobEvt j.desc) (bundleEvent j 0)) (placeImage q lcAsk)
          else endBundle q.job 0])
      (.seq trustGo lcGo)

/-- BUNDLE_CHECK_DONE. -/
def execBundleCheckDone (s : State) : Host.Outcome State Fault Refusal :=
  meaning .bundleCheckDone (inService actBundleCheckDone) s

/-- A keep-store job of one of the given ops is fetched from its ring (R385). -/
def keepJob (ops : List Nat) (f : Func) (ring : Fin 8) (d : BitVec 1024) (body : List Byte) : Act :=
  ofKind 7 d (whenA (ops.contains (keepOp d))
    (acceptJob f ring d body (fun _ => none) fun n => startIfOpen n (startTrust n)))

/-- ORDINARY_SET: op 1; the ops with no command of their own, 0 and 4 to 15, are refused here with cause 0x16 (R385). -/
def execOrdinarySet (f : Func) (ring : Fin 8) (d : BitVec 1024) (body : List Byte) (s : State) :
    Host.Outcome State Fault Refusal :=
  meaning (.ordinarySet f ring d body)
    (inService (keepJob [0, 1, 4, 5, 6, 7, 8, 9, 10, 11, 12, 13, 14, 15] f ring d body)) s

/-- SIGNED_CHANGE (R385). -/
def execSignedChange (f : Func) (ring : Fin 8) (d : BitVec 1024) (body : List Byte) (s : State) :
    Host.Outcome State Fault Refusal :=
  meaning (.signedChange f ring d body) (inService (keepJob [2] f ring d body)) s

/-- ATTEST (R385). -/
def execAttest (f : Func) (ring : Fin 8) (d : BitVec 1024) (s : State) : Host.Outcome State Fault Refusal :=
  meaning (.attest f ring d) (inService (keepJob [3] f ring d [])) s

/-- A setting takes a value in a list of settings by rising id. -/
def putSetting (l : List (Nat × List Byte)) (id : Nat) (v : List Byte) : List (Nat × List Byte) :=
  (l.filter fun e => decide (e.1 < id)) ++ [(id, v)] ++ (l.filter fun e => decide (id < e.1))

/-- KEEP_COMMIT_DONE (R382): the other bank holds the new record and is in force, or its write failed its read-back. -/
def actKeepCommitDone (failed : Bool) : Act := .look fun s =>
  optA s.trust.commit fun c =>
    let old := s.keepBank
    let new : SettingsBank :=
      { valid := true, seq := (old.seq + 1) % 2 ^ 32, vals := if c.setting = 5 then old.vals else putSetting old.vals c.setting c.value }
    acts [updTrust fun t => { t with commit := none },
      if failed then
        .seq showKeep (.seq (recordErr trustPage 0x021D) (endKeep c.job c.setting 0x021D))
      else acts [
        updKeep fun k =>
          let k1 := if k.activeB then { k with bankA := new, activeB := false } else { k with bankB := new, activeB := true }
          match c.slot with
          | none => k1
          | some d => if k.slot1On then { k1 with slot0 := d, slot1On := false } else { k1 with slot1 := d, slot1On := true },
        showKeep, bump trustPage 0x058 1, raiseIrq trustPage 8, endKeep c.job c.setting 0],
      trustGo]

/-- KEEP_COMMIT_DONE: a commit that runs completes whatever the power-fail warning says (R386). -/
def execKeepCommitDone (failed : Bool) (s : State) : Host.Outcome State Fault Refusal :=
  meaning (.keepCommitDone failed) (inService (actKeepCommitDone failed)) s

/-- A command of a function on the trust page, which is there for every function in service, and for the PF alone in
recovery and out of service (R373, R375, R401). -/
def withTrustPage (f : Func) (a : Act) : Act := whenServed f trustPage a

/-! ## Random source (R384) -/

/-- RNG_HEALTH_FAILURE: a health test fails; bit 0 of `which` the repetition count, bit 1 the adaptive proportion. -/
def actRngHealthFailure (which : BitVec 2) : Act :=
  acts [setRegN trustPage 0x280 2, bump trustPage 0x070 1, recordErr trustPage 0x021B, raiseIrq trustPage 9,
    pageEvent trustPage 0x13 0 (natBytes 4 which.toNat)]

/-- RNG_HEALTH_FAILURE: every raw sample is tested, whatever the device does, from its power-on on; a start-up test of
boot step 3 that fails is one (R372, R384). -/
def execRngHealthFailure (which : BitVec 2) (s : State) : Host.Outcome State Fault Refusal :=
  meaning (.rngHealthFailure which) (.look fun s => whenA (decide (s.phase ≠ .held)) (actRngHealthFailure which)) s

/-- TR_RNG_DATA_READ: a conditioned random word, a free value, or 0 with cause 0x1B after a failure (R384). -/
def actTrRngDataRead (f : Func) : Act :=
  withRead f trustPage 4 (.look fun s =>
    if s.rbit trustPage 0x280 1 then .seq (readZero 4) (recordErr trustPage 0x021B)
    else withFree fun x => readWord (x.extractLsb' 0 32).toNat)

/-- TR_RNG_DATA_READ. -/
def execTrRngDataRead (f : Func) (s : State) : Host.Outcome State Fault Refusal :=
  meaning (.trRngDataRead f) (withTrustPage f (actTrRngDataRead f)) s

/-! ## Boot flash (R375) -/

/-- A flash operation is asked for by a write of TR_FL_CTL: refused with cause 0x1F when the address is misaligned for it
or one runs (R375). -/
def startFlash (f : Func) (op align : Nat) : Act :=
  withWrite f trustPage (.look fun s =>
    let addr := s.rfld trustPage 0x300 0 27
    .seq (setFld trustPage 0x304 0 2 op)
      (if s.trust.flashOp.isSome ∨ addr % align ≠ 0 then recordErr trustPage 0x021F
       else .seq (updTrust fun t => { t with flashOp := some (op, addr,
            (List.range 64).flatMap fun i => natBytes 4 (s.reg trustPage (0x400 + 4 * i)).toNat) })
        (setFld trustPage 0x304 9 1 1)))

/-- Bytes put into the flash from an address on. -/
def putFlash : Nat → List Byte → Act
  | _, [] => .done
  | a, v :: vs => .seq (.eff (.flash a v)) (putFlash (a + 1) vs)

/-- What a byte of the flash holds after it is programmed: an erased byte takes the data; what any other takes the spec
does not state (log entry 39). -/
def programmed (old data : Byte) : Byte :=
  if old = 0xFF then data else (Config.unstated 4 [old.toNat, data.toNat]).extractLsb' 0 8

/-- FLASH_DONE (R375): the operation that runs completes. -/
def actFlashDone : Act := .look fun s =>
  optA s.trust.flashOp fun o =>
    acts [
      match o.1 with
      | 1 => setRegBytes trustPage 64 0x400 ((List.range 256).map fun i => s.atFlash (o.2.1 + i))
      | 2 => putFlash o.2.1 ((List.range 256).map fun i => programmed (s.atFlash (o.2.1 + i)) (o.2.2.getD i 0))
      | _ => .eff (.flashClear o.2.1 (o.2.1 + 65536)),
      updTrust fun t => { t with flashOp := none }, setFld trustPage 0x304 9 1 0, raiseIrq trustPage 10]

/-- FLASH_READ. -/
def execFlashRead (f : Func) (s : State) : Host.Outcome State Fault Refusal :=
  meaning (.flashRead f) (withTrustPage f (startFlash f 1 256)) s

/-- FLASH_PROGRAM. -/
def execFlashProgram (f : Func) (s : State) : Host.Outcome State Fault Refusal :=
  meaning (.flashProgram f) (withTrustPage f (startFlash f 2 256)) s

/-- FLASH_ERASE. -/
def execFlashErase (f : Func) (s : State) : Host.Outcome State Fault Refusal :=
  meaning (.flashErase f) (withTrustPage f (startFlash f 3 65536)) s

/-- FLASH_DONE. -/
def execFlashDone (s : State) : Host.Outcome State Fault Refusal :=
  meaning .flashDone (withTrustPage 0 actFlashDone) s

end Sys2Proof.Machine
end

