-- ==== Sys2Proof/Machine/Binding.lean ====
section
/-! DEFINITION. Binding: the command's checks, the re-binding sequence for every kind of unit, the hold, page sharing, and
the function-level reset of a VF (R46 to R57, R119, R427). -/

namespace Sys2Proof.Machine

/-! ## Jobs that end without having started (R427) -/

/-- The completion event of a binding command (R52, 0x0120), if it asks for one; its signal follows. -/
def endBinding (n op : Nat) (kind num : Nat) (felled : Bool) (epoch code : Nat) : Act := .look fun s =>
  optA (s.atJobs n) fun j =>
    .seq (whenA (jobEvt j.desc || decide (code ≠ 0)) (putEvent 0 0 0x0120 0 code 0
        (natBytes 4 (op + 16 * kind + 256 * num + 2 ^ 24 * b2n felled) ++ natBytes 4 epoch)))
      (endJob n j.desc)

/-- Op of a binding command (R49). -/
def bcOp (d : BitVec 1024) : Nat := fld d 512 4

/-- Unit kind of a binding command (R49). -/
def bcKind (d : BitVec 1024) : Nat := fld d 516 4

/-- A job whose wait has been withdrawn completes with code 0x0803 in its kind's event; its signal is not applied
(R427). -/
def endUnstarted (n : Nat) : Act := .look fun s =>
  optA (s.atJobs n) fun j =>
    .seq (.eff (.jobs n (some { j with desc := putFld j.desc 335 1 0 }))) (match jobKind j.desc with
      | 1 => .seq (forA (s.entriesOf n) fun e => .eff (.entries e.1 none)) (refuseBatch n 0x0803 false)
      | 2 => endBundle n 0x0803
      | 3 => endStreamJob n 0x0803
      | 4 => endTrackJob n 0x0803
      | 6 => endBinding n (bcOp j.desc) (bcKind j.desc) (jobTarget j.desc) false (jobEpoch j.desc) 0x0803
      | 7 => endKeep n 0 0x0803
      | _ => .eff (.jobs n none))

/-- Every take and test that waits on a semaphore of a withdrawn range ends (R427). -/
def endWaits (r : Nat) : Act := .look fun s =>
  let inRange (n : Nat) : Bool := decide (n / 64 = r)
  acts [
    forA s.jobs fun (e : Nat × Option Job) => optA e.2 fun j =>
      whenA (!j.started && bit j.desc 271 && inRange (fld j.desc 256 12)) (endUnstarted e.1),
    forA s.arrays fun (e : Nat × ArraySt) => optA e.2.flight.head? fun x =>
      whenA (x.waiting && inRange (tsWaitSem x.step.desc)) (refuseWait e.1),
    forA s.engines fun (e : Nat × EngineSt) => optA (s.engTaking e.1) fun p =>
      whenA (inRange (sdWaitSem p.desc)) (refuseTake e.1 p),
    endFences inRange]

/-! ## The stop step (R52, R14, R323) -/

/-- A video slot leaves its output: its layer is off and assigned to none, its flags of the frame are gone (R308), and its
strips and holds end (R323). -/
def clearVideo (slot : Nat) : Act := acts [setFld (vPage slot) (blockOff slot) 0 3 0,
  setFld (vPage slot) (blockOff slot + 0x18) 1 1 0, dropStrips slot fun _ => true, releaseLayer slot]

/-- Graphic slots leave their outputs, without their flags of the frame (R309); an output whose flattened run they were in
returns to live (R317, R323). -/
def clearGraphics (slots : List Nat) : Act := .look fun s =>
  .seq (forA slots fun i => .seq (setFld (gPage i) (blockOff i) 0 3 0) (setFld (gPage i) (blockOff i + 0x24) 1 3 0))
    (forA ((List.range 4).filter fun o => decide (s.flatState o ≠ 0) && slots.any (s.flatRun o).contains) flatLive)

/-- The stop of an output: its layers go off and leave it, in the slot pages' shadows too, its commits are discarded,
check rectangles and writeback stop; timing, link and background go on (R52, R323). -/
def stopOutput (o : Nat) : Act := .look fun s =>
  acts [discardGroup o, forA (s.videoOn [] o) clearVideo, clearGraphics (s.graphicOn [] o),
    forA (s.groupVideo o) fun i => setShadow (vPage i) (blockOff i) (putFld (s.shadow (vPage i) (blockOff i)) 0 3 0),
    forA (s.groupGraphic o) fun i => setShadow (gPage i) (blockOff i) (putFld (s.shadow (gPage i) (blockOff i)) 0 3 0),
    forA (List.range 16) fun r => setFld (evidPage o) (0x100 + 32 * r) 0 1 0, setFld (evidPage o) 0x400 0 1 0,
    updOut o fun x => { x with wb := none, crcs := [], retire := [], match_ := 0, miss := 0 },
    setFld (compPage o) 0x118 15 1 0]

/-- The problems of a partition end with code 0x0303 and its cached blocks are discarded unwritten (R345); what was taken
over into its records, and what its tracks have offered, is the old owner's and forgotten, so that no notice reaches the
new owner's records or ring. -/
def stopPartition (t : Nat) : Act := .look fun s =>
  acts [forA (s.track.problems.filter fun p => decide (p.part = t)) fun p => endProblem p 0x0303,
    forA [t, t + 8] fun k => .eff (.tcacheClear (2048 * k) (2048 * (k + 1))),
    updTrack fun x => { x with
      handed := x.handed.filter fun h => decide (h.2.1 ≠ t), sent := x.sent.filter fun e => decide (e.part ≠ t) }]

/-- What a unit does at the stop step (R52). -/
def stopUnit (u : UnitId) : Act := .look fun s =>
  match u.kind with
  | .array => acts [
      whenA (s.unitAt u).standing (.seq (optA (s.atArrays u.num).ctx handFelled) (floorQueued (s.unitAt u).owner)),
      stopUnitCtx u.num 6,
      forA [2 * u.num, 2 * u.num + 1] stopEngine]
  | .pooled => stopEngine (64 + u.num)
  | .pipe => stopPipe u.num
  | .stream =>
    let st := (s.atStreams u.num).state
    whenA (decide (st = .running) || decide (st = .resync)) (leaveRunning u.num .stopped 0)
  | .output => stopOutput u.num
  | .videoPair => .seq (leaveGroups (vPage (2 * u.num))) (forA [2 * u.num, 2 * u.num + 1] clearVideo)
  | .graphicPair => .seq (leaveGroups (gPage (2 * u.num))) (clearGraphics [2 * u.num, 2 * u.num + 1])
  | .partition => stopPartition u.num
  | _ => .done

/-- A re-binding sequence begins: the withdraw step and the stop (R52). -/
def startSeq (u : UnitId) (r : Rebind) : Act :=
  acts [withdrawUnit u r, whenA (decide (u.kind = .semRange)) (endWaits u.num), stopUnit u]

/-- The engines of a unit (R47). -/
def unitEngines (u : UnitId) : List Nat :=
  match u.kind with
  | .array => [2 * u.num, 2 * u.num + 1]
  | .pooled => [64 + u.num]
  | _ => []

/-- The engines that work for a unit: its own, and the pooled engine its array's context has claimed (R52). -/
def State.seqEngines (s : State) (u : UnitId) : List Nat :=
  match u.kind, (s.atArrays u.num).ctx with
  | .array, some c => ctxEngines (s.atCtxs c)
  | _, _ => unitEngines u

/-- Whether a unit's work has stopped: no step runs, and only host reads and remote reads are outstanding (R52, R53). -/
def State.unitStopped (s : State) (u : UnitId) : Bool :=
  let quiet := (s.seqEngines u).all s.engStopped
  let ctxDone := match (s.atArrays u.num).ctx with
    | some c => decide ((s.atCtxs c).state = .retiring) || decide ((s.atCtxs c).state = .held)
    | none => true
  quiet && (decide (u.kind ≠ .array) || ctxDone)

/-- The context of a re-bound array ends; what the array and its engines hold stays for a hold or the scrub (R52,
R57). -/
def endUnitCtx (a : Nat) : Act := .look fun s =>
  optA (s.atArrays a).ctx fun c =>
    let r := s.atCtxs c
    acts [releaseClaims c r, releasePool c r,
      if r.endStatus = 2 ∨ r.endStatus = 6 then tornDown c r else bump schedPage 0x078 1,
      updArr a fun x => { x with ctx := none }, .eff (.ctxs c {}), endEntry r.entry r.endStatus r.endCode]

/-- The scrub of a unit begins (R159). -/
def startScrub (u : UnitId) : Act :=
  .seq (updSeq u fun r => { r with step := .scrub }) (whenA (decide (u.kind = .array)) (setScrub u.num 2 true))

/-- REBIND_STOP_DONE (R52, R53, R57): tags still outstanding are orphaned, the array's context ends, and the sequence
goes to the hold or to the scrub. -/
def actRebindStopDone (u : UnitId) : Act := .look fun s =>
  optA (s.unitAt u).seq fun r =>
    whenA (decide (r.step = .stop) && s.unitStopped u)
      (acts [forA (s.seqEngines u) orphanTags, whenA (decide (u.kind = .array)) (endUnitCtx u.num),
        if r.hold then
          acts [.look fun t => setUnit u { t.unitAt u with state := .held, seq := some { r with step := .held } },
            bindEvent 0 0x24 (bindPayload 0 u false (s.unitAt u).epoch.toNat 0)]
        else startScrub u])

/-- REBIND_STOP_DONE. -/
def execRebindStopDone (unit : UnitId) (s : State) : Host.Outcome State Fault Refusal :=
  meaning (.rebindStopDone unit) (served (actRebindStopDone unit)) s

/-! ## The scrub step (R52, R159, R164) -/

/-- Writes a window has accepted commit before its scrub (R365). -/
def commitWindow (w : Nat) : Nat → Act
  | 0 => .done
  | k + 1 => .seq (commitWinWrite w) (commitWindow w k)

/-- Arrivals that a window has accepted for a scratchpad commit before its scrub, with those ahead of them in their queue
(R364); the memories of a held unit stay untouched (R160). -/
def commitWinArrivals (w : Nat) : Act := .look fun s =>
  forA s.arrays fun (e : Nat × ArraySt) => whenA (decide ((s.unitAt (arrUnit e.1)).state ≠ .held))
    (let q := e.2.arrivals
     let rest := (q.reverse.takeWhile fun v => decide (v.window ≠ w)).reverse
     .seq (updArr e.1 fun x => { x with arrivals := rest })
       (forA (q.take (q.length - rest.length)) fun v => commitArrival e.1 v))

/-- The registered programs of a lane end (R241); its rung, its streak, its moves and the PF's force stay (R252). -/
def endPrograms (l : Nat) : Act := .look fun s =>
  let r := s.atLanes l
  .eff (.lanes l { rung := r.rung, force := r.force, streak := r.streak, moves := r.moves, probe := r.probe })

/-- What the scrub clears of a unit (R52, R159); when an array last reported its drops is the array's, not its owner's
(R174). -/
def scrubUnit (u : UnitId) : Act := .look fun s =>
  match u.kind with
  | .array =>
    let a := u.num
    acts [zeroArray a, clearHandles a, dropQueued a, setScrub a 2 false, bump (spPage a) 0x0A0 36864, raiseIrq (spPage a) 10,
      pageEvent (spPage a) 0x10 0 (natBytes 4 2 ++ natBytes 4 36864),
      updArr a fun x => { dropped := x.dropped, dropAt := x.dropAt },
      forA (unitEngines u) fun e => updEng e fun x => { orphans := x.orphans }, unpinArray a]
  | .pooled => .seq (updEng (64 + u.num) fun x => { orphans := x.orphans })
      (forA s.ctxs fun (c : Nat × CtxRec) => whenA (decide (c.2.pool = some u.num)) (updCtx c.1 fun x => { x with pool := none }))
  | .semRange => .eff (.regsReset (regAddr (0x240 + u.num) 0x100) (regAddr (0x240 + u.num) 0x400))
  | .stream => .seq (.eff (.streams u.num {})) (endPrograms u.num)
  | .output => .eff (.regsReset (regAddr (evidPage u.num) 0x100) (regAddr (evidPage u.num) 0x304))
  | .videoPair => forA [2 * u.num, 2 * u.num + 1] fun slot => .seq (.eff (.layers slot {})) (endPrograms (laneOf slot))
  | .window => acts [commitWindow u.num (s.atWindows u.num).queue.length, commitWinArrivals u.num, .eff (.windows u.num {})]
  | .partition => acts [.eff (.tblkClear (2048 * u.num) (2048 * (u.num + 1))),
      .eff (.tcamClear (4096 * u.num) (4096 * (u.num + 1))), setFld (partPage u.num) 0x014 8 1 0, .eff (.trings u.num {})]
  | _ => .done

/-! ## The hand-over step (R52, R55, R56) -/

/-- The number of a sequence's op in event 0x0120. -/
def opCode : RebindOp → Nat
  | .bind => 1
  | .unbind => 2
  | .move => 3
  | _ => 0

/-- The function-level reset of a VF as it meets one of its units (R55); the unit's standing bit, semaphore class and
split stand, since it stays bound (DEDUCED from R54, log entry 54). -/
def flrUnit (u : UnitId) : Act := .look fun s =>
  let ur := s.unitAt u
  startSeq u {
    op := .flr, step := .stop, oldOwner := ur.owner, newOwner := ur.owner, hadOwner := true, bound := true,
    standing := ur.standing, semClass := ur.semClass }

/-- The hand-over: page maps, owner, state, split and events; a unit that ends unbound keeps no standing bit, class or
split, and a felled array ends unbound (R52, R54, R56). What the acceptance found free is neither kept free nor looked at
again: a page that finds no free slot is left unmapped (DESIGN CHOICE, log entry 54). -/
def handOver (u : UnitId) (r : Rebind) : Act := .look fun s =>
  let ur := s.unitAt u
  let bound := r.bound && !ur.felled
  let stays := decide (r.op = .flr) && bound
  acts [
    whenA (r.hadOwner && decide (r.oldOwner ≠ 0) && !stays) (unmapPages r.oldOwner (unitPages u)),
    whenA (bound && decide (r.newOwner ≠ 0) && !stays) (forA (unitPages u) (mapPage r.newOwner false)),
    setUnit u {
      state := if bound then .bound else .unbound, owner := if bound then r.newOwner else 0, epoch := ur.epoch,
      standing := bound && r.standing, semClass := if bound then r.semClass else 0, felled := ur.felled, seq := none },
    whenA (!stays) (forA (unitEngines u) fun e =>
      setRegN (engPage e) 0x110 (if !bound || decide (r.split = 0) then 0x259 else r.split)),
    .look fun t => whenA bound (bindEvent r.newOwner 0x22
      (bindPayload 0 u false ur.epoch.toNat (t.firstSlot r.newOwner (unitPages u)))),
    optA r.job fun n => endBinding n (opCode r.op) (unitCode u.kind) u.num ur.felled ur.epoch.toNat 0,
    optA r.release fun n => endBinding n 4 (unitCode u.kind) u.num ur.felled ur.epoch.toNat 0,
    whenA (bound && r.flrAfter) (flrUnit u)]

/-- A hold on a fault has been released and its context scrubbed: the unit goes on with its owner, and the release is
complete (R57, R251); felled or reset meanwhile, it is withdrawn now (R56). -/
def endHold (u : UnitId) : Act := .look fun s =>
  let ur := s.unitAt u
  optA ur.seq fun r => whenA (decide (r.op = .hold) && decide (r.step = .scrub))
    (acts [setUnit u { ur with state := .bound, seq := none },
      optA r.release fun n => endBinding n 4 (unitCode u.kind) u.num ur.felled ur.epoch.toNat 0,
      if ur.felled then startSeq u {
          op := .fell, step := .stop, oldOwner := ur.owner, newOwner := 0, hadOwner := true, bound := false,
          standing := ur.standing }
      else whenA r.flrAfter (flrUnit u)])

/-- REBIND_SCRUB_DONE (R52): the scrub ends and the unit is handed over. -/
def actRebindScrubDone (u : UnitId) : Act := .look fun s =>
  optA (s.unitAt u).seq fun r => whenA (decide (r.step = .scrub) && decide (r.op ≠ .hold)) (.seq (scrubUnit u) (handOver u r))

/-- REBIND_SCRUB_DONE. -/
def execRebindScrubDone (unit : UnitId) (s : State) : Host.Outcome State Fault Refusal :=
  meaning (.rebindScrubDone unit) (served (actRebindScrubDone unit)) s

/-- CONTEXT_SCRUB_DONE (R246, R251, R159): the handles' lines are zero, queued arrivals are dropped, the context is
freed and its entry ends; a released hold ends with it (R57). -/
def actContextScrubDone (c : Fin 2048) : Act := .look fun s =>
  let r := s.atCtxs c.val
  let a := r.array
  whenA (decide (r.state = .retiring) && r.scrubbing)
    (acts [zeroHandles a (s.validHandles a), clearHandles a, dropQueued a, setScrub a 1 false, raiseIrq (spPage a) 10,
      bump (spPage a) 0x0A0 (handleLines (s.handles a)),
      pageEvent (spPage a) 0x10 0 (natBytes 4 1 ++ natBytes 4 (handleLines (s.handles a))),
      if r.faulted then tornDown c.val r else bump schedPage 0x078 1,
      freeCtx c.val, endEntry r.entry r.endStatus r.endCode, endHold (arrUnit a)])

/-- CONTEXT_SCRUB_DONE. -/
def execContextScrubDone (c : Fin 2048) (s : State) : Host.Outcome State Fault Refusal :=
  meaning (.contextScrubDone c) (served (actContextScrubDone c)) s

/-! ## The binding command (R47 to R51) -/

/-- The unit kind of a number of R47. -/
def kindOf : Nat → Option UnitKind
  | 1 => some .array
  | 2 => some .pooled
  | 3 => some .semRange
  | 4 => some .pipe
  | 5 => some .stream
  | 6 => some .output
  | 7 => some .videoPair
  | 8 => some .graphicPair
  | 9 => some .window
  | 10 => some .partition
  | _ => none

/-- The block class of a unit kind, for its stale-epoch code (R49). -/
def kindClass : UnitKind → Nat
  | .array => 5
  | .pooled | .semRange => 8
  | .pipe | .stream => 4
  | .output | .videoPair | .graphicPair => 0xB
  | .window => 0xD
  | .partition => 0xC

/-- New owner of a binding command (R49). -/
def bcOwner (d : BitVec 1024) : Func := Fin.ofNat 32 (fld d 520 5)

/-- A binding command's reserved bits (R49). -/
def bcMbz (d : BitVec 1024) : Bool :=
  bit d 527 || decide (fld d 530 14 ≠ 0) || decide (fld d 556 20 ≠ 0) || decide (fld d 576 416 ≠ 0)

/-- The split of a binding command (R49). -/
def bcSplit (d : BitVec 1024) : Nat := fld d 544 12

/-- The split is allowed for the kind: three zeros or a sum of 16 on engines, zero elsewhere (R49). -/
def splitOk (k : UnitKind) (v : Nat) : Bool :=
  decide (v = 0) || ((decide (k = .array) || decide (k = .pooled)) && decide (v % 16 + v / 16 % 16 + v / 256 % 16 = 16))

/-- Whether an accepted binding command for the unit has not started: a later one runs after it and carries an epoch
that is then stale (R56). -/
def State.unitAwaited (s : State) (u : UnitId) : Bool :=
  s.jobs.any fun e => (e.2.map fun j => decide (jobKind j.desc = 6) && !j.started && decide (jobTarget j.desc = u.num)
    && decide (bcKind j.desc = unitCode u.kind) && decide (bcOp j.desc < 5)).getD false

/-- The pages that belong to the PF permanently and can be shared (R48). -/
def sharable (p : Nat) : Bool := decide (p < 0x1000) && (unitOfPage p).isNone && (pageClass p).isSome

/-- Whether a VF has a page mapped read-only. -/
def State.sharedInto (s : State) (f : Func) (p : Nat) : Bool :=
  bindSlots.any fun k => decide (s.pmap f k = p + 2 ^ 14 + 2 ^ 15)

/-- The refusal of a share or a withdrawal of one (R50, R51). The spec does not say what its unit kind holds, which is
not looked at; nor how it names its causes for the PF as owner (0x22, a function without a page map) and for a page
number that is no page of the PF (0x23, no page in the state the op asks for); nor against what it checks the epoch of a
page that is never re-bound (0, which PG_BIND shows, with cause 0x03 of the page's class): DESIGN CHOICE, log entry 54. -/
def shareRefusal (s : State) (d : BitVec 1024) : Option Nat :=
  let f := bcOwner d
  let p := jobTarget d
  if bit d 525 ∨ fld d 528 2 ≠ 0 then some 0x0126
  else if bcSplit d ≠ 0 then some 0x0124
  else if f = 0 ∨ s.vfs < f.val then some 0x0122
  else if ¬ sharable p then some 0x0123
  else if jobEpoch d ≠ 0 then some (256 * classOf p + 3)
  else if bcOp d = 5 ∧ ¬ s.sharedInto f p ∧ s.freeSlots f = 0 then some 0x0125
  else none

/-- The state a unit must be in for an op (R50). -/
def opState (op : Nat) : BindState := if op = 1 then .unbound else if op = 4 then .held else .bound

/-- The refusal of a binding command, in the order of its causes (R47, R49 to R51; log entry 45). An unbind and a
release hold give the unit to no owner, and their owner field is not looked at; a held array that is felled meets cause
0x21 for every op, release hold among them, so that its hold ends by a reset alone (R51 and R119 against R56 and R57;
both DESIGN CHOICE, log entry 54). -/
def bindRefusal (s : State) (d : BitVec 1024) : Option Nat :=
  let op := bcOp d
  if bcMbz d then some 0x0105
  else if op = 0 ∨ 6 < op then some 0x0120
  else if 5 ≤ op then shareRefusal s d
  else match kindOf (bcKind d) with
  | none => some 0x0120
  | some k =>
    let u : UnitId := ⟨k, jobTarget d⟩
    let ur := s.unitAt u
    let owner := bcOwner d
    let given := decide (op = 1) || decide (op = 3)
    if unitCount k ≤ u.num ∨ s.outOfService u then some 0x0121
    else if (bit d 525 ∧ k ≠ .array) ∨ (if k = .semRange then fld d 528 2 = 3 else fld d 528 2 ≠ 0) then some 0x0126
    else if ¬ splitOk k (bcSplit d) then some 0x0124
    else if given ∧ s.vfs < owner.val then some 0x0122
    else if jobEpoch d ≠ ur.epoch.toNat ∨ s.unitAwaited u then some (256 * kindClass k + 3)
    else if ur.state ≠ opState op then some 0x0123
    else if given ∧ owner ≠ 0
        ∧ s.freeSlots owner + (if op = 3 ∧ ur.owner = owner then (unitPages u).length else 0) < (unitPages u).length then
      some 0x0125
    else none

/-- A release ends a running dump, and the unit, held no more, goes on with the scrub as a re-binding unit (R57, R160;
its state from here on is DEDUCED, log entry 54); a context held on its fault is scrubbed as a teardown is (R251). -/
def releaseHold (n : Nat) (u : UnitId) (r : Rebind) : Act := .look fun s =>
  let ur := s.unitAt u
  acts [whenA (decide (u.kind = .array)) (cutDump u.num),
    setUnit u { ur with state := .rebinding, seq := some { r with release := some n, step := .scrub } },
    if r.op = .hold then
      optA (s.atArrays u.num).ctx fun c =>
        .seq (updCtx c fun x => { x with state := .retiring, scrubbing := true }) (setScrub u.num 1 true)
    else whenA (decide (u.kind = .array)) (setScrub u.num 2 true)]

/-- A share maps a page read-only into a VF; its withdrawal unmaps it (R48, R50). A share that the VF has already takes no
second slot, and a withdrawal of one it does not have completes without effect (DESIGN CHOICE, log entry 54). -/
def sharePage (n : Nat) (d : BitVec 1024) : Act := .look fun s =>
  let f := bcOwner d
  let p := jobTarget d
  .seq (if bcOp d = 6 then unmapPages f [p] else whenA (!s.sharedInto f p) (mapPage f true p))
    (endBinding n (bcOp d) (bcKind d) p false 0 0)

/-- A binding command starts; one whose unit has changed since its acceptance does nothing and says so (R56; log entry
45). -/
def startBinding (n : Nat) : Act := .look fun s =>
  optA (s.atJobs n) fun j =>
    let d := j.desc
    let op := bcOp d
    if 5 ≤ op then sharePage n d
    else optA (kindOf (bcKind d)) fun k =>
      let u : UnitId := ⟨k, jobTarget d⟩
      let ur := s.unitAt u
      if jobEpoch d ≠ ur.epoch.toNat ∨ ur.state ≠ opState op ∨ s.outOfService u then
        endBinding n op (bcKind d) u.num ur.felled ur.epoch.toNat (256 * kindClass k + 3)
      else if op = 4 then optA ur.seq fun r => releaseHold n u r
      else startSeq u {
        op := if op = 1 then .bind else if op = 2 then .unbind else .move, step := .stop, oldOwner := ur.owner,
        newOwner := bcOwner d, hadOwner := decide (op ≠ 1), bound := decide (op ≠ 2), hold := bit d 526, job := some n,
        standing := bit d 525, semClass := fld d 528 2, split := bcSplit d }

/-- The boot scrub runs: no binding is accepted until it ends (R159). -/
def State.bootScrub (s : State) : Bool := decide (s.rfld (spPage 0) 0x10C 0 3 = 7)

/-- A fetched binding command of given ops (R49, R51). -/
def bindJob (ops : List Nat) (f : Func) (ring : Fin 8) (d : BitVec 1024) : Act := .look fun s =>
  ofKind 6 d (whenA (ops.contains (bcOp d) && !s.bootScrub)
    (acceptJob f ring d [] (fun t => bindRefusal t d) fun n => startIfOpen n (startBinding n)))

/-- BIND (R50); the ops no rule gives are refused by the same checks. -/
def execBind (f : Func) (ring : Fin 8) (desc : BitVec 1024) (s : State) : Host.Outcome State Fault Refusal :=
  meaning (.bind f ring desc) (served (bindJob [1, 0, 7, 8, 9, 10, 11, 12, 13, 14, 15] f ring desc)) s

/-- UNBIND. -/
def execUnbind (f : Func) (ring : Fin 8) (desc : BitVec 1024) (s : State) : Host.Outcome State Fault Refusal :=
  meaning (.unbind f ring desc) (served (bindJob [2] f ring desc)) s

/-- MOVE. -/
def execMove (f : Func) (ring : Fin 8) (desc : BitVec 1024) (s : State) : Host.Outcome State Fault Refusal :=
  meaning (.move f ring desc) (served (bindJob [3] f ring desc)) s

/-- RELEASE_HOLD (R57). -/
def execReleaseHold (f : Func) (ring : Fin 8) (desc : BitVec 1024) (s : State) : Host.Outcome State Fault Refusal :=
  meaning (.releaseHold f ring desc) (served (bindJob [4] f ring desc)) s

/-- SHARE_READ_ONLY. -/
def execShareReadOnly (f : Func) (ring : Fin 8) (desc : BitVec 1024) (s : State) : Host.Outcome State Fault Refusal :=
  meaning (.shareReadOnly f ring desc) (inService (bindJob [5] f ring desc)) s

/-- WITHDRAW_SHARE. -/
def execWithdrawShare (f : Func) (ring : Fin 8) (desc : BitVec 1024) (s : State) : Host.Outcome State Fault Refusal :=
  meaning (.withdrawShare f ring desc) (inService (bindJob [6] f ring desc)) s

/-! ## The function-level reset of a VF (R46, R55, R56) -/

/-- What a reset of a VF does to a unit: one of its own runs the sequence with the VF as both owners; one whose sequence
or hold will leave it with the VF runs it after; one on its way from the VF is not affected (R55 to R57; a unit held on a
fault is read so too, DEDUCED, log entry 54). -/
def flrMeets (f : Func) (u : UnitId) : Act := .look fun s =>
  let ur := s.unitAt u
  match ur.seq with
  | none => whenA (decide (ur.state = .bound) && decide (ur.owner = f)) (flrUnit u)
  | some r => whenA (r.bound && decide (r.newOwner = f)) (updSeq u fun x => { x with flrAfter := true })

/-- All bind units (R47). -/
def allUnits : List UnitId :=
  [UnitKind.array, .pooled, .semRange, .pipe, .stream, .output, .videoPair, .graphicPair, .window, .partition].flatMap
    fun k => (List.range (unitCount k)).map fun n => ⟨k, n⟩

/-- The function-level reset of a VF: its rings are disabled, its MSI-X table is reset, its saved contexts and its jobs
end, and its units run the sequence (R46, R55). -/
def resetVf (f : Func) : Act := .look fun s =>
  let g := globalPage f
  acts [
    forA (List.range 8) fun n => acts [setFld g (evrOff n + 8) 31 1 0, setFld g (jrOff n + 8) 31 1 0,
      .eff (.rings (ringKey f n) {})],
    .eff (.regsReset (regAddr (vfMsixPage f) 0) (regAddr (vfMsixPage f + 1) 0)),
    forA s.ctxs fun (c : Nat × CtxRec) => whenA (decide (c.2.func = f) && decide (c.2.state = .saved))
      (acts [forA s.arrays fun (a : Nat × ArraySt) => whenA (decide (a.2.reserved = some c.1)) (updArr a.1 fun x => { x with reserved := none }),
        releaseClaims c.1 c.2, .eff (.ctxs c.1 {}), endEntry c.2.entry 6 0]),
    forA s.entries fun (e : Nat × Option EntryRec) => optA e.2 fun x =>
      whenA (decide (x.func = f) && (decide (x.state = .waiting) || decide (x.state = .queued))) (endEntry e.1 6 0),
    .look fun t => forA t.jobs fun (e : Nat × Option Job) => optA e.2 fun j =>
      whenA (decide (j.func = f) && (decide (jobKind j.desc ≠ 1) || !j.started)) (.eff (.jobs e.1 none)),
    .eff (.lcWait (s.lcWait.filter fun q => decide (q.func ≠ f))),
    forA (allUnits.filter fun u => decide (s.atUnits (unitKey u) ≠ {})) (flrMeets f)]

/-- VF_FLR (R46). -/
def actVfFlr (f : Func) : Act := whenA (decide (f ≠ 0)) (.look fun s => whenA (decide (f.val ≤ s.vfs)) (resetVf f))

/-- VF_FLR. -/
def execVfFlr (f : Func) (s : State) : Host.Outcome State Fault Refusal :=
  meaning (.vfFlr f) (served (actVfFlr f)) s

/-- SRIOV_VF_ENABLE (R51): VFs that are no longer enabled are reset (PRESUMED, log entry 44). -/
def actSriovVfEnable (count : Nat) : Act := .look fun s =>
  .seq (forA ((List.finRange 32).filter fun f => decide (count < f.val ∧ f.val ≤ s.vfs)) actVfFlr) (.eff (.vfs (min 31 count)))

/-- SRIOV_VF_ENABLE. -/
def execSriovVfEnable (count : Nat) (s : State) : Host.Outcome State Fault Refusal :=
  meaning (.sriovVfEnable count) (served (actSriovVfEnable count)) s

end Sys2Proof.Machine
end

