-- ==== Sys2Proof/Machine/Resets.lean ====
section
/-! DEFINITION. Boot, the resets, device faults, the thermal points and what ends with a reset (R372 to R375, R382, R390
to R401, R409 to R415, R425, R426). -/

namespace Sys2Proof.Machine

/-! ## The keep store at boot step 2 (R377, R382) -/

/-- A history entry with its void bit set and its check renewed (R381, R382). -/
def voidEntry (e : BitVec 1024) : BitVec 1024 :=
  let v := putFld e 26 1 1
  putFld v 992 32 (crc32c (natBytes 124 (v.toNat % 2 ^ 992))).toNat

/-- A history entry counts for a rebuild: tallied, not void, and with its check in order (R381, R382). -/
def histCounts (e : BitVec 1024) : Bool :=
  bit e 24 && !bit e 26 && decide (fld e 992 32 = (crc32c (natBytes 124 (e.toNat % 2 ^ 992))).toNat)

/-- Settings sequence a history entry creates. -/
def histSeq (e : BitVec 1024) : Nat := fld e 32 32

/-- The newest valid tallied entry of a setting that is not void. -/
def newestTallied (h : List (BitVec 1024)) (id : Nat) : Option (BitVec 1024) :=
  (h.filter fun e => histCounts e && decide (fld e 16 8 = id)).foldl
    (fun (m : Option (BitVec 1024)) e => match m with
      | none => some e
      | some x => if histSeq x < histSeq e then some e else some x) none

/-- Both banks invalid: bank A is rebuilt from the history (R382), its sequence number of 32 bits (R275). -/
def rebuildSettings : Act := .look fun s =>
  let k := s.keep
  let seq := (1 + (k.hist.map histSeq).foldl max 0) % 2 ^ 32
  let vals := [1, 2, 3, 4].filterMap fun id =>
    (newestTallied k.hist id).map fun e => (id, (natBytes 64 (fld e 128 512)).take (fld e 640 16))
  whenA (!k.bankA.valid && !k.bankB.valid && !s.tb.pfwBlock)
    (acts [.eff (.keep { k with bankA := { valid := true, seq := seq, vals := vals }, activeB := false }), showKeep,
      recordErr trustPage 0x0220, pageEvent trustPage 0x14 0 (List.replicate 4 0 ++ natBytes 4 seq)])

/-- Boot step 2: a commit that a reset has cut off leaves the other bank; the valid bank of the higher sequence is
active, history entries beyond it are void, and the newer identity slot is in force (R372, R377, R382, R383). -/
def selectKeep : Act := .look fun s =>
  let k := s.keep
  let useB := k.bankB.valid && (!k.bankA.valid || decide (k.bankA.seq < k.bankB.seq))
  let seq := if useB then k.bankB.seq else k.bankA.seq
  acts [updTrust fun t => { t with commit := none },
    .eff (.keep { k with
      activeB := useB,
      slot1On := k.slot1.valid && (!k.slot0.valid || decide (k.slot0.seq < k.slot1.seq)),
      hist := k.hist.map fun e =>
        if seq < histSeq e ∧ (k.bankA.valid ∨ k.bankB.valid) ∧ ¬ bit e 26 then voidEntry e else e }),
    rebuildSettings, showKeep]

/-- Keep-store settings 0x12 and 0x13 are applied (R378, R396). -/
def applySettings : Act := .look fun s =>
  .seq (optA (s.setting 0x12) fun v => setFld memPage 0x10C 0 10 (bytesNat v))
    (whenA (decide (s.settingNat 0x13 ≠ 0)) (.seq (setFld tbPage 0x100 0 1 1) (ptmState 1)))

/-- PFW_REARM (R269, R426): a rebuild that the warning has held back runs. A device in power-on reset ignores the input
(R409). -/
def actPfwRearmed (now : Dword) : Act := .look fun s =>
  if s.phase = .held then .done else .seq (actPfwRearm now) rebuildSettings

/-- PFW_REARM. -/
def execPfwRearm (now : Dword) (s : State) : Host.Outcome State Fault Refusal :=
  meaning (.pfwRearm now) (actPfwRearmed now) s

/-! ## What a reset clears -/

/-- The first address past the register pages. -/
def regTop : Nat := regAddr 0x1040 0

/-- Every register outside the ranges of a rising list goes to its reset value. -/
def resetRegs (lo : Nat) : List (Nat × Nat) → Act
  | [] => .eff (.regsReset lo regTop)
  | (a, b) :: l => .seq (.eff (.regsReset lo a)) (resetRegs b l)

/-- A flash operation that a reset cuts off leaves its bytes open (R399, log entry 39). -/
def cutFlash : Act := .look fun s =>
  optA s.trust.flashOp fun o =>
    .seq (whenA (decide (o.1 ≠ 1)) (withFree fun x =>
        forA (List.range (if o.1 = 2 then 256 else 65536)) fun i =>
          .eff (.flash (o.2.1 + i) ((Config.unstated 6 [x.toNat, i]).setWidth 8))))
      (setFld trustPage 0x304 9 1 0)

/-- The track engine loses all but its creation count: identifiers are never reused (R330). -/
def updTrackCount : Act := .look fun s => .eff (.track { created := s.track.created })

/-- All work in flight is gone: commits, jobs, contexts, sequencers, engines, streams, strips, traffic and queues. Tags
that were outstanding stay orphaned, and a landing cache and scratchpads scrubbed; the defaults of the loaded image and
the events that wait for ring 0 stay (R159, R374, R396, R399). -/
def dropWork : Act := .look fun s => acts [
  .eff (.shadowsReset 0 regTop), .eff (.commitsClear 0 regTop), .eff (.latchesClear 0 regTop), .eff (.ringsClear 0 256),
  .eff (.jobsClear 0 (2 ^ 64)), .eff (.heldClear 0 billetCount), .eff (.bufferedClear 0 16), .eff (.tlb {}), .eff (.inval none),
  .eff (.lcSlotsClear 0 64), .eff (.lcWait []), .eff (.lcFill none), .eff (.spClear 0 (spKey 32 0)), .eff (.arraysClear 0 32),
  forA s.engines fun (e : Nat × EngineSt) => .eff (.engines e.1 { orphans := e.2.orphans ++ e.2.reqs.map fun r => r.tag }),
  .eff (.ctxsClear 0 2048), .eff (.entriesClear 0 (2 ^ 64)), .eff (.lanesClear 0 2048), .eff (.classCountsClear 0 4),
  .eff (.portsClear 0 2), .eff (.remotesClear 0 65536), .eff (.windowsClear 0 64), .eff (.streamsClear 0 1024),
  .eff (.pipesClear 0 16), .eff (.layersClear 0 64), .eff (.outsClear 0 4), cutFlash,
  updTrust fun t => { digest := t.digest, defaults := t.defaults }, updTrackCount, .eff (.tblkClear 0 16384),
  .eff (.tcacheClear 0 32768), .eff (.tcamClear 0 32768), .eff (.tringsClear 0 8)]

/-- Everything but the keep store and the flash is gone, as at power-on (R395). -/
def clearAll : Act := acts [
  dropWork, resetRegs 0 [], .eff (.unitsClear 0 0x10000), .eff (.enginesClear 0 80), .eff (.memClear 0 stackTop),
  .eff (.codingMapClear 0 billetCount), .eff (.crcDiffClear 0 billetCount), updTrust fun _ => {}, .eff (.zeroing false),
  .eff (.flogClear 0 1024), .eff (.flogN 0), .eff (.faultsAt []), .eff (.tb {}), .eff (.setTime 0), .eff (.vfs 0), .eff (.d3 0),
  .eff (.pcieAfter false), .eff (.tripHold false), .eff (.ruin none), .eff (.relock false), .eff (.linkWait false), .eff (.lost 0),
  .eff (.thermtrip false), .eff (.owed [])]

/-! ## Self-test (R393, R394) -/

/-- The self-test: failing pipes are withdrawn and failing arrays start felled, each recorded in the PF's global page and
logged at scope 6, in increasing block class; the others are in service (R392, R393, R394, R403). Event 0x0132 waits for
the PF's ring 0, which no reset leaves enabled (DEDUCED from R396, log entry 46). -/
def selfTest (t : SelfTest) : Act := acts [
  forA (List.range 16) fun p => whenA (bit t.pipes p)
    (.seq (recordErr 0 0x0136) (flog 0x0136 6 0 (pipePage p) 0 0xFFFF 0)),
  forA (List.range 32) fun a => .look fun s => .seq
    (setUnit (arrUnit a) { s.unitAt (arrUnit a) with felled := bit t.arrays a })
    (whenA (bit t.arrays a) (.seq (recordErr 0 0x0135) (flog 0x0135 6 0 (arrPage a) 0 0xFFFF 0))),
  setReg 0 0x308 t.arrays, setRegN 0 0x30C t.pipes.toNat,
  .look fun s => .eff (.owed (s.owed ++ [(0x0132, List.replicate 4 0 ++ natBytes 4 t.arrays.toNat ++ natBytes 2 t.pipes.toNat)]))]

/-- No array is in service (R392, R400). -/
def State.noArray (s : State) : Bool := (List.range 32).all fun a => (s.unitAt (arrUnit a)).felled

/-- After boot or a warm reset the device enters the no-service state when a unit of R400 is missing, and records the
cause that decides it (R401): a fault that has ruined service, 0x37 with no array, 0x34 with the host port or the
scheduler gone (DEDUCED from R392, log entry 61); the trust unit has no cause of its own, so its code is free. -/
def endUnserved : Act := .look fun s =>
  match s.ruin.or (if s.noArray then some 0x0137 else if s.lost.getLsbD 4 || s.lost.getLsbD 6 then some 0x0134 else none) with
  | some code => .seq (recordErr 0 code) enterNoService
  | none => whenA (s.lost.getLsbD 5)
      (.seq (withFree fun x => recordErr 0 (0x0100 + (x.extractLsb' 0 8).toNat)) enterNoService)

/-! ## Power-on and boot (R372, R373, R409, R410) -/

/-- The bytes of image copy `c` in flash: header and at most 2,096,640 B of payload (R370, R372). -/
def State.imageCopy (s : State) (c : Nat) : List Byte :=
  let head := (List.range 512).map fun i => s.atFlash (0x400000 * c + i)
  head ++ (List.range (min (imgPlen head) 2096640)).map fun i => s.atFlash (0x400000 * c + 512 + i)

/-- Step 6: the table records, with the thermal limits and the defaults of ordinary settings, and the image's identity are
loaded from a copy that passed (R371, R372). -/
def loadImage (c : Nat) (fallback : Bool) (code : Nat) : Act := .look fun s =>
  let img := s.imageCopy c
  acts [setRegN trustPage 0x100 (6 + 16 * c + 32 * b2n fallback + 65536 * code), setRegN trustPage 0x104 (imgField img 0xC 4),
    setRegN trustPage 0x108 (imgField img 0x10 4), setRegN trustPage 0x10C (imgField img 8 4),
    updTrust fun t => { t with digest := sliceBytes img 0x20 64, defaults := imageDefaults (imgPayload img) },
    setRegN 0 0x218 ((imageLimits (imgPayload img)).1 + 256 * (imageLimits (imgPayload img)).2), applySettings]

/-- Neither copy may run, or the strap asks for it: recovery, with cause 0x14, and the fallback shown where the other copy
was read and checked too (R373). -/
def enterRecovery (fallback : Bool) (code : Nat) : Act := acts [
  setRegN trustPage 0x100 (0xF + 32 * b2n fallback + 65536 * code), recordErr trustPage 0x0214, .eff (.phase .recovery)]

/-- Boot steps 2 to 6 (R372, R373), with the zeroing of the stack beside them (R211). -/
def bootSteps : Act := .seq selectKeep (.look fun s =>
  let first := if s.rbit trustPage 0x12C 1 ∨ s.settingNat 0x10 = 1 then 1 else 0
  acts [setFld trustPage 0x280 0 1 (b2n (!s.rbit trustPage 0x280 1)), .eff (.zeroing true),
    if s.rbit trustPage 0x12C 0 then enterRecovery false 0
    else match controlCause s (s.imageCopy first) with
      | none => .seq (bump trustPage 0x040 1) (loadImage first false 0)
      | some code => .seq (bump trustPage 0x040 2) (match controlCause s (s.imageCopy (1 - first)) with
        | none => loadImage (1 - first) true code
        | some _ => enterRecovery true code)])

/-- The hottest junction reading, in °C (R415). -/
def State.hottest (s : State) : Int := (BitVec.ofNat 8 (s.rfld 0 0x214 0 8)).toInt

/-- Boot goes on from step 1, unless the hottest sensor reads below 0 °C (R425). -/
def bootFromStep1 : Act := .look fun s => whenA (decide (0 ≤ s.hottest)) bootSteps

/-- A reset during boot steps 1 to 6 restarts boot at step 1, with device time 0, the faults noted counting from there on,
and the zeroing from its start (R374, R391, R395). -/
def restartBoot : Act := .look fun s => acts [.eff (.setTime 0), .eff (.faultsAt (s.faultsAt.map fun _ => 0)),
  setRegN trustPage 0x100 1, .eff (.zeroing false), bootFromStep1]

/-- DEVICE_FAULT (R391): during boot a lost or untrained stack channel, or the third fault within one second, ends out of
service, and any other fault restarts boot (R374, R392); in recovery it is noted. -/
def actDeviceFault (code : Nat) : Act := .look fun s =>
  match s.phase with
  | .booting => .seq (noteFault code) (if code = 0x0131 ∨ 3 ≤ s.recentFaults.length then enterNoService else restartBoot)
  | .recovery => noteFault code
  | _ => deviceFault code

/-- What the device does at a junction reading and the sensor that gives it (R425): the alert with 5 °C of hysteresis, the
trip, the hold at 125 °C; boot that stands at step 1 goes on from 0 °C up. -/
def takeTemp (h : Int × Nat) : Act := .look fun s =>
  let point := s.rfld 0 0x218 0 8
  let tell (on : Bool) : Act := .seq (setFld 0 0x214 12 1 (b2n on))
    (putEvent 0 0 0x0133 0 0 0 (natBytes 4 (b2n on + 256 * h.2) ++ natBytes 1 (wrapInt h.1 8) ++ natBytes 1 point))
  acts [setFld 0 0x214 0 12 (wrapInt h.1 8 + 256 * h.2),
    if ¬ s.rbit 0 0x214 12 ∧ (point : Int) ≤ h.1 then tell true
    else whenA (s.rbit 0 0x214 12 && decide (h.1 ≤ (point : Int) - 5)) (tell false),
    if 125 ≤ h.1 then acts [clearAll, .eff (.thermtrip true), .eff (.phase .held)]
    else .seq
      (whenA (decide ((s.rfld 0 0x218 8 8 : Int) ≤ h.1) && !s.tripHold) (.seq (setFld 0 0x214 13 1 1) (actDeviceFault 0x0132)))
      (.look fun t => whenA (decide (t.phase = .booting) && decide (t.rfld trustPage 0x100 0 4 = 1) && decide (0 ≤ h.1)) bootSteps)]

/-- POWER_ON_RESET (R372, R395, R414, R425): nothing but the keep store and the flash is left; the straps are sampled,
the self-test runs, and the points of R425 are acted on at the reading of step 1, from which boot goes on. Which sensor
gives the reading is not said: it is free. -/
def actPowerOnReset (t : Straps) : Act := acts [
  clearAll, .eff (.phase .booting), setRegN 0 0x210 (b2n t.recovery + 2 * b2n t.copy1 + 4 * b2n t.osc),
  setRegN trustPage 0x12C (b2n t.recovery + 2 * b2n t.copy1), setRegN trustPage 0x100 1, .eff (.lost t.lost),
  flog 0 5 0 0xFFF 0 0xFFFF 0, selfTest t.test, withFree fun x => takeTemp (t.hottest, x.toNat % 16)]

/-- POWER_ON_RESET. -/
def execPowerOnReset (straps : Straps) (s : State) : Host.Outcome State Fault Refusal :=
  meaning (.powerOnReset straps) (actPowerOnReset straps) s

/-- POR_N_FALL (R410): the device is held in power-on reset; what the keep store and the flash hold stays, with a commit
or a flash operation cut off. -/
def actPorNFall : Act := .seq clearAll (.eff (.phase .held))

/-- POR_N_FALL. -/
def execPorNFall (s : State) : Host.Outcome State Fault Refusal :=
  meaning .porNFall actPorNFall s

/-- STACK_ZEROING_DONE (R211). -/
def execStackZeroingDone (s : State) : Host.Outcome State Fault Refusal :=
  meaning .stackZeroingDone actStackZeroingDone s

/-- BOOT_COMPLETE (R372): the image is loaded and the stack is zero, so the host port is released and the boot scrub
begins (R159); event 0x0210 waits for the PF's ring 0. -/
def actBootComplete : Act := .look fun s =>
  whenA (decide (s.phase = .booting) && !s.zeroing && decide (s.rfld trustPage 0x100 0 4 = 6))
    (acts [setFld trustPage 0x100 0 4 7,
      .eff (.phase .service), endUnserved,
      forA (List.range 32) fun a => setScrub a 3 true,
      .eff (.owed (s.owed ++ [(0x0210, natBytes 4 (s.rfld trustPage 0x100 4 2) ++ natBytes 4 (s.reg trustPage 0x108).toNat
        ++ natBytes 4 (s.reg trustPage 0x10C).toNat)]))])

/-- BOOT_COMPLETE. -/
def execBootComplete (s : State) : Host.Outcome State Fault Refusal :=
  meaning .bootComplete actBootComplete s

/-- BOOT_SCRUB_DONE (R159): every scratchpad and the landing cache are zero, and bindings are accepted from now on. -/
def actBootScrubDone : Act := .look fun s =>
  whenA s.bootScrub
    (.seq (.eff (.lcSlotsClear 0 64)) (forA (List.range 32) fun a => acts [zeroArray a, setScrub a 3 false,
      bump (spPage a) 0x0A0 36864, raiseIrq (spPage a) 10]))

/-- BOOT_SCRUB_DONE. -/
def execBootScrubDone (s : State) : Host.Outcome State Fault Refusal :=
  meaning .bootScrubDone (inService actBootScrubDone) s

/-! ## The warm reset (R395 to R399) -/

/-- The registers that keep their values across a warm reset: the link, the straps and limits, the reset status and the
fault log's registers with the masks of felled arrays and withdrawn pipes, the trust page, MEM_BAD, the PTM offset and
the mains history (R374, R397; log entry 46). -/
def warmKeeps : List (Nat × Nat) :=
  [(regAddr 0 0x20C, regAddr 0 0x214), (regAddr 0 0x218, regAddr 0 0x21C), (regAddr 0 0x304, regAddr 0 0x340),
    (regAddr 0x020 0, regAddr 0x021 0), (regAddr 0x030 0x200, regAddr 0x030 0x284), (regAddr 0x160 0x108, regAddr 0x160 0x10C),
    (regAddr 0x160 0x400, regAddr 0x160 0xC00)]

/-- Every unit comes back unbound at the next epoch, felled arrays staying felled (R398). -/
def unbindAll : Act := forA allUnits fun u => .look fun s =>
  setUnit u { epoch := (s.unitAt u).epoch + 1, felled := (s.unitAt u).felled }

/-- A save that a reset stops leaves 0 at the magic word of its area (R248, R399): the writes are held, so the stack takes
them at once, while writes held before are lost (R220). -/
def cutSaves : Act := .look fun s => acts [.eff (.heldClear 0 billetCount),
  forA s.ctxs fun (c : Nat × CtxRec) =>
    whenA (decide (c.2.state = .saving)) (optA (s.atEntries c.2.entry) fun e =>
      virtWrite ⟨.restore, c.2.func⟩ c.2.asid (bodySave (entryBody e)) (natBytes 4 0) 0x0900 0x0900 none fun _ => .done),
  .look fun t => forA t.held fun h => finishMerge h.1]

/-- The reset kind of a trigger (R403). -/
def resetCode : ResetKind → Nat
  | .pfWrite => 1
  | .pfFlr => 2
  | .pcie => 3
  | .fault => 4

/-- The fence of a warm reset of a kind (R396, step 1): from here to the release the phase turns every access and command
away that the fence does. A PCI Express reset returns configuration space to its reset state, and its release waits for
link training. -/
def beginReset (kind : ResetKind) : Act :=
  .seq (.eff (.phase (.fenced (resetCode kind))))
    (whenA (decide (kind = .pcie)) (acts [.eff (.vfs 0), .eff (.d3 0), .eff (.linkWait true)]))

/-- The steps of a warm reset after its fence, to the release (R396). The transmitters keep their training, so link
status and training result stay (R396). -/
def warmSteps (code : Nat) (test : SelfTest) (lost : LostUnits) : Act := .look fun s =>
  let count := satNat 0xFFFF (s.rfld 0 0x304 16 16 + 1)
  acts [cutSaves, forA (List.range 32) cutDump, dropWork, selectKeep, resetRegs 0 warmKeeps,
    forA (List.range 4) fun o => .seq (setReg (linkPage o) 0x118 (s.reg (linkPage o) 0x118 &&& 0xC))
      (setReg (linkPage o) 0x120 (s.reg (linkPage o) 0x120 &&& 0xC)),
    updTb fun x =>
      { setUsed := x.setUsed, pfwBlock := x.pfwBlock, roseAt := x.roseAt, hist := x.hist, fellAt := x.fellAt,
        fellAngle := x.fellAngle },
    setFld tbPage 0x140 0 1 (s.rfld tbPage 0x140 0 1),
    unbindAll, whenA (s.rbit 0 0x300 1) (selfTest test), applySettings, .eff (.lost lost),
    setFld 0 0x304 0 3 code, setFld 0 0x304 16 16 count, flog 0 5 0 0xFFF code 0xFFFF 0,
    .eff (.phase .service), .look fun t =>
      .seq (.eff (.owed (t.owed ++ [(0x0130, natBytes 4 code ++ natBytes 2 count ++ natBytes 2 0
          ++ natBytes 4 (t.reg 0 0x308).toNat)])))
        endUnserved]

/-- A warm reset's steps, and the fence of a PCI Express reset that has come meanwhile after them (R426). -/
def warmReset (code : Nat) (test : SelfTest) (lost : LostUnits) : Act := .look fun s =>
  .seq (warmSteps code test lost)
    (whenA s.pcieAfter (.seq (.eff (.pcieAfter false)) (.look fun t =>
      whenA (decide (t.phase = .service)) (beginReset .pcie))))

/-- A trigger of a warm reset other than a device fault: in service it begins one; during boot it restarts boot; during a
warm reset it is ignored; in recovery and out of service it does nothing (R374, R401, R405). -/
def resetTrigger (kind : ResetKind) : Act := .look fun s =>
  match s.phase with
  | .service => beginReset kind
  | .booting => restartBoot
  | _ => .done

/-- WARM_RESET (R396). In service it is a trigger, but for a device fault's, which DEVICE_FAULT begins. Behind the fence
of a warm reset of its kind it is that reset's other steps, up to the release: it waits while a thermal trip holds it and
while the PCI Express link has not trained, and ends out of service when a PLL has not relocked (R392, R401). That the
reset takes these two steps is the model's form (DESIGN CHOICE, log entry 46). -/
def actWarmReset (t : ResetTrigger) : Act := .look fun s =>
  match s.phase with
  | .fenced code =>
    whenA (decide (code = resetCode t.kind) && !s.linkWait
        && (!s.tripHold || decide (s.hottest ≤ (s.rfld 0 0x218 8 8 : Int) - 10)))
      (acts [.eff (.tripHold false), whenA (s.relock && !t.relocked) (.eff (.ruin (some 0x0133))), .eff (.relock false),
        warmReset code t.test t.lost])
  | _ => if t.kind = .fault then .done else resetTrigger t.kind

/-- WARM_RESET. -/
def execWarmReset (trigger : ResetTrigger) (s : State) : Host.Outcome State Fault Refusal :=
  meaning (.warmReset trigger) (actWarmReset trigger) s

/-- PF_FLR (R46): a warm reset begins, at the moment the reset comes. -/
def actPfFlr (now : Dword) : Act := .seq (inService (tick now)) (resetTrigger .pfFlr)

/-- PF_FLR. -/
def execPfFlr (now : Dword) (s : State) : Host.Outcome State Fault Refusal :=
  meaning (.pfFlr now) (actPfFlr now) s

/-- PCIE_RESET (R395): a fall of PE_PERST_N during a warm reset has a PCI Express reset follow it (R426). -/
def actPcieReset (cause : PcieReset) : Act := .look fun s =>
  match s.phase with
  | .fenced _ => whenA (decide (cause = .fundamental)) (.eff (.pcieAfter true))
  | _ => resetTrigger .pcie

/-- PCIE_RESET. -/
def execPcieReset (cause : PcieReset) (s : State) : Host.Outcome State Fault Refusal :=
  meaning (.pcieReset cause) (actPcieReset cause) s

/-! ## Device faults, clocks and heat (R391, R413, R425) -/

/-- DEVICE_FAULT. -/
def execDeviceFault (code : BitVec 16) (s : State) : Host.Outcome State Fault Refusal :=
  meaning (.deviceFault code) (actDeviceFault code.toNat) s

/-- REFERENCE_CLOCK_LOSS (R413). -/
def actReferenceClockLoss (clk : RefClock) : Act :=
  match clk with
  | .system => actDeviceFault 0x0133
  | .pcie => resetTrigger .pcie
  | .chain => inService (forA [0, 1] fun p => acts [pageErr (portPage p) 0x12, portDown p 0x0D12 true, portTo p 4 0x0D12])

/-- REFERENCE_CLOCK_LOSS. -/
def execReferenceClockLoss (clk : RefClock) (s : State) : Host.Outcome State Fault Refusal :=
  meaning (.referenceClockLoss clk) (actReferenceClockLoss clk) s

/-- The highest reading and the lowest sensor that gives it. -/
def hottestOf (l : List Int) : Int × Nat :=
  ((l.zipIdx).foldl (fun (m : Option (Int × Nat)) x => match m with
    | none => some x
    | some y => if y.1 < x.1 then some x else some y) none).getD (0, 0)

/-- THERMAL_SENSOR_READ (R425): the points are acted on, and boot held below 0 °C goes on. -/
def actThermalSensorRead (now : Dword) (sensors : List Int) : Act := .look fun s0 =>
  if s0.phase = .held then .done else .seq (tick now) (takeTemp (hottestOf sensors))

/-- THERMAL_SENSOR_READ. -/
def execThermalSensorRead (now : Dword) (sensors : List Int) (s : State) : Host.Outcome State Fault Refusal :=
  meaning (.thermalSensorRead now sensors) (actThermalSensorRead now sensors) s

/-! ## D3hot (R21) -/

/-- D3HOT_ENTRY (R21): the function's work stops as for a function-level reset, and the function answers nothing. -/
def actD3hotEntry (f : Func) : Act :=
  .seq (if f = 0 then resetTrigger .pfFlr else actVfFlr f)
    (.look fun s => .eff (.d3 (s.d3 ||| BitVec.ofNat 32 (2 ^ f.val))))

/-- D3HOT_ENTRY. -/
def execD3hotEntry (f : Func) (now : Dword) (s : State) : Host.Outcome State Fault Refusal :=
  meaning (.d3hotEntry f now) (inService (watched (.seq (tick now) (actD3hotEntry f)))) s

/-- D3HOT_EXIT (R21). -/
def actD3hotExit (f : Func) : Act := .look fun s => .eff (.d3 (s.d3 &&& ~~~ BitVec.ofNat 32 (2 ^ f.val)))

/-- D3HOT_EXIT. -/
def execD3hotExit (f : Func) (s : State) : Host.Outcome State Fault Refusal :=
  meaning (.d3hotExit f) (actD3hotExit f) s

end Sys2Proof.Machine
end

