-- ==== Sys2Proof/Machine/Commits.lean ====
section
/-! DEFINITION. Commits of a page's shadows, what each block refuses, and the clearing of a page's error (R32, R34, R35,
R99, R310, R347, R360, R367). -/

namespace Sys2Proof.Machine

/-! ## What a block refuses (R34) -/

/-- The first of a list of checks that fails. -/
def firstCause (l : List (Bool × Nat)) : Option Nat := (l.find? fun e => e.1).map Prod.snd

/-- A quantiser page: profile by profile, the lowest cause of the first profile that breaks a rule (R90, R99). -/
def quantRefusal (p : Nat) (v : Table Word) : Option Nat :=
  (List.range 8).findSome? fun i =>
    let cfg := tblGet regReset (regAddr p (0x100 + 32 * i)) v
    let s2 := tblGet regReset (regAddr p (0x104 + 32 * i)) v
    firstCause [(decide (2 ≤ fld cfg 0 4), 0x0615),
      (decide (5 ≤ fld cfg 8 3) || decide (fld cfg 16 8 = 0) || decide (0x7E < fld cfg 16 8), 0x0616),
      ((!bit cfg 13 && !s2Ok s2.toNat) || (bit cfg 13 && bit cfg 6), 0x0617)]

/-- A binary16 code is finite, not negative and at most a limit (R347). -/
def halfOk (limit c : Nat) : Bool := decide (c < 0x7C00) && decide (c ≤ limit)

/-- A partition page (R329, R347; log entry 47). -/
def partRefusal (p : Nat) (v : Table Word) : Option Nat :=
  let f (off lo len : Nat) : Nat := fld (tblGet regReset (regAddr p off) v) lo len
  firstCause [
    (decide (f 0x100 0 16 ≠ 0) || decide (f 0x108 0 16 ≠ 0), 0x0C1F),
    (!(halfOk 0x7BFF (f 0x110 0 16) && halfOk 0x7BFF (f 0x110 16 16) && halfOk 0x7BFF (f 0x114 0 16)
        && halfOk 0x7BFF (f 0x114 16 16) && halfOk 0x3C00 (f 0x118 0 16) && halfOk 0x3C00 (f 0x118 16 16)), 0x0C1F),
    (decide (f 0x11C 0 8 = 0) || decide (f 0x11C 8 8 = 0) || decide (256 < f 0x11C 16 9), 0x0C1F)]

/-- An inbound window (R360, R367). -/
def windowRefusal (s : State) (p : Nat) (v : Table Word) : Option Nat :=
  let f (off lo len : Nat) : Nat := fld (tblGet regReset (regAddr p off) v) lo len
  let owner := s.pageOwner p
  match f 0x100 0 2 with
  | 0 => none
  | 1 => firstCause [(decide (f 0x104 0 16 ≠ 0) || decide (f 0x10C 0 16 = 0)
      || (decide (f 0x110 15 1 = 1) && !s.semBound (f 0x110 0 12) owner), 0x0D1B)]
  | 2 => firstCause [(!s.boundTo ⟨.array, f 0x100 8 5⟩ owner, 0x0D1B)]
  | _ => some 0x0D1B

/-- The floor scaler's tables: the eight taps of every phase sum to 16,384 (R323). -/
def floorRefusal (p : Nat) (v : Table Word) : Option Nat :=
  let tap (k i : Nat) : Int :=
    let w := tblGet regReset (regAddr p (0x800 + 16 * k + 4 * (i / 2))) v
    (BitVec.ofNat 16 (fld w (16 * (i % 2)) 16)).toInt
  firstCause [((List.range 128).any fun k => decide (((List.range 8).map (tap k)).sum ≠ 16384), 0x0B1D)]

/-- Whether a slot of a slot page belongs to a commit group: its active or its shadow state is on (R310). -/
def State.slotGrouped (s : State) (p : Nat) : Bool :=
  [0x100, 0x200].any fun off => s.rbit p off 0 || bit (s.shadow p off) 0

/-- The refusal of a page's pending set (R34). -/
def commitRefusal (s : State) (p : Nat) (v : Table Word) : Option Nat :=
  match pageClass p with
  | some .quant => quantRefusal p v
  | some .part => partRefusal p v
  | some .window => windowRefusal s p v
  | some .floor => floorRefusal p v
  | some .vslot | some .gslot => if s.slotGrouped p then some 0x0B17 else none
  | _ => none

/-! ## The commit (R34, R35) -/

/-- The shadows of a page as a pending set. -/
def State.pageSnap (s : State) (p : Nat) : Table Word :=
  (shadowRegs p).foldl (fun (t : Table Word) (e : Nat × Nat) => tblSet regReset (regAddr p e.1) (s.shadow p e.1) t) []

/-- A page that commits under R34: one with shadowed fields that is no page of an output. -/
def ownCommit (p : Nat) : Bool := ((pageClass p).map hasCommit).getD false && (outOfPage p).isNone

/-- go (R34, R35): the shadows become the pending set with seq; what the block refuses is settled at once. A slot page
that shows a group commit pending is refused under R310 like any page in a group, and shows that refusal from then on;
R35 alone would have the go ignored (DESIGN CHOICE, log entry 49). -/
def goCommit (p : Nat) (seq : BitVec 24) : Act := .look fun s =>
  if (s.atCommits p).isSome then pageErr p 0x01
  else
    let snap := s.pageSnap p
    acts [setRegN p 0x030 (256 * seq.toNat), .eff (.commits p (some ⟨seq, snap⟩)),
      setRegN p 0x034 (1 + 256 * s.rfld p 0x034 8 8),
      optA (commitRefusal s p snap) fun code => settleCommit p seq false false code]

/-- A write of PG_COMMIT.go to a page. -/
def writeGo (p : Nat) (seq : BitVec 24) : Act :=
  match outOfPage p with
  | some o => .look fun s =>
    .seq (whenA ((s.atOuts o).pend.isNone && (s.atOuts o).latched.isNone) (setRegN p 0x030 (256 * seq.toNat))) (goGroup o p seq)
  | none => whenA (ownCommit p) (goCommit p seq)

/-- PG_COMMIT_GO. -/
def execPgCommitGo (f : Func) (page : Nat) (seq : BitVec 24) (s : State) : Host.Outcome State Fault Refusal :=
  meaning (.pgCommitGo f page seq) (inService (withWrite f page (writeGo page seq))) s


/-- COMMIT_POINT (R34): the pending set of a page applies. -/
def actCommitPoint (p : Nat) : Act := .look fun s =>
  whenA (ownCommit p && s.atCommitPoint p)
    (.seq (whenA (decide (p = floorPage) && (s.atCommits p).isSome) (bump p 0x048 1)) (applyCommit p false))

/-- COMMIT_POINT. -/
def execCommitPoint (page : Nat) (s : State) : Host.Outcome State Fault Refusal :=
  meaning (.commitPoint page) (served (actCommitPoint page)) s

/-- A write of PG_COMMIT.abandon to a page (R35). On a slot page that shows a group commit pending it does nothing, since
that set is the output's (DESIGN CHOICE, log entry 49). -/
def writeAbandon (p : Nat) : Act :=
  match outOfPage p with
  | some o => abandonGroup o
  | none => whenA (ownCommit p) (discardCommit p)

/-- PG_COMMIT_ABANDON. -/
def execPgCommitAbandon (f : Func) (page : Nat) (s : State) : Host.Outcome State Fault Refusal :=
  meaning (.pgCommitAbandon f page) (inService (withWrite f page (writeAbandon page))) s

/-- Whether a page begins with the common header (R32). -/
def headed (p : Nat) : Bool := ((pageClass p).map hasHeader).getD false

/-- PG_CTL.err_clear (R32). -/
def clearErr (p : Nat) : Act := whenA (headed p) (acts [setReg p 0x020 0, setReg p 0x024 0, setReg p 0x028 0])

/-- ERR_CLEAR. -/
def execErrClear (f : Func) (page : Nat) (s : State) : Host.Outcome State Fault Refusal :=
  meaning (.errClear f page) (whenServed f page (withWrite f page (clearErr page))) s

end Sys2Proof.Machine
end

