-- ==== Sys2Proof/Machine/TimedActions.lean ====
section
/-! DEFINITION. The 256 timed actions: arming, disarming, the four actions and the status (R271 to R274, R277). -/

namespace Sys2Proof.Machine

/-- The page of a timed action (R271). -/
def taPage (n : Nat) : Nat := 0x161 + n / 128

/-- The offset of a timed action's words: control, argument, time low and time high (R271). -/
def taOff (n : Nat) : Nat := 0x100 + 16 * (n % 128)

/-- The offset of TA_STAT of an entry (R277). -/
def taStatOff (n : Nat) : Nat := 0x900 + 4 * (n % 128)

/-- A field of TA_CTL of an entry. -/
def State.taCtl (s : State) (n lo len : Nat) : Nat := s.rfld (taPage n) (taOff n) lo len

/-- TA_ARG of an entry. -/
def State.taArg (s : State) (n lo len : Nat) : Nat := s.rfld (taPage n) (taOff n + 4) lo len

/-- TA_TIME of an entry. -/
def State.taTime (s : State) (n : Nat) : Nat := s.reg64 (taPage n) (taOff n + 8)

/-- Whether an entry is armed. -/
def State.taArmed (s : State) (n : Nat) : Bool := s.rbit (taPage n) (taStatOff n) 0

/-- The function on whose behalf an entry acts. -/
def State.taFunc (s : State) (n : Nat) : Func := Fin.ofNat 32 (s.taCtl n 8 5)

/-- Whether the timing generator of an output is in a line of a frame that lies below the vertical total (R273): between
two frames, where TB_LINE shows line 0, none has begun. -/
def State.lineBegun (s : State) (o line : Nat) : Bool :=
  s.scanning o && !(s.atOuts o).gap && decide (line < s.vTotal [] o) && decide (s.lineOf o = line)

/-- A line trigger that can never be met: its line is not below the vertical total, or its output is disabled (R273). -/
def State.taUnreach (s : State) (n : Nat) : Bool :=
  s.taArmed n && decide (s.taCtl n 0 2 = 1)
    && (!s.outOn [] (s.taCtl n 2 2) || decide (s.vTotal [] (s.taCtl n 2 2) ≤ s.taCtl n 16 16))

/-- Why an entry with a control word is not armed (R272). -/
def taRefusal (s : State) (n : Nat) (c : Word) : Option Nat :=
  let trig := fld c 0 2
  let act := fld c 5 3
  let arg (lo len : Nat) : Nat := s.taArg n lo len
  let f : Func := Fin.ofNat 32 (fld c 8 5)
  let argBad : Bool := match act with
    | 0 => decide (arg 0 32 ≠ 0)
    | 1 => decide (arg 12 20 ≠ 0)
    | 2 => decide (arg 12 4 ≠ 0)
    | 4 => decide (arg 4 28 ≠ 0)
    | _ => false
  let p := arg 0 12
  firstCause [
    (decide (5 ≤ act) || decide (fld c 13 2 = 3) || bit c 15 || (decide (trig ≠ 1) && decide (fld c 2 2 ≠ 0))
      || (decide (trig = 3) && decide (fld c 16 16 ≠ 0)) || argBad || (decide (trig ≠ 3) && decide (s.taTime n ≠ 0)), 0x0A10),
    (decide (trig = 1) && decide (4095 < fld c 16 16), 0x0A11),
    (decide (act = 1) && (decide (s.pageOwner p ≠ f) || decide (s.pageState p = .unbound)
      || !((pageClass p).map hasCommit).getD false), 0x0A12),
    (decide (act = 2) && !s.semBound (arg 0 12) f, 0x0A13)]

/-- The commit action: PG_COMMIT.go with seq n as a write of func; dropped and counted on a page that is re-binding or
held (R273, R274). -/
def taCommit (n : Nat) : Act := .look fun s =>
  let p := s.taArg n 0 12
  if s.pageState p = .rebinding ∨ s.pageState p = .held then .seq (bump tbPage 0x068 1) (pageErr p 0x04)
  else withWrite (s.taFunc n) p (writeGo p (BitVec.ofNat 24 n))

/-- The signal action (R273); a semaphore no longer bound to func takes nothing (log entry 48). -/
def taSignal (n : Nat) : Act := .look fun s =>
  if s.semBound (s.taArg n 0 12) (s.taFunc n) then semAdd (s.taArg n 0 12) (BitVec.ofNat 32 (s.taArg n 16 16))
  else pageErr (taPage n) 0x13

/-- The event action (R273): the delay reported lies within the bound of the firing, 84 ns. -/
def taEvent (n : Nat) : Act := .look fun s => withFree fun x =>
  funcEvent (s.taFunc n) (taPage n) 0x14 0 (natBytes 4 n ++ natBytes 4 (s.taArg n 0 32) ++ natBytes 4 (x.toNat % 85))

/-- The snapshot action (R273, R276). -/
def taSnapshot (n : Nat) : Act := .look fun s =>
  let off := 0x200 + 32 * s.taArg n 0 4
  acts [setReg64 tbPage off s.time.toNat, setRegN tbPage (off + 8) (s.angle s.time.toNat),
    setReg tbPage (off + 0xC) (s.reg tbPage 0x128), setRegN tbPage (off + 0x10) (s.lineOf 0 + 65536 * s.lineOf 1),
    setRegN tbPage (off + 0x14) (s.lineOf 2 + 65536 * s.lineOf 3), setReg tbPage (off + 0x18) (s.reg tbPage 0x130),
    setRegN tbPage (off + 0x1C) ((s.reg tbPage (off + 0x1C)).toNat + 1)]

/-- The action of an entry. -/
def taAct (n : Nat) : Act := .look fun s =>
  match s.taCtl n 5 3 with
  | 1 => taCommit n
  | 2 => taSignal n
  | 3 => taEvent n
  | 4 => taSnapshot n
  | _ => .done

/-- The frame or mains cycle in which an entry's trigger was last met, 0 for none. -/
def State.taLast (s : State) (n : Nat) : Nat := ((s.tb.met.find? fun e => decide (e.1 = n)).map fun e => e.2).getD 0

/-- An entry's trigger is met, or past, in a frame or cycle. -/
def taMark (n k : Nat) : Act := updTb fun x => { x with met := (n, k) :: x.met.filter fun e => decide (e.1 ≠ n) }

/-- Whether the crossing at this moment has jumped over the angle of an entry in the cycle it ends (R274). -/
def State.taSkipped (s : State) (n : Nat) : Bool :=
  s.tb.ran && decide (s.tb.cross = some s.time) && decide (s.taCtl n 16 16 ≠ 0)
    && decide (s.taLast n + 1 < s.cycleNo s.time.toNat)

/-- The frame or mains cycle, counted from 1, for which an entry's trigger is met. -/
def State.taTurn (s : State) (n : Nat) : Nat :=
  if s.taCtl n 0 2 = 1 then s.frameOf (s.taCtl n 2 2) + 1
  else if s.taSkipped n then s.cycleNo s.time.toNat - 1 else s.cycleNo s.time.toNat

/-- An entry that has just been armed waits for the next frame or cycle if its line has begun, or its angle is past, in
this one (R273; DEDUCED, log entry 30). -/
def taBegin (n : Nat) : Act := .look fun s => match s.taCtl n 0 2 with
  | 1 => taMark n (if s.lineBegun (s.taCtl n 2 2) (s.taCtl n 16 16) then s.frameOf (s.taCtl n 2 2) + 1 else 0)
  | 2 => taMark n (s.cycleNo s.time.toNat - b2n (decide (s.angle s.time.toNat < s.taCtl n 16 16)))
  | _ => .done

/-- An entry fires: it is counted, its held and late bits are set, it disarms if it fires once, and it acts (R273,
R277). -/
def taFire (n : Nat) (late : Bool) : Act := .look fun s =>
  let p := taPage n
  let st := taStatOff n
  let once := bit (s.reg p (taOff n)) 4 || decide (s.taCtl n 0 2 = 3)
  acts [setFld p st 16 16 (satNat 0xFFFF (s.rfld p st 16 16 + 1)), bump tbPage 0x060 1,
    whenA (decide (s.taCtl n 0 2 = 2) && decide (s.mainsState = 3)) (setFld p st 2 1 1),
    whenA late (.seq (setFld p st 3 1 1) (bump tbPage 0x070 1)), whenA once (setFld p st 0 1 0),
    whenA (decide (s.taCtl n 0 2 ≠ 3)) (taMark n (s.taTurn n)), taAct n]

/-- A write of TA_CTL (R272): trig 0 disarms; otherwise the entry is validated and armed, and a time already past fires
at once. -/
def writeTaCtl (n : Nat) (c : Word) : Act := .look fun s =>
  let p := taPage n
  if fld c 0 2 = 0 then .seq (setReg p (taOff n) c) (setFld p (taStatOff n) 0 1 0)
  else match taRefusal s n c with
  | some code => acts [setReg p (taOff n) (putFld c 0 2 0), setFld p (taStatOff n) 0 1 0,
      withFree fun x => recordErrI p code (BitVec.ofNat 32 n) (x.extractLsb' 0 32)]
  | none => acts [setReg p (taOff n) c, setRegN p (taStatOff n) 1, taBegin n,
      whenA (decide (fld c 0 2 = 3) && decide (s.taTime n < s.time.toNat)) (taFire n true)]

/-- TA_ARM (R272). -/
def execTaArm (f : Func) (entry : Fin 256) (ctl : Word) (s : State) : Host.Outcome State Fault Refusal :=
  meaning (.taArm f entry ctl)
    (inService (withWrite f (taPage entry.val) (whenA (decide (fld ctl 0 2 ≠ 0)) (writeTaCtl entry.val ctl)))) s

/-- TA_DISARM (R272). -/
def execTaDisarm (f : Func) (entry : Fin 256) (ctl : Word) (s : State) : Host.Outcome State Fault Refusal :=
  meaning (.taDisarm f entry ctl)
    (inService (withWrite f (taPage entry.val) (writeTaCtl entry.val (ctl &&& 0xFFFFFFFC)))) s

/-- Whether an entry's trigger is met (R273): its output is in its line, for the first time in this frame; θ has reached
its angle in states locked and holding, for the first time in this cycle (or a crossing has jumped past it, R274); or
its time has come. -/
def State.taMet (s : State) (n : Nat) : Bool :=
  match s.taCtl n 0 2 with
  | 1 => s.outOn [] (s.taCtl n 2 2) && s.lineBegun (s.taCtl n 2 2) (s.taCtl n 16 16)
    && decide (s.taLast n ≠ s.frameOf (s.taCtl n 2 2) + 1)
  | 2 => decide (2 ≤ s.mainsState) && (s.taSkipped n
    || (decide (s.taCtl n 16 16 ≤ s.angle s.time.toNat) && decide (s.taLast n < s.cycleNo s.time.toNat)))
  | 3 => decide (s.taTime n ≤ s.time.toNat)
  | _ => false

/-- A firing of an entry with an action: nothing happens unless it is armed with that action and its trigger is met. An
entry with action 0, none, fires by any of the four commands: it is counted and does nothing more (R273; DESIGN CHOICE,
log entry 30). -/
def taFireOf (act : Nat) (n : Nat) (now : Dword) : Act :=
  .seq (tick now) (.look fun s =>
    whenA (s.taArmed n && decide (s.taCtl n 5 3 = act ∨ s.taCtl n 5 3 = 0) && s.taMet n) (taFire n false))

/-- TA_FIRE_COMMIT. -/
def execTaFireCommit (entry : Fin 256) (now : Dword) (s : State) : Host.Outcome State Fault Refusal :=
  meaning (.taFireCommit entry now) (inService (taFireOf 1 entry.val now)) s

/-- TA_FIRE_SIGNAL. -/
def execTaFireSignal (entry : Fin 256) (now : Dword) (s : State) : Host.Outcome State Fault Refusal :=
  meaning (.taFireSignal entry now) (inService (taFireOf 2 entry.val now)) s

/-- TA_FIRE_EVENT. -/
def execTaFireEvent (entry : Fin 256) (now : Dword) (s : State) : Host.Outcome State Fault Refusal :=
  meaning (.taFireEvent entry now) (inService (taFireOf 3 entry.val now)) s

/-- TA_FIRE_SNAPSHOT. -/
def execTaFireSnapshot (entry : Fin 256) (now : Dword) (s : State) : Host.Outcome State Fault Refusal :=
  meaning (.taFireSnapshot entry now) (inService (taFireOf 4 entry.val now)) s

/-- A read of TA_STAT: its value, with unreach as it now is, and held and late cleared (R277). -/
def taStatRead (n : Nat) : Act := .look fun s =>
  .seq (readWord ((s.reg (taPage n) (taStatOff n)).toNat + 2 * b2n (s.taUnreach n))) (setFld (taPage n) (taStatOff n) 2 2 0)

/-- TA_STAT_READ. -/
def execTaStatRead (f : Func) (entry : Fin 256) (s : State) : Host.Outcome State Fault Refusal :=
  meaning (.taStatRead f entry) (inService (withRead f (taPage entry.val) 4 (taStatRead entry.val))) s

end Sys2Proof.Machine
end

