-- ==== Sys2Proof/Machine/Jobs.lean ====
section
/-! DEFINITION. What starts an accepted job of any kind, the fence, and the failures of reads from host memory (R37, R42,
R43). -/

namespace Sys2Proof.Machine

/-- A fence that has started is complete (R43). The spec gives no event kind for it, so evt_done writes none (DESIGN
CHOICE, log entry 53). -/
def startFence (n : Nat) : Act := .look fun s => optA (s.atJobs n) fun j => endJob n j.desc

/-- The work of a job, by kind (R43). -/
def startJob (n : Nat) : Act := .look fun s =>
  optA (s.atJobs n) fun j =>
    match jobKind j.desc with
    | 1 => startBatch n
    | 2 => if lcOp j.desc ≤ 1 then startTrust n else startLc n
    | 3 => startStream n
    | 4 => startTrack n
    | 5 => startFence n
    | 6 => startBinding n
    | 7 => startTrust n
    | _ => .done

/-- FENCE (R43): body_len 0, target 0 and inline bytes 0, or the ring halts with 0x0105. -/
def actFence (f : Func) (ring : Fin 8) (d : BitVec 1024) : Act :=
  ofKind 5 d (acceptJob f ring d []
    (fun _ => if jobBodyLen d ≠ 0 ∨ jobTarget d ≠ 0 ∨ fld d 512 480 ≠ 0 then some 0x0105 else none)
    fun n => startIfOpen n (startFence n))

/-- FENCE. -/
def execFence (f : Func) (ring : Fin 8) (desc : BitVec 1024) (s : State) : Host.Outcome State Fault Refusal :=
  meaning (.fence f ring desc) (inService (actFence f ring desc)) s

/-- JOB_WAIT_END (R42): the job starts if its other gates are open too. -/
def execJobWaitEnd (job : Nat) (s : State) : Host.Outcome State Fault Refusal :=
  meaning (.jobWaitEnd job) (served (startIfOpen job (startJob job))) s

/-- JOB_NOT_BEFORE (R42). -/
def execJobNotBefore (job : Nat) (now : Dword) (s : State) : Host.Outcome State Fault Refusal :=
  meaning (.jobNotBefore job now) (served (.seq (tick now) (startIfOpen job (startJob job)))) s

/-! ## Host reads that fail (R37) -/

/-- A read from host memory fails with a host-port cause: it is recorded, and the reading ring halts or the owning block
handles it: a stream drops the access unit (R228), an engine halts (R194), a job is refused by its kind's body check
(R37). -/
def hostReadFails (cause : Nat) (r : HostReader) : Act :=
  match r with
  | .jobRing f n => .look fun s => whenA (s.jrFetches f n.val)
      (withFree fun x => haltRing f n.val (0x0100 + cause) (x.toNat % 2 ^ 24))
  | .stream c entry => .look fun s => whenA (streamFetches s c.val)
      (.seq (hostErr (s.unitAt (streamUnit c.val)).owner cause) (actAccessUnitFetch c entry none))
  | .engine e tag => .look fun s => whenA (((s.engReq e.val tag).map fun x => decide (sdKind x.2 false = 2)).getD false)
      (.seq (hostErr (s.engOwner e.val) cause) (actRequestRetire e tag .hostError))
  | .jobBody f n d => .look fun s => whenA (s.jrFetches f n.val && jobBodyHost d)
      (.seq (hostErr f cause) (if jobKind d = 3 then streamJob [1, 2, 3, 4, 5, 6] f n d []
        else keepJob [1, 2, 3] f n d []))

/-- HOST_COMPLETION_TIMEOUT. -/
def execHostCompletionTimeout (reader : HostReader) (s : State) : Host.Outcome State Fault Refusal :=
  meaning (.hostCompletionTimeout reader) (served (hostReadFails 0x1A reader)) s

/-- HOST_COMPLETION_ERROR. -/
def execHostCompletionError (reader : HostReader) (s : State) : Host.Outcome State Fault Refusal :=
  meaning (.hostCompletionError reader) (served (hostReadFails 0x19 reader)) s

end Sys2Proof.Machine
end

