-- ==== Sys2Proof/Machine/RegView.lean ====
section
/-! DEFINITION. What a read of a register shows: the stored bits, and every field the device computes from its state at
the moment of the read. -/

namespace Sys2Proof.Machine

/-- Word `i` of a value. -/
def wordAt {n : Nat} (w : BitVec n) (i : Nat) : Nat := fld w (32 * i) 32

/-- A 32-bit word with a bit set for each number below 32 that passes. -/
def maskOf (p : Nat → Bool) : Nat := ((List.range 32).map fun i => if p i then 2 ^ i else 0).sum

/-! ## The common header (R32) -/

/-- Whether a page is mapped read-only into a VF (PG_BIND.shared). -/
def State.pageShared (s : State) (p : Nat) : Bool :=
  (List.range 31).any fun i =>
    let f : Func := Fin.ofNat 32 (i + 1)
    match s.slotOf f p with
    | some k => decide (s.pmap f k / 2 ^ 14 % 2 = 1)
    | none => false

/-- PG_BIND. A page that is the PF's for good is never bound, so its owner, state and epoch keep their reset value 0
(R32, R48; log entry 8). -/
def State.bindWord (s : State) (p : Nat) : Nat :=
  256 * b2n (s.pageShared p) + (match unitOfPage p with
    | some u => (s.unitAt u).owner.val + 64 * bindCode (s.unitAt u).state + 65536 * (s.unitAt u).epoch.toNat
    | none => 0)

/-- Whether an output's layer strips are in flight: requested, their source not yet fixed, on a layer that passes. -/
def State.stripsOpen (s : State) (layer : Nat → Bool) (o : Option Nat) : Bool :=
  s.layers.any fun e => layer e.1 && e.2.strips.any fun r => decide (r.source = 0) && decide (o.getD r.out = r.out)

/-- The display's part of `pageBusy`: strips in flight, a writeback frame or check rectangles being taken, a capture of
the flatten cache, a set pending or latched (DEDUCED, log entry 50). -/
def State.displayBusy (s : State) (p : Nat) : Bool :=
  let o := (p - 0x170) / 4
  let waits (x : OutSt) : Bool := x.pend.isSome || x.latched.isSome
  let captures (o : Nat) : Bool := decide (s.rfld (compPage o) 0x114 0 2 = 2)
  match pageClass p with
  | some .strip => s.stripsOpen (fun _ => true) (some o)
  | some .evid => (s.atOuts o).wb.isSome
      || (s.scanning o && (List.range 16).any fun r => s.rbit p (0x100 + 32 * r) 0)
  | some .comp => captures o || waits (s.atOuts o)
  | some .vslot => s.stripsOpen (fun i => decide (i / 2 = p - 0x180)) none
  | some .gslot => (List.range 4).any fun o => (captures o || waits (s.atOuts o))
      && (s.graphicOn [] o).any fun i => decide (i / 2 = p - 0x1A0)
  | _ => false

/-- Whether a page has work in progress (PG_STAT.busy; what counts as work is DEDUCED, log entry 50). -/
def State.pageBusy (s : State) (p : Nat) : Bool :=
  match pageClass p with
  | some .array => let st := s.atArrays ((p - 0x080) / 4)
    st.ctx.isSome || st.reserved.isSome || !st.flight.isEmpty
  | some .engine => decide (s.engState (p - 0x100) = .running) || !(s.atEngines (p - 0x100)).reqs.isEmpty
  | some .spad => s.rbit p 0x10C 0 || s.rbit p 0x11C 8
  | some .landing => s.lcFill.isSome || !s.lcWait.isEmpty
  | some .memory => s.inval.isSome || s.zeroing
  | some .decode => s.streams.any fun e => e.2.cur.isSome || e.2.stopping || e.2.flushTo.isSome
  | some .pipe => s.streams.any fun e => e.2.cur.isSome && decide (srPipe e.2.record = p - 0x050)
  | some .sched => s.entries.any (fun e => e.2.isSome) || s.ctxs.any fun e => decide (e.2.state ≠ .free)
  | some .link => s.rbit p 0x120 1 || s.rbit p 0x134 0
  | some .trust => s.rbit p 0x114 1 || s.rbit p 0x304 9 || s.trust.check.isSome
  | some .track => !s.track.problems.isEmpty
  | some .part => s.track.problems.any fun q => decide (q.part = p - 0x1B8)
  | some .window => let w := s.atWindows (p - 0x200)
    !w.queue.isEmpty || decide (w.inFlight ≠ 0)
  | some .port => decide (s.portState (p - 0x1C0) = 1)
  | _ => s.displayBusy p

/-- The code of a context's state (R242). -/
def ctxCode : CtxState → Nat
  | .free => 0
  | .dispatching => 1
  | .running => 2
  | .stopping => 3
  | .saving => 4
  | .saved => 5
  | .restoring => 6
  | .retiring => 7
  | .held => 8

/-- How many contexts of the table pass. -/
def State.ctxCount (s : State) (p : CtxRec → Bool) : Nat := (s.ctxs.filter fun (e : Nat × CtxRec) => p e.2).length

/-- The block's bits of PG_STAT (R121, R200, R258); those of other blocks are stored. -/
def State.statBlock (s : State) (p : Nat) : Nat :=
  match pageClass p with
  | some .array =>
    let a := (p - 0x080) / 4
    let st := s.atArrays a
    let ph := match st.phase with
      | .idle => 0
      | .compute => 1
      | .transfer => 2
      | .stopped => 3
    256 * ph + 2 ^ 10 * b2n (s.unitAt (arrUnit a)).felled + 2 ^ 11 * b2n (s.unitAt (arrUnit a)).standing
      + 2 ^ 12 * b2n (st.stop.isSome && decide (st.phase ≠ .stopped)) + 2 ^ 13 * b2n (st.flight.any fun x => x.waiting)
      + 2 ^ 14 * st.flight.length + 2 ^ 16 * st.queue.length
  | some .engine =>
    let e := p - 0x100
    256 * engCode (s.engState e) + 2 ^ 11 * b2n (s.atEngines e).shadow.isSome
      + 2 ^ 12 * b2n (decide (64 ≤ e) && (s.atEngines e).claimed.isSome)
  | some .sched =>
    let states := (List.range 32).map fun a => ((s.atArrays a).ctx.map fun c => (s.atCtxs c).state).getD .free
    256 * (states.filter fun x => decide (x ∉ [.free, .saved, .held])).length
      + 2 ^ 14 * (states.filter fun x => decide (x ∈ [.saving, .restoring])).length
  | _ => (s.reg p 0x014).toNat / 256 * 256

/-- PG_STAT. `enabled` shows PG_CTL.enable, the one thing the model makes of that bit: no chapter says what a block whose
enable is 0 stops doing, and the model stops nothing (DESIGN CHOICE, log entry 50). -/
def State.statWord (s : State) (p : Nat) : Nat :=
  b2n (s.rbit p 0x010 0) + 2 * b2n (s.pageBusy p) + 4 * b2n (decide (s.reg p 0x020 ≠ 0))
    + 8 * b2n (decide (s.rfld p 0x034 0 2 = 1)) + s.statBlock p

/-! ## The global page (R44, R45, R404, R415) -/

/-- A size-table entry: the total word, and the own word of a reading function (R45). -/
structure SizeEntry where
  total : Nat
  own : Nat
  deriving DecidableEq, Repr

/-- The units of a kind that count: in service, and bound to a function where one is named. -/
def State.unitTotal (s : State) (k : UnitKind) (f : Option Func) (extra : UnitRec → Bool) : Nat :=
  ((List.range (unitCount k)).filter fun n =>
    let u := s.unitAt ⟨k, n⟩
    !s.outOfService ⟨k, n⟩ && extra u
      && (match f with
          | some g => s.boundTo ⟨k, n⟩ g
          | none => true)).length

/-- A count of bindable resources, `n` to a unit: the total for the device, the function's own, which for the PF is the
total (R45). -/
def State.sizeOf (s : State) (f : Func) (k : UnitKind) (n : Nat) (extra : UnitRec → Bool) : SizeEntry :=
  let t := n * s.unitTotal k none extra
  ⟨t, if f = 0 then t else n * s.unitTotal k (some f) extra⟩

/-- The entry of the size table at an offset (R45). -/
def State.sizeEntry (s : State) (f : Func) (off : Nat) : SizeEntry :=
  let any (_ : UnitRec) : Bool := true
  let same (n : Nat) : SizeEntry := ⟨n, n⟩
  match off with
  | 0x108 => s.sizeOf f .array 1 any
  | 0x110 => s.sizeOf f .array 1 fun u => u.standing
  | 0x118 => same 64
  | 0x120 => same 2048
  | 0x128 => same 2048
  | 0x130 => same 512
  | 0x138 => same 32768
  | 0x140 => same 64
  | 0x148 => s.sizeOf f .array 2 any
  | 0x150 => s.sizeOf f .pooled 1 any
  | 0x158 => s.sizeOf f .semRange 64 any
  | 0x160 => s.sizeOf f .pipe 1 any
  | 0x168 => s.sizeOf f .stream 1 any
  | 0x170 => s.sizeOf f .output 1 any
  | 0x178 => s.sizeOf f .videoPair 2 any
  | 0x180 => s.sizeOf f .graphicPair 2 any
  | 0x188 => same 16
  | 0x190 => same 256
  | 0x198 => s.sizeOf f .window 1 any
  | 0x1A0 => s.sizeOf f .partition 32768 any
  | 0x1A8 => same s.chainCount
  | 0x1B0 => same s.deviceNo
  | 0x1B8 => same (s.rfld trackPage 0x104 0 13)
  | 0x1C0 => same (s.rfld trackPage 0x108 0 16)
  | 0x1C8 => same 24576
  | 0x1D0 => ⟨2048, if f = 0 then 2048 else 64⟩
  | 0x1D8 => same 8
  | 0x1E0 => same 8
  | 0x1E8 => same 960
  | 0x1F0 => same 16
  | 0x1F8 => same 32
  | _ => same 0

/-- A word of the size table. -/
def State.sizeWord (s : State) (f : Func) (off : Nat) : Nat :=
  if off = 0x100 then 1 + 65536 * 31
  else if off = 0x104 then 0
  else if off % 8 = 0 then (s.sizeEntry f off).total else (s.sizeEntry f (off - 4)).own

/-- A register of a function's global page. -/
def State.globalWord (s : State) (f : Func) (off : Nat) : Nat :=
  let g := globalPage f
  if 0x100 ≤ off ∧ off < 0x200 then s.sizeWord f off
  else if off = 0x200 then s.time.toNat % 2 ^ 32
  else if off = 0x204 then s.time.toNat / 2 ^ 32
  else if off = 0x208 then f.val + 32 * b2n (decide (f = 0))
  else if off = 0x20C then (s.reg 0 0x20C).toNat
  else if f ≠ 0 ∧ ((0x210 ≤ off ∧ off < 0x21C) ∨ (0x300 ≤ off ∧ off < 0x340)) then 0
  else if 0x320 ≤ off ∧ off < 0x340 then wordAt (s.atFlog (s.rfld 0 0x318 0 10)) ((off - 0x320) / 4)
  else if 0xA00 ≤ off ∧ off < 0xA80 then maskOf fun i => s.boundTo (streamUnit (8 * (off - 0xA00) + i)) f
  else (s.reg g off).toNat

/-! ## Arrays, scratchpads, engines and semaphores -/

/-- The lines of an array's valid handles in one memory. -/
def State.handleLines (s : State) (a : Nat) (m : SpMem) : Nat :=
  (((s.validHandles a).filter fun e => decide (hMem e.2 = m)).map fun e => hLines e.2).sum

/-- A register of an array page (R122). -/
def State.arrayWord (s : State) (a off : Nat) : Nat :=
  let st := s.atArrays a
  let prog := st.prog + 64 * st.fetched
  match off with
  | 0x100 => prog % 2 ^ 32
  | 0x104 => prog / 2 ^ 32
  | 0x108 => st.next % 65536 + 65536 * st.records
  | 0x10C => match st.ctx with
    | some c => c + 65536 + 2 ^ 17 * (s.atCtxs c).cls
    | none => 0
  | _ => (s.reg (arrPage a) off).toNat

/-- A word of the post-mortem window: of a held unit, for the PF (R160). -/
def State.pmwWord (s : State) (f : Func) (a word : Nat) : Nat :=
  let p := spPage a
  let m := (memOf (s.rfld p 0x110 0 2)).getD .wm
  let byte := 128 * s.rfld p 0x110 16 14 + 4 * word
  if f = 0 ∧ (s.unitAt (arrUnit a)).state = .held ∧ byte < 128 * memLines m
  then bytesNat (s.spBytes a (spOff m byte) 4) else 0

/-- A register of a handle-table page (R171). -/
def State.handlesWord (s : State) (a off : Nat) : Nat :=
  match off with
  | 0x500 => maskOf fun h => hValid (s.handle a h)
  | 0x504 => maskOf fun h => hValid (s.handle a (32 + h))
  | 0x508 => s.htLive a
  | 0x50C => s.handleLines a .wm + 65536 * s.handleLines a .am
  | 0x510 => s.handleLines a .pm
  | _ => (s.reg (htPage a) off).toNat

/-- A register of the landing-cache page (R172). -/
def State.landingWord (s : State) (off : Nat) : Nat :=
  let slots := (List.range 64).map s.atLcSlots
  if off = 0x104 then
    16384 - s.lcUsed + 65536 * ((slots.filter fun l => l.valid && decide (l.pins ≠ 0)).map fun l => l.frames).sum
  else if off = 0x108 then (slots.filter fun l => l.valid).length
  else if 0x200 ≤ off ∧ off < 0x600 then
    let l := s.atLcSlots ((off - 0x200) / 16)
    match off % 16 with
    | 0 => b2n l.valid + 2 * b2n (decide (l.pins ≠ 0)) + 4 * b2n l.filling + 16 * l.owner.val + 512 * l.cls
        + 65536 * l.frames
    | 4 => l.base
    | 8 => l.pins.toNat
    | _ => l.last.toNat / 1024 % 2 ^ 32
  else (s.reg lcPage off).toNat

/-- A register of an engine page (R201). -/
def State.engineWord (s : State) (e off : Nat) : Nat :=
  let st := s.atEngines e
  let at_ := st.cur.map (resumePoint s.deviceNo)
  let i (j : Nat) : Nat := (at_.map fun r => r.1 j).getD 0
  let tags (p : EReq → Bool) : Nat := (st.reqs.filter p).length
  if off = 0x108 then s.rfld (engPage e) off 0 16 + 65536 * ((st.cur.map fun p => p.index).getD 0)
  else if off = 0x114 then
    tags (fun r => !r.remote && !r.write) + 2 ^ 10 * tags (fun r => !r.remote && r.write) + 2 ^ 20 * tags (fun r => r.remote)
  else if off = 0x118 then i 0 + 65536 * i 1
  else if off = 0x11C then i 2 + 4096 * i 3
  else if off = 0x120 then i 4 + 65536 * ((at_.map fun r => r.2.1).getD 0)
  else if 0x180 ≤ off ∧ off < 0x1C0 then (st.cur.map fun p => wordAt p.desc ((off - 0x180) / 4)).getD 0
  else (s.reg (engPage e) off).toNat

/-- Whether a take or a test waits on a semaphore (SEM_WAIT, R203): a PHASE step, an engine, or a job. -/
def State.semWaited (s : State) (n : Nat) : Bool :=
  (s.arrays.any fun (e : Nat × ArraySt) => e.2.flight.any fun x => x.waiting && decide (tsWaitSem x.step.desc = n))
    || (s.engines.any fun (e : Nat × EngineSt) => ((s.engTaking e.1).map fun p => decide (sdWaitSem p.desc = n)).getD false)
    || (s.jobs.any fun (e : Nat × Option Job) => match e.2 with
        | some j => !j.started && bit j.desc 271 && decide (fld j.desc 256 12 = n)
            && !s.semReached n (BitVec.ofNat 32 (fld j.desc 288 32))
        | none => false)

/-! ## Decode, scheduler, timebase -/

/-- A register of the decode cluster's page (R236). -/
def State.decodeWord (s : State) (off : Nat) : Nat :=
  let c := s.rfld decPage 0x100 0 10
  let u := s.unitAt (streamUnit c)
  if off = 0x104 then
    streamCode (s.atStreams c).state + 256 * u.owner.val + 2 ^ 13 * b2n (decide (u.state = .bound)) + 65536 * u.epoch.toNat
  else if 0x140 ≤ off ∧ off < 0x180 then wordAt (s.atStreams c).record ((off - 0x140) / 4)
  else if 0x180 ≤ off ∧ off < 0x1C0 then bytesNat (sliceBytes (streamStatus s c) (off - 0x180) 4)
  else (s.reg decPage off).toNat

/-- A register of a pipe page (R236). -/
def State.pipeWord (s : State) (p off : Nat) : Nat :=
  match off with
  | 0x104 => s.pipeLoad p / 256000
  | 0x108 => s.backlog p / 1000
  | 0x10C => (s.onPipe p).length
  | _ => (s.reg (pipePage p) off).toNat

/-- A register of the scheduler's page (R259). -/
def State.schedWord (s : State) (off : Nat) : Nat :=
  let c := s.rfld schedPage 0x130 0 11
  let r := s.atCtxs c
  let l := s.atLanes (s.rfld schedPage 0x120 0 11)
  match off with
  | 0x104 => s.ctxCount (fun x => decide (x.state ≠ .free)) + 4096 * s.ctxCount fun x => decide (x.state = .saved)
  | 0x124 => l.rung + 4 * b2n l.force + 256 * satNat 255 l.streak + 65536 * satNat 0xFFFF l.moves
  | 0x134 => ctxCode r.state + 16 * r.func.val + 512 * r.cls + 2 ^ 11 * r.array
      + 2 ^ 16 * (((s.atEntries r.entry).map fun e => e.index).getD 0)
  | 0x138 => s.ctxDeadline c % 2 ^ 32
  | 0x13C => s.ctxDeadline c / 2 ^ 32
  | _ => (s.reg schedPage off).toNat

/-! ## Display -/

/-- RST_SLOT (R293): 1 / Σ (1 / t_line) over the enabled outputs, in ns, to the nearest (DEDUCED, log entry 33). -/
def State.slotNs (s : State) : Nat :=
  let on := (List.range 4).filter fun o => s.outOn [] o
  let den := (on.map fun o => max 1 (s.hTotal [] o)).foldl (· * ·) 1
  let sum := (on.map fun o => s.khz [] o * (den / max 1 (s.hTotal [] o))).sum
  if sum = 0 then 0 else satNat 0xFFFF ((2 * den * 1000000 + sum) / (2 * sum))

/-- A register of a strip page (R295). -/
def State.stripWord (s : State) (o off : Nat) : Nat :=
  match off with
  | 0x108 => (s.vTotal [] o - 16 * s.lead [] o) + 65536 * s.strips [] o
  | 0x10C => s.stripLoad [] s.atLanes o
  | 0x110 => s.videoRsv [] o
  | 0x114 => s.slotNs
  | _ => (s.reg (stripPage o) off).toNat

/-- A register of a composition page (R324). A cut-off line below 0 stands in the frame before (R311). -/
def State.compWord (s : State) (o off : Nat) : Nat :=
  match off with
  | 0x108 => if 0 ≤ s.cutLine [] o then (s.cutLine [] o).toNat else (s.cutLine [] o + (s.vTotal [] o : Int)).toNat
  | 0x11C => s.graphicRsv [] o
  | _ => (s.reg (compPage o) off).toNat

/-- Whether a layer is shown: on, in an output that scans (VL_STAT, GR_STAT). -/
def State.layerShown (s : State) (cfg : Word) : Bool := bit cfg 0 && s.scanning (fld cfg 1 2)

/-- A register of a slot page: the status words carry `shown` (R308, R309). -/
def State.slotWord (s : State) (p off stat : Nat) : Nat :=
  if off = stat ∨ off = stat + 0x100 then
    (s.reg p off).toNat / 2 * 2 + b2n (s.layerShown (s.reg p (if off = stat then 0x100 else 0x200)))
  else (s.reg p off).toNat

/-- FS_RSV (R326). -/
def State.floorRsv (s : State) : Nat :=
  (((List.range 4).filter fun o => s.outOn [] o).map fun o => s.videoRsv [] o + s.graphicRsv [] o).sum

/-! ## Track engine, chain and trust unit -/

/-- A register of the track engine's page (R346). -/
def State.trackWord (s : State) (off : Nat) : Nat :=
  let q := s.track.problems.filter fun p => !p.flush
  match off with
  | 0x10C => q.length + 65536 * satNat 0xFFFF ((q.map fun p => (s.time.toNat - p.arrive.toNat) / 100000).foldl max 0)
  | 0x110 => (s.tcache.filter fun (e : Nat × Option CacheBlk) => e.2.isSome).length
      + 65536 * (s.tcache.filter fun (e : Nat × Option CacheBlk) => (e.2.map fun b => b.dirty).getD false).length
  | 0x11C => s.track.offers.length
  | _ => (s.reg trackPage off).toNat

/-- The set bits of a word of 16. -/
def popCount16 (w : BitVec 16) : Nat := ((List.range 16).filter fun i => bit w i).length

/-- A register of a partition page: TP_LIVE counts its live records and its blocks without a camera (R347). -/
def State.partWord (s : State) (t off : Nat) : Nat :=
  if off = 0x124 then
    let blks := s.tblk.filter fun (e : Nat × TrackBlk) => decide (e.1 / 2048 = t)
    (blks.map fun (e : Nat × TrackBlk) => popCount16 e.2.live).sum
      + 65536 * (2048 - (blks.filter fun (e : Nat × TrackBlk) => e.2.cam.isSome).length)
  else (s.reg (partPage t) off).toNat

/-- A register of a port page (R365). -/
def State.portWord (s : State) (p off : Nat) : Nat :=
  match off with
  | 0x100 => (s.reg (portPage p) off).toNat % 2 ^ 24 + 2 ^ 24 * b2n (s.rbit chainPage 0x104 (16 + p))
  | 0x108 => (s.atPorts p).replay.length
  | _ => (s.reg (portPage p) off).toNat

/-- A register of the trust page (R388). -/
def State.trustWord (s : State) (off : Nat) : Nat :=
  if off = 0x114 then (s.reg trustPage off).toNat % 4 + 4 * b2n s.tb.pfwBlock
  else if 0x200 ≤ off ∧ off < 0x280 then
    ((s.keep.hist[s.rfld trustPage 0x1B0 0 9]?).map fun e => wordAt e ((off - 0x200) / 4)).getD 0
  else (s.reg trustPage off).toNat

/-! ## The whole view -/

/-- The active bits a read of a block register shows. -/
def State.blockWord (s : State) (f : Func) (p off : Nat) : Nat :=
  match pageClass p with
  | some .global => s.globalWord f off
  | some .array => s.arrayWord ((p - 0x080) / 4) off
  | some .spad => if 0x800 ≤ off then s.pmwWord f ((p - 0x080) / 4) ((off - 0x800) / 4) else (s.reg p off).toNat
  | some .handles => s.handlesWord ((p - 0x080) / 4) off
  | some .landing => s.landingWord off
  | some .engine => s.engineWord (p - 0x100) off
  | some .sem =>
    if off = 0x400 ∨ off = 0x404 then maskOf fun i => s.semWaited (64 * (p - 0x240) + 8 * (off - 0x400) + i)
    else if off = 0x408 then (s.unitAt ⟨.semRange, p - 0x240⟩).semClass
    else (s.reg p off).toNat
  | some .decode => s.decodeWord off
  | some .pipe => s.pipeWord (p - 0x050) off
  | some .sched => s.schedWord off
  | some .timebase => if off = 0x12C then s.angle s.time.toNat else (s.reg p off).toNat
  | some .actions =>
    if 0x900 ≤ off then (s.reg p off).toNat + 2 * b2n (s.taUnreach (128 * (p - 0x161) + (off - 0x900) / 4))
    else (s.reg p off).toNat
  | some .strip => s.stripWord ((p - 0x170) / 4) off
  | some .comp => s.compWord ((p - 0x170) / 4) off
  | some .vslot => s.slotWord p off 0x118
  | some .gslot => s.slotWord p off 0x124
  | some .floor => if off = 0x100 then s.floorRsv else (s.reg p off).toNat
  | some .memory => (s.reg p off).toNat + (if off = 0x10C then 65536 * satNat 1023 s.floorRsv else 0)
  | some .track => s.trackWord off
  | some .part => s.partWord (p - 0x1B8) off
  | some .port => s.portWord (p - 0x1C0) off
  | some .trust => s.trustWord off
  | _ => (s.reg p off).toNat

/-- What a read of a register shows where the device fixes it: shadowed fields show the shadow (R4), reserved fields 0
(R5). -/
def State.view (s : State) (f : Func) (p off : Nat) : Word :=
  let sh := rowMask RegSpec.sh p off
  let v := if headed p ∧ off = 0x00C then s.bindWord p
    else if headed p ∧ off = 0x014 then s.statWord p
    else if headed p ∧ off < 0x100 then (s.reg p off).toNat
    else s.blockWord f p off
  ((BitVec.ofNat 32 v &&& ~~~ sh) ||| (s.shadow p off &&& sh)) &&& regMask (regAddr p off)

/-- The low offsets of the counters a page class has that count cycles the commands do not carry: they rise by a free
amount as time passes (log entry 48). -/
def openCounters : PageClass → List Nat
  | .array => [0x040, 0x048, 0x050, 0x058, 0x0B8]
  | .spad => [0x098]
  | .engine => [0x070, 0x078, 0x080, 0x088, 0x0A8, 0x0B0, 0x0B8, 0x0C0, 0x0C8, 0x0D0, 0x0D8]
  | .sem => [0x060]
  | .pipe => [0x070]
  | .sched => [0x0B8, 0x0C0, 0x0C8, 0x0D0, 0x0D8, 0x0E0]
  | .port => [0x078]
  | _ => []

/-- Whether a register is a half of such a counter. -/
def accrues (p off : Nat) : Bool :=
  decide (0x040 ≤ off) && decide (off < 0x100)
    && ((pageClass p).map fun c => (openCounters c).contains (off / 8 * 8)).getD false

/-- Whether what such a counter counts can have passed: for the scratchpads' bank-cycles, a bank in retention (R158,
R170). -/
def State.accruesNow (s : State) (p : Nat) : Bool :=
  match pageClass p, unitOfPage p with
  | some .spad, some u => [SpMem.wm, .am, .pm].any fun m => (List.range (memBanks m)).any fun b => !s.bankOn u.num m b
  | _, _ => true

/-- The waits for a slot that go on in a pipe count up to this moment (R236). -/
def countStalls (p : Nat) : Act := .look fun s => forA (s.onPipe (p - pipePage 0)) fun e => countStall e.1

/-- Before such a counter is read, what has passed since its last read is added to it: a free amount, and nothing while
the page's counters are frozen (R32, log entry 48). -/
def accrue (p off : Nat) : Act := .look fun s =>
  .seq (whenA (accrues p off && s.accruesNow p) (withFree fun x => bump p (off / 8 * 8) x.toNat))
    (whenA (decide (pageClass p = some .pipe ∧ off / 8 * 8 = 0x078)) (countStalls p))

/-- The bits of a register whose value the model leaves free at a read: ARR_BOUND.age, the progress of a running scrub,
and the random source's word (R384). -/
def State.openMask (s : State) (p off : Nat) : Word :=
  match pageClass p with
  | some .array => if off = 0x124 then 0xFFFF0000 else 0
  | some .spad => if off = 0x10C ∧ s.rbit p off 0 then 0xFFFF0000 else 0
  | some .trust => if off = 0x284 ∧ ¬ s.rbit p 0x280 1 then 0xFFFFFFFF else 0
  | _ => 0

/-- An act that needs a free value only where bits are open. -/
def withOpen (m : Word) (k : BitVec 64 → Act) : Act := if m = 0 then k 0 else withFree k

/-- A view with its open bits taken from a free value. -/
def fillOpen (v m : Word) (x : BitVec 64) (high : Bool) : Word :=
  (v &&& ~~~ m) ||| (x.extractLsb' (if high then 32 else 0) 32 &&& m)

/-- What a read of a register does beside answering (R4, R160, R384): RC fields clear; a read of the post-mortem window
of a unit that is not held, and one of a failed random source, record their causes. -/
def readEffect (f : Func) (p off : Nat) : Act := .look fun s =>
  let rc := rowMask RegSpec.rc p off
  acts [whenA (decide (rc ≠ 0)) (setReg p off (s.reg p off &&& ~~~ rc)),
    match pageClass p with
    | some .spad => whenA (decide (0x800 ≤ off ∧ off < 0x1000 ∧ off % 4 = 0 ∧ f = 0)
        && decide ((s.unitAt (arrUnit ((p - 0x080) / 4))).state ≠ .held)) (pageErr p 0x1A)
    | some .trust => whenA (decide (off = 0x284) && s.rbit p 0x280 1) (pageErr p 0x1B)
    | _ => .done]

/-- The low half of a counter pair or of GL_TIME, whose read latches the high half (R25). -/
def lowHalf (p off : Nat) : Bool :=
  decide (off % 8 = 0) && match pageClass p with
    | some c => (hasCounters c && decide (0x040 ≤ off) && decide (off < 0x100)) || (decide (c = .global) && decide (off = 0x200))
    | none => false

/-- The line that a read of the post-mortem window takes from the memories is counted (R160, R170). -/
def countPmw (f : Func) (p off : Nat) : Act := .look fun s =>
  let m := (memOf (s.rfld p 0x110 0 2)).getD .wm
  whenA (decide (pageClass p = some .spad ∧ 0x800 ≤ off ∧ off < 0x1000 ∧ f = 0)
      && decide ((s.unitAt (arrUnit ((p - 0x080) / 4))).state = .held)
      && decide (128 * s.rfld p 0x110 16 14 + (off - 0x800) / 4 * 4 < 128 * memLines m))
    (countRead ((p - 0x080) / 4) m 1)

/-- A 32-bit read (R4, R25): a low half latches its high half; a latched high half is returned once. -/
def readReg (f : Func) (p off : Nat) : Act := .seq (accrue p off) (.look fun s =>
  withOpen (s.openMask p off) fun x =>
    let v := fillOpen (s.view f p off) (s.openMask p off) x false
    let latched := s.atLatches (regAddr p off)
    acts [
      if lowHalf p off then
        .eff (.latches (regAddr p (off + 4)) (some (off, fillOpen (s.view f p (off + 4)) (s.openMask p (off + 4)) x true)))
      else .done,
      match latched with
      | some l => .seq (.eff (.latches (regAddr p off) none)) (readWord l.2.toNat)
      | none => readWord v.toNat,
      readEffect f p off, countPmw f p off])

/-- A 64-bit read: both halves from the same instant (R25). -/
def readPair (f : Func) (p off : Nat) : Act := .seq (accrue p off) (.look fun s =>
  withOpen (s.openMask p off ||| s.openMask p (off + 4)) fun x =>
    let lo := fillOpen (s.view f p off) (s.openMask p off) x false
    let hi := fillOpen (s.view f p (off + 4)) (s.openMask p (off + 4)) x true
    acts [.eff (.out (.readData (natBytes 4 lo.toNat ++ natBytes 4 hi.toNat))), readEffect f p off,
      readEffect f p (off + 4), countPmw f p off])

end Sys2Proof.Machine
end

