-- ==== Sys2Proof/Machine/Spads.lean ====
section
/-! DEFINITION. The commands of the scratchpad page: bank retention, the post-mortem window and the dump (R158, R160,
R161, R169). -/

namespace Sys2Proof.Machine

/-- BANK_RETENTION (R158): a bank with no line of a valid handle and nothing pending enters retention, unless SP_CFG.idle
is 0. -/
def actBankRetention (a : Fin 32) (m : SpMem) (b : Nat) : Act := .look fun s =>
  let used := (s.validHandles a.val).any fun e => (handleBanks e.2).contains (m, b)
  let quiet := !s.rbit (spPage a.val) 0x10C 0 && !((s.atArrays a.val).arrivals.any fun v =>
    decide (spOff m (128 * bankLines m * b) < v.addr + v.data.length) && decide (v.addr < spOff m (128 * bankLines m * (b + 1))))
  whenA (decide (b < memBanks m) && s.bankOn a.val m b && !used && quiet && decide (s.rfld (spPage a.val) 0x100 0 16 ≠ 0))
    (setBank a.val m b false)

/-- BANK_RETENTION. -/
def execBankRetention (a : Fin 32) (m : SpMem) (b : Nat) (s : State) : Host.Outcome State Fault Refusal :=
  meaning (.bankRetention a m b) (served (actBankRetention a m b)) s

/-- SP_PMW_READ (R160, R161): a word of the post-mortem window, for the PF of a held unit; a VF reads 0 with no cause, and
a PF read of a unit that is not held reads 0 with cause 0x1A. `bad` marks a parity failure, which is counted. -/
def actSpPmwRead (f : Func) (a : Fin 32) (word : Fin 512) (bad : Bool) : Act :=
  withRead f (spPage a.val) 4 (.look fun s =>
    let p := spPage a.val
    if f ≠ 0 then readZero 4
    else if (s.unitAt (arrUnit a.val)).state ≠ .held then .seq (readZero 4) (pageErr p 0x1A)
    else
      let m := (memOf (s.rfld p 0x110 0 2)).getD .wm
      let byte := 128 * s.rfld p 0x110 16 14 + 4 * word.val
      .seq (if byte < 128 * memLines m then
            .seq (.eff (.out (.readData (s.spBytes a.val (spOff m byte) 4)))) (countRead a.val m 1)
          else readZero 4)
        (whenA (bad && decide (byte < 128 * memLines m)) (bump p 0x0A8 1)))

/-- SP_PMW_READ. -/
def execSpPmwRead (f : Func) (a : Fin 32) (word : Fin 512) (bad : Bool) (s : State) :
    Host.Outcome State Fault Refusal :=
  meaning (.spPmwRead f a word bad) (served (actSpPmwRead f a word bad)) s

/-- SP_DUMP_START (R160): a dump of a held unit starts; without hold cause 0x1A, with a bad address cause 0x1B. For a VF
the register is read-only. -/
def actSpDumpStart (f : Func) (a : Fin 32) (ctl : Word) : Act := .look fun s =>
  let p := spPage a.val
  let addr := s.reg64 p 0x114 % 2 ^ 35
  if f ≠ 0 then withWrite f p .done
  else match (s.unitAt (arrUnit a.val)).state with
  | .rebinding => hostErr f 0x04
  | .held =>
    .seq (setFld p 0x11C 1 3 (fld ctl 1 3))
      (if s.rbit p 0x11C 8 then .done
       else if addr % 2 ^ 21 ≠ 0 ∨ dataTop < addr + 0x480000 then pageErr p 0x1B
       else .seq (setFld p 0x11C 8 1 1) (updArr a.val fun x => { x with dump := some (addr, fld ctl 1 3) }))
  | _ => .seq (setFld p 0x11C 1 3 (fld ctl 1 3)) (pageErr p 0x1A)

/-- SP_DUMP_START. -/
def execSpDumpStart (f : Func) (a : Fin 32) (ctl : Word) (s : State) : Host.Outcome State Fault Refusal :=
  meaning (.spDumpStart f a ctl) (served (actSpDumpStart f a ctl)) s

/-- SP_DUMP_DONE (R160): the memories chosen at the start stand at the address given there: WM at +0, AM at +2 MiB, PM
at +4 MiB. `bad` parity failures were counted on the way. -/
def actSpDumpDone (a : Fin 32) (bad : Nat) : Act := .look fun s =>
  let p := spPage a.val
  whenA (s.rbit p 0x11C 8)
    (acts [dumpLines a.val 36864, bump p 0x0A8 bad, setFld p 0x11C 8 1 0, updArr a.val fun x => { x with dump := none },
      raiseIrq p 11])

/-- SP_DUMP_DONE. -/
def execSpDumpDone (a : Fin 32) (bad : Nat) (s : State) : Host.Outcome State Fault Refusal :=
  meaning (.spDumpDone a bad) (served (actSpDumpDone a bad)) s

end Sys2Proof.Machine
end

