-- ==== Sys2Proof/Machine/Registers.lean ====
section
/-! DEFINITION. Accesses of the register pages and the doorbells by a function: how an address reaches a page, what a
write of each register does, the locks of the keep store, and the rows whose operand is a write of one register (R4,
R5, R25, R26, R28, R33, R379). -/

namespace Sys2Proof.Machine

/-! ## Writes -/

/-- A write by access type (R4): RW fields take the value, W1C bits clear, SH fields go to the shadow; RO, RC and reserved
fields stay. -/
def plainWrite (p off : Nat) (v : Word) : Act := .look fun s =>
  let rw := rowMask RegSpec.rw p off
  let sh := rowMask RegSpec.sh p off
  let wc := rowMask RegSpec.w1c p off
  .seq (whenA (decide (rw ||| wc ≠ 0))
      (setReg p off (((s.reg p off &&& ~~~ rw) ||| (v &&& rw)) &&& ~~~ (v &&& wc))))
    (whenA (decide (sh ≠ 0)) (setShadow p off ((s.shadow p off &&& ~~~ sh) ||| (v &&& sh))))

/-- A write of a register with one field that is locked (LK): the field keeps its value, a write that would change it
records common cause 0x02, and the other fields take the write (R4, R379). -/
def lockedWrite (p off i : Nat) (locked : Bool) (v : Word) : Act := .look fun s =>
  let old := if decide (rowMask RegSpec.sh p off &&& BitVec.ofNat 32 (2 ^ i) ≠ 0) then s.shadow p off else s.reg p off
  if locked then
    .seq (plainWrite p off (putFld v i 1 (b2n (bit old i)))) (whenA (bit v i != bit old i) (pageErr p 0x02))
  else plainWrite p off v

/-- A write of TB_CFG: ptm_on is locked while an output is (R276, R379). -/
def writeTbCfgLocked (v : Word) : Act := .look fun s =>
  let on := s.rbit tbPage 0x100 0
  if s.evLockedAny then
    .seq (writeTbCfg (putFld v 0 1 (b2n on))) (whenA (bit v 0 != on) (pageErr tbPage 0x02))
  else writeTbCfg v

/-- A write of TB_SET_CTL.go, locked while an output is (R264, R379). -/
def writeTbSet : Act := .look fun s => if s.evLockedAny then pageErr tbPage 0x02 else actTbSet

/-- PG_COMMIT (R34, R35): go and abandon are both judged by the state the write finds; seq is taken unless a go is
ignored (DEDUCED, log entry 49). -/
def writeCommit (p : Nat) (v : Word) : Act := .look fun s =>
  let pending := decide (s.rfld p 0x034 0 2 = 1)
  whenA (((pageClass p).map hasCommit).getD false)
    (acts [
      if bit v 0 then writeGo p (v.extractLsb' 8 24) else setReg p 0x030 (v &&& 0xFFFFFF00),
      whenA (bit v 1 && (pending || !bit v 0)) (writeAbandon p)])

/-- A write of a base address of a ring, protected while the ring is enabled (R39, R41). -/
def writeRingBase (f : Func) (p off cfg : Nat) (v : Word) : Act := .look fun s =>
  if s.rbit p cfg 31 then whenA (decide (s.reg p off ≠ v)) (hostErr f 0x13) else setReg p off v

/-- A write of an event ring's register, by its offset in the ring's block (R39). -/
def writeEvr (f : Func) (n off : Nat) (v : Word) : Act :=
  let b := evrOff n
  match off with
  | 0x00 => writeRingBase f (globalPage f) b (b + 8) v
  | 0x04 => writeRingBase f (globalPage f) (b + 4) (b + 8) v
  | 0x08 => writeEvrCfg f n v
  | _ => plainWrite (globalPage f) (b + off) v

/-- A write of a job ring's register, by its offset in the ring's block; restart and skip together are a skip (R41). -/
def writeJr (f : Func) (n off : Nat) (v : Word) : Act :=
  let b := jrOff n
  match off with
  | 0x00 => writeRingBase f (globalPage f) b (b + 8) v
  | 0x04 => writeRingBase f (globalPage f) (b + 4) (b + 8) v
  | 0x08 => writeJrCfg f n v
  | 0x0C => writeJrSeq f n v
  | 0x1C => if bit v 1 then jrSkip f n else whenA (bit v 0) (jrRestart f n)
  | _ => plainWrite (globalPage f) (b + off) v

/-- A write of a function's global page (R39, R41, R404). -/
def writeGlobal (f : Func) (off : Nat) (v : Word) : Act :=
  let g := globalPage f
  if f ≠ 0 ∧ 0x300 ≤ off ∧ off < 0x340 then hostErr f 0x10
  else if 0x400 ≤ off ∧ off < 0x500 then writeEvr f ((off - 0x400) / 32) (off % 32) v
  else if 0x500 ≤ off ∧ off < 0x600 then writeJr f ((off - 0x500) / 32) (off % 32) v
  else if off = 0x300 then .seq (plainWrite g off v) (whenA (bit v 0) (resetTrigger .pfWrite))
  else plainWrite g off v

/-- A write of an MSI-X table entry: unmasking a vector whose pending bit is set sends its message (PRESUMED: PCI
Express; log entry 7). -/
def writeMsix (p off : Nat) (v : Word) : Act := .look fun s =>
  let f : Func := if p < 0x1000 then 0 else Fin.ofNat 32 (p - 0x1020)
  let n := if p < 0x1000 then 256 * (p - 0x018) + off / 16 else off / 16
  let pba := msixPba f n
  .seq (plainWrite p off v)
    (whenA (decide (off % 16 = 12) && s.rbit p off 0 && !bit v 0 && s.rbit pba.1 pba.2 (n % 32))
      (.seq (setFld pba.1 pba.2 (n % 32) 1 0) (fireVector f n)))

/-- A write of an engine's list registers: read-only on a bound engine; on a pooled one ignored with cause 0x1F while the
engine runs or is claimed (R185, R200). -/
def writeList (e off : Nat) (v : Word) : Act := .look fun s =>
  let st := s.atEngines e
  whenA (decide (64 ≤ e))
    (if [EngState.loading, .running, .waiting, .armed].contains (s.engState e) || st.claimed.isSome
     then pageErr (engPage e) 0x1F else plainWrite (engPage e) off v)

/-- A write of the words of a timed action: the control word arms or disarms, the others are ignored with cause 0x14 while
the entry is armed (R272). -/
def writeTa (p off : Nat) (v : Word) : Act := .look fun s =>
  let n := 128 * (p - 0x161) + (off - 0x100) / 16
  if off % 16 = 0 then writeTaCtl n v
  else if s.taArmed n then withFree fun x => recordErrI p 0x0A14 (BitVec.ofNat 32 n) (x.extractLsb' 0 32)
  else plainWrite p off v

/-- A write of TP_RING_CFG (R39, R344, R347): as EVR_CFG, with causes of the host port (DEDUCED, log entry 41). -/
def writeTpRingCfg (f : Func) (t : Nat) (v : Word) : Act := .look fun s =>
  let p := partPage t
  let old := s.reg p 0x138
  if bit old 31 then
    .seq (whenA (decide (fld v 0 5 ≠ fld old 0 5)) (hostErr f 0x13)) (setFld p 0x138 31 1 (b2n (bit v 31)))
  else if bit v 31 then
    if fld (s.reg p 0x130) 0 12 = 0 ∧ 6 ≤ fld v 0 5 ∧ fld v 0 5 ≤ 16 then
      acts [setReg p 0x138 v, setReg p 0x13C 0, setReg p 0x140 0, setReg p 0x144 0, .eff (.trings t {})]
    else .seq (setRegN p 0x138 (v.toNat % 2 ^ 31)) (hostErr f 0x14)
  else setReg p 0x138 v

/-- A write of TR_FL_CTL: go starts the operation op names; op 0 names none, and its go is refused with cause 0x1F
(R375; DEDUCED, log entry 39). -/
def writeFlCtl (f : Func) (v : Word) : Act :=
  if bit v 8 then
    match fld v 0 2 with
    | 1 => startFlash f 1 256
    | 2 => startFlash f 2 256
    | 3 => startFlash f 3 65536
    | _ => .seq (setFld trustPage 0x304 0 2 0) (pageErr trustPage 0x1F)
  else plainWrite trustPage 0x304 v

/-- The actions of PG_CTL's block strobes (R121, R200, R347, R365). One write may carry several; they act after its fields
and err_clear, in the order stop, next, fell, or start, resume, reset, or train, down (DESIGN CHOICE, log entry 62). -/
def ctlStrobes (f : Func) (p : Nat) (v : Word) : Act :=
  match pageClass p with
  | some .array =>
    let a : Fin 32 := Fin.ofNat 32 ((p - 0x080) / 4)
    acts [whenA (bit v 8) (actArrayStopRequest f a), whenA (bit v 12) (actSingleStepNext f a),
      whenA (bit v 9) (actArrayFell f a)]
  | some .engine =>
    let q : Fin 16 := Fin.ofNat 16 (p - 0x140)
    let pooled := decide (0x140 ≤ p)
    acts [whenA (bit v 8 && pooled) (actEngineStart f q), whenA (bit v 9) (actEngineResume f (Fin.ofNat 80 (p - 0x100))),
      whenA (bit v 10 && pooled) (actEngineReset f q)]
  | some .part => whenA (bit v 8) (actPartitionResume f (p - 0x1B8))
  | some .port => acts [whenA (bit v 8) (actPortTrain f (p - 0x1C0)), whenA (bit v 9) (actPortDown f (p - 0x1C0))]
  | _ => .done

/-- A write of PG_CTL (R32): its fields, then its strobes; a pipe's waits count up to the write, which may freeze them.
The array's hold_on_fell and single are the PF's (R121). What enable = 0 stops in a block is said by no chapter; it
stops nothing here (DESIGN CHOICE, log entry 50). -/
def writePgCtl (f : Func) (p : Nat) (v : Word) : Act := .look fun s =>
  let keep : Word := if f ≠ 0 ∧ pageClass p = some .array then 0xC00 else 0
  acts [whenA (decide (pageClass p = some .pipe)) (countStalls p), plainWrite p 0x010 ((v &&& ~~~ keep) ||| (s.reg p 0x010 &&& keep)), whenA (bit v 2) (clearErr p), ctlStrobes f p v]

/-- A write of a block register. -/
def writeBlock (f : Func) (p off : Nat) (v : Word) : Act :=
  match pageClass p with
  | some .global => writeGlobal f off v
  | some .msix | some .vfMsix => writeMsix p off v
  | some .spad =>
    if f ≠ 0 ∧ off < 0x800 then .done
    else if off = 0x11C then
      (if bit v 0 then actSpDumpStart f (Fin.ofNat 32 ((p - 0x080) / 4)) v else plainWrite p off v)
    else plainWrite p off v
  | some .engine =>
    if 0x100 ≤ off ∧ off ≤ 0x108 then writeList (p - 0x100) off v
    else if off = 0x10C then whenA (decide (64 ≤ p - 0x100)) (plainWrite p off v)
    else if off = 0x144 then
      (if bit v 0 then actRearm f (Fin.ofNat 80 (p - 0x100)) v else plainWrite p off v)
    else plainWrite p off v
  | some .sem =>
    let n (base : Nat) : Fin 4096 := Fin.ofNat 4096 (64 * (p - 0x240) + (off - base) / 4)
    if 0x100 ≤ off ∧ off < 0x200 then actSemaphoreSet f (n 0x100) v
    else if 0x200 ≤ off ∧ off < 0x300 then actSemaphoreAdd f (n 0x200) v
    else plainWrite p off v
  | some .memory => if off = 0x118 ∧ bit v 0 then actInvalidationStart v else plainWrite p off v
  | some .sched =>
    if off = 0x124 then .look fun s => actRngLaneWrite f (s.rfld schedPage 0x120 0 11) v else plainWrite p off v
  | some .timebase =>
    if off = 0x100 then writeTbCfgLocked v
    else if off = 0x114 then whenA (bit v 0) writeTbSet
    else plainWrite p off v
  | some .actions => if 0x100 ≤ off ∧ off < 0x900 then writeTa p off v else plainWrite p off v
  | some .link =>
    let o := (p - 0x170) / 4
    if off = 0x120 then whenA (bit v 0) (actDpTrain f (Fin.ofNat 4 o))
    else if off = 0x130 ∧ bit v 31 then auxStart f o v
    else plainWrite p off v
  | some .evid => .look fun s =>
    let o := (p - 0x170) / 4
    if 0x100 ≤ off ∧ off < 0x300 ∧ off % 32 = 0 then
      lockedWrite p off 0 (s.evLocked o && s.rbit trustPage 0x128 (16 + (off - 0x100) / 32)) v
    else if off = 0x400 then lockedWrite p off 0 (s.evLocked o) v
    else plainWrite p off v
  | some .part =>
    let t := p - 0x1B8
    if off = 0x130 ∨ off = 0x134 then writeRingBase f p off 0x138 v
    else if off = 0x138 then writeTpRingCfg f t v
    else if off = 0x140 then actTpRingConsWrite f t v
    else plainWrite p off v
  | some .chain => if off = 0x100 then actChIdWrite f v else plainWrite p off v
  | some .trust => if off = 0x304 then writeFlCtl f v else plainWrite p off v
  | _ => plainWrite p off v

/-- A 32-bit write of a page, once the page has let it in. -/
def writeReg (f : Func) (p off : Nat) (v : Word) : Act :=
  if headed p ∧ off = 0x010 then writePgCtl f p v
  else if headed p ∧ off = 0x030 then writeCommit p v
  else if headed p ∧ off < 0x100 then plainWrite p off v
  else writeBlock f p off v

/-- The post-mortem controls of a scratchpad page, which the PF writes on a held unit too (R57). -/
def postMortem (p off : Nat) : Bool :=
  decide (pageClass p = some .spad) && (decide (off = 0x110) || decide (off = 0x114) || decide (off = 0x118)
    || decide (off = 0x11C))

/-- A write of a function to a page (R26, R33, R57): one access, admitted or turned away as a whole; 8 bytes write both
halves, the low one first. -/
def pageWrite (f : Func) (p off size : Nat) (v : Dword) : Act := .look fun s =>
  let put : Act := .seq (writeReg f p off (v.extractLsb' 0 32)) (whenA (decide (size = 8)) (writeReg f p (off + 4) (v.extractLsb' 32 32)))
  if f = 0 ∧ s.pageState p = .held ∧ postMortem p off then put else withWrite f p put

/-- The page that an offset of a function's BAR0 reaches; none for a slot whose map entry is not valid. -/
def State.barPage (s : State) (f : Func) (off : Nat) : Option Nat :=
  let k := off / 0x1000
  if f = 0 then some k
  else if k = 0 then some (globalPage f)
  else if k = 1 then some (vfMsixPage f)
  else if s.slotUsed f k then some (s.pmap f k % 4096)
  else none

/-- A write of a function to its BAR0 (R25, R26). A VF in its function-level reset that writes to a slot without a valid
map entry is told 0x10 and not the 0x04 of R46, which has a page to name (DESIGN CHOICE, log entry 62). -/
def bar0Write (f : Func) (off size : Nat) (v : Dword) : Act := .look fun s =>
  if !s.present f then .done
  else if (size ≠ 4 ∧ size ≠ 8) ∨ off % size ≠ 0 then hostErr f 0x1D
  else match s.barPage f off with
  | none => hostErr f 0x10
  | some p =>
    pageWrite f p (off % 0x1000) size v

/-- A read of a function of its BAR0 (R25, R26). -/
def bar0Read (f : Func) (off size : Nat) : Act := .look fun s =>
  if !s.present f ∨ (size ≠ 4 ∧ size ≠ 8) ∨ off % size ≠ 0 then .eff (.out .unsupported)
  else match s.barPage f off with
  | none => .seq (readZero size) (hostErr f 0x10)
  | some p => withRead f p size (if size = 8 then readPair f p (off % 0x1000) else readReg f p (off % 0x1000))

/-- One doorbell (R28). -/
def doorbellWrite (f : Func) (off : Nat) (v : Word) : Act :=
  if off < 0x1000 then actStreamRingDoorbell f (Fin.ofNat 1024 (off / 4)) v
  else if off < 0x1020 then actJobRingProducerDoorbell f (Fin.ofNat 8 ((off - 0x1000) / 4)) v
  else if off < 0x1040 then actEventRingConsumerDoorbell f (Fin.ofNat 8 ((off - 0x1020) / 4)) v
  else if 0x2000 ≤ off ∧ off < 0x6000 then actSemaphoreSignalDoorbell f (Fin.ofNat 4096 ((off - 0x2000) / 4)) v
  else hostErr f 0x1D

/-- A write of a function to its BAR4: one doorbell, or two for an 8-byte write, the low one first (R25, R28; DEDUCED, log
entry 49). -/
def bar4Write (f : Func) (off size : Nat) (v : Dword) : Act := .look fun s =>
  if !s.present f then .done
  else if (size ≠ 4 ∧ size ≠ 8) ∨ off % size ≠ 0 then hostErr f 0x1D
  else .seq (doorbellWrite f off (v.extractLsb' 0 32))
    (whenA (decide (size = 8)) (doorbellWrite f (off + 4) (v.extractLsb' 32 32)))

/-- A read of BAR4 returns 0 (R25), that of a VF in its function-level reset too, and it records nothing (DESIGN CHOICE,
log entry 62). -/
def bar4Read (f : Func) (off size : Nat) : Act := .look fun s =>
  if !s.present f ∨ (size ≠ 4 ∧ size ≠ 8) ∨ off % size ≠ 0 then .eff (.out .unsupported) else readZero size

/-- REGISTER_WRITE: an access of BAR0 or BAR4. In service every access is served, and a doorbell does what its own command
does; behind the fence of a warm reset reads
return 0 and writes are dropped, but for the PF's reads of its global page and the trust page; in recovery and out of
service the PF alone is served, on those two pages; a device in reset or booting answers nothing (R25, R373, R396,
R401). -/
def actRegisterWrite (f : Func) (bar : Bar) (off : Nat) (acc : Access) : Act := .look fun s =>
  let core := decide (f = 0) && decide (bar = .bar0) && corePage (off / 0x1000)
  let go : Act := match bar, acc with
    | .bar0, .read n => bar0Read f off n
    | .bar0, .write n v => bar0Write f off n v
    | .bar4, .read n => bar4Read f off n
    | .bar4, .write n v => bar4Write f off n v
  match s.phase with
  | .service => if bar = .bar4 then go else served go
  | .held | .booting => .done
  | .fenced _ => match acc with
    | .read n => if core then go else readZero n
    | .write _ _ => .done
  | .recovery | .noService =>
    if core then go else match acc with
      | .read n => if f = 0 then readZero n else .eff (.out .unsupported)
      | .write _ _ => .done

/-- REGISTER_WRITE. -/
def execRegisterWrite (f : Func) (bar : Bar) (off : Nat) (acc : Access) (s : State) :
    Host.Outcome State Fault Refusal :=
  meaning (.registerWrite f bar off acc) (actRegisterWrite f bar off acc) s

/-! ## Rows that are one write -/

/-- INVALIDATION_START. -/
def execInvalidationStart (f : Func) (ctl : Word) (s : State) : Host.Outcome State Fault Refusal :=
  meaning (.invalidationStart f ctl) (inService (withWrite f memPage (actInvalidationStart ctl))) s

/-- TB_SET. -/
def execTbSet (f : Func) (s : State) : Host.Outcome State Fault Refusal :=
  meaning (.tbSet f) (inService (withWrite f tbPage writeTbSet)) s

end Sys2Proof.Machine
end

