-- ==== Sys2Proof/Machine/Dispatch.lean ====
section
/-! DEFINITION. One arm per command: the direct call of its meaning. -/

namespace Sys2Proof.Machine

/-- The effect of a command on everything but the queue. -/
def exec (i : Instr) (s : State) : Host.Outcome State Fault Refusal :=
  match i with
  | .linkChange speed width => Sys2Proof.Machine.execLinkChange speed width s
  | .d3hotEntry f now => Sys2Proof.Machine.execD3hotEntry f now s
  | .registerWrite f bar off acc => Sys2Proof.Machine.execRegisterWrite f bar off acc s
  | .bar2Read off len => Sys2Proof.Machine.execBar2Read off len s
  | .bar2Write off data => Sys2Proof.Machine.execBar2Write off data s
  | .streamRingDoorbell f ctx value => Sys2Proof.Machine.execStreamRingDoorbell f ctx value s
  | .jobRingProducerDoorbell f ring value => Sys2Proof.Machine.execJobRingProducerDoorbell f ring value s
  | .eventRingConsumerDoorbell f ring value => Sys2Proof.Machine.execEventRingConsumerDoorbell f ring value s
  | .semaphoreSignalDoorbell f sem value => Sys2Proof.Machine.execSemaphoreSignalDoorbell f sem value s
  | .eventRingInterruptTimer f ring now => Sys2Proof.Machine.execEventRingInterruptTimer f ring now s
  | .eventRingEnable f ring cfg => Sys2Proof.Machine.execEventRingEnable f ring cfg s
  | .eventRingDisable f ring cfg => Sys2Proof.Machine.execEventRingDisable f ring cfg s
  | .jobRingEnable f ring cfg => Sys2Proof.Machine.execJobRingEnable f ring cfg s
  | .jobRingDisable f ring cfg => Sys2Proof.Machine.execJobRingDisable f ring cfg s
  | .jrSeqWrite f ring value => Sys2Proof.Machine.execJrSeqWrite f ring value s
  | .jobRingRestart f ring => Sys2Proof.Machine.execJobRingRestart f ring s
  | .jobRingSkip f ring => Sys2Proof.Machine.execJobRingSkip f ring s
  | .jobKindRefused f ring desc => Sys2Proof.Machine.execJobKindRefused f ring desc s
  | .jobWaitEnd job => Sys2Proof.Machine.execJobWaitEnd job s
  | .jobNotBefore job now => Sys2Proof.Machine.execJobNotBefore job now s
  | .hostCompletionTimeout reader => Sys2Proof.Machine.execHostCompletionTimeout reader s
  | .fence f ring desc => Sys2Proof.Machine.execFence f ring desc s
  | .vfFlr f => Sys2Proof.Machine.execVfFlr f s
  | .pfFlr now => Sys2Proof.Machine.execPfFlr now s
  | .pgCommitGo f page seq => Sys2Proof.Machine.execPgCommitGo f page seq s
  | .commitPoint page => Sys2Proof.Machine.execCommitPoint page s
  | .pgCommitAbandon f page => Sys2Proof.Machine.execPgCommitAbandon f page s
  | .errClear f page => Sys2Proof.Machine.execErrClear f page s
  | .bind f ring desc => Sys2Proof.Machine.execBind f ring desc s
  | .unbind f ring desc => Sys2Proof.Machine.execUnbind f ring desc s
  | .move f ring desc => Sys2Proof.Machine.execMove f ring desc s
  | .releaseHold f ring desc => Sys2Proof.Machine.execReleaseHold f ring desc s
  | .shareReadOnly f ring desc => Sys2Proof.Machine.execShareReadOnly f ring desc s
  | .withdrawShare f ring desc => Sys2Proof.Machine.execWithdrawShare f ring desc s
  | .rebindStopDone unit => Sys2Proof.Machine.execRebindStopDone unit s
  | .rebindScrubDone unit => Sys2Proof.Machine.execRebindScrubDone unit s
  | .orphanedTagReturn engine tag => Sys2Proof.Machine.execOrphanedTagReturn engine tag s
  | .qpMaxabsRead f array profile => Sys2Proof.Machine.execQpMaxabsRead f array profile s
  | .qpHwMaxabsRead f array profile => Sys2Proof.Machine.execQpHwMaxabsRead f array profile s
  | .tileStepFetch array => Sys2Proof.Machine.execTileStepFetch array s
  | .stepIssue array parity => Sys2Proof.Machine.execStepIssue array parity s
  | .phaseWaitMet array => Sys2Proof.Machine.execPhaseWaitMet array s
  | .stepComplete array => Sys2Proof.Machine.execStepComplete array s
  | .stepOverrun array => Sys2Proof.Machine.execStepOverrun array s
  | .arraySelfCheckFailure array check => Sys2Proof.Machine.execArraySelfCheckFailure array check s
  | .arrayStopRequest f array => Sys2Proof.Machine.execArrayStopRequest f array s
  | .kerfPoint array => Sys2Proof.Machine.execKerfPoint array s
  | .arrayFell f array => Sys2Proof.Machine.execArrayFell f array s
  | .singleStepNext f array => Sys2Proof.Machine.execSingleStepNext f array s
  | .windowWrite port frame => Sys2Proof.Machine.execWindowWrite port frame s
  | .arrivalCommit array => Sys2Proof.Machine.execArrivalCommit array s
  | .windowWriteCommit window => Sys2Proof.Machine.execWindowWriteCommit window s
  | .bankRetention array mem bank => Sys2Proof.Machine.execBankRetention array mem bank s
  | .bankWakeDone array mem bank => Sys2Proof.Machine.execBankWakeDone array mem bank s
  | .contextScrubDone ctx => Sys2Proof.Machine.execContextScrubDone ctx s
  | .bootScrubDone => Sys2Proof.Machine.execBootScrubDone s
  | .spPmwRead f array word bad => Sys2Proof.Machine.execSpPmwRead f array word bad s
  | .spDumpStart f array ctl => Sys2Proof.Machine.execSpDumpStart f array ctl s
  | .spDumpDone array bad => Sys2Proof.Machine.execSpDumpDone array bad s
  | .modelBundleLoad f ring desc => Sys2Proof.Machine.execModelBundleLoad f ring desc s
  | .bundleCheckDone => Sys2Proof.Machine.execBundleCheckDone s
  | .lcInstall => Sys2Proof.Machine.execLcInstall s
  | .lcEvict f ring desc => Sys2Proof.Machine.execLcEvict f ring desc s
  | .lcSetPins f ring desc => Sys2Proof.Machine.execLcSetPins f ring desc s
  | .lcFillDone => Sys2Proof.Machine.execLcFillDone s
  | .streamListFetch engine => Sys2Proof.Machine.execStreamListFetch engine s
  | .descriptorCurrent engine => Sys2Proof.Machine.execDescriptorCurrent engine s
  | .unitTake engine => Sys2Proof.Machine.execUnitTake engine s
  | .requestRetire engine tag result => Sys2Proof.Machine.execRequestRetire engine tag result s
  | .rearm f engine ctl => Sys2Proof.Machine.execRearm f engine ctl s
  | .engineStart f pooled => Sys2Proof.Machine.execEngineStart f pooled s
  | .engineResume f engine => Sys2Proof.Machine.execEngineResume f engine s
  | .engineReset f pooled => Sys2Proof.Machine.execEngineReset f pooled s
  | .semaphoreSet f sem value => Sys2Proof.Machine.execSemaphoreSet f sem value s
  | .semaphoreAdd f sem value => Sys2Proof.Machine.execSemaphoreAdd f sem value s
  | .stackRead client asid addr len upset parity => Sys2Proof.Machine.execStackRead client asid addr len upset parity s
  | .stackWrite client asid addr data => Sys2Proof.Machine.execStackWrite client asid addr data s
  | .partialWriteTimeout billet => Sys2Proof.Machine.execPartialWriteTimeout billet s
  | .mergeReadDone billet upset => Sys2Proof.Machine.execMergeReadDone billet upset s
  | .patrolRead upset => Sys2Proof.Machine.execPatrolRead upset s
  | .stackZeroingDone => Sys2Proof.Machine.execStackZeroingDone s
  | .translationWalkDone client asid va len write => Sys2Proof.Machine.execTranslationWalkDone client asid va len write s
  | .invalidationStart f ctl => Sys2Proof.Machine.execInvalidationStart f ctl s
  | .invalidationDone => Sys2Proof.Machine.execInvalidationDone s
  | .contextConfigure f ring desc body => Sys2Proof.Machine.execContextConfigure f ring desc body s
  | .contextStart f ring desc => Sys2Proof.Machine.execContextStart f ring desc s
  | .contextStop f ring desc => Sys2Proof.Machine.execContextStop f ring desc s
  | .contextFlush f ring desc => Sys2Proof.Machine.execContextFlush f ring desc s
  | .contextQuery f ring desc => Sys2Proof.Machine.execContextQuery f ring desc s
  | .contextReset f ring desc => Sys2Proof.Machine.execContextReset f ring desc s
  | .accessUnitFetch ctx entry fetched => Sys2Proof.Machine.execAccessUnitFetch ctx entry fetched s
  | .pipeSelect pipe now => Sys2Proof.Machine.execPipeSelect pipe now s
  | .pictureWritten pipe pic => Sys2Proof.Machine.execPictureWritten pipe pic s
  | .batchJob f ring desc => Sys2Proof.Machine.execBatchJob f ring desc s
  | .dispatch array => Sys2Proof.Machine.execDispatch array s
  | .contextSaveDone ctx parity => Sys2Proof.Machine.execContextSaveDone ctx parity s
  | .contextRestoreDone ctx => Sys2Proof.Machine.execContextRestoreDone ctx s
  | .teardownOrphanTimeout ctx => Sys2Proof.Machine.execTeardownOrphanTimeout ctx s
  | .rangerPeriod now => Sys2Proof.Machine.execRangerPeriod now s
  | .rangerDeadline entry now => Sys2Proof.Machine.execRangerDeadline entry now s
  | .slowdownReport now => Sys2Proof.Machine.execSlowdownReport now s
  | .rngLaneWrite f lane value => Sys2Proof.Machine.execRngLaneWrite f lane value s
  | .ptmDialogue now master => Sys2Proof.Machine.execPtmDialogue now master s
  | .tbSet f => Sys2Proof.Machine.execTbSet f s
  | .mainsPositiveCrossing now => Sys2Proof.Machine.execMainsPositiveCrossing now s
  | .mainsNegativeCrossing now => Sys2Proof.Machine.execMainsNegativeCrossing now s
  | .mainsMissingCrossing now => Sys2Proof.Machine.execMainsMissingCrossing now s
  | .pfwFall now => Sys2Proof.Machine.execPfwFall now s
  | .pfwRise now => Sys2Proof.Machine.execPfwRise now s
  | .pfwRearm now => Sys2Proof.Machine.execPfwRearm now s
  | .taArm f entry ctl => Sys2Proof.Machine.execTaArm f entry ctl s
  | .taDisarm f entry ctl => Sys2Proof.Machine.execTaDisarm f entry ctl s
  | .taFireCommit entry now => Sys2Proof.Machine.execTaFireCommit entry now s
  | .taFireSignal entry now => Sys2Proof.Machine.execTaFireSignal entry now s
  | .taFireEvent entry now => Sys2Proof.Machine.execTaFireEvent entry now s
  | .taFireSnapshot entry now => Sys2Proof.Machine.execTaFireSnapshot entry now s
  | .taStatRead f entry => Sys2Proof.Machine.execTaStatRead f entry s
  | .outputLine out line now underruns => Sys2Proof.Machine.execOutputLine out line now underruns s
  | .stripRequest out strip now => Sys2Proof.Machine.execStripRequest out strip now s
  | .deadlineLine out strip now => Sys2Proof.Machine.execDeadlineLine out strip now s
  | .takeLine out strip now => Sys2Proof.Machine.execTakeLine out strip now s
  | .displayGroupCommit f page seq => Sys2Proof.Machine.execDisplayGroupCommit f page seq s
  | .commitLatch out now => Sys2Proof.Machine.execCommitLatch out now s
  | .frameStart out now => Sys2Proof.Machine.execFrameStart out now s
  | .displayPllLocked out now => Sys2Proof.Machine.execDisplayPllLocked out now s
  | .dpTrain f out => Sys2Proof.Machine.execDpTrain f out s
  | .dpTrainDone out ok => Sys2Proof.Machine.execDpTrainDone out ok s
  | .hpdLowTimeout out => Sys2Proof.Machine.execHpdLowTimeout out s
  | .irqHpd out locked => Sys2Proof.Machine.execIrqHpd out locked s
  | .auxNativeWrite f out ctl => Sys2Proof.Machine.execAuxNativeWrite f out ctl s
  | .auxNativeRead f out ctl => Sys2Proof.Machine.execAuxNativeRead f out ctl s
  | .auxI2cWrite f out ctl => Sys2Proof.Machine.execAuxI2cWrite f out ctl s
  | .auxI2cRead f out ctl => Sys2Proof.Machine.execAuxI2cRead f out ctl s
  | .auxI2cWriteMot f out ctl => Sys2Proof.Machine.execAuxI2cWriteMot f out ctl s
  | .auxI2cReadMot f out ctl => Sys2Proof.Machine.execAuxI2cReadMot f out ctl s
  | .auxReply out reply => Sys2Proof.Machine.execAuxReply out reply s
  | .psyncEdge out now => Sys2Proof.Machine.execPsyncEdge out now s
  | .psyncLost out => Sys2Proof.Machine.execPsyncLost out s
  | .trackSet f ring desc => Sys2Proof.Machine.execTrackSet f ring desc s
  | .trackAssociate f ring desc => Sys2Proof.Machine.execTrackAssociate f ring desc s
  | .graphLoad f ring desc => Sys2Proof.Machine.execGraphLoad f ring desc s
  | .trackFlush f ring desc => Sys2Proof.Machine.execTrackFlush f ring desc s
  | .problemStart now => Sys2Proof.Machine.execProblemStart now s
  | .trackBlockFill part emb block upset => Sys2Proof.Machine.execTrackBlockFill part emb block upset s
  | .partitionResume f part => Sys2Proof.Machine.execPartitionResume f part s
  | .offer port frame offer => Sys2Proof.Machine.execOffer port frame offer s
  | .takenNotice port frame ident => Sys2Proof.Machine.execTakenNotice port frame ident s
  | .withdrawal port frame ident => Sys2Proof.Machine.execWithdrawal port frame ident s
  | .duplicateNotice port frame ident => Sys2Proof.Machine.execDuplicateNotice port frame ident s
  | .offerExpiry now => Sys2Proof.Machine.execOfferExpiry now s
  | .tpRingConsWrite f part value => Sys2Proof.Machine.execTpRingConsWrite f part value s
  | .portTrain f port => Sys2Proof.Machine.execPortTrain f port s
  | .portDown f port => Sys2Proof.Machine.execPortDown f port s
  | .portTrainingDone port lanes => Sys2Proof.Machine.execPortTrainingDone port lanes s
  | .hello port frame count root => Sys2Proof.Machine.execHello port frame count root s
  | .chIdWrite f value => Sys2Proof.Machine.execChIdWrite f value s
  | .windowReadRequest port frame => Sys2Proof.Machine.execWindowReadRequest port frame s
  | .completion port frame => Sys2Proof.Machine.execCompletion port frame s
  | .frameForward port frame => Sys2Proof.Machine.execFrameForward port frame s
  | .ack port frame => Sys2Proof.Machine.execAck port frame s
  | .nak port frame => Sys2Proof.Machine.execNak port frame s
  | .credit port frame => Sys2Proof.Machine.execCredit port frame s
  | .ackTimer port => Sys2Proof.Machine.execAckTimer port s
  | .replayTimeout port => Sys2Proof.Machine.execReplayTimeout port s
  | .remoteTimeout ttag => Sys2Proof.Machine.execRemoteTimeout ttag s
  | .busyRetry ttag => Sys2Proof.Machine.execBusyRetry ttag s
  | .powerOnReset straps => Sys2Proof.Machine.execPowerOnReset straps s
  | .bootComplete => Sys2Proof.Machine.execBootComplete s
  | .flashRead f => Sys2Proof.Machine.execFlashRead f s
  | .flashProgram f => Sys2Proof.Machine.execFlashProgram f s
  | .flashErase f => Sys2Proof.Machine.execFlashErase f s
  | .flashDone => Sys2Proof.Machine.execFlashDone s
  | .ordinarySet f ring desc body => Sys2Proof.Machine.execOrdinarySet f ring desc body s
  | .signedChange f ring desc body => Sys2Proof.Machine.execSignedChange f ring desc body s
  | .attest f ring desc => Sys2Proof.Machine.execAttest f ring desc s
  | .keepCommitDone failed => Sys2Proof.Machine.execKeepCommitDone failed s
  | .rngHealthFailure which => Sys2Proof.Machine.execRngHealthFailure which s
  | .trRngDataRead f => Sys2Proof.Machine.execTrRngDataRead f s
  | .warmReset trigger => Sys2Proof.Machine.execWarmReset trigger s
  | .deviceFault code => Sys2Proof.Machine.execDeviceFault code s
  | .pcieReset cause => Sys2Proof.Machine.execPcieReset cause s
  | .referenceClockLoss clk => Sys2Proof.Machine.execReferenceClockLoss clk s
  | .thermalSensorRead now sensors => Sys2Proof.Machine.execThermalSensorRead now sensors s
  | .d3hotExit f => Sys2Proof.Machine.execD3hotExit f s
  | .porNFall => Sys2Proof.Machine.execPorNFall s
  | .neighbourLinkDown port => Sys2Proof.Machine.execNeighbourLinkDown port s
  | .hostCompletionError reader => Sys2Proof.Machine.execHostCompletionError reader s
  | .trackRingInterruptTimer part now => Sys2Proof.Machine.execTrackRingInterruptTimer part now s
  | .sriovVfEnable count => Sys2Proof.Machine.execSriovVfEnable count s

end Sys2Proof.Machine
end

