-- ==== Sys2Proof/Safety.lean ====
section
/-! DEFINITION. What the statements are said in: the form every state keeps, what a command answers, and what it leaves
alone. -/

namespace Sys2Proof

/-- Every table of the state, memory among them, is in its canonical form. -/
def tablesWf (s : Machine.State) : Bool :=
  open Machine in
    tblOk regReset s.regs &&
    tblOk regReset s.shadows &&
    tblOk commitsDefault s.commits &&
    tblOk latchesDefault s.latches &&
    tblOk unitsDefault s.units &&
    tblOk ringsDefault s.rings &&
    tblOk jobsDefault s.jobs &&
    Memory.wf s.mem &&
    tblOk codingMapDefault s.codingMap &&
    tblOk crcDiffDefault s.crcDiff &&
    tblOk heldDefault s.held &&
    tblOk bufferedDefault s.buffered &&
    tblOk lcSlotsDefault s.lcSlots &&
    tblOk spDefault s.sp &&
    tblOk arraysDefault s.arrays &&
    tblOk enginesDefault s.engines &&
    tblOk ctxsDefault s.ctxs &&
    tblOk entriesDefault s.entries &&
    tblOk lanesDefault s.lanes &&
    tblOk classCountsDefault s.classCounts &&
    tblOk portsDefault s.ports &&
    tblOk remotesDefault s.remotes &&
    tblOk windowsDefault s.windows &&
    tblOk streamsDefault s.streams &&
    tblOk pipesDefault s.pipes &&
    tblOk layersDefault s.layers &&
    tblOk outsDefault s.outs &&
    tblOk flashDefault s.flash &&
    tblOk tblkDefault s.tblk &&
    tblOk tcacheDefault s.tcache &&
    tblOk tcamDefault s.tcam &&
    tblOk tringsDefault s.trings &&
    tblOk flogDefault s.flog

/-- No listed register or shadow holds a reserved bit: reserved bits read as 0 and are kept 0 (R5). -/
def reservedZero (s : Machine.State) : Bool :=
  (s.regs.all fun (e : Nat × Word) => e.2 &&& ~~~ Machine.regMask e.1 == 0) &&
  (s.shadows.all fun (e : Nat × Word) => e.2 &&& ~~~ Machine.regMask e.1 == 0)

/-- The form every state of the device keeps: canonical tables and reserved bits at 0. -/
def stateWf (s : Machine.State) : Bool := tablesWf s && reservedZero s

/-- `t` has everything that `s` has sent, and sent it before anything else it has sent. -/
def sentBefore (s t : Machine.State) : Prop := ∃ l, t.out = l ++ s.out

/-- What `t` has sent since `s` holds `o`. -/
def sends (o : Machine.Output) (s t : Machine.State) : Prop := ∃ l m, t.out = l ++ o :: (m ++ s.out)

/-- The command completes on the state, and what it leaves satisfies `Q`. -/
def answers (c : Instr) (s : Machine.State) (Q : Machine.State → Prop) : Prop :=
  ∃ t, Machine.exec c s = .next t ∧ Q t

/-- The device is in service, the function is there, and the page lets it write (R26, R33). -/
def mayWrite (s : Machine.State) (f : Func) (p : Nat) : Prop :=
  s.phase = .service ∧ s.present f = true ∧ s.denied f p true = none

/-- The device is in service, the function is there, and the page lets it read (R26, R33). -/
def mayRead (s : Machine.State) (f : Func) (p : Nat) : Prop :=
  s.phase = .service ∧ s.present f = true ∧ s.denied f p false = none

/-- A descriptor of a kind stands at the consumer index of a ring that fetches, passes the envelope checks, and has no
gate to wait for (R41 to R43, R430). -/
def readyJob (s : Machine.State) (f : Func) (n : Fin 8) (d : BitVec 1024) (kind : Nat) : Prop :=
  s.phase = .service ∧ s.jrFetches f n.val = true ∧ Machine.jobKind d = kind ∧
  Machine.envelopeRefusal s f n.val d = none ∧ Machine.jobOrdered d = false ∧ Machine.bit d 271 = false ∧
  Machine.jobNotBefore d ≤ s.time.toNat

/-- A stream context control job of an op is at the head of its ring, names the context in its epoch, and is one the
context's state allows (R226). -/
def readyStream (s : Machine.State) (f : Func) (n : Fin 8) (d : BitVec 1024) (op : Nat) : Prop :=
  readyJob s f n d 3 ∧ Machine.streamRefusal s d = none ∧ Machine.streamOp d = op ∧
  Machine.opAllowed op (s.atStreams (Machine.jobTarget d)).state = true

/-- A track control job of an op is at the head of its ring, names its partition in its epoch, and passes the checks made
before it waits (R332). -/
def readyTrack (s : Machine.State) (f : Func) (n : Fin 8) (d : BitVec 1024) (op : Nat) : Prop :=
  readyJob s f n d 4 ∧ Machine.trackRefusal s f d = none ∧ Machine.trackOp d = op

/-- The leaf of an address that stands where a client finds it at once: in its own translation cache, or with the shared
walker for a client that has none (R215). -/
def standingLeaf (s : Machine.State) (c : StackClient) (asid va : Nat) : Option Machine.Leaf :=
  if (Machine.cacheOf c.kind).isSome then s.ownCached c asid va else s.walkerLeaf c.func asid va

/-- A billet checks, and the billet buffer, where it holds it, holds what the stack does (R208). -/
def steadyBillet (s : Machine.State) (b : Nat) : Bool :=
  decide (s.atCrcDiff b = 0) && (s.atBuffered (Machine.channelOf b)).all fun x =>
    decide (x.billet ≠ b) || (x.ok && decide (x.data = s.billetContent b))

/-- A billet does not check, in the stack nor in the billet buffer where that holds it (R208). -/
def brokenBillet (s : Machine.State) (b : Nat) : Bool :=
  decide (s.atCrcDiff b ≠ 0) && (s.atBuffered (Machine.channelOf b)).all fun x => decide (x.billet ≠ b) || !x.ok

/-- Where a billet buffer holds a billet, it holds what the stack does (R208). -/
def freshBillet (s : Machine.State) (b : Nat) : Prop :=
  ∀ x ∈ s.atBuffered (Machine.channelOf b), x.billet = b → x.data = s.billetContent b

/-- Every billet that a billet buffer holds is as it stands in the stack, and so is the result of its check (R208). -/
def buffersFresh (s : Machine.State) : Prop :=
  ∀ ch, ∀ x ∈ s.atBuffered ch, x.data = s.billetContent x.billet ∧ x.ok = decide (s.atCrcDiff x.billet = 0)

/-- A client's own cache and the shared walker hold nothing for an address, so that its walk starts at the root (R215). -/
def walksFromRoot (s : Machine.State) (c : StackClient) (asid va : Nat) : Prop :=
  s.ownCached c asid va = none ∧ s.walkerLeaf c.func asid va = none ∧ s.walkerTable c.func asid va = none

/-- An invalidation drops a leaf: it is of the function and the address space, and meets the span unless all go (R216). -/
def dropsLeaf (i : Machine.Inval) (l : Machine.Leaf) : Prop :=
  l.func = i.func ∧ l.asid = i.asid ∧
    (i.all = true ∨ (l.vpage * 2 ^ l.shift < i.va + 65536 * i.pages ∧ i.va < (l.vpage + 1) * 2 ^ l.shift))

/-- Every byte of a virtual range lies in a page of plain coding that a client may read and whose leaf stands in its
cache, in a billet that checks, and together they are `bs` (R213 to R216, R208); the client is one the landing cache
does not serve, or the cache holds no model (R166). -/
def readsAs (s : Machine.State) (c : StackClient) (asid va : Nat) (bs : List Byte) : Prop :=
  (Machine.lcClient c.kind = false ∨ ∀ k, k < 64 → (s.atLcSlots k).valid = false) ∧
  ∀ i (h : i < bs.length), ∃ l, standingLeaf s c asid (va + i) = some l ∧ l.coding = .plain ∧ 16 ≤ l.shift ∧
    l.r = true ∧ steadyBillet s (Machine.leafAddr l (va + i) / 2048) = true ∧ bs[i] = s.content (Machine.leafAddr l (va + i))

/-- Every byte of a virtual range lies in a page of plain coding that a client may write and whose leaf stands in its
cache, at physical addresses `pa` of the data area, one for each byte, in billets that are not held in the write buffer
(R210, R213 to R216). -/
def writesAt (s : Machine.State) (c : StackClient) (asid va n : Nat) (pa : Nat → Nat) : Prop :=
  (∀ i, i < n → pa i < Machine.dataTop ∧ s.atHeld (pa i / 2048) = none ∧
    ∃ l, standingLeaf s c asid (va + i) = some l ∧ l.coding = .plain ∧ 16 ≤ l.shift ∧ l.w = true ∧
      pa i = Machine.leafAddr l (va + i)) ∧
  ∀ i j, i < n → j < n → pa i = pa j → i = j

/-- The bytes a request of an engine moves are `bs`: it holds them already, or the host has sent them, or they stand at
its source in the stack (R181). -/
def sourceBytes (s : Machine.State) (e : Nat) (r : Machine.EReq) (d : BitVec 512) (host bs : List Byte) : Prop :=
  r.data = some bs ∨ (r.data = none ∧ r.remote = false ∧ bs.length = r.len ∧
    ((Machine.sdKind d false = 2 ∧ host = bs) ∨
      (Machine.sdKind d false = 0 ∧ readsAs s (s.engClient e) (s.atEngines e).asid r.src bs)))

/-- The body of a job is `b`: the bytes fetched with it from host memory, or those of the stack its address names (R42).
-/
def bodyIs (s : Machine.State) (f : Func) (d : BitVec 1024) (given b : List Byte) : Prop :=
  (Machine.jobBodyHost d = true ∧ b = given) ∨
  (Machine.jobBodyHost d = false ∧ readsAs s ⟨.job, f⟩ 0 (Machine.jobBodyAddr d) b)

/-- An entry has ended with a status: it is done, or it is gone with its job (R240). -/
def entryEnded (t : Machine.State) (n status : Nat) : Prop :=
  t.atEntries n = none ∨ ∃ x, t.atEntries n = some x ∧ x.state = .done ∧ x.status = status

/-- A timed action is armed for an action and its trigger is met at device time `now` (R273). -/
def dueAction (s : Machine.State) (n : Fin 256) (now : Dword) (act : Nat) : Prop :=
  s.phase = .service ∧ s.time ≤ now ∧ s.taArmed n.val = true ∧ s.taCtl n.val 5 3 = act ∧
  ({ s with time := now } : Machine.State).taMet n.val = true

/-- A group commit gives values to shadowed registers of display pages alone, and reports in display pages, as every go
makes it (R310). -/
def displaySet (g : Machine.GroupCommit) : Prop :=
  (∀ e ∈ g.snap, ∃ p, 0x170 ≤ p ∧ p < 0x1A8 ∧ ∃ r ∈ Machine.shadowRegs p, e.1 = Machine.regAddr p r.1) ∧
  ∀ p ∈ g.pages, 0x170 ≤ p ∧ p < 0x1A8

/-- A set of an output has applied whole: every register it names, of layers, composition, evidence, timing or floor
scaler, holds its value, but for what the evidence lock keeps on, and the PG_COMMIT_STAT of its pages reads applied,
with its seq (R310, R312, R379). -/
def setStands (o : Nat) (g : Machine.GroupCommit) (s t : Machine.State) : Prop :=
  (∀ p off v, off < 4096 → (Machine.regAddr p off, v) ∈ g.snap →
    t.reg p off = s.lockKept o (Machine.regAddr p off) v &&& Machine.regMask (Machine.regAddr p off)) ∧
  ∀ p ∈ g.pages, t.rfld p 0x034 0 2 = 2 ∧ t.rfld p 0x034 8 8 = g.seq.toNat % 256

/-- The next frame an up port expects arrives intact, is of a type, and is for this device (R352, R353, R355). -/
def arrives (s : Machine.State) (p : Fin 2) (frame : List Byte) (typ : Nat) : Prop :=
  s.phase = .service ∧ s.portState p.val = 3 ∧ Machine.frameCrcOk frame = true ∧
  Machine.frameSeq frame = (s.atPorts p.val).recvSeq ∧ Machine.frameFormOk frame = true ∧
  (Machine.parseHeader frame).typ = typ ∧ (Machine.parseHeader frame).dst = s.deviceNo

/-- A counter that a read brings up to date: one of passing time, whose amount is free (R32, log entry 48), or a pipe's
stall (R236). -/
def countsOn (p off : Nat) : Bool :=
  Machine.accrues p off || decide (Machine.pageClass p = some .pipe ∧ off / 8 * 8 = 0x078)

/-- The next frame an up port expects arrives intact, with header `h`, and is for another device (R352 to R356). -/
def inTransit (s : Machine.State) (p : Fin 2) (frame : List Byte) (h : Machine.Header) : Prop :=
  s.phase = .service ∧ s.portState p.val = 3 ∧ Machine.frameCrcOk frame = true ∧
  Machine.frameSeq frame = (s.atPorts p.val).recvSeq ∧ Machine.frameFormOk frame = true ∧
  h = Machine.parseHeader frame ∧ h.typ ≠ 6 ∧ h.dst ≠ s.deviceNo

/-- A completion of a request, as it goes back to the requester (R353). -/
def completionOf (s : Machine.State) (h : Machine.Header) (status : Nat) (payload : List Byte) : List Byte :=
  Machine.frameBody {
    typ := 3, vc := 2, dst := h.src, src := s.deviceNo, len := payload.length, ttag := h.ttag, window := h.window,
    status := status, requester := h.requester, offset := h.offset, first := h.first, last := h.last } payload

/-- Port `q` has nothing waiting, and credit and room for a frame (R354, R355). -/
def portFree (s : Machine.State) (q : Fin 2) (vc : Nat) (bytes : List Byte) : Prop :=
  s.portState q.val = 3 ∧ (s.atPorts q.val).waiting = [] ∧ Machine.canEmit s q.val ⟨vc, bytes, none⟩ = true

/-- Window `w` is bound, enabled for an access (bit 2 for reads, 3 for writes) and admits a source device (R360). -/
def windowOpen (s : Machine.State) (w bit src : Nat) : Prop :=
  (s.unitAt (Machine.winUnit w)).state = .bound ∧ s.rbit (Machine.winPage w) 0x100 bit = true ∧ s.winAdmits w src = true

/-- A write of a payload into scratchpad window `h.window` passes every check but that of room: handle `n` of array `a`,
whose entry is `e`, takes it (R156, R361). -/
def fitsScratch (s : Machine.State) (h : Machine.Header) (data : List Byte) (a n : Nat) (e : BitVec 128) : Prop :=
  windowOpen s h.window 3 h.src ∧ s.winKind h.window = 2 ∧ s.winTarget h.window = some (a, n, e) ∧ data ≠ [] ∧
  data.length % 64 = 0 ∧ data.length ≤ 256 ∧ h.offset % 64 = 0 ∧ h.first = 0 ∧ h.last + 1 = data.length ∧
  h.offset + data.length ≤ Machine.hSize e ∧ (s.atWindows h.window).inFlight + data.length ≤ 8192

/-- The arrival that a window write frame of a port becomes (R156). -/
def arrivalOfFrame (p : Fin 2) (frame : List Byte) (n : Nat) (e : BitVec 128) : Machine.Arrival :=
  let h := Machine.parseHeader frame
  ⟨n, Machine.hOff e h.offset, Machine.framePayload frame, h.window, some p.val, [], some (frame.take 28)⟩

/-- A frame still waits in the receive buffer: it is a write that its array's arrival queue has no room for (R156). -/
def stillWaits (s : Machine.State) (p : Fin 2) (frame : List Byte) : Prop :=
  ∃ a n e, fitsScratch s (Machine.parseHeader frame) (Machine.framePayload frame) a n e ∧
    Machine.arrivalRoom (s.atArrays a) (arrivalOfFrame p frame n e) = false

/-- A range of at most two pages of plain coding that a client may write, whose leaves stand where it finds them at once;
`l` is that of the first page (R213 to R216). -/
def rangeWritable (s : Machine.State) (c : StackClient) (va n : Nat) (l : Machine.Leaf) : Prop :=
  n ≤ 65536 ∧ standingLeaf s c 0 va = some l ∧ l.coding = .plain ∧ Machine.permitted l c .write va n = true ∧
  (va % 65536 + n ≤ 65536 ∨ ∃ k, standingLeaf s c 0 (va - va % 65536 + 65536) = some k ∧ k.coding = .plain ∧
    Machine.permitted k c .write (va - va % 65536 + 65536) (va % 65536 + n - 65536) = true)

/-- The completion of a write that another device has sent, as the frame that a port with credit and nothing waiting
sends (R353): the header in `reply` is the request's. -/
def sendsReply (reply : Option (List Byte)) (s t : Machine.State) : Prop :=
  ∀ b (q : Fin 2) bs, reply = some b → bs = completionOf s (Machine.parseHeader b) 0 [] →
    s.route (Machine.parseHeader b).src = q.val + 1 → portFree s q 2 bs →
    sends (.frame q (Machine.sealFrame bs (s.atPorts q.val).sendSeq)) s t

/-- A field of the state is the same in two states. -/
def sameField (x : Machine.StateField) (s t : Machine.State) : Prop :=
  match x with
  | .regs => t.regs = s.regs
  | .shadows => t.shadows = s.shadows
  | .commits => t.commits = s.commits
  | .latches => t.latches = s.latches
  | .units => t.units = s.units
  | .rings => t.rings = s.rings
  | .jobs => t.jobs = s.jobs
  | .jobNext => t.jobNext = s.jobNext
  | .time => t.time = s.time
  | .mem => t.mem = s.mem
  | .codingMap => t.codingMap = s.codingMap
  | .crcDiff => t.crcDiff = s.crcDiff
  | .held => t.held = s.held
  | .heldNext => t.heldNext = s.heldNext
  | .buffered => t.buffered = s.buffered
  | .tlb => t.tlb = s.tlb
  | .inval => t.inval = s.inval
  | .zeroing => t.zeroing = s.zeroing
  | .lcSlots => t.lcSlots = s.lcSlots
  | .lcWait => t.lcWait = s.lcWait
  | .lcFill => t.lcFill = s.lcFill
  | .sp => t.sp = s.sp
  | .arrays => t.arrays = s.arrays
  | .engines => t.engines = s.engines
  | .ctxs => t.ctxs = s.ctxs
  | .entries => t.entries = s.entries
  | .entryNext => t.entryNext = s.entryNext
  | .lanes => t.lanes = s.lanes
  | .classCounts => t.classCounts = s.classCounts
  | .ports => t.ports = s.ports
  | .remotes => t.remotes = s.remotes
  | .windows => t.windows = s.windows
  | .streams => t.streams = s.streams
  | .pipes => t.pipes = s.pipes
  | .layers => t.layers = s.layers
  | .outs => t.outs = s.outs
  | .keep => t.keep = s.keep
  | .trust => t.trust = s.trust
  | .flash => t.flash = s.flash
  | .track => t.track = s.track
  | .tblk => t.tblk = s.tblk
  | .tcache => t.tcache = s.tcache
  | .tcam => t.tcam = s.tcam
  | .trings => t.trings = s.trings
  | .vfs => t.vfs = s.vfs
  | .d3 => t.d3 = s.d3
  | .pcieAfter => t.pcieAfter = s.pcieAfter
  | .owed => t.owed = s.owed
  | .phase => t.phase = s.phase
  | .tripHold => t.tripHold = s.tripHold
  | .ruin => t.ruin = s.ruin
  | .relock => t.relock = s.relock
  | .linkWait => t.linkWait = s.linkWait
  | .lost => t.lost = s.lost
  | .thermtrip => t.thermtrip = s.thermtrip
  | .faultsAt => t.faultsAt = s.faultsAt
  | .flog => t.flog = s.flog
  | .flogN => t.flogN = s.flogN
  | .tb => t.tb = s.tb
  | .free => t.free = s.free
  | .out => t.out = s.out

/-- The registers at every address but those that satisfy `P` are the same in two states. -/
def sameRegs (P : Nat → Nat → Prop) (s t : Machine.State) : Prop :=
  ∀ p off, off < 4096 → ¬ P p off → t.reg p off = s.reg p off

/-- The registers a pre-emption test (R247) may change after a command that the scheduler watches: the count of
pre-emptions and the claims of semaphores. -/
def schedulerReacts (p off : Nat) : Prop :=
  (p = Machine.schedPage ∧ 0x048 ≤ off ∧ off < 0x050) ∨ (0x240 ≤ p ∧ p < 0x290 ∧ 0x300 ≤ off ∧ off < 0x400)

/-- The fields of the state that a command may change: the frame of every command (each field by its own name; which
entries of a field change, the statements of the families say). -/
def touches : Instr → List Machine.StateField
  | .linkChange _ _ =>
    [.regs, .rings, .linkWait, .free, .out]
  | .d3hotEntry _ _ =>
    [.regs, .shadows, .commits, .units, .rings, .jobs, .time, .mem, .codingMap, .crcDiff, .held, .heldNext, .buffered,
    .tlb, .zeroing, .lcSlots, .lcWait, .lcFill, .sp, .arrays, .engines, .ctxs, .entries, .entryNext, .lanes,
    .classCounts, .ports, .windows, .streams, .pipes, .layers, .outs, .keep, .trust, .track, .tcache, .vfs, .d3,
    .phase, .linkWait, .faultsAt, .flog, .flogN, .free, .out]
  | .registerWrite _ _ _ _ =>
    [.regs, .shadows, .commits, .latches, .units, .rings, .jobs, .time, .mem, .codingMap, .crcDiff, .held, .heldNext,
    .buffered, .tlb, .inval, .zeroing, .lcSlots, .lcWait, .lcFill, .sp, .arrays, .engines, .ctxs, .entries,
    .entryNext, .lanes, .ports, .remotes, .windows, .streams, .layers, .outs, .keep, .trust, .track, .tblk, .tcache,
    .tcam, .trings, .vfs, .d3, .owed, .phase, .tripHold, .ruin, .relock, .linkWait, .faultsAt, .flog, .flogN, .tb,
    .free, .out]
  | .bar2Read _ _ =>
    [.regs, .rings, .mem, .codingMap, .crcDiff, .buffered, .free, .out]
  | .bar2Write _ _ =>
    [.regs, .rings, .mem, .codingMap, .crcDiff, .held, .heldNext, .buffered, .lcSlots, .lcWait, .lcFill, .trust,
    .free, .out]
  | .streamRingDoorbell _ _ _ =>
    [.regs, .rings, .streams, .free, .out]
  | .jobRingProducerDoorbell _ _ _
  | .eventRingConsumerDoorbell _ _ _
  | .semaphoreSignalDoorbell _ _ _
  | .jobRingEnable _ _ _
  | .jobRingDisable _ _ _
  | .jrSeqWrite _ _ _
  | .jobRingRestart _ _
  | .jobRingSkip _ _
  | .jobKindRefused _ _ _
  | .errClear _ _
  | .taStatRead _ _
  | .dpTrain _ _
  | .dpTrainDone _ _
  | .auxNativeWrite _ _ _
  | .auxNativeRead _ _ _
  | .auxI2cWrite _ _ _
  | .auxI2cRead _ _ _
  | .auxI2cWriteMot _ _ _
  | .auxI2cReadMot _ _ _
  | .auxReply _ _
  | .portTrain _ _
  | .chIdWrite _ _
  | .rngHealthFailure _
  | .trRngDataRead _ =>
    [.regs, .rings, .free, .out]
  | .eventRingInterruptTimer _ _ _ =>
    [.regs, .rings, .time, .out]
  | .eventRingEnable _ _ _
  | .eventRingDisable _ _ _ =>
    [.regs, .rings, .owed, .free, .out]
  | .jobWaitEnd _ =>
    [.regs, .shadows, .commits, .units, .rings, .jobs, .mem, .codingMap, .crcDiff, .held, .heldNext, .buffered, .tlb,
    .lcSlots, .lcWait, .lcFill, .sp, .arrays, .engines, .ctxs, .entries, .entryNext, .lanes, .ports, .windows,
    .streams, .pipes, .layers, .outs, .keep, .trust, .track, .tblk, .tcache, .tcam, .trings, .flog, .flogN, .free,
    .out]
  | .jobNotBefore _ _ =>
    [.regs, .shadows, .commits, .units, .rings, .jobs, .time, .mem, .codingMap, .crcDiff, .held, .heldNext, .buffered,
    .tlb, .lcSlots, .lcWait, .lcFill, .sp, .arrays, .engines, .ctxs, .entries, .entryNext, .lanes, .ports, .windows,
    .streams, .pipes, .layers, .outs, .keep, .trust, .track, .tblk, .tcache, .tcam, .trings, .flog, .flogN, .free,
    .out]
  | .hostCompletionTimeout _
  | .hostCompletionError _ =>
    [.regs, .shadows, .commits, .units, .rings, .jobs, .jobNext, .mem, .codingMap, .crcDiff, .held, .heldNext,
    .buffered, .tlb, .lcSlots, .lcWait, .lcFill, .sp, .arrays, .engines, .ctxs, .entries, .entryNext, .lanes, .ports,
    .remotes, .windows, .streams, .pipes, .layers, .keep, .trust, .owed, .phase, .tripHold, .ruin, .relock, .faultsAt,
    .flog, .flogN, .free, .out]
  | .fence _ _ _ =>
    [.regs, .rings, .jobs, .jobNext, .free, .out]
  | .vfFlr _
  | .contextScrubDone _ =>
    [.regs, .shadows, .commits, .units, .rings, .jobs, .mem, .codingMap, .crcDiff, .held, .heldNext, .buffered, .tlb,
    .lcSlots, .lcWait, .lcFill, .sp, .arrays, .engines, .ctxs, .entries, .entryNext, .lanes, .classCounts, .ports,
    .windows, .streams, .pipes, .layers, .outs, .trust, .track, .tcache, .flog, .flogN, .free, .out]
  | .pfFlr _ =>
    [.regs, .rings, .time, .zeroing, .keep, .trust, .vfs, .d3, .phase, .linkWait, .faultsAt, .free, .out]
  | .pgCommitGo _ _ _ =>
    [.regs, .commits, .rings, .mem, .codingMap, .crcDiff, .held, .heldNext, .buffered, .tlb, .lcSlots, .lcWait,
    .lcFill, .layers, .outs, .trust, .free, .out]
  | .commitPoint _ =>
    [.regs, .commits, .rings, .arrays, .ctxs, .entries, .free, .out]
  | .pgCommitAbandon _ _ =>
    [.regs, .commits, .rings, .outs, .free, .out]
  | .bind _ _ _
  | .unbind _ _ _
  | .move _ _ _
  | .releaseHold _ _ _
  | .shareReadOnly _ _ _
  | .withdrawShare _ _ _ =>
    [.regs, .shadows, .commits, .units, .rings, .jobs, .jobNext, .mem, .codingMap, .crcDiff, .held, .heldNext,
    .buffered, .tlb, .lcSlots, .lcWait, .lcFill, .sp, .arrays, .engines, .ctxs, .entries, .entryNext, .lanes, .ports,
    .windows, .streams, .pipes, .layers, .outs, .trust, .track, .tcache, .flog, .flogN, .free, .out]
  | .rebindStopDone _ =>
    [.regs, .units, .rings, .jobs, .arrays, .engines, .ctxs, .entries, .lanes, .classCounts, .free, .out]
  | .rebindScrubDone _ =>
    [.regs, .shadows, .commits, .units, .rings, .jobs, .mem, .codingMap, .crcDiff, .held, .heldNext, .buffered, .tlb,
    .lcSlots, .lcWait, .lcFill, .sp, .arrays, .engines, .ctxs, .entries, .entryNext, .lanes, .ports, .windows,
    .streams, .pipes, .layers, .outs, .trust, .track, .tblk, .tcache, .tcam, .trings, .flog, .flogN, .free, .out]
  | .orphanedTagReturn _ _
  | .unitTake _
  | .engineResume _ _ =>
    [.regs, .shadows, .commits, .units, .rings, .lcSlots, .lcFill, .sp, .arrays, .engines, .ctxs, .entries,
    .entryNext, .lanes, .ports, .remotes, .windows, .layers, .owed, .phase, .tripHold, .ruin, .relock, .faultsAt,
    .flog, .flogN, .free, .out]
  | .qpMaxabsRead _ _ _
  | .qpHwMaxabsRead _ _ _
  | .arrayStopRequest _ _
  | .singleStepNext _ _
  | .spPmwRead _ _ _ _
  | .spDumpStart _ _ _
  | .semaphoreSet _ _ _
  | .semaphoreAdd _ _ _ =>
    [.regs, .rings, .arrays, .ctxs, .entries, .free, .out]
  | .tileStepFetch _ =>
    [.regs, .rings, .mem, .codingMap, .crcDiff, .buffered, .tlb, .lcSlots, .arrays, .ctxs, .entries, .free, .out]
  | .stepIssue _ _
  | .requestRetire _ _ _
  | .portDown _ _
  | .completion _ _
  | .nak _ _
  | .replayTimeout _
  | .remoteTimeout _
  | .busyRetry _
  | .neighbourLinkDown _ =>
    [.regs, .shadows, .commits, .units, .rings, .mem, .codingMap, .crcDiff, .held, .heldNext, .buffered, .tlb,
    .lcSlots, .lcWait, .lcFill, .sp, .arrays, .engines, .ctxs, .entries, .entryNext, .lanes, .ports, .remotes,
    .windows, .layers, .trust, .owed, .phase, .tripHold, .ruin, .relock, .faultsAt, .flog, .flogN, .free, .out]
  | .phaseWaitMet _
  | .stepComplete _ =>
    [.regs, .units, .rings, .mem, .codingMap, .crcDiff, .held, .heldNext, .buffered, .tlb, .lcSlots, .lcWait, .lcFill,
    .sp, .arrays, .engines, .ctxs, .entries, .entryNext, .lanes, .ports, .windows, .layers, .trust, .flog, .flogN,
    .free, .out]
  | .stepOverrun _
  | .arraySelfCheckFailure _ _
  | .arrayFell _ _ =>
    [.regs, .shadows, .commits, .units, .rings, .lcSlots, .lcFill, .sp, .arrays, .engines, .ctxs, .entries,
    .entryNext, .lanes, .ports, .windows, .layers, .owed, .phase, .tripHold, .ruin, .relock, .faultsAt, .flog, .flogN,
    .free, .out]
  | .kerfPoint _ =>
    [.regs, .commits, .units, .rings, .mem, .codingMap, .crcDiff, .held, .heldNext, .buffered, .tlb, .lcSlots,
    .lcWait, .lcFill, .sp, .arrays, .engines, .ctxs, .entries, .entryNext, .lanes, .ports, .windows, .layers, .trust,
    .flog, .flogN, .free, .out]
  | .windowWrite _ _ =>
    [.regs, .rings, .mem, .codingMap, .crcDiff, .buffered, .tlb, .arrays, .ctxs, .entries, .ports, .windows, .free,
    .out]
  | .arrivalCommit _ =>
    [.regs, .rings, .mem, .codingMap, .crcDiff, .buffered, .tlb, .sp, .arrays, .ctxs, .entries, .ports, .windows,
    .free, .out]
  | .windowWriteCommit _ =>
    [.regs, .rings, .mem, .codingMap, .crcDiff, .held, .heldNext, .buffered, .tlb, .lcSlots, .lcWait, .lcFill,
    .arrays, .ctxs, .entries, .ports, .windows, .trust, .free, .out]
  | .bankRetention _ _ _ =>
    [.regs, .arrays, .ctxs, .entries, .free]
  | .bankWakeDone _ _ _ =>
    [.regs, .rings, .jobs, .arrays, .engines, .ctxs, .entries, .lanes, .classCounts, .free, .out]
  | .bootScrubDone =>
    [.regs, .lcSlots, .sp, .out]
  | .spDumpDone _ _ =>
    [.regs, .rings, .mem, .codingMap, .crcDiff, .held, .heldNext, .buffered, .lcSlots, .lcWait, .lcFill, .arrays,
    .ctxs, .entries, .trust, .free, .out]
  | .modelBundleLoad _ _ _
  | .ordinarySet _ _ _ _
  | .signedChange _ _ _ _
  | .attest _ _ _ =>
    [.regs, .rings, .jobs, .jobNext, .mem, .codingMap, .crcDiff, .held, .heldNext, .buffered, .tlb, .lcSlots, .lcWait,
    .lcFill, .keep, .trust, .free, .out]
  | .bundleCheckDone
  | .keepCommitDone _ =>
    [.regs, .rings, .jobs, .mem, .codingMap, .crcDiff, .held, .heldNext, .buffered, .tlb, .lcSlots, .lcWait, .lcFill,
    .keep, .trust, .free, .out]
  | .lcInstall =>
    [.regs, .rings, .jobs, .lcSlots, .lcWait, .lcFill, .free, .out]
  | .lcEvict _ _ _
  | .lcSetPins _ _ _ =>
    [.regs, .rings, .jobs, .jobNext, .lcSlots, .lcWait, .free, .out]
  | .lcFillDone =>
    [.regs, .rings, .jobs, .mem, .codingMap, .crcDiff, .buffered, .tlb, .lcSlots, .lcWait, .lcFill, .free, .out]
  | .streamListFetch _ =>
    [.regs, .rings, .mem, .codingMap, .crcDiff, .buffered, .tlb, .lcSlots, .arrays, .engines, .ctxs, .entries, .free,
    .out]
  | .descriptorCurrent _
  | .rearm _ _ _ =>
    [.regs, .units, .rings, .sp, .arrays, .engines, .ctxs, .entries, .entryNext, .lanes, .ports, .windows, .layers,
    .flog, .flogN, .free, .out]
  | .engineStart _ _
  | .engineReset _ _ =>
    [.regs, .rings, .arrays, .engines, .ctxs, .entries, .free, .out]
  | .stackRead _ _ _ _ _ _ =>
    [.regs, .rings, .mem, .codingMap, .crcDiff, .buffered, .tlb, .lcSlots, .free, .out]
  | .stackWrite _ _ _ _ =>
    [.regs, .rings, .mem, .codingMap, .crcDiff, .held, .heldNext, .buffered, .tlb, .lcSlots, .lcWait, .lcFill, .trust,
    .free, .out]
  | .partialWriteTimeout _ =>
    [.held]
  | .mergeReadDone _ _ =>
    [.regs, .rings, .mem, .codingMap, .crcDiff, .held, .buffered, .free, .out]
  | .patrolRead _ =>
    [.regs, .rings, .mem, .codingMap, .crcDiff, .free, .out]
  | .stackZeroingDone =>
    [.mem, .codingMap, .crcDiff, .zeroing]
  | .translationWalkDone _ _ _ _ _ =>
    [.regs, .rings, .mem, .codingMap, .crcDiff, .buffered, .tlb, .free, .out]
  | .invalidationStart _ _ =>
    [.regs, .rings, .inval, .free, .out]
  | .invalidationDone =>
    [.regs, .rings, .tlb, .inval, .free, .out]
  | .contextConfigure _ _ _ _
  | .contextStart _ _ _
  | .contextStop _ _ _
  | .contextFlush _ _ _
  | .contextQuery _ _ _
  | .contextReset _ _ _ =>
    [.regs, .rings, .jobs, .jobNext, .mem, .codingMap, .crcDiff, .held, .heldNext, .buffered, .tlb, .lcSlots, .lcWait,
    .lcFill, .streams, .trust, .free, .out]
  | .accessUnitFetch _ _ _ =>
    [.regs, .rings, .jobs, .streams, .pipes, .free, .out]
  | .pipeSelect _ _ =>
    [.regs, .rings, .jobs, .time, .mem, .codingMap, .crcDiff, .buffered, .tlb, .lcSlots, .streams, .pipes, .flog,
    .flogN, .free, .out]
  | .pictureWritten _ _ =>
    [.regs, .rings, .jobs, .mem, .codingMap, .crcDiff, .held, .heldNext, .buffered, .tlb, .lcSlots, .lcWait, .lcFill,
    .streams, .trust, .flog, .flogN, .free, .out]
  | .batchJob _ _ _ =>
    [.regs, .rings, .jobs, .jobNext, .mem, .codingMap, .crcDiff, .buffered, .tlb, .lcSlots, .arrays, .ctxs, .entries,
    .entryNext, .lanes, .free, .out]
  | .dispatch _ =>
    [.regs, .units, .rings, .jobs, .mem, .codingMap, .crcDiff, .buffered, .tlb, .lcSlots, .sp, .arrays, .engines,
    .ctxs, .entries, .entryNext, .lanes, .classCounts, .ports, .windows, .layers, .free, .out]
  | .contextSaveDone _ _ =>
    [.regs, .rings, .jobs, .mem, .codingMap, .crcDiff, .held, .heldNext, .buffered, .tlb, .lcSlots, .lcWait, .lcFill,
    .sp, .arrays, .engines, .ctxs, .entries, .lanes, .classCounts, .trust, .flog, .flogN, .free, .out]
  | .contextRestoreDone _ =>
    [.regs, .shadows, .commits, .units, .rings, .jobs, .mem, .codingMap, .crcDiff, .buffered, .tlb, .lcSlots, .lcFill,
    .sp, .arrays, .engines, .ctxs, .entries, .entryNext, .lanes, .classCounts, .ports, .remotes, .windows, .layers,
    .owed, .phase, .tripHold, .ruin, .relock, .faultsAt, .flog, .flogN, .free, .out]
  | .teardownOrphanTimeout _ =>
    [.regs, .units, .rings, .arrays, .engines, .ctxs, .entries, .lanes, .layers, .free, .out]
  | .rangerPeriod _ =>
    [.regs, .rings, .time, .arrays, .ctxs, .entries, .lanes, .free, .out]
  | .rangerDeadline _ _ =>
    [.regs, .units, .rings, .jobs, .time, .sp, .arrays, .engines, .ctxs, .entries, .entryNext, .lanes, .classCounts,
    .ports, .windows, .layers, .free, .out]
  | .slowdownReport _ =>
    [.regs, .rings, .time, .arrays, .ctxs, .entries, .classCounts, .free, .out]
  | .rngLaneWrite _ _ _ =>
    [.regs, .rings, .arrays, .ctxs, .entries, .lanes, .free, .out]
  | .ptmDialogue _ _
  | .tbSet _
  | .mainsPositiveCrossing _
  | .mainsMissingCrossing _
  | .pfwFall _
  | .pfwRise _ =>
    [.regs, .rings, .time, .tb, .free, .out]
  | .mainsNegativeCrossing _ =>
    [.regs, .time, .tb, .out]
  | .pfwRearm _ =>
    [.regs, .rings, .time, .keep, .tb, .free, .out]
  | .taArm _ _ _
  | .taDisarm _ _ _ =>
    [.regs, .commits, .rings, .mem, .codingMap, .crcDiff, .held, .heldNext, .buffered, .tlb, .lcSlots, .lcWait,
    .lcFill, .layers, .outs, .trust, .tb, .free, .out]
  | .taFireCommit _ _
  | .taFireSignal _ _
  | .taFireEvent _ _
  | .taFireSnapshot _ _ =>
    [.regs, .commits, .rings, .time, .mem, .codingMap, .crcDiff, .held, .heldNext, .buffered, .tlb, .lcSlots, .lcWait,
    .lcFill, .layers, .outs, .trust, .tb, .free, .out]
  | .outputLine _ _ _ _ =>
    [.regs, .units, .rings, .time, .mem, .codingMap, .crcDiff, .held, .heldNext, .buffered, .tlb, .lcSlots, .lcWait,
    .lcFill, .sp, .arrays, .engines, .ctxs, .entries, .entryNext, .lanes, .ports, .windows, .layers, .outs, .trust,
    .flog, .flogN, .free, .out]
  | .stripRequest _ _ _
  | .frameStart _ _
  | .displayPllLocked _ _ =>
    [.regs, .units, .rings, .time, .mem, .codingMap, .crcDiff, .held, .heldNext, .buffered, .tlb, .lcSlots, .lcWait,
    .lcFill, .sp, .arrays, .engines, .ctxs, .entries, .entryNext, .lanes, .ports, .windows, .layers, .outs, .trust,
    .free, .out]
  | .deadlineLine _ _ _ =>
    [.regs, .units, .rings, .time, .sp, .arrays, .engines, .ctxs, .entries, .entryNext, .lanes, .ports, .windows,
    .layers, .free, .out]
  | .takeLine _ _ _ =>
    [.regs, .units, .rings, .time, .mem, .codingMap, .crcDiff, .buffered, .tlb, .lcSlots, .sp, .arrays, .engines,
    .ctxs, .entries, .entryNext, .lanes, .ports, .windows, .layers, .outs, .free, .out]
  | .displayGroupCommit _ _ _ =>
    [.regs, .rings, .mem, .codingMap, .crcDiff, .held, .heldNext, .buffered, .tlb, .lcSlots, .lcWait, .lcFill,
    .layers, .outs, .trust, .free, .out]
  | .commitLatch _ _ =>
    [.regs, .rings, .time, .mem, .codingMap, .crcDiff, .held, .heldNext, .buffered, .tlb, .lcSlots, .lcWait, .lcFill,
    .layers, .outs, .trust, .free, .out]
  | .hpdLowTimeout _
  | .irqHpd _ _ =>
    [.regs, .rings, .flog, .flogN, .free, .out]
  | .psyncEdge _ _ =>
    [.regs, .rings, .time, .outs, .free, .out]
  | .psyncLost _ =>
    [.regs, .rings, .outs, .free, .out]
  | .trackSet _ _ _
  | .trackAssociate _ _ _
  | .graphLoad _ _ _
  | .trackFlush _ _ _ =>
    [.regs, .rings, .jobs, .jobNext, .mem, .codingMap, .crcDiff, .held, .heldNext, .buffered, .tlb, .lcSlots, .lcWait,
    .lcFill, .trust, .track, .tblk, .tcache, .tcam, .trings, .flog, .flogN, .free, .out]
  | .problemStart _ =>
    [.regs, .rings, .jobs, .time, .mem, .codingMap, .crcDiff, .held, .heldNext, .buffered, .tlb, .lcSlots, .lcWait,
    .lcFill, .ports, .remotes, .trust, .track, .tblk, .tcache, .tcam, .trings, .flog, .flogN, .free, .out]
  | .trackBlockFill _ _ _ _ =>
    [.regs, .rings, .mem, .codingMap, .crcDiff, .held, .heldNext, .buffered, .tlb, .lcSlots, .lcWait, .lcFill, .trust,
    .track, .tblk, .tcache, .tcam, .trings, .flog, .flogN, .free, .out]
  | .partitionResume _ _ =>
    [.regs, .rings, .jobs, .mem, .codingMap, .crcDiff, .held, .heldNext, .buffered, .tlb, .lcSlots, .lcWait, .lcFill,
    .trust, .track, .tblk, .tcache, .tcam, .trings, .flog, .flogN, .free, .out]
  | .offer _ _ _ =>
    [.regs, .rings, .mem, .codingMap, .crcDiff, .held, .heldNext, .buffered, .lcSlots, .lcWait, .lcFill, .ports,
    .trust, .track, .free, .out]
  | .takenNotice _ _ _ =>
    [.regs, .rings, .mem, .codingMap, .crcDiff, .held, .heldNext, .buffered, .tlb, .lcSlots, .lcWait, .lcFill, .ports,
    .remotes, .trust, .track, .tblk, .tcache, .tcam, .trings, .flog, .flogN, .free, .out]
  | .withdrawal _ _ _ =>
    [.regs, .rings, .ports, .track, .free, .out]
  | .duplicateNotice _ _ _ =>
    [.regs, .rings, .mem, .codingMap, .crcDiff, .held, .heldNext, .buffered, .tlb, .lcSlots, .lcWait, .lcFill, .ports,
    .trust, .track, .tblk, .tcache, .tcam, .trings, .flog, .flogN, .free, .out]
  | .offerExpiry _ =>
    [.regs, .time, .track]
  | .tpRingConsWrite _ _ _ =>
    [.regs, .rings, .trings, .free, .out]
  | .portTrainingDone _ _ =>
    [.regs, .rings, .ports, .flog, .flogN, .free, .out]
  | .hello _ _ _ _
  | .frameForward _ _
  | .ack _ _
  | .credit _ _ =>
    [.regs, .rings, .ports, .free, .out]
  | .windowReadRequest _ _ =>
    [.regs, .rings, .mem, .codingMap, .crcDiff, .buffered, .tlb, .lcSlots, .ports, .windows, .free, .out]
  | .ackTimer _ =>
    [.ports, .out]
  | .powerOnReset _
  | .thermalSensorRead _ _ =>
    [.regs, .shadows, .commits, .latches, .units, .rings, .jobs, .time, .mem, .codingMap, .crcDiff, .held, .buffered,
    .tlb, .inval, .zeroing, .lcSlots, .lcWait, .lcFill, .sp, .arrays, .engines, .ctxs, .entries, .lanes, .classCounts,
    .ports, .remotes, .windows, .streams, .pipes, .layers, .outs, .keep, .trust, .flash, .track, .tblk, .tcache,
    .tcam, .trings, .vfs, .d3, .pcieAfter, .owed, .phase, .tripHold, .ruin, .relock, .linkWait, .lost, .thermtrip,
    .faultsAt, .flog, .flogN, .tb, .free, .out]
  | .bootComplete =>
    [.regs, .rings, .owed, .phase, .free, .out]
  | .flashRead _
  | .flashProgram _
  | .flashErase _ =>
    [.regs, .rings, .trust, .free, .out]
  | .flashDone =>
    [.regs, .trust, .flash, .out]
  | .warmReset _ =>
    [.regs, .shadows, .commits, .latches, .units, .rings, .jobs, .time, .mem, .codingMap, .crcDiff, .held, .heldNext,
    .buffered, .tlb, .inval, .zeroing, .lcSlots, .lcWait, .lcFill, .sp, .arrays, .engines, .ctxs, .entries, .lanes,
    .classCounts, .ports, .remotes, .windows, .streams, .pipes, .layers, .outs, .keep, .trust, .flash, .track, .tblk,
    .tcache, .tcam, .trings, .vfs, .d3, .pcieAfter, .owed, .phase, .tripHold, .ruin, .relock, .linkWait, .lost,
    .faultsAt, .flog, .flogN, .tb, .free, .out]
  | .deviceFault _ =>
    [.regs, .rings, .time, .zeroing, .keep, .trust, .owed, .phase, .tripHold, .ruin, .relock, .faultsAt, .flog,
    .flogN, .free, .out]
  | .pcieReset _ =>
    [.regs, .rings, .time, .zeroing, .keep, .trust, .vfs, .d3, .pcieAfter, .phase, .linkWait, .faultsAt, .free, .out]
  | .referenceClockLoss _ =>
    [.regs, .shadows, .commits, .units, .rings, .time, .mem, .codingMap, .crcDiff, .held, .heldNext, .buffered, .tlb,
    .zeroing, .lcSlots, .lcWait, .lcFill, .sp, .arrays, .engines, .ctxs, .entries, .entryNext, .lanes, .ports,
    .remotes, .windows, .layers, .keep, .trust, .vfs, .d3, .owed, .phase, .tripHold, .ruin, .relock, .linkWait,
    .faultsAt, .flog, .flogN, .free, .out]
  | .d3hotExit _ =>
    [.d3]
  | .porNFall =>
    [.regs, .shadows, .commits, .latches, .units, .rings, .jobs, .time, .mem, .codingMap, .crcDiff, .held, .buffered,
    .tlb, .inval, .zeroing, .lcSlots, .lcWait, .lcFill, .sp, .arrays, .engines, .ctxs, .entries, .lanes, .classCounts,
    .ports, .remotes, .windows, .streams, .pipes, .layers, .outs, .trust, .flash, .track, .tblk, .tcache, .tcam,
    .trings, .vfs, .d3, .pcieAfter, .owed, .phase, .tripHold, .ruin, .relock, .linkWait, .lost, .thermtrip, .faultsAt,
    .flog, .flogN, .tb, .free]
  | .trackRingInterruptTimer _ _ =>
    [.regs, .time, .trings, .out]
  | .sriovVfEnable _ =>
    [.regs, .shadows, .commits, .units, .rings, .jobs, .mem, .codingMap, .crcDiff, .held, .heldNext, .buffered, .tlb,
    .lcSlots, .lcWait, .lcFill, .sp, .arrays, .engines, .ctxs, .entries, .entryNext, .lanes, .classCounts, .ports,
    .windows, .streams, .pipes, .layers, .outs, .trust, .track, .tcache, .vfs, .flog, .flogN, .free, .out]

end Sys2Proof
end

