-- ==== Sys2Proof/Certificates/Slice0/Obligations.lean ====
section
/-! DEFINITION. The statements for the provers, family by family. -/

section

open Sys2Proof Sys2Proof.Machine

/-! ## The block as a whole -/

/-- The block takes the command at the front of its queue and answers what exec answers on the state without it. With no
command waiting it idles, which is the model's choice (log entry 1): the spec has no row for a tick. -/
def Obligations.AStepRunsTheFrontCommand : Prop :=
  (∀ (s : State) (c : Instr) (l : List Instr), s.pending = c :: l → step s = exec c { s with pending := l }) ∧
  (∀ s : State, s.pending = [] → step s = .next s)

/-- At reset the state has the form every step keeps, nothing waits, no memory byte and no register departs from its
reset value, and the size table shows the device as shipped (R45). That the device stands in service after boot,
with an unbound unit everywhere, is the model's choice of moment (log entry 6). -/
def Obligations.ResetShowsTheDeviceAsShipped : Prop :=
  stateWf State.reset = true ∧ State.reset.pending = [] ∧ State.reset.phase = .service ∧ State.reset.time = 0 ∧
  (∀ p off, State.reset.reg p off = regReset (regAddr p off)) ∧ (∀ a, State.reset.atMem a = 0) ∧
  (∀ u, (State.reset.unitAt u).state = .unbound) ∧
  ∀ e ∈ ([(0x100, 0x001F0001), (0x108, 32), (0x118, 64), (0x120, 2048), (0x128, 2048), (0x130, 512), (0x138, 32768),
      (0x140, 64), (0x148, 64), (0x150, 16), (0x158, 4096), (0x160, 16), (0x168, 1024), (0x170, 4), (0x178, 64), (0x180, 16),
      (0x188, 16), (0x190, 256), (0x198, 64), (0x1A0, 262144), (0x1A8, 1), (0x1B0, 0), (0x1B8, 0), (0x1C0, 0),
      (0x1C8, 24576), (0x1D0, 2048), (0x1D8, 8), (0x1E0, 8), (0x1E8, 960), (0x1F0, 16), (0x1F8, 32)] : List (Nat × Nat)),
    State.reset.view 0 0 e.1 = BitVec.ofNat 32 e.2

/-- Every step keeps every table of the state canonical, the memory among them, and every reserved bit of every register
and shadow 0 (R5). -/
def Obligations.EveryStepKeepsTheStateWellFormed : Prop :=
  ∀ s t : State, stateWf s = true → step s = .next t → stateWf t = true

/-- Every command leaves the queue, and every field of the state that its row does not name in `touches`, as it was;
what has been sent stays sent; and the count of free values taken never goes back. -/
def Obligations.CommandsChangeOnlyTheirFields : Prop :=
  ∀ (c : Instr) (s t : State), exec c s = .next t →
    t.pending = s.pending ∧ (∀ x, x ∉ touches c → sameField x s t) ∧ sentBefore s t ∧ s.free ≤ t.free

/-- Every well-formed command completes in every state; and one whose operands are none that the command can carry,
which never reaches the device, changes nothing (the model's choice, log entry 57). -/
def Obligations.WellFormedCommandsComplete : Prop :=
  ∀ (c : Instr) (s : State),
    (c.wf = true → ∃ t, exec c s = .next t) ∧ (c.wf = false → exec c s = .next s)

/-! ## The host port: doorbells and rings (chapter 2) -/

/-- R28, R29, R40, R41, R228: each doorbell in its window takes effect, on its own index or semaphore and on nothing
else of its kind; a producer or consumer index outside its window, or for a ring that is not enabled, is dropped,
and the index stays. -/
def Obligations.DoorbellsTakeEffectInTheirWindows : Prop :=
  (∀ (s : State) (f : Func) (n : Fin 8) (v : Word), s.phase = .service → s.present f = true → s.resetting f = false →
    s.jrOn f n.val = true →
    sub32 v.toNat (s.reg (globalPage f) (jrOff n.val + 0x14)).toNat ≤ 2 ^ s.rfld (globalPage f) (jrOff n.val + 8) 0 5 →
    answers (.jobRingProducerDoorbell f n v) s fun t =>
      t.reg (globalPage f) (jrOff n.val + 0x10) = v ∧
      sameRegs (fun p off => p = globalPage f ∧ off = jrOff n.val + 0x10) s t) ∧
  (∀ (s : State) (f : Func) (n : Fin 8) (v : Word), s.phase = .service → s.present f = true → s.resetting f = false →
    evrOn s f n.val = true →
    sub32 v.toNat (s.reg (globalPage f) (evrOff n.val + 20)).toNat ≤
      sub32 (s.reg (globalPage f) (evrOff n.val + 16)).toNat (s.reg (globalPage f) (evrOff n.val + 20)).toNat →
    answers (.eventRingConsumerDoorbell f n v) s fun t => t.reg (globalPage f) (evrOff n.val + 20) = v ∧
      ∀ m : Fin 8, m ≠ n → t.reg (globalPage f) (evrOff m.val + 20) = s.reg (globalPage f) (evrOff m.val + 20)) ∧
  (∀ (s : State) (f : Func) (n : Fin 4096) (v : Word), s.phase = .service → s.present f = true → s.resetting f = false →
    s.semBound n.val f = true →
    answers (.semaphoreSignalDoorbell f n v) s fun t => t.sem n.val = s.sem n.val + v ∧
      ∀ m : Fin 4096, m ≠ n → t.sem m.val = s.sem m.val) ∧
  (∀ (s : State) (f : Func) (c : Fin 1024) (v : Word), s.phase = .service → s.present f = true → s.resetting f = false →
    s.boundTo (streamUnit c.val) f = true → sub32 v.toNat (s.atStreams c.val).cons ≤ srEntries (s.atStreams c.val).record →
    answers (.streamRingDoorbell f c v) s fun t => (t.atStreams c.val).prod = v.toNat ∧
      ∀ d : Nat, d ≠ c.val → t.atStreams d = s.atStreams d) ∧
  (∀ (s : State) (f : Func) (n : Fin 8) (v : Word), s.phase = .service → s.present f = true → s.resetting f = false →
    (s.jrOn f n.val = false ∨
      2 ^ s.rfld (globalPage f) (jrOff n.val + 8) 0 5 < sub32 v.toNat (s.reg (globalPage f) (jrOff n.val + 0x14)).toNat) →
    answers (.jobRingProducerDoorbell f n v) s fun t =>
      ∀ off, 0x500 ≤ off → off < 0x600 → t.reg (globalPage f) off = s.reg (globalPage f) off) ∧
  (∀ (s : State) (f : Func) (n : Fin 8) (v : Word), s.phase = .service → s.present f = true → s.resetting f = false →
    (evrOn s f n.val = false ∨
      sub32 (s.reg (globalPage f) (evrOff n.val + 16)).toNat (s.reg (globalPage f) (evrOff n.val + 20)).toNat <
        sub32 v.toNat (s.reg (globalPage f) (evrOff n.val + 20)).toNat) →
    answers (.eventRingConsumerDoorbell f n v) s fun t =>
      t.reg (globalPage f) (evrOff n.val + 20) = s.reg (globalPage f) (evrOff n.val + 20)) ∧
  (∀ (s : State) (f : Func) (c : Fin 1024) (v : Word), s.phase = .service → s.present f = true → s.resetting f = false →
    s.boundTo (streamUnit c.val) f = true → srEntries (s.atStreams c.val).record < sub32 v.toNat (s.atStreams c.val).cons →
    answers (.streamRingDoorbell f c v) s fun t => sameField .streams s t)

/-- R39, R31: enabling an event ring whose base and size pass starts it at index 0, disabling one stops it, and its time
limit fires its interrupt: nothing is left unsignalled, and the message of the ring's vector is sent, or, where the
vector is masked, its pending bit is set and nothing is sent (the MSI-X rule, log entry 7). -/
def Obligations.EventRingsStartAndStop : Prop :=
  (∀ (s : State) (f : Func) (n : Fin 8) (cfg : Word), mayWrite s f (globalPage f) → evrOn s f n.val = false →
    fld (s.reg (globalPage f) (evrOff n.val)) 0 12 = 0 → 6 ≤ fld cfg 0 5 → fld cfg 0 5 ≤ 16 →
    answers (.eventRingEnable f n cfg) s fun t => evrOn t f n.val = true ∧
      t.rfld (globalPage f) (evrOff n.val + 8) 0 5 = fld cfg 0 5 ∧
      t.reg (globalPage f) (evrOff n.val + 20) = 0 ∧
      (f ≠ 0 ∨ n ≠ 0 ∨ s.owed = [] → t.reg (globalPage f) (evrOff n.val + 16) = 0 ∧
        t.reg (globalPage f) (evrOff n.val + 24) = 0 ∧ t.atRings (ringKey f n.val) = {})) ∧
  (∀ (s : State) (f : Func) (n : Fin 8) (cfg : Word), mayWrite s f (globalPage f) → evrOn s f n.val = true →
    answers (.eventRingDisable f n cfg) s fun t => evrOn t f n.val = false) ∧
  (∀ (s : State) (f : Func) (n : Fin 8) (now : Dword), s.phase = .service → s.time.toNat ≤ now.toNat →
    evrOn s f n.val = true → s.rfld (globalPage f) (evrOff n.val + 12) 16 16 ≠ 0 →
    0 < (s.atRings (ringKey f n.val)).unsignalled →
    (s.atRings (ringKey f n.val)).firstAt.toNat + 1000 * s.rfld (globalPage f) (evrOff n.val + 12) 16 16 ≤ now.toNat →
    s.reg (globalPage f) (evrOff n.val + 16) ≠ s.reg (globalPage f) (evrOff n.val + 20) →
    answers (.eventRingInterruptTimer f n now) s fun t => t.time = now ∧
      (t.atRings (ringKey f n.val)).unsignalled = 0 ∧
      ∀ v e b, v = s.rfld (globalPage f) (evrOff n.val + 8) 16 11 → v < msixCount f → e = msixEntry f v → b = msixPba f v →
        (s.rbit e.1 (e.2 + 12) 0 = false →
          t.out = .msix f (BitVec.ofNat 64 (s.reg64 e.1 e.2)) (s.reg e.1 (e.2 + 8)) :: s.out) ∧
        (s.rbit e.1 (e.2 + 12) 0 = true → t.rbit b.1 b.2 (v % 32) = true ∧ sameField .out s t))

/-- R41: a job ring starts at index 0 when it is enabled with a base and a size that pass, stops when it is disabled,
takes an expected seq only while it is disabled or halted, and restart and skip take it out of a halt. That an enable
takes a halted ring out of its halt too is the model's choice (log entry 62). -/
def Obligations.JobRingsStartStopAndRecover : Prop :=
  (∀ (s : State) (f : Func) (n : Fin 8) (cfg : Word), mayWrite s f (globalPage f) → s.jrOn f n.val = false →
    fld (s.reg (globalPage f) (jrOff n.val)) 0 12 = 0 → 6 ≤ fld cfg 0 5 → fld cfg 0 5 ≤ 12 →
    answers (.jobRingEnable f n cfg) s fun t => t.jrOn f n.val = true ∧
      t.reg (globalPage f) (jrOff n.val + 0x10) = 0 ∧ t.reg (globalPage f) (jrOff n.val + 0x14) = 0 ∧
      t.jrHalted f n.val = false) ∧
  (∀ (s : State) (f : Func) (n : Fin 8) (cfg : Word), mayWrite s f (globalPage f) → s.jrOn f n.val = true →
    answers (.jobRingDisable f n cfg) s fun t => t.jrOn f n.val = false) ∧
  (∀ (s : State) (f : Func) (n : Fin 8) (v : Word), mayWrite s f (globalPage f) →
    (s.jrOn f n.val = false ∨ s.jrHalted f n.val = true) →
    answers (.jrSeqWrite f n v) s fun t => t.rfld (globalPage f) (jrOff n.val + 0x0C) 0 24 = fld v 0 24) ∧
  (∀ (s : State) (f : Func) (n : Fin 8) (v : Word), mayWrite s f (globalPage f) →
    s.jrOn f n.val = true → s.jrHalted f n.val = false →
    answers (.jrSeqWrite f n v) s fun t =>
      t.reg (globalPage f) (jrOff n.val + 0x0C) = s.reg (globalPage f) (jrOff n.val + 0x0C)) ∧
  (∀ (s : State) (f : Func) (n : Fin 8), mayWrite s f (globalPage f) →
    answers (.jobRingRestart f n) s fun t => t.jrHalted f n.val = false ∧
      t.reg (globalPage f) (jrOff n.val + 0x14) = s.reg (globalPage f) (jrOff n.val + 0x14)) ∧
  (∀ (s : State) (f : Func) (n : Fin 8), mayWrite s f (globalPage f) → s.jrHalted f n.val = true →
    answers (.jobRingSkip f n) s fun t => t.jrHalted f n.val = false ∧
      t.reg (globalPage f) (jrOff n.val + 0x14) = s.reg (globalPage f) (jrOff n.val + 0x14) + 1)

/-! ## Jobs (chapter 2) -/

/-- R41, R37, R430: a descriptor that fails an envelope check, and a ring read that times out or completes with an
error, halt the ring: `halted` is 1, the code is the check's or the cause's, and the consumer index stays. -/
def Obligations.RefusedDescriptorsHaltTheRing : Prop :=
  (∀ (s : State) (f : Func) (n : Fin 8) (d : BitVec 1024) (code : Nat), s.phase = .service → s.jrFetches f n.val = true →
    envelopeRefusal s f n.val d = some code →
    answers (.jobKindRefused f n d) s fun t => t.jrHalted f n.val = true ∧
      t.rfld (globalPage f) (jrOff n.val + 0x18) 16 16 = code ∧
      t.reg (globalPage f) (jrOff n.val + 0x14) = s.reg (globalPage f) (jrOff n.val + 0x14)) ∧
  (∀ (s : State) (f : Func) (n : Fin 8), s.phase = .service → s.jrFetches f n.val = true →
    answers (.hostCompletionTimeout (.jobRing f n)) s fun t => t.jrHalted f n.val = true ∧
      t.rfld (globalPage f) (jrOff n.val + 0x18) 16 16 = 0x011A ∧
      t.reg (globalPage f) (jrOff n.val + 0x14) = s.reg (globalPage f) (jrOff n.val + 0x14)) ∧
  (∀ (s : State) (f : Func) (n : Fin 8), s.phase = .service → s.jrFetches f n.val = true →
    answers (.hostCompletionError (.jobRing f n)) s fun t => t.jrHalted f n.val = true ∧
      t.rfld (globalPage f) (jrOff n.val + 0x18) 16 16 = 0x0119 ∧
      t.reg (globalPage f) (jrOff n.val + 0x14) = s.reg (globalPage f) (jrOff n.val + 0x14))

/-- R42, R43: a fence whose checks pass is taken off its ring, and when nothing holds it back it is complete and has
signalled; a fence that waited is complete as soon as its gates are open, whether its semaphore test or its
not_before time opened them. That the signal of one that waited is lost where its semaphore has left its owner meanwhile
is a reading of R58 (log entry 54). -/
def Obligations.FencesCompleteWhenTheirGatesOpen : Prop :=
  (∀ (s : State) (f : Func) (n : Fin 8) (d : BitVec 1024), s.phase = .service → s.jrFetches f n.val = true →
    jobKind d = 5 → envelopeRefusal s f n.val d = none → jobBodyLen d = 0 → jobTarget d = 0 → fld d 512 480 = 0 →
    answers (.fence f n d) s fun t =>
      t.reg (globalPage f) (jrOff n.val + 0x14) = s.reg (globalPage f) (jrOff n.val + 0x14) + 1 ∧
      (jobOrdered d = false → bit d 271 = false → jobNotBefore d ≤ s.time.toNat →
        t.atJobs s.jobNext = none ∧
        (bit d 335 = true → t.sem (fld d 320 12) = s.sem (fld d 320 12) + BitVec.ofNat 32 (fld d 352 32)))) ∧
  (∀ (s : State) (n : Nat) (j : Job), s.phase = .service → s.atJobs n = some j → jobKind j.desc = 5 →
    j.started = false → gatesOpen s n j = true →
    answers (.jobWaitEnd n) s fun t => t.atJobs n = none ∧
      (bit j.desc 335 = true → t.sem (fld j.desc 320 12) = if s.semBound (fld j.desc 320 12) j.func
        then s.sem (fld j.desc 320 12) + BitVec.ofNat 32 (fld j.desc 352 32) else s.sem (fld j.desc 320 12))) ∧
  (∀ (s : State) (n : Nat) (j : Job) (now : Dword), s.phase = .service → s.atJobs n = some j → jobKind j.desc = 5 →
    j.started = false → s.time.toNat ≤ now.toNat → gatesOpen { s with time := now } n j = true →
    answers (.jobNotBefore n now) s fun t => t.atJobs n = none ∧ t.time = now)

/-! ## Functions, the link and resets (chapters 2 and 19) -/

/-- R23, R21, R51, R46: the link's speed and width are what it reports, degraded below x8 at 16.0 GT/s (that degraded
goes back to 0 at full speed and width is a reading, log entry 13); a function in D3hot is marked so and a function back
in D0 is not; the host's VF count is what SR-IOV enables, and at most 31 (PRESUMED, log entry 44); a
function-level reset of an enabled VF with no work of its own disables its rings and resets its MSI-X table; and that of
any enabled VF, and its entry to D3hot, begin the sequence of each unit bound to it, with the VF as both owners and the
epoch risen by 1, leave none of its contexts saved, end its entries that have not begun and stop its arrays, at once or
at their kerf points. D3hot entry of the PF begins the fence of a warm reset. -/
def Obligations.FunctionsAndTheLinkReportTheirState : Prop :=
  (∀ (s : State) (speed width : Nat), s.phase ≠ .held → (Instr.linkChange speed width).wf = true →
    answers (.linkChange speed width) s fun t => t.rfld 0 0x20C 0 4 = speed ∧ t.rfld 0 0x20C 8 4 = width ∧
      t.rbit 0 0x20C 16 = (decide (speed < 4) || decide (width < 8))) ∧
  (∀ (s : State) (f : Func) (now : Dword), s.phase = .service →
    answers (.d3hotEntry f now) s fun t => t.d3.getLsbD f.val = true) ∧
  (∀ (s : State) (f : Func), answers (.d3hotExit f) s fun t => t.d3.getLsbD f.val = false ∧
      ∀ g : Func, g ≠ f → t.d3.getLsbD g.val = s.d3.getLsbD g.val) ∧
  (∀ (s : State) (count : Nat), s.phase = .service →
    answers (.sriovVfEnable count) s fun t => t.vfs = min 31 count) ∧
  (∀ (s : State) (f : Func), s.phase = .service → f ≠ 0 → f.val ≤ s.vfs →
    (∀ e ∈ s.units, e.2.owner ≠ f ∧ e.2.seq = none) →
    (∀ e ∈ s.ctxs, e.2.func ≠ f) → (∀ e ∈ s.entries, ∀ x, e.2 = some x → x.func ≠ f) →
    answers (.vfFlr f) s fun t =>
      (∀ n : Fin 8, evrOn t f n.val = false ∧ t.jrOn f n.val = false) ∧
      (∀ off, off < 4096 → t.reg (vfMsixPage f) off = regReset (regAddr (vfMsixPage f) off)) ∧
      (∀ q ∈ t.lcWait, q.func ≠ f)) ∧
  (∀ (s : State) (f : Func) (c : Instr), s.phase = .service → stateWf s = true → f ≠ 0 → f.val ≤ s.vfs →
    (c = .vfFlr f ∨ ∃ now, c = .d3hotEntry f now) →
    (∀ e ∈ s.ctxs, e.2.faulted = true → (s.unitAt (arrUnit e.2.array)).owner ≠ f) →
    answers c s fun t =>
      (∀ u : UnitId, u.wf = true → (s.unitAt u).state = .bound → (s.unitAt u).owner = f → (s.unitAt u).seq = none →
        (t.unitAt u).state = .rebinding ∧ (t.unitAt u).epoch = (s.unitAt u).epoch + 1 ∧
        ∃ r, (t.unitAt u).seq = some r ∧ r.op = .flr ∧ r.step = .stop ∧ r.oldOwner = f ∧ r.newOwner = f ∧ r.bound = true) ∧
      (∀ n, (s.atCtxs n).func = f → (s.atCtxs n).state = .saved → (t.atCtxs n).state ≠ .saved)) ∧
  (∀ (s : State) (f : Func) (c : Instr) (n : Nat) (x : EntryRec), s.phase = .service → stateWf s = true → f ≠ 0 →
    f.val ≤ s.vfs → (c = .vfFlr f ∨ ∃ now, c = .d3hotEntry f now) → s.atEntries n = some x → x.func = f →
    (x.state = .waiting ∨ x.state = .queued) → n < s.entryNext → (∀ e ∈ s.ctxs, e.2.entry ≠ n) →
    answers c s fun t => ∀ y, t.atEntries n = some y → y.state = .done) ∧
  (∀ (s : State) (f : Func) (c : Instr) (a : Fin 32) (n : Nat), s.phase = .service → stateWf s = true → f ≠ 0 →
    f.val ≤ s.vfs → (c = .vfFlr f ∨ ∃ now, c = .d3hotEntry f now) →
    (∀ e ∈ s.ctxs, e.2.faulted = true → (s.unitAt (arrUnit e.2.array)).owner ≠ f) →
    (s.unitAt (arrUnit a.val)).state = .bound → (s.unitAt (arrUnit a.val)).owner = f →
    (s.unitAt (arrUnit a.val)).seq = none → (s.atArrays a.val).ctx = some n →
    (∀ e ∈ s.arrays, e.2.ctx = some n → e.1 = a.val) → (s.atCtxs n).state = .running →
    answers c s fun t => (t.atArrays a.val).stop.isSome = true ∨ (t.atArrays a.val).phase = .stopped) ∧
  (∀ (s : State) (now : Dword), s.phase = .service →
    answers (.d3hotEntry 0 now) s fun t => t.phase = .fenced 2 ∧ t.d3.getLsbD 0 = true)

/-- R395, R396, R403, R405, R426: each trigger of a warm reset in service begins its fence, behind which every read but
the PF's of the global page and the trust page returns 0 and every write is dropped; a PCI Express reset returns the VF
count and the power states of configuration space to reset and waits for link training; another trigger behind the fence
changes nothing, but that a fall of PE_PERST_N is followed by a reset of its own. The reset's other steps record its
kind, leave no translation cached, no invalidation running and no landing-cache request, put the device in service
again, or out of service where a fault has ruined it or a unit of R400 is missing, and leave every unit unbound at the
next epoch and device time as it was; where no save or dump is cut off they leave the stack as it was too, with its
checksums, and without a self-test the fault log's earlier entries, the felled arrays and what the trust page shows
beside the keep store. That they come as a second command is the model's form (log entry 46). -/
def Obligations.WarmResetsRestartTheDevice : Prop :=
  (∀ (s : State) (now : Dword), s.phase = .service → s.time ≤ now →
    answers (.pfFlr now) s fun t => t = { s with time := now, phase := .fenced 2 }) ∧
  (∀ (s : State) (c : Instr), s.phase = .service → c = .referenceClockLoss .pcie ∨ (∃ k, c = .pcieReset k) →
    answers c s fun t => t = { s with phase := .fenced 3, vfs := 0, d3 := 0, linkWait := true }) ∧
  (∀ (s : State) (r : ResetTrigger), s.phase = .service → r.kind ≠ .fault →
    answers (.warmReset r) s fun t => t.phase = .fenced (resetCode r.kind)) ∧
  (∀ (s : State) (k : Nat) (f : Func) (b : Bar) (off n : Nat), s.phase = .fenced k → 0 < n → off + n ≤ barSize f b →
    (f ≠ 0 ∨ b ≠ .bar0 ∨ corePage (off / 0x1000) = false) →
    answers (.registerWrite f b off (.read n)) s fun t =>
      t = { s with out := .readData (List.replicate n 0) :: s.out }) ∧
  (∀ (s : State) (k : Nat) (f : Func) (b : Bar) (off n : Nat) (v : Dword), s.phase = .fenced k →
    answers (.registerWrite f b off (.write n v)) s fun t => t = s) ∧
  (∀ (s : State) (k : Nat) (c : Instr), s.phase = .fenced k →
    (∃ now, c = .pfFlr now) ∨ c = .referenceClockLoss .pcie ∨ c = .pcieReset .hot ∨ c = .pcieReset .linkDown ∨
      (∃ r, c = .warmReset r ∧ resetCode r.kind ≠ k) →
    answers c s fun t => t = s) ∧
  (∀ (s : State) (k : Nat), s.phase = .fenced k →
    answers (.pcieReset .fundamental) s fun t => t = { s with pcieAfter := true }) ∧
  (∀ (s : State) (r : ResetTrigger), s.phase = .fenced (resetCode r.kind) → s.pcieAfter = false → s.linkWait = false →
    s.tripHold = false →
    answers (.warmReset r) s fun t => t.rfld 0 0x304 0 3 = resetCode r.kind ∧ t.tlb = {} ∧ t.lcFill = none ∧
      t.lcWait = [] ∧ t.inval = none ∧ t.time = s.time ∧
      t.phase = (if s.ruin.isSome || (s.relock && !r.relocked) || t.noArray || r.lost.getLsbD 4 || r.lost.getLsbD 5 ||
        r.lost.getLsbD 6 then .noService else .service) ∧
      (∀ u : UnitId, u.wf = true → (t.unitAt u).state = .unbound ∧ (t.unitAt u).owner = 0 ∧ (t.unitAt u).seq = none ∧
        (t.unitAt u).epoch = (s.unitAt u).epoch + 1) ∧
      ((∀ e ∈ s.ctxs, e.2.state ≠ .saving) → (∀ a, a < 32 → s.rbit (spPage a) 0x11C 8 = false) →
        (∀ e ∈ s.held, e.1 < billetCount) →
        sameField .mem s t ∧ sameField .codingMap s t ∧ sameField .crcDiff s t ∧
        (s.rbit 0 0x300 1 = false → t.flogN = s.flogN + 1 ∧ t.reg 0 0x308 = s.reg 0 0x308 ∧
          (∀ k, k ≠ s.rfld 0 0x310 0 10 → t.atFlog k = s.atFlog k) ∧
          (∀ off ∈ [0x100, 0x104, 0x108, 0x10C, 0x12C], t.reg trustPage off = s.reg trustPage off)))) ∧
  (∀ (s : State) (r : ResetTrigger), s.phase = .fenced (resetCode r.kind) → s.pcieAfter = false → s.linkWait = false →
    s.tripHold = false → (∀ e ∈ s.ctxs, e.2.state ≠ .saving) →
    answers (.warmReset r) s fun t => ∀ u : UnitId, u.wf = true →
      (u.kind ≠ .array ∨ s.rbit 0 0x300 1 = false → (t.unitAt u).felled = (s.unitAt u).felled) ∧
      (u.kind = .array → s.rbit 0 0x300 1 = true → (t.unitAt u).felled = bit r.test.arrays u.num))

/-- R391, R392, R413, R425: a device fault in service is logged and begins the fence of a warm reset, or ends out of
service when fault_reset is 0 or it is the third within one second; the loss of the system reference clock is one;
and a junction reading is recorded, with the time it was taken at. -/
def Obligations.DeviceFaultsAndHeat : Prop :=
  (∀ (s : State) (code : BitVec 16), s.phase = .service → deviceFaultCodes.contains code = true →
    answers (.deviceFault code) s fun t => t.flogN = s.flogN + 1 ∧
      t.phase = if s.rbit 0 0x300 2 = false ∨
          3 ≤ (s.time :: s.faultsAt.filter fun u => decide (s.time.toNat < u.toNat + 10 ^ 9)).length
        then .noService else .fenced 4) ∧
  (∀ (s : State), s.phase = .service →
    answers (.referenceClockLoss .system) s fun t => t.flogN = s.flogN + 1 ∧
      (t.phase = .noService ∨ t.phase = .fenced 4)) ∧
  (∀ (s : State) (now : Dword) (l : List Int), s.phase = .service → (Instr.thermalSensorRead now l).wf = true →
    s.time.toNat ≤ now.toNat → (hottestOf l).1 < 125 → (hottestOf l).1 < (s.rfld 0 0x218 8 8 : Int) →
    answers (.thermalSensorRead now l) s fun t => t.time = now ∧
      t.rfld 0 0x214 0 8 = wrapInt (hottestOf l).1 8 ∧ t.rfld 0 0x214 8 4 = (hottestOf l).2)

/-- R372, R395, R410, R159, R211: power-on leaves the stack zero, device time 0 and no VF, with the straps sampled;
boot waits below 0 °C, and from 125 °C on the device trips and is held; the fall of POR_N holds the device in reset and
leaves the keep store as it was; when the image is loaded and the stack is zero, the device is in service; the zeroing
leaves every byte of the data area 0 and every billet plain, and the boot scrub every scratchpad byte 0 and the landing
cache empty. -/
def Obligations.PowerOnAndBootLeaveZeros : Prop :=
  (∀ (s : State) (p : Straps), (Instr.powerOnReset p).wf = true → answers (.powerOnReset p) s fun t =>
    t.time = 0 ∧ t.vfs = 0 ∧ t.d3 = 0 ∧ (∀ a, a < stackTop → t.atMem a = 0) ∧
    (p.hottest < 125 → t.rfld 0 0x210 0 3 = b2n p.recovery + 2 * b2n p.copy1 + 4 * b2n p.osc) ∧
    (p.hottest < 0 → t.phase = .booting) ∧ (125 ≤ p.hottest → t.phase = .held ∧ t.thermtrip = true)) ∧
  (∀ s : State, answers .porNFall s fun t => t.phase = .held ∧ t.keep = s.keep ∧ t.time = 0) ∧
  (∀ s : State, s.phase = .booting → s.zeroing = false → s.rfld trustPage 0x100 0 4 = 6 → s.noArray = false →
    s.ruin = none → s.lost.getLsbD 4 = false → s.lost.getLsbD 5 = false → s.lost.getLsbD 6 = false →
    answers .bootComplete s fun t => t.phase = .service ∧ t.rfld trustPage 0x100 0 4 = 7 ∧ t.bootScrub = true) ∧
  (∀ s : State, s.zeroing = true →
    answers .stackZeroingDone s fun t => t.zeroing = false ∧ (∀ a, a < dataTop → t.atMem a = 0) ∧
      (∀ b, t.atCodingMap b = 0) ∧ (∀ b, t.atCrcDiff b = 0)) ∧
  (∀ s : State, s.phase = .service → s.bootScrub = true →
    answers .bootScrubDone s fun t => (∀ (a : Fin 32) (off : Nat), off < 2 ^ 23 → t.spByte a.val off = 0) ∧
      (∀ k, k < 64 → t.atLcSlots k = {}) ∧ t.bootScrub = false)

/-! ## Register pages, windows and commits (chapters 0 and 2) -/

/-- R4, R5, R32: a 32-bit write of a register of the common header, or of a block whose registers all take writes by
access type, sets RW bits, clears W1C bits written 1, puts SH bits into the shadow, and leaves RO, RC and reserved
bits as they were; no other register changes, but for what the scheduler does of its own. -/
def Obligations.RegisterWritesFollowTheirAccessTypes : Prop :=
  ∀ (s : State) (f : Func) (a p off : Nat) (v : Word), stateWf s = true → mayWrite s f p →
    a + 4 ≤ barSize f .bar0 → a % 4 = 0 → s.barPage f a = some p → a % 0x1000 = off →
    ((headed p = true ∧ off < 0x040 ∧ off ≠ 0x010 ∧ off ≠ 0x030) ∨
      (0x100 ≤ off ∧ ∃ c, pageClass p = some c ∧
        [PageClass.hostPort, .array, .quant, .handles, .landing, .decode, .pipe, .comp, .strip, .vslot, .gslot, .floor,
          .track, .port, .window].contains c = true)) →
    answers (.registerWrite f .bar0 a (.write 4 (v.setWidth 64))) s fun t =>
      t.reg p off = ((s.reg p off &&& ~~~ rowMask RegSpec.rw p off) ||| (v &&& rowMask RegSpec.rw p off))
        &&& ~~~ (v &&& rowMask RegSpec.w1c p off) ∧
      t.shadow p off = (s.shadow p off &&& ~~~ rowMask RegSpec.sh p off) ||| (v &&& rowMask RegSpec.sh p off) ∧
      sameRegs (fun q o => (q = p ∧ o = off) ∨ schedulerReacts q o) s t

/-- R5, R25, R4: an aligned 32-bit read that the page lets in completes with one word; its reserved bits are 0, all of
it is 0 at an offset the page does not implement, and RC fields are clear afterwards. The word is the register's view,
but for the bits and the counts of passing time that the model leaves free (log entry 48) and the stall that a pipe
counts up to the read. But for the pages of the trust
unit and the post-mortem window, whose reads can be refused with a report, no other register changes, but for what
the scheduler does of its own and for the two halves of such a count. -/
def Obligations.ReadsShowReservedBitsAsZero : Prop :=
  ∀ (s : State) (f : Func) (a p off : Nat), stateWf s = true → mayRead s f p →
    a + 4 ≤ barSize f .bar0 → a % 4 = 0 → s.barPage f a = some p → a % 0x1000 = off →
    s.atLatches (regAddr p off) = none →
    answers (.registerWrite f .bar0 a (.read 4)) s fun t =>
      (∃ w : Word, sends (.readData (natBytes 4 w.toNat)) s t ∧ w &&& ~~~ regMask (regAddr p off) = 0 ∧
        (s.openMask p off = 0 → countsOn p off = false → w = s.view f p off)) ∧
      (rowMask RegSpec.rc p off ≠ 0 → t.reg p off = s.reg p off &&& ~~~ rowMask RegSpec.rc p off) ∧
      (pageClass p ≠ some .trust → ¬ (pageClass p = some .spad ∧ 0x800 ≤ off) →
        sameRegs (fun q o => (q = p ∧ o = off) ∨ (countsOn p off = true ∧ q = p ∧ o / 8 = off / 8) ∨
          schedulerReacts q o) s t)

/-- R24, R25, R27, R28, R51, R205: an access that is not an aligned one of 4 or 8 bytes completes as Unsupported Request
or is dropped with a report; every aligned read of BAR4 returns 0; a function that is not there answers no read and
takes no write (that one in D3hot is not there is PRESUMED, log entry 44); a write of BAR4 does what the doorbell
command of its offset does, and one of a reserved offset is dropped with cause 0x1D, or 0x15 where the event that tells
it meets a full ring; a BAR2 read returns the bytes of device memory, and zeros where no memory lies behind it; and a
BAR2 write of the data area is read back from then on, its bytes stored or held, or stands in the stored bytes of a
coded billet it writes in part (the model's choice, log entries 12 and 53), with no stored byte of another billet
changed. -/
def Obligations.WindowsTakeTheAccessesTheyServe : Prop :=
  (∀ (s : State) (f : Func) (b : Bar) (off n : Nat), s.phase = .service → 0 < n → off + n ≤ barSize f b →
    (s.present f = false ∨ (n ≠ 4 ∧ n ≠ 8) ∨ off % n ≠ 0) →
    answers (.registerWrite f b off (.read n)) s fun t => t = { s with out := .unsupported :: s.out }) ∧
  (∀ (s : State) (f : Func) (off n : Nat), s.phase = .service → s.present f = true → n = 4 ∨ n = 8 → off % n = 0 →
    off + n ≤ barSize f .bar4 →
    answers (.registerWrite f .bar4 off (.read n)) s fun t =>
      t = { s with out := .readData (List.replicate n 0) :: s.out }) ∧
  (∀ (s : State) (f : Func) (b : Bar) (off n : Nat) (v : Dword), s.phase = .service → s.present f = false → 0 < n →
    off + n ≤ barSize f b → v.toNat < 256 ^ n →
    answers (.registerWrite f b off (.write n v)) s fun t => t = s) ∧
  (∀ (s : State) (f : Func) (n : Fin 4096) (v : Word), s.phase = .service → s.present f = true → s.resetting f = false →
    s.semBound n.val f = true →
    answers (.registerWrite f .bar4 (0x2000 + 4 * n.val) (.write 4 (v.setWidth 64))) s fun t =>
      t.sem n.val = s.sem n.val + v) ∧
  (∀ (s : State) (f : Func) (v : Word), s.phase = .service → s.present f = true →
    (∀ c : Fin 1024, exec (.registerWrite f .bar4 (4 * c.val) (.write 4 (v.setWidth 64))) s
      = exec (.streamRingDoorbell f c v) s) ∧
    (∀ n : Fin 8, exec (.registerWrite f .bar4 (0x1000 + 4 * n.val) (.write 4 (v.setWidth 64))) s
      = exec (.jobRingProducerDoorbell f n v) s) ∧
    (∀ n : Fin 8, exec (.registerWrite f .bar4 (0x1020 + 4 * n.val) (.write 4 (v.setWidth 64))) s
      = exec (.eventRingConsumerDoorbell f n v) s) ∧
    (∀ n : Fin 4096, exec (.registerWrite f .bar4 (0x2000 + 4 * n.val) (.write 4 (v.setWidth 64))) s
      = exec (.semaphoreSignalDoorbell f n v) s)) ∧
  (∀ (s : State) (f : Func) (off : Nat) (v : Word), s.phase = .service → s.present f = true → off % 4 = 0 →
    off + 4 ≤ barSize f .bar4 → (0x1040 ≤ off ∧ off < 0x2000) ∨ 0x6000 ≤ off →
    answers (.registerWrite f .bar4 off (.write 4 (v.setWidth 64))) s fun t => sameField .mem s t ∧
      sameField .streams s t ∧ (∀ n : Fin 4096, t.sem n.val = s.sem n.val) ∧
      (∀ n : Fin 8, t.reg (globalPage f) (jrOff n.val + 0x10) = s.reg (globalPage f) (jrOff n.val + 0x10) ∧
        t.reg (globalPage f) (evrOff n.val + 20) = s.reg (globalPage f) (evrOff n.val + 20)) ∧
      (t.rfld (globalPage f) 0x020 0 16 = 0x011D ∨ t.rfld (globalPage f) 0x020 0 16 = 0x0115)) ∧
  (∀ (s : State) (off len : Nat), s.phase = .service → s.present 0 = true → off + len ≤ stackTop →
    (∀ b ∈ billetsOf off len, freshBillet s b) →
    answers (.bar2Read off len) s fun t => sends (.readData ((List.range len).map fun i => s.physByte (off + i))) s t ∧
      sameField .mem s t ∧ sameField .held s t ∧ sameField .codingMap s t ∧ sameField .crcDiff s t) ∧
  (∀ (s : State) (off len : Nat), s.phase = .service → s.present 0 = true → off + len ≤ bar2Size → stackTop < off + len →
    answers (.bar2Read off len) s fun t => sends (.readData (List.replicate len 0)) s t ∧ sameField .mem s t) ∧
  (∀ (s : State) (off len : Nat), s.phase = .service → s.present 0 = false → 0 < len → off + len ≤ bar2Size →
    answers (.bar2Read off len) s fun t => t = { s with out := .unsupported :: s.out }) ∧
  (∀ (s : State) (off : Nat) (data : List Byte), s.phase = .service → s.present 0 = false →
    answers (.bar2Write off data) s fun t => t = s) ∧
  (∀ (s : State) (off : Nat) (data : List Byte), s.phase = .service → s.present 0 = true → data ≠ [] →
    off + data.length ≤ dataTop →
    (∀ b h, s.atHeld b = some h → tblOk (fun _ => none) h.bytes = true) →
    (∀ b ∈ billetsOf off data.length, (s.atHeld b).isSome = true ∨ (s.heldOf (channelOf b)).length < 15) →
    (∀ b ∈ billetsOf off data.length, s.rawBillet b = true ∨ (off ≤ 2048 * b ∧ 2048 * (b + 1) ≤ off + data.length)) →
    answers (.bar2Write off data) s fun t =>
      (∀ i, i < data.length → t.physByte (off + i) = data.getD i 0) ∧
      (∀ a, (a < off / 2048 * 2048 ∨ (off + data.length + 2047) / 2048 * 2048 ≤ a) → t.stored a = s.stored a)) ∧
  (∀ (s : State) (off : Nat) (data : List Byte), s.phase = .service → s.present 0 = true → data ≠ [] →
    off + data.length ≤ dataTop → off % 2048 + data.length < 2048 → s.rawBillet (off / 2048) = false →
    answers (.bar2Write off data) s fun t =>
      (∀ i, i < data.length → t.stored (off + i) = data.getD i 0) ∧
      (∀ a, a / 2048 ≠ off / 2048 → t.stored a = s.stored a)) ∧
  (∀ (s : State) (off : Nat) (data : List Byte), s.phase = .service → off + data.length ≤ bar2Size →
    dataTop < off + data.length →
    answers (.bar2Write off data) s fun t => sameField .mem s t ∧ sameField .codingMap s t ∧ sameField .crcDiff s t) ∧
  (∀ (s : State) (f : Func) (b : Bar) (off n : Nat) (v : Dword), s.phase = .service → s.present f = true → 0 < n →
    off + n ≤ barSize f b → v.toNat < 256 ^ n → ((n ≠ 4 ∧ n ≠ 8) ∨ off % n ≠ 0) →
    answers (.registerWrite f b off (.write n v)) s fun t => sameField .mem s t ∧ sameField .shadows s t ∧
      (t.rfld (globalPage f) 0x020 0 16 = 0x011D ∨ t.rfld (globalPage f) 0x020 0 16 = 0x0115))

/-- R32, R34, R35: go makes the shadows of a page its pending set, with its seq, or settles a set the block refuses at
once; at its commit point a pending set becomes active whole; abandon discards one; and err_clear clears the three
error registers. -/
def Obligations.CommitsApplyWhole : Prop :=
  (∀ (s : State) (f : Func) (p : Nat) (seq : BitVec 24), p < pageCount → mayWrite s f p → ownCommit p = true →
    s.atCommits p = none → commitRefusal s p (s.pageSnap p) = none →
    answers (.pgCommitGo f p seq) s fun t =>
      t.atCommits p = some ⟨seq, s.pageSnap p⟩ ∧ t.rfld p 0x030 8 24 = seq.toNat ∧ t.rfld p 0x034 0 2 = 1 ∧
      sameRegs (fun q o => q = p ∧ (o = 0x030 ∨ o = 0x034)) s t) ∧
  (∀ (s : State) (f : Func) (p : Nat) (seq : BitVec 24) (code : Nat), p < pageCount → mayWrite s f p → ownCommit p = true →
    s.atCommits p = none → commitRefusal s p (s.pageSnap p) = some code →
    answers (.pgCommitGo f p seq) s fun t =>
      t.atCommits p = none ∧ t.rfld p 0x034 0 2 = 3 ∧ t.rfld p 0x034 16 16 = code) ∧
  (∀ (s : State) (p : Nat) (c : CommitRec), p < pageCount → s.phase = .service → ownCommit p = true →
    s.atCommitPoint p = true → s.atCommits p = some c →
    answers (.commitPoint p) s fun t =>
      t.atCommits p = none ∧ t.rfld p 0x034 0 2 = 2 ∧ t.rfld p 0x034 8 8 = c.seq.toNat % 256 ∧
      ∀ e ∈ shadowRegs p, t.reg p e.1 &&& BitVec.ofNat 32 e.2
        = tblGet regReset (regAddr p e.1) c.snap &&& BitVec.ofNat 32 e.2) ∧
  (∀ (s : State) (f : Func) (p : Nat), p < pageCount → mayWrite s f p → ownCommit p = true →
    (s.atCommits p).isSome = true →
    answers (.pgCommitAbandon f p) s fun t =>
      t.atCommits p = none ∧ t.rfld p 0x034 0 2 = 0 ∧ sameRegs (fun q o => q = p ∧ o = 0x034) s t) ∧
  (∀ (s : State) (f : Func) (p : Nat), p < pageCount → mayWrite s f p → headed p = true →
    answers (.errClear f p) s fun t =>
      t.reg p 0x020 = 0 ∧ t.reg p 0x024 = 0 ∧ t.reg p 0x028 = 0 ∧
      sameRegs (fun q o => q = p ∧ (o = 0x020 ∨ o = 0x024 ∨ o = 0x028)) s t)

/-! ## The memory system (chapter 10) -/

/-- R166, R208, R209, R210, R213, R216: a client's read of physical memory whose billets check, in the stack and where
the billet buffer holds them, gives it the content and changes no memory; one that hits the landing cache is given from
the slot; one that meets a billet whose checksum fails reports it; a write of part of a billet is held, alone or with what
is held of the billet already, and reads return it from then on; a write of a whole billet is stored with a valid
checksum; no other byte's content changes; and a write through a cached page of plain coding that permits it is the write
at its physical address. -/
def Obligations.StackAccessesReachTheContents : Prop :=
  (∀ (s : State) (c : StackClient) (a n : Nat), s.phase = .service → s.zeroing = false → a + n ≤ dataTop →
    s.lcHit c a n = none → (∀ b ∈ billetsOf a n, steadyBillet s b = true) →
    answers (.stackRead c none a n [] false) s fun t => sends (.readData (s.contents a n)) s t ∧
      sameField .mem s t ∧ sameField .held s t ∧ sameField .codingMap s t ∧ sameField .crcDiff s t) ∧
  (∀ (s : State) (c : StackClient) (a n k : Nat), s.phase = .service → s.zeroing = false → a + n ≤ dataTop →
    s.lcHit c a n = some k →
    answers (.stackRead c none a n [] false) s fun t =>
      sends (.readData (sliceBytes (s.atLcSlots k).data (a - 2048 * (s.atLcSlots k).base) n)) s t ∧
      t.atLcSlots k = { s.atLcSlots k with last := s.time } ∧ sameField .mem s t ∧ sameField .buffered s t) ∧
  (∀ (s : State) (c : StackClient) (a n : Nat), s.phase = .service → s.zeroing = false → a + n ≤ dataTop →
    s.lcHit c a n = none → (∃ b ∈ billetsOf a n, brokenBillet s b = true) →
    answers (.stackRead c none a n [] false) s fun t => t.rbit memPage 0x018 8 = true ∧ sameField .mem s t ∧
      sameField .crcDiff s t) ∧
  (∀ (s : State) (c : StackClient) (a : Nat) (data : List Byte), s.phase = .service → s.zeroing = false → data ≠ [] →
    a % 2048 + data.length < 2048 → a + data.length ≤ dataTop → s.atHeld (a / 2048) = none →
    (s.heldOf (channelOf (a / 2048))).length < 16 →
    answers (.stackWrite c none a data) s fun t =>
      (∀ i, i < data.length → t.content (a + i) = data.getD i 0) ∧
      (∀ x, (x < a ∨ a + data.length ≤ x) → t.content x = s.content x) ∧
      sameField .mem s t ∧ (t.atHeld (a / 2048)).isSome = true) ∧
  (∀ (s : State) (c : StackClient) (a : Nat) (data : List Byte) (h : HeldBillet), s.phase = .service →
    s.zeroing = false → data ≠ [] → a % 2048 + data.length ≤ 2048 → a + data.length ≤ dataTop →
    s.atHeld (a / 2048) = some h → tblOk (fun _ => none) h.bytes = true → h.bytes.length + data.length < 2048 →
    answers (.stackWrite c none a data) s fun t =>
      (∀ i, i < data.length → t.content (a + i) = data.getD i 0) ∧
      (∀ x, (x < a ∨ a + data.length ≤ x) → t.content x = s.content x) ∧ sameField .mem s t) ∧
  (∀ (s : State) (c : StackClient) (b : Nat) (data : List Byte), s.phase = .service → s.zeroing = false →
    data.length = 2048 → b < billetCount → s.atHeld b = none →
    answers (.stackWrite c none (2048 * b) data) s fun t =>
      (∀ i, i < 2048 → t.stored (2048 * b + i) = data.getD i 0 ∧ t.content (2048 * b + i) = data.getD i 0) ∧
      t.atCodingMap b = 0 ∧ t.atCrcDiff b = 0 ∧
      (∀ x, x / 2048 ≠ b → t.content x = s.content x)) ∧
  (∀ (s : State) (c : StackClient) (asid : Fin 4) (va : Nat) (data : List Byte) (l : Leaf), data ≠ [] →
    va % 65536 + data.length ≤ 65536 → standingLeaf s c asid.val va = some l → l.coding = .plain →
    permitted l c .write va data.length = true → leafAddr l va + data.length ≤ dataTop →
    exec (.stackWrite c (some asid) va data) s = exec (.stackWrite c none (leafAddr l va) data) s)

/-- R210, R212: the time limit of a held billet starts its merge read; when that read returns and the
billet checks, the billet is stored with the held bytes over its content and a valid checksum, and when it does not check
it is poisoned; the patrol reads on by one billet while it is on and does nothing while it is off. -/
def Obligations.MergesAndThePatrolKeepBillets : Prop :=
  (∀ (s : State) (b : Nat) (h : HeldBillet), s.phase = .service → s.atHeld b = some h →
    answers (.partialWriteTimeout b) s fun t => t.atHeld b = some { h with merging := true } ∧
      (∀ d, d ≠ b → t.atHeld d = s.atHeld d) ∧ sameField .mem s t ∧ sameField .regs s t) ∧
  (∀ (s : State) (b : Nat) (h : HeldBillet), s.phase = .service → s.atHeld b = some h → h.merging = true →
    h.superseded = false → h.failed = false → h.ref = none → steadyBillet s b = true →
    answers (.mergeReadDone b []) s fun t => t.atHeld b = none ∧ t.atCrcDiff b = 0 ∧ t.atCodingMap b = 0 ∧
      (∀ i, i < 2048 → t.stored (2048 * b + i) = (mergeBytes h (s.billetContent b)).getD i 0) ∧
      (∀ x, x / 2048 ≠ b → t.stored x = s.stored x)) ∧
  (∀ (s : State) (b : Nat) (h : HeldBillet), s.phase = .service → s.atHeld b = some h → h.merging = true →
    h.superseded = false → brokenBillet s b = true →
    answers (.mergeReadDone b []) s fun t => t.atHeld b = none ∧ t.atCrcDiff b = 0xFFFFFFFF ∧
      t.rbit memPage 0x018 9 = true) ∧
  (∀ s : State, s.phase = .service → s.rbit memPage 0x104 0 = true → s.zeroing = false →
    answers (.patrolRead []) s fun t => t.rfld memPage 0x108 0 24 = (s.rfld memPage 0x108 0 24 + 1) % billetCount ∧
      sameField .mem s t ∧ sameField .crcDiff s t) ∧
  (∀ s : State, s.phase = .service → s.rbit memPage 0x104 0 = false →
    answers (.patrolRead []) s fun t => t = s)

/-- R214 to R216, R220: a walk that ends at a leaf leaves it with the shared walker and in the client's own cache, and
takes nothing from another client's, unless an invalidation covers it; one that finds nothing is reported and caches no
leaf; an invalidation is taken while none runs, and only its go is ignored while one does; and when it is done the caches
and the walker hold no leaf and no table of its span and keep every other. -/
def Obligations.TranslationsAreCachedAndInvalidated : Prop :=
  (∀ (s : State) (c : StackClient) (asid : Fin 4) (va n : Nat) (w : Bool) (l : Leaf), s.phase = .service →
    walksFromRoot s c asid.val va → buffersFresh s → walk s c.func asid.val va = .leaf l → s.inval = none →
    answers (.translationWalkDone c asid va n w) s fun t => t.walkerLeaf c.func asid.val va = some l ∧
      ((cacheOf c.kind).isSome = true → t.ownCached c asid.val va = some l) ∧
      ∀ x ∈ s.tlb.caches, some x.1 ≠ cacheOf c.kind → x ∈ t.tlb.caches) ∧
  (∀ (s : State) (c : StackClient) (asid : Fin 4) (va n : Nat) (w : Bool) (i : Inval), s.phase = .service →
    s.inval = some i → i.func = c.func → i.asid = asid.val →
    (i.all = true ∨ (i.va ≤ va ∧ va < i.va + 65536 * i.pages)) →
    answers (.translationWalkDone c asid va n w) s fun t => t.tlb = s.tlb) ∧
  (∀ (s : State) (c : StackClient) (asid : Fin 4) (va n : Nat) (w : Bool), s.phase = .service →
    walksFromRoot s c asid.val va → buffersFresh s → walk s c.func asid.val va = .absent →
    answers (.translationWalkDone c asid va n w) s fun t => t.tlb.caches = s.tlb.caches ∧
      t.walkerLeaf c.func asid.val va = none ∧ t.rbit memPage 0x018 11 = true) ∧
  (∀ (s : State) (f : Func) (v : Word), mayWrite s f memPage → s.inval = none →
    answers (.invalidationStart f v) s fun t => t.tlb = s.tlb ∧
      t.inval = some ⟨Fin.ofNat 32 (fld v 8 5), fld v 13 2, bit v 2, s.reg64 memPage 0x110 % 2 ^ 48, fld v 15 17 + 1⟩) ∧
  (∀ (s : State) (f : Func) (v : Word), mayWrite s f memPage → s.inval.isSome = true →
    answers (.invalidationStart f v) s fun t => t.inval = s.inval ∧ t.tlb = s.tlb ∧
      t.rfld memPage 0x118 8 5 = fld v 8 5 ∧ t.rfld memPage 0x118 13 2 = fld v 13 2 ∧
      t.rfld memPage 0x118 15 17 = fld v 15 17) ∧
  (∀ (s : State) (i : Inval), s.phase = .service → s.inval = some i →
    answers .invalidationDone s fun t => t.inval = none ∧ t.rbit memPage 0x118 1 = true ∧
      (∀ x, x ∈ t.tlb.caches ↔ x ∈ s.tlb.caches ∧ ¬ dropsLeaf i x.2) ∧
      (∀ l, .leaf l ∈ t.tlb.results ↔ .leaf l ∈ s.tlb.results ∧ ¬ dropsLeaf i l) ∧
      ∀ g a r pa, .table g a r pa ∈ t.tlb.results ↔ .table g a r pa ∈ s.tlb.results ∧
        ¬ (g = i.func ∧ a = i.asid ∧ (i.all = true ∨
          (r * 2 ^ 21 < i.va + 65536 * i.pages ∧ i.va < (r + 1) * 2 ^ 21))))

/-! ## Binding (chapter 3) -/

/-- R48, R50, R52, R57: an accepted bind, unbind or move starts the unit's sequence: the unit is re-binding, its epoch
has risen by 1, its pages' shadows and pending commits are gone, and the sequence knows its op and its new owner; a
release-hold command takes a held unit, or one held on a context's fault, on to the scrub, as a re-binding unit (a
reading, log entry 54); a share maps a page read-only into a VF, and its withdrawal leaves the VF without it. -/
def Obligations.BindingCommandsStartTheSequence : Prop :=
  (∀ (s : State) (f : Func) (n : Fin 8) (d : BitVec 1024) (k : UnitKind) (c : Instr) (o : RebindOp),
    ((c = .bind f n d ∧ bcOp d = 1 ∧ o = .bind) ∨ (c = .unbind f n d ∧ bcOp d = 2 ∧ o = .unbind) ∨
      (c = .move f n d ∧ bcOp d = 3 ∧ o = .move)) →
    readyJob s f n d 6 → s.bootScrub = false → bindRefusal s d = none → kindOf (bcKind d) = some k →
    answers c s fun t =>
      (t.unitAt ⟨k, jobTarget d⟩).state = .rebinding ∧
      (t.unitAt ⟨k, jobTarget d⟩).epoch = (s.unitAt ⟨k, jobTarget d⟩).epoch + 1 ∧
      (∃ r, (t.unitAt ⟨k, jobTarget d⟩).seq = some r ∧ r.op = o ∧ r.step = .stop ∧ r.newOwner = bcOwner d) ∧
      ∀ p ∈ unitPages ⟨k, jobTarget d⟩, t.atCommits p = none ∧
        ∀ off, off < 4096 → t.shadow p off = regReset (regAddr p off)) ∧
  (∀ (s : State) (f : Func) (n : Fin 8) (d : BitVec 1024) (k : UnitKind) (r : Rebind),
    readyJob s f n d 6 → bcOp d = 4 → s.bootScrub = false → bindRefusal s d = none → kindOf (bcKind d) = some k →
    (s.unitAt ⟨k, jobTarget d⟩).seq = some r →
    answers (.releaseHold f n d) s fun t => (t.unitAt ⟨k, jobTarget d⟩).state = .rebinding ∧
      (t.unitAt ⟨k, jobTarget d⟩).owner = (s.unitAt ⟨k, jobTarget d⟩).owner ∧
      (t.unitAt ⟨k, jobTarget d⟩).seq = some { r with release := some s.jobNext, step := .scrub }) ∧
  (∀ (s : State) (f : Func) (n : Fin 8) (d : BitVec 1024), readyJob s f n d 6 → bcOp d = 5 → s.bootScrub = false →
    bindRefusal s d = none →
    answers (.shareReadOnly f n d) s fun t => t.sharedInto (bcOwner d) (jobTarget d) = true ∧ sameField .units s t) ∧
  (∀ (s : State) (f : Func) (n : Fin 8) (d : BitVec 1024), readyJob s f n d 6 → bcOp d = 6 → s.bootScrub = false →
    bindRefusal s d = none →
    answers (.withdrawShare f n d) s fun t => t.sharedInto (bcOwner d) (jobTarget d) = false ∧ sameField .units s t)

/-- R52, R53, R57, R159: when a unit's work has stopped its sequence goes to the hold or to the scrub; when the scrub is
done the unit is bound to its new owner, or unbound, under the epoch it has, and an array's scratchpad is zero. -/
def Obligations.TheRebindingSequenceGoesOn : Prop :=
  (∀ (s : State) (u : UnitId) (r : Rebind), s.phase = .service → u.wf = true → (s.unitAt u).seq = some r →
    r.step = .stop → s.unitStopped u = true →
    answers (.rebindStopDone u) s fun t => (t.unitAt u).epoch = (s.unitAt u).epoch ∧
      (r.hold = true → (t.unitAt u).state = .held ∧ (t.unitAt u).seq = some { r with step := .held }) ∧
      (r.hold = false → (t.unitAt u).state = (s.unitAt u).state ∧ (t.unitAt u).seq = some { r with step := .scrub })) ∧
  (∀ (s : State) (u : UnitId) (r : Rebind), s.phase = .service → u.wf = true → (s.unitAt u).seq = some r →
    r.step = .scrub → r.op ≠ .hold → r.flrAfter = false →
    answers (.rebindScrubDone u) s fun t =>
      (t.unitAt u).state = (if r.bound && !(s.unitAt u).felled then .bound else .unbound) ∧
      (t.unitAt u).owner = (if r.bound && !(s.unitAt u).felled then r.newOwner else 0) ∧
      (t.unitAt u).epoch = (s.unitAt u).epoch ∧ (t.unitAt u).seq = none ∧
      (∀ v : UnitId, unitKey v ≠ unitKey u → t.unitAt v = s.unitAt v) ∧
      (u.kind = .array → ∀ off, off < 2 ^ 23 → t.spByte u.num off = 0) ∧
      (u.kind = .stream → t.atStreams u.num = {}))

/-! ## The landing cache (chapter 8) and the trust unit (chapter 18) -/

/-- R163 to R165, R376: an evict frees the owner's slot and a set-pins replaces the pins of the owner's model, each
leaving every other slot as it was, and an evict touches no slot that is another function's or holds no model; an
install at the head of the queue, with none accepted earlier still under check, that finds its slot and its room starts
its fill, with every model it evicts gone; a fill that has read its image makes the slot valid with what the stack held
at its physical range (a reading, log entry 38), and one whose image was written meanwhile leaves nothing resident; a
bundle load whose turn it is is put under check, and when its check is done the job has completed or its install waits.
-/
def Obligations.ModelsEnterTheLandingCache : Prop :=
  (∀ (s : State) (f : Func) (n : Fin 8) (d : BitVec 1024), readyJob s f n d 2 → lcOp d = 2 → lcMalformed d = false →
    s.lcFill = none → s.lcWait = [] → s.lcEarlier s.jobNext = false →
    (s.atLcSlots (fld d 514 6)).valid = true → (s.atLcSlots (fld d 514 6)).owner = f →
    answers (.lcEvict f n d) s fun t => t.atLcSlots (fld d 514 6) = {} ∧ t.lcWait = [] ∧ t.atJobs s.jobNext = none ∧
      ∀ k, k ≠ fld d 514 6 → t.atLcSlots k = s.atLcSlots k) ∧
  (∀ (s : State) (f : Func) (n : Fin 8) (d : BitVec 1024), readyJob s f n d 2 → lcOp d = 2 → lcMalformed d = false →
    s.lcFill = none → s.lcWait = [] → s.lcEarlier s.jobNext = false →
    ((s.atLcSlots (fld d 514 6)).valid = false ∨ (s.atLcSlots (fld d 514 6)).owner ≠ f) →
    answers (.lcEvict f n d) s fun t => sameField .lcSlots s t ∧ t.atJobs s.jobNext = none) ∧
  (∀ (s : State) (f : Func) (n : Fin 8) (d : BitVec 1024) (j : Job), readyJob s f n d 2 → lcOp d = 3 →
    lcMalformed d = false → s.lcFill = none → s.lcWait = [] → s.lcEarlier s.jobNext = false →
    (s.atLcSlots (fld d 514 6)).valid = true → (s.atLcSlots (fld d 514 6)).owner = f → j = ⟨f, n, d, [], true⟩ →
    pinRefusal s (lcRequest s.jobNext j) (fld d 514 6) (s.atLcSlots (fld d 514 6)).frames = none →
    answers (.lcSetPins f n d) s fun t =>
      t.atLcSlots (fld d 514 6) = { s.atLcSlots (fld d 514 6) with pins := BitVec.ofNat 32 (fld d 544 32) } ∧
      t.atJobs s.jobNext = none ∧ ∀ k, k ≠ fld d 514 6 → t.atLcSlots k = s.atLcSlots k) ∧
  (∀ (s : State) (q : LcInstall) (l : List LcInstall) (out : List Nat), s.phase = .service → s.lcFill = none →
    s.lcWait = q :: l → q.op = 1 → s.lcEarlier q.job = false → q.written = false → q.auto = false → (s.atLcSlots q.slot).valid = false →
    (s.atLcSlots q.slot).filling = false → pinRefusal s q q.slot q.frames = none →
    s.lcEvictions q.frames false = some out →
    answers .lcInstall s fun t => t.lcFill = some { q with evicted := out.length, written := false } ∧ t.lcWait = l ∧
      (t.atLcSlots q.slot).filling = true ∧ (t.atLcSlots q.slot).owner = q.func ∧
      (t.atLcSlots q.slot).frames = q.frames ∧ ∀ k ∈ out, k ≠ q.slot → t.atLcSlots k = {}) ∧
  (∀ (s : State) (q : LcInstall) (bs : List Byte), s.phase = .service → s.lcFill = some q → s.lcWait = [] →
    q.written = false → bs.length = q.len → buffersFresh s → readsAs s ⟨.fill, q.func⟩ 0 q.va bs →
    answers .lcFillDone s fun t => t.lcFill = none ∧ t.atLcSlots q.slot = { s.atLcSlots q.slot with
      filling := false, valid := true, data := s.contents (2048 * q.base) (2048 * q.frames) }) ∧
  (∀ (s : State) (q : LcInstall), s.phase = .service → s.lcFill = some q → s.lcWait = [] → q.written = true →
    answers .lcFillDone s fun t => t.lcFill = none ∧ t.atLcSlots q.slot = {}) ∧
  (∀ (s : State) (f : Func) (n : Fin 8) (d : BitVec 1024), readyJob s f n d 2 → lcOp d ≤ 1 → bundleMalformed d = none →
    s.trust.check = none → s.trust.commit = none → s.trust.queue = [] →
    answers (.modelBundleLoad f n d) s fun t => (t.trust.check.map fun q => q.job) = some s.jobNext ∧
      t.trust.queue = [] ∧ (t.atJobs s.jobNext).isSome = true) ∧
  (∀ (s : State) (f : Func) (n : Fin 8) (d : BitVec 1024), readyJob s f n d 2 → lcOp d ≤ 1 → bundleMalformed d = none →
    s.trust.check.isSome = true → s.trust.queue = [] →
    answers (.modelBundleLoad f n d) s fun t => t.trust.check = s.trust.check ∧ t.trust.queue = [s.jobNext]) ∧
  (∀ (s : State) (q : LcInstall) (j : Job), s.phase = .service → s.trust.check = some q → s.atJobs q.job = some j →
    s.trust.queue = [] → q.op = lcOp j.desc →
    answers .bundleCheckDone s fun t => t.trust.check = none ∧
      (t.atJobs q.job = none ∨ ∃ w ∈ t.lcWait, w.job = q.job))

/-- R378, R382, R385, R386: an ordinary set and a signed change that pass every check, and are served while no
power-fail warning is in force, begin a commit, which leaves the settings in force as they are; when the commit is
done the new settings are in force with the next sequence number, and when it has failed the old ones stay. -/
def Obligations.KeepStoreChangesCommitWhole : Prop :=
  (∀ (s : State) (f : Func) (n : Fin 8) (d : BitVec 1024) (given b : List Byte), readyJob s f n d 7 → keepOp d = 1 →
    jobClass d = 2 → bodyIs s f d given b → b.length = 8 → ordinaryCause s d b = none → s.tb.pfwBlock = false →
    s.trust.check = none → s.trust.commit = none → s.trust.queue = [] →
    answers (.ordinarySet f n d given) s fun t =>
      t.trust.commit = some ⟨s.jobNext, setId b, setValue b, none⟩ ∧ t.keepBank = s.keepBank ∧
      t.keep.activeB = s.keep.activeB) ∧
  (∀ (s : State) (f : Func) (n : Fin 8) (d : BitVec 1024) (given b : List Byte), readyJob s f n d 7 → keepOp d = 2 →
    jobClass d = 2 → bodyIs s f d given b → b.length = jobBodyLen d → changeCause s d b = none → changeId b ≠ 5 →
    s.tb.pfwBlock = false → s.trust.check = none → s.trust.commit = none → s.trust.queue = [] →
    answers (.signedChange f n d given) s fun t =>
      t.trust.commit = some ⟨s.jobNext, changeId b, changeValue b, none⟩ ∧ t.keepBank = s.keepBank ∧
      (tallyOf t.keep (changeId b)).1 = (tallyOf s.keep (changeId b)).1 + 1) ∧
  (∀ (s : State) (c : KeepCommit), s.phase = .service → s.trust.commit = some c → c.setting ≠ 5 → s.trust.queue = [] →
    answers (.keepCommitDone false) s fun t => t.trust.commit = none ∧
      t.keepBank = { valid := true, seq := (s.keepBank.seq + 1) % 2 ^ 32, vals := putSetting s.keepBank.vals c.setting c.value } ∧
      t.keep.activeB = !s.keep.activeB) ∧
  (∀ (s : State) (c : KeepCommit), s.phase = .service → s.trust.commit = some c → s.trust.queue = [] →
    answers (.keepCommitDone true) s fun t => t.trust.commit = none ∧ sameField .keep s t)

/-- R384, R385: an attestation writes the signed report of the device's state with the command's nonce into its body; a
failed health test of the random source is recorded; and a read of TR_RNG_DATA returns one word, which is 0 after
such a failure. -/
def Obligations.AttestationAndTheRandomSource : Prop :=
  (∀ (s : State) (f : Func) (n : Fin 8) (d : BitVec 1024), readyJob s f n d 7 → keepOp d = 3 → jobClass d = 2 →
    jobBodyHost d = true → jobBodyLen d = 384 → s.trust.check = none → s.trust.commit = none → s.trust.queue = [] →
    answers (.attest f n d) s fun t =>
      sends (.hostWrite f (jobBodyAddr d) (report s 0 (keepNonce d) s.idSlot.pub)) s t ∧ sameField .keep s t ∧
      t.atJobs s.jobNext = none) ∧
  (∀ (s : State) (f : Func) (n : Fin 8) (d : BitVec 1024) (bs : List Byte) (pa : Nat → Nat), readyJob s f n d 7 →
    keepOp d = 3 → jobClass d = 2 → jobBodyHost d = false → jobBodyLen d = 384 → s.trust.check = none →
    s.trust.commit = none → s.trust.queue = [] → bs = report s 0 (keepNonce d) s.idSlot.pub →
    writesAt s ⟨.trust, f⟩ 0 (jobBodyAddr d) bs.length pa →
    answers (.attest f n d) s fun t => (∀ i, i < bs.length → t.content (pa i) = bs.getD i 0) ∧ sameField .keep s t ∧
      t.atJobs s.jobNext = none) ∧
  (∀ (s : State) (w : BitVec 2), s.phase = .service →
    answers (.rngHealthFailure w) s fun t => t.rbit trustPage 0x280 1 = true ∧ t.rbit trustPage 0x018 9 = true) ∧
  (∀ (s : State) (f : Func), mayRead s f trustPage → s.rbit trustPage 0x280 1 = false →
    answers (.trRngDataRead f) s fun t => ∃ w : Word, t = { s with out := .readData (natBytes 4 w.toNat) :: s.out, free := s.free + 1 }) ∧
  (∀ (s : State) (f : Func), mayRead s f trustPage → s.rbit trustPage 0x280 1 = true →
    answers (.trRngDataRead f) s fun t => sends (.readData (List.replicate 4 0)) s t)

/-- R375: a read, a program and an erase of the boot flash start with the address and data of their registers when none
runs and the address is aligned for them, and are refused otherwise; when one is done, a read's 256 bytes stand in
TR_FL_DATA, an erased byte of a programmed page holds its data, an erased sector holds 0xFF, and no other byte has
changed. That an erased byte is 0xFF is PRESUMED (log entry 39). -/
def Obligations.FlashOperationsRunOneAtATime : Prop :=
  (∀ (s : State) (f : Func) (c : Instr) (op align : Nat),
    ((c = .flashRead f ∧ op = 1 ∧ align = 256) ∨ (c = .flashProgram f ∧ op = 2 ∧ align = 256) ∨
      (c = .flashErase f ∧ op = 3 ∧ align = 65536)) → mayWrite s f trustPage →
    answers c s fun t =>
      (s.trust.flashOp = none → s.rfld trustPage 0x300 0 27 % align = 0 →
        t.trust.flashOp = some (op, s.rfld trustPage 0x300 0 27,
          (List.range 64).flatMap fun i => natBytes 4 (s.reg trustPage (0x400 + 4 * i)).toNat)) ∧
      ((s.trust.flashOp.isSome = true ∨ s.rfld trustPage 0x300 0 27 % align ≠ 0) →
        t.trust.flashOp = s.trust.flashOp ∧ sameField .flash s t)) ∧
  (∀ (s : State) (op a : Nat) (data : List Byte), (s.phase = .service ∨ s.phase = .recovery) →
    s.trust.flashOp = some (op, a, data) →
    answers .flashDone s fun t => t.trust.flashOp = none ∧
      (op = 1 → sameField .flash s t ∧ ∀ i, i < 64 → t.reg trustPage (0x400 + 4 * i)
        = BitVec.ofNat 32 (bytesNat ((List.range 4).map fun j => s.atFlash (a + 4 * i + j)))) ∧
      (op = 2 → (∀ i, i < 256 → s.atFlash (a + i) = 0xFF → t.atFlash (a + i) = data.getD i 0) ∧
        ∀ x, (x < a ∨ a + 256 ≤ x) → t.atFlash x = s.atFlash x) ∧
      (op = 3 → (∀ i, i < 65536 → t.atFlash (a + i) = 0xFF) ∧
        ∀ x, (x < a ∨ a + 65536 ≤ x) → t.atFlash x = s.atFlash x))

/-! ## Arrays and quantisers (chapters 5 and 6) -/

/-- R91, R4: a read of either max-abs statistic of a profile returns it and leaves it 0, and no other register changes
but for what the scheduler does of its own. -/
def Obligations.MaxAbsStatisticsClearWhenRead : Prop :=
  ∀ (s : State) (f : Func) (a : Fin 32) (q : Fin 8) (c : Instr) (off : Nat),
    ((c = .qpMaxabsRead f a q ∧ off = 0x108 + 32 * q.val) ∨ (c = .qpHwMaxabsRead f a q ∧ off = 0x10C + 32 * q.val)) →
    mayRead s f (qntPage a.val) →
    answers c s fun t => t.out = .readData (natBytes 4 (s.reg (qntPage a.val) off).toNat) :: s.out ∧
      t.reg (qntPage a.val) off = 0 ∧
      sameRegs (fun p o => (p = qntPage a.val ∧ o = off) ∨ schedulerReacts p o) s t

/-- R100, R102, R112, R116: the sequencer of a loaded context reads its next descriptor, if its queue has room and no
step closed it, and puts it at the queue's end; a step of the cell grid or the element-wise unit that may issue
leaves the queue and is in flight with the results it computes, where no arrival waits (with one, the spec leaves open
which of its granules the step sees, R155), computed at the issue and stored at the completion (the model's choice, log
entry 51); when one that writes no record and is not the last
completes, its results stand in the scratchpad and its signal has been given; and a PHASE wait that is met takes its
count. -/
def Obligations.StepsAreFetchedIssuedAndCommitted : Prop :=
  (∀ (s : State) (a : Fin 32) (c va : Nat) (l : Leaf), s.phase = .service → s.liveCtx a.val = some c →
    (s.atArrays a.val).closed = false → (s.atArrays a.val).queue.length < 32 →
    va = (s.atArrays a.val).prog + 64 * (s.atArrays a.val).fetched → va % 65536 ≤ 65472 →
    standingLeaf s (s.seqClient a.val) (s.atCtxs c).asid va = some l → l.coding = .plain →
    permitted l (s.seqClient a.val) .fetch va 64 = true → s.lcHit (s.seqClient a.val) (leafAddr l va) 64 = none →
    (∀ b ∈ billetsOf (leafAddr l va) 64, steadyBillet s b = true) →
    answers (.tileStepFetch a) s fun t =>
      (t.atArrays a.val).fetched = (s.atArrays a.val).fetched + 1 ∧
      ∃ x : QStep, (t.atArrays a.val).queue = (s.atArrays a.val).queue ++ [x] ∧
        x.index = (s.atArrays a.val).fetched ∧ x.failed = false ∧
        x.desc = BitVec.ofNat 512 (bytesNat (s.contents (leafAddr l va) 64))) ∧
  (∀ (s : State) (a : Fin 32) (c : Nat) (q : QStep) (l : List QStep) (o : StepOut), s.phase = .service →
    s.liveCtx a.val = some c → (s.atCtxs c).state ≠ .dispatching → (s.atArrays a.val).phase ≠ .stopped →
    (s.atArrays a.val).queue = q :: l → q.failed = false → q.refused = none → tsOp q.desc ≠ 8 →
    ((s.atArrays a.val).flight = [] ∨ ∃ x, (s.atArrays a.val).flight = [x] ∧ tsCells x.step.desc = true ∧
      tsCells q.desc = true ∧ stepConflict s a.val x.step.desc q.desc = false) →
    stripGate s c = true → (s.atArrays a.val).stop = none → s.atCommits (qntPage a.val) = none →
    (s.atArrays a.val).fell = false → (s.rbit (arrPage a.val) 0x010 11 = true → 0 < (s.atArrays a.val).grant) →
    (tsGeo q.desc = true → checkGeometry s a.val q.desc (s.geo a.val q.desc) = none) →
    computeStep s a.val q.desc = .ok o → stepOverlaps s a.val q.desc = false → (s.atArrays a.val).arrivals = [] →
    answers (.stepIssue a none) s fun t => (t.atArrays a.val).queue = l ∧ (t.atArrays a.val).phase = .compute ∧
      (t.atArrays a.val).grant = (if s.rbit (arrPage a.val) 0x010 11 then (s.atArrays a.val).grant - 1 else 0) ∧
      ∃ y : InFlight, (t.atArrays a.val).flight = (s.atArrays a.val).flight ++ [y] ∧ y.step.index = q.index ∧
        y.step.desc = q.desc ∧ y.writes = o.writes ∧ y.waiting = false ∧ sameField .sp s t) ∧
  (∀ (s : State) (a : Fin 32) (c : Nat) (x : InFlight) (l : List InFlight), s.phase = .service →
    s.liveCtx a.val = some c → (s.atArrays a.val).flight = x :: l → x.waiting = false → tsCmpl x.step.desc = false →
    tsLast x.step.desc = false →
    answers (.stepComplete a) s fun t => (t.atArrays a.val).flight = l ∧
      t.sp = x.writes.foldl (fun m w => tblSet spDefault (spKey a.val w.1) w.2 m) s.sp ∧
      (tsOp x.step.desc ≠ 8 → tsSigOn x.step.desc = true → semUsable s c (tsSigSem x.step.desc) = true →
        t.sem (tsSigSem x.step.desc)
          = s.sem (tsSigSem x.step.desc) + BitVec.ofNat 32 (tsSigAdd x.step.desc))) ∧
  (∀ (s : State) (a : Fin 32) (c : Nat) (x : InFlight) (l : List InFlight), s.phase = .service →
    s.liveCtx a.val = some c → (s.atArrays a.val).flight = x :: l → x.waiting = true → tsOp x.step.desc = 8 →
    (s.atArrays a.val).stop = none → (s.atArrays a.val).fell = false → (s.atArrays a.val).phase ≠ .stopped →
    tsCmpl x.step.desc = false → tsLast x.step.desc = false →
    s.semReached (tsWaitSem x.step.desc) (BitVec.ofNat 32 (tsTake x.step.desc)) = true →
    semUsable s c (tsWaitSem x.step.desc) = true →
    answers (.phaseWaitMet a) s fun t => (t.atArrays a.val).flight = l ∧
      t.sem (tsWaitSem x.step.desc) = s.sem (tsWaitSem x.step.desc) - BitVec.ofNat 32 (tsTake x.step.desc))

/-- R113, R121: a stop request is remembered until the next kerf point, where the array stops and its kerf bit is
raised, a PHASE step that waits there left waiting; a refused step at the head of the queue is acted on first, and ends
the batch step with the array stopped; without a stop a pending profile commit applies there; and in single-step mode
each write of next lets one more step issue. -/
def Obligations.ArraysStopAtKerfPoints : Prop :=
  (∀ (s : State) (f : Func) (a : Fin 32) (c : Nat), mayWrite s f (arrPage a.val) → s.liveCtx a.val = some c →
    (s.atArrays a.val).stop = none → (s.atArrays a.val).phase ≠ .stopped →
    answers (.arrayStopRequest f a) s fun t => (t.atArrays a.val).stop.isSome = true ∧
      (t.atArrays a.val).phase = (s.atArrays a.val).phase ∧ (t.atArrays a.val).flight = (s.atArrays a.val).flight) ∧
  (∀ (s : State) (a : Fin 32) (c : Nat) (w : StopWhy), s.phase = .service → s.liveCtx a.val = some c →
    (s.atArrays a.val).stop = some w → (∀ x ∈ (s.atArrays a.val).flight, x.waiting = true) →
    ((s.atArrays a.val).flight = [] → ∀ q, (s.atArrays a.val).queue.head? = some q → q.refused = none) →
    answers (.kerfPoint a) s fun t => (t.atArrays a.val).phase = .stopped ∧ (t.atArrays a.val).stop = none ∧
      t.rbit (arrPage a.val) 0x018 13 = true) ∧
  (∀ (s : State) (a : Fin 32) (c : Nat) (w : StopWhy) (q : QStep) (l : List QStep) (code : Nat), s.phase = .service →
    s.liveCtx a.val = some c → (s.atArrays a.val).stop = some w → (s.atArrays a.val).flight = [] →
    (s.atArrays a.val).queue = q :: l → q.refused = some code →
    answers (.kerfPoint a) s fun t => (t.atArrays a.val).phase = .stopped ∧ (t.atArrays a.val).stop = none ∧
      (t.atArrays a.val).queue = [] ∧ (t.atArrays a.val).closed = true) ∧
  (∀ (s : State) (a : Fin 32) (v : CommitRec), s.phase = .service → (s.atArrays a.val).stop = none →
    (s.atArrays a.val).flight = [] ∨
      ((s.atArrays a.val).phase = .stopped ∧ ∀ x ∈ (s.atArrays a.val).flight, x.waiting = true) →
    s.atCommits (qntPage a.val) = some v →
    answers (.kerfPoint a) s fun t => t.atCommits (qntPage a.val) = none ∧ t.rfld (qntPage a.val) 0x034 0 2 = 2 ∧
      ∀ e ∈ shadowRegs (qntPage a.val), t.reg (qntPage a.val) e.1 &&& BitVec.ofNat 32 e.2
        = tblGet regReset (regAddr (qntPage a.val) e.1) v.snap &&& BitVec.ofNat 32 e.2) ∧
  (∀ (s : State) (a : Fin 32), mayWrite s 0 (arrPage a.val) → s.rbit (arrPage a.val) 0x010 11 = true →
    answers (.singleStepNext 0 a) s fun t => (t.atArrays a.val).grant = (s.atArrays a.val).grant + 1 ∧ sameField .regs s t)

/-- R114, R118, R119, R121: an overrun or a self-check failure of an array with a step in flight, and the PF's fell,
fell the array: it is marked felled in the binding table and in GL_FELLED, and its unit is withdrawn, unless its sequence
runs already or holds it (R56). In a transfer phase whose engines have tags out that a stop waits for, the PF's fell stops
the bound engines first (R120). -/
def Obligations.FelledArraysAreWithdrawn : Prop :=
  (∀ (s : State) (a : Fin 32) (c : Instr),
    ((c = .stepOverrun a ∧ s.phase = .service ∧ (s.atArrays a.val).flight ≠ []) ∨
      ((∃ k : SelfCheck, c = .arraySelfCheckFailure a k ∧ k.wf = true) ∧ s.phase = .service ∧
        (s.atArrays a.val).flight ≠ []) ∨
      (c = .arrayFell 0 a ∧ mayWrite s 0 (arrPage a.val) ∧ ((s.atArrays a.val).phase = .transfer →
        s.engStopped (2 * a.val) = true ∧ s.engStopped (2 * a.val + 1) = true))) →
    (s.unitAt (arrUnit a.val)).felled = false →
    answers c s fun t => (t.unitAt (arrUnit a.val)).felled = true ∧ t.rbit 0 0x308 a.val = true ∧
      ((s.unitAt (arrUnit a.val)).seq = none → (t.unitAt (arrUnit a.val)).state = .rebinding) ∧
      ((s.unitAt (arrUnit a.val)).seq.isSome = true →
        (s.unitAt (arrUnit a.val)).state = .rebinding ∨ (s.unitAt (arrUnit a.val)).state = .held →
        (t.unitAt (arrUnit a.val)).state = (s.unitAt (arrUnit a.val)).state)) ∧
  (∀ (s : State) (a : Fin 32), mayWrite s 0 (arrPage a.val) → (s.atArrays a.val).phase = .transfer →
    (s.engStopped (2 * a.val) && s.engStopped (2 * a.val + 1)) = false →
    (∀ k, k = 2 * a.val ∨ k = 2 * a.val + 1 → (s.atEngines k).resetting = false) →
    answers (.arrayFell 0 a) s fun t => (t.atArrays a.val).fell = true ∧
      t.unitAt (arrUnit a.val) = s.unitAt (arrUnit a.val) ∧
      ∀ k, k = 2 * a.val ∨ k = 2 * a.val + 1 → (t.atEngines k).stopping = true)

/-! ## Stream engines and semaphores (chapter 9) -/

/-- R179, R181, R185, R186, R187, R196: an active engine fetches the next descriptor of its list while fewer than four
wait (an address with low bits set is rounded down, a reading of R201, log entry 28); the first one fetched becomes
current if it passes its checks, a persistent one with seq 0 waiting armed; a pooled engine whose descriptor fails them
is refused; and the next unit of the current descriptor starts when fewer than 16 are in flight and its take is met,
which takes the count, and otherwise, while the semaphore is the owner's, no engine changes. -/
def Obligations.DescriptorsAreEnteredAndTheirUnitsTaken : Prop :=
  (∀ (s : State) (e : Fin 80) (va : Nat) (l : Leaf), s.phase = .service → engActive (s.atEngines e.val) = true →
    (s.atEngines e.val).fetchNext < s.rfld (engPage e.val) 0x108 0 16 → (s.atEngines e.val).fetched.length < 4 →
    (s.atEngines e.val).fetched.contains none = false →
    va = s.reg64 (engPage e.val) 0x100 % 2 ^ 48 / 64 * 64 + 64 * (s.atEngines e.val).fetchNext →
    standingLeaf s ⟨.listFetch e.val, s.engOwner e.val⟩ (s.atEngines e.val).asid va = some l → l.coding = .plain →
    permitted l ⟨.listFetch e.val, s.engOwner e.val⟩ .fetch va 64 = true →
    s.lcHit ⟨.listFetch e.val, s.engOwner e.val⟩ (leafAddr l va) 64 = none →
    (∀ b ∈ billetsOf (leafAddr l va) 64, steadyBillet s b = true) →
    answers (.streamListFetch e) s fun t => t.atEngines e.val = { s.atEngines e.val with
      fetched := (s.atEngines e.val).fetched ++ [some (BitVec.ofNat 512 (bytesNat (s.contents (leafAddr l va) 64)))],
      fetchNext := (s.atEngines e.val).fetchNext + 1 }) ∧
  (∀ (s : State) (e : Fin 80) (d : BitVec 512) (l : List (Option (BitVec 512))), s.phase = .service →
    engActive (s.atEngines e.val) = true → (s.atEngines e.val).cur = none → (s.atEngines e.val).fetched = some d :: l →
    checkDesc s e.val d = none → (s.atEngines e.val).pend = [] →
    answers (.descriptorCurrent e) s fun t => (t.atEngines e.val).state = .running ∧ (t.atEngines e.val).fetched = l ∧
      (t.atEngines e.val).cur = some {
        desc := d, index := (s.atEngines e.val).fetchNext - (s.atEngines e.val).fetched.length,
        started := !(sdPersist d && decide (sdSeq d = 0)) }) ∧
  (∀ (s : State) (e : Fin 80) (d : BitVec 512) (l : List (Option (BitVec 512))) (code : Nat), s.phase = .service →
    64 ≤ e.val → engActive (s.atEngines e.val) = true → (s.atEngines e.val).cur = none →
    (s.atEngines e.val).fetched = some d :: l → checkDesc s e.val d = some code →
    answers (.descriptorCurrent e) s fun t => t.atEngines e.val = { s.atEngines e.val with state := .refused }) ∧
  (∀ (s : State) (e : Fin 80) (p : EPass), s.phase = .service → engActive (s.atEngines e.val) = true →
    (s.atEngines e.val).cur = some p → (s.atEngines e.val).nxt = none → p.started = true → p.todo = [] →
    p.taken < sdUnits p.desc → p.taken - p.signalled < 16 → (s.atArrays (e.val / 2)).fell = false →
    (∀ c, s.engCtx e.val = some c → (s.atCtxs c).state ≠ .retiring) →
    (sdTake p.desc ≠ 0 → s.semBound (sdWaitSem p.desc) (s.engOwner e.val) = true) →
    (sdTake p.desc = 0 ∨ s.semReached (sdWaitSem p.desc) (BitVec.ofNat 32 (sdTake p.desc)) = true →
      answers (.unitTake e) s fun t =>
        (∃ q : EPass, (t.atEngines e.val).cur = some q ∧ q.desc = p.desc ∧ q.index = p.index ∧ q.taken = p.taken + 1 ∧
          q.signalled = p.signalled) ∧
        (sdTake p.desc ≠ 0 →
          t.sem (sdWaitSem p.desc) = s.sem (sdWaitSem p.desc) - BitVec.ofNat 32 (sdTake p.desc))) ∧
    (sdTake p.desc ≠ 0 → s.semReached (sdWaitSem p.desc) (BitVec.ofNat 32 (sdTake p.desc)) = false →
      answers (.unitTake e) s fun t => sameField .engines s t ∧ t.sem (sdWaitSem p.desc) = s.sem (sdWaitSem p.desc)))

/-- R176, R181, R194, R178: the data of a request, held already, sent by the host or read from the stack, is written to
the scratchpad in a transfer phase, and waits in the return buffer outside one; data bound for the stack or for the host
reaches it; and a host read that fails halts the engine, which is faulted when it was the last request, or idle where a
reset has waited for it. A request that has been answered busy waits for its retry and retires by nothing else (R353). -/
def Obligations.RequestsDeliverWaitOrFault : Prop :=
  (∀ (s : State) (e : Fin 80) (tag : Nat) (r : EReq) (d : BitVec 512) (bs host : List Byte), s.phase = .service →
    s.engReq e.val tag = some (r, d) → s.busyReq e.val tag = false → sourceBytes s e.val r d host bs → sdKind d true = 1 →
    commitPhase s e.val d = true → (s.atEngines e.val).shadow = none → (s.atArrays (e.val / 2)).arrivals = [] →
    answers (.requestRetire e tag (.done host)) s fun t =>
      ∀ i (h : i < bs.length),
        t.spByte (e.val / 2) (hOff (s.handle (e.val / 2) (sdHandle (sdBase d true))) r.dst + i) = bs[i]) ∧
  (∀ (s : State) (e : Fin 80) (tag : Nat) (r : EReq) (d : BitVec 512) (bs host : List Byte), s.phase = .service →
    s.engReq e.val tag = some (r, d) → s.busyReq e.val tag = false → sourceBytes s e.val r d host bs → r.data = none → sdKind d true = 1 →
    commitPhase s e.val d = false →
    answers (.requestRetire e tag (.done host)) s fun t =>
      sameField .sp s t ∧ (t.engReq e.val tag).map (fun x => x.1.data) = some (some bs)) ∧
  (∀ (s : State) (e : Fin 80) (tag : Nat) (r : EReq) (d : BitVec 512) (bs host : List Byte) (pa : Nat → Nat),
    s.phase = .service → s.engReq e.val tag = some (r, d) → s.busyReq e.val tag = false →
    sourceBytes s e.val r d host bs → sdKind d true = 0 →
    sdIsAdd d = false → (s.atEngines e.val).shadow = none →
    writesAt s (s.engClient e.val) (s.atEngines e.val).asid r.dst bs.length pa →
    answers (.requestRetire e tag (.done host)) s fun t => ∀ i (h : i < bs.length), t.content (pa i) = bs[i]) ∧
  (∀ (s : State) (e : Fin 80) (tag : Nat) (r : EReq) (d : BitVec 512) (bs host : List Byte), s.phase = .service →
    s.engReq e.val tag = some (r, d) → s.busyReq e.val tag = false → sourceBytes s e.val r d host bs → sdKind d true = 2 →
    answers (.requestRetire e tag (.done host)) s fun t =>
      sends (.hostWrite (s.engOwner e.val) (r.dst % 2 ^ 48 + 2 ^ 48 * s.rfld (engPage e.val) 0x10C 0 16) bs) s t) ∧
  (∀ (s : State) (e : Fin 80) (tag : Nat) (r : EReq) (d : BitVec 512), s.phase = .service →
    s.engReq e.val tag = some (r, d) → s.busyReq e.val tag = false → sdKind d false = 2 →
    (s.atArrays (e.val / 2)).fell = false →
    (∀ c, s.engCtx e.val = some c → (s.atCtxs c).state ≠ .retiring) → (s.atEngines e.val).stopping = false →
    (∀ x ∈ (s.atEngines e.val).reqs, x.tag = tag) →
    answers (.requestRetire e tag .hostError) s fun t => (t.atEngines e.val).reqs = [] ∧
      if (s.atEngines e.val).resetting = true then (t.atEngines e.val).state = .idle ∧
        (t.atEngines e.val).resetting = false
      else (t.atEngines e.val).state = .faulted ∧ (t.atEngines e.val).halting = false ∧
        t.rbit (engPage e.val) 0x018 8 = true) ∧
  (∀ (s : State) (e : Fin 80) (tag : Nat) (result : RequestResult), s.phase = .service → s.busyReq e.val tag = true →
    answers (.requestRetire e tag result) s fun t => t = s)

/-- R53, R185, R187, R195, R196, R201: a re-arm of the current persistent descriptor, with a later seq, starts its next
pass with the new bases if it waits armed, and is kept as its shadow if a pass of it is still going on; a start
takes an idle, unclaimed pooled engine to its list; a resume takes a faulted engine back to running, its faults
forgotten; a reset leaves a pooled engine with no request outstanding idle, and lets one with requests finish them;
and the orphaned tag of a host read goes back to the pool when it returns. -/
def Obligations.EnginesStartResumeResetAndRearm : Prop :=
  (∀ (s : State) (f : Func) (e : Fin 80) (ctl : Word) (p : EPass) (ra : Rearm), mayWrite s f (engPage e.val) →
    (s.atEngines e.val).cur = some p → fld ctl 8 16 = p.index → sdPersist p.desc = true →
    ra = ⟨s.reg64 (engPage e.val) 0x130 % 2 ^ 48, s.reg64 (engPage e.val) 0x138 % 2 ^ 48,
      s.rfld (engPage e.val) 0x140 0 24⟩ →
    seqAhead ra.seq (sdSeq p.desc) = true →
    (p.started = false → engActive (s.atEngines e.val) = true → checkRearmed s e.val (sdRearmed p.desc ra) = none →
      answers (.rearm f e ctl) s fun t => t.atEngines e.val = { s.atEngines e.val with
        cur := some { desc := sdRearmed p.desc ra, index := p.index, started := true }, shadow := none }) ∧
    (p.started = true →
      answers (.rearm f e ctl) s fun t => t.atEngines e.val = { s.atEngines e.val with shadow := some ra })) ∧
  (∀ (s : State) (f : Func) (q : Fin 16), mayWrite s f (engPage (64 + q.val)) →
    (s.atEngines (64 + q.val)).state = .idle → (s.atEngines (64 + q.val)).claimed = none →
    (s.atEngines (64 + q.val)).stopping = false → s.rfld (engPage (64 + q.val)) 0x108 0 16 ≠ 0 →
    answers (.engineStart f q) s fun t =>
      t.atEngines (64 + q.val) = { state := .loading, orphans := (s.atEngines (64 + q.val)).orphans }) ∧
  (∀ (s : State) (f : Func) (q : Fin 16), mayWrite s f (engPage (64 + q.val)) →
    (s.atEngines (64 + q.val)).state ≠ .idle →
    answers (.engineStart f q) s fun t => sameField .engines s t ∧
      t.rfld (engPage (64 + q.val)) 0x020 0 16 = 0x081E) ∧
  (∀ (s : State) (f : Func) (e : Fin 80), mayWrite s f (engPage e.val) → (s.atEngines e.val).state = .faulted →
    (s.atEngines e.val).stopping = false →
    (∀ p ∈ engPasses (s.atEngines e.val), sdRemote s.deviceNo p.desc = false) →
    answers (.engineResume f e) s fun t => (t.atEngines e.val).state = .running ∧ (t.atEngines e.val).faults = [] ∧
      (t.atEngines e.val).halting = false) ∧
  (∀ (s : State) (f : Func) (q : Fin 16), mayWrite s f (engPage (64 + q.val)) →
    answers (.engineReset f q) s fun t =>
      if (s.atEngines (64 + q.val)).reqs = [] then
        t.atEngines (64 + q.val) =
          { orphans := (s.atEngines (64 + q.val)).orphans, claimed := (s.atEngines (64 + q.val)).claimed }
      else (t.atEngines (64 + q.val)).resetting = true ∧
        (t.atEngines (64 + q.val)).reqs = (s.atEngines (64 + q.val)).reqs) ∧
  (∀ (s : State) (e : Fin 80) (tag : Nat), s.phase = .service →
    (∀ x ∈ s.remotes, (x.2.bind fun y => y.engine) ≠ some (e.val, tag)) →
    answers (.orphanedTagReturn e tag) s fun t =>
      (t.atEngines e.val).orphans = (s.atEngines e.val).orphans.filter fun x => decide (x ≠ tag))

/-- R189, R203: a set gives a semaphore the value written and an add adds to it, modulo 2^32; no other semaphore's value
changes. -/
def Obligations.SemaphoresAreSetAndAdded : Prop :=
  ∀ (s : State) (f : Func) (n : Fin 4096) (v : Word), mayWrite s f (semPage n.val) →
    (answers (.semaphoreSet f n v) s fun t => t.sem n.val = v ∧
      ∀ m : Fin 4096, m ≠ n → t.sem m.val = s.sem m.val) ∧
    (answers (.semaphoreAdd f n v) s fun t => t.sem n.val = s.sem n.val + v ∧
      ∀ m : Fin 4096, m ≠ n → t.sem m.val = s.sem m.val)

/-! ## Inbound windows and scratchpads (chapters 7 and 17) -/

/-- R156, R157, R361, R353: a write into an open scratchpad window joins the array's arrival queue if the handle takes it
and there is room, waits in the receive buffer if the queue is full, and behind frames that wait there still (a reading,
log entry 42), and changes no arrival when the window is not open; a write into an open stack window is accepted for its
virtual address; the oldest arrival of an array that is not held commits: every line of it that has not committed stands
in the scratchpad, no other byte changes, and its arrival semaphore, unless it has left its owner (a reading of R58, log
entry 54), has the granules added; the oldest accepted write of a
stack window reaches memory, with its granules added to WIN_SEM; and with each commit the write's completion goes out
(a reading, log entry 42). -/
def Obligations.ArrivalsAreAcceptedAndCommitted : Prop :=
  (∀ (s : State) (p : Fin 2) (frame : List Byte) (h : Header) (a n : Nat) (e : BitVec 128), arrives s p frame 1 →
    h = parseHeader frame → (s.atPorts p.val).heldBack = [] → fitsScratch s h (framePayload frame) a n e →
    answers (.windowWrite p frame) s fun t =>
      if arrivalRoom (s.atArrays a) (arrivalOfFrame p frame n e) = true then
        (t.atArrays a).arrivals = (s.atArrays a).arrivals ++ [arrivalOfFrame p frame n e] ∧
        t.atWindows h.window = { s.atWindows h.window with inFlight := (s.atWindows h.window).inFlight + h.len }
      else (t.atPorts p.val).heldBack = [frame] ∧ (t.atArrays a).arrivals = (s.atArrays a).arrivals ∧
        sameField .windows s t) ∧
  (∀ (s : State) (p : Fin 2) (frame f : List Byte) (l : List (List Byte)), arrives s p frame 1 →
    (s.atPorts p.val).heldBack = f :: l → stillWaits s p f →
    answers (.windowWrite p frame) s fun t => (t.atPorts p.val).heldBack = f :: (l ++ [frame]) ∧ sameField .windows s t) ∧
  (∀ (s : State) (p : Fin 2) (frame : List Byte) (h : Header) (l : Leaf) (va : Nat), arrives s p frame 1 →
    h = parseHeader frame → (s.atPorts p.val).heldBack = [] → windowOpen s h.window 3 h.src → s.winKind h.window = 1 →
    h.offset + h.last + 1 ≤ 65536 * s.rfld (winPage h.window) 0x10C 0 16 → h.first ≤ h.last → h.last < h.len →
    (s.atWindows h.window).inFlight + h.len ≤ 8192 →
    va = s.reg64 (winPage h.window) 0x104 % 2 ^ 48 + h.offset + h.first →
    rangeWritable s ⟨.window, (s.unitAt (winUnit h.window)).owner⟩ va (h.last + 1 - h.first) l →
    answers (.windowWrite p frame) s fun t => t.atWindows h.window = { s.atWindows h.window with
      queue := (s.atWindows h.window).queue ++
        [⟨va, sliceBytes (framePayload frame) h.first (h.last + 1 - h.first), h.len / 64, some p.val,
          some (frame.take 28)⟩],
      inFlight := (s.atWindows h.window).inFlight + h.len }) ∧
  (∀ (s : State) (p : Fin 2) (frame : List Byte) (h : Header), arrives s p frame 1 → h = parseHeader frame →
    (s.atPorts p.val).heldBack = [] → ¬ windowOpen s h.window 3 h.src →
    answers (.windowWrite p frame) s fun t => t.rfld (winPage h.window) 0x020 0 16 = 0x0D18 ∧
      (∀ w, (t.atWindows w).queue = (s.atWindows w).queue ∧ (t.atWindows w).inFlight = (s.atWindows w).inFlight) ∧
      ∀ a, (t.atArrays a).arrivals = (s.atArrays a).arrivals) ∧
  (∀ (s : State) (a : Fin 32) (v : Arrival) (l : List Arrival), s.phase = .service →
    (s.atArrays a.val).arrivals = v :: l → (s.unitAt (arrUnit a.val)).state ≠ .held →
    answers (.arrivalCommit a) s fun t =>
      (∀ i (h : i < v.data.length), v.landed.contains ((v.addr + i) / 128) = false →
        t.spByte a.val (v.addr + i) = v.data[i]) ∧
      (∀ k, (∀ i, i < v.data.length → v.landed.contains ((v.addr + i) / 128) = false → k ≠ spKey a.val (v.addr + i)) →
        tblGet spDefault k t.sp = tblGet spDefault k s.sp) ∧
      (hSemOn (s.handle a.val v.handle) = true →
        t.sem (hSem (s.handle a.val v.handle))
          = if s.semBound (hSem (s.handle a.val v.handle)) (s.unitAt (arrUnit a.val)).owner = true then
              s.sem (hSem (s.handle a.val v.handle)) + BitVec.ofNat 32 (v.data.length / 64)
            else s.sem (hSem (s.handle a.val v.handle))) ∧
      sendsReply v.reply s t ∧
      ((s.atPorts 0).heldBack = [] → (s.atPorts 1).heldBack = [] → (t.atArrays a.val).arrivals = l)) ∧
  (∀ (s : State) (w : Fin 64) (v : WinWrite) (l : List WinWrite) (p : Leaf), s.phase = .service →
    (s.atWindows w.val).queue = v :: l → v.data ≠ [] →
    standingLeaf s ⟨.window, (s.unitAt (winUnit w.val)).owner⟩ 0 v.va = some p → p.coding = .plain →
    permitted p ⟨.window, (s.unitAt (winUnit w.val)).owner⟩ .write v.va v.data.length = true →
    v.va % 65536 + v.data.length ≤ 65536 → leafAddr p v.va + v.data.length ≤ dataTop →
    leafAddr p v.va % 2048 + v.data.length < 2048 → s.atHeld (leafAddr p v.va / 2048) = none →
    (s.heldOf (channelOf (leafAddr p v.va / 2048))).length < 16 →
    answers (.windowWriteCommit w) s fun t =>
      (∀ i, i < v.data.length → t.content (leafAddr p v.va + i) = v.data.getD i 0) ∧
      (∀ x, (x < leafAddr p v.va ∨ leafAddr p v.va + v.data.length ≤ x) → t.content x = s.content x) ∧
      t.atWindows w.val = { s.atWindows w.val with
        queue := l, inFlight := (s.atWindows w.val).inFlight - 64 * v.granules } ∧
      (s.rbit (winPage w.val) 0x110 15 = true →
        s.semBound (s.rfld (winPage w.val) 0x110 0 12) (s.unitAt (winUnit w.val)).owner = true →
        t.sem (s.rfld (winPage w.val) 0x110 0 12)
          = s.sem (s.rfld (winPage w.val) 0x110 0 12) + BitVec.ofNat 32 v.granules) ∧
      sendsReply v.reply s t)

/-- R362, R353: a read of an open stack window is answered with the bytes of memory in their 64-byte blocks, whose bytes
not asked for are 0 (a reading, log entry 42), and a read of any other window with status refused and no data. -/
def Obligations.WindowReadsAreAnswered : Prop :=
  (∀ (s : State) (p : Fin 2) (frame : List Byte) (h : Header) (va n : Nat) (data bs : List Byte),
    arrives s p frame 2 → h = parseHeader frame → windowOpen s h.window 2 h.src → s.winKind h.window = 1 →
    h.offset + h.last + 1 ≤ 65536 * s.rfld (winPage h.window) 0x10C 0 16 → h.first ≤ h.last →
    va = s.reg64 (winPage h.window) 0x104 % 2 ^ 48 + h.offset + h.first → n = h.last + 1 - h.first →
    readsAs s ⟨.window, (s.unitAt (winUnit h.window)).owner⟩ 0 va data → data.length = n → s.route h.src = p.val + 1 →
    bs = (List.replicate h.first 0 ++ data ++ List.replicate 64 0).take
      ((h.first + n + 63) / 64 * 64) →
    portFree s p 2 (completionOf s h 0 bs) →
    answers (.windowReadRequest p frame) s fun t =>
      sends (.frame p (sealFrame (completionOf s h 0 bs) (s.atPorts p.val).sendSeq)) s t ∧ sameField .mem s t) ∧
  (∀ (s : State) (p : Fin 2) (frame : List Byte) (h : Header), arrives s p frame 2 → h = parseHeader frame →
    (¬ windowOpen s h.window 2 h.src ∨ s.winKind h.window ≠ 1) → s.route h.src = p.val + 1 →
    portFree s p 2 (completionOf s h 1 []) →
    answers (.windowReadRequest p frame) s fun t =>
      sends (.frame p (sealFrame (completionOf s h 1 []) (s.atPorts p.val).sendSeq)) s t ∧
      t.rfld (winPage h.window) 0x020 0 16 = 0x0D18)

/-- R158 to R161, R246, R251: a bank that holds no line of a valid handle and has nothing pending enters retention, one
in use does not, and a bank being woken is out of retention when its wake is done; the post-mortem window gives the PF
the word of a held unit's memory and everyone else 0, and a dump copies each memory chosen at its start to its place at
the address given there; when the scrub of a retiring context is done, the lines of its handles are zero, no handle and
no arrival is left, and the array holds no context. -/
def Obligations.ScratchpadsSleepShowAndScrub : Prop :=
  (∀ (s : State) (a : Fin 32) (m : SpMem) (b : Nat), s.phase = .service → b < memBanks m →
    s.bankOn a.val m b = true → s.rbit (spPage a.val) 0x10C 0 = false → (s.atArrays a.val).arrivals = [] →
    s.rfld (spPage a.val) 0x100 0 16 ≠ 0 →
    answers (.bankRetention a m b) s fun t =>
      t.bankOn a.val m b = ((s.validHandles a.val).any fun e => (handleBanks e.2).contains (m, b)) ∧
      ∀ m' b', b' < memBanks m' → (m', b') ≠ (m, b) → t.bankOn a.val m' b' = s.bankOn a.val m' b') ∧
  (∀ (s : State) (a : Fin 32) (m : SpMem) (b : Nat), s.phase = .service → b < memBanks m →
    (s.atArrays a.val).waking.contains (memCode m, b) = true →
    answers (.bankWakeDone a m b) s fun t => t.bankOn a.val m b = true ∧
      (t.atArrays a.val).waking = (s.atArrays a.val).waking.filter fun w => decide (w ≠ (memCode m, b))) ∧
  (∀ (s : State) (a : Fin 32) (word : Fin 512) (m : SpMem), mayRead s 0 (spPage a.val) →
    (s.unitAt (arrUnit a.val)).state = .held → memOf (s.rfld (spPage a.val) 0x110 0 2) = some m →
    128 * s.rfld (spPage a.val) 0x110 16 14 + 4 * word.val < 128 * memLines m →
    answers (.spPmwRead 0 a word false) s fun t =>
      t.out = .readData (s.spBytes a.val (spOff m (128 * s.rfld (spPage a.val) 0x110 16 14 + 4 * word.val)) 4) :: s.out ∧
      sameField .sp s t) ∧
  (∀ (s : State) (f : Func) (a : Fin 32) (word : Fin 512), mayRead s f (spPage a.val) →
    (f ≠ 0 ∨ (s.unitAt (arrUnit a.val)).state ≠ .held) →
    answers (.spPmwRead f a word false) s fun t => sends (.readData [0, 0, 0, 0]) s t ∧ sameField .sp s t) ∧
  (∀ (s : State) (a : Fin 32) (ctl : Word) (addr : Nat), s.phase = .service →
    s.rbit (spPage a.val) 0x11C 8 = false → addr = s.reg64 (spPage a.val) 0x114 % 2 ^ 35 → addr % 2 ^ 21 = 0 →
    addr + 0x480000 ≤ dataTop → (s.unitAt (arrUnit a.val)).state ≠ .rebinding →
    answers (.spDumpStart 0 a ctl) s fun t => t.rfld (spPage a.val) 0x11C 1 3 = fld ctl 1 3 ∧
      t.rbit (spPage a.val) 0x11C 8 = decide ((s.unitAt (arrUnit a.val)).state = .held) ∧
      ((s.unitAt (arrUnit a.val)).state = .held → (t.atArrays a.val).dump = some (addr, fld ctl 1 3)) ∧
      sameField .mem s t) ∧
  (∀ (s : State) (a : Fin 32) (m : SpMem) (addr which : Nat), s.phase = .service → s.rbit (spPage a.val) 0x11C 8 = true →
    (s.atArrays a.val).dump = some (addr, which) → which.testBit (memCode m) = true → addr % 2 ^ 21 = 0 → addr + 0x480000 ≤ dataTop →
    (∀ b, addr / 2048 ≤ b → b < (addr + 0x480000) / 2048 → s.atHeld b = none) →
    answers (.spDumpDone a 0) s fun t => t.rbit (spPage a.val) 0x11C 8 = false ∧
      t.rbit (spPage a.val) 0x018 11 = true ∧
      ∀ i, i < 128 * memLines m → t.content (addr + memCode m * 2 ^ 21 + i) = s.spByte a.val (spOff m i)) ∧
  (∀ (s : State) (c : Fin 2048), s.phase = .service → (s.atCtxs c.val).state = .retiring →
    (s.atCtxs c.val).scrubbing = true → (s.atCtxs c.val).array < 32 →
    (s.atArrays (s.atCtxs c.val).array).ctx = some c.val →
    answers (.contextScrubDone c) s fun t =>
      (t.atArrays (s.atCtxs c.val).array).ctx = none ∧ (t.atArrays (s.atCtxs c.val).array).arrivals = [] ∧
      t.validHandles (s.atCtxs c.val).array = [] ∧
      (∀ e ∈ s.validHandles (s.atCtxs c.val).array, ∀ i, i < hSize e.2 →
        t.spByte (s.atCtxs c.val).array (hOff e.2 i) = 0) ∧
      ∀ e, s.atEntries (s.atCtxs c.val).entry = some e →
        t.atEntries (s.atCtxs c.val).entry = none ∨ ∃ x, t.atEntries (s.atCtxs c.val).entry = some x ∧ x.state = .done ∧
          x.status = (s.atCtxs c.val).endStatus)

/-! ## The decode cluster (chapter 11) -/

/-- R226, R227: a configure with a good record loads it and leaves the context stopped; a start runs it from its
consumer index; a stop stops it at once unless a picture is in progress, which it then waits for; a flush stops it
when nothing is left in its ring, and else waits for what the ring holds; a query hands out the record and the
status; a reset empties it; and an op its state does not allow changes no context. -/
def Obligations.StreamContextJobsDoTheirOps : Prop :=
  (∀ (s : State) (f : Func) (n : Fin 8) (d : BitVec 1024) (given body : List Byte) (r : BitVec 512),
    readyStream s f n d 1 → bodyIs s f d given body → body.length = 64 → r = BitVec.ofNat 512 (bytesNat body) → recordOk s f r = true →
    s.boundTo ⟨.pipe, srPipe r⟩ f = true → s.outOfService ⟨.pipe, srPipe r⟩ = false →
    (((s.onPipe (srPipe r)).filter fun e => decide (e.1 ≠ jobTarget d)).map fun e => srLoad e.2.record).sum + srLoad r
      ≤ 2000000000 * 256 →
    answers (.contextConfigure f n d given) s fun t => t.atStreams (jobTarget d) =
        { s.atStreams (jobTarget d) with state := .stopped, record := r, refs := [], tainted := [] } ∧
      t.atJobs s.jobNext = none) ∧
  (∀ (s : State) (f : Func) (n : Fin 8) (d : BitVec 1024), readyStream s f n d 2 →
    answers (.contextStart f n d) s fun t => t.atStreams (jobTarget d) = { s.atStreams (jobTarget d) with
        state := .running, fetch := (s.atStreams (jobTarget d)).cons, units := [] } ∧ t.atJobs s.jobNext = none) ∧
  (∀ (s : State) (f : Func) (n : Fin 8) (d : BitVec 1024), readyStream s f n d 3 →
    answers (.contextStop f n d) s fun t =>
      if (s.atStreams (jobTarget d)).cur = none then (t.atStreams (jobTarget d)).state = .stopped ∧
        (t.atStreams (jobTarget d)).units = [] ∧
        (t.atStreams (jobTarget d)).fetch = (s.atStreams (jobTarget d)).cons ∧ t.atJobs s.jobNext = none
      else t.atStreams (jobTarget d) =
          { s.atStreams (jobTarget d) with
            stopping := true, jobs := (s.atStreams (jobTarget d)).jobs ++ [s.jobNext] } ∧
        (t.atJobs s.jobNext).isSome = true) ∧
  (∀ (s : State) (f : Func) (n : Fin 8) (d : BitVec 1024), readyStream s f n d 4 →
    answers (.contextFlush f n d) s fun t =>
      if (s.atStreams (jobTarget d)).cons = (s.atStreams (jobTarget d)).prod then
        (t.atStreams (jobTarget d)).state = .stopped ∧ t.atJobs s.jobNext = none
      else t.atStreams (jobTarget d) = { s.atStreams (jobTarget d) with
          flushTo := some (s.atStreams (jobTarget d)).prod,
          jobs := (s.atStreams (jobTarget d)).jobs ++ [s.jobNext] } ∧
        (t.atJobs s.jobNext).isSome = true) ∧
  (∀ (s : State) (f : Func) (n : Fin 8) (d : BitVec 1024), readyStream s f n d 5 → jobBodyHost d = true →
    answers (.contextQuery f n d) s fun t => sends (.hostWrite f (jobBodyAddr d)
        (natBytes 64 (s.atStreams (jobTarget d)).record.toNat ++ streamStatus s (jobTarget d))) s t ∧
      sameField .streams s t ∧ t.atJobs s.jobNext = none) ∧
  (∀ (s : State) (f : Func) (n : Fin 8) (d : BitVec 1024) (bs : List Byte) (pa : Nat → Nat), readyStream s f n d 5 →
    jobBodyHost d = false →
    bs = natBytes 64 (s.atStreams (jobTarget d)).record.toNat ++ streamStatus s (jobTarget d) →
    writesAt s ⟨.decoder, f⟩ 0 (jobBodyAddr d) bs.length pa →
    answers (.contextQuery f n d) s fun t => (∀ i, i < bs.length → t.content (pa i) = bs.getD i 0) ∧
      sameField .streams s t ∧ t.atJobs s.jobNext = none) ∧
  (∀ (s : State) (f : Func) (n : Fin 8) (d : BitVec 1024), readyStream s f n d 6 →
    answers (.contextReset f n d) s fun t => (t.atStreams (jobTarget d)).state = .unconfigured ∧
      (t.atStreams (jobTarget d)).record = 0 ∧ (t.atStreams (jobTarget d)).prod = 0 ∧
      (t.atStreams (jobTarget d)).cons = 0 ∧ (t.atStreams (jobTarget d)).units = [] ∧
      (t.atStreams (jobTarget d)).cur = none ∧ t.atJobs s.jobNext = none) ∧
  (∀ (s : State) (f : Func) (n : Fin 8) (d : BitVec 1024) (given : List Byte) (c : Instr) (op : Nat),
    ((c = .contextConfigure f n d given ∧ op = 1) ∨ (c = .contextStart f n d ∧ op = 2) ∨ (c = .contextStop f n d ∧ op = 3) ∨
      (c = .contextFlush f n d ∧ op = 4) ∨ (c = .contextReset f n d ∧ op = 6)) →
    readyJob s f n d 3 → streamRefusal s d = none → streamOp d = op →
    opAllowed op (s.atStreams (jobTarget d)).state = false →
    answers c s fun t => sameField .streams s t ∧ t.atJobs s.jobNext = none)

/-- R225, R228 to R231, R233: an access unit that is fetched joins the context's units; in resync one that is no IRAP is
dropped and consumed, and an IRAP ends the resync; a malformed entry is dropped; an idle pipe whose backlog is
within its threshold takes the front access unit of the only context that waits, into the lowest slot that is no
reference and not held, and a context whose new SPS is not supported is refused instead; a picture without damage is
written into its slot, its entry into the picture table, and its access unit is consumed, with the counts, the
references and the semaphore that follow, where the slots it uses read without a failure. -/
def Obligations.AccessUnitsBecomePictures : Prop :=
  (∀ (s : State) (c : Fin 1024) (entry : BitVec 256) (i : UnitInfo) (st : StreamSt), s.phase = .service →
    st = s.atStreams c.val → streamFetches s c.val = true → bit entry 89 = false →
    (fld entry 64 24 ≠ 0 ∧ fld entry 90 6 = 0 ∧ fld entry 96 32 = 0 ∧ fld entry 224 32 = 0 →
      (st.state = .running ∨ i.irap = true) → (∀ u ∈ st.units, u.dropped = false) →
      answers (.accessUnitFetch c entry (some i)) s fun t => (t.atStreams c.val).state = .running ∧
        (t.atStreams c.val).units = st.units ++
          [⟨fld entry 64 24, bit entry 88, BitVec.ofNat 64 (fld entry 128 64), fld entry 192 32, i, false⟩] ∧
        (t.atStreams c.val).fetch = (st.fetch + 1) % 2 ^ 32 ∧ (t.atStreams c.val).cons = st.cons) ∧
    (fld entry 64 24 ≠ 0 ∧ fld entry 90 6 = 0 ∧ fld entry 96 32 = 0 ∧ fld entry 224 32 = 0 →
      st.state = .resync → i.irap = false → st.units = [] → st.cur = none →
      answers (.accessUnitFetch c entry (some i)) s fun t => (t.atStreams c.val).units = [] ∧
        (t.atStreams c.val).cons = (st.cons + 1) % 2 ^ 32 ∧ (t.atStreams c.val).resyncs = st.resyncs + 1 ∧
        (t.atStreams c.val).frames = st.frames + 1 ∧ (t.atStreams c.val).gap = true) ∧
    ((fld entry 64 24 = 0 ∨ fld entry 90 6 ≠ 0 ∨ fld entry 96 32 ≠ 0 ∨ fld entry 224 32 ≠ 0) → st.units = [] →
      st.cur = none → st.state = .running ∨ st.state = .resync →
      answers (.accessUnitFetch c entry (some i)) s fun t => (t.atStreams c.val).units = [] ∧
        (t.atStreams c.val).cons = (st.cons + 1) % 2 ^ 32 ∧
        t.rfld (pipePage (srPipe st.record)) 0x020 0 16 = 0x041C)) ∧
  (∀ (s : State) (p : Fin 16) (now : Dword) (c : Fin 1024) (st : StreamSt) (u : AccessUnit) (l : List AccessUnit)
    (k va : Nat) (bs : List Byte), s.phase = .service → s.time ≤ now → (s.unitAt ⟨.pipe, p.val⟩).state = .bound →
    st = s.atStreams c.val → s.onPipe p.val = [(c.val, st)] → st.cur = none →
    (st.state = .running ∨ st.state = .resync) → st.stopping = false → st.units = u :: l →
    (s.unitAt (streamUnit c.val)).state = .bound →
    ({ s with time := now } : State).backlog p.val ≤ 1000000 * max 1 (s.rfld (pipePage p.val) 0x100 0 8) →
    k < srSlots st.record → (∀ j, j < k → st.refs.contains j = true) → st.refs.contains k = false →
    va = srTable st.record + 32 * k + 0x10 →
    readsAs s ⟨.decoder, (s.unitAt (streamUnit c.val)).owner⟩ 0 va bs → bs.length = 4 → signedOf (bytesNat bs) 32 ≤ 0 →
    answers (.pipeSelect p now) s fun t =>
      (u.info.sps.bind (spsRefusal st.record) = none →
        (t.atStreams c.val).cur = some ⟨k, u, st.frames + 1⟩ ∧ (t.atStreams c.val).units = st.units) ∧
      ∀ code, u.info.sps.bind (spsRefusal st.record) = some code →
        (t.atStreams c.val).state = .refused ∧ (t.atStreams c.val).cause = code % 256 ∧
          (t.atStreams c.val).units = [] ∧ (t.atStreams c.val).cur = none) ∧
  (∀ (s : State) (p : Fin 16) (pic : Picture) (c : Fin 1024) (st : StreamSt) (cur : Decoding) (u : AccessUnit)
    (l : List AccessUnit) (ps pt : Nat → Nat) (f : Func), s.phase = .service → st = s.atStreams c.val →
    s.onPipe p.val = [(c.val, st)] → st.cur = some cur → pic.damaged = [] → pic.causes = [] →
    (pic.uses.any fun k => st.tainted.contains k) = false →
    (∀ k ∈ pic.uses, ∃ bs, bs.length = srSlotSize st.record ∧
      readsAs s ⟨.decoder, f⟩ 0 (srPool st.record + k * srSlotSize st.record) bs) → st.units = u :: l →
    (∀ x, l.head? = some x → x.dropped = false) → u.eos = false → st.stopping = false → st.flushTo = none →
    f = (s.unitAt (streamUnit c.val)).owner →
    writesAt s ⟨.decoder, f⟩ 0 (srPool st.record + cur.slot * srSlotSize st.record) (srSlotSize st.record) ps →
    writesAt s ⟨.decoder, f⟩ 0 (srTable st.record + 32 * cur.slot) 32 pt →
    (∀ i j, i < srSlotSize st.record → j < 32 → ps i ≠ pt j) →
    answers (.pictureWritten p pic) s fun t =>
      (∃ x, ∀ i, i < srSlotSize st.record →
        t.content (ps i) = (pictureBytes st.record pic [] [] x).getD i 0) ∧
      (∀ i, i < 32 → t.content (pt i) =
        (tableEntry cur pic false st.gap (fld st.record 144 3) s.time).getD i 0) ∧
      (t.atStreams c.val).cur = none ∧ (t.atStreams c.val).units = l ∧
      (t.atStreams c.val).cons = (st.cons + 1) % 2 ^ 32 ∧ (t.atStreams c.val).frames = st.frames + 1 ∧
      (t.atStreams c.val).decoded = st.decoded + 1 ∧ (t.atStreams c.val).lastCapture = cur.unit.capture ∧
      (t.atStreams c.val).refs = (if pic.reference then [cur.slot] else []) ++ pic.refs ∧
      (bit st.record 335 = true → bit st.record 351 = false →
        t.sem (fld st.record 320 12) = s.sem (fld st.record 320 12) + 1))

/-! ## The scheduler and the ranger (chapter 12) -/

/-- R238 to R241: the entries of an accepted analytics job enter the table in their order, each with its body, those
after the first that wait for the one before them waiting; a registration puts its program into its lane, if the strip
budget of R293 allows it, and otherwise is over with the lanes as they were; and a job that fails a check adds none and
is over, with the error in the submitter's page. -/
def Obligations.BatchJobsEnterTheTable : Prop :=
  (∀ (s : State) (f : Func) (n : Fin 8) (d : BitVec 1024) (body : List Byte) (es : List (BitVec 512)),
    readyJob s f n d 1 → jobClass d = 0 → batchRefusal s f d = none → bjCop d = 0 →
    readsAs s (jobClient f) (bjAsid d) (jobBodyAddr d) body → body.length = jobBodyLen d → es = bodyEntries body →
    es.findSome? (entryRefusal s f 0) = none →
    answers (.batchJob f n d) s fun t => t.entryNext = s.entryNext + es.length ∧ (t.atJobs s.jobNext).isSome = true ∧
      ∀ i, i < es.length → ∃ x, t.atEntries (s.entryNext + i) = some x ∧ x.job = s.jobNext ∧ x.func = f ∧
        x.index = i ∧ x.body = es.getD i 0 ∧ x.deadline = jobDeadline d ∧
        (x.state = .waiting ↔ i ≠ 0 ∧ bodyAfter (es.getD i 0) = true)) ∧
  (∀ (s : State) (f : Func) (n : Fin 8) (d : BitVec 1024) (lane : Nat) (body : List Byte) (b : BitVec 512) (r : LaneRec),
    readyJob s f n d 1 → jobClass d = 1 → batchRefusal s f d = none → bjCop d = 0 → bjLane d = some lane →
    readsAs s (jobClient f) (bjAsid d) (jobBodyAddr d) body → body.length = 64 → b = BitVec.ofNat 512 (bytesNat body) →
    entryRefusal s f 1 b = none →
    r = { s.atLanes lane with
      full := some b, cop := none, asid := bjAsid d, ring := jobRing d, job := s.jobNext, jobRing := n.val,
      notBefore := jobNotBefore d } →
    answers (.batchJob f n d) s fun t => t.atJobs s.jobNext = none ∧
      if s.budgetOk (fun _ => []) (fun k => if k = lane then r else s.atLanes k) = true then
        t.atLanes lane = r ∧ ∀ k, k ≠ lane → t.atLanes k = s.atLanes k
      else sameField .lanes s t) ∧
  (∀ (s : State) (f : Func) (n : Fin 8) (d : BitVec 1024) (code : Nat), readyJob s f n d 1 →
    batchRefusal s f d = some code →
    answers (.batchJob f n d) s fun t => t.entryNext = s.entryNext ∧ t.atJobs s.jobNext = none ∧ sameField .lanes s t ∧
      (t.rfld (globalPage f) 0x020 0 16 = code ∨
        t.rfld (globalPage f) 0x020 0 16 = 0x0115))

/-- R244, R245, R58: after the ranger's pass (the model's moment for it, log entry 4) a free array takes the queue member
that can use it: an entry whose claims are still its owner's is given a free context, its handle map is loaded, and with
no bank to wake its sequencer starts in a transfer phase; one whose claims are not ends refused (a reading, log entry 54);
a saved context, and one a pre-emption has placed on the array and whose profiles still match, begins its restore. Which
free context an entry is given is the model's choice, the lowest (log entry 60). -/
def Obligations.FreeArraysTakeWork : Prop :=
  (∀ (s u : State) (a : Fin 32) (n c : Nat) (e0 e : EntryRec) (bs : List Byte) (map : List (Nat × BitVec 128)),
    s.phase = .service → (s.unitAt (arrUnit a.val)).state = .bound → (s.unitAt (arrUnit a.val)).felled = false →
    (s.unitAt (arrUnit a.val)).standing = false → (s.atArrays a.val).ctx = none → (s.atArrays a.val).reserved = none →
    s.rbit schedPage 0x010 8 = false → u = run rangePass s →
    u.takes a.val (s.unitAt (arrUnit a.val)).owner = some (.entry n) → u.atEntries n = some e0 → u.freeCtxNo = some c →
    e = rungBody u e0 → claimsBound u e.func (entryBody e) = true → readsAs u (jobClient e.func) e.asid (bodyHmap (entryBody e)) bs → bs.length = 1024 →
    map = mapOf bs →
    mapFailure u e.func map = none → (e.cls = 0 → 4096 + liveBytes map ≤ 1024 * bodySaveKib (entryBody e)) →
    sleepingBanks u a.val map = [] →
    answers (.dispatch a) s fun t => (t.atArrays a.val).ctx = some c ∧ (t.atArrays a.val).phase = .transfer ∧
      (t.atArrays a.val).prog = bodyProg (entryBody e) ∧ (t.atCtxs c).entry = n ∧ (t.atCtxs c).array = a.val ∧
      (∃ x, t.atEntries n = some x ∧ x.state = .running ∧ x.ctx = some c) ∧
      ∀ h : Fin 64, t.handle a.val h.val = ((map.map Prod.snd).getD h.val 0)) ∧
  (∀ (s u : State) (a : Fin 32) (n : Nat) (e : EntryRec), s.phase = .service →
    (s.unitAt (arrUnit a.val)).state = .bound → (s.unitAt (arrUnit a.val)).felled = false →
    (s.unitAt (arrUnit a.val)).standing = false → (s.atArrays a.val).ctx = none → (s.atArrays a.val).reserved = none →
    s.rbit schedPage 0x010 8 = false → u = run rangePass s →
    u.takes a.val (s.unitAt (arrUnit a.val)).owner = some (.entry n) → u.atEntries n = some e →
    claimsBound u e.func (entryBody (rungBody u e)) = false →
    answers (.dispatch a) s fun t => entryEnded t n 5) ∧
  (∀ (s u : State) (a : Fin 32) (c : Nat), s.phase = .service → (s.unitAt (arrUnit a.val)).state = .bound →
    (s.unitAt (arrUnit a.val)).felled = false → (s.atArrays a.val).ctx = none → s.rbit schedPage 0x010 8 = false →
    (s.atCtxs c).state = .saved → u = run rangePass s →
    (((s.atArrays a.val).reserved = some c ∧ u.canTake a.val (.saved c) = true) ∨ ((s.atArrays a.val).reserved = none ∧
      (s.unitAt (arrUnit a.val)).standing = false ∧
      u.takes a.val (s.unitAt (arrUnit a.val)).owner = some (.saved c))) →
    answers (.dispatch a) s fun t => (t.atArrays a.val).ctx = some c ∧ (t.atCtxs c).state = .restoring ∧
      (t.atCtxs c).array = a.val)

/-- R248 to R251, R257: a save whose image is written leaves the context saved and its array empty, with the lines of
each handle that is not transient in their places of the image (shown where none of the save area is held in the write
buffer, R210), and one whose reads fail ends its entry with status 4; a restore of a good image puts the handles, and
the lines of each that is not transient, back from their places in the image, and the sequencer in a transfer phase; the
tags still outstanding 150 µs after a fault are orphaned, and the scrub of the context begins unless its unit is to be
held or re-bound. -/
def Obligations.ContextsAreSavedRestoredAndTornDown : Prop :=
  (∀ (s : State) (c : Fin 2048) (r : CtxRec) (e : EntryRec) (l : Leaf) (va : Nat), s.phase = .service →
    r = s.atCtxs c.val → r.state = .saving → (∀ i ∈ ctxEngines r, (s.atEngines i).reqs = []) →
    s.atEntries r.entry = some e → va = bodySave (entryBody e) → va % 65536 = 0 →
    (∀ i, i < 65536 → standingLeaf s ⟨.restore, r.func⟩ r.asid (va + i) = some l) → 16 ≤ l.shift → l.coding = .plain → (∀ x n, permitted l ⟨.restore, r.func⟩ .write x n = true) →
    4096 + s.htLive r.array ≤ 65536 → leafAddr l va + 65536 ≤ dataTop → r.array < 32 →
    answers (.contextSaveDone c none) s fun t => (t.atCtxs c.val).state = .saved ∧
      (t.atCtxs c.val).generation = r.generation + 1 ∧ (t.atCtxs c.val).saved.isSome = true ∧
      (t.atArrays r.array).ctx = none ∧ t.validHandles r.array = [] ∧
      ((∀ i, i < 65536 → s.atHeld (leafAddr l (va + i) / 2048) = none) →
        ∀ pre h post, ((s.validHandles r.array).filter fun x => !hTransient x.2) = pre ++ h :: post →
          ∀ i, i < hSize h.2 → t.content (leafAddr l (va + 4096 + (pre.map fun x => hSize x.2).sum + i))
            = s.spByte r.array (hOff h.2 i))) ∧
  (∀ (s : State) (c : Fin 2048) (r : CtxRec) (e : EntryRec) (l : Leaf) (va : Nat) (p : SpMem × Nat),
    s.phase = .service → r = s.atCtxs c.val → r.state = .saving → (∀ i ∈ ctxEngines r, (s.atEngines i).reqs = []) →
    s.atEntries r.entry = some e → e.strip = none → va = bodySave (entryBody e) → va % 65536 = 0 →
    (∀ i, i < 65536 → standingLeaf s ⟨.restore, r.func⟩ r.asid (va + i) = some l) → 16 ≤ l.shift → l.coding = .plain →
    (∀ x n, permitted l ⟨.restore, r.func⟩ .write x n = true) → 4096 + s.htLive r.array ≤ 65536 →
    leafAddr l va + 65536 ≤ dataTop → r.array < 32 →
    (Instr.contextSaveDone c (some p)).wf = true →
    answers (.contextSaveDone c (some p)) s fun t => (t.atArrays r.array).ctx ≠ some c.val ∧
      entryEnded t r.entry 4 ∧ t.rbit schedPage 0x018 9 = true) ∧
  (∀ (s : State) (c : Fin 2048) (r : CtxRec) (v : SavedCtx) (e : EntryRec) (bs : List Byte)
    (map : List (Nat × BitVec 128)), s.phase = .service → r = s.atCtxs c.val →
    r.state = .restoring → r.saved = some v → s.atEntries r.entry = some e → r.array < 32 →
    readsAs s ⟨.restore, r.func⟩ r.asid v.image bs → bs.length = v.size →
    map = mapOf (sliceBytes bs 0x100 1024) → imageOk s r c.val bs = true → mapFailure s r.func map = none →
    bs.length = 4096 + liveBytes map → (s.atArrays r.array).arrivals = [] →
    answers (.contextRestoreDone c) s fun t => (t.atArrays r.array).ctx = some c.val ∧
      (t.atArrays r.array).phase = .transfer ∧ (t.atCtxs c.val).saved = none ∧
      (∀ k : Fin 64, t.handle r.array k.val = (map.map Prod.snd).getD k.val 0) ∧
      ∀ pre h post, (map.filter fun x => hValid x.2 && !hTransient x.2) = pre ++ h :: post →
        ∀ i, i < hSize h.2 → t.spByte r.array (hOff h.2 i)
          = bs.getD (4096 + (pre.map fun x => hSize x.2).sum + i) 0) ∧
  (∀ (s : State) (c : Fin 2048) (r : CtxRec), s.phase = .service → r = s.atCtxs c.val → r.state = .retiring →
    r.faulted = true → r.scrubbing = false →
    answers (.teardownOrphanTimeout c) s fun t =>
      (∀ i ∈ ctxEngines r, (t.atEngines i).reqs = [] ∧ ∀ x ∈ (s.atEngines i).reqs, x.tag ∈ (t.atEngines i).orphans) ∧
      ((s.unitAt (arrUnit r.array)).state ≠ .rebinding → s.rbit schedPage 0x100 1 = false →
        (∀ e, s.atEntries r.entry = some e → bit (entryBody e) 449 = false) →
        (t.atCtxs c.val).scrubbing = true))

/-- R252, R253, R255: a queued analytics entry that is projected past its deadline moves its full lane to coppice and
takes its coppice descriptor; entries without a deadline move no lane; an entry that waits past its deadline ends
with status 3; a host's write sets a lane's rung and force, if the lane and the rung exist; and a slowdown report,
when reports are on, begins the counts of both classes anew. -/
def Obligations.TheRangerMovesLanesAndCountsSlowdown : Prop :=
  (∀ (s u : State) (now : Dword) (n l : Nat) (e : EntryRec) (j : Job) (b : BitVec 512), s.phase = .service →
    s.time ≤ now → u = { s with time := now } → s.entries = [(n, some e)] → e.lane = some l → e.cls = 0 →
    e.deadline ≠ 0 → e.state = .queued → e.usesCop = false → e.cop = some b → (s.atLanes l).rung = 0 →
    (s.atLanes l).force = false → s.atJobs e.job = some j → bjCop j.desc ≠ 0 →
    projectsLate u e 0 ((List.range 32).filter fun a => s.serves a 0 e.func).length (bodyEst (entryBody e)) = true →
    answers (.rangerPeriod now) s fun t => (t.atLanes l).rung = 1 ∧
      ∃ x, t.atEntries n = some x ∧ x.usesCop = true ∧ x.rung = 1) ∧
  (∀ (s : State) (now : Dword), s.phase = .service → (∀ x ∈ s.entries, ∀ e, x.2 = some e → e.deadline = 0) →
    answers (.rangerPeriod now) s fun t => sameField .lanes s t) ∧
  (∀ (s : State) (now : Dword) (n : Nat) (e : EntryRec), s.phase = .service → s.time ≤ now →
    s.atEntries n = some e → e.cls = 0 → (e.state = .queued ∨ e.state = .waiting) → e.strip = none →
    e.deadline ≠ 0 → e.deadline ≤ now.toNat →
    answers (.rangerDeadline n now) s fun t => entryEnded t n 3 ∧ t.rfld schedPage 0x020 0 16 = 0x0919) ∧
  (∀ (s : State) (f : Func) (lane : Nat) (v : Word), mayWrite s f schedPage → lane < 2048 →
    answers (.rngLaneWrite f lane v) s fun t =>
      if fld v 0 2 = 3 ∨ 1088 ≤ lane then sameField .lanes s t ∧ t.rfld schedPage 0x020 0 16 = 0x091B
      else (t.atLanes lane).rung = fld v 0 2 ∧ (t.atLanes lane).force = bit v 2 ∧
        ∀ k, k ≠ lane → t.atLanes k = s.atLanes k) ∧
  (∀ (s : State) (now : Dword), s.phase = .service →
    answers (.slowdownReport now) s fun t =>
      if s.rfld schedPage 0x11C 0 16 = 0 then sameField .classCounts s t
      else t.atClassCounts 0 = {} ∧ t.atClassCounts 1 = {} ∧ t.rbit schedPage 0x018 11 = true)

/-! ## The timebase and timed actions (chapter 13) -/

/-- R264: while PTM is off, TB_SET sets device time once per power-on, to no smaller a value; a write refused for either
reason records cause 0x15 and changes nothing else. (While setting 0x04 names an output, R379 locks TB_SET_CTL, whose
write R4 and R36 then ignore with cause 0x02.) -/
def Obligations.DeviceTimeIsSetOncePerPowerOn : Prop :=
  ∀ s : State, mayWrite s 0 tbPage → s.evLockedAny = false → s.rbit tbPage 0x100 0 = false →
    (s.tb.setUsed = false → s.time.toNat ≤ s.reg64 tbPage 0x10C →
      answers (.tbSet 0) s fun t => t.time.toNat = s.reg64 tbPage 0x10C ∧ t.tb = { s.tb with setUsed := true } ∧
        sameField .regs s t) ∧
    ((s.tb.setUsed = true ∨ s.reg64 tbPage 0x10C < s.time.toNat) →
      answers (.tbSet 0) s fun t => t.rfld tbPage 0x020 0 16 = 0x0A15 ∧
        (∀ x ∈ touches (.tbSet 0), x ≠ .regs → x ≠ .rings → x ≠ .free → x ≠ .out → sameField x s t) ∧
        sameRegs (fun p o => p ≠ tbPage ∨ (0x018 ≤ o ∧ o < 0x02C)) s t)

/-- R263, R266 to R269, R409: the first PTM dialogue that succeeds steps device time forward to the master's and aligns
the device; one that finds it more than a microsecond off, or behind, leaves device time to slewing; the third that
fails in a row leaves it unaligned; a positive crossing with a period from 45 to 66 Hz enters the history and the mean,
and the fourth in a row locks; a period outside counts as a missing crossing; a falling edge far from the half cycle is
an asymmetry; a crossing that stays away puts the measurement into holding; and a fall of PFW_N records the moment and
blocks the keep store's commits until it has stayed high for rearm_ms, which a device held in power-on reset ignores.
That the step aligns the device at once, and the mean in whole numbers, rounded down and over the periods there are, are
readings (log entry 30). -/
def Obligations.TimeAndTheMainsAreTracked : Prop :=
  (∀ (s : State) (now m : Dword), s.phase = .service → s.rbit tbPage 0x100 0 = true → s.time ≤ now →
    answers (.ptmDialogue now (some m)) s fun t => t.tb = { s.tb with ptmFirst := true, ptmFails := 0 } ∧
      t.reg tbPage 0x108 = BitVec.ofNat 32 (satOffset ((m.toNat : Int) - now.toNat)) ∧
      (s.tb.ptmFirst = false → now ≤ m → t.time = m ∧ t.rfld tbPage 0x104 0 2 = 2) ∧
      ((s.tb.ptmFirst = true ∨ m < now) → t.time = now ∧ t.rfld tbPage 0x104 0 2 =
        if m.toNat ≤ now.toNat + 1000 ∧ now.toNat ≤ m.toNat + 1000 then 2 else 3)) ∧
  (∀ (s : State) (now : Dword), s.phase = .service → s.rbit tbPage 0x100 0 = true →
    answers (.ptmDialogue now none) s fun t => t.tb = { s.tb with ptmFails := s.tb.ptmFails + 1 } ∧
      t.rfld tbPage 0x104 0 2 = if 2 ≤ s.tb.ptmFails then 3 else s.rfld tbPage 0x104 0 2) ∧
  (∀ (s : State) (now : Dword) (m : Option Dword), s.phase = .service → s.rbit tbPage 0x100 0 = false →
    answers (.ptmDialogue now m) s fun t => t = s) ∧
  (∀ (s : State) (now e : Dword) (p : Nat), s.phase = .service → s.mainsOn = true → s.time ≤ now →
    s.tb.lastEdge = some e → p = now.toNat - e.toNat → 10 ^ 9 ≤ 66 * p → 45 * p ≤ 10 ^ 9 →
    answers (.mainsPositiveCrossing now) s fun t => t.time = now ∧ t.tb.lastEdge = some now ∧ t.tb.cross = some now ∧
      t.tb.periods = (p :: s.tb.periods).take 8 ∧ t.tb.streak = s.tb.streak + 1 ∧ t.tb.missed = false ∧
      t.reg tbPage 0x130 = s.reg tbPage 0x130 + 1 ∧ t.tb.hist = (now.toNat :: s.tb.hist).take 256 ∧
      t.reg64 tbPage (0x400 + 8 * ((s.reg tbPage 0x130).toNat % 256)) = now.toNat ∧
      t.reg tbPage 0x128 =
        BitVec.ofNat 32 (10 ^ 12 * ((p :: s.tb.periods).take 8).length / ((p :: s.tb.periods).take 8).sum) ∧
      (3 ≤ s.tb.streak → t.mainsState = 2)) ∧
  (∀ (s : State) (now e : Dword) (p : Nat), s.phase = .service → s.mainsOn = true → s.time ≤ now →
    s.tb.lastEdge = some e → p = now.toNat - e.toNat → (66 * p < 10 ^ 9 ∨ 10 ^ 9 < 45 * p) →
    answers (.mainsPositiveCrossing now) s fun t => t.tb.lastEdge = some now ∧ t.tb.cross = s.tb.cross ∧
      t.tb.periods = s.tb.periods ∧ t.tb.streak = 0 ∧ t.mainsState = 3 ∧ t.rbit tbPage 0x124 8 = true ∧
      t.reg tbPage 0x130 = s.reg tbPage 0x130 ∧ t.rfld tbPage 0x020 0 16 = 0x0A17) ∧
  (∀ (s : State) (now : Dword), s.phase = .service → s.mainsOn = true → s.time ≤ now → s.meanPeriod.1 ≠ 0 →
    answers (.mainsNegativeCrossing now) s fun t => t.rbit tbPage 0x124 11 =
      (s.rbit tbPage 0x124 11 || decide (s.rfld tbPage 0x120 0 16 < angleGap (s.angle now.toNat) 32768))) ∧
  (∀ (s : State) (now e : Dword), s.phase = .service → s.mainsOn = true → s.time ≤ now → s.tb.missed = false →
    s.tb.lastEdge = some e → 5 * s.meanPeriod.1 ≤ 4 * s.meanPeriod.2 * (now.toNat - e.toNat) →
    answers (.mainsMissingCrossing now) s fun t => t.mainsState = 3 ∧ t.tb.missed = true ∧ t.tb.streak = 0 ∧
      t.rbit tbPage 0x124 8 = true ∧ t.tb.periods = s.tb.periods ∧ t.tb.cross = s.tb.cross) ∧
  (∀ (s : State) (now : Dword), s.phase ≠ .held → s.rbit tbPage 0x140 0 = false → s.time ≤ now →
    answers (.pfwFall now) s fun t => t.rbit tbPage 0x140 0 = true ∧ t.rbit tbPage 0x140 1 = true ∧
      t.rfld tbPage 0x140 16 16 = s.angle now.toNat ∧ t.reg64 tbPage 0x148 = now.toNat ∧ t.tb.fellAt = now ∧
      t.tb.pfwBlock = true) ∧
  (∀ (s : State) (now : Dword), s.phase ≠ .held → s.rbit tbPage 0x140 0 = true →
    answers (.pfwRise now) s fun t => t.rbit tbPage 0x140 0 = false ∧
      t.rbit tbPage 0x140 1 = s.rbit tbPage 0x140 1 ∧ t.tb = { s.tb with roseAt := now }) ∧
  (∀ (s : State) (now : Dword), s.phase ≠ .held → s.rbit tbPage 0x140 0 = false →
    answers (.pfwRearm now) s fun t => t.tb.pfwBlock =
      (s.tb.pfwBlock && !decide (s.tb.roseAt.toNat + 10 ^ 6 * s.rfld tbPage 0x144 0 16 ≤ now.toNat))) ∧
  (∀ (s : State) (now : Dword) (c : Instr), s.phase = .held →
    (c = .pfwFall now ∨ c = .pfwRise now ∨ c = .pfwRearm now) → answers c s fun t => t = s)

/-- R271 to R273, R276, R277: an entry whose control word passes the checks is armed with it and shows a fresh status;
one that fails is off and records the cause with the entry's number; trig 0 disarms; a read of the status returns it
and clears held and late; a timed action that is due signals, counted, and is off afterwards if it fires once;
writes its event, counted; takes its snapshot; or puts a quantiser page's set to its commit point; and one that is
not armed changes no register. That a failed arming leaves trig 0 (log entry 48), and that one that is not armed changes
nothing (log entry 40), are the model's choices. -/
def Obligations.TimedActionsArmDisarmAndAct : Prop :=
  (∀ (s : State) (f : Func) (n : Fin 256) (c : Word), mayWrite s f (taPage n.val) → fld c 0 2 ≠ 0 →
    (taRefusal s n.val c = none → ¬ (fld c 0 2 = 3 ∧ s.taTime n.val < s.time.toNat) →
      answers (.taArm f n c) s fun t => t.reg (taPage n.val) (taOff n.val) = c ∧
        t.reg (taPage n.val) (taStatOff n.val) = 1) ∧
    (∀ code, taRefusal s n.val c = some code →
      answers (.taArm f n c) s fun t => t.taArmed n.val = false ∧ t.taCtl n.val 0 2 = 0 ∧
        t.rfld (taPage n.val) 0x020 0 16 = code ∧ t.reg (taPage n.val) 0x024 = BitVec.ofNat 32 n.val)) ∧
  (∀ (s : State) (f : Func) (n : Fin 256) (c : Word), mayWrite s f (taPage n.val) →
    answers (.taDisarm f n c) s fun t => t.taArmed n.val = false ∧ t.taCtl n.val 0 2 = 0 ∧
      sameRegs (fun p o => p = taPage n.val ∧ (o = taOff n.val ∨ o = taStatOff n.val)) s t) ∧
  (∀ (s : State) (f : Func) (n : Fin 256), mayRead s f (taPage n.val) →
    answers (.taStatRead f n) s fun t =>
      t.out = .readData (natBytes 4 ((s.reg (taPage n.val) (taStatOff n.val)).toNat + 2 * b2n (s.taUnreach n.val)))
        :: s.out ∧
      t.rfld (taPage n.val) (taStatOff n.val) 2 2 = 0 ∧
      sameRegs (fun p o => p = taPage n.val ∧ o = taStatOff n.val) s t) ∧
  (∀ (s : State) (n : Fin 256) (now : Dword), dueAction s n now 2 →
    s.semBound (s.taArg n.val 0 12) (s.taFunc n.val) = true →
    answers (.taFireSignal n now) s fun t =>
      t.sem (s.taArg n.val 0 12) = s.sem (s.taArg n.val 0 12) + BitVec.ofNat 32 (s.taArg n.val 16 16) ∧
      t.rfld (taPage n.val) (taStatOff n.val) 16 16
        = min 0xFFFF (s.rfld (taPage n.val) (taStatOff n.val) 16 16 + 1) ∧
      t.taArmed n.val = (!s.rbit (taPage n.val) (taOff n.val) 4 && decide (s.taCtl n.val 0 2 ≠ 3))) ∧
  (∀ (s : State) (n : Fin 256) (now : Dword) (f : Func), dueAction s n now 3 → f = s.taFunc n.val →
    evrOn s f 0 = true → evrFull s f 0 = false →
    answers (.taFireEvent n now) s fun t =>
      t.reg (globalPage f) (evrOff 0 + 16) = s.reg (globalPage f) (evrOff 0 + 16) + 1 ∧
      t.rfld (taPage n.val) (taStatOff n.val) 16 16
        = min 0xFFFF (s.rfld (taPage n.val) (taStatOff n.val) 16 16 + 1)) ∧
  (∀ (s : State) (n : Fin 256) (now : Dword) (off : Nat), dueAction s n now 4 →
    off = 0x200 + 32 * s.taArg n.val 0 4 →
    answers (.taFireSnapshot n now) s fun t => t.reg64 tbPage off = now.toNat ∧
      t.reg tbPage (off + 8) = BitVec.ofNat 32 (s.angle now.toNat) ∧
      t.reg tbPage (off + 0xC) = s.reg tbPage 0x128 ∧ t.reg tbPage (off + 0x18) = s.reg tbPage 0x130 ∧
      t.reg tbPage (off + 0x1C) = s.reg tbPage (off + 0x1C) + 1) ∧
  (∀ (s : State) (n : Fin 256) (now : Dword) (a : Fin 32), dueAction s n now 1 →
    s.taArg n.val 0 12 = qntPage a.val → mayWrite s (s.taFunc n.val) (qntPage a.val) →
    s.pageState (qntPage a.val) = .bound → s.atCommits (qntPage a.val) = none →
    commitRefusal s (qntPage a.val) (s.pageSnap (qntPage a.val)) = none →
    answers (.taFireCommit n now) s fun t =>
      t.atCommits (qntPage a.val) = some ⟨BitVec.ofNat 24 n.val, s.pageSnap (qntPage a.val)⟩ ∧
      t.rfld (qntPage a.val) 0x034 0 2 = 1) ∧
  (∀ (s : State) (n : Fin 256) (now : Dword) (c : Instr),
    (c = .taFireCommit n now ∨ c = .taFireSignal n now ∨ c = .taFireEvent n now ∨ c = .taFireSnapshot n now) →
    s.taArmed n.val = false → answers c s fun t => sameField .regs s t ∧ sameField .commits s t ∧ t.out = s.out)

/-! ## The raster pipeline and the display (chapters 14 and 15) -/

/-- R310, R312, R313: a go on a page of an output copies and validates the group's shadows: a set that is refused
settles at once with its code; a good one becomes pending on an output that scans, and comes to its latch at once on one
that does not; a go while a set is pending is ignored with common cause 0x01; at the cut-off line a pending set comes to
its latch; and at the latch a set is taken without the blocks of graphic slots whose fence has not come, or, if it asks
for all of its blocks or none, deferred instead, or refused where a semaphore it would wait for has left its owner
(R427; the code is a reading, log entry 54). An output that does not scan and is to be enabled holds the set until its
PLL locks, and one that stays off applies it; that its set comes to its latch at once is a reading (log entry 33). -/
def Obligations.GroupCommitsPendAndLatch : Prop :=
  (∀ (s u : State) (f : Func) (page : Nat) (o : Fin 4) (seq : BitVec 24), mayWrite s f page → outOfPage page = some o.val →
    u = run (setRegN page 0x030 (256 * seq.toNat)) s →
    ((s.atOuts o.val).pend.isSome = true ∨ (s.atOuts o.val).latched.isSome = true →
      answers (.displayGroupCommit f page seq) s fun t => sameField .outs s t ∧ t.rfld page 0x020 0 16 = 0x0B01) ∧
    ((s.atOuts o.val).pend = none → (s.atOuts o.val).latched = none →
      (∀ code, groupRefusal u (u.groupSnap o.val) o.val = some code →
        answers (.displayGroupCommit f page seq) s fun t => sameField .outs s t ∧
          ∀ p ∈ outPages o.val, t.rfld p 0x034 0 2 = 3 ∧ t.rfld p 0x034 16 16 = code % 65536) ∧
      (groupRefusal u (u.groupSnap o.val) o.val = none → s.scanning o.val = true →
        answers (.displayGroupCommit f page seq) s fun t =>
          (∃ g, (t.atOuts o.val).pend = some g ∧ g.seq = seq ∧ g.snap = u.groupSnap o.val ∧ g.deferred = false ∧
            g.late = decide (u.cutLine [] o.val ≤ (u.lineOf o.val : Int))) ∧
          ∀ p ∈ outPages o.val, t.rfld p 0x034 0 2 = 1) ∧
      (∀ (g : GroupCommit) (l : List Nat), groupRefusal u (u.groupSnap o.val) o.val = none → s.scanning o.val = false →
        g = { seq := seq, snap := u.groupSnap o.val, aon := u.rbit (compPage o.val) 0x010 8, late := false,
              deferred := false, since := u.frameOf o.val, pages := groupPages o.val (u.groupSnap o.val) } →
        l = notReady u g →
        (g.aon = true → l ≠ [] → (∀ i ∈ l, u.fenceBound g i = true) →
          answers (.displayGroupCommit f page seq) s fun t =>
            (t.atOuts o.val).pend = some { g with deferred := true } ∧ (t.atOuts o.val).latched = none ∧
            ∀ p ∈ outPages o.val, t.rfld p 0x034 0 2 = 1) ∧
        ((g.aon = false ∨ l = []) → answers (.displayGroupCommit f page seq) s fun t =>
          (t.atOuts o.val).pend = none ∧
          if u.outOn (dropBlocks g.snap l) o.val = true then (t.atOuts o.val).gap = true ∧
            (t.atOuts o.val).latched = some { g with snap := dropBlocks g.snap l, stale := slotMask l }
          else (t.atOuts o.val).latched = none ∧
            ∀ p ∈ outPages o.val, t.rfld p 0x034 0 2 = 2 ∧ t.rfld p 0x034 8 8 = seq.toNat % 256)))) ∧
  (∀ (s u : State) (o : Fin 4) (now : Dword) (g : GroupCommit) (l : List Nat), s.phase = .service → s.time ≤ now →
    u = { s with time := now } → (u.atOuts o.val).pend = some g → u.scanning o.val = true →
    (u.lineOf o.val : Int) = u.cutLine [] o.val → sub32 (u.frameOf o.val) g.since < 2 ^ 31 →
    l = notReady u g →
    (g.aon = true → l ≠ [] → (∀ i ∈ l, u.fenceBound g i = true) → answers (.commitLatch o now) s fun t =>
      (t.atOuts o.val).pend = some { g with deferred := true } ∧
      (t.atOuts o.val).latched = (s.atOuts o.val).latched) ∧
    (g.aon = true → (∃ i ∈ l, u.fenceBound g i = false) → displaySet g → answers (.commitLatch o now) s fun t =>
      (t.atOuts o.val).pend = none ∧ (t.atOuts o.val).latched = (s.atOuts o.val).latched ∧
      ∀ p ∈ g.pages, t.rfld p 0x034 0 2 = 3 ∧ t.rfld p 0x034 16 16 = 0x0B18) ∧
    ((g.aon = false ∨ l = []) → answers (.commitLatch o now) s fun t => (t.atOuts o.val).pend = none ∧
      (t.atOuts o.val).latched = some { g with snap := dropBlocks g.snap l, stale := slotMask l }))

/-- R270, R299, R312: after its last line a frame starts at line 0 with the next frame number and its time, and a
latched set applies whole, with every register of its layers, composition, evidence, timing and floor scaler, and its
PG_COMMIT_STAT reads applied; a set that retimes the output holds it in a gap instead, which the lock of its PLL ends
with line 0 of the next frame; the timing generator's next line becomes the output's line; an active line without
layers, check rectangles or writeback is sent as the background, and a blank line behind which none of the next frame is
fetched yet sends nothing. A frame has its vertical total's lines, and those that panel sync moves its pulse by (R304). -/
def Obligations.FramesAndLinesAreScannedOut : Prop :=
  (∀ (s u : State) (o : Fin 4) (now : Dword), s.phase = .service → s.time ≤ now → u = { s with time := now } →
    u.scanning o.val = true → (s.atOuts o.val).next = u.frameTotal o.val → u.gapNext o.val = false →
    (∀ g, (s.atOuts o.val).latched = some g → displaySet g) →
    answers (.frameStart o now) s fun t => t.frameOf o.val = (s.frameOf o.val + 1) % 2 ^ 32 ∧ t.lineOf o.val = 0 ∧
      t.t0Of o.val = now.toNat ∧ (t.atOuts o.val).next = 0 ∧ (t.atOuts o.val).latched = none ∧
      ∀ g, (s.atOuts o.val).latched = some g → (g.snap.map Prod.fst).Nodup → setStands o.val g s t) ∧
  (∀ (s u : State) (o : Fin 4) (now : Dword) (g : GroupCommit), s.phase = .service → s.time ≤ now →
    u = { s with time := now } → u.scanning o.val = true → (s.atOuts o.val).next = u.frameTotal o.val →
    u.gapNext o.val = true → (s.atOuts o.val).latched = some g → u.outOn g.snap o.val = true →
    answers (.frameStart o now) s fun t => (t.atOuts o.val).gap = true ∧ t.scanning o.val = false ∧
      (t.atOuts o.val).latched = some g) ∧
  (∀ (s : State) (o : Fin 4) (now : Dword), s.phase = .service → s.time ≤ now → (s.atOuts o.val).gap = true →
    (∀ g, (s.atOuts o.val).latched = some g → displaySet g) →
    answers (.displayPllLocked o now) s fun t => (t.atOuts o.val).gap = false ∧ t.scanning o.val = true ∧
      t.frameOf o.val = (s.frameOf o.val + 1) % 2 ^ 32 ∧ t.lineOf o.val = 0 ∧ t.t0Of o.val = now.toNat ∧
      (t.atOuts o.val).latched = none ∧
      ∀ g, (s.atOuts o.val).latched = some g → (g.snap.map Prod.fst).Nodup → setStands o.val g s t) ∧
  (∀ (s u : State) (o : Fin 4) (line : Nat) (now : Dword), s.phase = .service → line < 4096 → s.time ≤ now →
    u = { s with time := now } → u.scanning o.val = true → line = (s.atOuts o.val).next →
    line < u.frameTotal o.val →
    (∀ under, answers (.outputLine o line now under) s fun t => (t.atOuts o.val).next = line + 1 ∧
      t.lineOf o.val = line) ∧
    (u.vActive [] o.val < line → line + 2 < u.frameTotal o.val →
      answers (.outputLine o line now []) s fun t => t.out = s.out) ∧
    (line < u.vActive [] o.val → u.videoOn [] o.val = [] → u.graphicOn [] o.val = [] → u.flatState o.val = 0 →
      (∀ r, r < 16 → u.rectOn o.val r = false) → (s.atOuts o.val).wb = none → line + 1 < u.vActive [] o.val →
      line + 2 < u.frameTotal o.val → line ≠ (u.stripLines [] o.val (line / 16)).2 →
      answers (.outputLine o line now []) s fun t => t.lineOf o.val = line ∧
        t.out = .line o line (List.replicate (u.hActive [] o.val)
          (sentWord (decide (u.vf [] (linkPage o.val) 0x114 1 1 = 1))
            (finish (rgbOf (s.reg (compPage o.val) 0x100).toNat) ((0, 0, 0), 0)))) :: s.out))

/-- R281, R254, R289, R290: at its request line a strip of the current or the coming frame asks for every layer it meets;
at the deadline line a layer strip that is not complete goes to the next rung of its programs, once, by a coppice step in
the raster queue, which waits for a running step's kerf point, or to the floor scaler, where the function of its lane
has no standing array too (R14); and at the take line its source is fixed, once, its buffer if it is complete and the
floor scaler if not. -/
def Obligations.StripsAreRequestedHandedDownAndTaken : Prop :=
  (∀ (s u : State) (o : Fin 4) (k frame : Nat) (now : Dword) (v : Table Word), s.phase = .service → k < 256 → s.time ≤ now →
    u = { s with time := now } → u.requestFrame o.val k = some frame → v = u.frameView o.val frame →
    answers (.stripRequest o k now) s fun t =>
      (∀ i ∈ (u.videoOn v o.val).filter (fun i => u.meets v o.val k i), ∃ r ∈ (t.atLayers i).strips,
        r.out = o.val ∧ r.strip = k ∧ r.frame = frame) ∧
      if frame = u.frameOf o.val then (t.atOuts o.val).nextReq = k + 1 ∧
        (t.atOuts o.val).aheadReq = (s.atOuts o.val).aheadReq
      else (t.atOuts o.val).aheadReq = k + 1 ∧ (t.atOuts o.val).nextReq = (s.atOuts o.val).nextReq) ∧
  (∀ (s u : State) (o : Fin 4) (k slot : Nat) (now : Dword) (r : StripRec), s.phase = .service → k < 256 →
    s.time ≤ now → u = { s with time := now } → (u.stripsAt o.val k fun v => u.guardOf v o.val) = [(slot, r)] →
    u.stripOf slot r.serial = some r →
    ((∀ n e, r.entry = some n → s.atEntries n = some e → e.ctx = none) →
      answers (.deadlineLine o k now) s fun t =>
        t.stripOf slot r.serial =
          if r.checked = true then some r
          else if r.source ≠ 0 ∨ r.done.isSome = true then some { r with checked := true }
          else if nextRung r.lane r.rung = 1 ∧ s.standingArrays (s.unitAt (laneUnit (laneOf slot))).owner ≠ 0 then
            some { r with checked := true, rung := 1, entry := some s.entryNext, owed := false }
          else some { r with checked := true, rung := 2, source := 2, entry := none, owed := false }) ∧
    (∀ n c e, r.checked = false → r.source = 0 → r.done = none → nextRung r.lane r.rung = 1 → r.entry = some n →
      s.atEntries n = some e → e.ctx = some c → (s.atCtxs c).state = .running →
      (s.atArrays (s.atCtxs c).array).ctx = some c → (s.atArrays (s.atCtxs c).array).phase ≠ .stopped →
      answers (.deadlineLine o k now) s fun t =>
        t.stripOf slot r.serial = some { r with checked := true, rung := 1, entry := none, owed := true } ∧
        (t.atArrays (s.atCtxs c).array).stop = some .ranger ∧ (t.atCtxs c).state = .stopping)) ∧
  (∀ (s u : State) (o : Fin 4) (k slot : Nat) (now : Dword) (r : StripRec), s.phase = .service → k < 256 →
    s.time ≤ now → u = { s with time := now } → (u.stripsAt o.val k fun v => u.takeOf v o.val) = [(slot, r)] →
    u.stripOf slot r.serial = some r → (∀ n e, r.entry = some n → s.atEntries n = some e → e.ctx = none) →
    answers (.takeLine o k now) s fun t =>
      t.stripOf slot r.serial =
        if r.taken = true then some r
        else if r.source ≠ 0 then some { r with taken := true }
        else if r.done.isSome = true then some { r with taken := true, source := 1 }
        else some { r with taken := true, rung := 2, source := 2, entry := none, owed := false })

/-- R303, R304: training runs until its result, which is the link's state; HPD low for 2 ms, or a lane found unlocked,
loses the link; an edge of the panel's sync whose period is near the frame's is accepted, and the fourth in a row
near the pulse locks; when none has come for two frame periods the output runs free. That IRQ_HPD shows HPD high is a
reading, and that a go while training runs changes nothing is the model's choice (log entry 34). -/
def Obligations.LinksTrainAndPanelsSync : Prop :=
  (∀ (s : State) (f : Func) (o : Fin 4), mayWrite s f (linkPage o.val) →
    answers (.dpTrain f o) s fun t => if s.rbit (linkPage o.val) 0x120 1 = true then sameField .regs s t
      else t.rfld (linkPage o.val) 0x120 0 4 = 2) ∧
  (∀ (s : State) (o : Fin 4) (ok : Bool), s.phase = .service → s.rbit (linkPage o.val) 0x120 1 = true →
    answers (.dpTrainDone o ok) s fun t => t.rfld (linkPage o.val) 0x120 0 4 = (if ok then 4 else 8) ∧
      t.rbit (linkPage o.val) 0x118 3 = ok ∧ t.rbit (linkPage o.val) 0x018 9 = true ∧
      (ok = false → t.rfld (linkPage o.val) 0x020 0 16 = 0x0B26)) ∧
  (∀ (s : State) (o : Fin 4), s.phase = .service →
    answers (.hpdLowTimeout o) s fun t => t.rbit (linkPage o.val) 0x118 2 = false ∧
      t.rbit (linkPage o.val) 0x118 3 = false ∧
      (s.rbit (linkPage o.val) 0x118 3 = true → t.rfld (linkPage o.val) 0x020 0 16 = 0x0B26)) ∧
  (∀ (s : State) (o : Fin 4) (locked : Bool), s.phase = .service →
    answers (.irqHpd o locked) s fun t => t.rbit (linkPage o.val) 0x118 2 = true ∧
      t.rbit (linkPage o.val) 0x118 3 = (s.rbit (linkPage o.val) 0x118 3 && locked)) ∧
  (∀ (s u : State) (o : Fin 4) (now : Dword) (win frame : Nat), s.phase = .service → s.time ≤ now →
    u = { s with time := now } → u.scanning o.val = true → s.rbit (linkPage o.val) 0x114 7 = true →
    frame = u.linesNs [] o.val (u.vTotal [] o.val) →
    (∀ e d, (s.atOuts o.val).edge = some e → d = now.toNat - e.toNat → 20 * (max d frame - min d frame) ≤ frame) →
    win = (if u.pulseGap o.val now.toNat ≤ u.linesNs [] o.val 1 then (s.atOuts o.val).inWindow + 1 else 0) →
    answers (.psyncEdge o now) s fun t =>
      t.atOuts o.val = { s.atOuts o.val with edge := some now, inWindow := win } ∧
      (4 ≤ win → t.rfld (linkPage o.val) 0x118 4 2 = 2)) ∧
  (∀ (s u : State) (o : Fin 4) (now e : Dword) (frame d : Nat), s.phase = .service → s.time ≤ now →
    u = { s with time := now } → (s.atOuts o.val).edge = some e → d = now.toNat - e.toNat →
    frame = u.linesNs [] o.val (u.vTotal [] o.val) → frame < 20 * (max d frame - min d frame) →
    answers (.psyncEdge o now) s fun t => sameField .outs s t ∧ sameField .regs s t) ∧
  (∀ (s : State) (o : Fin 4), s.phase = .service → s.scanning o.val = true → s.rbit (linkPage o.val) 0x114 7 = true →
    s.rfld (linkPage o.val) 0x118 4 2 ≠ 3 →
    answers (.psyncLost o) s fun t => t.atOuts o.val = { s.atOuts o.val with edge := none, inWindow := 0 } ∧
      t.rfld (linkPage o.val) 0x118 4 2 = 3 ∧ t.rfld (linkPage o.val) 0x020 0 16 = 0x0B28)

/-- R303, R305: an AUX transaction of each kind starts while none runs, with its request code, and runs until its reply,
which gives its result and the bytes of a read; a go while one runs writes the fields of DP_AUX_CTL, as a write does (R4),
and starts none (the model's choice, log entry 34). -/
def Obligations.AuxTransactionsRunOneAtATime : Prop :=
  (∀ (s : State) (f : Func) (o : Fin 4) (ctl : Word) (c : Instr) (code : Nat), mayWrite s f (linkPage o.val) →
    ((c = .auxNativeWrite f o ctl ∧ code = 8) ∨ (c = .auxNativeRead f o ctl ∧ code = 9) ∨
      (c = .auxI2cWrite f o ctl ∧ code = 0) ∨ (c = .auxI2cRead f o ctl ∧ code = 1) ∨
      (c = .auxI2cWriteMot f o ctl ∧ code = 4) ∨ (c = .auxI2cReadMot f o ctl ∧ code = 5)) →
    answers c s fun t => t.rbit (linkPage o.val) 0x134 0 = true ∧ t.rfld (linkPage o.val) 0x130 0 4 = code ∧
      (s.rbit (linkPage o.val) 0x134 0 = true →
        sameRegs (fun p q => p = linkPage o.val ∧ q = 0x130) s t)) ∧
  (∀ (s : State) (o : Fin 4) (reply : AuxReply), s.phase = .service → s.rbit (linkPage o.val) 0x134 0 = true →
    answers (.auxReply o reply) s fun t => t.rbit (linkPage o.val) 0x134 0 = false ∧
      t.rfld (linkPage o.val) 0x134 1 2 = (match reply with | .ack _ => 0 | .nack => 1 | .defer => 2 | .timeout => 3) ∧
      t.rbit (linkPage o.val) 0x018 10 = true ∧
      ∀ d, reply = .ack d → ∀ i, i < d.length → i < 16 →
        t.rfld (linkPage o.val) (0x140 + 4 * (i / 4)) (8 * (i % 4)) 8 = (d.getD i 0).toNat)

/-! ## The track engine (chapter 16) -/

/-- R332 to R335, R340, R345: a set job writes the boxes its suppression keeps as a detection list; an associate job
joins the problems with the capture time it brings; a graph load replaces the camera graph, or leaves it when it is
not valid; and a flush with nothing before it, queued or still at its gates, ends every track of its camera. -/
def Obligations.TrackJobsDoTheirOps : Prop :=
  (∀ (s : State) (f : Func) (n : Fin 8) (d : BitVec 1024) (b bs list : List Byte) (w : Nat → Nat → Nat) (pa : Nat → Nat)
    (cands : List SetCand) (anchor : SetCand → List Byte) (out : List (SetCand × List Nat)), readyTrack s f n d 1 →
    readsAs s ⟨.job, f⟩ 0 (jobBodyAddr d) b → b.length = 64 → setBodyOk b = true →
    w = (fun i k => bytesNat (sliceBytes b i k)) → readsAs s ⟨.track, f⟩ 0 (w 0 6) bs → bs.length = 16 * w 6 2 →
    cands = (List.range (w 6 2)).map (fun i => (i, sliceBytes bs (16 * i) 16)) →
    (setKeep (fHalf (w 0x18 2)) cands).2 = 0 →
    (∀ c ∈ cands, (anchor c).length = 16 ∧
      readsAs s ⟨.track, f⟩ 0 (w 8 6 + 16 * bytesNat (sliceBytes c.2 4 2)) (anchor c)) →
    out = (suppress (fHalf (w 0x1A 2)) (w 0x1C 2)
      ((setKeep (fHalf (w 0x18 2)) cands).1.map fun c => (c, setBox c (some (anchor c)))) [] 0).1 →
    list = natBytes 32 out.length ++ out.flatMap detBytes → writesAt s ⟨.track, f⟩ 0 (w 0x10 6) list.length pa →
    answers (.trackSet f n d) s fun t => (∀ i, i < list.length → t.content (pa i) = list.getD i 0) ∧ t.atJobs s.jobNext = none ∧
      sameField .track s t) ∧
  (∀ (s : State) (f : Func) (n : Fin 8) (d : BitVec 1024) (b head : List Byte) (w : Nat → Nat → Nat) (part cam : Nat),
    readyTrack s f n d 2 → readsAs s ⟨.job, f⟩ 0 (jobBodyAddr d) b → b.length = 64 →
    w = (fun i k => bytesNat (sliceBytes b i k)) → part = jobTarget d → cam = w 0 2 → cam < 4096 → w 2 2 ≠ 0 → w 4 4 = 0 →
    w 0x16 2 = 0 → w 0x1E 2 = 0 → w 0x20 32 = 0 → w 0x10 6 % 64 = 0 → w 0x18 6 % 64 = 0 →
    readsAs s ⟨.track, f⟩ 0 (w 0x10 6) head → head.length = 32 → bytesNat (sliceBytes head 0 2) % 1024 ≤ 512 →
    (∀ c, s.camPlace cam = some c → c.device = s.deviceNo ∧ c.part = part) →
    (∀ l, (s.atTcam (camKey part cam)).last = some l → l < w 8 8) →
    answers (.trackAssociate f n d) s fun t =>
      t.track = { s.track with
        problems := s.track.problems ++ [⟨s.jobNext, part, cam, w 2 2, w 8 8, w 0x10 6, w 0x18 6, s.time, false⟩] } ∧
      (t.atTcam (camKey part cam)).last = some (w 8 8) ∧ (t.atJobs s.jobNext).isSome = true) ∧
  (∀ (s : State) (n : Fin 8) (d : BitVec 1024) (b cb eb : List Byte) (w : Nat → Nat → Nat), readyTrack s 0 n d 3 →
    readsAs s ⟨.job, 0⟩ 0 (jobBodyAddr d) b → b.length = 32 → w = (fun i k => bytesNat (sliceBytes b i k)) →
    w 0x10 16 = 0 → 1 ≤ w 6 2 → w 6 2 ≤ 4096 → w 0xE 2 ≤ 32768 → readsAs s ⟨.track, 0⟩ 0 (w 0 6) cb →
    cb.length = 16 * w 6 2 → readsAs s ⟨.track, 0⟩ 0 (w 8 6) eb → eb.length = 8 * w 0xE 2 →
    answers (.graphLoad 0 n d) s fun t => t.atJobs s.jobNext = none ∧
      if graphOk s.chainCount (w 6 2) (w 0xE 2) cb eb = true then
        t.track = { s.track with cams := parseCams (w 6 2) cb, edges := parseEdges (w 0xE 2) eb } ∧
        t.rfld trackPage 0x104 0 13 = w 6 2 ∧ t.rbit trackPage 0x104 31 = true ∧ t.rfld trackPage 0x108 0 16 = w 0xE 2
      else sameField .track s t ∧ t.rfld trackPage 0x020 0 16 = 0x0C17) ∧
  (∀ (s : State) (f : Func) (n : Fin 8) (d : BitVec 1024) (part cam : Nat), readyTrack s f n d 4 → part = jobTarget d →
    cam = jobInline d 0x44 2 → s.track.problems = [] →
    (∀ x ∈ s.jobs, ∀ j, x.2 = some j → jobKind j.desc = 4 → trackOp j.desc = 2 → jobTarget j.desc = part → j.started = true) →
    s.partFaulted part = false → s.standCached part cam = true →
    answers (.trackFlush f n d) s fun t => t.stand part cam = [] ∧ t.track.problems = [] ∧ t.atJobs s.jobNext = none)

/-- R331, R336 to R339, R342, R344, R345, R347: the one problem of a camera without tracks, which no flush accepted
before it holds back, makes its one detection a tentative track; one kept too long is coasted; a block read into the
cache holds what its table holds, and one that does not check is lost; a resumed partition is faulted no longer; and the
ring's consumer index and its time limit act as those of an event ring, an index out of its window kept out and reported
in the writer's global page (a reading, log entry 41). -/
def Obligations.ProblemsAreSolvedOverTheCache : Prop :=
  (∀ (s u : State) (now : Dword) (p : Problem) (i : Nat) (db : List Byte), s.phase = .service → s.time ≤ now →
    u = { s with time := now } → s.track.problems = [p] → p.flush = false → s.partFaulted p.part = false → p.part < 8 →
    s.heldBack p = false → s.camBlocks p.part p.cam = [] → s.tcache.length < 2000 →
    now.toNat - p.arrive.toNat ≤ 100000 * (max 1 (min 8 (s.rfld trackPage 0x100 0 4)) * p.period) →
    (u.candidates p).1 = [] → p.emb = 0 → readsAs s ⟨.track, s.partOwner p.part⟩ 0 p.det db → db.length = 64 →
    bytesNat (sliceBytes db 0 2) % 1024 = 1 → s.freeRecord p.part p.cam = some i →
    (s.atTblk (blkKey p.part (i / 16))).live = 0 →
    answers (.problemStart now) s fun t => t.track.problems = [] ∧ t.atJobs p.job = none ∧ t.stand p.part p.cam = [i] ∧
      t.track.created = s.track.created + 1 ∧ (t.trackRec p.part i).state = 1 ∧ (t.trackRec p.part i).hits = 1 ∧
      (t.trackRec p.part i).ident = (s.track.created + 1) % 2 ^ 42 + 2 ^ 42 * s.deviceNo ∧
      (t.trackRec p.part i).box = (List.range 4).map fun k => bytesNat (sliceBytes db (32 + 4 * k) 4)) ∧
  (∀ (s : State) (now : Dword) (p : Problem), s.phase = .service → s.time ≤ now → s.track.problems = [p] →
    p.flush = false → s.partFaulted p.part = false → s.heldBack p = false → s.standCached p.part p.cam = true →
    100000 * (max 1 (min 8 (s.rfld trackPage 0x100 0 4)) * p.period) < now.toNat - p.arrive.toNat →
    answers (.problemStart now) s fun t => t.track.problems = [] ∧ t.atJobs p.job = none ∧
      t.stand p.part p.cam = s.stand p.part p.cam ∧
      ((∀ k c, s.atTcache k = some c → c.data.length = 2048) → ∀ i ∈ s.stand p.part p.cam,
        (t.trackRec p.part i).box = (predict (s.trackRec p.part i) p.capture).map fun x => x % 2 ^ 32)) ∧
  (∀ (s : State) (part : Fin 8) (emb : Bool) (b : Fin 2048) (cam : Nat) (bs : List Byte), s.phase = .service →
    (s.atTblk (blkKey part.val b.val)).cam = some cam → s.atTcache (cacheKey part.val emb b.val) = none →
    s.partFaulted part.val = false → s.tcache.length < 2048 → bs.length = 2048 →
    readsAs s ⟨.track, s.partOwner part.val⟩ 0 (s.blkAddr part.val emb b.val) bs →
    answers (.trackBlockFill part emb b []) s fun t =>
      t.atTcache (cacheKey part.val emb b.val) = some ⟨bs, false, cam⟩ ∧ sameField .tblk s t) ∧
  (∀ (s : State) (part : Fin 8) (emb : Bool) (b : Fin 2048) (cam va : Nat) (l : Leaf), s.phase = .service →
    (s.atTblk (blkKey part.val b.val)).cam = some cam → s.atTcache (cacheKey part.val emb b.val) = none →
    s.partFaulted part.val = false → va = s.blkAddr part.val emb b.val → va % 65536 + 2048 ≤ 65536 →
    standingLeaf s ⟨.track, s.partOwner part.val⟩ 0 va = some l → l.coding = .plain → 16 ≤ l.shift → l.r = true →
    (∃ x ∈ billetsOf (leafAddr l va) 2048, brokenBillet s x = true) →
    answers (.trackBlockFill part emb b []) s fun t => t.atTblk (blkKey part.val b.val) = {} ∧
      t.atTcache (cacheKey part.val false b.val) = none ∧ t.atTcache (cacheKey part.val true b.val) = none ∧
      t.rfld (partPage part.val) 0x020 0 16 = 0x0C15) ∧
  (∀ (s : State) (f : Func) (part : Fin 8), mayWrite s f (partPage part.val) → (∀ p ∈ s.track.problems, p.flush = false) →
    answers (.partitionResume f part) s fun t => t.partFaulted part.val = false ∧ sameField .track s t ∧
      sameRegs (fun p o => p = partPage part.val ∧ o = 0x014) s t) ∧
  (∀ (s : State) (part : Fin 8) (now : Dword), s.phase = .service → s.time ≤ now →
    s.rfld (partPage part.val) 0x148 16 16 ≠ 0 → 0 < (s.atTrings part.val).unsignalled →
    (s.atTrings part.val).firstAt.toNat + 1000 * s.rfld (partPage part.val) 0x148 16 16 ≤ now.toNat →
    s.reg (partPage part.val) 0x13C ≠ s.reg (partPage part.val) 0x140 →
    answers (.trackRingInterruptTimer part now) s fun t => (t.atTrings part.val).unsignalled = 0 ∧
      t.rbit (partPage part.val) 0x018 8 = true) ∧
  (∀ (s : State) (f : Func) (part : Fin 8) (v : Word), mayWrite s f (partPage part.val) →
    answers (.tpRingConsWrite f part v) s fun t =>
      if sub32 v.toNat (s.reg (partPage part.val) 0x140).toNat
        ≤ sub32 (s.reg (partPage part.val) 0x13C).toNat (s.reg (partPage part.val) 0x140).toNat then
        t.reg (partPage part.val) 0x140 = v
      else t.reg (partPage part.val) 0x140 = s.reg (partPage part.val) 0x140 ∧
        (t.rfld (globalPage f) 0x020 0 16 = 0x0112 ∨ t.rfld (globalPage f) 0x020 0 16 = 0x0115))

/-- R341, R345: an offer that arrives enters the offer table, the oldest giving way when it is full; a withdrawal
removes the offers of its identifier; the first taken notice of an offer is honoured, later ones change nothing; a
duplicate notice gives the record taken over a new identifier; and offers leave the table when their eligibility has
ended. -/
def Obligations.OffersPassBetweenDevices : Prop :=
  (∀ (s : State) (p : Fin 2) (frame : List Byte) (o : OfferMsg), arrives s p frame 5 → (parseHeader frame).len = 256 →
    answers (.offer p frame o) s fun t => ∃ slot, t.track = { s.track with
      offers := (if s.track.offers.length < 16384 then s.track.offers else s.track.offers.drop 1) ++ [(slot, o)] }) ∧
  (∀ (s : State) (p : Fin 2) (frame : List Byte) (ident : Nat), arrives s p frame 5 → (parseHeader frame).len = 64 →
    answers (.withdrawal p frame ident) s fun t => t.track = { s.track with
      offers := s.track.offers.filter fun o => decide (o.2.ident ≠ ident) }) ∧
  (∀ (s : State) (p : Fin 2) (frame : List Byte) (ident : Nat) (e : SentOffer), arrives s p frame 5 →
    (parseHeader frame).len = 64 → (parseHeader frame).src ≠ s.deviceNo →
    (s.track.sent.find? fun e => decide (e.ident = ident)) = some e →
    answers (.takenNotice p frame ident) s fun t =>
      if e.taken = true then sameField .track s t
      else t.track.sent = s.track.sent.map fun y => if y.ident = ident then { y with taken := true } else y) ∧
  (∀ (s : State) (p : Fin 2) (frame : List Byte) (ident part i : Nat) (c : CacheBlk), arrives s p frame 5 →
    (parseHeader frame).len = 64 → (s.track.handed.find? fun h => decide (h.1 = ident)) = some (ident, part, i) →
    s.atTcache (cacheKey part false (i / 16)) = some c → c.data.length = 2048 →
    answers (.duplicateNotice p frame ident) s fun t => t.track = { s.track with
        created := s.track.created + 1, handed := s.track.handed.filter fun e => decide (e.1 ≠ ident) } ∧
      (t.trackRec part i).ident = (s.track.created + 1) % 2 ^ 42 + 2 ^ 42 * s.deviceNo ∧
      (t.trackRec part i).hits = (s.trackRec part i).hits ∧ (t.trackRec part i).box = (s.trackRec part i).box) ∧
  (∀ (s : State) (now : Dword), s.phase = .service → s.time ≤ now →
    answers (.offerExpiry now) s fun t => t.time = now ∧ t.track = { s.track with
      offers := s.track.offers.filter fun o => !decide (offerEnd o.2 ≤ now.toNat) })

/-! ## Chain ports (chapter 17) -/

/-- R350, R363: training starts from off, down and refused, on a port that is there (R400); that a train in another
state changes nothing, and that the sequence numbers start from 0, are the model's choices (log entry 60); it ends in a
hello with the credits of the receive buffers, or down; a hello that agrees brings the port up, and one that differs
refuses it; and a port that goes down, with no request of this device out through it, is down with an empty link layer.
-/
def Obligations.PortsTrainGreetAndGoDown : Prop :=
  (∀ (s : State) (f : Func) (p : Fin 2), mayWrite s f (portPage p.val) →
    answers (.portTrain f p) s fun t => t.portState p.val =
      if s.lost.getLsbD 3 = false ∧ (s.portState p.val = 0 ∨ s.portState p.val = 4 ∨ s.portState p.val = 5) then 1
      else s.portState p.val) ∧
  (∀ (s : State) (p : Fin 2), s.phase = .service → s.portState p.val = 1 →
    answers (.portTrainingDone p 0xFF) s fun t => t.portState p.val = 2 ∧ t.rfld (portPage p.val) 0x100 16 8 = 0xFF ∧
      (t.atPorts p.val).sendSeq = 1 ∧ (t.atPorts p.val).recvSeq = 0 ∧ t.rfld (portPage p.val) 0x104 0 10 = 512 ∧
      t.rfld (portPage p.val) 0x104 10 10 = 128) ∧
  (∀ (s : State) (p : Fin 2) (lanes : BitVec 8), s.phase = .service → s.portState p.val = 1 → lanes ≠ 0xFF →
    answers (.portTrainingDone p lanes) s fun t => t.portState p.val = 4 ∧
      t.rfld (portPage p.val) 0x100 16 8 = lanes.toNat ∧ t.rfld (portPage p.val) 0x020 0 16 = 0x0D12) ∧
  (∀ (s : State) (p : Fin 2) (frame : List Byte) (count : Nat) (root : BitVec 64), s.phase = .service →
    s.portState p.val = 2 → frameCrcOk frame = true → frameSeq frame = (s.atPorts p.val).recvSeq →
    frameFormOk frame = true → (parseHeader frame).typ = 6 →
    answers (.hello p frame count root) s fun t => t.rfld (portPage p.val) 0x100 8 6 = (parseHeader frame).src ∧
      t.portState p.val =
        if count = s.chainCount ∧ (parseHeader frame).src ≠ s.deviceNo ∧ root = s.trustRoot then 3 else 5) ∧
  (∀ (s : State) (p : Fin 2) (c : Instr), s.phase = .service →
    (c = .neighbourLinkDown p ∨ ∃ f, c = .portDown f p ∧ mayWrite s f (portPage p.val)) →
    1 ≤ s.portState p.val → s.portState p.val ≤ 3 →
    (∀ x ∈ s.remotes, ∀ r, x.2 = some r → s.route r.dst ≠ p.val + 1) →
    answers c s fun t => t.portState p.val = 4 ∧ t.atPorts p.val = {} ∧ sameField .remotes s t ∧
      ∀ a v, v ∈ (t.atArrays a).arrivals → v.port ≠ some p.val)

/-- R351: CH_ID takes a value while both ports are off, down or refused, and is left with cause 0x17 otherwise. -/
def Obligations.TheChainNumberIsSetWhileThePortsAreIdle : Prop :=
  ∀ (s : State) (f : Func) (v : Word), mayWrite s f chainPage →
    answers (.chIdWrite f v) s fun t =>
      if ∀ p : Fin 2, s.portState p.val = 0 ∨ s.portState p.val = 4 ∨ s.portState p.val = 5 then
        t.reg chainPage 0x100 = v &&& regMask (regAddr chainPage 0x100) ∧
        ∀ g : Func, t.view g (globalPage g) 0x1A8 = BitVec.ofNat 32 (max 1 (fld v 8 7)) ∧
          t.view g (globalPage g) 0x1B0 = BitVec.ofNat 32 (fld v 0 6)
      else t.reg chainPage 0x100 = s.reg chainPage 0x100 ∧ t.rfld chainPage 0x020 0 16 = 0x0D17

/-- R354, R355: an ack drops the frames it covers from the replay buffer; a nak, whatever frame it asks for, and 8 µs
without an ack send the whole buffer again, oldest first, and keep it, and the fifth time without progress the port goes
down; a credit frame adds its credits; an ack timer acknowledges what has arrived; and a frame whose CRC or sequence
number fails is answered by one nak and changes nothing else of the receiver. -/
def Obligations.TheLinkLayerAcknowledgesAndReplays : Prop :=
  (∀ (s : State) (p : Fin 2) (w : Nat), s.phase = .service → (s.portState p.val = 2 ∨ s.portState p.val = 3) →
    w < 2 ^ 32 → w % 16 = 8 → ((s.atPorts p.val).replay.any fun e => decide (e.1 = w / 2 ^ 20)) = true →
    (s.atPorts p.val).waiting = [] →
    answers (.ack p (controlFrame w)) s fun t => t.atPorts p.val = { s.atPorts p.val with
      replay := ((s.atPorts p.val).replay.dropWhile fun e => decide (e.1 ≠ w / 2 ^ 20)).drop 1, replays := 0 }) ∧
  (∀ (s : State) (p : Fin 2), s.phase = .service → (s.portState p.val = 2 ∨ s.portState p.val = 3) →
    (s.atPorts p.val).replays < 4 →
    answers (.replayTimeout p) s fun t =>
      t.out = ((s.atPorts p.val).replay.map fun e => Output.frame p e.2).reverse ++ s.out ∧
      (t.atPorts p.val).replay = (s.atPorts p.val).replay) ∧
  (∀ (s : State) (p : Fin 2) (w : Nat), s.phase = .service → (s.portState p.val = 2 ∨ s.portState p.val = 3) →
    w < 2 ^ 32 → w % 16 = 9 →
    ((s.atPorts p.val).replays < 4 → answers (.nak p (controlFrame w)) s fun t =>
      t.out = ((s.atPorts p.val).replay.map fun e => Output.frame p e.2).reverse ++ s.out ∧
      (t.atPorts p.val).replay = (s.atPorts p.val).replay) ∧
    (4 ≤ (s.atPorts p.val).replays → (s.atPorts p.val).replay ≠ [] →
      (∀ x ∈ s.remotes, ∀ r, x.2 = some r → s.route r.dst ≠ p.val + 1) →
      answers (.nak p (controlFrame w)) s fun t => t.portState p.val = 4 ∧ t.rfld (portPage p.val) 0x020 0 16 = 0x0D13)) ∧
  (∀ (s : State) (p : Fin 2), s.phase = .service → (s.atPorts p.val).replay ≠ [] → 4 ≤ (s.atPorts p.val).replays →
    (s.portState p.val = 2 ∨ s.portState p.val = 3) →
    (∀ x ∈ s.remotes, ∀ r, x.2 = some r → s.route r.dst ≠ p.val + 1) →
    answers (.replayTimeout p) s fun t => t.portState p.val = 4 ∧ t.rfld (portPage p.val) 0x020 0 16 = 0x0D13) ∧
  (∀ (s : State) (p : Fin 2) (w : Nat), s.phase = .service → (s.portState p.val = 2 ∨ s.portState p.val = 3) →
    w < 2 ^ 32 → w % 16 = 0xA → w / 16 % 4 < 3 → (s.atPorts p.val).waiting = [] →
    answers (.credit p (controlFrame w)) s fun t => t.rfld (portPage p.val) 0x104 (10 * (w / 16 % 4)) 10 =
      min 1023 (s.rfld (portPage p.val) 0x104 (10 * (w / 16 % 4)) 10 + w / 64 % 2 ^ 14)) ∧
  (∀ (s : State) (p : Fin 2), s.phase = .service → 0 < (s.atPorts p.val).inOrder →
    answers (.ackTimer p) s fun t => (t.atPorts p.val).inOrder = 0 ∧
      t.out = .frame p (controlFrame (8 + 2 ^ 20 * (((s.atPorts p.val).recvSeq + 4095) % 4096))) :: s.out) ∧
  (∀ (s : State) (p : Fin 2) (frame : List Byte) (c : Instr), s.phase = .service → s.portState p.val = 3 →
    (c = .windowWrite p frame ∨ c = .windowReadRequest p frame ∨ c = .completion p frame ∨ c = .frameForward p frame) →
    (frameCrcOk frame = false ∨ frameSeq frame ≠ (s.atPorts p.val).recvSeq) → (s.atPorts p.val).nakOut = false →
    answers c s fun t => t.atPorts p.val = { s.atPorts p.val with nakOut := true } ∧
      sends (.frame p (controlFrame (9 + 2 ^ 20 * (s.atPorts p.val).recvSeq))) s t ∧
      sameField .windows s t ∧ sameField .remotes s t ∧ sameField .engines s t)

/-- R353, R355, R358: every frame that is accepted takes the next sequence number (of a hello, whose refusal clears the
link layer, nothing is said here); a completion ends the request it names: a busy one waits to be sent again, a track
message's is over, and the data a window read brings reaches the engine's scratchpad, and any other status is its
engine's fault; one that names no request changes none; a request without its completion ends with cause 0x1A, and its
engine is faulted when nothing else of it is out; a request answered busy is issued again 1 µs later: of an engine that
reads or of a track message as it was sent, a write of host bytes by reading them again. A write into a window of this
device that has no room is answered busy too, keeps its bytes and waits for its retry. -/
def Obligations.RemoteRequestsEndOrAreRetried : Prop :=
  (∀ (s : State) (p : Fin 2) (frame : List Byte) (c : Instr) (typ : Nat), arrives s p frame typ →
    ((c = .windowWrite p frame ∧ typ = 1) ∨ (c = .windowReadRequest p frame ∧ typ = 2) ∨
      (c = .completion p frame ∧ typ = 3) ∨
      (typ = 5 ∧ (parseHeader frame).len = 256 ∧ ∃ m, c = .offer p frame m) ∨
      (typ = 5 ∧ (parseHeader frame).len = 64 ∧ ∃ i, c = .takenNotice p frame i ∨ c = .withdrawal p frame i ∨
        c = .duplicateNotice p frame i)) →
    answers c s fun t => (t.atPorts p.val).recvSeq = ((s.atPorts p.val).recvSeq + 1) % 4096) ∧
  (∀ (s : State) (p : Fin 2) (frame : List Byte) (h : Header), inTransit s p frame h →
    answers (.frameForward p frame) s fun t => (t.atPorts p.val).recvSeq = ((s.atPorts p.val).recvSeq + 1) % 4096) ∧
  (∀ (s : State) (e : Fin 80) (tag w first len : Nat) (r : EReq) (d : BitVec 512) (bs host : List Byte),
    s.phase = .service → s.engReq e.val tag = some (r, d) → s.busyReq e.val tag = false → r.remote = false →
    sourceBytes s e.val r d host bs → bs.length = r.len → 0 < r.len → sdKind d true = 3 → w = sdWindow (sdBase d true) →
    first = r.dst % 64 → len = (first + r.len + 63) / 64 * 64 → windowOpen s w 3 s.deviceNo → s.winKind w = 1 →
    r.dst + r.len ≤ 65536 * s.rfld (winPage w) 0x10C 0 16 → 8192 < (s.atWindows w).inFlight + len →
    answers (.requestRetire e tag (.done host)) s fun t => t.atRemotes s.freeTtag = some
        { engine := some (e.val, tag), dst := s.deviceNo, requester := e.val, bytes := [], busy := true, offer := none } ∧
      (t.engReq e.val tag).map (fun x => x.1.data) = some (some bs) ∧ t.busyReq e.val tag = true) ∧
  (∀ (s : State) (p : Fin 2) (frame : List Byte) (h : Header) (r : RemoteReq), arrives s p frame 3 →
    h = parseHeader frame → s.atRemotes h.ttag = some r → r.requester = h.requester →
    (h.status = 2 → answers (.completion p frame) s fun t => t.atRemotes h.ttag = some { r with busy := true } ∧
      sameField .engines s t ∧ (t.atPorts p.val).recvSeq = ((s.atPorts p.val).recvSeq + 1) % 4096) ∧
    (h.status ≠ 2 → r.engine = none → answers (.completion p frame) s fun t => t.atRemotes h.ttag = none ∧
      sameField .engines s t ∧ (t.atPorts p.val).recvSeq = ((s.atPorts p.val).recvSeq + 1) % 4096)) ∧
  (∀ (s : State) (p : Fin 2) (frame : List Byte) (h : Header) (r : RemoteReq) (e : Fin 64) (tag : Nat) (q : EReq)
    (d : BitVec 512), arrives s p frame 3 → h = parseHeader frame → s.atRemotes h.ttag = some r →
    r.requester = h.requester → h.status = 0 → r.engine = some (e.val, tag) → s.engReq e.val tag = some (q, d) →
    sdKind d false = 3 → sdKind d true = 1 → commitPhase s e.val d = true → q.src % 64 + q.len ≤ h.len →
    tag ∉ (s.atEngines e.val).orphans → (s.atEngines e.val).shadow = none → (s.atArrays (e.val / 2)).arrivals = [] →
    answers (.completion p frame) s fun t => ∀ i, i < q.len →
      t.spByte (e.val / 2) (hOff (s.handle (e.val / 2) (sdHandle (sdBase d true))) q.dst + i)
        = (framePayload frame).getD (q.src % 64 + i) 0) ∧
  (∀ (s : State) (p : Fin 2) (frame : List Byte) (h : Header) (r : RemoteReq) (e : Fin 80) (tag : Nat) (q : EReq)
    (d : BitVec 512), arrives s p frame 3 → h = parseHeader frame → s.atRemotes h.ttag = some r →
    r.requester = h.requester → h.status ≠ 0 → h.status ≠ 2 → r.engine = some (e.val, tag) →
    s.engReq e.val tag = some (q, d) → (∀ x ∈ (s.atEngines e.val).reqs, x.tag = tag) →
    tag ∉ (s.atEngines e.val).orphans → (s.atEngines e.val).stopping = false → (s.atEngines e.val).resetting = false →
    (s.atArrays (e.val / 2)).fell = false →
    (∀ c, s.engCtx e.val = some c → (s.atCtxs c).state ≠ .retiring) →
    answers (.completion p frame) s fun t => t.atRemotes h.ttag = none ∧ (t.atEngines e.val).state = .faulted ∧
      (t.atEngines e.val).reqs = [] ∧
      ((s.atEngines e.val).faults = [] →
        t.rfld (engPage e.val) 0x020 0 16 = if h.status = 3 then 0x081A else 0x081C)) ∧
  (∀ (s : State) (p : Fin 2) (frame : List Byte), arrives s p frame 3 →
    s.atRemotes (parseHeader frame).ttag = none →
    answers (.completion p frame) s fun t => sameField .remotes s t ∧ sameField .engines s t ∧
      (t.atPorts p.val).recvSeq = ((s.atPorts p.val).recvSeq + 1) % 4096) ∧
  (∀ (s : State) (ttag : Nat) (r : RemoteReq), s.phase = .service → s.atRemotes ttag = some r → r.engine = none →
    answers (.remoteTimeout ttag) s fun t => t.atRemotes ttag = none ∧ t.rfld chainPage 0x020 0 16 = 0x0D1A ∧
      (∀ k, k ≠ ttag → t.atRemotes k = s.atRemotes k)) ∧
  (∀ (s : State) (ttag : Nat) (r : RemoteReq) (e : Fin 80) (tag : Nat) (q : EReq) (d : BitVec 512),
    s.phase = .service → s.atRemotes ttag = some r → r.engine = some (e.val, tag) →
    s.engReq e.val tag = some (q, d) → (∀ x ∈ (s.atEngines e.val).reqs, x.tag = tag) →
    tag ∉ (s.atEngines e.val).orphans → (s.atEngines e.val).stopping = false → (s.atEngines e.val).resetting = false →
    (s.atArrays (e.val / 2)).fell = false →
    (∀ c, s.engCtx e.val = some c → (s.atCtxs c).state ≠ .retiring) →
    answers (.remoteTimeout ttag) s fun t => t.atRemotes ttag = none ∧ (t.atEngines e.val).state = .faulted ∧
      (t.atEngines e.val).reqs = []) ∧
  (∀ (s : State) (ttag : Nat) (r : RemoteReq) (p : Fin 2), s.phase = .service → s.atRemotes ttag = some r →
    r.busy = true → s.route r.dst = p.val + 1 → r.engine = none → portFree s p 0 r.bytes →
    answers (.busyRetry ttag) s fun t => t.atRemotes ttag = some { r with busy := false } ∧
      sends (.frame p (sealFrame r.bytes (s.atPorts p.val).sendSeq)) s t) ∧
  (∀ (s : State) (ttag : Nat) (r : RemoteReq) (p : Fin 2) (e tag : Nat) (q : EReq) (d : BitVec 512),
    s.phase = .service → s.atRemotes ttag = some r → r.busy = true → s.route r.dst = p.val + 1 →
    r.engine = some (e, tag) → s.engReq e tag = some (q, d) → sdKind d true ≠ 3 → portFree s p 1 r.bytes →
    answers (.busyRetry ttag) s fun t => t.atRemotes ttag = some { r with busy := false } ∧
      sends (.frame p (sealFrame r.bytes (s.atPorts p.val).sendSeq)) s t) ∧
  (∀ (s : State) (ttag : Nat) (r : RemoteReq) (e tag : Nat) (q : EReq) (d : BitVec 512), s.phase = .service →
    s.atRemotes ttag = some r → r.busy = true → r.engine = some (e, tag) → s.engReq e tag = some (q, d) →
    sdKind d true = 3 → sdKind d false = 2 → sourceOpen s e d = true →
    answers (.busyRetry ttag) s fun t => t.atRemotes ttag = none ∧
      sends (.hostRead (s.engOwner e) (s.hostAddr e q.src) q.len) s t)

/-- R356, R357, R363: a frame for another device leaves through the port of its route with one hop more, unless its hops
or the dateline end it, with cause 0x16; where its route does not exist or leads back, or the port of its route is down,
it is answered with status 5, with cause 0x15, or 6, and a track message at a port that is down is dropped with cause
0x0C1E. -/
def Obligations.FramesForOthersAreForwarded : Prop :=
  (∀ (s : State) (p q : Fin 2) (frame body : List Byte) (h : Header), inTransit s p frame h →
    s.route h.dst = q.val + 1 → p ≠ q →
    body = frameBody { h with hops := h.hops + 1 } (framePayload frame) → portFree s q h.vc body →
    answers (.frameForward p frame) s fun t =>
      if s.rbit chainPage 0x104 (16 + p.val) = true ∨ 63 ≤ h.hops + 1 then t.rfld chainPage 0x020 0 16 = 0x0D16 ∧
        t.atPorts q.val = s.atPorts q.val
      else sends (.frame q (sealFrame body (s.atPorts q.val).sendSeq)) s t ∧
        (t.atPorts q.val).sendSeq = ((s.atPorts q.val).sendSeq + 1) % 4096) ∧
  (∀ (s : State) (p : Fin 2) (frame : List Byte) (h : Header) (status : Nat), inTransit s p frame h →
    s.rbit chainPage 0x104 (16 + p.val) = false → h.hops + 1 < 63 →
    ((status = 5 ∧ (s.route h.dst = 0 ∨ s.route h.dst = 3 ∨ s.route h.dst = p.val + 1)) ∨
      (status = 6 ∧ ∃ q : Fin 2, q ≠ p ∧ s.route h.dst = q.val + 1 ∧ s.portState q.val ≠ 3)) →
    answers (.frameForward p frame) s fun t =>
      (status = 5 → t.rfld chainPage 0x020 0 16 = 0x0D15) ∧
      (status = 6 → h.typ = 5 → t.rfld trackPage 0x020 0 16 = 0x0C1E) ∧
      ∀ r : Fin 2, h.typ = 1 ∨ h.typ = 2 → s.route h.src = r.val + 1 → portFree s r 2 (completionOf s h status []) →
        sends (.frame r (sealFrame (completionOf s h status []) (s.atPorts r.val).sendSeq)) s t)

end
end

