-- ==== Sys2Proof/Laws/State.lean ====
section
/-! SUPPORT. What each effect does to each field of the state, once for all: an effect changes the one field it names, in
one stated way, and leaves every other field, the queue among them. -/

namespace Sys2Proof.Machine

/-- No effect touches the queue. -/
@[simp] theorem Effect.apply_pending (e : Effect) (s : State) : (e.apply s).pending = s.pending := by cases e <;> rfl

theorem Effect.keeps_regs {e : Effect} (h : e.field ≠ .regs) (s : State) : (e.apply s).regs = s.regs := by
  cases e <;> first | rfl | exact absurd rfl h

theorem Effect.keeps_shadows {e : Effect} (h : e.field ≠ .shadows) (s : State) : (e.apply s).shadows = s.shadows := by
  cases e <;> first | rfl | exact absurd rfl h

theorem Effect.keeps_commits {e : Effect} (h : e.field ≠ .commits) (s : State) : (e.apply s).commits = s.commits := by
  cases e <;> first | rfl | exact absurd rfl h

theorem Effect.keeps_latches {e : Effect} (h : e.field ≠ .latches) (s : State) : (e.apply s).latches = s.latches := by
  cases e <;> first | rfl | exact absurd rfl h

theorem Effect.keeps_units {e : Effect} (h : e.field ≠ .units) (s : State) : (e.apply s).units = s.units := by
  cases e <;> first | rfl | exact absurd rfl h

theorem Effect.keeps_rings {e : Effect} (h : e.field ≠ .rings) (s : State) : (e.apply s).rings = s.rings := by
  cases e <;> first | rfl | exact absurd rfl h

theorem Effect.keeps_jobs {e : Effect} (h : e.field ≠ .jobs) (s : State) : (e.apply s).jobs = s.jobs := by
  cases e <;> first | rfl | exact absurd rfl h

theorem Effect.keeps_jobNext {e : Effect} (h : e.field ≠ .jobNext) (s : State) : (e.apply s).jobNext = s.jobNext := by
  cases e <;> first | rfl | exact absurd rfl h

theorem Effect.keeps_time {e : Effect} (h : e.field ≠ .time) (s : State) : (e.apply s).time = s.time := by
  cases e <;> first | rfl | exact absurd rfl h

theorem Effect.keeps_mem {e : Effect} (h : e.field ≠ .mem) (s : State) : (e.apply s).mem = s.mem := by
  cases e <;> first | rfl | exact absurd rfl h

theorem Effect.keeps_codingMap {e : Effect} (h : e.field ≠ .codingMap) (s : State) : (e.apply s).codingMap = s.codingMap := by
  cases e <;> first | rfl | exact absurd rfl h

theorem Effect.keeps_crcDiff {e : Effect} (h : e.field ≠ .crcDiff) (s : State) : (e.apply s).crcDiff = s.crcDiff := by
  cases e <;> first | rfl | exact absurd rfl h

theorem Effect.keeps_held {e : Effect} (h : e.field ≠ .held) (s : State) : (e.apply s).held = s.held := by
  cases e <;> first | rfl | exact absurd rfl h

theorem Effect.keeps_heldNext {e : Effect} (h : e.field ≠ .heldNext) (s : State) : (e.apply s).heldNext = s.heldNext := by
  cases e <;> first | rfl | exact absurd rfl h

theorem Effect.keeps_buffered {e : Effect} (h : e.field ≠ .buffered) (s : State) : (e.apply s).buffered = s.buffered := by
  cases e <;> first | rfl | exact absurd rfl h

theorem Effect.keeps_tlb {e : Effect} (h : e.field ≠ .tlb) (s : State) : (e.apply s).tlb = s.tlb := by
  cases e <;> first | rfl | exact absurd rfl h

theorem Effect.keeps_inval {e : Effect} (h : e.field ≠ .inval) (s : State) : (e.apply s).inval = s.inval := by
  cases e <;> first | rfl | exact absurd rfl h

theorem Effect.keeps_zeroing {e : Effect} (h : e.field ≠ .zeroing) (s : State) : (e.apply s).zeroing = s.zeroing := by
  cases e <;> first | rfl | exact absurd rfl h

theorem Effect.keeps_lcSlots {e : Effect} (h : e.field ≠ .lcSlots) (s : State) : (e.apply s).lcSlots = s.lcSlots := by
  cases e <;> first | rfl | exact absurd rfl h

theorem Effect.keeps_lcWait {e : Effect} (h : e.field ≠ .lcWait) (s : State) : (e.apply s).lcWait = s.lcWait := by
  cases e <;> first | rfl | exact absurd rfl h

theorem Effect.keeps_lcFill {e : Effect} (h : e.field ≠ .lcFill) (s : State) : (e.apply s).lcFill = s.lcFill := by
  cases e <;> first | rfl | exact absurd rfl h

theorem Effect.keeps_sp {e : Effect} (h : e.field ≠ .sp) (s : State) : (e.apply s).sp = s.sp := by
  cases e <;> first | rfl | exact absurd rfl h

theorem Effect.keeps_arrays {e : Effect} (h : e.field ≠ .arrays) (s : State) : (e.apply s).arrays = s.arrays := by
  cases e <;> first | rfl | exact absurd rfl h

theorem Effect.keeps_engines {e : Effect} (h : e.field ≠ .engines) (s : State) : (e.apply s).engines = s.engines := by
  cases e <;> first | rfl | exact absurd rfl h

theorem Effect.keeps_ctxs {e : Effect} (h : e.field ≠ .ctxs) (s : State) : (e.apply s).ctxs = s.ctxs := by
  cases e <;> first | rfl | exact absurd rfl h

theorem Effect.keeps_entries {e : Effect} (h : e.field ≠ .entries) (s : State) : (e.apply s).entries = s.entries := by
  cases e <;> first | rfl | exact absurd rfl h

theorem Effect.keeps_entryNext {e : Effect} (h : e.field ≠ .entryNext) (s : State) : (e.apply s).entryNext = s.entryNext := by
  cases e <;> first | rfl | exact absurd rfl h

theorem Effect.keeps_lanes {e : Effect} (h : e.field ≠ .lanes) (s : State) : (e.apply s).lanes = s.lanes := by
  cases e <;> first | rfl | exact absurd rfl h

theorem Effect.keeps_classCounts {e : Effect} (h : e.field ≠ .classCounts) (s : State) : (e.apply s).classCounts = s.classCounts := by
  cases e <;> first | rfl | exact absurd rfl h

theorem Effect.keeps_ports {e : Effect} (h : e.field ≠ .ports) (s : State) : (e.apply s).ports = s.ports := by
  cases e <;> first | rfl | exact absurd rfl h

theorem Effect.keeps_remotes {e : Effect} (h : e.field ≠ .remotes) (s : State) : (e.apply s).remotes = s.remotes := by
  cases e <;> first | rfl | exact absurd rfl h

theorem Effect.keeps_windows {e : Effect} (h : e.field ≠ .windows) (s : State) : (e.apply s).windows = s.windows := by
  cases e <;> first | rfl | exact absurd rfl h

theorem Effect.keeps_streams {e : Effect} (h : e.field ≠ .streams) (s : State) : (e.apply s).streams = s.streams := by
  cases e <;> first | rfl | exact absurd rfl h

theorem Effect.keeps_pipes {e : Effect} (h : e.field ≠ .pipes) (s : State) : (e.apply s).pipes = s.pipes := by
  cases e <;> first | rfl | exact absurd rfl h

theorem Effect.keeps_layers {e : Effect} (h : e.field ≠ .layers) (s : State) : (e.apply s).layers = s.layers := by
  cases e <;> first | rfl | exact absurd rfl h

theorem Effect.keeps_outs {e : Effect} (h : e.field ≠ .outs) (s : State) : (e.apply s).outs = s.outs := by
  cases e <;> first | rfl | exact absurd rfl h

theorem Effect.keeps_keep {e : Effect} (h : e.field ≠ .keep) (s : State) : (e.apply s).keep = s.keep := by
  cases e <;> first | rfl | exact absurd rfl h

theorem Effect.keeps_trust {e : Effect} (h : e.field ≠ .trust) (s : State) : (e.apply s).trust = s.trust := by
  cases e <;> first | rfl | exact absurd rfl h

theorem Effect.keeps_flash {e : Effect} (h : e.field ≠ .flash) (s : State) : (e.apply s).flash = s.flash := by
  cases e <;> first | rfl | exact absurd rfl h

theorem Effect.keeps_track {e : Effect} (h : e.field ≠ .track) (s : State) : (e.apply s).track = s.track := by
  cases e <;> first | rfl | exact absurd rfl h

theorem Effect.keeps_tblk {e : Effect} (h : e.field ≠ .tblk) (s : State) : (e.apply s).tblk = s.tblk := by
  cases e <;> first | rfl | exact absurd rfl h

theorem Effect.keeps_tcache {e : Effect} (h : e.field ≠ .tcache) (s : State) : (e.apply s).tcache = s.tcache := by
  cases e <;> first | rfl | exact absurd rfl h

theorem Effect.keeps_tcam {e : Effect} (h : e.field ≠ .tcam) (s : State) : (e.apply s).tcam = s.tcam := by
  cases e <;> first | rfl | exact absurd rfl h

theorem Effect.keeps_trings {e : Effect} (h : e.field ≠ .trings) (s : State) : (e.apply s).trings = s.trings := by
  cases e <;> first | rfl | exact absurd rfl h

theorem Effect.keeps_vfs {e : Effect} (h : e.field ≠ .vfs) (s : State) : (e.apply s).vfs = s.vfs := by
  cases e <;> first | rfl | exact absurd rfl h

theorem Effect.keeps_d3 {e : Effect} (h : e.field ≠ .d3) (s : State) : (e.apply s).d3 = s.d3 := by
  cases e <;> first | rfl | exact absurd rfl h

theorem Effect.keeps_pcieAfter {e : Effect} (h : e.field ≠ .pcieAfter) (s : State) : (e.apply s).pcieAfter = s.pcieAfter := by
  cases e <;> first | rfl | exact absurd rfl h

theorem Effect.keeps_owed {e : Effect} (h : e.field ≠ .owed) (s : State) : (e.apply s).owed = s.owed := by
  cases e <;> first | rfl | exact absurd rfl h

theorem Effect.keeps_phase {e : Effect} (h : e.field ≠ .phase) (s : State) : (e.apply s).phase = s.phase := by
  cases e <;> first | rfl | exact absurd rfl h

theorem Effect.keeps_tripHold {e : Effect} (h : e.field ≠ .tripHold) (s : State) : (e.apply s).tripHold = s.tripHold := by
  cases e <;> first | rfl | exact absurd rfl h

theorem Effect.keeps_ruin {e : Effect} (h : e.field ≠ .ruin) (s : State) : (e.apply s).ruin = s.ruin := by
  cases e <;> first | rfl | exact absurd rfl h

theorem Effect.keeps_relock {e : Effect} (h : e.field ≠ .relock) (s : State) : (e.apply s).relock = s.relock := by
  cases e <;> first | rfl | exact absurd rfl h

theorem Effect.keeps_linkWait {e : Effect} (h : e.field ≠ .linkWait) (s : State) : (e.apply s).linkWait = s.linkWait := by
  cases e <;> first | rfl | exact absurd rfl h

theorem Effect.keeps_lost {e : Effect} (h : e.field ≠ .lost) (s : State) : (e.apply s).lost = s.lost := by
  cases e <;> first | rfl | exact absurd rfl h

theorem Effect.keeps_thermtrip {e : Effect} (h : e.field ≠ .thermtrip) (s : State) : (e.apply s).thermtrip = s.thermtrip := by
  cases e <;> first | rfl | exact absurd rfl h

theorem Effect.keeps_faultsAt {e : Effect} (h : e.field ≠ .faultsAt) (s : State) : (e.apply s).faultsAt = s.faultsAt := by
  cases e <;> first | rfl | exact absurd rfl h

theorem Effect.keeps_flog {e : Effect} (h : e.field ≠ .flog) (s : State) : (e.apply s).flog = s.flog := by
  cases e <;> first | rfl | exact absurd rfl h

theorem Effect.keeps_flogN {e : Effect} (h : e.field ≠ .flogN) (s : State) : (e.apply s).flogN = s.flogN := by
  cases e <;> first | rfl | exact absurd rfl h

theorem Effect.keeps_tb {e : Effect} (h : e.field ≠ .tb) (s : State) : (e.apply s).tb = s.tb := by
  cases e <;> first | rfl | exact absurd rfl h

theorem Effect.keeps_free {e : Effect} (h : e.field ≠ .free) (s : State) : (e.apply s).free = s.free := by
  cases e <;> first | rfl | exact absurd rfl h

theorem Effect.keeps_out {e : Effect} (h : e.field ≠ .out) (s : State) : (e.apply s).out = s.out := by
  cases e <;> first | rfl | exact absurd rfl h

@[simp] theorem Effect.apply_commits (k : Nat) (v : (Option CommitRec)) (s : State) :
    ((Effect.commits k v).apply s).commits = tblSet commitsDefault k v s.commits := rfl

@[simp] theorem Effect.apply_latches (k : Nat) (v : (Option (Nat × Word))) (s : State) :
    ((Effect.latches k v).apply s).latches = tblSet latchesDefault k v s.latches := rfl

@[simp] theorem Effect.apply_units (k : Nat) (v : UnitRec) (s : State) :
    ((Effect.units k v).apply s).units = tblSet unitsDefault k v s.units := rfl

@[simp] theorem Effect.apply_rings (k : Nat) (v : RingAux) (s : State) :
    ((Effect.rings k v).apply s).rings = tblSet ringsDefault k v s.rings := rfl

@[simp] theorem Effect.apply_jobs (k : Nat) (v : (Option Job)) (s : State) :
    ((Effect.jobs k v).apply s).jobs = tblSet jobsDefault k v s.jobs := rfl

@[simp] theorem Effect.apply_jobNext (v : Nat) (s : State) : ((Effect.jobNext v).apply s).jobNext = v := rfl

@[simp] theorem Effect.apply_mem (k : Nat) (v : Byte) (s : State) :
    ((Effect.mem k v).apply s).mem = tblSet memDefault k v s.mem := rfl

@[simp] theorem Effect.apply_codingMap (k : Nat) (v : Byte) (s : State) :
    ((Effect.codingMap k v).apply s).codingMap = tblSet codingMapDefault k v s.codingMap := rfl

@[simp] theorem Effect.apply_crcDiff (k : Nat) (v : Word) (s : State) :
    ((Effect.crcDiff k v).apply s).crcDiff = tblSet crcDiffDefault k v s.crcDiff := rfl

@[simp] theorem Effect.apply_held (k : Nat) (v : (Option HeldBillet)) (s : State) :
    ((Effect.held k v).apply s).held = tblSet heldDefault k v s.held := rfl

@[simp] theorem Effect.apply_heldNext (v : Nat) (s : State) : ((Effect.heldNext v).apply s).heldNext = v := rfl

@[simp] theorem Effect.apply_buffered (k : Nat) (v : (List BufBillet)) (s : State) :
    ((Effect.buffered k v).apply s).buffered = tblSet bufferedDefault k v s.buffered := rfl

@[simp] theorem Effect.apply_tlb (v : TlbSt) (s : State) : ((Effect.tlb v).apply s).tlb = v := rfl

@[simp] theorem Effect.apply_inval (v : Option Inval) (s : State) : ((Effect.inval v).apply s).inval = v := rfl

@[simp] theorem Effect.apply_zeroing (v : Bool) (s : State) : ((Effect.zeroing v).apply s).zeroing = v := rfl

@[simp] theorem Effect.apply_lcSlots (k : Nat) (v : LcSlot) (s : State) :
    ((Effect.lcSlots k v).apply s).lcSlots = tblSet lcSlotsDefault k v s.lcSlots := rfl

@[simp] theorem Effect.apply_lcWait (v : List LcInstall) (s : State) : ((Effect.lcWait v).apply s).lcWait = v := rfl

@[simp] theorem Effect.apply_lcFill (v : Option LcInstall) (s : State) : ((Effect.lcFill v).apply s).lcFill = v := rfl

@[simp] theorem Effect.apply_sp (k : Nat) (v : Byte) (s : State) :
    ((Effect.sp k v).apply s).sp = tblSet spDefault k v s.sp := rfl

@[simp] theorem Effect.apply_arrays (k : Nat) (v : ArraySt) (s : State) :
    ((Effect.arrays k v).apply s).arrays = tblSet arraysDefault k v s.arrays := rfl

@[simp] theorem Effect.apply_engines (k : Nat) (v : EngineSt) (s : State) :
    ((Effect.engines k v).apply s).engines = tblSet enginesDefault k v s.engines := rfl

@[simp] theorem Effect.apply_ctxs (k : Nat) (v : CtxRec) (s : State) :
    ((Effect.ctxs k v).apply s).ctxs = tblSet ctxsDefault k v s.ctxs := rfl

@[simp] theorem Effect.apply_entries (k : Nat) (v : (Option EntryRec)) (s : State) :
    ((Effect.entries k v).apply s).entries = tblSet entriesDefault k v s.entries := rfl

@[simp] theorem Effect.apply_entryNext (v : Nat) (s : State) : ((Effect.entryNext v).apply s).entryNext = v := rfl

@[simp] theorem Effect.apply_lanes (k : Nat) (v : LaneRec) (s : State) :
    ((Effect.lanes k v).apply s).lanes = tblSet lanesDefault k v s.lanes := rfl

@[simp] theorem Effect.apply_classCounts (k : Nat) (v : ClassCount) (s : State) :
    ((Effect.classCounts k v).apply s).classCounts = tblSet classCountsDefault k v s.classCounts := rfl

@[simp] theorem Effect.apply_ports (k : Nat) (v : PortSt) (s : State) :
    ((Effect.ports k v).apply s).ports = tblSet portsDefault k v s.ports := rfl

@[simp] theorem Effect.apply_remotes (k : Nat) (v : (Option RemoteReq)) (s : State) :
    ((Effect.remotes k v).apply s).remotes = tblSet remotesDefault k v s.remotes := rfl

@[simp] theorem Effect.apply_windows (k : Nat) (v : WinSt) (s : State) :
    ((Effect.windows k v).apply s).windows = tblSet windowsDefault k v s.windows := rfl

@[simp] theorem Effect.apply_streams (k : Nat) (v : StreamSt) (s : State) :
    ((Effect.streams k v).apply s).streams = tblSet streamsDefault k v s.streams := rfl

@[simp] theorem Effect.apply_pipes (k : Nat) (v : PipeSt) (s : State) :
    ((Effect.pipes k v).apply s).pipes = tblSet pipesDefault k v s.pipes := rfl

@[simp] theorem Effect.apply_layers (k : Nat) (v : LayerSt) (s : State) :
    ((Effect.layers k v).apply s).layers = tblSet layersDefault k v s.layers := rfl

@[simp] theorem Effect.apply_outs (k : Nat) (v : OutSt) (s : State) :
    ((Effect.outs k v).apply s).outs = tblSet outsDefault k v s.outs := rfl

@[simp] theorem Effect.apply_keep (v : KeepSt) (s : State) : ((Effect.keep v).apply s).keep = v := rfl

@[simp] theorem Effect.apply_trust (v : TrustSt) (s : State) : ((Effect.trust v).apply s).trust = v := rfl

@[simp] theorem Effect.apply_flash (k : Nat) (v : Byte) (s : State) :
    ((Effect.flash k v).apply s).flash = tblSet flashDefault k v s.flash := rfl

@[simp] theorem Effect.apply_track (v : TrackSt) (s : State) : ((Effect.track v).apply s).track = v := rfl

@[simp] theorem Effect.apply_tblk (k : Nat) (v : TrackBlk) (s : State) :
    ((Effect.tblk k v).apply s).tblk = tblSet tblkDefault k v s.tblk := rfl

@[simp] theorem Effect.apply_tcache (k : Nat) (v : (Option CacheBlk)) (s : State) :
    ((Effect.tcache k v).apply s).tcache = tblSet tcacheDefault k v s.tcache := rfl

@[simp] theorem Effect.apply_tcam (k : Nat) (v : CamRec) (s : State) :
    ((Effect.tcam k v).apply s).tcam = tblSet tcamDefault k v s.tcam := rfl

@[simp] theorem Effect.apply_trings (k : Nat) (v : RingAux) (s : State) :
    ((Effect.trings k v).apply s).trings = tblSet tringsDefault k v s.trings := rfl

@[simp] theorem Effect.apply_vfs (v : Nat) (s : State) : ((Effect.vfs v).apply s).vfs = v := rfl

@[simp] theorem Effect.apply_d3 (v : (BitVec 32)) (s : State) : ((Effect.d3 v).apply s).d3 = v := rfl

@[simp] theorem Effect.apply_pcieAfter (v : Bool) (s : State) : ((Effect.pcieAfter v).apply s).pcieAfter = v := rfl

@[simp] theorem Effect.apply_owed (v : List (Nat × List Byte)) (s : State) : ((Effect.owed v).apply s).owed = v := rfl

@[simp] theorem Effect.apply_phase (v : DevPhase) (s : State) : ((Effect.phase v).apply s).phase = v := rfl

@[simp] theorem Effect.apply_tripHold (v : Bool) (s : State) : ((Effect.tripHold v).apply s).tripHold = v := rfl

@[simp] theorem Effect.apply_ruin (v : (Option Nat)) (s : State) : ((Effect.ruin v).apply s).ruin = v := rfl

@[simp] theorem Effect.apply_relock (v : Bool) (s : State) : ((Effect.relock v).apply s).relock = v := rfl

@[simp] theorem Effect.apply_linkWait (v : Bool) (s : State) : ((Effect.linkWait v).apply s).linkWait = v := rfl

@[simp] theorem Effect.apply_lost (v : LostUnits) (s : State) : ((Effect.lost v).apply s).lost = v := rfl

@[simp] theorem Effect.apply_thermtrip (v : Bool) (s : State) : ((Effect.thermtrip v).apply s).thermtrip = v := rfl

@[simp] theorem Effect.apply_faultsAt (v : List Dword) (s : State) : ((Effect.faultsAt v).apply s).faultsAt = v := rfl

@[simp] theorem Effect.apply_flog (k : Nat) (v : (BitVec 256)) (s : State) :
    ((Effect.flog k v).apply s).flog = tblSet flogDefault k v s.flog := rfl

@[simp] theorem Effect.apply_flogN (v : Nat) (s : State) : ((Effect.flogN v).apply s).flogN = v := rfl

@[simp] theorem Effect.apply_tb (v : TimeAux) (s : State) : ((Effect.tb v).apply s).tb = v := rfl

@[simp] theorem Effect.apply_regs (k : Nat) (v : Word) (s : State) :
    ((Effect.regs k v).apply s).regs = tblSet regReset k (v &&& regMask k) s.regs := rfl

@[simp] theorem Effect.apply_shadows (k : Nat) (v : Word) (s : State) :
    ((Effect.shadows k v).apply s).shadows = tblSet regReset k (v &&& regMask k) s.shadows := rfl

@[simp] theorem Effect.apply_out (o : Output) (s : State) : ((Effect.out o).apply s).out = o :: s.out := rfl

@[simp] theorem Effect.apply_free (s : State) : (Effect.free.apply s).free = s.free + 1 := rfl

@[simp] theorem Effect.apply_time (t : Dword) (s : State) :
    ((Effect.time t).apply s).time = if s.time.toNat ≤ t.toNat then t else s.time := rfl

@[simp] theorem Effect.apply_setTime (t : Dword) (s : State) : ((Effect.setTime t).apply s).time = t := rfl

end Sys2Proof.Machine
end

