-- ==== Sys2Proof/Laws/Acts.lean ====
section
/-! SUPPORT. What holds of every effect holds of every act: the induction over acts, packaged once, and acts that only have
effects of a kind, for frames. -/

namespace Sys2Proof.Machine

/-- A property of states that every effect keeps, every act keeps. -/
theorem run_keeps {I : State → Prop} (h : ∀ (e : Effect) (s : State), I s → I (e.apply s)) :
    ∀ (a : Act) (s : State), I s → I (run a s)
  | .done, _, hs => hs
  | .eff e, s, hs => h e s hs
  | .seq a b, s, hs => run_keeps h b _ (run_keeps h a s hs)
  | .look f, s, hs => run_keeps h (f s) s hs

/-- A relation of states that is reflexive and transitive and holds across every effect holds across every act. -/
theorem run_rel {R : State → State → Prop} (refl : ∀ s, R s s) (trans : ∀ s t u, R s t → R t u → R s u)
    (h : ∀ (e : Effect) (s : State), R s (e.apply s)) : ∀ (a : Act) (s : State), R s (run a s)
  | .done, s => refl s
  | .eff e, s => h e s
  | .seq a b, s => trans _ _ _ (run_rel refl trans h a s) (run_rel refl trans h b _)
  | .look f, s => run_rel refl trans h (f s) s

/-- Every effect an act can have passes a test. -/
def Act.only (P : Effect → Prop) : Act → Prop
  | .done => True
  | .eff e => P e
  | .seq a b => a.only P ∧ b.only P
  | .look f => ∀ s, (f s).only P

variable {P : Effect → Prop}

@[simp] theorem only_done : Act.done.only P ↔ True := Iff.rfl
@[simp] theorem only_eff (e : Effect) : (Act.eff e).only P ↔ P e := Iff.rfl
@[simp] theorem only_seq (a b : Act) : (Act.seq a b).only P ↔ a.only P ∧ b.only P := Iff.rfl
@[simp] theorem only_look (f : State → Act) : (Act.look f).only P ↔ ∀ s, (f s).only P := Iff.rfl
@[simp] theorem only_acts_nil : (acts []).only P ↔ True := Iff.rfl
@[simp] theorem only_acts_cons (a : Act) (l : List Act) : (acts (a :: l)).only P ↔ a.only P ∧ (acts l).only P := Iff.rfl

theorem only_whenA {c : Bool} {a : Act} (h : c = true → a.only P) : (whenA c a).only P := by
  cases c with
  | false => exact trivial
  | true => exact h rfl

theorem only_optA {α : Type} {o : Option α} {f : α → Act} (h : ∀ x, o = some x → (f x).only P) : (optA o f).only P := by
  cases o with
  | none => exact trivial
  | some x => exact h x rfl

theorem only_forA {α : Type} {l : List α} {f : α → Act} (h : ∀ x ∈ l, (f x).only P) : (forA l f).only P := by
  induction l with
  | nil => exact trivial
  | cons x l ih => exact ⟨h x (by simp), ih fun y hy => h y (by simp [hy])⟩

/-- What every effect that passes keeps, an act of such effects keeps. -/
theorem run_only {α : Type} (view : State → α) (h : ∀ (e : Effect) (s : State), P e → view (e.apply s) = view s) :
    ∀ (a : Act) (s : State), a.only P → view (run a s) = view s
  | .done, _, _ => rfl
  | .eff e, s, ha => h e s ha
  | .seq a b, s, ha => (run_only view h b _ ha.2).trans (run_only view h a s ha.1)
  | .look f, s, ha => run_only view h (f s) s (ha s)

/-! ## Running the shapes of acts -/

@[simp] theorem run_done (s : State) : run .done s = s := rfl
@[simp] theorem run_eff (e : Effect) (s : State) : run (.eff e) s = e.apply s := rfl
@[simp] theorem run_seq (a b : Act) (s : State) : run (.seq a b) s = run b (run a s) := rfl
@[simp] theorem run_look (f : State → Act) (s : State) : run (.look f) s = run (f s) s := rfl
@[simp] theorem run_acts_nil (s : State) : run (acts []) s = s := rfl
@[simp] theorem run_acts_cons (a : Act) (l : List Act) (s : State) : run (acts (a :: l)) s = run (acts l) (run a s) := rfl
@[simp] theorem run_whenA_true (a : Act) (s : State) : run (whenA true a) s = run a s := rfl
@[simp] theorem run_whenA_false (a : Act) (s : State) : run (whenA false a) s = s := rfl
theorem run_whenA (c : Bool) (a : Act) (s : State) : run (whenA c a) s = if c then run a s else s := by cases c <;> rfl
@[simp] theorem run_optA_some {α : Type} (x : α) (f : α → Act) (s : State) : run (optA (some x) f) s = run (f x) s := rfl
@[simp] theorem run_optA_none {α : Type} (f : α → Act) (s : State) : run (optA none f) s = s := rfl
@[simp] theorem run_forA_nil {α : Type} (f : α → Act) (s : State) : run (forA [] f) s = s := rfl
@[simp] theorem run_forA_cons {α : Type} (x : α) (l : List α) (f : α → Act) (s : State) :
    run (forA (x :: l) f) s = run (forA l f) (run (f x) s) := rfl

/-- No act touches the queue. -/
@[simp] theorem run_pending (a : Act) (s : State) : (run a s).pending = s.pending :=
  run_rel (R := fun s t => t.pending = s.pending) (fun _ => rfl) (fun _ _ _ h h' => h'.trans h)
    (fun e s => e.apply_pending s) a s

end Sys2Proof.Machine
end

