-- ==== Sys2Proof/Laws/Fields.lean ====
section
/-! SUPPORT. The fields an act may change, as a list: what the laws of the footprints are stated in. -/

namespace Sys2Proof.Machine

/-- An effect that changes a field of the list. -/
def Within (M : List StateField) (e : Effect) : Prop := e.field ∈ M

/-- A list of fields whose members another list has, by computation. -/
theorem sub_trans {L K M : List StateField} (h : (L.all fun x => K.elem x) = true) (hK : K ⊆ M) : L ⊆ M := by
  intro x hx
  rw [List.all_eq_true] at h
  exact hK (List.mem_of_elem_eq_true (h x hx))

theorem only_ite {T : Effect → Prop} {c : Prop} [Decidable c] {a b : Act} :
    (if c then a else b).only T ↔ (c → a.only T) ∧ (¬ c → b.only T) := by
  by_cases h : c <;> simp [h]

/-! The shapes of acts, each as one rule. -/

theorem on_done {T : Effect → Prop} : Act.done.only T := trivial

theorem on_nil {T : Effect → Prop} : (acts []).only T := trivial

theorem on_cons {T : Effect → Prop} {a : Act} {l : List Act} (h : a.only T) (h' : (acts l).only T) :
    (acts (a :: l)).only T := ⟨h, h'⟩

theorem on_seq {T : Effect → Prop} {a b : Act} (h : a.only T) (h' : b.only T) : (Act.seq a b).only T := ⟨h, h'⟩

theorem on_look {T : Effect → Prop} {f : State → Act} (h : ∀ s, (f s).only T) : (Act.look f).only T := h

theorem on_ite {T : Effect → Prop} {c : Prop} [Decidable c] {a b : Act} (h : a.only T) (h' : b.only T) :
    (if c then a else b).only T := only_ite.2 ⟨fun _ => h, fun _ => h'⟩

theorem on_eff {M L : List StateField} {e : Effect} (hM : L ⊆ M) (h : L.elem e.field = true) :
    (Act.eff e).only (Within M) := hM (List.mem_of_elem_eq_true h)

/-- An act leaves every field that its list does not name as it was: seen through any view of the state that the effects
on listed fields leave alone. -/
theorem view_of_within {α : Type} {M : List StateField} {a : Act} (h : a.only (Within M)) (view : State → α)
    (hv : ∀ (e : Effect) (s : State), e.field ∈ M → view (e.apply s) = view s) (s : State) : view (run a s) = view s :=
  run_only view hv a s h

end Sys2Proof.Machine
end

