-- ==== Sys2Proof/Laws/Tables.lean ====
section
/-! SUPPORT. The laws of tables: a read after a write, and that every operation keeps the canonical form, so that equal
tables are equal data. -/

namespace Sys2Proof.Machine

variable {α : Type}

theorem tblGet_tblDrop_same (d : Nat → α) (k : Nat) (t : Table α) : tblGet d k (tblDrop k t) = d k := by
  induction t with
  | nil => rfl
  | cons e t ih =>
    obtain ⟨k', v⟩ := e
    by_cases h : k' = k
    · simp [tblDrop, h, ih]
    · simp [tblDrop, tblGet, h, ih]

theorem tblGet_tblDrop_other (d : Nat → α) {j k : Nat} (h : j ≠ k) (t : Table α) :
    tblGet d j (tblDrop k t) = tblGet d j t := by
  induction t with
  | nil => rfl
  | cons e t ih =>
    obtain ⟨k', v⟩ := e
    by_cases hk : k' = k
    · subst hk; simp [tblDrop, tblGet, ih, Ne.symm h]
    · by_cases hj : k' = j
      · subst hj; simp [tblDrop, tblGet, hk]
      · simp [tblDrop, tblGet, hk, hj, ih]

theorem tblGet_tblPut_same (d : Nat → α) (k : Nat) (v : α) (t : Table α) (h : ∀ w, (k, w) ∉ t) :
    tblGet d k (tblPut k v t) = v := by
  induction t with
  | nil => simp [tblPut, tblGet]
  | cons e t ih =>
    obtain ⟨k', w⟩ := e
    have hk : k' ≠ k := fun hk => h w (by simp [hk])
    by_cases hlt : k < k'
    · simp [tblPut, tblGet, hlt]
    · simpa [tblPut, tblGet, hlt, hk] using ih fun w' hw => h w' (by simp [hw])

theorem tblGet_tblPut_other (d : Nat → α) {j k : Nat} (h : j ≠ k) (v : α) (t : Table α) :
    tblGet d j (tblPut k v t) = tblGet d j t := by
  induction t with
  | nil => simp [tblPut, tblGet, Ne.symm h]
  | cons e t ih =>
    obtain ⟨k', w⟩ := e
    by_cases hlt : k < k'
    · simp [tblPut, tblGet, hlt, Ne.symm h]
    · simp [tblPut, tblGet, hlt, ih]

theorem not_mem_tblDrop (k : Nat) (v : α) (t : Table α) : (k, v) ∉ tblDrop k t := by
  induction t with
  | nil => simp [tblDrop]
  | cons e t ih =>
    obtain ⟨k', w⟩ := e
    by_cases hk : k' = k
    · simpa [tblDrop, hk] using ih
    · simp [tblDrop, hk, ih, Ne.symm hk]

/-- A read at the key just written gives the value written. -/
@[simp] theorem tblGet_tblSet_same [DecidableEq α] (d : Nat → α) (k : Nat) (v : α) (t : Table α) :
    tblGet d k (tblSet d k v t) = v := by
  by_cases h : v = d k
  · simp [tblSet, h, tblGet_tblDrop_same]
  · simpa [tblSet, h] using tblGet_tblPut_same d k v _ fun w => not_mem_tblDrop k w t

/-- A read at any other key gives what it gave before. -/
@[simp] theorem tblGet_tblSet_other [DecidableEq α] (d : Nat → α) {j k : Nat} (h : j ≠ k) (v : α) (t : Table α) :
    tblGet d j (tblSet d k v t) = tblGet d j t := by
  by_cases hv : v = d k
  · simp [tblSet, hv, tblGet_tblDrop_other d h]
  · simp [tblSet, hv, tblGet_tblPut_other d h, tblGet_tblDrop_other d h]

theorem tblGet_tblSet [DecidableEq α] (d : Nat → α) (j k : Nat) (v : α) (t : Table α) :
    tblGet d j (tblSet d k v t) = if j = k then v else tblGet d j t := by
  by_cases h : j = k
  · subst h; simp
  · simp [h]

theorem tblGet_tblClear (d : Nat → α) (j lo hi : Nat) (t : Table α) :
    tblGet d j (tblClear lo hi t) = if lo ≤ j ∧ j < hi then d j else tblGet d j t := by
  induction t with
  | nil => simp [tblClear, tblGet]
  | cons e t ih =>
    obtain ⟨k, v⟩ := e
    unfold tblClear at ih ⊢
    by_cases h : k < lo ∨ hi ≤ k
    · have hin : (List.filter (fun e => decide (e.1 < lo ∨ hi ≤ e.1)) ((k, v) :: t))
          = (k, v) :: List.filter (fun e => decide (e.1 < lo ∨ hi ≤ e.1)) t := by simp [h]
      rw [hin]
      by_cases hj : k = j
      · subst hj; rw [if_neg (by omega)]; simp [tblGet]
      · simp only [tblGet, hj, if_false, ih]
    · have hin : (List.filter (fun e => decide (e.1 < lo ∨ hi ≤ e.1)) ((k, v) :: t))
          = List.filter (fun e => decide (e.1 < lo ∨ hi ≤ e.1)) t := by simp [h]
      rw [hin, ih]
      by_cases hj : k = j
      · subst hj; have hin : lo ≤ k ∧ k < hi := by omega
        simp only [hin, and_self, if_true]
      · simp only [tblGet, hj, if_false]

/-! ## The canonical form -/

theorem tblRising_mono {j k : Nat} (h : j ≤ k) : ∀ t : Table α, tblRising k t = true → tblRising j t = true
  | [], _ => rfl
  | (k', _) :: t, hr => by
    simp only [tblRising, Bool.and_eq_true, decide_eq_true_eq] at hr ⊢
    exact ⟨by omega, hr.2⟩

theorem tblRising_of_tblOk_cons [DecidableEq α] {d : Nat → α} {k : Nat} {v : α} {t : Table α}
    (h : tblOk d ((k, v) :: t) = true) : v ≠ d k ∧ tblRising k t = true ∧ tblOk d t = true := by
  simpa [tblOk, and_assoc] using h

theorem tblRising_tblDrop (j k : Nat) : ∀ t : Table α, tblRising j t = true → tblRising j (tblDrop k t) = true
  | [], _ => rfl
  | (k', v) :: t, hr => by
    simp only [tblRising, Bool.and_eq_true, decide_eq_true_eq] at hr
    have ht := tblRising_tblDrop k' k t hr.2
    by_cases hk : k' = k
    · simpa [tblDrop, hk] using tblRising_mono (by omega) _ (hk ▸ ht)
    · simp [tblDrop, hk, tblRising, hr.1, ht]

theorem tblRising_tblPut {j k : Nat} (h : j < k) (v : α) :
    ∀ t : Table α, tblRising j t = true → (∀ w, (k, w) ∉ t) → tblRising j (tblPut k v t) = true
  | [], _, _ => by simp [tblPut, tblRising, h]
  | (k', w) :: t, hr, hn => by
    simp only [tblRising, Bool.and_eq_true, decide_eq_true_eq] at hr
    by_cases hlt : k < k'
    · simp [tblPut, hlt, tblRising, h, hr.2]
    · have hk : k' ≠ k := fun hk => hn w (by simp [hk])
      have := tblRising_tblPut (j := k') (k := k) (by omega) v t hr.2 fun w' hw => hn w' (by simp [hw])
      simp [tblPut, hlt, tblRising, hr.1, this]

theorem tblOk_tblDrop [DecidableEq α] (d : Nat → α) (k : Nat) :
    ∀ t : Table α, tblOk d t = true → tblOk d (tblDrop k t) = true
  | [], _ => rfl
  | (k', v) :: t, h => by
    obtain ⟨hv, hr, ht⟩ := tblRising_of_tblOk_cons h
    have ih := tblOk_tblDrop d k t ht
    by_cases hk : k' = k
    · simpa [tblDrop, hk] using ih
    · simp [tblDrop, hk, tblOk, hv, tblRising_tblDrop k' k t hr, ih]

theorem tblOk_tblPut [DecidableEq α] (d : Nat → α) (k : Nat) (v : α) (hv : v ≠ d k) :
    ∀ t : Table α, tblOk d t = true → (∀ w, (k, w) ∉ t) → tblOk d (tblPut k v t) = true
  | [], _, _ => by simp [tblPut, tblOk, tblRising, hv]
  | (k', w) :: t, h, hn => by
    obtain ⟨hw, hr, ht⟩ := tblRising_of_tblOk_cons h
    have hk : k' ≠ k := fun hk => hn w (by simp [hk])
    by_cases hlt : k < k'
    · simp [tblPut, hlt, tblOk, tblRising, hv, hw, hr, ht]
    · have hn' : ∀ w', (k, w') ∉ t := fun w' hw' => hn w' (by simp [hw'])
      simp [tblPut, hlt, tblOk, hw, tblRising_tblPut (by omega) v t hr hn', tblOk_tblPut d k v hv t ht hn']

/-- A write keeps the canonical form. -/
theorem tblOk_tblSet [DecidableEq α] (d : Nat → α) (k : Nat) (v : α) (t : Table α) (h : tblOk d t = true) :
    tblOk d (tblSet d k v t) = true := by
  by_cases hv : v = d k
  · simpa [tblSet, hv] using tblOk_tblDrop d k t h
  · simpa [tblSet, hv] using tblOk_tblPut d k v hv _ (tblOk_tblDrop d k t h) fun w => not_mem_tblDrop k w t

theorem tblRising_tblClear (j lo hi : Nat) : ∀ t : Table α, tblRising j t = true → tblRising j (tblClear lo hi t) = true
  | [], _ => rfl
  | (k, v) :: t, hr => by
    simp only [tblRising, Bool.and_eq_true, decide_eq_true_eq] at hr
    have ht := tblRising_tblClear k lo hi t hr.2
    unfold tblClear at ht ⊢
    by_cases h : k < lo ∨ hi ≤ k
    · rw [List.filter_cons_of_pos (by simpa using h)]; simp only [tblRising, ht, hr.1, decide_true, Bool.and_self]
    · rw [List.filter_cons_of_neg (by simpa using h)]; exact tblRising_mono (by omega) _ ht

/-- Clearing a range keeps the canonical form. -/
theorem tblOk_tblClear [DecidableEq α] (d : Nat → α) (lo hi : Nat) :
    ∀ t : Table α, tblOk d t = true → tblOk d (tblClear lo hi t) = true
  | [], _ => rfl
  | (k, v) :: t, h => by
    obtain ⟨hv, hr, ht⟩ := tblRising_of_tblOk_cons h
    have ih := tblOk_tblClear d lo hi t ht
    have hr' := tblRising_tblClear k lo hi t hr
    unfold tblClear at ih hr' ⊢
    by_cases hk : k < lo ∨ hi ≤ k
    · rw [List.filter_cons_of_pos (by simpa using hk)]; simp only [tblOk, hv, hr', ih, ne_eq, not_false_eq_true, decide_true, Bool.and_self]
    · rw [List.filter_cons_of_neg (by simpa using hk)]; exact ih

/-- Canonical tables that read the same everywhere are the same data. -/
theorem tbl_ext [DecidableEq α] (d : Nat → α) :
    ∀ t u : Table α, tblOk d t = true → tblOk d u = true → (∀ k, tblGet d k t = tblGet d k u) → t = u := by
  have low : ∀ (k : Nat) (t : Table α), tblRising k t = true → ∀ j, j ≤ k → tblGet d j t = d j := by
    intro k t
    induction t generalizing k with
    | nil => intros; rfl
    | cons e t ih =>
      obtain ⟨k', v⟩ := e
      intro hr j hj
      simp only [tblRising, Bool.and_eq_true, decide_eq_true_eq] at hr
      have hne : k' ≠ j := by omega
      simpa [tblGet, hne] using ih k' hr.2 j (by omega)
  intro t
  induction t with
  | nil =>
    intro u _ hu h
    cases u with
    | nil => rfl
    | cons e u =>
      obtain ⟨k, v⟩ := e
      have := h k
      simp [tblGet] at this
      exact absurd this.symm (tblRising_of_tblOk_cons hu).1
  | cons e t ih =>
    intro u ht hu h
    obtain ⟨k, v⟩ := e
    obtain ⟨hv, hr, ht'⟩ := tblRising_of_tblOk_cons ht
    cases u with
    | nil =>
      have := h k
      simp [tblGet] at this
      exact absurd this hv
    | cons e' u =>
      obtain ⟨k', v'⟩ := e'
      obtain ⟨hv', hr', hu'⟩ := tblRising_of_tblOk_cons hu
      have hkk : k = k' := by
        rcases Nat.lt_trichotomy k k' with hlt | heq | hgt
        · have h1 := h k
          rw [low k ((k', v') :: u) (by simp [tblRising, hlt, hr']) k (Nat.le_refl k)] at h1
          simp [tblGet] at h1
          exact absurd h1 hv
        · exact heq
        · have h1 := h k'
          rw [low k' ((k, v) :: t) (by simp [tblRising, hgt, hr]) k' (Nat.le_refl k')] at h1
          simp [tblGet] at h1
          exact absurd h1.symm hv'
      subst hkk
      have hvv : v = v' := by have := h k; simpa [tblGet] using this
      subst hvv
      have : t = u := ih u ht' hu' fun j => by
        by_cases hj : k = j
        · subst hj; rw [low k t hr k (Nat.le_refl k), low k u hr' k (Nat.le_refl k)]
        · have := h j; simpa [tblGet, hj] using this
      rw [this]

end Sys2Proof.Machine
end

