-- ==== Sys2Proof/Laws/Entries.lean ====
section
/-! SUPPORT. The entries of the state's tables after an effect: an effect on the table changes one entry, any other effect
none; and an act leaves the entries of the tables it does not name. -/

namespace Sys2Proof.Machine

@[simp] theorem atCommits_same (k : Nat) (v : (Option CommitRec)) (s : State) : ((Effect.commits k v).apply s).atCommits k = v :=
  tblGet_tblSet_same _ _ _ _

theorem atCommits_set (j k : Nat) (v : (Option CommitRec)) (s : State) :
    ((Effect.commits k v).apply s).atCommits j = if j = k then v else s.atCommits j := tblGet_tblSet _ _ _ _ _

theorem atCommits_other {e : Effect} (h : e.field ≠ .commits) (k : Nat) (s : State) : (e.apply s).atCommits k = s.atCommits k :=
  congrArg (tblGet _ k) (Effect.keeps_commits h s)

theorem atCommits_run {M : List StateField} (hM : (M.elem .commits) = false) {a : Act} (h : a.only (Within M)) (k : Nat) (s : State) :
    (run a s).atCommits k = s.atCommits k :=
  view_of_within h (fun s => s.atCommits k) (fun _ s he => atCommits_other (fun hc => by
    rw [← hc, List.elem_eq_true_of_mem he] at hM; cases hM) k s) s

@[simp] theorem atLatches_same (k : Nat) (v : (Option (Nat × Word))) (s : State) : ((Effect.latches k v).apply s).atLatches k = v :=
  tblGet_tblSet_same _ _ _ _

theorem atLatches_set (j k : Nat) (v : (Option (Nat × Word))) (s : State) :
    ((Effect.latches k v).apply s).atLatches j = if j = k then v else s.atLatches j := tblGet_tblSet _ _ _ _ _

theorem atLatches_other {e : Effect} (h : e.field ≠ .latches) (k : Nat) (s : State) : (e.apply s).atLatches k = s.atLatches k :=
  congrArg (tblGet _ k) (Effect.keeps_latches h s)

theorem atLatches_run {M : List StateField} (hM : (M.elem .latches) = false) {a : Act} (h : a.only (Within M)) (k : Nat) (s : State) :
    (run a s).atLatches k = s.atLatches k :=
  view_of_within h (fun s => s.atLatches k) (fun _ s he => atLatches_other (fun hc => by
    rw [← hc, List.elem_eq_true_of_mem he] at hM; cases hM) k s) s

@[simp] theorem atUnits_same (k : Nat) (v : UnitRec) (s : State) : ((Effect.units k v).apply s).atUnits k = v :=
  tblGet_tblSet_same _ _ _ _

theorem atUnits_set (j k : Nat) (v : UnitRec) (s : State) :
    ((Effect.units k v).apply s).atUnits j = if j = k then v else s.atUnits j := tblGet_tblSet _ _ _ _ _

theorem atUnits_other {e : Effect} (h : e.field ≠ .units) (k : Nat) (s : State) : (e.apply s).atUnits k = s.atUnits k :=
  congrArg (tblGet _ k) (Effect.keeps_units h s)

theorem atUnits_run {M : List StateField} (hM : (M.elem .units) = false) {a : Act} (h : a.only (Within M)) (k : Nat) (s : State) :
    (run a s).atUnits k = s.atUnits k :=
  view_of_within h (fun s => s.atUnits k) (fun _ s he => atUnits_other (fun hc => by
    rw [← hc, List.elem_eq_true_of_mem he] at hM; cases hM) k s) s

@[simp] theorem atRings_same (k : Nat) (v : RingAux) (s : State) : ((Effect.rings k v).apply s).atRings k = v :=
  tblGet_tblSet_same _ _ _ _

theorem atRings_set (j k : Nat) (v : RingAux) (s : State) :
    ((Effect.rings k v).apply s).atRings j = if j = k then v else s.atRings j := tblGet_tblSet _ _ _ _ _

theorem atRings_other {e : Effect} (h : e.field ≠ .rings) (k : Nat) (s : State) : (e.apply s).atRings k = s.atRings k :=
  congrArg (tblGet _ k) (Effect.keeps_rings h s)

theorem atRings_run {M : List StateField} (hM : (M.elem .rings) = false) {a : Act} (h : a.only (Within M)) (k : Nat) (s : State) :
    (run a s).atRings k = s.atRings k :=
  view_of_within h (fun s => s.atRings k) (fun _ s he => atRings_other (fun hc => by
    rw [← hc, List.elem_eq_true_of_mem he] at hM; cases hM) k s) s

@[simp] theorem atJobs_same (k : Nat) (v : (Option Job)) (s : State) : ((Effect.jobs k v).apply s).atJobs k = v :=
  tblGet_tblSet_same _ _ _ _

theorem atJobs_set (j k : Nat) (v : (Option Job)) (s : State) :
    ((Effect.jobs k v).apply s).atJobs j = if j = k then v else s.atJobs j := tblGet_tblSet _ _ _ _ _

theorem atJobs_other {e : Effect} (h : e.field ≠ .jobs) (k : Nat) (s : State) : (e.apply s).atJobs k = s.atJobs k :=
  congrArg (tblGet _ k) (Effect.keeps_jobs h s)

theorem atJobs_run {M : List StateField} (hM : (M.elem .jobs) = false) {a : Act} (h : a.only (Within M)) (k : Nat) (s : State) :
    (run a s).atJobs k = s.atJobs k :=
  view_of_within h (fun s => s.atJobs k) (fun _ s he => atJobs_other (fun hc => by
    rw [← hc, List.elem_eq_true_of_mem he] at hM; cases hM) k s) s

@[simp] theorem atMem_same (k : Nat) (v : Byte) (s : State) : ((Effect.mem k v).apply s).atMem k = v :=
  tblGet_tblSet_same _ _ _ _

theorem atMem_set (j k : Nat) (v : Byte) (s : State) :
    ((Effect.mem k v).apply s).atMem j = if j = k then v else s.atMem j := tblGet_tblSet _ _ _ _ _

theorem atMem_other {e : Effect} (h : e.field ≠ .mem) (k : Nat) (s : State) : (e.apply s).atMem k = s.atMem k :=
  congrArg (tblGet _ k) (Effect.keeps_mem h s)

theorem atMem_run {M : List StateField} (hM : (M.elem .mem) = false) {a : Act} (h : a.only (Within M)) (k : Nat) (s : State) :
    (run a s).atMem k = s.atMem k :=
  view_of_within h (fun s => s.atMem k) (fun _ s he => atMem_other (fun hc => by
    rw [← hc, List.elem_eq_true_of_mem he] at hM; cases hM) k s) s

@[simp] theorem atCodingMap_same (k : Nat) (v : Byte) (s : State) : ((Effect.codingMap k v).apply s).atCodingMap k = v :=
  tblGet_tblSet_same _ _ _ _

theorem atCodingMap_set (j k : Nat) (v : Byte) (s : State) :
    ((Effect.codingMap k v).apply s).atCodingMap j = if j = k then v else s.atCodingMap j := tblGet_tblSet _ _ _ _ _

theorem atCodingMap_other {e : Effect} (h : e.field ≠ .codingMap) (k : Nat) (s : State) : (e.apply s).atCodingMap k = s.atCodingMap k :=
  congrArg (tblGet _ k) (Effect.keeps_codingMap h s)

theorem atCodingMap_run {M : List StateField} (hM : (M.elem .codingMap) = false) {a : Act} (h : a.only (Within M)) (k : Nat) (s : State) :
    (run a s).atCodingMap k = s.atCodingMap k :=
  view_of_within h (fun s => s.atCodingMap k) (fun _ s he => atCodingMap_other (fun hc => by
    rw [← hc, List.elem_eq_true_of_mem he] at hM; cases hM) k s) s

@[simp] theorem atCrcDiff_same (k : Nat) (v : Word) (s : State) : ((Effect.crcDiff k v).apply s).atCrcDiff k = v :=
  tblGet_tblSet_same _ _ _ _

theorem atCrcDiff_set (j k : Nat) (v : Word) (s : State) :
    ((Effect.crcDiff k v).apply s).atCrcDiff j = if j = k then v else s.atCrcDiff j := tblGet_tblSet _ _ _ _ _

theorem atCrcDiff_other {e : Effect} (h : e.field ≠ .crcDiff) (k : Nat) (s : State) : (e.apply s).atCrcDiff k = s.atCrcDiff k :=
  congrArg (tblGet _ k) (Effect.keeps_crcDiff h s)

theorem atCrcDiff_run {M : List StateField} (hM : (M.elem .crcDiff) = false) {a : Act} (h : a.only (Within M)) (k : Nat) (s : State) :
    (run a s).atCrcDiff k = s.atCrcDiff k :=
  view_of_within h (fun s => s.atCrcDiff k) (fun _ s he => atCrcDiff_other (fun hc => by
    rw [← hc, List.elem_eq_true_of_mem he] at hM; cases hM) k s) s

@[simp] theorem atHeld_same (k : Nat) (v : (Option HeldBillet)) (s : State) : ((Effect.held k v).apply s).atHeld k = v :=
  tblGet_tblSet_same _ _ _ _

theorem atHeld_set (j k : Nat) (v : (Option HeldBillet)) (s : State) :
    ((Effect.held k v).apply s).atHeld j = if j = k then v else s.atHeld j := tblGet_tblSet _ _ _ _ _

theorem atHeld_other {e : Effect} (h : e.field ≠ .held) (k : Nat) (s : State) : (e.apply s).atHeld k = s.atHeld k :=
  congrArg (tblGet _ k) (Effect.keeps_held h s)

theorem atHeld_run {M : List StateField} (hM : (M.elem .held) = false) {a : Act} (h : a.only (Within M)) (k : Nat) (s : State) :
    (run a s).atHeld k = s.atHeld k :=
  view_of_within h (fun s => s.atHeld k) (fun _ s he => atHeld_other (fun hc => by
    rw [← hc, List.elem_eq_true_of_mem he] at hM; cases hM) k s) s

@[simp] theorem atBuffered_same (k : Nat) (v : (List BufBillet)) (s : State) : ((Effect.buffered k v).apply s).atBuffered k = v :=
  tblGet_tblSet_same _ _ _ _

theorem atBuffered_set (j k : Nat) (v : (List BufBillet)) (s : State) :
    ((Effect.buffered k v).apply s).atBuffered j = if j = k then v else s.atBuffered j := tblGet_tblSet _ _ _ _ _

theorem atBuffered_other {e : Effect} (h : e.field ≠ .buffered) (k : Nat) (s : State) : (e.apply s).atBuffered k = s.atBuffered k :=
  congrArg (tblGet _ k) (Effect.keeps_buffered h s)

theorem atBuffered_run {M : List StateField} (hM : (M.elem .buffered) = false) {a : Act} (h : a.only (Within M)) (k : Nat) (s : State) :
    (run a s).atBuffered k = s.atBuffered k :=
  view_of_within h (fun s => s.atBuffered k) (fun _ s he => atBuffered_other (fun hc => by
    rw [← hc, List.elem_eq_true_of_mem he] at hM; cases hM) k s) s

@[simp] theorem atLcSlots_same (k : Nat) (v : LcSlot) (s : State) : ((Effect.lcSlots k v).apply s).atLcSlots k = v :=
  tblGet_tblSet_same _ _ _ _

theorem atLcSlots_set (j k : Nat) (v : LcSlot) (s : State) :
    ((Effect.lcSlots k v).apply s).atLcSlots j = if j = k then v else s.atLcSlots j := tblGet_tblSet _ _ _ _ _

theorem atLcSlots_other {e : Effect} (h : e.field ≠ .lcSlots) (k : Nat) (s : State) : (e.apply s).atLcSlots k = s.atLcSlots k :=
  congrArg (tblGet _ k) (Effect.keeps_lcSlots h s)

theorem atLcSlots_run {M : List StateField} (hM : (M.elem .lcSlots) = false) {a : Act} (h : a.only (Within M)) (k : Nat) (s : State) :
    (run a s).atLcSlots k = s.atLcSlots k :=
  view_of_within h (fun s => s.atLcSlots k) (fun _ s he => atLcSlots_other (fun hc => by
    rw [← hc, List.elem_eq_true_of_mem he] at hM; cases hM) k s) s

@[simp] theorem atSp_same (k : Nat) (v : Byte) (s : State) : ((Effect.sp k v).apply s).atSp k = v :=
  tblGet_tblSet_same _ _ _ _

theorem atSp_set (j k : Nat) (v : Byte) (s : State) :
    ((Effect.sp k v).apply s).atSp j = if j = k then v else s.atSp j := tblGet_tblSet _ _ _ _ _

theorem atSp_other {e : Effect} (h : e.field ≠ .sp) (k : Nat) (s : State) : (e.apply s).atSp k = s.atSp k :=
  congrArg (tblGet _ k) (Effect.keeps_sp h s)

theorem atSp_run {M : List StateField} (hM : (M.elem .sp) = false) {a : Act} (h : a.only (Within M)) (k : Nat) (s : State) :
    (run a s).atSp k = s.atSp k :=
  view_of_within h (fun s => s.atSp k) (fun _ s he => atSp_other (fun hc => by
    rw [← hc, List.elem_eq_true_of_mem he] at hM; cases hM) k s) s

@[simp] theorem atArrays_same (k : Nat) (v : ArraySt) (s : State) : ((Effect.arrays k v).apply s).atArrays k = v :=
  tblGet_tblSet_same _ _ _ _

theorem atArrays_set (j k : Nat) (v : ArraySt) (s : State) :
    ((Effect.arrays k v).apply s).atArrays j = if j = k then v else s.atArrays j := tblGet_tblSet _ _ _ _ _

theorem atArrays_other {e : Effect} (h : e.field ≠ .arrays) (k : Nat) (s : State) : (e.apply s).atArrays k = s.atArrays k :=
  congrArg (tblGet _ k) (Effect.keeps_arrays h s)

theorem atArrays_run {M : List StateField} (hM : (M.elem .arrays) = false) {a : Act} (h : a.only (Within M)) (k : Nat) (s : State) :
    (run a s).atArrays k = s.atArrays k :=
  view_of_within h (fun s => s.atArrays k) (fun _ s he => atArrays_other (fun hc => by
    rw [← hc, List.elem_eq_true_of_mem he] at hM; cases hM) k s) s

@[simp] theorem atEngines_same (k : Nat) (v : EngineSt) (s : State) : ((Effect.engines k v).apply s).atEngines k = v :=
  tblGet_tblSet_same _ _ _ _

theorem atEngines_set (j k : Nat) (v : EngineSt) (s : State) :
    ((Effect.engines k v).apply s).atEngines j = if j = k then v else s.atEngines j := tblGet_tblSet _ _ _ _ _

theorem atEngines_other {e : Effect} (h : e.field ≠ .engines) (k : Nat) (s : State) : (e.apply s).atEngines k = s.atEngines k :=
  congrArg (tblGet _ k) (Effect.keeps_engines h s)

theorem atEngines_run {M : List StateField} (hM : (M.elem .engines) = false) {a : Act} (h : a.only (Within M)) (k : Nat) (s : State) :
    (run a s).atEngines k = s.atEngines k :=
  view_of_within h (fun s => s.atEngines k) (fun _ s he => atEngines_other (fun hc => by
    rw [← hc, List.elem_eq_true_of_mem he] at hM; cases hM) k s) s

@[simp] theorem atCtxs_same (k : Nat) (v : CtxRec) (s : State) : ((Effect.ctxs k v).apply s).atCtxs k = v :=
  tblGet_tblSet_same _ _ _ _

theorem atCtxs_set (j k : Nat) (v : CtxRec) (s : State) :
    ((Effect.ctxs k v).apply s).atCtxs j = if j = k then v else s.atCtxs j := tblGet_tblSet _ _ _ _ _

theorem atCtxs_other {e : Effect} (h : e.field ≠ .ctxs) (k : Nat) (s : State) : (e.apply s).atCtxs k = s.atCtxs k :=
  congrArg (tblGet _ k) (Effect.keeps_ctxs h s)

theorem atCtxs_run {M : List StateField} (hM : (M.elem .ctxs) = false) {a : Act} (h : a.only (Within M)) (k : Nat) (s : State) :
    (run a s).atCtxs k = s.atCtxs k :=
  view_of_within h (fun s => s.atCtxs k) (fun _ s he => atCtxs_other (fun hc => by
    rw [← hc, List.elem_eq_true_of_mem he] at hM; cases hM) k s) s

@[simp] theorem atEntries_same (k : Nat) (v : (Option EntryRec)) (s : State) : ((Effect.entries k v).apply s).atEntries k = v :=
  tblGet_tblSet_same _ _ _ _

theorem atEntries_set (j k : Nat) (v : (Option EntryRec)) (s : State) :
    ((Effect.entries k v).apply s).atEntries j = if j = k then v else s.atEntries j := tblGet_tblSet _ _ _ _ _

theorem atEntries_other {e : Effect} (h : e.field ≠ .entries) (k : Nat) (s : State) : (e.apply s).atEntries k = s.atEntries k :=
  congrArg (tblGet _ k) (Effect.keeps_entries h s)

theorem atEntries_run {M : List StateField} (hM : (M.elem .entries) = false) {a : Act} (h : a.only (Within M)) (k : Nat) (s : State) :
    (run a s).atEntries k = s.atEntries k :=
  view_of_within h (fun s => s.atEntries k) (fun _ s he => atEntries_other (fun hc => by
    rw [← hc, List.elem_eq_true_of_mem he] at hM; cases hM) k s) s

@[simp] theorem atLanes_same (k : Nat) (v : LaneRec) (s : State) : ((Effect.lanes k v).apply s).atLanes k = v :=
  tblGet_tblSet_same _ _ _ _

theorem atLanes_set (j k : Nat) (v : LaneRec) (s : State) :
    ((Effect.lanes k v).apply s).atLanes j = if j = k then v else s.atLanes j := tblGet_tblSet _ _ _ _ _

theorem atLanes_other {e : Effect} (h : e.field ≠ .lanes) (k : Nat) (s : State) : (e.apply s).atLanes k = s.atLanes k :=
  congrArg (tblGet _ k) (Effect.keeps_lanes h s)

theorem atLanes_run {M : List StateField} (hM : (M.elem .lanes) = false) {a : Act} (h : a.only (Within M)) (k : Nat) (s : State) :
    (run a s).atLanes k = s.atLanes k :=
  view_of_within h (fun s => s.atLanes k) (fun _ s he => atLanes_other (fun hc => by
    rw [← hc, List.elem_eq_true_of_mem he] at hM; cases hM) k s) s

@[simp] theorem atClassCounts_same (k : Nat) (v : ClassCount) (s : State) : ((Effect.classCounts k v).apply s).atClassCounts k = v :=
  tblGet_tblSet_same _ _ _ _

theorem atClassCounts_set (j k : Nat) (v : ClassCount) (s : State) :
    ((Effect.classCounts k v).apply s).atClassCounts j = if j = k then v else s.atClassCounts j := tblGet_tblSet _ _ _ _ _

theorem atClassCounts_other {e : Effect} (h : e.field ≠ .classCounts) (k : Nat) (s : State) : (e.apply s).atClassCounts k = s.atClassCounts k :=
  congrArg (tblGet _ k) (Effect.keeps_classCounts h s)

theorem atClassCounts_run {M : List StateField} (hM : (M.elem .classCounts) = false) {a : Act} (h : a.only (Within M)) (k : Nat) (s : State) :
    (run a s).atClassCounts k = s.atClassCounts k :=
  view_of_within h (fun s => s.atClassCounts k) (fun _ s he => atClassCounts_other (fun hc => by
    rw [← hc, List.elem_eq_true_of_mem he] at hM; cases hM) k s) s

@[simp] theorem atPorts_same (k : Nat) (v : PortSt) (s : State) : ((Effect.ports k v).apply s).atPorts k = v :=
  tblGet_tblSet_same _ _ _ _

theorem atPorts_set (j k : Nat) (v : PortSt) (s : State) :
    ((Effect.ports k v).apply s).atPorts j = if j = k then v else s.atPorts j := tblGet_tblSet _ _ _ _ _

theorem atPorts_other {e : Effect} (h : e.field ≠ .ports) (k : Nat) (s : State) : (e.apply s).atPorts k = s.atPorts k :=
  congrArg (tblGet _ k) (Effect.keeps_ports h s)

theorem atPorts_run {M : List StateField} (hM : (M.elem .ports) = false) {a : Act} (h : a.only (Within M)) (k : Nat) (s : State) :
    (run a s).atPorts k = s.atPorts k :=
  view_of_within h (fun s => s.atPorts k) (fun _ s he => atPorts_other (fun hc => by
    rw [← hc, List.elem_eq_true_of_mem he] at hM; cases hM) k s) s

@[simp] theorem atRemotes_same (k : Nat) (v : (Option RemoteReq)) (s : State) : ((Effect.remotes k v).apply s).atRemotes k = v :=
  tblGet_tblSet_same _ _ _ _

theorem atRemotes_set (j k : Nat) (v : (Option RemoteReq)) (s : State) :
    ((Effect.remotes k v).apply s).atRemotes j = if j = k then v else s.atRemotes j := tblGet_tblSet _ _ _ _ _

theorem atRemotes_other {e : Effect} (h : e.field ≠ .remotes) (k : Nat) (s : State) : (e.apply s).atRemotes k = s.atRemotes k :=
  congrArg (tblGet _ k) (Effect.keeps_remotes h s)

theorem atRemotes_run {M : List StateField} (hM : (M.elem .remotes) = false) {a : Act} (h : a.only (Within M)) (k : Nat) (s : State) :
    (run a s).atRemotes k = s.atRemotes k :=
  view_of_within h (fun s => s.atRemotes k) (fun _ s he => atRemotes_other (fun hc => by
    rw [← hc, List.elem_eq_true_of_mem he] at hM; cases hM) k s) s

@[simp] theorem atWindows_same (k : Nat) (v : WinSt) (s : State) : ((Effect.windows k v).apply s).atWindows k = v :=
  tblGet_tblSet_same _ _ _ _

theorem atWindows_set (j k : Nat) (v : WinSt) (s : State) :
    ((Effect.windows k v).apply s).atWindows j = if j = k then v else s.atWindows j := tblGet_tblSet _ _ _ _ _

theorem atWindows_other {e : Effect} (h : e.field ≠ .windows) (k : Nat) (s : State) : (e.apply s).atWindows k = s.atWindows k :=
  congrArg (tblGet _ k) (Effect.keeps_windows h s)

theorem atWindows_run {M : List StateField} (hM : (M.elem .windows) = false) {a : Act} (h : a.only (Within M)) (k : Nat) (s : State) :
    (run a s).atWindows k = s.atWindows k :=
  view_of_within h (fun s => s.atWindows k) (fun _ s he => atWindows_other (fun hc => by
    rw [← hc, List.elem_eq_true_of_mem he] at hM; cases hM) k s) s

@[simp] theorem atStreams_same (k : Nat) (v : StreamSt) (s : State) : ((Effect.streams k v).apply s).atStreams k = v :=
  tblGet_tblSet_same _ _ _ _

theorem atStreams_set (j k : Nat) (v : StreamSt) (s : State) :
    ((Effect.streams k v).apply s).atStreams j = if j = k then v else s.atStreams j := tblGet_tblSet _ _ _ _ _

theorem atStreams_other {e : Effect} (h : e.field ≠ .streams) (k : Nat) (s : State) : (e.apply s).atStreams k = s.atStreams k :=
  congrArg (tblGet _ k) (Effect.keeps_streams h s)

theorem atStreams_run {M : List StateField} (hM : (M.elem .streams) = false) {a : Act} (h : a.only (Within M)) (k : Nat) (s : State) :
    (run a s).atStreams k = s.atStreams k :=
  view_of_within h (fun s => s.atStreams k) (fun _ s he => atStreams_other (fun hc => by
    rw [← hc, List.elem_eq_true_of_mem he] at hM; cases hM) k s) s

@[simp] theorem atPipes_same (k : Nat) (v : PipeSt) (s : State) : ((Effect.pipes k v).apply s).atPipes k = v :=
  tblGet_tblSet_same _ _ _ _

theorem atPipes_set (j k : Nat) (v : PipeSt) (s : State) :
    ((Effect.pipes k v).apply s).atPipes j = if j = k then v else s.atPipes j := tblGet_tblSet _ _ _ _ _

theorem atPipes_other {e : Effect} (h : e.field ≠ .pipes) (k : Nat) (s : State) : (e.apply s).atPipes k = s.atPipes k :=
  congrArg (tblGet _ k) (Effect.keeps_pipes h s)

theorem atPipes_run {M : List StateField} (hM : (M.elem .pipes) = false) {a : Act} (h : a.only (Within M)) (k : Nat) (s : State) :
    (run a s).atPipes k = s.atPipes k :=
  view_of_within h (fun s => s.atPipes k) (fun _ s he => atPipes_other (fun hc => by
    rw [← hc, List.elem_eq_true_of_mem he] at hM; cases hM) k s) s

@[simp] theorem atLayers_same (k : Nat) (v : LayerSt) (s : State) : ((Effect.layers k v).apply s).atLayers k = v :=
  tblGet_tblSet_same _ _ _ _

theorem atLayers_set (j k : Nat) (v : LayerSt) (s : State) :
    ((Effect.layers k v).apply s).atLayers j = if j = k then v else s.atLayers j := tblGet_tblSet _ _ _ _ _

theorem atLayers_other {e : Effect} (h : e.field ≠ .layers) (k : Nat) (s : State) : (e.apply s).atLayers k = s.atLayers k :=
  congrArg (tblGet _ k) (Effect.keeps_layers h s)

theorem atLayers_run {M : List StateField} (hM : (M.elem .layers) = false) {a : Act} (h : a.only (Within M)) (k : Nat) (s : State) :
    (run a s).atLayers k = s.atLayers k :=
  view_of_within h (fun s => s.atLayers k) (fun _ s he => atLayers_other (fun hc => by
    rw [← hc, List.elem_eq_true_of_mem he] at hM; cases hM) k s) s

@[simp] theorem atOuts_same (k : Nat) (v : OutSt) (s : State) : ((Effect.outs k v).apply s).atOuts k = v :=
  tblGet_tblSet_same _ _ _ _

theorem atOuts_set (j k : Nat) (v : OutSt) (s : State) :
    ((Effect.outs k v).apply s).atOuts j = if j = k then v else s.atOuts j := tblGet_tblSet _ _ _ _ _

theorem atOuts_other {e : Effect} (h : e.field ≠ .outs) (k : Nat) (s : State) : (e.apply s).atOuts k = s.atOuts k :=
  congrArg (tblGet _ k) (Effect.keeps_outs h s)

theorem atOuts_run {M : List StateField} (hM : (M.elem .outs) = false) {a : Act} (h : a.only (Within M)) (k : Nat) (s : State) :
    (run a s).atOuts k = s.atOuts k :=
  view_of_within h (fun s => s.atOuts k) (fun _ s he => atOuts_other (fun hc => by
    rw [← hc, List.elem_eq_true_of_mem he] at hM; cases hM) k s) s

@[simp] theorem atFlash_same (k : Nat) (v : Byte) (s : State) : ((Effect.flash k v).apply s).atFlash k = v :=
  tblGet_tblSet_same _ _ _ _

theorem atFlash_set (j k : Nat) (v : Byte) (s : State) :
    ((Effect.flash k v).apply s).atFlash j = if j = k then v else s.atFlash j := tblGet_tblSet _ _ _ _ _

theorem atFlash_other {e : Effect} (h : e.field ≠ .flash) (k : Nat) (s : State) : (e.apply s).atFlash k = s.atFlash k :=
  congrArg (tblGet _ k) (Effect.keeps_flash h s)

theorem atFlash_run {M : List StateField} (hM : (M.elem .flash) = false) {a : Act} (h : a.only (Within M)) (k : Nat) (s : State) :
    (run a s).atFlash k = s.atFlash k :=
  view_of_within h (fun s => s.atFlash k) (fun _ s he => atFlash_other (fun hc => by
    rw [← hc, List.elem_eq_true_of_mem he] at hM; cases hM) k s) s

@[simp] theorem atTblk_same (k : Nat) (v : TrackBlk) (s : State) : ((Effect.tblk k v).apply s).atTblk k = v :=
  tblGet_tblSet_same _ _ _ _

theorem atTblk_set (j k : Nat) (v : TrackBlk) (s : State) :
    ((Effect.tblk k v).apply s).atTblk j = if j = k then v else s.atTblk j := tblGet_tblSet _ _ _ _ _

theorem atTblk_other {e : Effect} (h : e.field ≠ .tblk) (k : Nat) (s : State) : (e.apply s).atTblk k = s.atTblk k :=
  congrArg (tblGet _ k) (Effect.keeps_tblk h s)

theorem atTblk_run {M : List StateField} (hM : (M.elem .tblk) = false) {a : Act} (h : a.only (Within M)) (k : Nat) (s : State) :
    (run a s).atTblk k = s.atTblk k :=
  view_of_within h (fun s => s.atTblk k) (fun _ s he => atTblk_other (fun hc => by
    rw [← hc, List.elem_eq_true_of_mem he] at hM; cases hM) k s) s

@[simp] theorem atTcache_same (k : Nat) (v : (Option CacheBlk)) (s : State) : ((Effect.tcache k v).apply s).atTcache k = v :=
  tblGet_tblSet_same _ _ _ _

theorem atTcache_set (j k : Nat) (v : (Option CacheBlk)) (s : State) :
    ((Effect.tcache k v).apply s).atTcache j = if j = k then v else s.atTcache j := tblGet_tblSet _ _ _ _ _

theorem atTcache_other {e : Effect} (h : e.field ≠ .tcache) (k : Nat) (s : State) : (e.apply s).atTcache k = s.atTcache k :=
  congrArg (tblGet _ k) (Effect.keeps_tcache h s)

theorem atTcache_run {M : List StateField} (hM : (M.elem .tcache) = false) {a : Act} (h : a.only (Within M)) (k : Nat) (s : State) :
    (run a s).atTcache k = s.atTcache k :=
  view_of_within h (fun s => s.atTcache k) (fun _ s he => atTcache_other (fun hc => by
    rw [← hc, List.elem_eq_true_of_mem he] at hM; cases hM) k s) s

@[simp] theorem atTcam_same (k : Nat) (v : CamRec) (s : State) : ((Effect.tcam k v).apply s).atTcam k = v :=
  tblGet_tblSet_same _ _ _ _

theorem atTcam_set (j k : Nat) (v : CamRec) (s : State) :
    ((Effect.tcam k v).apply s).atTcam j = if j = k then v else s.atTcam j := tblGet_tblSet _ _ _ _ _

theorem atTcam_other {e : Effect} (h : e.field ≠ .tcam) (k : Nat) (s : State) : (e.apply s).atTcam k = s.atTcam k :=
  congrArg (tblGet _ k) (Effect.keeps_tcam h s)

theorem atTcam_run {M : List StateField} (hM : (M.elem .tcam) = false) {a : Act} (h : a.only (Within M)) (k : Nat) (s : State) :
    (run a s).atTcam k = s.atTcam k :=
  view_of_within h (fun s => s.atTcam k) (fun _ s he => atTcam_other (fun hc => by
    rw [← hc, List.elem_eq_true_of_mem he] at hM; cases hM) k s) s

@[simp] theorem atTrings_same (k : Nat) (v : RingAux) (s : State) : ((Effect.trings k v).apply s).atTrings k = v :=
  tblGet_tblSet_same _ _ _ _

theorem atTrings_set (j k : Nat) (v : RingAux) (s : State) :
    ((Effect.trings k v).apply s).atTrings j = if j = k then v else s.atTrings j := tblGet_tblSet _ _ _ _ _

theorem atTrings_other {e : Effect} (h : e.field ≠ .trings) (k : Nat) (s : State) : (e.apply s).atTrings k = s.atTrings k :=
  congrArg (tblGet _ k) (Effect.keeps_trings h s)

theorem atTrings_run {M : List StateField} (hM : (M.elem .trings) = false) {a : Act} (h : a.only (Within M)) (k : Nat) (s : State) :
    (run a s).atTrings k = s.atTrings k :=
  view_of_within h (fun s => s.atTrings k) (fun _ s he => atTrings_other (fun hc => by
    rw [← hc, List.elem_eq_true_of_mem he] at hM; cases hM) k s) s

@[simp] theorem atFlog_same (k : Nat) (v : (BitVec 256)) (s : State) : ((Effect.flog k v).apply s).atFlog k = v :=
  tblGet_tblSet_same _ _ _ _

theorem atFlog_set (j k : Nat) (v : (BitVec 256)) (s : State) :
    ((Effect.flog k v).apply s).atFlog j = if j = k then v else s.atFlog j := tblGet_tblSet _ _ _ _ _

theorem atFlog_other {e : Effect} (h : e.field ≠ .flog) (k : Nat) (s : State) : (e.apply s).atFlog k = s.atFlog k :=
  congrArg (tblGet _ k) (Effect.keeps_flog h s)

theorem atFlog_run {M : List StateField} (hM : (M.elem .flog) = false) {a : Act} (h : a.only (Within M)) (k : Nat) (s : State) :
    (run a s).atFlog k = s.atFlog k :=
  view_of_within h (fun s => s.atFlog k) (fun _ s he => atFlog_other (fun hc => by
    rw [← hc, List.elem_eq_true_of_mem he] at hM; cases hM) k s) s

end Sys2Proof.Machine
end

