-- ==== Sys2Proof/Laws/Footprint.lean ====
section
/-! SUPPORT. Where an act may reach: the fields it may change and, of the registers, the addresses it may write. One lemma
for each shared operation says so once for all; a frame follows from it. -/

namespace Sys2Proof.Machine

/-- The register addresses an effect may write all satisfy `P`. -/
def Effect.keysIn (P : Nat → Prop) : Effect → Prop
  | .regs k _ => P k
  | .regsReset lo hi => ∀ k, lo ≤ k → k < hi → P k
  | _ => True

/-- An effect that changes only fields that satisfy `F`, and of the registers only those at addresses that satisfy `P`. -/
def Fits (F : StateField → Prop) (P : Nat → Prop) (e : Effect) : Prop := F e.field ∧ e.keysIn P

variable {F : StateField → Prop} {P : Nat → Prop}

/-- An act leaves a register outside its addresses as it was. -/
theorem reg_of_fits {a : Act} (h : a.only (Fits F P)) {p off : Nat} (hk : ¬ P (regAddr p off)) (s : State) :
    (run a s).reg p off = s.reg p off :=
  run_only (fun s => s.reg p off) (fun e s he => by
    cases e <;> first
      | rfl
      | (rename_i k v; exact tblGet_tblSet_other _ (fun hc => hk (by rw [hc]; exact he.2)) _ _)
      | (rename_i lo hi
         refine (tblGet_tblClear _ _ _ _ _).trans (if_neg fun hc => hk (he.2 _ hc.1 hc.2)))) a s h

/-- An act leaves a field outside its fields as it was. -/
theorem view_of_fits {α : Type} {a : Act} (h : a.only (Fits F P)) (view : State → α)
    (hv : ∀ (e : Effect) (s : State), F e.field → view (e.apply s) = view s) (s : State) :
    view (run a s) = view s :=
  run_only view (fun e s he => hv e s he.1) a s h

/-- What an act of a smaller reach does, an act of a larger reach may do. -/
theorem Fits.mono {G : StateField → Prop} {Q : Nat → Prop} (hF : ∀ x, F x → G x) (hP : ∀ k, P k → Q k) {e : Effect}
    (h : Fits F P e) : Fits G Q e := by
  refine ⟨hF _ h.1, ?_⟩
  cases e <;> first | trivial | exact hP _ h.2 | exact fun k h1 h2 => hP k (h.2 k h1 h2)

/-! ## The shapes of acts, for `simp` -/

section
variable {T : Effect → Prop}

theorem only_whenA_iff {c : Bool} {a : Act} : (whenA c a).only T ↔ (c = true → a.only T) := by
  cases c <;> simp [whenA]

theorem only_optA_iff {α : Type} {o : Option α} {f : α → Act} : (optA o f).only T ↔ ∀ x, o = some x → (f x).only T := by
  cases o <;> simp [optA]

theorem only_forA_iff {α : Type} {l : List α} {f : α → Act} : (forA l f).only T ↔ ∀ x ∈ l, (f x).only T := by
  induction l with
  | nil => simp [forA]
  | cons x l ih => simp [forA, ih]

theorem only_mono {U : Effect → Prop} (h : ∀ e, T e → U e) : ∀ a : Act, a.only T → a.only U
  | .done, _ => trivial
  | .eff e, ha => h e ha
  | .seq a b, ha => ⟨only_mono h a ha.1, only_mono h b ha.2⟩
  | .look f, ha => fun s => only_mono h (f s) (ha s)
end

/-! ## Registers -/

theorem fits_setReg {p off : Nat} {v : Word} (hF : F .regs) (hP : P (regAddr p off)) :
    (setReg p off v).only (Fits F P) := ⟨hF, hP⟩

theorem fits_setRegN {p off v : Nat} (hF : F .regs) (hP : P (regAddr p off)) :
    (setRegN p off v).only (Fits F P) := ⟨hF, hP⟩

theorem fits_setFld {p off lo len v : Nat} (hF : F .regs) (hP : P (regAddr p off)) :
    (setFld p off lo len v).only (Fits F P) := fun _ => ⟨hF, hP⟩

theorem fits_setReg64 {p off v : Nat} (hF : F .regs) (hP : P (regAddr p off)) (hP' : P (regAddr p (off + 4))) :
    (setReg64 p off v).only (Fits F P) := ⟨⟨hF, hP⟩, ⟨hF, hP'⟩⟩

theorem fits_bump {p off n : Nat} (hF : F .regs) (hP : P (regAddr p off)) (hP' : P (regAddr p (off + 4))) :
    (bump p off n).only (Fits F P) := fun _ => only_ite.2 ⟨fun _ => trivial, fun _ => fits_setReg64 hF hP hP'⟩

theorem fits_withFree {k : BitVec 64 → Act} (hF : F .free) (hk : ∀ x, (k x).only (Fits F P)) :
    (withFree k).only (Fits F P) := fun _ => ⟨⟨hF, trivial⟩, hk _⟩

theorem fits_setUnit {u : UnitId} {r : UnitRec} (hF : F .units) : (setUnit u r).only (Fits F P) := ⟨hF, trivial⟩

/-! ## Reporting: interrupts, errors and events -/

/-- The registers that a masked interrupt sets: pending bits of the PF (page 0x017) and of the VFs. -/
def msgKey (k : Nat) : Prop := k / 4096 = 0x017 ∨ (0x1020 < k / 4096 ∧ k / 4096 < 0x1040 ∧ 0x800 ≤ k % 4096)

/-- The registers that a record written to an event ring changes, in the global pages: the ring's own, and the error and
interrupt registers of the page. -/
def evrKey (k : Nat) : Prop :=
  (k / 4096 = 0 ∨ (0x1000 < k / 4096 ∧ k / 4096 < 0x1020)) ∧
    ((0x018 ≤ k % 4096 ∧ k % 4096 < 0x02C) ∨ (0x400 ≤ k % 4096 ∧ k % 4096 < 0x500))

/-- The registers that a report of page `p` changes: its error and interrupt registers and those of rings and messages. -/
def reportKey (p k : Nat) : Prop :=
  (k / 4096 = p ∧ 0x018 ≤ k % 4096 ∧ k % 4096 < 0x02C) ∨ msgKey k ∨ evrKey k

/-- A reach that has room for a report of page `p`. -/
structure Reports (p : Nat) (F : StateField → Prop) (P : Nat → Prop) : Prop where
  regs : F .regs
  rings : F .rings
  free : F .free
  out : F .out
  keys : ∀ k, reportKey p k → P k

theorem regAddr_div {p off : Nat} (h : off < 4096) : regAddr p off / 4096 = p := by unfold regAddr; omega

theorem regAddr_mod {p off : Nat} (h : off < 4096) : regAddr p off % 4096 = off := by unfold regAddr; omega

theorem globalPage_zero_or (f : Func) : globalPage f = 0 ∨ (0x1000 < globalPage f ∧ globalPage f < 0x1020) := by
  unfold globalPage; have := f.isLt; split <;> omega

theorem fits_fireVector {f : Func} {v : Nat} (hr : F .regs) (ho : F .out) (hk : ∀ k, msgKey k → P k) :
    (fireVector f v).only (Fits F P) := by
  intro s
  simp only [only_ite, only_done, only_eff]
  refine ⟨fun _ => trivial, fun hv => ⟨fun _ => fits_setReg hr (hk _ ?_), fun _ => ⟨ho, trivial⟩⟩⟩
  have := f.isLt
  unfold msgKey
  simp only [msixCount, msixPba] at hv ⊢
  by_cases h0 : f.val = 0
  · simp only [h0, if_true] at hv ⊢
    rw [regAddr_div (by omega)]; exact .inl rfl
  · simp only [h0, if_false] at hv ⊢
    rw [regAddr_div (by omega), regAddr_mod (by omega)]; unfold vfMsixPage
    exact .inr ⟨by omega, by omega, by omega⟩

theorem reportKey_own {p off : Nat} (h : 0x018 ≤ off) (h' : off < 0x02C) : reportKey p (regAddr p off) :=
  .inl ⟨regAddr_div (by omega), by rw [regAddr_mod (by omega)]; exact ⟨h, h'⟩⟩

theorem fits_raiseIrq {p i : Nat} (h : Reports p F P) : (raiseIrq p i).only (Fits F P) := fun _ =>
  ⟨fits_setReg h.regs (h.keys _ (reportKey_own (by omega) (by omega))),
    only_whenA fun _ => fits_fireVector h.regs h.out fun k hk => h.keys k (.inr (.inl hk))⟩

theorem fits_recordQuiet {p code : Nat} {i0 i1 : Word} (h : Reports p F P) :
    (recordQuiet p code i0 i1).only (Fits F P) := fun _ =>
  ⟨fits_setRegN h.regs (h.keys _ (reportKey_own (by omega) (by omega))),
    fits_setReg h.regs (h.keys _ (reportKey_own (by omega) (by omega))),
    fits_setReg h.regs (h.keys _ (reportKey_own (by omega) (by omega))), fits_raiseIrq h, trivial⟩

/-- What a report of any page may do to rings and messages, a report of a global page may do. -/
theorem Reports.toGlobal {p : Nat} (h : Reports p F P) (f : Func) : Reports (globalPage f) F P where
  regs := h.regs
  rings := h.rings
  free := h.free
  out := h.out
  keys k hk := h.keys k (by
    rcases hk with ⟨h1, h2⟩ | hk
    · exact .inr (.inr ⟨by rw [h1]; exact globalPage_zero_or f, .inl h2⟩)
    · exact .inr hk)

theorem reportKey_evr {p : Nat} {f : Func} {n off : Nat} (hn : n < 8) (ho : off < 32) :
    reportKey p (regAddr (globalPage f) (evrOff n + off)) := by
  have h : evrOff n + off < 4096 := by unfold evrOff; omega
  refine .inr (.inr ⟨?_, .inr ?_⟩)
  · rw [regAddr_div h]; exact globalPage_zero_or f
  · rw [regAddr_mod h]; unfold evrOff; omega

theorem fits_moderate {f : Func} {n p : Nat} (h : Reports p F P) : (moderate f n).only (Fits F P) := fun _ =>
  only_whenA fun _ => ⟨⟨h.rings, trivial⟩, fits_fireVector h.regs h.out fun k hk => h.keys k (.inr (.inl hk))⟩

theorem fits_writeRecord {f : Func} {n kind inst code epoch p : Nat} {payload : List Byte} (hn : n < 8)
    (h : Reports p F P) : (writeRecord f n kind inst code epoch payload).only (Fits F P) := fun _ =>
  ⟨⟨h.out, trivial⟩, fits_setRegN h.regs (h.keys _ (reportKey_evr hn (by omega))), ⟨h.rings, trivial⟩, fits_moderate h,
    trivial⟩

theorem fits_putEvent {f : Func} {n kind inst code epoch p : Nat} {payload : List Byte} (hn : n < 8)
    (h : Reports p F P) : (putEvent f n kind inst code epoch payload).only (Fits F P) := by
  intro s
  simp only [only_ite, only_done]
  refine ⟨fun _ => trivial, fun _ => ⟨fun _ => ?_, fun _ => fits_writeRecord hn h⟩⟩
  exact ⟨fits_setRegN h.regs (h.keys _ (reportKey_evr hn (by omega))), ⟨h.rings, trivial⟩,
    fits_withFree h.free fun _ => fits_recordQuiet (h.toGlobal f), trivial⟩

theorem fld_lt (v : Word) (lo : Nat) : fld v lo 3 < 8 := by
  unfold fld; exact Nat.mod_lt _ (by decide)

theorem fits_pageEvent {q low code p : Nat} {payload : List Byte} (h : Reports p F P) :
    (pageEvent q low code payload).only (Fits F P) := fun _ =>
  only_whenA fun _ => fits_putEvent (fld_lt _ _) h

theorem fits_funcEvent {f : Func} {q low code p : Nat} {payload : List Byte} (h : Reports p F P) :
    (funcEvent f q low code payload).only (Fits F P) := fun _ => fits_putEvent (by decide) h

theorem fits_ownerAndPf {q low code p : Nat} {payload : List Byte} (h : Reports p F P) :
    (ownerAndPf q low code payload).only (Fits F P) := fun _ =>
  ⟨fits_pageEvent h, only_whenA fun _ => fits_funcEvent h⟩

theorem fits_recordErrI {p code : Nat} {i0 i1 : Word} (h : Reports p F P) :
    (recordErrI p code i0 i1).only (Fits F P) := ⟨fits_recordQuiet h, fits_pageEvent h⟩

theorem fits_recordErr {p code : Nat} (h : Reports p F P) : (recordErr p code).only (Fits F P) :=
  fits_withFree h.free fun _ => fits_recordErrI h

theorem fits_pageErr {p cause : Nat} (h : Reports p F P) : (pageErr p cause).only (Fits F P) := fits_recordErr h

theorem fits_hostErr {f : Func} {cause p : Nat} (h : Reports p F P) : (hostErr f cause).only (Fits F P) :=
  fits_recordErr (h.toGlobal f)

/-! ## Semaphores, time and service -/

theorem fits_tick {now : Dword} (h : F .time) : (tick now).only (Fits F P) := ⟨h, trivial⟩

theorem fits_inService {a : Act} (h : a.only (Fits F P)) : (inService a).only (Fits F P) := fun _ =>
  only_ite.2 ⟨fun _ => h, fun _ => trivial⟩

/-- The registers an add to, or a take from, semaphore `n` changes: its value and the two counts of its page. -/
def semKey (n k : Nat) : Prop :=
  k / 4096 = semPage n ∧ (k % 4096 = 0x100 + 4 * (n % 64) ∨ (0x040 ≤ k % 4096 ∧ k % 4096 < 0x050))

theorem semKey_val (n : Nat) : semKey n (regAddr (semPage n) (0x100 + 4 * (n % 64))) :=
  ⟨regAddr_div (by omega), .inl (regAddr_mod (by omega))⟩

theorem semKey_count {n off : Nat} (h : 0x040 ≤ off) (h' : off < 0x050) : semKey n (regAddr (semPage n) off) :=
  ⟨regAddr_div (by omega), .inr (by rw [regAddr_mod (by omega)]; exact ⟨h, h'⟩)⟩

theorem fits_putSem {n : Nat} {v : Word} (hF : F .regs) (hP : ∀ k, semKey n k → P k) : (putSem n v).only (Fits F P) :=
  fits_setReg hF (hP _ (semKey_val n))

theorem fits_semAdd {n : Nat} {v : Word} (hF : F .regs) (hP : ∀ k, semKey n k → P k) : (semAdd n v).only (Fits F P) :=
  fun _ => ⟨fits_putSem hF hP,
    fits_bump hF (hP _ (semKey_count (by omega) (by omega))) (hP _ (semKey_count (by omega) (by omega)))⟩

theorem fits_semTake {n : Nat} {v : Word} (hF : F .regs) (hP : ∀ k, semKey n k → P k) : (semTake n v).only (Fits F P) :=
  fun _ => ⟨fits_putSem hF hP,
    fits_bump hF (hP _ (semKey_count (by omega) (by omega))) (hP _ (semKey_count (by omega) (by omega)))⟩

end Sys2Proof.Machine
end

