-- ==== Sys2Proof/Laws/Registers.lean ====
section
/-! SUPPORT. A register after it is written, and which bits the registers that the statements name have. -/

namespace Sys2Proof.Machine

/-! ## Read after write -/

/-- A register just written holds the value, less its reserved bits (R5). -/
@[simp] theorem reg_setReg (p off : Nat) (v : Word) (s : State) :
    (run (setReg p off v) s).reg p off = v &&& regMask (regAddr p off) :=
  tblGet_tblSet_same _ _ _ _

/-- Writing a register leaves every other register as it was. -/
theorem reg_setReg_other {p off p' off' : Nat} (h : regAddr p' off' ≠ regAddr p off) (v : Word) (s : State) :
    (run (setReg p off v) s).reg p' off' = s.reg p' off' :=
  tblGet_tblSet_other _ h _ _

theorem reg_setReg_page {p off p' off' : Nat} (h : p' ≠ p) (ho : off < 4096) (ho' : off' < 4096) (v : Word) (s : State) :
    (run (setReg p off v) s).reg p' off' = s.reg p' off' :=
  reg_setReg_other (by unfold regAddr; omega) v s

theorem reg_setReg_off {p off off' : Nat} (h : off' ≠ off) (v : Word) (s : State) :
    (run (setReg p off v) s).reg p off' = s.reg p off' :=
  reg_setReg_other (by unfold regAddr; omega) v s

@[simp] theorem reg_setRegN (p off v : Nat) (s : State) :
    (run (setRegN p off v) s).reg p off = BitVec.ofNat 32 v &&& regMask (regAddr p off) := reg_setReg _ _ _ _

@[simp] theorem reg_setFld (p off lo len v : Nat) (s : State) :
    (run (setFld p off lo len v) s).reg p off = putFld (s.reg p off) lo len v &&& regMask (regAddr p off) :=
  reg_setReg _ _ _ _

/-! ## The bits of a register -/

/-- The bits of the register at an offset of a page class. -/
def classMask (c : PageClass) (off : Nat) : Word :=
  (((if hasHeader c then RegMap.headerRegs else []) ++ blockRegs c).filter (rowHas off)).foldl
    (fun m r => m ||| BitVec.ofNat 32 (r.rw ||| r.sh ||| r.w1c ||| r.rc ||| r.ro)) 0

/-- The bits of a register depend on its page's class and its offset alone. -/
theorem regMask_regAddr {p off : Nat} {c : PageClass} (hc : pageClass p = some c) (h : off < 4096) :
    regMask (regAddr p off) = classMask c off := by
  have h1 : regAddr p off / 4096 = p := regAddr_div h
  have h2 : regAddr p off % 4096 = off := regAddr_mod h
  simp only [regMask, rowMask, regRows, classMask, h1, h2, hc]

theorem pageClass_globalPage : ∀ f : Func, pageClass (globalPage f) = some .global := by decide

theorem pageClass_sem {n : Nat} (h : n < 4096) : pageClass (semPage n) = some .sem := by
  have hp : ∀ k : Fin 64, pageClass (0x240 + k.val) = some .sem := by decide
  exact hp ⟨n / 64, by omega⟩

theorem classMask_sem : ∀ k : Fin 64, classMask .sem (0x100 + 4 * k.val) = 0xFFFFFFFF := by decide

/-- Every bit of a semaphore's value exists. -/
theorem regMask_sem {n : Nat} (h : n < 4096) :
    regMask (regAddr (semPage n) (0x100 + 4 * (n % 64))) = 0xFFFFFFFF := by
  rw [regMask_regAddr (pageClass_sem h) (by omega)]
  exact classMask_sem ⟨n % 64, by omega⟩

theorem and_ones (v : Word) : v &&& 0xFFFFFFFF = v := by
  have : (0xFFFFFFFF : Word) = BitVec.allOnes 32 := by decide
  rw [this, BitVec.and_allOnes]

/-- An add to a semaphore (R189). -/
theorem sem_semAdd {n : Nat} (h : n < 4096) (v : Word) (s : State) : (run (semAdd n v) s).sem n = s.sem n + v := by
  have hb : ((bump (semPage n) 0x040 1).only
      (Fits (fun _ => True) fun k => k / 4096 = semPage n ∧ 0x040 ≤ k % 4096 ∧ k % 4096 < 0x050)) :=
    fits_bump trivial ⟨regAddr_div (by omega), by rw [regAddr_mod (by omega)]; omega⟩
      ⟨regAddr_div (by omega), by rw [regAddr_mod (by omega)]; omega⟩
  have hk : ¬ (regAddr (semPage n) (0x100 + 4 * (n % 64)) / 4096 = semPage n
      ∧ 0x040 ≤ regAddr (semPage n) (0x100 + 4 * (n % 64)) % 4096
      ∧ regAddr (semPage n) (0x100 + 4 * (n % 64)) % 4096 < 0x050) := by
    rw [regAddr_mod (by omega)]; omega
  exact (reg_of_fits hb hk _).trans ((reg_setReg _ _ _ _).trans (by rw [regMask_sem h, and_ones]))

/-- A take from a semaphore (R189). -/
theorem sem_semTake {n : Nat} (h : n < 4096) (v : Word) (s : State) : (run (semTake n v) s).sem n = s.sem n - v := by
  have hb : ((bump (semPage n) 0x048 1).only
      (Fits (fun _ => True) fun k => k / 4096 = semPage n ∧ 0x040 ≤ k % 4096 ∧ k % 4096 < 0x050)) :=
    fits_bump trivial ⟨regAddr_div (by omega), by rw [regAddr_mod (by omega)]; omega⟩
      ⟨regAddr_div (by omega), by rw [regAddr_mod (by omega)]; omega⟩
  have hk : ¬ (regAddr (semPage n) (0x100 + 4 * (n % 64)) / 4096 = semPage n
      ∧ 0x040 ≤ regAddr (semPage n) (0x100 + 4 * (n % 64)) % 4096
      ∧ regAddr (semPage n) (0x100 + 4 * (n % 64)) % 4096 < 0x050) := by
    rw [regAddr_mod (by omega)]; omega
  exact (reg_of_fits hb hk _).trans ((reg_setReg _ _ _ _).trans (by rw [regMask_sem h, and_ones]))

end Sys2Proof.Machine
end

