-- ==== Sys2Proof/Laws/FieldsBeam.lean ====
section
/-! SUPPORT. The fields that the acts of Machine/Beam.lean may change. -/

namespace Sys2Proof.Machine

theorem on_updOut {M : List StateField} {o : Nat} {f : OutSt → OutSt} (hM : ([.outs] : List StateField) ⊆ M) :
 (updOut o f).only (Within M) := by
  unfold updOut
  repeat' first
    | with_reducible exact on_done
    | with_reducible refine on_look fun _ => ?_
    | with_reducible exact on_eff hM rfl
    | intro _

theorem on_updLayer {M : List StateField} {slot : Nat} {f : LayerSt → LayerSt} (hM : ([.layers] : List StateField) ⊆ M) :
 (updLayer slot f).only (Within M) := by
  unfold updLayer
  repeat' first
    | with_reducible exact on_done
    | with_reducible refine on_look fun _ => ?_
    | with_reducible exact on_eff hM rfl
    | intro _

theorem on_updStrip {M : List StateField} {slot serial : Nat} {f : StripRec → StripRec} (hM : ([.layers] : List StateField) ⊆ M) :
 (updStrip slot serial f).only (Within M) := by
  unfold updStrip
  repeat' first
    | with_reducible exact on_done
    | with_reducible refine on_look fun _ => ?_
    | with_reducible exact on_eff hM rfl
    | with_reducible refine on_updLayer (sub_trans rfl hM)
    | with_reducible refine on_ite ?_ ?_
    | intro _
    | dsimp only

end Sys2Proof.Machine
end

