-- ==== Sys2Proof/Laws/FieldsOps.lean ====
section
/-! SUPPORT. The fields that the acts of Machine/Ops.lean may change. -/

namespace Sys2Proof.Machine

theorem on_setReg {M : List StateField} {p off : Nat} {v : Word} (hM : ([.regs] : List StateField) ⊆ M) :
 (setReg p off v).only (Within M) := by
  unfold setReg
  repeat' first
    | with_reducible exact on_done
    | with_reducible refine on_look fun _ => ?_
    | with_reducible exact on_eff hM rfl

theorem on_setRegN {M : List StateField} {p off v : Nat} (hM : ([.regs] : List StateField) ⊆ M) :
 (setRegN p off v).only (Within M) := by
  unfold setRegN
  repeat' first
    | with_reducible exact on_done
    | with_reducible refine on_look fun _ => ?_
    | with_reducible exact on_eff hM rfl
    | with_reducible refine on_setReg (sub_trans rfl hM)
    | dsimp only

theorem on_setFld {M : List StateField} {p off lo len v : Nat} (hM : ([.regs] : List StateField) ⊆ M) :
 (setFld p off lo len v).only (Within M) := by
  unfold setFld
  repeat' first
    | with_reducible exact on_done
    | with_reducible refine on_look fun _ => ?_
    | with_reducible exact on_eff hM rfl
    | with_reducible refine on_setReg (sub_trans rfl hM)
    | intro _
    | dsimp only

theorem on_setReg64 {M : List StateField} {p off v : Nat} (hM : ([.regs] : List StateField) ⊆ M) :
 (setReg64 p off v).only (Within M) := by
  unfold setReg64
  repeat' first
    | with_reducible exact on_done
    | with_reducible refine on_look fun _ => ?_
    | with_reducible exact on_eff hM rfl
    | with_reducible refine on_seq ?_ ?_
    | with_reducible refine on_setRegN (sub_trans rfl hM)
    | dsimp only

theorem on_setShadow {M : List StateField} {p off : Nat} {v : Word} (hM : ([.shadows] : List StateField) ⊆ M) :
 (setShadow p off v).only (Within M) := by
  unfold setShadow
  repeat' first
    | with_reducible exact on_done
    | with_reducible refine on_look fun _ => ?_
    | with_reducible exact on_eff hM rfl

theorem on_bump {M : List StateField} {p off n : Nat} (hM : ([.regs] : List StateField) ⊆ M) :
 (bump p off n).only (Within M) := by
  unfold bump
  repeat' first
    | with_reducible exact on_done
    | with_reducible refine on_look fun _ => ?_
    | with_reducible exact on_eff hM rfl
    | with_reducible refine on_setReg64 (sub_trans rfl hM)
    | with_reducible refine on_ite ?_ ?_
    | intro _
    | dsimp only

theorem on_withFree {M : List StateField} {k : BitVec 64 → Act} (hM : ([.free] : List StateField) ⊆ M) (h0 : ∀ x0, (k x0).only (Within M)) :
 (withFree k).only (Within M) := by
  unfold withFree
  repeat' first
    | with_reducible exact on_done
    | with_reducible refine on_look fun _ => ?_
    | with_reducible exact on_eff hM rfl
    | with_reducible refine on_seq ?_ ?_
    | with_reducible exact h0 _
    | intro _

theorem on_setUnit {M : List StateField} {u : UnitId} {r : UnitRec} (hM : ([.units] : List StateField) ⊆ M) :
 (setUnit u r).only (Within M) := by
  unfold setUnit
  repeat' first
    | with_reducible exact on_done
    | with_reducible refine on_look fun _ => ?_
    | with_reducible exact on_eff hM rfl

theorem on_fireVector {M : List StateField} {f : Func} {v : Nat} (hM : ([.regs, .out] : List StateField) ⊆ M) :
 (fireVector f v).only (Within M) := by
  unfold fireVector
  repeat' first
    | with_reducible exact on_done
    | with_reducible refine on_look fun _ => ?_
    | with_reducible exact on_eff hM rfl
    | with_reducible refine on_setReg (sub_trans rfl hM)
    | with_reducible refine on_ite ?_ ?_
    | intro _
    | dsimp only

theorem on_raiseIrq {M : List StateField} {p i : Nat} (hM : ([.regs, .out] : List StateField) ⊆ M) :
 (raiseIrq p i).only (Within M) := by
  unfold raiseIrq
  repeat' first
    | with_reducible exact on_done
    | with_reducible refine on_look fun _ => ?_
    | with_reducible exact on_eff hM rfl
    | with_reducible refine on_seq ?_ ?_
    | with_reducible refine on_setReg (sub_trans rfl hM)
    | with_reducible refine on_fireVector (sub_trans rfl hM)
    | with_reducible refine only_whenA fun _ => ?_
    | intro _
    | dsimp only

theorem on_recordQuiet {M : List StateField} {p code : Nat} {i0 i1 : Word} (hM : ([.regs, .out] : List StateField) ⊆ M) :
 (recordQuiet p code i0 i1).only (Within M) := by
  unfold recordQuiet
  repeat' first
    | with_reducible exact on_done
    | with_reducible refine on_look fun _ => ?_
    | with_reducible exact on_nil
    | with_reducible refine on_cons ?_ ?_
    | with_reducible exact on_eff hM rfl
    | with_reducible refine on_setRegN (sub_trans rfl hM)
    | with_reducible refine on_setReg (sub_trans rfl hM)
    | with_reducible refine on_raiseIrq (sub_trans rfl hM)
    | intro _
    | dsimp only

theorem on_moderate {M : List StateField} {f : Func} {n : Nat} (hM : ([.regs, .rings, .out] : List StateField) ⊆ M) :
 (moderate f n).only (Within M) := by
  unfold moderate
  repeat' first
    | with_reducible exact on_done
    | with_reducible refine on_look fun _ => ?_
    | with_reducible exact on_eff hM rfl
    | with_reducible refine on_seq ?_ ?_
    | with_reducible refine on_fireVector (sub_trans rfl hM)
    | with_reducible refine only_whenA fun _ => ?_
    | intro _
    | dsimp only

theorem on_writeRecord {M : List StateField} {f : Func} {n kind inst code epoch : Nat} {payload : List Byte} (hM : ([.regs, .rings, .out] : List StateField) ⊆ M) :
 (writeRecord f n kind inst code epoch payload).only (Within M) := by
  unfold writeRecord
  repeat' first
    | with_reducible exact on_done
    | with_reducible refine on_look fun _ => ?_
    | with_reducible exact on_nil
    | with_reducible refine on_cons ?_ ?_
    | with_reducible exact on_eff hM rfl
    | with_reducible refine on_setRegN (sub_trans rfl hM)
    | with_reducible refine on_moderate (sub_trans rfl hM)
    | with_reducible refine on_ite ?_ ?_
    | intro _
    | dsimp only

theorem on_putEvent {M : List StateField} {f : Func} {n kind inst code epoch : Nat} {payload : List Byte} (hM : ([.regs, .rings, .free, .out] : List StateField) ⊆ M) :
 (putEvent f n kind inst code epoch payload).only (Within M) := by
  unfold putEvent
  repeat' first
    | with_reducible exact on_done
    | with_reducible refine on_look fun _ => ?_
    | with_reducible exact on_nil
    | with_reducible refine on_cons ?_ ?_
    | with_reducible exact on_eff hM rfl
    | with_reducible refine on_setRegN (sub_trans rfl hM)
    | with_reducible refine on_withFree (sub_trans rfl hM) ?_
    | with_reducible refine on_recordQuiet (sub_trans rfl hM)
    | with_reducible refine on_writeRecord (sub_trans rfl hM)
    | with_reducible refine on_ite ?_ ?_
    | intro _
    | dsimp only

theorem on_pageEvent {M : List StateField} {p low code : Nat} {payload : List Byte} (hM : ([.regs, .rings, .free, .out] : List StateField) ⊆ M) :
 (pageEvent p low code payload).only (Within M) := by
  unfold pageEvent
  repeat' first
    | with_reducible exact on_done
    | with_reducible refine on_look fun _ => ?_
    | with_reducible exact on_eff hM rfl
    | with_reducible refine on_putEvent (sub_trans rfl hM)
    | with_reducible refine only_whenA fun _ => ?_
    | intro _
    | dsimp only

theorem on_funcEvent {M : List StateField} {f : Func} {p low code : Nat} {payload : List Byte} (hM : ([.regs, .rings, .free, .out] : List StateField) ⊆ M) :
 (funcEvent f p low code payload).only (Within M) := by
  unfold funcEvent
  repeat' first
    | with_reducible exact on_done
    | with_reducible refine on_look fun _ => ?_
    | with_reducible exact on_eff hM rfl
    | with_reducible refine on_putEvent (sub_trans rfl hM)
    | intro _
    | dsimp only

theorem on_ownerAndPf {M : List StateField} {p low code : Nat} {payload : List Byte} (hM : ([.regs, .rings, .free, .out] : List StateField) ⊆ M) :
 (ownerAndPf p low code payload).only (Within M) := by
  unfold ownerAndPf
  repeat' first
    | with_reducible exact on_done
    | with_reducible refine on_look fun _ => ?_
    | with_reducible exact on_eff hM rfl
    | with_reducible refine on_seq ?_ ?_
    | with_reducible refine on_pageEvent (sub_trans rfl hM)
    | with_reducible refine on_funcEvent (sub_trans rfl hM)
    | with_reducible refine only_whenA fun _ => ?_
    | intro _
    | dsimp only

theorem on_recordErrI {M : List StateField} {p code : Nat} {i0 i1 : Word} (hM : ([.regs, .rings, .free, .out] : List StateField) ⊆ M) :
 (recordErrI p code i0 i1).only (Within M) := by
  unfold recordErrI
  repeat' first
    | with_reducible exact on_done
    | with_reducible refine on_look fun _ => ?_
    | with_reducible exact on_eff hM rfl
    | with_reducible refine on_seq ?_ ?_
    | with_reducible refine on_recordQuiet (sub_trans rfl hM)
    | with_reducible refine on_pageEvent (sub_trans rfl hM)
    | dsimp only

theorem on_recordErr {M : List StateField} {p code : Nat} (hM : ([.regs, .rings, .free, .out] : List StateField) ⊆ M) :
 (recordErr p code).only (Within M) := by
  unfold recordErr
  repeat' first
    | with_reducible exact on_done
    | with_reducible refine on_look fun _ => ?_
    | with_reducible exact on_eff hM rfl
    | with_reducible refine on_withFree (sub_trans rfl hM) ?_
    | with_reducible refine on_recordErrI (sub_trans rfl hM)
    | intro _
    | dsimp only

theorem on_pageErr {M : List StateField} {p cause : Nat} (hM : ([.regs, .rings, .free, .out] : List StateField) ⊆ M) :
 (pageErr p cause).only (Within M) := by
  unfold pageErr
  repeat' first
    | with_reducible exact on_done
    | with_reducible refine on_look fun _ => ?_
    | with_reducible exact on_eff hM rfl
    | with_reducible refine on_recordErr (sub_trans rfl hM)
    | dsimp only

theorem on_hostErr {M : List StateField} {f : Func} {cause : Nat} (hM : ([.regs, .rings, .free, .out] : List StateField) ⊆ M) :
 (hostErr f cause).only (Within M) := by
  unfold hostErr
  repeat' first
    | with_reducible exact on_done
    | with_reducible refine on_look fun _ => ?_
    | with_reducible exact on_eff hM rfl
    | with_reducible refine on_recordErr (sub_trans rfl hM)
    | dsimp only

theorem on_flog {M : List StateField} {code scope : Nat} {f : Func} {page kind ctx src : Nat} (hM : ([.regs, .flog, .flogN] : List StateField) ⊆ M) :
 (flog code scope f page kind ctx src).only (Within M) := by
  unfold flog
  repeat' first
    | with_reducible exact on_done
    | with_reducible refine on_look fun _ => ?_
    | with_reducible exact on_nil
    | with_reducible refine on_cons ?_ ?_
    | with_reducible exact on_eff hM rfl
    | with_reducible refine on_setRegN (sub_trans rfl hM)
    | with_reducible refine only_whenA fun _ => ?_
    | intro _
    | dsimp only

theorem on_enterNoService {M : List StateField} (hM : ([.regs, .phase] : List StateField) ⊆ M) :
 (enterNoService ).only (Within M) := by
  unfold enterNoService
  repeat' first
    | with_reducible exact on_done
    | with_reducible refine on_look fun _ => ?_
    | with_reducible exact on_eff hM rfl
    | with_reducible refine on_seq ?_ ?_
    | with_reducible refine on_setFld (sub_trans rfl hM)
    | dsimp only

theorem on_noteFault {M : List StateField} {code : Nat} (hM : ([.regs, .rings, .owed, .ruin, .faultsAt, .flog, .flogN, .free, .out] : List StateField) ⊆ M) :
 (noteFault code).only (Within M) := by
  unfold noteFault
  repeat' first
    | with_reducible exact on_done
    | with_reducible refine on_look fun _ => ?_
    | with_reducible exact on_nil
    | with_reducible refine on_cons ?_ ?_
    | with_reducible exact on_eff hM rfl
    | with_reducible refine on_recordErr (sub_trans rfl hM)
    | with_reducible refine on_flog (sub_trans rfl hM)
    | with_reducible refine on_setFld (sub_trans rfl hM)
    | with_reducible refine on_putEvent (sub_trans rfl hM)
    | with_reducible refine on_ite ?_ ?_
    | with_reducible refine only_whenA fun _ => ?_
    | intro _
    | dsimp only

theorem on_deviceFault {M : List StateField} {code : Nat} (hM : ([.regs, .rings, .owed, .phase, .tripHold, .ruin, .relock, .faultsAt, .flog, .flogN, .free, .out] : List StateField) ⊆ M) :
 (deviceFault code).only (Within M) := by
  unfold deviceFault
  repeat' first
    | with_reducible exact on_done
    | with_reducible refine on_look fun _ => ?_
    | with_reducible exact on_nil
    | with_reducible refine on_cons ?_ ?_
    | with_reducible exact on_eff hM rfl
    | with_reducible refine on_noteFault (sub_trans rfl hM)
    | with_reducible refine on_enterNoService (sub_trans rfl hM)
    | with_reducible refine on_ite ?_ ?_
    | with_reducible refine only_whenA fun _ => ?_
    | intro _
    | dsimp only

theorem on_inService {M : List StateField} {a : Act} (hM : ([] : List StateField) ⊆ M) (h0 : a.only (Within M)) :
 (inService a).only (Within M) := by
  unfold inService
  repeat' first
    | with_reducible exact on_done
    | with_reducible refine on_look fun _ => ?_
    | with_reducible exact on_eff hM rfl
    | with_reducible exact h0
    | with_reducible refine on_ite ?_ ?_
    | intro _

theorem on_tick {M : List StateField} {now : Dword} (hM : ([.time] : List StateField) ⊆ M) :
 (tick now).only (Within M) := by
  unfold tick
  repeat' first
    | with_reducible exact on_done
    | with_reducible refine on_look fun _ => ?_
    | with_reducible exact on_eff hM rfl

theorem on_whenServed {M : List StateField} {f : Func} {p : Nat} {a : Act} (hM : ([] : List StateField) ⊆ M) (h0 : a.only (Within M)) :
 (whenServed f p a).only (Within M) := by
  unfold whenServed
  repeat' first
    | with_reducible exact on_done
    | with_reducible refine on_look fun _ => ?_
    | with_reducible exact on_eff hM rfl
    | with_reducible exact h0
    | with_reducible refine only_whenA fun _ => ?_
    | intro _

theorem on_putSem {M : List StateField} {n : Nat} {v : Word} (hM : ([.regs] : List StateField) ⊆ M) :
 (putSem n v).only (Within M) := by
  unfold putSem
  repeat' first
    | with_reducible exact on_done
    | with_reducible refine on_look fun _ => ?_
    | with_reducible exact on_eff hM rfl
    | with_reducible refine on_setReg (sub_trans rfl hM)
    | dsimp only

theorem on_semAdd {M : List StateField} {n : Nat} {v : Word} (hM : ([.regs] : List StateField) ⊆ M) :
 (semAdd n v).only (Within M) := by
  unfold semAdd
  repeat' first
    | with_reducible exact on_done
    | with_reducible refine on_look fun _ => ?_
    | with_reducible exact on_eff hM rfl
    | with_reducible refine on_seq ?_ ?_
    | with_reducible refine on_putSem (sub_trans rfl hM)
    | with_reducible refine on_bump (sub_trans rfl hM)
    | intro _
    | dsimp only

theorem on_semTake {M : List StateField} {n : Nat} {v : Word} (hM : ([.regs] : List StateField) ⊆ M) :
 (semTake n v).only (Within M) := by
  unfold semTake
  repeat' first
    | with_reducible exact on_done
    | with_reducible refine on_look fun _ => ?_
    | with_reducible exact on_eff hM rfl
    | with_reducible refine on_seq ?_ ?_
    | with_reducible refine on_putSem (sub_trans rfl hM)
    | with_reducible refine on_bump (sub_trans rfl hM)
    | intro _
    | dsimp only

theorem on_setClaim {M : List StateField} {n : Nat} {c : Option Nat} (hM : ([.regs] : List StateField) ⊆ M) :
 (setClaim n c).only (Within M) := by
  unfold setClaim
  repeat' first
    | with_reducible exact on_done
    | with_reducible refine on_look fun _ => ?_
    | with_reducible exact on_eff hM rfl
    | with_reducible refine on_setRegN (sub_trans rfl hM)
    | split
    | dsimp only

end Sys2Proof.Machine
end

