-- ==== Sys2Proof/Laws/FieldsFrames.lean ====
section
/-! SUPPORT. The fields that the acts of Machine/Frames.lean may change. -/

namespace Sys2Proof.Machine

theorem on_updPort {M : List StateField} {p : Nat} {f : PortSt → PortSt} (hM : ([.ports] : List StateField) ⊆ M) :
 (updPort p f).only (Within M) := by
  unfold updPort
  repeat' first
    | with_reducible exact on_done
    | with_reducible refine on_look fun _ => ?_
    | with_reducible exact on_eff hM rfl
    | intro _

theorem on_sendControl {M : List StateField} {p : Fin 2} {w : Nat} (hM : ([.out] : List StateField) ⊆ M) :
 (sendControl p w).only (Within M) := by
  unfold sendControl
  repeat' first
    | with_reducible exact on_done
    | with_reducible refine on_look fun _ => ?_
    | with_reducible exact on_eff hM rfl

theorem on_returnCredit {M : List StateField} {p : Fin 2} {vc n : Nat} (hM : ([.out] : List StateField) ⊆ M) :
 (returnCredit p vc n).only (Within M) := by
  unfold returnCredit
  repeat' first
    | with_reducible exact on_done
    | with_reducible refine on_look fun _ => ?_
    | with_reducible exact on_eff hM rfl
    | with_reducible refine on_sendControl (sub_trans rfl hM)
    | with_reducible refine only_whenA fun _ => ?_
    | dsimp only

theorem on_emitFrame {M : List StateField} {p : Fin 2} {f : WaitingFrame} (hM : ([.regs, .ports, .out] : List StateField) ⊆ M) :
 (emitFrame p f).only (Within M) := by
  unfold emitFrame
  repeat' first
    | with_reducible exact on_done
    | with_reducible refine on_look fun _ => ?_
    | with_reducible exact on_nil
    | with_reducible refine on_cons ?_ ?_
    | with_reducible exact on_eff hM rfl
    | with_reducible refine on_updPort (sub_trans rfl hM)
    | with_reducible refine on_setFld (sub_trans rfl hM)
    | with_reducible refine on_bump (sub_trans rfl hM)
    | with_reducible refine on_returnCredit (sub_trans rfl hM)
    | with_reducible refine only_optA fun _ _ => ?_
    | intro _
    | dsimp only

theorem on_takeTurn {M : List StateField} {p : Fin 2} {f : WaitingFrame} (hM : ([.ports] : List StateField) ⊆ M) :
 (takeTurn p f).only (Within M) := by
  unfold takeTurn
  repeat' first
    | with_reducible exact on_done
    | with_reducible refine on_look fun _ => ?_
    | with_reducible exact on_eff hM rfl
    | with_reducible refine on_updPort (sub_trans rfl hM)
    | with_reducible refine on_ite ?_ ?_
    | intro _
    | dsimp only

theorem on_drainPort {M : List StateField} {p : Fin 2} {a0 : Nat} (hM : ([.regs, .ports, .out] : List StateField) ⊆ M) :
 (drainPort p a0).only (Within M) := by
  induction a0 with
  | zero =>
    unfold drainPort
    repeat' first
      | with_reducible exact on_done
      | with_reducible refine on_look fun _ => ?_
      | with_reducible exact on_eff hM rfl
      | dsimp only
  | succ _ ih =>
    unfold drainPort
    repeat' first
      | with_reducible exact on_done
      | with_reducible refine on_look fun _ => ?_
      | with_reducible exact on_eff hM rfl
      | with_reducible refine on_seq ?_ ?_
      | with_reducible exact ih
      | with_reducible refine on_takeTurn (sub_trans rfl hM)
      | with_reducible refine on_emitFrame (sub_trans rfl hM)
      | with_reducible refine only_optA fun _ _ => ?_
      | intro _
      | dsimp only

theorem on_sendFrame {M : List StateField} {p : Fin 2} {f : WaitingFrame} (hM : ([.regs, .ports, .out] : List StateField) ⊆ M) :
 (sendFrame p f).only (Within M) := by
  unfold sendFrame
  repeat' first
    | with_reducible exact on_done
    | with_reducible refine on_look fun _ => ?_
    | with_reducible exact on_eff hM rfl
    | with_reducible refine on_seq ?_ ?_
    | with_reducible refine on_updPort (sub_trans rfl hM)
    | with_reducible refine on_drainPort (sub_trans rfl hM)
    | with_reducible refine only_whenA fun _ => ?_
    | intro _
    | dsimp only

theorem on_sendCompletion {M : List StateField} {h : Header} {status : Nat} {payload : List Byte} (hM : ([.regs, .ports, .out] : List StateField) ⊆ M) :
 (sendCompletion h status payload).only (Within M) := by
  unfold sendCompletion
  repeat' first
    | with_reducible exact on_done
    | with_reducible refine on_look fun _ => ?_
    | with_reducible exact on_eff hM rfl
    | with_reducible refine on_sendFrame (sub_trans rfl hM)
    | intro _
    | split
    | dsimp only

theorem on_replyTo {M : List StateField} {reply : Option (List Byte)} {status : Nat} (hM : ([.regs, .ports, .out] : List StateField) ⊆ M) :
 (replyTo reply status).only (Within M) := by
  unfold replyTo
  repeat' first
    | with_reducible exact on_done
    | with_reducible refine on_look fun _ => ?_
    | with_reducible exact on_eff hM rfl
    | with_reducible refine on_sendCompletion (sub_trans rfl hM)
    | with_reducible refine only_optA fun _ _ => ?_
    | intro _
    | dsimp only

end Sys2Proof.Machine
end

