-- ==== Sys2Proof/Laws/FieldsMemory.lean ====
section
/-! SUPPORT. The fields that the acts of Machine/Memory.lean may change. -/

namespace Sys2Proof.Machine

theorem on_putMem {M : List StateField} {a : Nat} {v : Byte} (hM : ([.mem] : List StateField) ⊆ M) :
 (putMem a v).only (Within M) := by
  unfold putMem
  repeat' first
    | with_reducible exact on_done
    | with_reducible refine on_look fun _ => ?_
    | with_reducible exact on_eff hM rfl

theorem on_putMemList {M : List StateField} {a0 : Nat} {a1 : List Byte} (hM : ([.mem] : List StateField) ⊆ M) :
 (putMemList a0 a1).only (Within M) := by
  induction a1 generalizing a0 with
  | nil =>
    unfold putMemList
    repeat' first
      | with_reducible exact on_done
      | with_reducible refine on_look fun _ => ?_
      | with_reducible exact on_eff hM rfl
      | dsimp only
  | cons _ _ ih =>
    unfold putMemList
    repeat' first
      | with_reducible exact on_done
      | with_reducible refine on_look fun _ => ?_
      | with_reducible exact on_eff hM rfl
      | with_reducible refine on_seq ?_ ?_
      | with_reducible exact ih
      | with_reducible refine on_putMem (sub_trans rfl hM)
      | dsimp only

theorem on_rebuffer {M : List StateField} {b : Nat} (hM : ([.buffered] : List StateField) ⊆ M) :
 (rebuffer b).only (Within M) := by
  unfold rebuffer
  repeat' first
    | with_reducible exact on_done
    | with_reducible refine on_look fun _ => ?_
    | with_reducible exact on_eff hM rfl
    | with_reducible refine on_ite ?_ ?_
    | with_reducible refine only_whenA fun _ => ?_
    | intro _

theorem on_writeBillet {M : List StateField} {b : Nat} {content : List Byte} {ref : Option Bool} {diff : Word} (hM : ([.regs, .mem, .codingMap, .crcDiff, .buffered] : List StateField) ⊆ M) :
 (writeBillet b content ref diff).only (Within M) := by
  unfold writeBillet
  repeat' first
    | with_reducible exact on_done
    | with_reducible refine on_look fun _ => ?_
    | with_reducible exact on_nil
    | with_reducible refine on_cons ?_ ?_
    | with_reducible exact on_eff hM rfl
    | with_reducible refine on_seq ?_ ?_
    | with_reducible refine on_putMemList (sub_trans rfl hM)
    | with_reducible refine on_bump (sub_trans rfl hM)
    | with_reducible refine on_rebuffer (sub_trans rfl hM)
    | with_reducible refine on_ite ?_ ?_
    | split
    | dsimp only

theorem on_upsetBillet {M : List StateField} {b : Nat} {changes : List (Nat × Byte)} (hM : ([.mem, .codingMap, .crcDiff] : List StateField) ⊆ M) :
 (upsetBillet b changes).only (Within M) := by
  unfold upsetBillet
  repeat' first
    | with_reducible exact on_done
    | with_reducible refine on_look fun _ => ?_
    | with_reducible exact on_nil
    | with_reducible refine on_cons ?_ ?_
    | with_reducible exact on_eff hM rfl
    | with_reducible refine on_putMem (sub_trans rfl hM)
    | with_reducible refine on_ite ?_ ?_
    | with_reducible refine only_whenA fun _ => ?_
    | with_reducible refine only_forA fun _ _ => ?_
    | intro _
    | dsimp only

theorem on_bufferBillet {M : List StateField} {b : Nat} (hM : ([.buffered, .free] : List StateField) ⊆ M) :
 (bufferBillet b).only (Within M) := by
  unfold bufferBillet
  repeat' first
    | with_reducible exact on_done
    | with_reducible refine on_look fun _ => ?_
    | with_reducible exact on_eff hM rfl
    | with_reducible refine on_withFree (sub_trans rfl hM) ?_
    | with_reducible refine on_ite ?_ ?_
    | intro _
    | dsimp only

theorem on_fetchBillet {M : List StateField} {b : Nat} {changes : List (Nat × Byte)} (hM : ([.regs, .mem, .codingMap, .crcDiff, .buffered, .free] : List StateField) ⊆ M) :
 (fetchBillet b changes).only (Within M) := by
  unfold fetchBillet
  repeat' first
    | with_reducible exact on_done
    | with_reducible refine on_look fun _ => ?_
    | with_reducible exact on_nil
    | with_reducible refine on_cons ?_ ?_
    | with_reducible exact on_eff hM rfl
    | with_reducible refine on_upsetBillet (sub_trans rfl hM)
    | with_reducible refine on_bump (sub_trans rfl hM)
    | with_reducible refine on_bufferBillet (sub_trans rfl hM)
    | with_reducible refine only_whenA fun _ => ?_
    | intro _
    | dsimp only

theorem on_logBad {M : List StateField} {b consumer : Nat} (hM : ([.regs] : List StateField) ⊆ M) :
 (logBad b consumer).only (Within M) := by
  unfold logBad
  repeat' first
    | with_reducible exact on_done
    | with_reducible refine on_look fun _ => ?_
    | with_reducible exact on_eff hM rfl
    | with_reducible refine on_seq ?_ ?_
    | with_reducible refine on_setRegN (sub_trans rfl hM)
    | intro _
    | dsimp only

theorem on_checksumFail {M : List StateField} {b : Nat} {c : StackClient} (hM : ([.regs, .rings, .free, .out] : List StateField) ⊆ M) :
 (checksumFail b c).only (Within M) := by
  unfold checksumFail
  repeat' first
    | with_reducible exact on_done
    | with_reducible refine on_look fun _ => ?_
    | with_reducible exact on_nil
    | with_reducible refine on_cons ?_ ?_
    | with_reducible exact on_eff hM rfl
    | with_reducible refine on_logBad (sub_trans rfl hM)
    | with_reducible refine on_bump (sub_trans rfl hM)
    | with_reducible refine on_pageErr (sub_trans rfl hM)
    | with_reducible refine on_raiseIrq (sub_trans rfl hM)
    | with_reducible refine on_pageEvent (sub_trans rfl hM)
    | with_reducible refine on_withFree (sub_trans rfl hM) ?_
    | with_reducible refine on_ite ?_ ?_
    | intro _
    | split
    | dsimp only

theorem on_lcEvictWritten {M : List StateField} {a n : Nat} {a0 : List Nat} (hM : ([.regs, .rings, .lcSlots, .free, .out] : List StateField) ⊆ M) :
 (lcEvictWritten a n a0).only (Within M) := by
  induction a0 with
  | nil =>
    unfold lcEvictWritten
    repeat' first
      | with_reducible exact on_done
      | with_reducible refine on_look fun _ => ?_
      | with_reducible exact on_eff hM rfl
      | dsimp only
  | cons _ _ ih =>
    unfold lcEvictWritten
    repeat' first
      | with_reducible exact on_done
      | with_reducible refine on_look fun _ => ?_
      | with_reducible exact on_nil
      | with_reducible refine on_cons ?_ ?_
      | with_reducible exact on_eff hM rfl
      | with_reducible refine on_seq ?_ ?_
      | with_reducible exact ih
      | with_reducible refine on_bump (sub_trans rfl hM)
      | with_reducible refine on_pageEvent (sub_trans rfl hM)
      | with_reducible refine only_whenA fun _ => ?_
      | intro _
      | dsimp only

theorem on_lcWatch {M : List StateField} {a n : Nat} (hM : ([.regs, .rings, .lcSlots, .lcWait, .lcFill, .trust, .free, .out] : List StateField) ⊆ M) :
 (lcWatch a n).only (Within M) := by
  unfold lcWatch
  repeat' first
    | with_reducible exact on_done
    | with_reducible refine on_look fun _ => ?_
    | with_reducible exact on_nil
    | with_reducible refine on_cons ?_ ?_
    | with_reducible exact on_eff hM rfl
    | with_reducible refine on_lcEvictWritten (sub_trans rfl hM)
    | intro _
    | dsimp only

theorem on_poisonTold {M : List StateField} {b : Nat} (hM : ([.regs, .rings, .free, .out] : List StateField) ⊆ M) :
 (poisonTold b).only (Within M) := by
  unfold poisonTold
  repeat' first
    | with_reducible exact on_done
    | with_reducible refine on_look fun _ => ?_
    | with_reducible exact on_nil
    | with_reducible refine on_cons ?_ ?_
    | with_reducible exact on_eff hM rfl
    | with_reducible refine on_logBad (sub_trans rfl hM)
    | with_reducible refine on_bump (sub_trans rfl hM)
    | with_reducible refine on_raiseIrq (sub_trans rfl hM)
    | with_reducible refine on_pageErr (sub_trans rfl hM)
    | with_reducible refine on_pageEvent (sub_trans rfl hM)
    | dsimp only

theorem on_finishMerge {M : List StateField} {b : Nat} (hM : ([.regs, .rings, .mem, .codingMap, .crcDiff, .held, .buffered, .free, .out] : List StateField) ⊆ M) :
 (finishMerge b).only (Within M) := by
  unfold finishMerge
  repeat' first
    | with_reducible exact on_done
    | with_reducible refine on_look fun _ => ?_
    | with_reducible exact on_nil
    | with_reducible refine on_cons ?_ ?_
    | with_reducible exact on_eff hM rfl
    | with_reducible refine on_seq ?_ ?_
    | with_reducible refine on_logBad (sub_trans rfl hM)
    | with_reducible refine on_bump (sub_trans rfl hM)
    | with_reducible refine on_raiseIrq (sub_trans rfl hM)
    | with_reducible refine on_pageEvent (sub_trans rfl hM)
    | with_reducible refine on_writeBillet (sub_trans rfl hM)
    | with_reducible refine on_poisonTold (sub_trans rfl hM)
    | with_reducible refine on_ite ?_ ?_
    | with_reducible refine only_whenA fun _ => ?_
    | with_reducible refine only_optA fun _ _ => ?_
    | intro _
    | dsimp only

theorem on_mergeHeld {M : List StateField} {b : Nat} {changes : List (Nat × Byte)} (hM : ([.regs, .rings, .mem, .codingMap, .crcDiff, .held, .buffered, .free, .out] : List StateField) ⊆ M) :
 (mergeHeld b changes).only (Within M) := by
  unfold mergeHeld
  repeat' first
    | with_reducible exact on_done
    | with_reducible refine on_look fun _ => ?_
    | with_reducible exact on_nil
    | with_reducible refine on_cons ?_ ?_
    | with_reducible exact on_eff hM rfl
    | with_reducible refine on_seq ?_ ?_
    | with_reducible refine on_bump (sub_trans rfl hM)
    | with_reducible refine on_fetchBillet (sub_trans rfl hM)
    | with_reducible refine on_finishMerge (sub_trans rfl hM)
    | with_reducible refine on_ite ?_ ?_
    | with_reducible refine only_optA fun _ _ => ?_
    | intro _
    | dsimp only

theorem on_makeRoom {M : List StateField} {ch : Nat} {a0 : Nat} (hM : ([.regs, .rings, .mem, .codingMap, .crcDiff, .held, .buffered, .free, .out] : List StateField) ⊆ M) :
 (makeRoom ch a0).only (Within M) := by
  induction a0 with
  | zero =>
    unfold makeRoom
    repeat' first
      | with_reducible exact on_done
      | with_reducible refine on_look fun _ => ?_
      | with_reducible exact on_eff hM rfl
      | dsimp only
  | succ _ ih =>
    unfold makeRoom
    repeat' first
      | with_reducible exact on_done
      | with_reducible refine on_look fun _ => ?_
      | with_reducible exact on_eff hM rfl
      | with_reducible refine on_seq ?_ ?_
      | with_reducible exact ih
      | with_reducible refine on_mergeHeld (sub_trans rfl hM)
      | with_reducible refine only_whenA fun _ => ?_
      | with_reducible refine only_optA fun _ _ => ?_
      | intro _
      | dsimp only

theorem on_holdWrite {M : List StateField} {b off : Nat} {data : List Byte} {ref : Option Bool} (hM : ([.regs, .rings, .mem, .codingMap, .crcDiff, .held, .heldNext, .buffered, .free, .out] : List StateField) ⊆ M) :
 (holdWrite b off data ref).only (Within M) := by
  unfold holdWrite
  repeat' first
    | with_reducible exact on_done
    | with_reducible refine on_look fun _ => ?_
    | with_reducible exact on_nil
    | with_reducible refine on_cons ?_ ?_
    | with_reducible exact on_eff hM rfl
    | with_reducible refine on_seq ?_ ?_
    | with_reducible refine on_makeRoom (sub_trans rfl hM)
    | with_reducible refine on_bump (sub_trans rfl hM)
    | with_reducible refine on_writeBillet (sub_trans rfl hM)
    | with_reducible refine on_ite ?_ ?_
    | with_reducible refine only_whenA fun _ => ?_
    | intro _
    | dsimp only

theorem on_wholeWrite {M : List StateField} {b : Nat} {data : List Byte} {ref : Option Bool} (hM : ([.regs, .mem, .codingMap, .crcDiff, .held, .buffered] : List StateField) ⊆ M) :
 (wholeWrite b data ref).only (Within M) := by
  unfold wholeWrite
  repeat' first
    | with_reducible exact on_done
    | with_reducible refine on_look fun _ => ?_
    | with_reducible exact on_nil
    | with_reducible refine on_cons ?_ ?_
    | with_reducible exact on_eff hM rfl
    | with_reducible refine on_bump (sub_trans rfl hM)
    | with_reducible refine on_writeBillet (sub_trans rfl hM)
    | with_reducible refine on_ite ?_ ?_
    | intro _
    | split
    | dsimp only

theorem on_physWrite {M : List StateField} {a : Nat} {data : List Byte} {ref : Option Bool} (hM : ([.regs, .rings, .mem, .codingMap, .crcDiff, .held, .heldNext, .buffered, .lcSlots, .lcWait, .lcFill, .trust, .free, .out] : List StateField) ⊆ M) :
 (physWrite a data ref).only (Within M) := by
  unfold physWrite
  repeat' first
    | with_reducible exact on_done
    | with_reducible refine on_look fun _ => ?_
    | with_reducible exact on_eff hM rfl
    | with_reducible refine on_seq ?_ ?_
    | with_reducible refine on_lcWatch (sub_trans rfl hM)
    | with_reducible refine on_wholeWrite (sub_trans rfl hM)
    | with_reducible refine on_holdWrite (sub_trans rfl hM)
    | with_reducible refine on_ite ?_ ?_
    | with_reducible refine only_forA fun _ _ => ?_
    | intro _
    | dsimp only

theorem on_touchBillet {M : List StateField} {c : StackClient} {b : Nat} {changes : List (Nat × Byte)} (hM : ([.regs, .rings, .mem, .codingMap, .crcDiff, .buffered, .free, .out] : List StateField) ⊆ M) :
 (touchBillet c b changes).only (Within M) := by
  unfold touchBillet
  repeat' first
    | with_reducible exact on_done
    | with_reducible refine on_look fun _ => ?_
    | with_reducible exact on_eff hM rfl
    | with_reducible refine on_seq ?_ ?_
    | with_reducible refine on_fetchBillet (sub_trans rfl hM)
    | with_reducible refine on_checksumFail (sub_trans rfl hM)
    | with_reducible refine only_whenA fun _ => ?_
    | intro _
    | dsimp only

theorem on_readBillets {M : List StateField} {c : StackClient} {a n : Nat} {changes : List (Nat × Byte)} {k : List Byte → Bool → Act} {a0 : List Nat} {a1 : List Byte} {a2 : Bool} (hM : ([.regs, .rings, .mem, .codingMap, .crcDiff, .buffered, .free, .out] : List StateField) ⊆ M) (h0 : ∀ x0 x1, (k x0 x1).only (Within M)) :
 (readBillets c a n changes k a0 a1 a2).only (Within M) := by
  induction a0 generalizing a1 a2 with
  | nil =>
    unfold readBillets
    repeat' first
      | with_reducible exact on_done
      | with_reducible refine on_look fun _ => ?_
      | with_reducible exact on_eff hM rfl
      | with_reducible exact h0 _ _
      | dsimp only
  | cons _ _ ih =>
    unfold readBillets
    repeat' first
      | with_reducible exact on_done
      | with_reducible refine on_look fun _ => ?_
      | with_reducible exact on_eff hM rfl
      | with_reducible refine on_seq ?_ ?_
      | with_reducible exact h0 _ _
      | with_reducible exact ih
      | with_reducible refine on_touchBillet (sub_trans rfl hM)
      | intro _
      | dsimp only

theorem on_refillFrames {M : List StateField} {slot a n : Nat} (hM : ([.lcSlots] : List StateField) ⊆ M) :
 (refillFrames slot a n).only (Within M) := by
  unfold refillFrames
  repeat' first
    | with_reducible exact on_done
    | with_reducible refine on_look fun _ => ?_
    | with_reducible exact on_eff hM rfl
    | with_reducible refine on_ite ?_ ?_
    | intro _
    | dsimp only

theorem on_physReadU {M : List StateField} {c : StackClient} {a n : Nat} {changes : List (Nat × Byte)} {parity : Bool} {k : List Byte → Bool → Act} (hM : ([.regs, .rings, .mem, .codingMap, .crcDiff, .buffered, .lcSlots, .free, .out] : List StateField) ⊆ M) (h0 : ∀ x0 x1, (k x0 x1).only (Within M)) :
 (physReadU c a n changes parity k).only (Within M) := by
  unfold physReadU
  repeat' first
    | with_reducible exact on_done
    | with_reducible refine on_look fun _ => ?_
    | with_reducible exact on_nil
    | with_reducible refine on_cons ?_ ?_
    | with_reducible exact on_eff hM rfl
    | with_reducible refine on_seq ?_ ?_
    | with_reducible exact h0 _ _
    | with_reducible refine on_bump (sub_trans rfl hM)
    | with_reducible refine on_readBillets (sub_trans rfl hM) ?_
    | with_reducible refine on_refillFrames (sub_trans rfl hM)
    | with_reducible refine on_ite ?_ ?_
    | with_reducible refine only_whenA fun _ => ?_
    | intro _
    | split
    | dsimp only

theorem on_physRead {M : List StateField} {c : StackClient} {a n : Nat} {k : List Byte → Bool → Act} (hM : ([.regs, .rings, .mem, .codingMap, .crcDiff, .buffered, .lcSlots, .free, .out] : List StateField) ⊆ M) (h0 : ∀ x0 x1, (k x0 x1).only (Within M)) :
 (physRead c a n k).only (Within M) := by
  unfold physRead
  repeat' first
    | with_reducible exact on_done
    | with_reducible refine on_look fun _ => ?_
    | with_reducible exact on_eff hM rfl
    | with_reducible exact h0 _ _
    | with_reducible refine on_physReadU (sub_trans rfl hM) ?_
    | intro _
    | dsimp only

theorem on_reportXlat {M : List StateField} {c : StackClient} {asid va : Nat} {write : Bool} {code : Nat} (hM : ([.regs, .rings, .free, .out] : List StateField) ⊆ M) :
 (reportXlat c asid va write code).only (Within M) := by
  unfold reportXlat
  repeat' first
    | with_reducible exact on_done
    | with_reducible refine on_look fun _ => ?_
    | with_reducible exact on_nil
    | with_reducible refine on_cons ?_ ?_
    | with_reducible exact on_eff hM rfl
    | with_reducible refine on_bump (sub_trans rfl hM)
    | with_reducible refine on_raiseIrq (sub_trans rfl hM)
    | with_reducible refine on_pageEvent (sub_trans rfl hM)
    | intro _
    | dsimp only

theorem on_cacheOwn {M : List StateField} {c : StackClient} {l : Leaf} (hM : ([.tlb] : List StateField) ⊆ M) :
 (cacheOwn c l).only (Within M) := by
  unfold cacheOwn
  repeat' first
    | with_reducible exact on_done
    | with_reducible refine on_look fun _ => ?_
    | with_reducible exact on_eff hM rfl
    | with_reducible refine only_optA fun _ _ => ?_
    | intro _
    | dsimp only

theorem on_keepResult {M : List StateField} {x : WalkRes} (hM : ([.tlb] : List StateField) ⊆ M) :
 (keepResult x).only (Within M) := by
  unfold keepResult
  repeat' first
    | with_reducible exact on_done
    | with_reducible refine on_look fun _ => ?_
    | with_reducible exact on_eff hM rfl
    | intro _

theorem on_walkLevels {M : List StateField} {f : Func} {asid va : Nat} {k : Walk → Act} {a0 : Nat} {a1 : Nat} {a2 : Nat} (hM : ([.regs, .rings, .mem, .codingMap, .crcDiff, .buffered, .tlb, .free, .out] : List StateField) ⊆ M) (h0 : ∀ x0, (k x0).only (Within M)) :
 (walkLevels f asid va k a0 a1 a2).only (Within M) := by
  induction a0 generalizing a1 a2 with
  | zero =>
    unfold walkLevels
    repeat' first
      | with_reducible exact on_done
      | with_reducible refine on_look fun _ => ?_
      | with_reducible exact on_eff hM rfl
      | with_reducible exact h0 _
      | split
      | dsimp only
  | succ _ ih =>
    unfold walkLevels
    repeat' first
      | with_reducible exact on_done
      | with_reducible refine on_look fun _ => ?_
      | with_reducible exact on_eff hM rfl
      | with_reducible refine on_seq ?_ ?_
      | with_reducible exact h0 _
      | with_reducible exact ih
      | with_reducible refine on_touchBillet (sub_trans rfl hM)
      | with_reducible refine on_keepResult (sub_trans rfl hM)
      | with_reducible refine on_ite ?_ ?_
      | with_reducible refine only_whenA fun _ => ?_
      | split
      | dsimp only

theorem on_walkFor {M : List StateField} {f : Func} {asid va : Nat} {k : Walk → Act} (hM : ([.regs, .rings, .mem, .codingMap, .crcDiff, .buffered, .tlb, .free, .out] : List StateField) ⊆ M) (h0 : ∀ x0, (k x0).only (Within M)) :
 (walkFor f asid va k).only (Within M) := by
  unfold walkFor
  repeat' first
    | with_reducible exact on_done
    | with_reducible refine on_look fun _ => ?_
    | with_reducible exact on_eff hM rfl
    | with_reducible exact h0 _
    | with_reducible refine on_walkLevels (sub_trans rfl hM) ?_
    | with_reducible refine on_ite ?_ ?_
    | intro _
    | split
    | dsimp only

theorem on_translate {M : List StateField} {c : StackClient} {asid va n : Nat} {kind : AccessKind} {code permCode : Nat} {k : Xlat → Act} (hM : ([.regs, .rings, .mem, .codingMap, .crcDiff, .buffered, .tlb, .free, .out] : List StateField) ⊆ M) (h0 : ∀ x0, (k x0).only (Within M)) :
 (translate c asid va n kind code permCode k).only (Within M) := by
  unfold translate
  repeat' first
    | with_reducible exact on_done
    | with_reducible refine on_look fun _ => ?_
    | with_reducible exact on_nil
    | with_reducible refine on_cons ?_ ?_
    | with_reducible exact on_eff hM rfl
    | with_reducible refine on_seq ?_ ?_
    | with_reducible exact h0 _
    | with_reducible refine on_reportXlat (sub_trans rfl hM)
    | with_reducible refine on_cacheOwn (sub_trans rfl hM)
    | with_reducible refine on_bump (sub_trans rfl hM)
    | with_reducible refine on_walkFor (sub_trans rfl hM) ?_
    | with_reducible refine on_pageErr (sub_trans rfl hM)
    | with_reducible refine on_ite ?_ ?_
    | intro _
    | split
    | dsimp only

theorem on_leafRead {M : List StateField} {c : StackClient} {l : Leaf} {va n : Nat} {changes : List (Nat × Byte)} {parity : Bool} {k : ReadEnd → Act} (hM : ([.regs, .rings, .mem, .codingMap, .crcDiff, .buffered, .lcSlots, .free, .out] : List StateField) ⊆ M) (h0 : ∀ x0, (k x0).only (Within M)) :
 (leafRead c l va n changes parity k).only (Within M) := by
  unfold leafRead
  repeat' first
    | with_reducible exact on_done
    | with_reducible refine on_look fun _ => ?_
    | with_reducible exact on_eff hM rfl
    | with_reducible exact h0 _
    | with_reducible refine on_physReadU (sub_trans rfl hM) ?_
    | with_reducible refine on_ite ?_ ?_
    | intro _
    | split
    | dsimp only

theorem on_virtReadFrom {M : List StateField} {c : StackClient} {asid : Nat} {kind : AccessKind} {code permCode : Nat} {changes : List (Nat × Byte)} {parity : Bool} {k : ReadEnd → Act} {a0 : Nat} {a1 : Nat} {a2 : Nat} {a3 : List Byte} (hM : ([.regs, .rings, .mem, .codingMap, .crcDiff, .buffered, .tlb, .lcSlots, .free, .out] : List StateField) ⊆ M) (h0 : ∀ x0, (k x0).only (Within M)) :
 (virtReadFrom c asid kind code permCode changes parity k a0 a1 a2 a3).only (Within M) := by
  induction a0 generalizing a1 a2 a3 with
  | zero =>
    unfold virtReadFrom
    repeat' first
      | with_reducible exact on_done
      | with_reducible refine on_look fun _ => ?_
      | with_reducible exact on_eff hM rfl
      | with_reducible exact h0 _
      | dsimp only
  | succ _ ih =>
    unfold virtReadFrom
    repeat' first
      | with_reducible exact on_done
      | with_reducible refine on_look fun _ => ?_
      | with_reducible exact on_eff hM rfl
      | with_reducible exact h0 _
      | with_reducible exact ih
      | with_reducible refine on_translate (sub_trans rfl hM) ?_
      | with_reducible refine on_leafRead (sub_trans rfl hM) ?_
      | with_reducible refine on_ite ?_ ?_
      | intro _
      | split
      | dsimp only

theorem on_virtReadU {M : List StateField} {c : StackClient} {asid va n : Nat} {kind : AccessKind} {code permCode : Nat} {changes : List (Nat × Byte)} {parity : Bool} {k : ReadEnd → Act} (hM : ([.regs, .rings, .mem, .codingMap, .crcDiff, .buffered, .tlb, .lcSlots, .free, .out] : List StateField) ⊆ M) (h0 : ∀ x0, (k x0).only (Within M)) :
 (virtReadU c asid va n kind code permCode changes parity k).only (Within M) := by
  unfold virtReadU
  repeat' first
    | with_reducible exact on_done
    | with_reducible refine on_look fun _ => ?_
    | with_reducible exact on_eff hM rfl
    | with_reducible exact h0 _
    | with_reducible refine on_virtReadFrom (sub_trans rfl hM) ?_
    | intro _
    | dsimp only

theorem on_virtRead {M : List StateField} {c : StackClient} {asid va n : Nat} {kind : AccessKind} {code permCode : Nat} {k : ReadEnd → Act} (hM : ([.regs, .rings, .mem, .codingMap, .crcDiff, .buffered, .tlb, .lcSlots, .free, .out] : List StateField) ⊆ M) (h0 : ∀ x0, (k x0).only (Within M)) :
 (virtRead c asid va n kind code permCode k).only (Within M) := by
  unfold virtRead
  repeat' first
    | with_reducible exact on_done
    | with_reducible refine on_look fun _ => ?_
    | with_reducible exact on_eff hM rfl
    | with_reducible exact h0 _
    | with_reducible refine on_virtReadU (sub_trans rfl hM) ?_
    | intro _
    | dsimp only

theorem on_leafWrite {M : List StateField} {l : Leaf} {va : Nat} {data : List Byte} {p010 : Option Bool} (hM : ([.regs, .rings, .mem, .codingMap, .crcDiff, .held, .heldNext, .buffered, .lcSlots, .lcWait, .lcFill, .trust, .free, .out] : List StateField) ⊆ M) :
 (leafWrite l va data p010).only (Within M) := by
  unfold leafWrite
  repeat' first
    | with_reducible exact on_done
    | with_reducible refine on_look fun _ => ?_
    | with_reducible exact on_nil
    | with_reducible refine on_cons ?_ ?_
    | with_reducible exact on_eff hM rfl
    | with_reducible refine on_bump (sub_trans rfl hM)
    | with_reducible refine on_physWrite (sub_trans rfl hM)
    | with_reducible refine only_whenA fun _ => ?_
    | intro _
    | split
    | dsimp only

theorem on_virtWriteFrom {M : List StateField} {c : StackClient} {asid : Nat} {code permCode : Nat} {p010 : Option Bool} {k : WriteEnd → Act} {a0 : Nat} {a1 : Nat} {a2 : List Byte} (hM : ([.regs, .rings, .mem, .codingMap, .crcDiff, .held, .heldNext, .buffered, .tlb, .lcSlots, .lcWait, .lcFill, .trust, .free, .out] : List StateField) ⊆ M) (h0 : ∀ x0, (k x0).only (Within M)) :
 (virtWriteFrom c asid code permCode p010 k a0 a1 a2).only (Within M) := by
  induction a0 generalizing a1 a2 with
  | zero =>
    unfold virtWriteFrom
    repeat' first
      | with_reducible exact on_done
      | with_reducible refine on_look fun _ => ?_
      | with_reducible exact on_eff hM rfl
      | with_reducible exact h0 _
      | dsimp only
  | succ _ ih =>
    unfold virtWriteFrom
    repeat' first
      | with_reducible exact on_done
      | with_reducible refine on_look fun _ => ?_
      | with_reducible exact on_eff hM rfl
      | with_reducible refine on_seq ?_ ?_
      | with_reducible exact h0 _
      | with_reducible exact ih
      | with_reducible refine on_translate (sub_trans rfl hM) ?_
      | with_reducible refine on_leafWrite (sub_trans rfl hM)
      | with_reducible refine on_ite ?_ ?_
      | intro _
      | split
      | dsimp only

theorem on_virtWrite {M : List StateField} {c : StackClient} {asid va : Nat} {data : List Byte} {code permCode : Nat} {p010 : Option Bool} {k : WriteEnd → Act} (hM : ([.regs, .rings, .mem, .codingMap, .crcDiff, .held, .heldNext, .buffered, .tlb, .lcSlots, .lcWait, .lcFill, .trust, .free, .out] : List StateField) ⊆ M) (h0 : ∀ x0, (k x0).only (Within M)) :
 (virtWrite c asid va data code permCode p010 k).only (Within M) := by
  unfold virtWrite
  repeat' first
    | with_reducible exact on_done
    | with_reducible refine on_look fun _ => ?_
    | with_reducible exact on_eff hM rfl
    | with_reducible exact h0 _
    | with_reducible refine on_virtWriteFrom (sub_trans rfl hM) ?_
    | intro _
    | dsimp only

theorem on_bar2Piece {M : List StateField} {p : Nat × Nat × List Byte} (hM : ([.regs, .rings, .mem, .codingMap, .crcDiff, .held, .heldNext, .buffered, .free, .out] : List StateField) ⊆ M) :
 (bar2Piece p).only (Within M) := by
  unfold bar2Piece
  repeat' first
    | with_reducible exact on_done
    | with_reducible refine on_look fun _ => ?_
    | with_reducible exact on_nil
    | with_reducible refine on_cons ?_ ?_
    | with_reducible exact on_eff hM rfl
    | with_reducible refine on_wholeWrite (sub_trans rfl hM)
    | with_reducible refine on_holdWrite (sub_trans rfl hM)
    | with_reducible refine on_mergeHeld (sub_trans rfl hM)
    | with_reducible refine on_fetchBillet (sub_trans rfl hM)
    | with_reducible refine on_bump (sub_trans rfl hM)
    | with_reducible refine on_putMemList (sub_trans rfl hM)
    | with_reducible refine on_rebuffer (sub_trans rfl hM)
    | with_reducible refine on_poisonTold (sub_trans rfl hM)
    | with_reducible refine on_ite ?_ ?_
    | with_reducible refine only_whenA fun _ => ?_
    | intro _
    | dsimp only

theorem on_actBar2Read {M : List StateField} {off len : Nat} (hM : ([.regs, .rings, .mem, .codingMap, .crcDiff, .buffered, .free, .out] : List StateField) ⊆ M) :
 (actBar2Read off len).only (Within M) := by
  unfold actBar2Read
  repeat' first
    | with_reducible exact on_done
    | with_reducible refine on_look fun _ => ?_
    | with_reducible exact on_eff hM rfl
    | with_reducible refine on_seq ?_ ?_
    | with_reducible refine on_hostErr (sub_trans rfl hM)
    | with_reducible refine on_fetchBillet (sub_trans rfl hM)
    | with_reducible refine on_ite ?_ ?_
    | with_reducible refine only_forA fun _ _ => ?_
    | intro _
    | dsimp only

theorem on_actBar2Write {M : List StateField} {off : Nat} {data : List Byte} (hM : ([.regs, .rings, .mem, .codingMap, .crcDiff, .held, .heldNext, .buffered, .lcSlots, .lcWait, .lcFill, .trust, .free, .out] : List StateField) ⊆ M) :
 (actBar2Write off data).only (Within M) := by
  unfold actBar2Write
  repeat' first
    | with_reducible exact on_done
    | with_reducible refine on_look fun _ => ?_
    | with_reducible exact on_eff hM rfl
    | with_reducible refine on_seq ?_ ?_
    | with_reducible refine on_hostErr (sub_trans rfl hM)
    | with_reducible refine on_lcWatch (sub_trans rfl hM)
    | with_reducible refine on_bar2Piece (sub_trans rfl hM)
    | with_reducible refine on_pageErr (sub_trans rfl hM)
    | with_reducible refine on_ite ?_ ?_
    | with_reducible refine only_forA fun _ _ => ?_
    | intro _
    | dsimp only

theorem on_actStackRead {M : List StateField} {c : StackClient} {asid : Option (Fin 4)} {addr len : Nat} {changes : List (Nat × Byte)} {parity : Bool} (hM : ([.regs, .rings, .mem, .codingMap, .crcDiff, .buffered, .tlb, .lcSlots, .free, .out] : List StateField) ⊆ M) :
 (actStackRead c asid addr len changes parity).only (Within M) := by
  unfold actStackRead
  repeat' first
    | with_reducible exact on_done
    | with_reducible refine on_look fun _ => ?_
    | with_reducible exact on_eff hM rfl
    | with_reducible refine on_physReadU (sub_trans rfl hM) ?_
    | with_reducible refine on_virtReadU (sub_trans rfl hM) ?_
    | with_reducible refine on_ite ?_ ?_
    | with_reducible refine only_whenA fun _ => ?_
    | intro _
    | split
    | dsimp only

theorem on_actStackWrite {M : List StateField} {c : StackClient} {asid : Option (Fin 4)} {addr : Nat} {data : List Byte} (hM : ([.regs, .rings, .mem, .codingMap, .crcDiff, .held, .heldNext, .buffered, .tlb, .lcSlots, .lcWait, .lcFill, .trust, .free, .out] : List StateField) ⊆ M) :
 (actStackWrite c asid addr data).only (Within M) := by
  unfold actStackWrite
  repeat' first
    | with_reducible exact on_done
    | with_reducible refine on_look fun _ => ?_
    | with_reducible exact on_eff hM rfl
    | with_reducible refine on_physWrite (sub_trans rfl hM)
    | with_reducible refine on_virtWrite (sub_trans rfl hM) ?_
    | with_reducible refine on_ite ?_ ?_
    | with_reducible refine only_whenA fun _ => ?_
    | intro _
    | split
    | dsimp only

theorem on_actPartialWriteTimeout {M : List StateField} {b : Nat} (hM : ([.held] : List StateField) ⊆ M) :
 (actPartialWriteTimeout b).only (Within M) := by
  unfold actPartialWriteTimeout
  repeat' first
    | with_reducible exact on_done
    | with_reducible refine on_look fun _ => ?_
    | with_reducible exact on_eff hM rfl
    | with_reducible refine only_optA fun _ _ => ?_
    | intro _

theorem on_actMergeReadDone {M : List StateField} {b : Nat} {changes : List (Nat × Byte)} (hM : ([.regs, .rings, .mem, .codingMap, .crcDiff, .held, .buffered, .free, .out] : List StateField) ⊆ M) :
 (actMergeReadDone b changes).only (Within M) := by
  unfold actMergeReadDone
  repeat' first
    | with_reducible exact on_done
    | with_reducible refine on_look fun _ => ?_
    | with_reducible exact on_eff hM rfl
    | with_reducible refine on_mergeHeld (sub_trans rfl hM)
    | with_reducible refine only_whenA fun _ => ?_
    | intro _
    | dsimp only

theorem on_actPatrolRead {M : List StateField} {changes : List (Nat × Byte)} (hM : ([.regs, .rings, .mem, .codingMap, .crcDiff, .free, .out] : List StateField) ⊆ M) :
 (actPatrolRead changes).only (Within M) := by
  unfold actPatrolRead
  repeat' first
    | with_reducible exact on_done
    | with_reducible refine on_look fun _ => ?_
    | with_reducible exact on_nil
    | with_reducible refine on_cons ?_ ?_
    | with_reducible exact on_eff hM rfl
    | with_reducible refine on_setRegN (sub_trans rfl hM)
    | with_reducible refine on_upsetBillet (sub_trans rfl hM)
    | with_reducible refine on_bump (sub_trans rfl hM)
    | with_reducible refine on_logBad (sub_trans rfl hM)
    | with_reducible refine on_pageErr (sub_trans rfl hM)
    | with_reducible refine on_raiseIrq (sub_trans rfl hM)
    | with_reducible refine on_pageEvent (sub_trans rfl hM)
    | with_reducible refine only_whenA fun _ => ?_
    | intro _
    | dsimp only

theorem on_actWalkDone {M : List StateField} {c : StackClient} {asid : Fin 4} {va len : Nat} {kind : AccessKind} (hM : ([.regs, .rings, .mem, .codingMap, .crcDiff, .buffered, .tlb, .free, .out] : List StateField) ⊆ M) :
 (actWalkDone c asid va len kind).only (Within M) := by
  unfold actWalkDone
  repeat' first
    | with_reducible exact on_done
    | with_reducible refine on_look fun _ => ?_
    | with_reducible exact on_eff hM rfl
    | with_reducible refine on_seq ?_ ?_
    | with_reducible refine on_translate (sub_trans rfl hM) ?_
    | with_reducible refine only_whenA fun _ => ?_
    | intro _
    | split
    | dsimp only

theorem on_actInvalidationStart {M : List StateField} {ctl : Word} (hM : ([.regs, .rings, .inval, .free, .out] : List StateField) ⊆ M) :
 (actInvalidationStart ctl).only (Within M) := by
  unfold actInvalidationStart
  repeat' first
    | with_reducible exact on_done
    | with_reducible refine on_look fun _ => ?_
    | with_reducible exact on_nil
    | with_reducible refine on_cons ?_ ?_
    | with_reducible exact on_eff hM rfl
    | with_reducible refine on_seq ?_ ?_
    | with_reducible refine on_setReg (sub_trans rfl hM)
    | with_reducible refine on_pageErr (sub_trans rfl hM)
    | with_reducible refine on_ite ?_ ?_
    | intro _
    | dsimp only

theorem on_actInvalidationDone {M : List StateField} (hM : ([.regs, .rings, .tlb, .inval, .free, .out] : List StateField) ⊆ M) :
 (actInvalidationDone ).only (Within M) := by
  unfold actInvalidationDone
  repeat' first
    | with_reducible exact on_done
    | with_reducible refine on_look fun _ => ?_
    | with_reducible exact on_nil
    | with_reducible refine on_cons ?_ ?_
    | with_reducible exact on_eff hM rfl
    | with_reducible refine on_setFld (sub_trans rfl hM)
    | with_reducible refine on_bump (sub_trans rfl hM)
    | with_reducible refine on_raiseIrq (sub_trans rfl hM)
    | with_reducible refine on_pageEvent (sub_trans rfl hM)
    | with_reducible refine only_optA fun _ _ => ?_
    | intro _
    | dsimp only

theorem on_actStackZeroingDone {M : List StateField} (hM : ([.mem, .codingMap, .crcDiff, .zeroing] : List StateField) ⊆ M) :
 (actStackZeroingDone ).only (Within M) := by
  unfold actStackZeroingDone
  repeat' first
    | with_reducible exact on_done
    | with_reducible refine on_look fun _ => ?_
    | with_reducible exact on_nil
    | with_reducible refine on_cons ?_ ?_
    | with_reducible exact on_eff hM rfl
    | with_reducible refine only_whenA fun _ => ?_
    | with_reducible refine only_forA fun _ _ => ?_
    | intro _

end Sys2Proof.Machine
end

