-- ==== Sys2Proof/Laws/FieldsScratch.lean ====
section
/-! SUPPORT. The fields that the acts of Machine/Scratch.lean may change. -/

namespace Sys2Proof.Machine

theorem on_putSp {M : List StateField} {a off : Nat} {v : Byte} (hM : ([.sp] : List StateField) ⊆ M) :
 (putSp a off v).only (Within M) := by
  unfold putSp
  repeat' first
    | with_reducible exact on_done
    | with_reducible refine on_look fun _ => ?_
    | with_reducible exact on_eff hM rfl

theorem on_putSpList {M : List StateField} {a : Nat} {a0 : Nat} {a1 : List Byte} (hM : ([.sp] : List StateField) ⊆ M) :
 (putSpList a a0 a1).only (Within M) := by
  induction a1 generalizing a0 with
  | nil =>
    unfold putSpList
    repeat' first
      | with_reducible exact on_done
      | with_reducible refine on_look fun _ => ?_
      | with_reducible exact on_eff hM rfl
      | dsimp only
  | cons _ _ ih =>
    unfold putSpList
    repeat' first
      | with_reducible exact on_done
      | with_reducible refine on_look fun _ => ?_
      | with_reducible exact on_eff hM rfl
      | with_reducible refine on_seq ?_ ?_
      | with_reducible exact ih
      | with_reducible refine on_putSp (sub_trans rfl hM)
      | dsimp only

theorem on_putHandle {M : List StateField} {a h : Nat} {e : BitVec 128} (hM : ([.regs] : List StateField) ⊆ M) :
 (putHandle a h e).only (Within M) := by
  unfold putHandle
  repeat' first
    | with_reducible exact on_done
    | with_reducible refine on_look fun _ => ?_
    | with_reducible exact on_eff hM rfl
    | with_reducible refine on_seq ?_ ?_
    | with_reducible refine on_setReg64 (sub_trans rfl hM)
    | dsimp only

theorem on_clearHandles {M : List StateField} {a : Nat} (hM : ([.regs] : List StateField) ⊆ M) :
 (clearHandles a).only (Within M) := by
  unfold clearHandles
  repeat' first
    | with_reducible exact on_done
    | with_reducible refine on_look fun _ => ?_
    | with_reducible exact on_eff hM rfl

theorem on_countRead {M : List StateField} {a : Nat} {m : SpMem} {n : Nat} (hM : ([.regs] : List StateField) ⊆ M) :
 (countRead a m n).only (Within M) := by
  unfold countRead
  repeat' first
    | with_reducible exact on_done
    | with_reducible refine on_look fun _ => ?_
    | with_reducible exact on_eff hM rfl
    | with_reducible refine on_bump (sub_trans rfl hM)
    | dsimp only

theorem on_setBank {M : List StateField} {a : Nat} {m : SpMem} {b : Nat} {on : Bool} (hM : ([.regs, .free] : List StateField) ⊆ M) :
 (setBank a m b on).only (Within M) := by
  unfold setBank
  repeat' first
    | with_reducible exact on_done
    | with_reducible refine on_look fun _ => ?_
    | with_reducible exact on_eff hM rfl
    | with_reducible refine on_seq ?_ ?_
    | with_reducible refine on_withFree (sub_trans rfl hM) ?_
    | with_reducible refine on_bump (sub_trans rfl hM)
    | with_reducible refine on_setFld (sub_trans rfl hM)
    | with_reducible refine only_whenA fun _ => ?_
    | intro _
    | dsimp only

theorem on_dumpMem {M : List StateField} {a : Nat} {m : SpMem} {addr n : Nat} (hM : ([.regs, .rings, .mem, .codingMap, .crcDiff, .held, .heldNext, .buffered, .lcSlots, .lcWait, .lcFill, .trust, .free, .out] : List StateField) ⊆ M) :
 (dumpMem a m addr n).only (Within M) := by
  unfold dumpMem
  repeat' first
    | with_reducible exact on_done
    | with_reducible refine on_look fun _ => ?_
    | with_reducible exact on_eff hM rfl
    | with_reducible refine on_seq ?_ ?_
    | with_reducible refine on_physWrite (sub_trans rfl hM)
    | with_reducible refine on_countRead (sub_trans rfl hM)
    | with_reducible refine only_forA fun _ _ => ?_
    | intro _
    | dsimp only

theorem on_dumpLines {M : List StateField} {a n : Nat} (hM : ([.regs, .rings, .mem, .codingMap, .crcDiff, .held, .heldNext, .buffered, .lcSlots, .lcWait, .lcFill, .trust, .free, .out] : List StateField) ⊆ M) :
 (dumpLines a n).only (Within M) := by
  unfold dumpLines
  repeat' first
    | with_reducible exact on_done
    | with_reducible refine on_look fun _ => ?_
    | with_reducible exact on_nil
    | with_reducible refine on_cons ?_ ?_
    | with_reducible exact on_eff hM rfl
    | with_reducible refine on_dumpMem (sub_trans rfl hM)
    | with_reducible refine on_ite ?_ ?_
    | with_reducible refine only_optA fun _ _ => ?_
    | intro _
    | dsimp only

theorem on_cutDump {M : List StateField} {a : Nat} (hM : ([.regs, .rings, .mem, .codingMap, .crcDiff, .held, .heldNext, .buffered, .lcSlots, .lcWait, .lcFill, .arrays, .trust, .free, .out] : List StateField) ⊆ M) :
 (cutDump a).only (Within M) := by
  unfold cutDump
  repeat' first
    | with_reducible exact on_done
    | with_reducible refine on_look fun _ => ?_
    | with_reducible exact on_nil
    | with_reducible refine on_cons ?_ ?_
    | with_reducible exact on_eff hM rfl
    | with_reducible refine on_withFree (sub_trans rfl hM) ?_
    | with_reducible refine on_dumpLines (sub_trans rfl hM)
    | with_reducible refine on_setFld (sub_trans rfl hM)
    | with_reducible refine only_whenA fun _ => ?_
    | intro _
    | dsimp only

theorem on_updWin {M : List StateField} {w : Nat} {f : WinSt → WinSt} (hM : ([.windows] : List StateField) ⊆ M) :
 (updWin w f).only (Within M) := by
  unfold updWin
  repeat' first
    | with_reducible exact on_done
    | with_reducible refine on_look fun _ => ?_
    | with_reducible exact on_eff hM rfl
    | intro _

theorem on_zeroHandles {M : List StateField} {a : Nat} {hs : List (Nat × BitVec 128)} (hM : ([.sp] : List StateField) ⊆ M) :
 (zeroHandles a hs).only (Within M) := by
  unfold zeroHandles
  repeat' first
    | with_reducible exact on_done
    | with_reducible refine on_look fun _ => ?_
    | with_reducible exact on_eff hM rfl
    | with_reducible refine only_whenA fun _ => ?_
    | with_reducible refine only_forA fun _ _ => ?_
    | intro _

theorem on_zeroArray {M : List StateField} {a : Nat} (hM : ([.sp] : List StateField) ⊆ M) :
 (zeroArray a).only (Within M) := by
  unfold zeroArray
  repeat' first
    | with_reducible exact on_done
    | with_reducible refine on_look fun _ => ?_
    | with_reducible exact on_eff hM rfl

theorem on_setScrub {M : List StateField} {a kind : Nat} {busy : Bool} (hM : ([.regs] : List StateField) ⊆ M) :
 (setScrub a kind busy).only (Within M) := by
  unfold setScrub
  repeat' first
    | with_reducible exact on_done
    | with_reducible refine on_look fun _ => ?_
    | with_reducible exact on_eff hM rfl
    | with_reducible refine on_setRegN (sub_trans rfl hM)
    | dsimp only

theorem on_updArr {M : List StateField} {a : Nat} {f : ArraySt → ArraySt} (hM : ([.arrays] : List StateField) ⊆ M) :
 (updArr a f).only (Within M) := by
  unfold updArr
  repeat' first
    | with_reducible exact on_done
    | with_reducible refine on_look fun _ => ?_
    | with_reducible exact on_eff hM rfl
    | intro _

theorem on_dropGather {M : List StateField} {a off n : Nat} (hM : ([.arrays] : List StateField) ⊆ M) :
 (dropGather a off n).only (Within M) := by
  unfold dropGather
  repeat' first
    | with_reducible exact on_done
    | with_reducible refine on_look fun _ => ?_
    | with_reducible exact on_eff hM rfl
    | with_reducible refine on_updArr (sub_trans rfl hM)
    | intro _
    | dsimp only

theorem on_putPiece {M : List StateField} {a : Nat} {v : Arrival} {l : Nat} (hM : ([.regs, .sp, .arrays] : List StateField) ⊆ M) :
 (putPiece a v l).only (Within M) := by
  unfold putPiece
  repeat' first
    | with_reducible exact on_done
    | with_reducible refine on_look fun _ => ?_
    | with_reducible exact on_nil
    | with_reducible refine on_cons ?_ ?_
    | with_reducible exact on_eff hM rfl
    | with_reducible refine on_putSpList (sub_trans rfl hM)
    | with_reducible refine on_dropGather (sub_trans rfl hM)
    | with_reducible refine on_bump (sub_trans rfl hM)
    | dsimp only

theorem on_landPieces {M : List StateField} {a : Nat} (hM : ([.regs, .sp, .arrays, .free] : List StateField) ⊆ M) :
 (landPieces a).only (Within M) := by
  unfold landPieces
  repeat' first
    | with_reducible exact on_done
    | with_reducible refine on_look fun _ => ?_
    | with_reducible exact on_eff hM rfl
    | with_reducible refine on_seq ?_ ?_
    | with_reducible refine on_withFree (sub_trans rfl hM) ?_
    | with_reducible refine on_updArr (sub_trans rfl hM)
    | with_reducible refine on_putPiece (sub_trans rfl hM)
    | with_reducible refine only_whenA fun _ => ?_
    | with_reducible refine only_forA fun _ _ => ?_
    | intro _
    | dsimp only

theorem on_spRead {M : List StateField} {a off n : Nat} {k : List Byte → Act} (hM : ([.regs, .sp, .arrays, .free] : List StateField) ⊆ M) (h0 : ∀ x0, (k x0).only (Within M)) :
 (spRead a off n k).only (Within M) := by
  unfold spRead
  repeat' first
    | with_reducible exact on_done
    | with_reducible refine on_look fun _ => ?_
    | with_reducible exact on_nil
    | with_reducible refine on_cons ?_ ?_
    | with_reducible exact on_eff hM rfl
    | with_reducible refine on_seq ?_ ?_
    | with_reducible exact h0 _
    | with_reducible refine on_landPieces (sub_trans rfl hM)
    | with_reducible refine on_countRead (sub_trans rfl hM)
    | with_reducible refine on_withFree (sub_trans rfl hM) ?_
    | with_reducible refine on_bump (sub_trans rfl hM)
    | with_reducible refine only_whenA fun _ => ?_
    | intro _
    | dsimp only

theorem on_commitArrival {M : List StateField} {a : Nat} {v : Arrival} (hM : ([.regs, .sp, .arrays, .ports, .windows, .free, .out] : List StateField) ⊆ M) :
 (commitArrival a v).only (Within M) := by
  unfold commitArrival
  repeat' first
    | with_reducible exact on_done
    | with_reducible refine on_look fun _ => ?_
    | with_reducible exact on_nil
    | with_reducible refine on_cons ?_ ?_
    | with_reducible exact on_eff hM rfl
    | with_reducible refine on_putPiece (sub_trans rfl hM)
    | with_reducible refine on_bump (sub_trans rfl hM)
    | with_reducible refine on_withFree (sub_trans rfl hM) ?_
    | with_reducible refine on_updWin (sub_trans rfl hM)
    | with_reducible refine on_replyTo (sub_trans rfl hM)
    | with_reducible refine on_semAdd (sub_trans rfl hM)
    | with_reducible refine only_whenA fun _ => ?_
    | with_reducible refine only_forA fun _ _ => ?_
    | intro _
    | dsimp only

theorem on_commitArrivals {M : List StateField} {a : Nat} (hM : ([.regs, .sp, .arrays, .ports, .windows, .free, .out] : List StateField) ⊆ M) :
 (commitArrivals a).only (Within M) := by
  unfold commitArrivals
  repeat' first
    | with_reducible exact on_done
    | with_reducible refine on_look fun _ => ?_
    | with_reducible exact on_eff hM rfl
    | with_reducible refine on_seq ?_ ?_
    | with_reducible refine on_updArr (sub_trans rfl hM)
    | with_reducible refine on_commitArrival (sub_trans rfl hM)
    | with_reducible refine only_forA fun _ _ => ?_
    | intro _
    | dsimp only

theorem on_dropArrival {M : List StateField} {a window handle n : Nat} (hM : ([.regs, .rings, .arrays, .free, .out] : List StateField) ⊆ M) :
 (dropArrival a window handle n).only (Within M) := by
  unfold dropArrival
  repeat' first
    | with_reducible exact on_done
    | with_reducible refine on_look fun _ => ?_
    | with_reducible exact on_nil
    | with_reducible refine on_cons ?_ ?_
    | with_reducible exact on_eff hM rfl
    | with_reducible refine on_seq ?_ ?_
    | with_reducible refine on_bump (sub_trans rfl hM)
    | with_reducible refine on_raiseIrq (sub_trans rfl hM)
    | with_reducible refine on_updArr (sub_trans rfl hM)
    | with_reducible refine on_pageEvent (sub_trans rfl hM)
    | with_reducible refine on_ite ?_ ?_
    | intro _
    | split
    | dsimp only

theorem on_dropQueued {M : List StateField} {a : Nat} (hM : ([.regs, .rings, .arrays, .ports, .windows, .free, .out] : List StateField) ⊆ M) :
 (dropQueued a).only (Within M) := by
  unfold dropQueued
  repeat' first
    | with_reducible exact on_done
    | with_reducible refine on_look fun _ => ?_
    | with_reducible exact on_eff hM rfl
    | with_reducible refine on_seq ?_ ?_
    | with_reducible refine on_updArr (sub_trans rfl hM)
    | with_reducible refine on_dropArrival (sub_trans rfl hM)
    | with_reducible refine on_replyTo (sub_trans rfl hM)
    | with_reducible refine only_forA fun _ _ => ?_
    | intro _
    | dsimp only

end Sys2Proof.Machine
end

