-- ==== Sys2Proof/Laws/FieldsContexts.lean ====
section
/-! SUPPORT. The fields that the acts of Machine/Contexts.lean may change. -/

namespace Sys2Proof.Machine

theorem on_updEng {M : List StateField} {e : Nat} {f : EngineSt → EngineSt} (hM : ([.engines] : List StateField) ⊆ M) :
 (updEng e f).only (Within M) := by
  unfold updEng
  repeat' first
    | with_reducible exact on_done
    | with_reducible refine on_look fun _ => ?_
    | with_reducible exact on_eff hM rfl
    | intro _

theorem on_updCtx {M : List StateField} {c : Nat} {f : CtxRec → CtxRec} (hM : ([.ctxs] : List StateField) ⊆ M) :
 (updCtx c f).only (Within M) := by
  unfold updCtx
  repeat' first
    | with_reducible exact on_done
    | with_reducible refine on_look fun _ => ?_
    | with_reducible exact on_eff hM rfl
    | intro _

theorem on_updEntry {M : List StateField} {n : Nat} {f : EntryRec → EntryRec} (hM : ([.entries] : List StateField) ⊆ M) :
 (updEntry n f).only (Within M) := by
  unfold updEntry
  repeat' first
    | with_reducible exact on_done
    | with_reducible refine on_look fun _ => ?_
    | with_reducible exact on_eff hM rfl
    | with_reducible refine only_optA fun _ _ => ?_
    | intro _

theorem on_jobSignal {M : List StateField} {f : Func} {d : BitVec 1024} (hM : ([.regs] : List StateField) ⊆ M) :
 (jobSignal f d).only (Within M) := by
  unfold jobSignal
  repeat' first
    | with_reducible exact on_done
    | with_reducible refine on_look fun _ => ?_
    | with_reducible exact on_eff hM rfl
    | with_reducible refine on_semAdd (sub_trans rfl hM)
    | with_reducible refine only_whenA fun _ => ?_
    | intro _
    | dsimp only

theorem on_jobEvent {M : List StateField} {f : Func} {d : BitVec 1024} {p low code : Nat} {payload : List Byte} (hM : ([.regs, .rings, .free, .out] : List StateField) ⊆ M) :
 (jobEvent f d p low code payload).only (Within M) := by
  unfold jobEvent
  repeat' first
    | with_reducible exact on_done
    | with_reducible refine on_look fun _ => ?_
    | with_reducible exact on_eff hM rfl
    | with_reducible refine on_putEvent (sub_trans rfl hM)
    | intro _
    | dsimp only

theorem on_endJob {M : List StateField} {j : Nat} {d : BitVec 1024} (hM : ([.regs, .jobs] : List StateField) ⊆ M) :
 (endJob j d).only (Within M) := by
  unfold endJob
  repeat' first
    | with_reducible exact on_done
    | with_reducible refine on_look fun _ => ?_
    | with_reducible exact on_eff hM rfl
    | with_reducible refine on_seq ?_ ?_
    | with_reducible refine on_jobSignal (sub_trans rfl hM)
    | with_reducible refine only_optA fun _ _ => ?_
    | intro _
    | dsimp only

theorem on_finishBatch {M : List StateField} {j : Nat} (hM : ([.regs, .rings, .jobs, .entries, .free, .out] : List StateField) ⊆ M) :
 (finishBatch j).only (Within M) := by
  unfold finishBatch
  repeat' first
    | with_reducible exact on_done
    | with_reducible refine on_look fun _ => ?_
    | with_reducible exact on_nil
    | with_reducible refine on_cons ?_ ?_
    | with_reducible exact on_eff hM rfl
    | with_reducible refine on_jobEvent (sub_trans rfl hM)
    | with_reducible refine on_endJob (sub_trans rfl hM)
    | with_reducible refine only_whenA fun _ => ?_
    | with_reducible refine only_forA fun _ _ => ?_
    | intro _
    | split
    | dsimp only

theorem on_laneEvent {M : List StateField} {l src dst ring : Nat} {handover : Bool} (hM : ([.regs, .rings, .free, .out] : List StateField) ⊆ M) :
 (laneEvent l src dst ring handover).only (Within M) := by
  unfold laneEvent
  repeat' first
    | with_reducible exact on_done
    | with_reducible refine on_look fun _ => ?_
    | with_reducible exact on_eff hM rfl
    | with_reducible refine on_putEvent (sub_trans rfl hM)
    | intro _
    | dsimp only

theorem on_moveLane {M : List StateField} {l dst ring : Nat} {handover event : Bool} (hM : ([.regs, .rings, .lanes, .free, .out] : List StateField) ⊆ M) :
 (moveLane l dst ring handover event).only (Within M) := by
  unfold moveLane
  repeat' first
    | with_reducible exact on_done
    | with_reducible refine on_look fun _ => ?_
    | with_reducible exact on_nil
    | with_reducible refine on_cons ?_ ?_
    | with_reducible exact on_eff hM rfl
    | with_reducible refine on_bump (sub_trans rfl hM)
    | with_reducible refine on_raiseIrq (sub_trans rfl hM)
    | with_reducible refine on_laneEvent (sub_trans rfl hM)
    | with_reducible refine on_ite ?_ ?_
    | with_reducible refine only_whenA fun _ => ?_
    | intro _
    | dsimp only

theorem on_laneStreak {M : List StateField} {e : EntryRec} (hM : ([.regs, .rings, .lanes, .free, .out] : List StateField) ⊆ M) :
 (laneStreak e).only (Within M) := by
  unfold laneStreak
  repeat' first
    | with_reducible exact on_done
    | with_reducible refine on_look fun _ => ?_
    | with_reducible exact on_eff hM rfl
    | with_reducible refine on_seq ?_ ?_
    | with_reducible refine on_moveLane (sub_trans rfl hM)
    | with_reducible refine on_ite ?_ ?_
    | with_reducible refine only_whenA fun _ => ?_
    | intro _
    | split
    | dsimp only

theorem on_stripStreak {M : List StateField} {r : StripRef} {ok : Bool} (hM : ([.regs, .rings, .lanes, .free, .out] : List StateField) ⊆ M) :
 (stripStreak r ok).only (Within M) := by
  unfold stripStreak
  repeat' first
    | with_reducible exact on_done
    | with_reducible refine on_look fun _ => ?_
    | with_reducible exact on_eff hM rfl
    | with_reducible refine on_seq ?_ ?_
    | with_reducible refine on_moveLane (sub_trans rfl hM)
    | with_reducible refine on_ite ?_ ?_
    | with_reducible refine only_whenA fun _ => ?_
    | intro _
    | dsimp only

theorem on_stripDone {M : List StateField} {n : Nat} {r : StripRef} (hM : ([.regs, .rings, .lanes, .layers, .free, .out] : List StateField) ⊆ M) :
 (stripDone n r).only (Within M) := by
  unfold stripDone
  repeat' first
    | with_reducible exact on_done
    | with_reducible refine on_look fun _ => ?_
    | with_reducible exact on_nil
    | with_reducible refine on_cons ?_ ?_
    | with_reducible exact on_eff hM rfl
    | with_reducible refine on_updStrip (sub_trans rfl hM)
    | with_reducible refine on_bump (sub_trans rfl hM)
    | with_reducible refine on_stripStreak (sub_trans rfl hM)
    | with_reducible refine on_ite ?_ ?_
    | with_reducible refine only_whenA fun _ => ?_
    | with_reducible refine only_optA fun _ _ => ?_
    | intro _
    | dsimp only

theorem on_releaseNext {M : List StateField} {e : EntryRec} (hM : ([.entries] : List StateField) ⊆ M) :
 (releaseNext e).only (Within M) := by
  unfold releaseNext
  repeat' first
    | with_reducible exact on_done
    | with_reducible refine on_look fun _ => ?_
    | with_reducible exact on_eff hM rfl
    | with_reducible refine on_updEntry (sub_trans rfl hM)
    | with_reducible refine only_whenA fun _ => ?_
    | with_reducible refine only_forA fun _ _ => ?_
    | intro _
    | dsimp only

theorem on_endEntry {M : List StateField} {n status code : Nat} (hM : ([.regs, .rings, .jobs, .entries, .lanes, .classCounts, .free, .out] : List StateField) ⊆ M) :
 (endEntry n status code).only (Within M) := by
  unfold endEntry
  repeat' first
    | with_reducible exact on_done
    | with_reducible refine on_look fun _ => ?_
    | with_reducible exact on_nil
    | with_reducible refine on_cons ?_ ?_
    | with_reducible exact on_eff hM rfl
    | with_reducible refine on_seq ?_ ?_
    | with_reducible refine on_bump (sub_trans rfl hM)
    | with_reducible refine on_withFree (sub_trans rfl hM) ?_
    | with_reducible refine on_laneStreak (sub_trans rfl hM)
    | with_reducible refine on_releaseNext (sub_trans rfl hM)
    | with_reducible refine on_finishBatch (sub_trans rfl hM)
    | with_reducible refine on_ite ?_ ?_
    | with_reducible refine only_whenA fun _ => ?_
    | intro _
    | split
    | dsimp only

theorem on_releaseClaims {M : List StateField} {c : Nat} {r : CtxRec} (hM : ([.regs] : List StateField) ⊆ M) :
 (releaseClaims c r).only (Within M) := by
  unfold releaseClaims
  repeat' first
    | with_reducible exact on_done
    | with_reducible refine on_look fun _ => ?_
    | with_reducible exact on_eff hM rfl
    | with_reducible refine on_setClaim (sub_trans rfl hM)
    | with_reducible refine only_whenA fun _ => ?_
    | with_reducible refine only_forA fun _ _ => ?_
    | intro _
    | dsimp only

theorem on_releasePool {M : List StateField} {c : Nat} {r : CtxRec} (hM : ([.engines] : List StateField) ⊆ M) :
 (releasePool c r).only (Within M) := by
  unfold releasePool
  repeat' first
    | with_reducible exact on_done
    | with_reducible refine on_look fun _ => ?_
    | with_reducible exact on_eff hM rfl
    | with_reducible refine on_updEng (sub_trans rfl hM)
    | with_reducible refine on_ite ?_ ?_
    | with_reducible refine only_whenA fun _ => ?_
    | with_reducible refine only_optA fun _ _ => ?_
    | intro _
    | dsimp only

theorem on_takeClaims {M : List StateField} {ctx first n : Nat} (hM : ([.regs] : List StateField) ⊆ M) :
 (takeClaims ctx first n).only (Within M) := by
  unfold takeClaims
  repeat' first
    | with_reducible exact on_done
    | with_reducible refine on_look fun _ => ?_
    | with_reducible exact on_eff hM rfl
    | with_reducible refine on_setClaim (sub_trans rfl hM)
    | with_reducible refine only_forA fun _ _ => ?_
    | intro _
    | dsimp only

theorem on_settleEngine {M : List StateField} {e : Nat} (hM : ([.regs, .rings, .engines, .free, .out] : List StateField) ⊆ M) :
 (settleEngine e).only (Within M) := by
  unfold settleEngine
  repeat' first
    | with_reducible exact on_done
    | with_reducible refine on_look fun _ => ?_
    | with_reducible exact on_nil
    | with_reducible refine on_cons ?_ ?_
    | with_reducible exact on_eff hM rfl
    | with_reducible refine on_updEng (sub_trans rfl hM)
    | with_reducible refine on_setRegN (sub_trans rfl hM)
    | with_reducible refine on_recordErr (sub_trans rfl hM)
    | with_reducible refine on_raiseIrq (sub_trans rfl hM)
    | with_reducible refine on_pageEvent (sub_trans rfl hM)
    | with_reducible refine on_ite ?_ ?_
    | with_reducible refine only_whenA fun _ => ?_
    | intro _
    | dsimp only

theorem on_stopEngine {M : List StateField} {e : Nat} (hM : ([.regs, .rings, .engines, .free, .out] : List StateField) ⊆ M) :
 (stopEngine e).only (Within M) := by
  unfold stopEngine
  repeat' first
    | with_reducible exact on_done
    | with_reducible refine on_look fun _ => ?_
    | with_reducible exact on_eff hM rfl
    | with_reducible refine on_seq ?_ ?_
    | with_reducible refine on_updEng (sub_trans rfl hM)
    | with_reducible refine on_settleEngine (sub_trans rfl hM)
    | with_reducible refine on_ite ?_ ?_
    | with_reducible refine only_whenA fun _ => ?_
    | intro _
    | dsimp only

theorem on_orphanTags {M : List StateField} {e : Nat} (hM : ([.regs, .rings, .engines, .free, .out] : List StateField) ⊆ M) :
 (orphanTags e).only (Within M) := by
  unfold orphanTags
  repeat' first
    | with_reducible exact on_done
    | with_reducible refine on_look fun _ => ?_
    | with_reducible exact on_nil
    | with_reducible refine on_cons ?_ ?_
    | with_reducible exact on_eff hM rfl
    | with_reducible refine on_seq ?_ ?_
    | with_reducible refine on_bump (sub_trans rfl hM)
    | with_reducible refine on_pageEvent (sub_trans rfl hM)
    | with_reducible refine on_updEng (sub_trans rfl hM)
    | with_reducible refine on_settleEngine (sub_trans rfl hM)
    | with_reducible refine only_forA fun _ _ => ?_
    | intro _
    | dsimp only

theorem on_setRung {M : List StateField} {slot serial rung : Nat} (hM : ([.regs, .layers] : List StateField) ⊆ M) :
 (setRung slot serial rung).only (Within M) := by
  unfold setRung
  repeat' first
    | with_reducible exact on_done
    | with_reducible refine on_look fun _ => ?_
    | with_reducible exact on_eff hM rfl
    | with_reducible refine on_seq ?_ ?_
    | with_reducible refine on_updStrip (sub_trans rfl hM)
    | with_reducible refine on_setFld (sub_trans rfl hM)
    | with_reducible refine only_whenA fun _ => ?_
    | intro _
    | dsimp only

theorem on_lowerLane {M : List StateField} {slot dst frame : Nat} (hM : ([.regs, .rings, .lanes, .layers, .free, .out] : List StateField) ⊆ M) :
 (lowerLane slot dst frame).only (Within M) := by
  unfold lowerLane
  repeat' first
    | with_reducible exact on_done
    | with_reducible refine on_look fun _ => ?_
    | with_reducible exact on_nil
    | with_reducible refine on_cons ?_ ?_
    | with_reducible exact on_eff hM rfl
    | with_reducible refine on_seq ?_ ?_
    | with_reducible refine on_moveLane (sub_trans rfl hM)
    | with_reducible refine on_updLayer (sub_trans rfl hM)
    | with_reducible refine on_laneEvent (sub_trans rfl hM)
    | with_reducible refine on_ite ?_ ?_
    | with_reducible refine only_whenA fun _ => ?_
    | intro _
    | dsimp only

theorem on_floorStrip {M : List StateField} {slot serial : Nat} {at_ : HandAt} (hM : ([.regs, .rings, .lanes, .layers, .free, .out] : List StateField) ⊆ M) :
 (floorStrip slot serial at_).only (Within M) := by
  unfold floorStrip
  repeat' first
    | with_reducible exact on_done
    | with_reducible refine on_look fun _ => ?_
    | with_reducible exact on_nil
    | with_reducible refine on_cons ?_ ?_
    | with_reducible exact on_eff hM rfl
    | with_reducible refine on_setRung (sub_trans rfl hM)
    | with_reducible refine on_updStrip (sub_trans rfl hM)
    | with_reducible refine on_bump (sub_trans rfl hM)
    | with_reducible refine on_raiseIrq (sub_trans rfl hM)
    | with_reducible refine on_lowerLane (sub_trans rfl hM)
    | with_reducible refine on_ite ?_ ?_
    | with_reducible refine only_optA fun _ _ => ?_
    | intro _
    | dsimp only

theorem on_floorQueued {M : List StateField} {f : Func} (hM : ([.regs, .rings, .entries, .lanes, .layers, .free, .out] : List StateField) ⊆ M) :
 (floorQueued f).only (Within M) := by
  unfold floorQueued
  repeat' first
    | with_reducible exact on_done
    | with_reducible refine on_look fun _ => ?_
    | with_reducible exact on_eff hM rfl
    | with_reducible refine on_seq ?_ ?_
    | with_reducible refine on_floorStrip (sub_trans rfl hM)
    | with_reducible refine only_whenA fun _ => ?_
    | with_reducible refine only_optA fun _ _ => ?_
    | with_reducible refine only_forA fun _ _ => ?_
    | intro _
    | dsimp only

theorem on_queueStrip {M : List StateField} {slot serial : Nat} {rung : Nat} {urgent : Bool} (hM : ([.regs, .rings, .entries, .entryNext, .lanes, .layers, .free, .out] : List StateField) ⊆ M) :
 (queueStrip slot serial rung urgent).only (Within M) := by
  unfold queueStrip
  repeat' first
    | with_reducible exact on_done
    | with_reducible refine on_look fun _ => ?_
    | with_reducible exact on_nil
    | with_reducible refine on_cons ?_ ?_
    | with_reducible exact on_eff hM rfl
    | with_reducible refine on_floorStrip (sub_trans rfl hM)
    | with_reducible refine on_setRung (sub_trans rfl hM)
    | with_reducible refine on_updStrip (sub_trans rfl hM)
    | with_reducible refine on_ite ?_ ?_
    | with_reducible refine only_optA fun _ _ => ?_
    | intro _
    | dsimp only

theorem on_enterOwed {M : List StateField} {c : Nat} (hM : ([.regs, .rings, .entries, .entryNext, .lanes, .layers, .free, .out] : List StateField) ⊆ M) :
 (enterOwed c).only (Within M) := by
  unfold enterOwed
  repeat' first
    | with_reducible exact on_done
    | with_reducible refine on_look fun _ => ?_
    | with_reducible exact on_eff hM rfl
    | with_reducible refine on_queueStrip (sub_trans rfl hM)
    | with_reducible refine only_whenA fun _ => ?_
    | with_reducible refine only_optA fun _ _ => ?_
    | intro _
    | dsimp only

theorem on_settleRetire {M : List StateField} {c : Nat} (hM : ([.regs, .units, .rings, .engines, .ctxs, .entries, .lanes, .layers, .free, .out] : List StateField) ⊆ M) :
 (settleRetire c).only (Within M) := by
  unfold settleRetire
  repeat' first
    | with_reducible exact on_done
    | with_reducible refine on_look fun _ => ?_
    | with_reducible exact on_nil
    | with_reducible refine on_cons ?_ ?_
    | with_reducible exact on_eff hM rfl
    | with_reducible refine on_seq ?_ ?_
    | with_reducible refine on_releaseClaims (sub_trans rfl hM)
    | with_reducible refine on_releasePool (sub_trans rfl hM)
    | with_reducible refine on_updCtx (sub_trans rfl hM)
    | with_reducible refine on_setUnit (sub_trans rfl hM)
    | with_reducible refine on_putEvent (sub_trans rfl hM)
    | with_reducible refine on_floorQueued (sub_trans rfl hM)
    | with_reducible refine on_setScrub (sub_trans rfl hM)
    | with_reducible refine on_ite ?_ ?_
    | with_reducible refine only_whenA fun _ => ?_
    | with_reducible refine only_optA fun _ _ => ?_
    | intro _
    | dsimp only

theorem on_stopHonoured {M : List StateField} {a : Nat} (hM : ([.regs, .out] : List StateField) ⊆ M) :
 (stopHonoured a).only (Within M) := by
  unfold stopHonoured
  repeat' first
    | with_reducible exact on_done
    | with_reducible refine on_look fun _ => ?_
    | with_reducible exact on_eff hM rfl
    | with_reducible refine on_seq ?_ ?_
    | with_reducible refine on_bump (sub_trans rfl hM)
    | with_reducible refine on_raiseIrq (sub_trans rfl hM)
    | dsimp only

theorem on_endBatchStep {M : List StateField} {a status code : Nat} (hM : ([.regs, .units, .rings, .sp, .arrays, .engines, .ctxs, .entries, .entryNext, .lanes, .ports, .windows, .layers, .free, .out] : List StateField) ⊆ M) :
 (endBatchStep a status code).only (Within M) := by
  unfold endBatchStep
  repeat' first
    | with_reducible exact on_done
    | with_reducible refine on_look fun _ => ?_
    | with_reducible exact on_nil
    | with_reducible refine on_cons ?_ ?_
    | with_reducible exact on_eff hM rfl
    | with_reducible refine on_stopHonoured (sub_trans rfl hM)
    | with_reducible refine on_commitArrivals (sub_trans rfl hM)
    | with_reducible refine on_updArr (sub_trans rfl hM)
    | with_reducible refine on_raiseIrq (sub_trans rfl hM)
    | with_reducible refine on_stripDone (sub_trans rfl hM)
    | with_reducible refine on_updCtx (sub_trans rfl hM)
    | with_reducible refine on_stopEngine (sub_trans rfl hM)
    | with_reducible refine on_enterOwed (sub_trans rfl hM)
    | with_reducible refine on_settleRetire (sub_trans rfl hM)
    | with_reducible refine on_ite ?_ ?_
    | with_reducible refine only_whenA fun _ => ?_
    | with_reducible refine only_optA fun _ _ => ?_
    | with_reducible refine only_forA fun _ _ => ?_
    | intro _
    | split
    | dsimp only

theorem on_arrayError {M : List StateField} {a step tag code : Nat} {info1 : Word} (hM : ([.regs, .rings, .free, .out] : List StateField) ⊆ M) :
 (arrayError a step tag code info1).only (Within M) := by
  unfold arrayError
  repeat' first
    | with_reducible exact on_done
    | with_reducible refine on_look fun _ => ?_
    | with_reducible exact on_eff hM rfl
    | with_reducible refine on_recordErrI (sub_trans rfl hM)
    | dsimp only

theorem on_failCtx {M : List StateField} {a c step code src : Nat} {record : Act} (hM : ([.regs, .rings, .sp, .arrays, .engines, .ctxs, .entries, .entryNext, .lanes, .ports, .windows, .layers, .flog, .flogN, .free, .out] : List StateField) ⊆ M) (h0 : record.only (Within M)) :
 (failCtx a c step code src record).only (Within M) := by
  unfold failCtx
  repeat' first
    | with_reducible exact on_done
    | with_reducible refine on_look fun _ => ?_
    | with_reducible exact on_nil
    | with_reducible refine on_cons ?_ ?_
    | with_reducible exact on_eff hM rfl
    | with_reducible exact h0
    | with_reducible refine on_commitArrivals (sub_trans rfl hM)
    | with_reducible refine on_updArr (sub_trans rfl hM)
    | with_reducible refine on_setRegN (sub_trans rfl hM)
    | with_reducible refine on_flog (sub_trans rfl hM)
    | with_reducible refine on_bump (sub_trans rfl hM)
    | with_reducible refine on_raiseIrq (sub_trans rfl hM)
    | with_reducible refine on_pageEvent (sub_trans rfl hM)
    | with_reducible refine on_updCtx (sub_trans rfl hM)
    | with_reducible refine on_stopEngine (sub_trans rfl hM)
    | with_reducible refine on_enterOwed (sub_trans rfl hM)
    | with_reducible refine only_forA fun _ _ => ?_
    | intro _
    | dsimp only

theorem on_faultCtx {M : List StateField} {a step code src : Nat} {record : Act} (hM : ([.regs, .rings, .sp, .arrays, .engines, .ctxs, .entries, .entryNext, .lanes, .ports, .windows, .layers, .flog, .flogN, .free, .out] : List StateField) ⊆ M) (h0 : record.only (Within M)) :
 (faultCtx a step code src record).only (Within M) := by
  unfold faultCtx
  repeat' first
    | with_reducible exact on_done
    | with_reducible refine on_look fun _ => ?_
    | with_reducible exact on_eff hM rfl
    | with_reducible exact h0
    | with_reducible refine on_failCtx (sub_trans rfl hM) ?_
    | with_reducible refine only_optA fun _ _ => ?_
    | intro _
    | dsimp only

theorem on_ctxFault {M : List StateField} {a step code src : Nat} {record : Act} (hM : ([.regs, .units, .rings, .sp, .arrays, .engines, .ctxs, .entries, .entryNext, .lanes, .ports, .windows, .layers, .flog, .flogN, .free, .out] : List StateField) ⊆ M) (h0 : record.only (Within M)) :
 (ctxFault a step code src record).only (Within M) := by
  unfold ctxFault
  repeat' first
    | with_reducible exact on_done
    | with_reducible refine on_look fun _ => ?_
    | with_reducible exact on_eff hM rfl
    | with_reducible refine on_seq ?_ ?_
    | with_reducible exact h0
    | with_reducible refine on_faultCtx (sub_trans rfl hM) ?_
    | with_reducible refine on_settleRetire (sub_trans rfl hM)
    | with_reducible refine only_optA fun _ _ => ?_
    | intro _
    | dsimp only

theorem on_unreserve {M : List StateField} {a : Nat} (hM : ([.regs, .arrays, .ctxs, .entries] : List StateField) ⊆ M) :
 (unreserve a).only (Within M) := by
  unfold unreserve
  repeat' first
    | with_reducible exact on_done
    | with_reducible refine on_look fun _ => ?_
    | with_reducible exact on_nil
    | with_reducible refine on_cons ?_ ?_
    | with_reducible exact on_eff hM rfl
    | with_reducible refine on_seq ?_ ?_
    | with_reducible refine on_updArr (sub_trans rfl hM)
    | with_reducible refine on_releaseClaims (sub_trans rfl hM)
    | with_reducible refine on_updEntry (sub_trans rfl hM)
    | with_reducible refine only_whenA fun _ => ?_
    | with_reducible refine only_optA fun _ _ => ?_
    | intro _
    | dsimp only

theorem on_askStop {M : List StateField} {a : Nat} {why : StopWhy} (hM : ([.arrays, .ctxs] : List StateField) ⊆ M) :
 (askStop a why).only (Within M) := by
  unfold askStop
  repeat' first
    | with_reducible exact on_done
    | with_reducible refine on_look fun _ => ?_
    | with_reducible exact on_eff hM rfl
    | with_reducible refine on_seq ?_ ?_
    | with_reducible refine on_updArr (sub_trans rfl hM)
    | with_reducible refine on_updCtx (sub_trans rfl hM)
    | with_reducible refine on_ite ?_ ?_
    | with_reducible refine only_optA fun _ _ => ?_
    | intro _
    | dsimp only

theorem on_stopCtx {M : List StateField} {a status : Nat} {why : StopWhy} (hM : ([.regs, .units, .rings, .sp, .arrays, .engines, .ctxs, .entries, .entryNext, .lanes, .ports, .windows, .layers, .free, .out] : List StateField) ⊆ M) :
 (stopCtx a status why).only (Within M) := by
  unfold stopCtx
  repeat' first
    | with_reducible exact on_done
    | with_reducible refine on_look fun _ => ?_
    | with_reducible exact on_nil
    | with_reducible refine on_cons ?_ ?_
    | with_reducible exact on_eff hM rfl
    | with_reducible refine on_seq ?_ ?_
    | with_reducible refine on_updCtx (sub_trans rfl hM)
    | with_reducible refine on_askStop (sub_trans rfl hM)
    | with_reducible refine on_commitArrivals (sub_trans rfl hM)
    | with_reducible refine on_updArr (sub_trans rfl hM)
    | with_reducible refine on_stopEngine (sub_trans rfl hM)
    | with_reducible refine on_enterOwed (sub_trans rfl hM)
    | with_reducible refine on_settleRetire (sub_trans rfl hM)
    | with_reducible refine on_ite ?_ ?_
    | with_reducible refine only_optA fun _ _ => ?_
    | with_reducible refine only_forA fun _ _ => ?_
    | intro _
    | dsimp only

theorem on_stopUnitCtx {M : List StateField} {a status : Nat} (hM : ([.regs, .units, .rings, .sp, .arrays, .engines, .ctxs, .entries, .entryNext, .lanes, .ports, .windows, .layers, .free, .out] : List StateField) ⊆ M) :
 (stopUnitCtx a status).only (Within M) := by
  unfold stopUnitCtx
  repeat' first
    | with_reducible exact on_done
    | with_reducible refine on_look fun _ => ?_
    | with_reducible exact on_eff hM rfl
    | with_reducible refine on_seq ?_ ?_
    | with_reducible refine on_unreserve (sub_trans rfl hM)
    | with_reducible refine on_stopCtx (sub_trans rfl hM)
    | dsimp only

theorem on_freeCtx {M : List StateField} {c : Nat} (hM : ([.arrays, .engines, .ctxs] : List StateField) ⊆ M) :
 (freeCtx c).only (Within M) := by
  unfold freeCtx
  repeat' first
    | with_reducible exact on_done
    | with_reducible refine on_look fun _ => ?_
    | with_reducible exact on_nil
    | with_reducible refine on_cons ?_ ?_
    | with_reducible exact on_eff hM rfl
    | with_reducible refine on_seq ?_ ?_
    | with_reducible refine on_updArr (sub_trans rfl hM)
    | with_reducible refine on_updEng (sub_trans rfl hM)
    | with_reducible refine only_whenA fun _ => ?_
    | with_reducible refine only_forA fun _ _ => ?_
    | intro _
    | dsimp only

end Sys2Proof.Machine
end

