-- ==== Sys2Proof/Laws/FieldsQueues.lean ====
section
/-! SUPPORT. The fields that the acts of Machine/Queues.lean may change. -/

namespace Sys2Proof.Machine

theorem on_assignCtx {M : List StateField} {a n : Nat} {k : Nat → Act} (hM : ([.regs, .ctxs, .entries] : List StateField) ⊆ M) (h0 : ∀ x0, (k x0).only (Within M)) :
 (assignCtx a n k).only (Within M) := by
  unfold assignCtx
  repeat' first
    | with_reducible exact on_done
    | with_reducible refine on_look fun _ => ?_
    | with_reducible exact on_nil
    | with_reducible refine on_cons ?_ ?_
    | with_reducible exact on_eff hM rfl
    | with_reducible exact h0 _
    | with_reducible refine on_takeClaims (sub_trans rfl hM)
    | intro _
    | split
    | dsimp only

theorem on_placeNext {M : List StateField} {a : Nat} {m : Member} (hM : ([.regs, .arrays, .ctxs, .entries] : List StateField) ⊆ M) :
 (placeNext a m).only (Within M) := by
  unfold placeNext
  repeat' first
    | with_reducible exact on_done
    | with_reducible refine on_look fun _ => ?_
    | with_reducible exact on_eff hM rfl
    | with_reducible refine on_seq ?_ ?_
    | with_reducible refine on_updArr (sub_trans rfl hM)
    | with_reducible refine on_askStop (sub_trans rfl hM)
    | with_reducible refine on_bump (sub_trans rfl hM)
    | with_reducible refine on_assignCtx (sub_trans rfl hM) ?_
    | intro _
    | split
    | dsimp only

theorem on_preemptFrom {M : List StateField} {f : Func} {a0 : Nat} (hM : ([.regs, .arrays, .ctxs, .entries, .free] : List StateField) ⊆ M) :
 (preemptFrom f a0).only (Within M) := by
  induction a0 with
  | zero =>
    unfold preemptFrom
    repeat' first
      | with_reducible exact on_done
      | with_reducible refine on_look fun _ => ?_
      | with_reducible exact on_eff hM rfl
      | dsimp only
  | succ _ ih =>
    unfold preemptFrom
    repeat' first
      | with_reducible exact on_done
      | with_reducible refine on_look fun _ => ?_
      | with_reducible exact on_eff hM rfl
      | with_reducible refine on_seq ?_ ?_
      | with_reducible exact ih
      | with_reducible refine on_withFree (sub_trans rfl hM) ?_
      | with_reducible refine on_placeNext (sub_trans rfl hM)
      | with_reducible refine on_ite ?_ ?_
      | with_reducible refine only_optA fun _ _ => ?_
      | intro _
      | split
      | dsimp only

theorem on_preemptTest {M : List StateField} {f : Func} (hM : ([.regs, .arrays, .ctxs, .entries, .free] : List StateField) ⊆ M) :
 (preemptTest f).only (Within M) := by
  unfold preemptTest
  repeat' first
    | with_reducible exact on_done
    | with_reducible refine on_look fun _ => ?_
    | with_reducible exact on_eff hM rfl
    | with_reducible refine on_preemptFrom (sub_trans rfl hM)
    | dsimp only

theorem on_watched {M : List StateField} {a : Act} (hM : ([.regs, .arrays, .ctxs, .entries, .free] : List StateField) ⊆ M) (h0 : a.only (Within M)) :
 (watched a).only (Within M) := by
  unfold watched
  repeat' first
    | with_reducible exact on_done
    | with_reducible refine on_look fun _ => ?_
    | with_reducible exact on_eff hM rfl
    | with_reducible refine on_seq ?_ ?_
    | with_reducible exact h0
    | with_reducible refine on_preemptTest (sub_trans rfl hM)
    | with_reducible refine only_forA fun _ _ => ?_
    | intro _
    | dsimp only

theorem on_served {M : List StateField} {a : Act} (hM : ([.regs, .arrays, .ctxs, .entries, .free] : List StateField) ⊆ M) (h0 : a.only (Within M)) :
 (served a).only (Within M) := by
  unfold served
  repeat' first
    | with_reducible exact on_done
    | with_reducible refine on_look fun _ => ?_
    | with_reducible exact on_eff hM rfl
    | with_reducible exact h0
    | with_reducible refine on_inService (sub_trans rfl hM) ?_
    | with_reducible refine on_watched (sub_trans rfl hM) ?_
    | intro _
    | dsimp only

end Sys2Proof.Machine
end

