-- ==== Sys2Proof/Laws/Frame.lean ====
section
/-! SUPPORT. From what an act may change to what a command leaves alone. -/

namespace Sys2Proof.Machine

/-- A meaning always answers a next state: the one its act leaves for a well-formed command, else the state as it was. -/
theorem meaning_next {i : Instr} {a : Act} {s t : State} :
    meaning i a s = .next t ↔ (if i.wf = true then run a s else s) = t := by
  unfold meaning
  by_cases h : i.wf = true <;> simp [h]

/-- A field outside those an effect changes is the same after it. -/
theorem sameField_apply {e : Effect} (s : State) : ∀ {x : StateField}, e.field ≠ x → sameField x s (e.apply s)
  | .regs, h => Effect.keeps_regs h s
  | .shadows, h => Effect.keeps_shadows h s
  | .commits, h => Effect.keeps_commits h s
  | .latches, h => Effect.keeps_latches h s
  | .units, h => Effect.keeps_units h s
  | .rings, h => Effect.keeps_rings h s
  | .jobs, h => Effect.keeps_jobs h s
  | .jobNext, h => Effect.keeps_jobNext h s
  | .time, h => Effect.keeps_time h s
  | .mem, h => Effect.keeps_mem h s
  | .codingMap, h => Effect.keeps_codingMap h s
  | .crcDiff, h => Effect.keeps_crcDiff h s
  | .held, h => Effect.keeps_held h s
  | .heldNext, h => Effect.keeps_heldNext h s
  | .buffered, h => Effect.keeps_buffered h s
  | .tlb, h => Effect.keeps_tlb h s
  | .inval, h => Effect.keeps_inval h s
  | .zeroing, h => Effect.keeps_zeroing h s
  | .lcSlots, h => Effect.keeps_lcSlots h s
  | .lcWait, h => Effect.keeps_lcWait h s
  | .lcFill, h => Effect.keeps_lcFill h s
  | .sp, h => Effect.keeps_sp h s
  | .arrays, h => Effect.keeps_arrays h s
  | .engines, h => Effect.keeps_engines h s
  | .ctxs, h => Effect.keeps_ctxs h s
  | .entries, h => Effect.keeps_entries h s
  | .entryNext, h => Effect.keeps_entryNext h s
  | .lanes, h => Effect.keeps_lanes h s
  | .classCounts, h => Effect.keeps_classCounts h s
  | .ports, h => Effect.keeps_ports h s
  | .remotes, h => Effect.keeps_remotes h s
  | .windows, h => Effect.keeps_windows h s
  | .streams, h => Effect.keeps_streams h s
  | .pipes, h => Effect.keeps_pipes h s
  | .layers, h => Effect.keeps_layers h s
  | .outs, h => Effect.keeps_outs h s
  | .keep, h => Effect.keeps_keep h s
  | .trust, h => Effect.keeps_trust h s
  | .flash, h => Effect.keeps_flash h s
  | .track, h => Effect.keeps_track h s
  | .tblk, h => Effect.keeps_tblk h s
  | .tcache, h => Effect.keeps_tcache h s
  | .tcam, h => Effect.keeps_tcam h s
  | .trings, h => Effect.keeps_trings h s
  | .vfs, h => Effect.keeps_vfs h s
  | .d3, h => Effect.keeps_d3 h s
  | .pcieAfter, h => Effect.keeps_pcieAfter h s
  | .owed, h => Effect.keeps_owed h s
  | .phase, h => Effect.keeps_phase h s
  | .tripHold, h => Effect.keeps_tripHold h s
  | .ruin, h => Effect.keeps_ruin h s
  | .relock, h => Effect.keeps_relock h s
  | .linkWait, h => Effect.keeps_linkWait h s
  | .lost, h => Effect.keeps_lost h s
  | .thermtrip, h => Effect.keeps_thermtrip h s
  | .faultsAt, h => Effect.keeps_faultsAt h s
  | .flog, h => Effect.keeps_flog h s
  | .flogN, h => Effect.keeps_flogN h s
  | .tb, h => Effect.keeps_tb h s
  | .free, h => Effect.keeps_free h s
  | .out, h => Effect.keeps_out h s

/-- A field outside those an act may change is the same after it. -/
theorem sameField_run {M : List StateField} {x : StateField} (hx : x ∉ M) :
    ∀ (a : Act) (s : State), a.only (Within M) → sameField x s (run a s)
  | .done, s, _ => by cases x <;> rfl
  | .eff e, s, h => sameField_apply s fun hc => hx (by rw [← hc]; exact h)
  | .seq a b, s, h => by
    have h1 := sameField_run hx a s h.1
    have h2 := sameField_run hx b (run a s) h.2
    cases x <;> exact Eq.trans h2 h1
  | .look f, s, h => sameField_run hx (f s) s (h s)

/-- A field that the acts before leave at a value, and the acts after do not name, holds it at the end. -/
theorem settled {α : Type} {view : State → α} {v : α} {x : StateField} (hx : ∀ s t, sameField x s t → view t = view s)
    {a : Act} {l : List Act} {M : List StateField} (ha : ∀ s, view (run a s) = v) (hl : (acts l).only (Within M))
    (hM : M.elem x = false) (s : State) : view (run (acts (a :: l)) s) = v :=
  (hx _ _ (sameField_run (fun hc => by rw [List.elem_eq_true_of_mem hc] at hM; cases hM) (acts l) (run a s) hl)).trans
    (ha s)

/-- A well-formed command completes with what its act leaves. -/
theorem answers_of {c : Instr} {a : Act} {s : State} {Q : State → Prop} (he : exec c s = meaning c a s)
    (hw : c.wf = true) (h : Q (run a s)) : answers c s Q :=
  ⟨_, he.trans (meaning_next.2 (if_pos hw)), h⟩

theorem run_inService {s : State} (h : s.phase = .service) (a : Act) : run (inService a) s = run a s := by
  simp only [inService, run_look, h, if_true]

end Sys2Proof.Machine
end

