-- ==== Sys2Proof/Laws/Watched.lean ====
section
/-! SUPPORT. What the pre-emption test (R247), which runs after every command that may change what the scheduler watches,
can change: a count of the scheduler page, claims of semaphores, entries, contexts, and of the arrays only what they are
asked to do next. -/

namespace Sys2Proof.Machine

variable {F : StateField → Prop} {P : Nat → Prop}

/-- A command that the scheduler watches runs its act and then some pre-emption tests. -/
theorem run_watched (a : Act) (s : State) : ∃ l : List Func, run (watched a) s = run (forA l preemptTest) (run a s) :=
  ⟨_, rfl⟩

/-- The registers a pre-emption test may change: the count of pre-emptions and the claims of semaphores. -/
def preemptKey (k : Nat) : Prop :=
  (k / 4096 = schedPage ∧ 0x048 ≤ k % 4096 ∧ k % 4096 < 0x050) ∨ 
    (0x240 ≤ k / 4096 ∧ k / 4096 < 0x290 ∧ 0x300 ≤ k % 4096 ∧ k % 4096 < 0x400)

theorem fits_setClaim {n : Nat} {c : Option Nat} (hn : n < 4352) (hF : F .regs) (hP : ∀ k, preemptKey k → P k) :
    (setClaim n c).only (Fits F P) :=
  fits_setRegN hF (hP _ (.inr ⟨by rw [regAddr_div (by omega)]; unfold semPage; omega,
    by rw [regAddr_div (by omega)]; unfold semPage; omega,
    by rw [regAddr_mod (by omega)]; omega, by rw [regAddr_mod (by omega)]; omega⟩))

theorem fits_askStop {a : Nat} {why : StopWhy} (ha : F .arrays) (hc : F .ctxs) : (askStop a why).only (Fits F P) :=
  fun _ => only_optA fun _ _ => ⟨fun _ => ⟨ha, trivial⟩, fun _ => ⟨hc, trivial⟩⟩

theorem fits_placeNext {a : Nat} {m : Member} (hr : F .regs) (ha : F .arrays) (hc : F .ctxs) (he : F .entries)
    (hP : ∀ k, preemptKey k → P k) : (placeNext a m).only (Fits F P) := by
  have hkeep (a c : Nat) : (Act.seq (updArr a fun x => { x with reserved := some c }) (askStop a .save)).only (Fits F P) :=
    ⟨fun _ => ⟨ha, trivial⟩, fits_askStop ha hc⟩
  refine ⟨fits_bump hr ?_ ?_, ?_⟩
  · exact hP _ (.inl ⟨regAddr_div (by omega), by rw [regAddr_mod (by omega)]; omega⟩)
  · exact hP _ (.inl ⟨regAddr_div (by omega), by rw [regAddr_mod (by omega)]; omega⟩)
  · cases m with
    | saved c => exact hkeep a c
    | entry n =>
      unfold assignCtx
      refine on_look fun s => ?_
      split
      · refine ⟨⟨he, trivial⟩, ⟨hc, trivial⟩, only_forA fun i hi => fits_setClaim ?_ hr hP, hkeep a _, trivial⟩
        have h1 : ∀ b : BitVec 512, (bodyClaim b).1 < 4096 := fun b => Nat.mod_lt _ (by decide)
        have h2 : ∀ b : BitVec 512, (bodyClaim b).2 < 128 := fun b => Nat.mod_lt _ (by decide)
        have h3 := List.mem_range.1 hi
        have h4 := Nat.lt_trans h3 (h2 _)
        exact Nat.lt_of_lt_of_le (Nat.add_lt_add (h1 _) h4) (by omega)
      · exact trivial

theorem fits_preemptFrom {f : Func} (hr : F .regs) (ha : F .arrays) (hc : F .ctxs) (he : F .entries) (hf : F .free)
    (hP : ∀ k, preemptKey k → P k) : ∀ n, (preemptFrom f n).only (Fits F P)
  | 0 => trivial
  | n + 1 => by
    unfold preemptFrom
    refine on_look fun s => ?_
    split
    · exact trivial
    · refine only_optA fun e0 _ => on_ite trivial (fits_withFree hf fun x => on_ite trivial (only_optA fun a _ => ?_))
      exact ⟨fits_placeNext hr ha hc he hP, fits_preemptFrom hr ha hc he hf hP n⟩

theorem fits_preemptTest {f : Func} (hr : F .regs) (ha : F .arrays) (hc : F .ctxs) (he : F .entries) (hf : F .free)
    (hP : ∀ k, preemptKey k → P k) : (preemptTest f).only (Fits F P) := fits_preemptFrom hr ha hc he hf hP 33

/-- A command that the scheduler watches leaves every register that neither its act nor a pre-emption test changes. -/
theorem reg_watched (a : Act) {p off : Nat} (h : ¬ preemptKey (regAddr p off)) (s : State) :
    (run (watched a) s).reg p off = (run a s).reg p off := by
  obtain ⟨l, hl⟩ := run_watched a s
  rw [hl]
  exact reg_of_fits (F := fun _ => True) (only_forA fun _ _ => fits_preemptTest trivial trivial trivial trivial trivial
    fun _ hk => hk) h _

/-- Fields that a pre-emption test does not change are as the command's act leaves them. -/
theorem sameField_watched {x : StateField} (hx : x ∉ [StateField.regs, .arrays, .ctxs, .entries, .free]) (a : Act)
    (s : State) : sameField x (run a s) (run (watched a) s) := by
  obtain ⟨l, hl⟩ := run_watched a s
  rw [hl]
  exact sameField_run hx _ _ (only_forA fun _ _ => on_preemptTest (List.Subset.refl _))

theorem run_served {s : State} (h : s.phase = .service) (a : Act) : run (served a) s = run (watched a) s :=
  run_inService h _

end Sys2Proof.Machine
end

