-- ==== Sys2Proof/Laws/Access.lean ====
section
/-! SUPPORT. Who may reach what: a doorbell, a write or a read that is let through does its act; and the registers of the
rings. -/

namespace Sys2Proof.Machine

theorem regAddr_ne {p off p' off' : Nat} (ho : off < 4096) (ho' : off' < 4096) (h : ¬ (p' = p ∧ off' = off)) :
    regAddr p' off' ≠ regAddr p off := by
  unfold regAddr; omega

/-- Writing a register changes that register alone. -/
theorem sameRegs_setReg {p off : Nat} (ho : off < 4096) (v : Word) (s : State) :
    sameRegs (fun q o => q = p ∧ o = off) s (run (setReg p off v) s) :=
  fun _ _ ho' hn => reg_setReg_other (regAddr_ne ho ho' hn) v s

theorem run_ringDoorbell {s : State} {f : Func} (hp : s.present f = true) (hr : s.resetting f = false) (a : Act) :
    run (ringDoorbell f a) s = run a s := by
  simp [ringDoorbell, hp, hr]

theorem run_doorbell {s : State} {f : Func} {u : UnitId} (hp : s.present f = true) (hr : s.resetting f = false)
    (hb : s.boundTo u f = true) (a : Act) : run (doorbell f u a) s = run a s := by
  have h := hb
  simp only [State.boundTo, Bool.and_eq_true, decide_eq_true_eq] at h
  simp [doorbell, hp, hr, h.1, hb]

theorem run_withWrite {s : State} {f : Func} {p : Nat} (hp : s.present f = true) (hd : s.denied f p true = none)
    (a : Act) : run (withWrite f p a) s = run a s := by
  simp [withWrite, hp, hd]

theorem run_withRead {s : State} {f : Func} {p n : Nat} (hp : s.present f = true) (hd : s.denied f p false = none)
    (a : Act) : run (withRead f p n a) s = run a s := by
  simp [withRead, hp, hd]

/-- A write that the page lets through, in service. -/
theorem run_mayWrite {s : State} {f : Func} {p : Nat} (h : mayWrite s f p) (a : Act) :
    run (inService (withWrite f p a)) s = run a s := by
  rw [run_inService h.1, run_withWrite h.2.1 h.2.2]

/-- A read that the page lets through, in service. -/
theorem run_mayRead {s : State} {f : Func} {p n : Nat} (h : mayRead s f p) (a : Act) :
    run (inService (withRead f p n a)) s = run a s := by
  rw [run_inService h.1, run_withRead h.2.1 h.2.2]

/-- A page is served in service. -/
theorem run_whenServed {s : State} (h : s.phase = .service) (f : Func) (p : Nat) (a : Act) :
    run (whenServed f p a) s = run a s := by
  simp only [whenServed, run_look, h, decide_true, Bool.true_or, run_whenA_true]

/-- A write of a function to its own global page, let through. -/
theorem run_globalWrite {s : State} {f : Func} (h : mayWrite s f (globalPage f)) (a : Act) :
    run (globalWrite f a) s = run a s :=
  (run_whenServed h.1 f _ _).trans (run_withWrite h.2.1 h.2.2 a)

/-! ## The registers of the rings (R39, R41) -/

theorem regMask_jr (f : Func) (n : Fin 8) {o : Nat} (ho : o < 32) :
    regMask (regAddr (globalPage f) (jrOff n.val + o)) = classMask .global (jrOff n.val + o) :=
  regMask_regAddr (pageClass_globalPage f) (by unfold jrOff; omega)

theorem regMask_evr (f : Func) (n : Fin 8) {o : Nat} (ho : o < 32) :
    regMask (regAddr (globalPage f) (evrOff n.val + o)) = classMask .global (evrOff n.val + o) :=
  regMask_regAddr (pageClass_globalPage f) (by unfold evrOff; omega)

theorem mask_jrCfg : ∀ n : Fin 8, classMask .global (jrOff n.val + 8) = 0x8000001F := by decide
theorem mask_jrSeq : ∀ n : Fin 8, classMask .global (jrOff n.val + 0x0C) = 0x00FFFFFF := by decide
theorem mask_jrProd : ∀ n : Fin 8, classMask .global (jrOff n.val + 0x10) = 0xFFFFFFFF := by decide
theorem mask_jrCons : ∀ n : Fin 8, classMask .global (jrOff n.val + 0x14) = 0xFFFFFFFF := by decide
theorem mask_jrStat : ∀ n : Fin 8, classMask .global (jrOff n.val + 0x18) = 0xFFFF0001 := by decide
theorem mask_evrCfg : ∀ n : Fin 8, classMask .global (evrOff n.val + 8) = 0x87FF001F := by decide
theorem mask_evrProd : ∀ n : Fin 8, classMask .global (evrOff n.val + 16) = 0xFFFFFFFF := by decide
theorem mask_evrCons : ∀ n : Fin 8, classMask .global (evrOff n.val + 20) = 0xFFFFFFFF := by decide
theorem mask_evrDrop : ∀ n : Fin 8, classMask .global (evrOff n.val + 24) = 0xFFFFFFFF := by decide

/-- Global pages hold no pending bits of interrupts. -/
theorem not_msgKey_global {f : Func} {off : Nat} (ho : off < 4096) : ¬ msgKey (regAddr (globalPage f) off) := by
  unfold msgKey
  rw [regAddr_div ho]
  have := globalPage_zero_or f
  omega

/-! ## Bits of a value -/

theorem bit_and {n : Nat} (a b : BitVec n) (i : Nat) : bit (a &&& b) i = (bit a i && bit b i) := by
  unfold bit; rw [BitVec.toNat_and, Nat.testBit_and]

theorem bit_or {n : Nat} (a b : BitVec n) (i : Nat) : bit (a ||| b) i = (bit a i || bit b i) := by
  unfold bit; rw [BitVec.toNat_or, Nat.testBit_or]

/-- A field of a value put into that field is the value, in the field's width. -/
theorem fld_eq_bits {n : Nat} (a b : BitVec n) (lo len : Nat) (h : ∀ i, lo ≤ i → i < lo + len → bit a i = bit b i) :
    fld a lo len = fld b lo len := by
  unfold fld
  apply Nat.eq_of_testBit_eq
  intro i
  rw [Nat.testBit_mod_two_pow, Nat.testBit_mod_two_pow, Nat.testBit_shiftRight, Nat.testBit_shiftRight]
  by_cases hi : i < len
  · simp only [hi, decide_true, Bool.true_and]
    exact h (lo + i) (by omega) (by omega)
  · simp only [hi, decide_false, Bool.false_and]

theorem bit_getLsbD {n : Nat} (a : BitVec n) (i : Nat) : bit a i = a.getLsbD i := rfl

theorem bit_putFld {n : Nat} (w : BitVec n) (lo len v i : Nat) (hi : i < n) :
    bit (putFld w lo len v) i = if lo ≤ i ∧ i < lo + len then v.testBit (i - lo) else bit w i := by
  simp only [bit_getLsbD, putFld, BitVec.getLsbD_or, BitVec.getLsbD_and, BitVec.getLsbD_not, BitVec.getLsbD_ofNat, hi,
    decide_true, Bool.true_and, Nat.testBit_shiftLeft, Nat.testBit_two_pow_sub_one, Nat.testBit_mod_two_pow]
  by_cases h1 : lo ≤ i
  · by_cases h2 : i < lo + len
    · have h3 : i - lo < len := by omega
      simp [h1, h2, h3]
    · have h3 : ¬ i - lo < len := by omega
      simp [h1, h2, h3]
  · simp [h1]

end Sys2Proof.Machine
end

