-- ==== Sys2Proof/Laws/FieldsLadder.lean ====
section
/-! SUPPORT. The fields that the acts of Machine/Ladder.lean may change. -/

namespace Sys2Proof.Machine

theorem on_endStripStep {M : List StateField} {n : Nat} (hM : ([.regs, .units, .rings, .sp, .arrays, .engines, .ctxs, .entries, .entryNext, .lanes, .ports, .windows, .layers, .free, .out] : List StateField) ⊆ M) :
 (endStripStep n).only (Within M) := by
  unfold endStripStep
  repeat' first
    | with_reducible exact on_done
    | with_reducible refine on_look fun _ => ?_
    | with_reducible exact on_eff hM rfl
    | with_reducible refine on_stopCtx (sub_trans rfl hM)
    | with_reducible refine only_optA fun _ _ => ?_
    | intro _
    | split
    | dsimp only

theorem on_stripToFloor {M : List StateField} {slot serial : Nat} {at_ : HandAt} (hM : ([.regs, .units, .rings, .sp, .arrays, .engines, .ctxs, .entries, .entryNext, .lanes, .ports, .windows, .layers, .free, .out] : List StateField) ⊆ M) :
 (stripToFloor slot serial at_).only (Within M) := by
  unfold stripToFloor
  repeat' first
    | with_reducible exact on_done
    | with_reducible refine on_look fun _ => ?_
    | with_reducible exact on_eff hM rfl
    | with_reducible refine on_seq ?_ ?_
    | with_reducible refine on_endStripStep (sub_trans rfl hM)
    | with_reducible refine on_floorStrip (sub_trans rfl hM)
    | with_reducible refine only_optA fun _ _ => ?_
    | intro _
    | dsimp only

theorem on_stripToCoppice {M : List StateField} {slot serial : Nat} {at_ : HandAt} (hM : ([.regs, .units, .rings, .sp, .arrays, .engines, .ctxs, .entries, .entryNext, .lanes, .ports, .windows, .layers, .free, .out] : List StateField) ⊆ M) :
 (stripToCoppice slot serial at_).only (Within M) := by
  unfold stripToCoppice
  repeat' first
    | with_reducible exact on_done
    | with_reducible refine on_look fun _ => ?_
    | with_reducible exact on_nil
    | with_reducible refine on_cons ?_ ?_
    | with_reducible exact on_eff hM rfl
    | with_reducible refine on_setRung (sub_trans rfl hM)
    | with_reducible refine on_updStrip (sub_trans rfl hM)
    | with_reducible refine on_endStripStep (sub_trans rfl hM)
    | with_reducible refine on_bump (sub_trans rfl hM)
    | with_reducible refine on_lowerLane (sub_trans rfl hM)
    | with_reducible refine on_queueStrip (sub_trans rfl hM)
    | with_reducible refine on_ite ?_ ?_
    | with_reducible refine only_whenA fun _ => ?_
    | with_reducible refine only_optA fun _ _ => ?_
    | intro _
    | dsimp only

theorem on_handDown {M : List StateField} {slot serial : Nat} {at_ : HandAt} (hM : ([.regs, .units, .rings, .sp, .arrays, .engines, .ctxs, .entries, .entryNext, .lanes, .ports, .windows, .layers, .free, .out] : List StateField) ⊆ M) :
 (handDown slot serial at_).only (Within M) := by
  unfold handDown
  repeat' first
    | with_reducible exact on_done
    | with_reducible refine on_look fun _ => ?_
    | with_reducible exact on_eff hM rfl
    | with_reducible refine on_seq ?_ ?_
    | with_reducible refine on_stripToCoppice (sub_trans rfl hM)
    | with_reducible refine on_lowerLane (sub_trans rfl hM)
    | with_reducible refine on_stripToFloor (sub_trans rfl hM)
    | with_reducible refine on_ite ?_ ?_
    | with_reducible refine only_whenA fun _ => ?_
    | with_reducible refine only_optA fun _ _ => ?_
    | intro _
    | dsimp only

theorem on_handFelled {M : List StateField} {c : Nat} (hM : ([.regs, .units, .rings, .sp, .arrays, .engines, .ctxs, .entries, .entryNext, .lanes, .ports, .windows, .layers, .free, .out] : List StateField) ⊆ M) :
 (handFelled c).only (Within M) := by
  unfold handFelled
  repeat' first
    | with_reducible exact on_done
    | with_reducible refine on_look fun _ => ?_
    | with_reducible exact on_eff hM rfl
    | with_reducible refine on_stripToFloor (sub_trans rfl hM)
    | with_reducible refine on_handDown (sub_trans rfl hM)
    | with_reducible refine on_ite ?_ ?_
    | with_reducible refine only_whenA fun _ => ?_
    | with_reducible refine only_optA fun _ _ => ?_
    | intro _
    | dsimp only

theorem on_stripWriteFailed {M : List StateField} {slot serial : Nat} (hM : ([.regs, .units, .rings, .sp, .arrays, .engines, .ctxs, .entries, .entryNext, .lanes, .ports, .windows, .layers, .free, .out] : List StateField) ⊆ M) :
 (stripWriteFailed slot serial).only (Within M) := by
  unfold stripWriteFailed
  repeat' first
    | with_reducible exact on_done
    | with_reducible refine on_look fun _ => ?_
    | with_reducible exact on_nil
    | with_reducible refine on_cons ?_ ?_
    | with_reducible exact on_eff hM rfl
    | with_reducible refine on_withFree (sub_trans rfl hM) ?_
    | with_reducible refine on_recordErrI (sub_trans rfl hM)
    | with_reducible refine on_pageEvent (sub_trans rfl hM)
    | with_reducible refine on_endStripStep (sub_trans rfl hM)
    | with_reducible refine on_setRung (sub_trans rfl hM)
    | with_reducible refine on_updStrip (sub_trans rfl hM)
    | with_reducible refine only_whenA fun _ => ?_
    | with_reducible refine only_optA fun _ _ => ?_
    | intro _
    | dsimp only

theorem on_bufferWriteFailed {M : List StateField} {r : StripRef} (hM : ([.regs, .units, .rings, .sp, .arrays, .engines, .ctxs, .entries, .entryNext, .lanes, .ports, .windows, .layers, .free, .out] : List StateField) ⊆ M) :
 (bufferWriteFailed r).only (Within M) := by
  unfold bufferWriteFailed
  repeat' first
    | with_reducible exact on_done
    | with_reducible refine on_look fun _ => ?_
    | with_reducible exact on_eff hM rfl
    | with_reducible refine on_stripWriteFailed (sub_trans rfl hM)
    | with_reducible refine only_whenA fun _ => ?_
    | with_reducible refine only_optA fun _ _ => ?_
    | intro _
    | dsimp only

end Sys2Proof.Machine
end

