-- ==== Sys2Proof/Laws/FieldsPages.lean ====
section
/-! SUPPORT. The fields that the acts of Machine/Pages.lean may change. -/

namespace Sys2Proof.Machine

theorem on_putPmap {M : List StateField} {f : Func} {k v : Nat} (hM : ([.regs] : List StateField) ⊆ M) :
 (putPmap f k v).only (Within M) := by
  unfold putPmap
  repeat' first
    | with_reducible exact on_done
    | with_reducible refine on_look fun _ => ?_
    | with_reducible exact on_eff hM rfl
    | with_reducible refine on_setFld (sub_trans rfl hM)
    | dsimp only

theorem on_unmapPages {M : List StateField} {f : Func} {ps : List Nat} (hM : ([.regs] : List StateField) ⊆ M) :
 (unmapPages f ps).only (Within M) := by
  unfold unmapPages
  repeat' first
    | with_reducible exact on_done
    | with_reducible refine on_look fun _ => ?_
    | with_reducible exact on_eff hM rfl
    | with_reducible refine on_putPmap (sub_trans rfl hM)
    | with_reducible refine only_forA fun _ _ => ?_
    | intro _
    | dsimp only

theorem on_mapPage {M : List StateField} {f : Func} {ro : Bool} {p : Nat} (hM : ([.regs] : List StateField) ⊆ M) :
 (mapPage f ro p).only (Within M) := by
  unfold mapPage
  repeat' first
    | with_reducible exact on_done
    | with_reducible refine on_look fun _ => ?_
    | with_reducible exact on_eff hM rfl
    | with_reducible refine on_putPmap (sub_trans rfl hM)
    | with_reducible refine only_optA fun _ _ => ?_
    | intro _
    | dsimp only

theorem on_withWrite {M : List StateField} {f : Func} {p : Nat} {a : Act} (hM : ([.regs, .rings, .free, .out] : List StateField) ⊆ M) (h0 : a.only (Within M)) :
 (withWrite f p a).only (Within M) := by
  unfold withWrite
  repeat' first
    | with_reducible exact on_done
    | with_reducible refine on_look fun _ => ?_
    | with_reducible exact on_eff hM rfl
    | with_reducible exact h0
    | with_reducible refine on_hostErr (sub_trans rfl hM)
    | with_reducible refine on_ite ?_ ?_
    | intro _
    | split
    | dsimp only

theorem on_readZero {M : List StateField} {n : Nat} (hM : ([.out] : List StateField) ⊆ M) :
 (readZero n).only (Within M) := by
  unfold readZero
  repeat' first
    | with_reducible exact on_done
    | with_reducible refine on_look fun _ => ?_
    | with_reducible exact on_eff hM rfl

theorem on_withRead {M : List StateField} {f : Func} {p n : Nat} {a : Act} (hM : ([.regs, .rings, .free, .out] : List StateField) ⊆ M) (h0 : a.only (Within M)) :
 (withRead f p n a).only (Within M) := by
  unfold withRead
  repeat' first
    | with_reducible exact on_done
    | with_reducible refine on_look fun _ => ?_
    | with_reducible exact on_eff hM rfl
    | with_reducible refine on_seq ?_ ?_
    | with_reducible exact h0
    | with_reducible refine on_readZero (sub_trans rfl hM)
    | with_reducible refine on_hostErr (sub_trans rfl hM)
    | with_reducible refine on_ite ?_ ?_
    | intro _
    | split
    | dsimp only

theorem on_readWord {M : List StateField} {v : Nat} (hM : ([.out] : List StateField) ⊆ M) :
 (readWord v).only (Within M) := by
  unfold readWord
  repeat' first
    | with_reducible exact on_done
    | with_reducible refine on_look fun _ => ?_
    | with_reducible exact on_eff hM rfl

theorem on_applySnap {M : List StateField} {p : Nat} {snap : Table Word} (hM : ([.regs] : List StateField) ⊆ M) :
 (applySnap p snap).only (Within M) := by
  unfold applySnap
  repeat' first
    | with_reducible exact on_done
    | with_reducible refine on_look fun _ => ?_
    | with_reducible exact on_eff hM rfl
    | with_reducible refine on_setReg (sub_trans rfl hM)
    | with_reducible refine only_forA fun _ _ => ?_
    | intro _
    | dsimp only

theorem on_settleCommit {M : List StateField} {p : Nat} {seq : BitVec 24} {applied late : Bool} {code : Nat} (hM : ([.regs, .commits, .rings, .free, .out] : List StateField) ⊆ M) :
 (settleCommit p seq applied late code).only (Within M) := by
  unfold settleCommit
  repeat' first
    | with_reducible exact on_done
    | with_reducible refine on_look fun _ => ?_
    | with_reducible exact on_nil
    | with_reducible refine on_cons ?_ ?_
    | with_reducible exact on_eff hM rfl
    | with_reducible refine on_setRegN (sub_trans rfl hM)
    | with_reducible refine on_raiseIrq (sub_trans rfl hM)
    | with_reducible refine on_pageEvent (sub_trans rfl hM)
    | with_reducible refine on_ite ?_ ?_
    | intro _
    | dsimp only

theorem on_applyCommit {M : List StateField} {p : Nat} {late : Bool} (hM : ([.regs, .commits, .rings, .free, .out] : List StateField) ⊆ M) :
 (applyCommit p late).only (Within M) := by
  unfold applyCommit
  repeat' first
    | with_reducible exact on_done
    | with_reducible refine on_look fun _ => ?_
    | with_reducible exact on_eff hM rfl
    | with_reducible refine on_seq ?_ ?_
    | with_reducible refine on_applySnap (sub_trans rfl hM)
    | with_reducible refine on_settleCommit (sub_trans rfl hM)
    | with_reducible refine only_optA fun _ _ => ?_
    | intro _
    | dsimp only

theorem on_discardCommit {M : List StateField} {p : Nat} (hM : ([.regs, .commits] : List StateField) ⊆ M) :
 (discardCommit p).only (Within M) := by
  unfold discardCommit
  repeat' first
    | with_reducible exact on_done
    | with_reducible refine on_look fun _ => ?_
    | with_reducible exact on_eff hM rfl
    | with_reducible refine on_seq ?_ ?_
    | with_reducible refine on_setFld (sub_trans rfl hM)
    | with_reducible refine only_whenA fun _ => ?_
    | intro _
    | dsimp only

theorem on_bindEvent {M : List StateField} {f : Func} {low : Nat} {payload : List Byte} (hM : ([.regs, .rings, .free, .out] : List StateField) ⊆ M) :
 (bindEvent f low payload).only (Within M) := by
  unfold bindEvent
  repeat' first
    | with_reducible exact on_done
    | with_reducible refine on_look fun _ => ?_
    | with_reducible exact on_eff hM rfl
    | with_reducible refine on_putEvent (sub_trans rfl hM)
    | dsimp only

theorem on_withdrawUnit {M : List StateField} {u : UnitId} {r : Rebind} (hM : ([.regs, .shadows, .commits, .units, .rings, .free, .out] : List StateField) ⊆ M) :
 (withdrawUnit u r).only (Within M) := by
  unfold withdrawUnit
  repeat' first
    | with_reducible exact on_done
    | with_reducible refine on_look fun _ => ?_
    | with_reducible exact on_nil
    | with_reducible refine on_cons ?_ ?_
    | with_reducible exact on_eff hM rfl
    | with_reducible refine on_seq ?_ ?_
    | with_reducible refine on_setUnit (sub_trans rfl hM)
    | with_reducible refine on_discardCommit (sub_trans rfl hM)
    | with_reducible refine on_bindEvent (sub_trans rfl hM)
    | with_reducible refine only_whenA fun _ => ?_
    | with_reducible refine only_forA fun _ _ => ?_
    | intro _
    | dsimp only

theorem on_updSeq {M : List StateField} {u : UnitId} {f : Rebind → Rebind} (hM : ([.units] : List StateField) ⊆ M) :
 (updSeq u f).only (Within M) := by
  unfold updSeq
  repeat' first
    | with_reducible exact on_done
    | with_reducible refine on_look fun _ => ?_
    | with_reducible exact on_eff hM rfl
    | with_reducible refine on_seq ?_ ?_
    | with_reducible refine on_setUnit (sub_trans rfl hM)
    | intro _
    | dsimp only

end Sys2Proof.Machine
end

