-- ==== Sys2Proof/Laws/FieldsFelling.lean ====
section
/-! SUPPORT. The fields that the acts of Machine/Felling.lean may change. -/

namespace Sys2Proof.Machine

theorem on_unpinArray {M : List StateField} {a : Nat} (hM : ([.regs, .rings, .lcSlots, .lcFill, .free, .out] : List StateField) ⊆ M) :
 (unpinArray a).only (Within M) := by
  unfold unpinArray
  repeat' first
    | with_reducible exact on_done
    | with_reducible refine on_look fun _ => ?_
    | with_reducible exact on_eff hM rfl
    | with_reducible refine on_seq ?_ ?_
    | with_reducible refine on_pageEvent (sub_trans rfl hM)
    | with_reducible refine only_whenA fun _ => ?_
    | with_reducible refine only_forA fun _ _ => ?_
    | intro _
    | dsimp only

theorem on_fellArray {M : List StateField} {a step tag code : Nat} (hM : ([.regs, .shadows, .commits, .units, .rings, .lcSlots, .lcFill, .sp, .arrays, .engines, .ctxs, .entries, .entryNext, .lanes, .ports, .windows, .layers, .owed, .phase, .tripHold, .ruin, .relock, .faultsAt, .flog, .flogN, .free, .out] : List StateField) ⊆ M) :
 (fellArray a step tag code).only (Within M) := by
  unfold fellArray
  repeat' first
    | with_reducible exact on_done
    | with_reducible refine on_look fun _ => ?_
    | with_reducible exact on_nil
    | with_reducible refine on_cons ?_ ?_
    | with_reducible exact on_eff hM rfl
    | with_reducible refine on_seq ?_ ?_
    | with_reducible refine on_faultCtx (sub_trans rfl hM) ?_
    | with_reducible refine on_arrayError (sub_trans rfl hM)
    | with_reducible refine on_setRegN (sub_trans rfl hM)
    | with_reducible refine on_updCtx (sub_trans rfl hM)
    | with_reducible refine on_stopEngine (sub_trans rfl hM)
    | with_reducible refine on_unreserve (sub_trans rfl hM)
    | with_reducible refine on_flog (sub_trans rfl hM)
    | with_reducible refine on_setUnit (sub_trans rfl hM)
    | with_reducible refine on_updArr (sub_trans rfl hM)
    | with_reducible refine on_setFld (sub_trans rfl hM)
    | with_reducible refine on_raiseIrq (sub_trans rfl hM)
    | with_reducible refine on_unpinArray (sub_trans rfl hM)
    | with_reducible refine on_funcEvent (sub_trans rfl hM)
    | with_reducible refine on_ownerAndPf (sub_trans rfl hM)
    | with_reducible refine on_withdrawUnit (sub_trans rfl hM)
    | with_reducible refine on_handFelled (sub_trans rfl hM)
    | with_reducible refine on_settleRetire (sub_trans rfl hM)
    | with_reducible refine on_floorQueued (sub_trans rfl hM)
    | with_reducible refine on_deviceFault (sub_trans rfl hM)
    | with_reducible refine on_ite ?_ ?_
    | with_reducible refine only_whenA fun _ => ?_
    | with_reducible refine only_optA fun _ _ => ?_
    | with_reducible refine only_forA fun _ _ => ?_
    | intro _
    | split
    | dsimp only

theorem on_settleFell {M : List StateField} {a : Nat} {quiet : State → Nat → Bool} (hM : ([.regs, .shadows, .commits, .units, .rings, .lcSlots, .lcFill, .sp, .arrays, .engines, .ctxs, .entries, .entryNext, .lanes, .ports, .windows, .layers, .owed, .phase, .tripHold, .ruin, .relock, .faultsAt, .flog, .flogN, .free, .out] : List StateField) ⊆ M) :
 (settleFell a quiet).only (Within M) := by
  unfold settleFell
  repeat' first
    | with_reducible exact on_done
    | with_reducible refine on_look fun _ => ?_
    | with_reducible exact on_eff hM rfl
    | with_reducible refine on_fellArray (sub_trans rfl hM)
    | with_reducible refine only_whenA fun _ => ?_
    | intro _
    | dsimp only

end Sys2Proof.Machine
end

