-- ==== Sys2Proof/Laws/FieldsLinks.lean ====
section
/-! SUPPORT. The fields that the acts of Machine/Links.lean may change. -/

namespace Sys2Proof.Machine

theorem on_winRefuse {M : List StateField} {w : Nat} (hM : ([.regs, .rings, .windows, .free, .out] : List StateField) ⊆ M) :
 (winRefuse w).only (Within M) := by
  unfold winRefuse
  repeat' first
    | with_reducible exact on_done
    | with_reducible refine on_look fun _ => ?_
    | with_reducible exact on_nil
    | with_reducible refine on_cons ?_ ?_
    | with_reducible exact on_eff hM rfl
    | with_reducible refine on_seq ?_ ?_
    | with_reducible refine on_bump (sub_trans rfl hM)
    | with_reducible refine on_pageErr (sub_trans rfl hM)
    | with_reducible refine on_updWin (sub_trans rfl hM)
    | with_reducible refine on_pageEvent (sub_trans rfl hM)
    | with_reducible refine on_ite ?_ ?_
    | intro _
    | split
    | dsimp only

theorem on_reachable {M : List StateField} {c : StackClient} {va n : Nat} {k : Bool → Act} (hM : ([.regs, .rings, .mem, .codingMap, .crcDiff, .buffered, .tlb, .free, .out] : List StateField) ⊆ M) (h0 : ∀ x0, (k x0).only (Within M)) :
 (reachable c va n k).only (Within M) := by
  unfold reachable
  repeat' first
    | with_reducible exact on_done
    | with_reducible refine on_look fun _ => ?_
    | with_reducible exact on_eff hM rfl
    | with_reducible exact h0 _
    | with_reducible refine on_translate (sub_trans rfl hM) ?_
    | with_reducible refine on_ite ?_ ?_
    | intro _
    | split
    | dsimp only

theorem on_windowWrite {M : List StateField} {w src offset first last : Nat} {data : List Byte} {port : Option Nat} {reply : Option (List Byte)} {k : WinEnd → Act} (hM : ([.regs, .rings, .mem, .codingMap, .crcDiff, .buffered, .tlb, .arrays, .windows, .free, .out] : List StateField) ⊆ M) (h0 : ∀ x0, (k x0).only (Within M)) :
 (windowWrite w src offset first last data port reply k).only (Within M) := by
  unfold windowWrite
  repeat' first
    | with_reducible exact on_done
    | with_reducible refine on_look fun _ => ?_
    | with_reducible exact on_nil
    | with_reducible refine on_cons ?_ ?_
    | with_reducible exact on_eff hM rfl
    | with_reducible refine on_seq ?_ ?_
    | with_reducible exact h0 _
    | with_reducible refine on_winRefuse (sub_trans rfl hM)
    | with_reducible refine on_bump (sub_trans rfl hM)
    | with_reducible refine on_pageErr (sub_trans rfl hM)
    | with_reducible refine on_reachable (sub_trans rfl hM) ?_
    | with_reducible refine on_updWin (sub_trans rfl hM)
    | with_reducible refine on_dropArrival (sub_trans rfl hM)
    | with_reducible refine on_updArr (sub_trans rfl hM)
    | with_reducible refine on_ite ?_ ?_
    | intro _
    | split
    | dsimp only

theorem on_windowRead {M : List StateField} {w src offset first last : Nat} {k : Nat → List Byte → Act} (hM : ([.regs, .rings, .mem, .codingMap, .crcDiff, .buffered, .tlb, .lcSlots, .windows, .free, .out] : List StateField) ⊆ M) (h0 : ∀ x0 x1, (k x0 x1).only (Within M)) :
 (windowRead w src offset first last k).only (Within M) := by
  unfold windowRead
  repeat' first
    | with_reducible exact on_done
    | with_reducible refine on_look fun _ => ?_
    | with_reducible exact on_eff hM rfl
    | with_reducible refine on_seq ?_ ?_
    | with_reducible exact h0 _ _
    | with_reducible refine on_winRefuse (sub_trans rfl hM)
    | with_reducible refine on_virtRead (sub_trans rfl hM) ?_
    | with_reducible refine on_bump (sub_trans rfl hM)
    | with_reducible refine on_ite ?_ ?_
    | intro _
    | split
    | dsimp only

theorem on_sendRemote {M : List StateField} {r : RemoteReq} {vc : Nat} {answer : Nat → Act} (hM : ([.regs, .rings, .ports, .free, .out] : List StateField) ⊆ M) (h0 : ∀ x0, (answer x0).only (Within M)) :
 (sendRemote r vc answer).only (Within M) := by
  unfold sendRemote
  repeat' first
    | with_reducible exact on_done
    | with_reducible refine on_look fun _ => ?_
    | with_reducible exact on_eff hM rfl
    | with_reducible refine on_seq ?_ ?_
    | with_reducible exact h0 _
    | with_reducible refine on_sendFrame (sub_trans rfl hM)
    | with_reducible refine on_bump (sub_trans rfl hM)
    | with_reducible refine on_pageErr (sub_trans rfl hM)
    | with_reducible refine on_ite ?_ ?_
    | intro _
    | split
    | dsimp only

end Sys2Proof.Machine
end

