-- ==== Sys2Proof/Laws/FieldsEngines.lean ====
section
/-! SUPPORT. The fields that the acts of Machine/Engines.lean may change. -/

namespace Sys2Proof.Machine

theorem on_parityTold {M : List StateField} {a : Nat} {m : SpMem} {line : Nat} (hM : ([.regs, .rings, .free, .out] : List StateField) ⊆ M) :
 (parityTold a m line).only (Within M) := by
  unfold parityTold
  repeat' first
    | with_reducible exact on_done
    | with_reducible refine on_look fun _ => ?_
    | with_reducible exact on_nil
    | with_reducible refine on_cons ?_ ?_
    | with_reducible exact on_eff hM rfl
    | with_reducible refine on_withFree (sub_trans rfl hM) ?_
    | with_reducible refine on_recordErrI (sub_trans rfl hM)
    | with_reducible refine on_raiseIrq (sub_trans rfl hM)
    | with_reducible refine on_bump (sub_trans rfl hM)
    | with_reducible refine on_pageEvent (sub_trans rfl hM)
    | intro _
    | dsimp only

theorem on_parityFault {M : List StateField} {a step : Nat} {m : SpMem} {line : Nat} (hM : ([.regs, .units, .rings, .sp, .arrays, .engines, .ctxs, .entries, .entryNext, .lanes, .ports, .windows, .layers, .flog, .flogN, .free, .out] : List StateField) ⊆ M) :
 (parityFault a step m line).only (Within M) := by
  unfold parityFault
  repeat' first
    | with_reducible exact on_done
    | with_reducible refine on_look fun _ => ?_
    | with_reducible exact on_eff hM rfl
    | with_reducible refine on_seq ?_ ?_
    | with_reducible refine on_parityTold (sub_trans rfl hM)
    | with_reducible refine on_failCtx (sub_trans rfl hM) ?_
    | with_reducible refine on_settleRetire (sub_trans rfl hM)
    | with_reducible refine on_ite ?_ ?_
    | intro _
    | split
    | dsimp only

theorem on_refuseDesc {M : List StateField} {e index tag code : Nat} (hM : ([.regs, .units, .rings, .sp, .arrays, .engines, .ctxs, .entries, .entryNext, .lanes, .ports, .windows, .layers, .flog, .flogN, .free, .out] : List StateField) ⊆ M) :
 (refuseDesc e index tag code).only (Within M) := by
  unfold refuseDesc
  repeat' first
    | with_reducible exact on_done
    | with_reducible refine on_look fun _ => ?_
    | with_reducible exact on_nil
    | with_reducible refine on_cons ?_ ?_
    | with_reducible exact on_eff hM rfl
    | with_reducible refine on_seq ?_ ?_
    | with_reducible refine on_recordErr (sub_trans rfl hM)
    | with_reducible refine on_raiseIrq (sub_trans rfl hM)
    | with_reducible refine on_pageEvent (sub_trans rfl hM)
    | with_reducible refine on_ctxFault (sub_trans rfl hM) ?_
    | with_reducible refine on_updEng (sub_trans rfl hM)
    | with_reducible refine on_ite ?_ ?_
    | intro _
    | dsimp only

theorem on_refuseTake {M : List StateField} {e : Nat} {p : EPass} (hM : ([.regs, .units, .rings, .sp, .arrays, .engines, .ctxs, .entries, .entryNext, .lanes, .ports, .windows, .layers, .flog, .flogN, .free, .out] : List StateField) ⊆ M) :
 (refuseTake e p).only (Within M) := by
  unfold refuseTake
  repeat' first
    | with_reducible exact on_done
    | with_reducible refine on_look fun _ => ?_
    | with_reducible exact on_eff hM rfl
    | with_reducible refine on_refuseDesc (sub_trans rfl hM)
    | dsimp only

theorem on_settleTags {M : List StateField} {e : Nat} (hM : ([.regs, .shadows, .commits, .units, .rings, .lcSlots, .lcFill, .sp, .arrays, .engines, .ctxs, .entries, .entryNext, .lanes, .ports, .windows, .layers, .owed, .phase, .tripHold, .ruin, .relock, .faultsAt, .flog, .flogN, .free, .out] : List StateField) ⊆ M) :
 (settleTags e).only (Within M) := by
  unfold settleTags
  repeat' first
    | with_reducible exact on_done
    | with_reducible refine on_look fun _ => ?_
    | with_reducible exact on_nil
    | with_reducible refine on_cons ?_ ?_
    | with_reducible exact on_eff hM rfl
    | with_reducible refine on_settleEngine (sub_trans rfl hM)
    | with_reducible refine on_settleFell (sub_trans rfl hM)
    | with_reducible refine on_settleRetire (sub_trans rfl hM)
    | with_reducible refine only_whenA fun _ => ?_
    | with_reducible refine only_optA fun _ _ => ?_
    | intro _
    | dsimp only

theorem on_updPass {M : List StateField} {e index : Nat} {f : EPass → EPass} (hM : ([.engines] : List StateField) ⊆ M) :
 (updPass e index f).only (Within M) := by
  unfold updPass
  repeat' first
    | with_reducible exact on_done
    | with_reducible refine on_look fun _ => ?_
    | with_reducible exact on_eff hM rfl
    | with_reducible refine on_updEng (sub_trans rfl hM)
    | with_reducible refine on_ite ?_ ?_
    | intro _
    | dsimp only

theorem on_faultReq {M : List StateField} {e : Nat} {r : EReq} {addr code : Nat} (hM : ([.regs, .shadows, .commits, .units, .rings, .lcSlots, .lcFill, .sp, .arrays, .engines, .ctxs, .entries, .entryNext, .lanes, .ports, .windows, .layers, .owed, .phase, .tripHold, .ruin, .relock, .faultsAt, .flog, .flogN, .free, .out] : List StateField) ⊆ M) :
 (faultReq e r addr code).only (Within M) := by
  unfold faultReq
  repeat' first
    | with_reducible exact on_done
    | with_reducible refine on_look fun _ => ?_
    | with_reducible exact on_nil
    | with_reducible refine on_cons ?_ ?_
    | with_reducible exact on_eff hM rfl
    | with_reducible refine on_updEng (sub_trans rfl hM)
    | with_reducible refine on_updPass (sub_trans rfl hM)
    | with_reducible refine on_bump (sub_trans rfl hM)
    | with_reducible refine on_settleTags (sub_trans rfl hM)
    | with_reducible refine on_bufferWriteFailed (sub_trans rfl hM)
    | with_reducible refine only_whenA fun _ => ?_
    | with_reducible refine only_optA fun _ _ => ?_
    | intro _
    | dsimp only

theorem on_sendWindow {M : List StateField} {e : Nat} {r : EReq} {base offset : Nat} {data : Option (List Byte)} (hM : ([.regs, .shadows, .commits, .units, .rings, .lcSlots, .lcFill, .sp, .arrays, .engines, .ctxs, .entries, .entryNext, .lanes, .ports, .remotes, .windows, .layers, .owed, .phase, .tripHold, .ruin, .relock, .faultsAt, .flog, .flogN, .free, .out] : List StateField) ⊆ M) :
 (sendWindow e r base offset data).only (Within M) := by
  unfold sendWindow
  repeat' first
    | with_reducible exact on_done
    | with_reducible refine on_look fun _ => ?_
    | with_reducible exact on_eff hM rfl
    | with_reducible refine on_seq ?_ ?_
    | with_reducible refine on_sendRemote (sub_trans rfl hM) ?_
    | with_reducible refine on_faultReq (sub_trans rfl hM)
    | with_reducible refine on_ite ?_ ?_
    | intro _
    | dsimp only

theorem on_issueMore {M : List StateField} {e : Nat} {a0 : Nat} (hM : ([.regs, .shadows, .commits, .units, .rings, .lcSlots, .lcFill, .sp, .arrays, .engines, .ctxs, .entries, .entryNext, .lanes, .ports, .remotes, .windows, .layers, .owed, .phase, .tripHold, .ruin, .relock, .faultsAt, .flog, .flogN, .free, .out] : List StateField) ⊆ M) :
 (issueMore e a0).only (Within M) := by
  induction a0 with
  | zero =>
    unfold issueMore
    repeat' first
      | with_reducible exact on_done
      | with_reducible refine on_look fun _ => ?_
      | with_reducible exact on_eff hM rfl
      | dsimp only
  | succ _ ih =>
    unfold issueMore
    repeat' first
      | with_reducible exact on_done
      | with_reducible refine on_look fun _ => ?_
      | with_reducible exact on_nil
      | with_reducible refine on_cons ?_ ?_
      | with_reducible exact on_eff hM rfl
      | with_reducible refine on_seq ?_ ?_
      | with_reducible exact ih
      | with_reducible refine on_updPass (sub_trans rfl hM)
      | with_reducible refine on_updEng (sub_trans rfl hM)
      | with_reducible refine on_bump (sub_trans rfl hM)
      | with_reducible refine on_sendWindow (sub_trans rfl hM)
      | with_reducible refine on_spRead (sub_trans rfl hM) ?_
      | with_reducible refine on_ite ?_ ?_
      | with_reducible refine only_whenA fun _ => ?_
      | intro _
      | split
      | dsimp only

theorem on_issueAll {M : List StateField} {e : Nat} (hM : ([.regs, .shadows, .commits, .units, .rings, .lcSlots, .lcFill, .sp, .arrays, .engines, .ctxs, .entries, .entryNext, .lanes, .ports, .remotes, .windows, .layers, .owed, .phase, .tripHold, .ruin, .relock, .faultsAt, .flog, .flogN, .free, .out] : List StateField) ⊆ M) :
 (issueAll e).only (Within M) := by
  unfold issueAll
  repeat' first
    | with_reducible exact on_done
    | with_reducible refine on_look fun _ => ?_
    | with_reducible exact on_eff hM rfl
    | with_reducible refine on_issueMore (sub_trans rfl hM)
    | intro _
    | dsimp only

theorem on_rearmPass {M : List StateField} {e index : Nat} {d : BitVec 512} {ra : Rearm} (hM : ([.regs, .units, .rings, .sp, .arrays, .engines, .ctxs, .entries, .entryNext, .lanes, .ports, .windows, .layers, .flog, .flogN, .free, .out] : List StateField) ⊆ M) :
 (rearmPass e index d ra).only (Within M) := by
  unfold rearmPass
  repeat' first
    | with_reducible exact on_done
    | with_reducible refine on_look fun _ => ?_
    | with_reducible exact on_eff hM rfl
    | with_reducible refine on_seq ?_ ?_
    | with_reducible refine on_updEng (sub_trans rfl hM)
    | with_reducible refine on_refuseDesc (sub_trans rfl hM)
    | intro _
    | split
    | dsimp only

theorem on_passEnd {M : List StateField} {e : Nat} {p : EPass} (hM : ([.regs, .units, .rings, .sp, .arrays, .engines, .ctxs, .entries, .entryNext, .lanes, .ports, .windows, .layers, .flog, .flogN, .free, .out] : List StateField) ⊆ M) :
 (passEnd e p).only (Within M) := by
  unfold passEnd
  repeat' first
    | with_reducible exact on_done
    | with_reducible refine on_look fun _ => ?_
    | with_reducible exact on_nil
    | with_reducible refine on_cons ?_ ?_
    | with_reducible exact on_eff hM rfl
    | with_reducible refine on_seq ?_ ?_
    | with_reducible refine on_bump (sub_trans rfl hM)
    | with_reducible refine on_raiseIrq (sub_trans rfl hM)
    | with_reducible refine on_pageEvent (sub_trans rfl hM)
    | with_reducible refine on_rearmPass (sub_trans rfl hM)
    | with_reducible refine on_updEng (sub_trans rfl hM)
    | with_reducible refine on_recordErr (sub_trans rfl hM)
    | with_reducible refine on_ite ?_ ?_
    | with_reducible refine only_whenA fun _ => ?_
    | with_reducible refine only_optA fun _ _ => ?_
    | intro _
    | split
    | dsimp only

theorem on_settlePass {M : List StateField} {e : Nat} {a0 : Nat} (hM : ([.regs, .units, .rings, .sp, .arrays, .engines, .ctxs, .entries, .entryNext, .lanes, .ports, .windows, .layers, .flog, .flogN, .free, .out] : List StateField) ⊆ M) :
 (settlePass e a0).only (Within M) := by
  induction a0 with
  | zero =>
    unfold settlePass
    repeat' first
      | with_reducible exact on_done
      | with_reducible refine on_look fun _ => ?_
      | with_reducible exact on_eff hM rfl
      | dsimp only
  | succ _ ih =>
    unfold settlePass
    repeat' first
      | with_reducible exact on_done
      | with_reducible refine on_look fun _ => ?_
      | with_reducible exact on_nil
      | with_reducible refine on_cons ?_ ?_
      | with_reducible exact on_eff hM rfl
      | with_reducible refine on_seq ?_ ?_
      | with_reducible exact ih
      | with_reducible refine on_updPass (sub_trans rfl hM)
      | with_reducible refine on_semAdd (sub_trans rfl hM)
      | with_reducible refine on_passEnd (sub_trans rfl hM)
      | with_reducible refine on_ite ?_ ?_
      | with_reducible refine only_whenA fun _ => ?_
      | intro _
      | split
      | dsimp only

theorem on_settleAfter {M : List StateField} {e : Nat} (hM : ([.regs, .shadows, .commits, .units, .rings, .lcSlots, .lcFill, .sp, .arrays, .engines, .ctxs, .entries, .entryNext, .lanes, .ports, .remotes, .windows, .layers, .owed, .phase, .tripHold, .ruin, .relock, .faultsAt, .flog, .flogN, .free, .out] : List StateField) ⊆ M) :
 (settleAfter e).only (Within M) := by
  unfold settleAfter
  repeat' first
    | with_reducible exact on_done
    | with_reducible refine on_look fun _ => ?_
    | with_reducible exact on_nil
    | with_reducible refine on_cons ?_ ?_
    | with_reducible exact on_eff hM rfl
    | with_reducible refine on_settlePass (sub_trans rfl hM)
    | with_reducible refine on_issueAll (sub_trans rfl hM)
    | with_reducible refine on_settleTags (sub_trans rfl hM)
    | intro _
    | dsimp only

theorem on_finishReq {M : List StateField} {e : Nat} {r : EReq} (hM : ([.regs, .shadows, .commits, .units, .rings, .lcSlots, .lcFill, .sp, .arrays, .engines, .ctxs, .entries, .entryNext, .lanes, .ports, .remotes, .windows, .layers, .owed, .phase, .tripHold, .ruin, .relock, .faultsAt, .flog, .flogN, .free, .out] : List StateField) ⊆ M) :
 (finishReq e r).only (Within M) := by
  unfold finishReq
  repeat' first
    | with_reducible exact on_done
    | with_reducible refine on_look fun _ => ?_
    | with_reducible exact on_nil
    | with_reducible refine on_cons ?_ ?_
    | with_reducible exact on_eff hM rfl
    | with_reducible refine on_updEng (sub_trans rfl hM)
    | with_reducible refine on_updPass (sub_trans rfl hM)
    | with_reducible refine on_bump (sub_trans rfl hM)
    | with_reducible refine on_settleAfter (sub_trans rfl hM)
    | with_reducible refine on_ite ?_ ?_
    | with_reducible refine only_whenA fun _ => ?_
    | intro _
    | split
    | dsimp only

theorem on_keepData {M : List StateField} {e tag : Nat} {bs : List Byte} (hM : ([.engines] : List StateField) ⊆ M) :
 (keepData e tag bs).only (Within M) := by
  unfold keepData
  repeat' first
    | with_reducible exact on_done
    | with_reducible refine on_look fun _ => ?_
    | with_reducible exact on_eff hM rfl
    | with_reducible refine on_updEng (sub_trans rfl hM)
    | with_reducible refine on_ite ?_ ?_
    | intro _
    | dsimp only

theorem on_busyHere {M : List StateField} {e : Nat} {r : EReq} {bs : List Byte} (hM : ([.engines, .remotes] : List StateField) ⊆ M) :
 (busyHere e r bs).only (Within M) := by
  unfold busyHere
  repeat' first
    | with_reducible exact on_done
    | with_reducible refine on_look fun _ => ?_
    | with_reducible exact on_eff hM rfl
    | with_reducible refine on_seq ?_ ?_
    | with_reducible refine on_keepData (sub_trans rfl hM)
    | intro _
    | dsimp only

theorem on_deliverReq {M : List StateField} {e : Nat} {r : EReq} {d : BitVec 512} {bs : List Byte} (hM : ([.regs, .shadows, .commits, .units, .rings, .mem, .codingMap, .crcDiff, .held, .heldNext, .buffered, .tlb, .lcSlots, .lcWait, .lcFill, .sp, .arrays, .engines, .ctxs, .entries, .entryNext, .lanes, .ports, .remotes, .windows, .layers, .trust, .owed, .phase, .tripHold, .ruin, .relock, .faultsAt, .flog, .flogN, .free, .out] : List StateField) ⊆ M) :
 (deliverReq e r d bs).only (Within M) := by
  unfold deliverReq
  repeat' first
    | with_reducible exact on_done
    | with_reducible refine on_look fun _ => ?_
    | with_reducible exact on_nil
    | with_reducible refine on_cons ?_ ?_
    | with_reducible exact on_eff hM rfl
    | with_reducible refine on_seq ?_ ?_
    | with_reducible refine on_finishReq (sub_trans rfl hM)
    | with_reducible refine on_virtWrite (sub_trans rfl hM) ?_
    | with_reducible refine on_faultReq (sub_trans rfl hM)
    | with_reducible refine on_putSpList (sub_trans rfl hM)
    | with_reducible refine on_dropGather (sub_trans rfl hM)
    | with_reducible refine on_bump (sub_trans rfl hM)
    | with_reducible refine on_virtRead (sub_trans rfl hM) ?_
    | with_reducible refine on_windowWrite (sub_trans rfl hM) ?_
    | with_reducible refine on_busyHere (sub_trans rfl hM)
    | with_reducible refine on_keepData (sub_trans rfl hM)
    | with_reducible refine on_ite ?_ ?_
    | with_reducible refine only_whenA fun _ => ?_
    | intro _
    | split
    | dsimp only

theorem on_sourceReq {M : List StateField} {e : Nat} {r : EReq} {d : BitVec 512} {host : List Byte} {k : List Byte → Act} (hM : ([.regs, .shadows, .commits, .units, .rings, .mem, .codingMap, .crcDiff, .buffered, .tlb, .lcSlots, .lcFill, .sp, .arrays, .engines, .ctxs, .entries, .entryNext, .lanes, .ports, .windows, .layers, .owed, .phase, .tripHold, .ruin, .relock, .faultsAt, .flog, .flogN, .free, .out] : List StateField) ⊆ M) (h0 : ∀ x0, (k x0).only (Within M)) :
 (sourceReq e r d host k).only (Within M) := by
  unfold sourceReq
  repeat' first
    | with_reducible exact on_done
    | with_reducible refine on_look fun _ => ?_
    | with_reducible exact on_eff hM rfl
    | with_reducible exact h0 _
    | with_reducible refine on_virtRead (sub_trans rfl hM) ?_
    | with_reducible refine on_faultReq (sub_trans rfl hM)
    | with_reducible refine on_windowRead (sub_trans rfl hM) ?_
    | with_reducible refine on_spRead (sub_trans rfl hM) ?_
    | with_reducible refine on_ite ?_ ?_
    | with_reducible refine only_whenA fun _ => ?_
    | intro _
    | split
    | dsimp only

theorem on_actRequestRetire {M : List StateField} {e : Fin 80} {tag : Nat} {result : RequestResult} (hM : ([.regs, .shadows, .commits, .units, .rings, .mem, .codingMap, .crcDiff, .held, .heldNext, .buffered, .tlb, .lcSlots, .lcWait, .lcFill, .sp, .arrays, .engines, .ctxs, .entries, .entryNext, .lanes, .ports, .remotes, .windows, .layers, .trust, .owed, .phase, .tripHold, .ruin, .relock, .faultsAt, .flog, .flogN, .free, .out] : List StateField) ⊆ M) :
 (actRequestRetire e tag result).only (Within M) := by
  unfold actRequestRetire
  repeat' first
    | with_reducible exact on_done
    | with_reducible refine on_look fun _ => ?_
    | with_reducible exact on_eff hM rfl
    | with_reducible refine on_seq ?_ ?_
    | with_reducible refine on_faultReq (sub_trans rfl hM)
    | with_reducible refine on_updEng (sub_trans rfl hM)
    | with_reducible refine on_parityFault (sub_trans rfl hM)
    | with_reducible refine on_settleTags (sub_trans rfl hM)
    | with_reducible refine on_sourceReq (sub_trans rfl hM) ?_
    | with_reducible refine on_keepData (sub_trans rfl hM)
    | with_reducible refine on_sendWindow (sub_trans rfl hM)
    | with_reducible refine on_deliverReq (sub_trans rfl hM)
    | with_reducible refine on_ite ?_ ?_
    | with_reducible refine only_whenA fun _ => ?_
    | with_reducible refine only_optA fun _ _ => ?_
    | intro _
    | split
    | dsimp only

theorem on_dropOrphan {M : List StateField} {e tag : Nat} (hM : ([.regs, .shadows, .commits, .units, .rings, .lcSlots, .lcFill, .sp, .arrays, .engines, .ctxs, .entries, .entryNext, .lanes, .ports, .remotes, .windows, .layers, .owed, .phase, .tripHold, .ruin, .relock, .faultsAt, .flog, .flogN, .free, .out] : List StateField) ⊆ M) :
 (dropOrphan e tag).only (Within M) := by
  unfold dropOrphan
  repeat' first
    | with_reducible exact on_done
    | with_reducible refine on_look fun _ => ?_
    | with_reducible exact on_eff hM rfl
    | with_reducible refine on_seq ?_ ?_
    | with_reducible refine on_updEng (sub_trans rfl hM)
    | with_reducible refine on_issueAll (sub_trans rfl hM)
    | with_reducible refine only_whenA fun _ => ?_
    | intro _
    | dsimp only

theorem on_endRemote {M : List StateField} {e tag status : Nat} {payload : List Byte} (hM : ([.regs, .shadows, .commits, .units, .rings, .mem, .codingMap, .crcDiff, .held, .heldNext, .buffered, .tlb, .lcSlots, .lcWait, .lcFill, .sp, .arrays, .engines, .ctxs, .entries, .entryNext, .lanes, .ports, .remotes, .windows, .layers, .trust, .owed, .phase, .tripHold, .ruin, .relock, .faultsAt, .flog, .flogN, .free, .out] : List StateField) ⊆ M) :
 (endRemote e tag status payload).only (Within M) := by
  unfold endRemote
  repeat' first
    | with_reducible exact on_done
    | with_reducible refine on_look fun _ => ?_
    | with_reducible exact on_eff hM rfl
    | with_reducible refine on_dropOrphan (sub_trans rfl hM)
    | with_reducible refine on_finishReq (sub_trans rfl hM)
    | with_reducible refine on_deliverReq (sub_trans rfl hM)
    | with_reducible refine on_keepData (sub_trans rfl hM)
    | with_reducible refine on_faultReq (sub_trans rfl hM)
    | with_reducible refine on_ite ?_ ?_
    | with_reducible refine only_optA fun _ _ => ?_
    | intro _
    | dsimp only

theorem on_actStreamListFetch {M : List StateField} {e : Fin 80} (hM : ([.regs, .rings, .mem, .codingMap, .crcDiff, .buffered, .tlb, .lcSlots, .engines, .free, .out] : List StateField) ⊆ M) :
 (actStreamListFetch e).only (Within M) := by
  unfold actStreamListFetch
  repeat' first
    | with_reducible exact on_done
    | with_reducible refine on_look fun _ => ?_
    | with_reducible exact on_eff hM rfl
    | with_reducible refine on_updEng (sub_trans rfl hM)
    | with_reducible refine on_virtRead (sub_trans rfl hM) ?_
    | with_reducible refine on_ite ?_ ?_
    | intro _
    | split
    | dsimp only

theorem on_makeCurrent {M : List StateField} {e index : Nat} {d : BitVec 512} {rest : List (Option (BitVec 512))} (hM : ([.regs, .units, .rings, .sp, .arrays, .engines, .ctxs, .entries, .entryNext, .lanes, .ports, .windows, .layers, .flog, .flogN, .free, .out] : List StateField) ⊆ M) :
 (makeCurrent e index d rest).only (Within M) := by
  unfold makeCurrent
  repeat' first
    | with_reducible exact on_done
    | with_reducible refine on_look fun _ => ?_
    | with_reducible exact on_eff hM rfl
    | with_reducible refine on_seq ?_ ?_
    | with_reducible refine on_refuseDesc (sub_trans rfl hM)
    | with_reducible refine on_updEng (sub_trans rfl hM)
    | with_reducible refine on_recordErr (sub_trans rfl hM)
    | with_reducible refine on_ite ?_ ?_
    | intro _
    | split
    | dsimp only

theorem on_actDescriptorCurrent {M : List StateField} {e : Fin 80} (hM : ([.regs, .units, .rings, .sp, .arrays, .engines, .ctxs, .entries, .entryNext, .lanes, .ports, .windows, .layers, .flog, .flogN, .free, .out] : List StateField) ⊆ M) :
 (actDescriptorCurrent e).only (Within M) := by
  unfold actDescriptorCurrent
  repeat' first
    | with_reducible exact on_done
    | with_reducible refine on_look fun _ => ?_
    | with_reducible exact on_eff hM rfl
    | with_reducible refine on_refuseDesc (sub_trans rfl hM)
    | with_reducible refine on_makeCurrent (sub_trans rfl hM)
    | with_reducible refine on_updEng (sub_trans rfl hM)
    | with_reducible refine on_ite ?_ ?_
    | with_reducible refine only_whenA fun _ => ?_
    | intro _
    | split
    | dsimp only

theorem on_startUnit {M : List StateField} {e : Nat} {p : EPass} (hM : ([.regs, .shadows, .commits, .units, .rings, .lcSlots, .lcFill, .sp, .arrays, .engines, .ctxs, .entries, .entryNext, .lanes, .ports, .remotes, .windows, .layers, .owed, .phase, .tripHold, .ruin, .relock, .faultsAt, .flog, .flogN, .free, .out] : List StateField) ⊆ M) :
 (startUnit e p).only (Within M) := by
  unfold startUnit
  repeat' first
    | with_reducible exact on_done
    | with_reducible refine on_look fun _ => ?_
    | with_reducible exact on_nil
    | with_reducible refine on_cons ?_ ?_
    | with_reducible exact on_eff hM rfl
    | with_reducible refine on_updPass (sub_trans rfl hM)
    | with_reducible refine on_bump (sub_trans rfl hM)
    | with_reducible refine on_issueAll (sub_trans rfl hM)
    | intro _
    | dsimp only

theorem on_actUnitTake {M : List StateField} {e : Fin 80} (hM : ([.regs, .shadows, .commits, .units, .rings, .lcSlots, .lcFill, .sp, .arrays, .engines, .ctxs, .entries, .entryNext, .lanes, .ports, .remotes, .windows, .layers, .owed, .phase, .tripHold, .ruin, .relock, .faultsAt, .flog, .flogN, .free, .out] : List StateField) ⊆ M) :
 (actUnitTake e).only (Within M) := by
  unfold actUnitTake
  repeat' first
    | with_reducible exact on_done
    | with_reducible refine on_look fun _ => ?_
    | with_reducible exact on_eff hM rfl
    | with_reducible refine on_seq ?_ ?_
    | with_reducible refine on_issueAll (sub_trans rfl hM)
    | with_reducible refine on_startUnit (sub_trans rfl hM)
    | with_reducible refine on_refuseTake (sub_trans rfl hM)
    | with_reducible refine on_semTake (sub_trans rfl hM)
    | with_reducible refine on_ite ?_ ?_
    | with_reducible refine only_whenA fun _ => ?_
    | intro _
    | split
    | dsimp only

theorem on_rearm {M : List StateField} {e index : Nat} {ra : Rearm} (hM : ([.regs, .units, .rings, .sp, .arrays, .engines, .ctxs, .entries, .entryNext, .lanes, .ports, .windows, .layers, .flog, .flogN, .free, .out] : List StateField) ⊆ M) :
 (rearm e index ra).only (Within M) := by
  unfold rearm
  repeat' first
    | with_reducible exact on_done
    | with_reducible refine on_look fun _ => ?_
    | with_reducible exact on_eff hM rfl
    | with_reducible refine on_seq ?_ ?_
    | with_reducible refine on_recordErr (sub_trans rfl hM)
    | with_reducible refine on_bump (sub_trans rfl hM)
    | with_reducible refine on_updEng (sub_trans rfl hM)
    | with_reducible refine on_rearmPass (sub_trans rfl hM)
    | with_reducible refine on_ite ?_ ?_
    | with_reducible refine only_whenA fun _ => ?_
    | intro _
    | split
    | dsimp only

theorem on_actRearm {M : List StateField} {f : Func} {e : Fin 80} {ctl : Word} (hM : ([.regs, .units, .rings, .sp, .arrays, .engines, .ctxs, .entries, .entryNext, .lanes, .ports, .windows, .layers, .flog, .flogN, .free, .out] : List StateField) ⊆ M) :
 (actRearm f e ctl).only (Within M) := by
  unfold actRearm
  repeat' first
    | with_reducible exact on_done
    | with_reducible refine on_look fun _ => ?_
    | with_reducible exact on_eff hM rfl
    | with_reducible refine on_seq ?_ ?_
    | with_reducible refine on_withWrite (sub_trans rfl hM) ?_
    | with_reducible refine on_setReg (sub_trans rfl hM)
    | with_reducible refine on_rearm (sub_trans rfl hM)
    | intro _
    | dsimp only

theorem on_startList {M : List StateField} {e asid : Nat} {ctx : Option Nat} (hM : ([.engines] : List StateField) ⊆ M) :
 (startList e asid ctx).only (Within M) := by
  unfold startList
  repeat' first
    | with_reducible exact on_done
    | with_reducible refine on_look fun _ => ?_
    | with_reducible exact on_eff hM rfl
    | with_reducible refine on_updEng (sub_trans rfl hM)
    | intro _
    | dsimp only

theorem on_actEngineStart {M : List StateField} {f : Func} {q : Fin 16} (hM : ([.regs, .rings, .engines, .free, .out] : List StateField) ⊆ M) :
 (actEngineStart f q).only (Within M) := by
  unfold actEngineStart
  repeat' first
    | with_reducible exact on_done
    | with_reducible refine on_look fun _ => ?_
    | with_reducible exact on_eff hM rfl
    | with_reducible refine on_withWrite (sub_trans rfl hM) ?_
    | with_reducible refine on_startList (sub_trans rfl hM)
    | with_reducible refine on_recordErr (sub_trans rfl hM)
    | with_reducible refine on_ite ?_ ?_
    | with_reducible refine only_whenA fun _ => ?_
    | intro _
    | dsimp only

theorem on_resumeEngine {M : List StateField} {e : Nat} (hM : ([.regs, .shadows, .commits, .units, .rings, .lcSlots, .lcFill, .sp, .arrays, .engines, .ctxs, .entries, .entryNext, .lanes, .ports, .remotes, .windows, .layers, .owed, .phase, .tripHold, .ruin, .relock, .faultsAt, .flog, .flogN, .free, .out] : List StateField) ⊆ M) :
 (resumeEngine e).only (Within M) := by
  unfold resumeEngine
  repeat' first
    | with_reducible exact on_done
    | with_reducible refine on_look fun _ => ?_
    | with_reducible exact on_nil
    | with_reducible refine on_cons ?_ ?_
    | with_reducible exact on_eff hM rfl
    | with_reducible refine on_bump (sub_trans rfl hM)
    | with_reducible refine on_updEng (sub_trans rfl hM)
    | with_reducible refine on_issueAll (sub_trans rfl hM)
    | intro _
    | dsimp only

theorem on_actEngineResume {M : List StateField} {f : Func} {e : Fin 80} (hM : ([.regs, .shadows, .commits, .units, .rings, .lcSlots, .lcFill, .sp, .arrays, .engines, .ctxs, .entries, .entryNext, .lanes, .ports, .remotes, .windows, .layers, .owed, .phase, .tripHold, .ruin, .relock, .faultsAt, .flog, .flogN, .free, .out] : List StateField) ⊆ M) :
 (actEngineResume f e).only (Within M) := by
  unfold actEngineResume
  repeat' first
    | with_reducible exact on_done
    | with_reducible refine on_look fun _ => ?_
    | with_reducible exact on_eff hM rfl
    | with_reducible refine on_withWrite (sub_trans rfl hM) ?_
    | with_reducible refine on_resumeEngine (sub_trans rfl hM)
    | with_reducible refine on_recordErr (sub_trans rfl hM)
    | with_reducible refine on_ite ?_ ?_
    | intro _
    | dsimp only

theorem on_actEngineReset {M : List StateField} {f : Func} {q : Fin 16} (hM : ([.regs, .rings, .engines, .free, .out] : List StateField) ⊆ M) :
 (actEngineReset f q).only (Within M) := by
  unfold actEngineReset
  repeat' first
    | with_reducible exact on_done
    | with_reducible refine on_look fun _ => ?_
    | with_reducible exact on_eff hM rfl
    | with_reducible refine on_seq ?_ ?_
    | with_reducible refine on_withWrite (sub_trans rfl hM) ?_
    | with_reducible refine on_updEng (sub_trans rfl hM)
    | with_reducible refine on_settleEngine (sub_trans rfl hM)
    | intro _
    | dsimp only

theorem on_actOrphanedTagReturn {M : List StateField} {e : Fin 80} {tag : Nat} (hM : ([.regs, .shadows, .commits, .units, .rings, .lcSlots, .lcFill, .sp, .arrays, .engines, .ctxs, .entries, .entryNext, .lanes, .ports, .remotes, .windows, .layers, .owed, .phase, .tripHold, .ruin, .relock, .faultsAt, .flog, .flogN, .free, .out] : List StateField) ⊆ M) :
 (actOrphanedTagReturn e tag).only (Within M) := by
  unfold actOrphanedTagReturn
  repeat' first
    | with_reducible exact on_done
    | with_reducible refine on_look fun _ => ?_
    | with_reducible exact on_eff hM rfl
    | with_reducible refine on_dropOrphan (sub_trans rfl hM)
    | with_reducible refine only_whenA fun _ => ?_
    | intro _
    | dsimp only

theorem on_actSemaphoreSet {M : List StateField} {f : Func} {n : Fin 4096} {v : Word} (hM : ([.regs, .rings, .free, .out] : List StateField) ⊆ M) :
 (actSemaphoreSet f n v).only (Within M) := by
  unfold actSemaphoreSet
  repeat' first
    | with_reducible exact on_done
    | with_reducible refine on_look fun _ => ?_
    | with_reducible exact on_eff hM rfl
    | with_reducible refine on_seq ?_ ?_
    | with_reducible refine on_withWrite (sub_trans rfl hM) ?_
    | with_reducible refine on_putSem (sub_trans rfl hM)
    | with_reducible refine on_bump (sub_trans rfl hM)
    | intro _
    | dsimp only

theorem on_actSemaphoreAdd {M : List StateField} {f : Func} {n : Fin 4096} {v : Word} (hM : ([.regs, .rings, .free, .out] : List StateField) ⊆ M) :
 (actSemaphoreAdd f n v).only (Within M) := by
  unfold actSemaphoreAdd
  repeat' first
    | with_reducible exact on_done
    | with_reducible refine on_look fun _ => ?_
    | with_reducible exact on_eff hM rfl
    | with_reducible refine on_withWrite (sub_trans rfl hM) ?_
    | with_reducible refine on_semAdd (sub_trans rfl hM)
    | intro _
    | dsimp only

end Sys2Proof.Machine
end

