-- ==== Sys2Proof/Laws/FieldsArrays.lean ====
section
/-! SUPPORT. The fields that the acts of Machine/Arrays.lean may change. -/

namespace Sys2Proof.Machine

theorem on_readClear {M : List StateField} {f : Func} {p off : Nat} (hM : ([.regs, .rings, .free, .out] : List StateField) ⊆ M) :
 (readClear f p off).only (Within M) := by
  unfold readClear
  repeat' first
    | with_reducible exact on_done
    | with_reducible refine on_look fun _ => ?_
    | with_reducible exact on_eff hM rfl
    | with_reducible refine on_seq ?_ ?_
    | with_reducible refine on_withRead (sub_trans rfl hM) ?_
    | with_reducible refine on_readWord (sub_trans rfl hM)
    | with_reducible refine on_setReg (sub_trans rfl hM)
    | intro _
    | dsimp only

theorem on_actQpMaxabsRead {M : List StateField} {f : Func} {a : Fin 32} {q : Fin 8} (hM : ([.regs, .rings, .free, .out] : List StateField) ⊆ M) :
 (actQpMaxabsRead f a q).only (Within M) := by
  unfold actQpMaxabsRead
  repeat' first
    | with_reducible exact on_done
    | with_reducible refine on_look fun _ => ?_
    | with_reducible exact on_eff hM rfl
    | with_reducible refine on_readClear (sub_trans rfl hM)
    | dsimp only

theorem on_actQpHwMaxabsRead {M : List StateField} {f : Func} {a : Fin 32} {q : Fin 8} (hM : ([.regs, .rings, .free, .out] : List StateField) ⊆ M) :
 (actQpHwMaxabsRead f a q).only (Within M) := by
  unfold actQpHwMaxabsRead
  repeat' first
    | with_reducible exact on_done
    | with_reducible refine on_look fun _ => ?_
    | with_reducible exact on_eff hM rfl
    | with_reducible refine on_readClear (sub_trans rfl hM)
    | dsimp only

theorem on_actTileStepFetch {M : List StateField} {a : Fin 32} (hM : ([.regs, .rings, .mem, .codingMap, .crcDiff, .buffered, .tlb, .lcSlots, .arrays, .free, .out] : List StateField) ⊆ M) :
 (actTileStepFetch a).only (Within M) := by
  unfold actTileStepFetch
  repeat' first
    | with_reducible exact on_done
    | with_reducible refine on_look fun _ => ?_
    | with_reducible exact on_eff hM rfl
    | with_reducible refine on_updArr (sub_trans rfl hM)
    | with_reducible refine on_virtRead (sub_trans rfl hM) ?_
    | with_reducible refine on_ite ?_ ?_
    | intro _
    | split
    | dsimp only

theorem on_stepRecord {M : List StateField} {a step tag status flags cycles code : Nat} {k : Bool → Act} (hM : ([.regs, .rings, .mem, .codingMap, .crcDiff, .held, .heldNext, .buffered, .tlb, .lcSlots, .lcWait, .lcFill, .arrays, .trust, .free, .out] : List StateField) ⊆ M) (h0 : ∀ x0, (k x0).only (Within M)) :
 (stepRecord a step tag status flags cycles code k).only (Within M) := by
  unfold stepRecord
  repeat' first
    | with_reducible exact on_done
    | with_reducible refine on_look fun _ => ?_
    | with_reducible exact on_nil
    | with_reducible refine on_cons ?_ ?_
    | with_reducible exact on_eff hM rfl
    | with_reducible refine on_seq ?_ ?_
    | with_reducible exact h0 _
    | with_reducible refine on_setRegN (sub_trans rfl hM)
    | with_reducible refine on_virtWrite (sub_trans rfl hM) ?_
    | with_reducible refine on_updArr (sub_trans rfl hM)
    | with_reducible refine on_bump (sub_trans rfl hM)
    | with_reducible refine only_forA fun _ _ => ?_
    | intro _
    | split
    | dsimp only

theorem on_recordFault {M : List StateField} {a step tag : Nat} (hM : ([.regs, .units, .rings, .sp, .arrays, .engines, .ctxs, .entries, .entryNext, .lanes, .ports, .windows, .layers, .flog, .flogN, .free, .out] : List StateField) ⊆ M) :
 (recordFault a step tag).only (Within M) := by
  unfold recordFault
  repeat' first
    | with_reducible exact on_done
    | with_reducible refine on_look fun _ => ?_
    | with_reducible exact on_eff hM rfl
    | with_reducible refine on_ctxFault (sub_trans rfl hM) ?_
    | with_reducible refine on_arrayError (sub_trans rfl hM)
    | intro _
    | dsimp only

theorem on_refuseStep {M : List StateField} {a step tag code : Nat} {cmpl : Bool} {info1 : Nat} (hM : ([.regs, .units, .rings, .mem, .codingMap, .crcDiff, .held, .heldNext, .buffered, .tlb, .lcSlots, .lcWait, .lcFill, .sp, .arrays, .engines, .ctxs, .entries, .entryNext, .lanes, .ports, .windows, .layers, .trust, .flog, .flogN, .free, .out] : List StateField) ⊆ M) :
 (refuseStep a step tag code cmpl info1).only (Within M) := by
  unfold refuseStep
  repeat' first
    | with_reducible exact on_done
    | with_reducible refine on_look fun _ => ?_
    | with_reducible exact on_nil
    | with_reducible refine on_cons ?_ ?_
    | with_reducible exact on_eff hM rfl
    | with_reducible refine on_recordErr (sub_trans rfl hM)
    | with_reducible refine on_arrayError (sub_trans rfl hM)
    | with_reducible refine on_bump (sub_trans rfl hM)
    | with_reducible refine on_raiseIrq (sub_trans rfl hM)
    | with_reducible refine on_stepRecord (sub_trans rfl hM) ?_
    | with_reducible refine on_pageEvent (sub_trans rfl hM)
    | with_reducible refine on_endBatchStep (sub_trans rfl hM)
    | with_reducible refine on_recordFault (sub_trans rfl hM)
    | with_reducible refine on_ite ?_ ?_
    | with_reducible refine only_whenA fun _ => ?_
    | intro _
    | dsimp only

theorem on_stepFault {M : List StateField} {a step tag : Nat} {e : StepFault} (hM : ([.regs, .units, .rings, .sp, .arrays, .engines, .ctxs, .entries, .entryNext, .lanes, .ports, .windows, .layers, .flog, .flogN, .free, .out] : List StateField) ⊆ M) :
 (stepFault a step tag e).only (Within M) := by
  unfold stepFault
  repeat' first
    | with_reducible exact on_done
    | with_reducible refine on_look fun _ => ?_
    | with_reducible exact on_nil
    | with_reducible refine on_cons ?_ ?_
    | with_reducible exact on_eff hM rfl
    | with_reducible refine on_ctxFault (sub_trans rfl hM) ?_
    | with_reducible refine on_withFree (sub_trans rfl hM) ?_
    | with_reducible refine on_recordErrI (sub_trans rfl hM)
    | with_reducible refine on_recordErr (sub_trans rfl hM)
    | with_reducible refine on_raiseIrq (sub_trans rfl hM)
    | with_reducible refine on_bump (sub_trans rfl hM)
    | with_reducible refine on_arrayError (sub_trans rfl hM)
    | with_reducible refine on_ite ?_ ?_
    | with_reducible refine only_whenA fun _ => ?_
    | intro _
    | split
    | dsimp only

theorem on_countStep {M : List StateField} {a : Nat} {d : BitVec 512} {gather : List Nat} (hM : ([.regs, .free] : List StateField) ⊆ M) :
 (countStep a d gather).only (Within M) := by
  unfold countStep
  repeat' first
    | with_reducible exact on_done
    | with_reducible refine on_look fun _ => ?_
    | with_reducible exact on_nil
    | with_reducible refine on_cons ?_ ?_
    | with_reducible exact on_eff hM rfl
    | with_reducible refine on_seq ?_ ?_
    | with_reducible refine on_withFree (sub_trans rfl hM) ?_
    | with_reducible refine on_countRead (sub_trans rfl hM)
    | with_reducible refine on_bump (sub_trans rfl hM)
    | with_reducible refine only_whenA fun _ => ?_
    | with_reducible refine only_forA fun _ _ => ?_
    | intro _
    | dsimp only

theorem on_enterStep {M : List StateField} {a c : Nat} {q : QStep} (hM : ([.regs, .shadows, .commits, .units, .rings, .lcSlots, .lcFill, .sp, .arrays, .engines, .ctxs, .entries, .entryNext, .lanes, .ports, .remotes, .windows, .layers, .owed, .phase, .tripHold, .ruin, .relock, .faultsAt, .flog, .flogN, .free, .out] : List StateField) ⊆ M) :
 (enterStep a c q).only (Within M) := by
  unfold enterStep
  repeat' first
    | with_reducible exact on_done
    | with_reducible refine on_look fun _ => ?_
    | with_reducible exact on_nil
    | with_reducible refine on_cons ?_ ?_
    | with_reducible exact on_eff hM rfl
    | with_reducible refine on_seq ?_ ?_
    | with_reducible refine on_updArr (sub_trans rfl hM)
    | with_reducible refine on_setFld (sub_trans rfl hM)
    | with_reducible refine on_semAdd (sub_trans rfl hM)
    | with_reducible refine on_bump (sub_trans rfl hM)
    | with_reducible refine on_countStep (sub_trans rfl hM)
    | with_reducible refine on_issueAll (sub_trans rfl hM)
    | with_reducible refine on_stepFault (sub_trans rfl hM)
    | with_reducible refine on_withFree (sub_trans rfl hM) ?_
    | with_reducible refine on_ite ?_ ?_
    | with_reducible refine only_whenA fun _ => ?_
    | intro _
    | split
    | dsimp only

theorem on_issueHead {M : List StateField} {a c : Nat} {q : QStep} {parity : Option (SpMem × Nat)} (hM : ([.regs, .shadows, .commits, .units, .rings, .mem, .codingMap, .crcDiff, .held, .heldNext, .buffered, .tlb, .lcSlots, .lcWait, .lcFill, .sp, .arrays, .engines, .ctxs, .entries, .entryNext, .lanes, .ports, .remotes, .windows, .layers, .trust, .owed, .phase, .tripHold, .ruin, .relock, .faultsAt, .flog, .flogN, .free, .out] : List StateField) ⊆ M) :
 (issueHead a c q parity).only (Within M) := by
  unfold issueHead
  repeat' first
    | with_reducible exact on_done
    | with_reducible refine on_look fun _ => ?_
    | with_reducible exact on_eff hM rfl
    | with_reducible refine on_seq ?_ ?_
    | with_reducible refine on_countRead (sub_trans rfl hM)
    | with_reducible refine on_refuseStep (sub_trans rfl hM)
    | with_reducible refine on_countStep (sub_trans rfl hM)
    | with_reducible refine on_parityFault (sub_trans rfl hM)
    | with_reducible refine on_enterStep (sub_trans rfl hM)
    | with_reducible refine on_ite ?_ ?_
    | with_reducible refine only_whenA fun _ => ?_
    | intro _
    | split
    | dsimp only

theorem on_actStepIssue {M : List StateField} {a : Fin 32} {parity : Option (SpMem × Nat)} (hM : ([.regs, .shadows, .commits, .units, .rings, .mem, .codingMap, .crcDiff, .held, .heldNext, .buffered, .tlb, .lcSlots, .lcWait, .lcFill, .sp, .arrays, .engines, .ctxs, .entries, .entryNext, .lanes, .ports, .remotes, .windows, .layers, .trust, .owed, .phase, .tripHold, .ruin, .relock, .faultsAt, .flog, .flogN, .free, .out] : List StateField) ⊆ M) :
 (actStepIssue a parity).only (Within M) := by
  unfold actStepIssue
  repeat' first
    | with_reducible exact on_done
    | with_reducible refine on_look fun _ => ?_
    | with_reducible exact on_eff hM rfl
    | with_reducible refine on_seq ?_ ?_
    | with_reducible refine on_ctxFault (sub_trans rfl hM) ?_
    | with_reducible refine on_arrayError (sub_trans rfl hM)
    | with_reducible refine on_refuseStep (sub_trans rfl hM)
    | with_reducible refine on_landPieces (sub_trans rfl hM)
    | with_reducible refine on_issueHead (sub_trans rfl hM)
    | with_reducible refine on_ite ?_ ?_
    | intro _
    | split
    | dsimp only

theorem on_countFlags {M : List StateField} {a flags : Nat} (hM : ([.regs] : List StateField) ⊆ M) :
 (countFlags a flags).only (Within M) := by
  unfold countFlags
  repeat' first
    | with_reducible exact on_done
    | with_reducible refine on_look fun _ => ?_
    | with_reducible exact on_eff hM rfl
    | with_reducible refine on_bump (sub_trans rfl hM)
    | with_reducible refine only_whenA fun _ => ?_
    | with_reducible refine only_forA fun _ _ => ?_
    | intro _
    | dsimp only

theorem on_raiseMaxAbs {M : List StateField} {a : Nat} {e : Nat × Bool × Word} (hM : ([.regs] : List StateField) ⊆ M) :
 (raiseMaxAbs a e).only (Within M) := by
  unfold raiseMaxAbs
  repeat' first
    | with_reducible exact on_done
    | with_reducible refine on_look fun _ => ?_
    | with_reducible exact on_eff hM rfl
    | with_reducible refine on_setReg (sub_trans rfl hM)
    | with_reducible refine on_ite ?_ ?_
    | with_reducible refine only_whenA fun _ => ?_
    | intro _
    | dsimp only

theorem on_quantDone {M : List StateField} {a : Nat} {x : InFlight} (hM : ([.regs, .rings, .free, .out] : List StateField) ⊆ M) :
 (quantDone a x).only (Within M) := by
  unfold quantDone
  repeat' first
    | with_reducible exact on_done
    | with_reducible refine on_look fun _ => ?_
    | with_reducible exact on_nil
    | with_reducible refine on_cons ?_ ?_
    | with_reducible exact on_eff hM rfl
    | with_reducible refine on_seq ?_ ?_
    | with_reducible refine on_bump (sub_trans rfl hM)
    | with_reducible refine on_raiseMaxAbs (sub_trans rfl hM)
    | with_reducible refine on_raiseIrq (sub_trans rfl hM)
    | with_reducible refine on_pageEvent (sub_trans rfl hM)
    | with_reducible refine only_whenA fun _ => ?_
    | with_reducible refine only_forA fun _ _ => ?_
    | intro _
    | dsimp only

theorem on_leaveStep {M : List StateField} {a c : Nat} {x : InFlight} {cycles : Nat} (hM : ([.regs, .units, .rings, .mem, .codingMap, .crcDiff, .held, .heldNext, .buffered, .tlb, .lcSlots, .lcWait, .lcFill, .sp, .arrays, .engines, .ctxs, .entries, .entryNext, .lanes, .ports, .windows, .layers, .trust, .flog, .flogN, .free, .out] : List StateField) ⊆ M) :
 (leaveStep a c x cycles).only (Within M) := by
  unfold leaveStep
  repeat' first
    | with_reducible exact on_done
    | with_reducible refine on_look fun _ => ?_
    | with_reducible exact on_nil
    | with_reducible refine on_cons ?_ ?_
    | with_reducible exact on_eff hM rfl
    | with_reducible refine on_seq ?_ ?_
    | with_reducible refine on_semAdd (sub_trans rfl hM)
    | with_reducible refine on_endBatchStep (sub_trans rfl hM)
    | with_reducible refine on_updArr (sub_trans rfl hM)
    | with_reducible refine on_bump (sub_trans rfl hM)
    | with_reducible refine on_stepRecord (sub_trans rfl hM) ?_
    | with_reducible refine on_raiseIrq (sub_trans rfl hM)
    | with_reducible refine on_recordFault (sub_trans rfl hM)
    | with_reducible refine on_ite ?_ ?_
    | with_reducible refine only_whenA fun _ => ?_
    | intro _
    | dsimp only

theorem on_actStepComplete {M : List StateField} {a : Fin 32} (hM : ([.regs, .units, .rings, .mem, .codingMap, .crcDiff, .held, .heldNext, .buffered, .tlb, .lcSlots, .lcWait, .lcFill, .sp, .arrays, .engines, .ctxs, .entries, .entryNext, .lanes, .ports, .windows, .layers, .trust, .flog, .flogN, .free, .out] : List StateField) ⊆ M) :
 (actStepComplete a).only (Within M) := by
  unfold actStepComplete
  repeat' first
    | with_reducible exact on_done
    | with_reducible refine on_look fun _ => ?_
    | with_reducible exact on_nil
    | with_reducible refine on_cons ?_ ?_
    | with_reducible exact on_eff hM rfl
    | with_reducible refine on_putSp (sub_trans rfl hM)
    | with_reducible refine on_withFree (sub_trans rfl hM) ?_
    | with_reducible refine on_bump (sub_trans rfl hM)
    | with_reducible refine on_updArr (sub_trans rfl hM)
    | with_reducible refine on_countFlags (sub_trans rfl hM)
    | with_reducible refine on_quantDone (sub_trans rfl hM)
    | with_reducible refine on_leaveStep (sub_trans rfl hM)
    | with_reducible refine on_ite ?_ ?_
    | with_reducible refine only_whenA fun _ => ?_
    | with_reducible refine only_forA fun _ _ => ?_
    | intro _
    | split
    | dsimp only

theorem on_refuseWait {M : List StateField} {a : Nat} (hM : ([.regs, .units, .rings, .mem, .codingMap, .crcDiff, .held, .heldNext, .buffered, .tlb, .lcSlots, .lcWait, .lcFill, .sp, .arrays, .engines, .ctxs, .entries, .entryNext, .lanes, .ports, .windows, .layers, .trust, .flog, .flogN, .free, .out] : List StateField) ⊆ M) :
 (refuseWait a).only (Within M) := by
  unfold refuseWait
  repeat' first
    | with_reducible exact on_done
    | with_reducible refine on_look fun _ => ?_
    | with_reducible exact on_eff hM rfl
    | with_reducible refine on_seq ?_ ?_
    | with_reducible refine on_updArr (sub_trans rfl hM)
    | with_reducible refine on_refuseStep (sub_trans rfl hM)
    | with_reducible refine only_whenA fun _ => ?_
    | intro _
    | split
    | dsimp only

theorem on_actPhaseWaitMet {M : List StateField} {a : Fin 32} (hM : ([.regs, .units, .rings, .mem, .codingMap, .crcDiff, .held, .heldNext, .buffered, .tlb, .lcSlots, .lcWait, .lcFill, .sp, .arrays, .engines, .ctxs, .entries, .entryNext, .lanes, .ports, .windows, .layers, .trust, .flog, .flogN, .free, .out] : List StateField) ⊆ M) :
 (actPhaseWaitMet a).only (Within M) := by
  unfold actPhaseWaitMet
  repeat' first
    | with_reducible exact on_done
    | with_reducible refine on_look fun _ => ?_
    | with_reducible exact on_eff hM rfl
    | with_reducible refine on_seq ?_ ?_
    | with_reducible refine on_refuseWait (sub_trans rfl hM)
    | with_reducible refine on_semTake (sub_trans rfl hM)
    | with_reducible refine on_withFree (sub_trans rfl hM) ?_
    | with_reducible refine on_leaveStep (sub_trans rfl hM)
    | with_reducible refine on_ite ?_ ?_
    | with_reducible refine only_whenA fun _ => ?_
    | intro _
    | split
    | dsimp only

theorem on_actStepOverrun {M : List StateField} {a : Fin 32} (hM : ([.regs, .shadows, .commits, .units, .rings, .lcSlots, .lcFill, .sp, .arrays, .engines, .ctxs, .entries, .entryNext, .lanes, .ports, .windows, .layers, .owed, .phase, .tripHold, .ruin, .relock, .faultsAt, .flog, .flogN, .free, .out] : List StateField) ⊆ M) :
 (actStepOverrun a).only (Within M) := by
  unfold actStepOverrun
  repeat' first
    | with_reducible exact on_done
    | with_reducible refine on_look fun _ => ?_
    | with_reducible exact on_eff hM rfl
    | with_reducible refine on_fellArray (sub_trans rfl hM)
    | with_reducible refine only_whenA fun _ => ?_
    | intro _
    | dsimp only

theorem on_actArraySelfCheckFailure {M : List StateField} {a : Fin 32} {check : SelfCheck} (hM : ([.regs, .shadows, .commits, .units, .rings, .lcSlots, .lcFill, .sp, .arrays, .engines, .ctxs, .entries, .entryNext, .lanes, .ports, .windows, .layers, .owed, .phase, .tripHold, .ruin, .relock, .faultsAt, .flog, .flogN, .free, .out] : List StateField) ⊆ M) :
 (actArraySelfCheckFailure a check).only (Within M) := by
  unfold actArraySelfCheckFailure
  repeat' first
    | with_reducible exact on_done
    | with_reducible refine on_look fun _ => ?_
    | with_reducible exact on_eff hM rfl
    | with_reducible refine on_seq ?_ ?_
    | with_reducible refine on_setRegN (sub_trans rfl hM)
    | with_reducible refine on_fellArray (sub_trans rfl hM)
    | with_reducible refine only_whenA fun _ => ?_
    | intro _
    | split
    | dsimp only

theorem on_actArrayFell {M : List StateField} {f : Func} {a : Fin 32} (hM : ([.regs, .shadows, .commits, .units, .rings, .lcSlots, .lcFill, .sp, .arrays, .engines, .ctxs, .entries, .entryNext, .lanes, .ports, .windows, .layers, .owed, .phase, .tripHold, .ruin, .relock, .faultsAt, .flog, .flogN, .free, .out] : List StateField) ⊆ M) :
 (actArrayFell f a).only (Within M) := by
  unfold actArrayFell
  repeat' first
    | with_reducible exact on_done
    | with_reducible refine on_look fun _ => ?_
    | with_reducible exact on_nil
    | with_reducible refine on_cons ?_ ?_
    | with_reducible exact on_eff hM rfl
    | with_reducible refine on_withWrite (sub_trans rfl hM) ?_
    | with_reducible refine on_updArr (sub_trans rfl hM)
    | with_reducible refine on_stopEngine (sub_trans rfl hM)
    | with_reducible refine on_settleFell (sub_trans rfl hM)
    | with_reducible refine on_fellArray (sub_trans rfl hM)
    | with_reducible refine on_ite ?_ ?_
    | with_reducible refine only_whenA fun _ => ?_
    | with_reducible refine only_forA fun _ _ => ?_
    | intro _
    | dsimp only

theorem on_actArrayStopRequest {M : List StateField} {f : Func} {a : Fin 32} (hM : ([.regs, .rings, .arrays, .ctxs, .free, .out] : List StateField) ⊆ M) :
 (actArrayStopRequest f a).only (Within M) := by
  unfold actArrayStopRequest
  repeat' first
    | with_reducible exact on_done
    | with_reducible refine on_look fun _ => ?_
    | with_reducible exact on_eff hM rfl
    | with_reducible refine on_withWrite (sub_trans rfl hM) ?_
    | with_reducible refine on_askStop (sub_trans rfl hM)
    | with_reducible refine only_whenA fun _ => ?_
    | intro _
    | dsimp only

theorem on_afterStop {M : List StateField} {c : Nat} {why : StopWhy} (hM : ([.regs, .units, .rings, .engines, .ctxs, .entries, .entryNext, .lanes, .layers, .free, .out] : List StateField) ⊆ M) :
 (afterStop c why).only (Within M) := by
  unfold afterStop
  repeat' first
    | with_reducible exact on_done
    | with_reducible refine on_look fun _ => ?_
    | with_reducible exact on_nil
    | with_reducible refine on_cons ?_ ?_
    | with_reducible exact on_eff hM rfl
    | with_reducible refine on_seq ?_ ?_
    | with_reducible refine on_updCtx (sub_trans rfl hM)
    | with_reducible refine on_stopEngine (sub_trans rfl hM)
    | with_reducible refine on_enterOwed (sub_trans rfl hM)
    | with_reducible refine on_settleRetire (sub_trans rfl hM)
    | with_reducible refine only_forA fun _ _ => ?_
    | intro _
    | split
    | dsimp only

theorem on_actKerfPoint {M : List StateField} {a : Fin 32} (hM : ([.regs, .commits, .units, .rings, .mem, .codingMap, .crcDiff, .held, .heldNext, .buffered, .tlb, .lcSlots, .lcWait, .lcFill, .sp, .arrays, .engines, .ctxs, .entries, .entryNext, .lanes, .ports, .windows, .layers, .trust, .flog, .flogN, .free, .out] : List StateField) ⊆ M) :
 (actKerfPoint a).only (Within M) := by
  unfold actKerfPoint
  repeat' first
    | with_reducible exact on_done
    | with_reducible refine on_look fun _ => ?_
    | with_reducible exact on_nil
    | with_reducible refine on_cons ?_ ?_
    | with_reducible exact on_eff hM rfl
    | with_reducible refine on_updArr (sub_trans rfl hM)
    | with_reducible refine on_stopHonoured (sub_trans rfl hM)
    | with_reducible refine on_commitArrivals (sub_trans rfl hM)
    | with_reducible refine on_applyCommit (sub_trans rfl hM)
    | with_reducible refine on_afterStop (sub_trans rfl hM)
    | with_reducible refine on_refuseStep (sub_trans rfl hM)
    | with_reducible refine only_whenA fun _ => ?_
    | intro _
    | split
    | dsimp only

theorem on_actSingleStepNext {M : List StateField} {f : Func} {a : Fin 32} (hM : ([.regs, .rings, .arrays, .free, .out] : List StateField) ⊆ M) :
 (actSingleStepNext f a).only (Within M) := by
  unfold actSingleStepNext
  repeat' first
    | with_reducible exact on_done
    | with_reducible refine on_look fun _ => ?_
    | with_reducible exact on_eff hM rfl
    | with_reducible refine on_withWrite (sub_trans rfl hM) ?_
    | with_reducible refine on_updArr (sub_trans rfl hM)
    | with_reducible refine only_whenA fun _ => ?_
    | intro _
    | dsimp only

end Sys2Proof.Machine
end

