-- ==== Sys2Proof/Laws/FieldsJobCore.lean ====
section
/-! SUPPORT. The fields that the acts of Machine/JobCore.lean may change. -/

namespace Sys2Proof.Machine

theorem on_haltRing {M : List StateField} {f : Func} {n code seq : Nat} (hM : ([.regs, .rings, .free, .out] : List StateField) ⊆ M) :
 (haltRing f n code seq).only (Within M) := by
  unfold haltRing
  repeat' first
    | with_reducible exact on_done
    | with_reducible refine on_look fun _ => ?_
    | with_reducible exact on_nil
    | with_reducible refine on_cons ?_ ?_
    | with_reducible exact on_eff hM rfl
    | with_reducible refine on_setRegN (sub_trans rfl hM)
    | with_reducible refine on_recordErr (sub_trans rfl hM)
    | with_reducible refine on_putEvent (sub_trans rfl hM)
    | intro _
    | dsimp only

theorem on_startIfOpen {M : List StateField} {n : Nat} {start : Act} (hM : ([.regs, .jobs] : List StateField) ⊆ M) (h0 : start.only (Within M)) :
 (startIfOpen n start).only (Within M) := by
  unfold startIfOpen
  repeat' first
    | with_reducible exact on_done
    | with_reducible refine on_look fun _ => ?_
    | with_reducible exact on_nil
    | with_reducible refine on_cons ?_ ?_
    | with_reducible exact on_eff hM rfl
    | with_reducible exact h0
    | with_reducible refine on_bump (sub_trans rfl hM)
    | with_reducible refine only_whenA fun _ => ?_
    | with_reducible refine only_optA fun _ _ => ?_
    | intro _
    | dsimp only

theorem on_acceptJob {M : List StateField} {f : Func} {n : Fin 8} {d : BitVec 1024} {body : List Byte} {halting : State → Option Nat} {k : Nat → Act} (hM : ([.regs, .rings, .jobs, .jobNext, .free, .out] : List StateField) ⊆ M) (h0 : ∀ x0, (k x0).only (Within M)) :
 (acceptJob f n d body halting k).only (Within M) := by
  unfold acceptJob
  repeat' first
    | with_reducible exact on_done
    | with_reducible refine on_look fun _ => ?_
    | with_reducible exact on_nil
    | with_reducible refine on_cons ?_ ?_
    | with_reducible exact on_eff hM rfl
    | with_reducible exact h0 _
    | with_reducible refine on_haltRing (sub_trans rfl hM)
    | with_reducible refine on_setRegN (sub_trans rfl hM)
    | with_reducible refine on_setFld (sub_trans rfl hM)
    | with_reducible refine on_ite ?_ ?_
    | intro _
    | split
    | dsimp only

theorem on_ofKind {M : List StateField} {kind : Nat} {d : BitVec 1024} {a : Act} (hM : ([] : List StateField) ⊆ M) (h0 : a.only (Within M)) :
 (ofKind kind d a).only (Within M) := by
  unfold ofKind
  repeat' first
    | with_reducible exact on_done
    | with_reducible refine on_look fun _ => ?_
    | with_reducible exact on_eff hM rfl
    | with_reducible exact h0
    | with_reducible refine only_whenA fun _ => ?_

theorem on_actJobKindRefused {M : List StateField} {f : Func} {n : Fin 8} {d : BitVec 1024} (hM : ([.regs, .rings, .free, .out] : List StateField) ⊆ M) :
 (actJobKindRefused f n d).only (Within M) := by
  unfold actJobKindRefused
  repeat' first
    | with_reducible exact on_done
    | with_reducible refine on_look fun _ => ?_
    | with_reducible exact on_eff hM rfl
    | with_reducible refine on_haltRing (sub_trans rfl hM)
    | with_reducible refine only_whenA fun _ => ?_
    | with_reducible refine only_optA fun _ _ => ?_
    | intro _
    | dsimp only

end Sys2Proof.Machine
end

