-- ==== Sys2Proof/Laws/FieldsDecoder.lean ====
section
/-! SUPPORT. The fields that the acts of Machine/Decoder.lean may change. -/

namespace Sys2Proof.Machine

theorem on_completeJob {M : List StateField} {n code : Nat} {d : BitVec 1024} {event : Act} (hM : ([.regs, .jobs] : List StateField) ⊆ M) (h0 : event.only (Within M)) :
 (completeJob n code d event).only (Within M) := by
  unfold completeJob
  repeat' first
    | with_reducible exact on_done
    | with_reducible refine on_look fun _ => ?_
    | with_reducible exact on_eff hM rfl
    | with_reducible refine on_seq ?_ ?_
    | with_reducible exact h0
    | with_reducible refine on_endJob (sub_trans rfl hM)
    | with_reducible refine only_whenA fun _ => ?_
    | dsimp only

theorem on_withBody {M : List StateField} {j : Job} {asid n : Nat} {k : Option (List Byte) → Act} (hM : ([.regs, .rings, .mem, .codingMap, .crcDiff, .buffered, .tlb, .lcSlots, .free, .out] : List StateField) ⊆ M) (h0 : ∀ x0, (k x0).only (Within M)) :
 (withBody j asid n k).only (Within M) := by
  unfold withBody
  repeat' first
    | with_reducible exact on_done
    | with_reducible refine on_look fun _ => ?_
    | with_reducible exact on_eff hM rfl
    | with_reducible exact h0 _
    | with_reducible refine on_virtRead (sub_trans rfl hM) ?_
    | with_reducible refine on_ite ?_ ?_
    | intro _
    | split
    | dsimp only

theorem on_updStream {M : List StateField} {c : Nat} {f : StreamSt → StreamSt} (hM : ([.streams] : List StateField) ⊆ M) :
 (updStream c f).only (Within M) := by
  unfold updStream
  repeat' first
    | with_reducible exact on_done
    | with_reducible refine on_look fun _ => ?_
    | with_reducible exact on_eff hM rfl
    | intro _

theorem on_streamEvent {M : List StateField} {c low code : Nat} {payload : List Byte} (hM : ([.regs, .rings, .free, .out] : List StateField) ⊆ M) :
 (streamEvent c low code payload).only (Within M) := by
  unfold streamEvent
  repeat' first
    | with_reducible exact on_done
    | with_reducible refine on_look fun _ => ?_
    | with_reducible exact on_eff hM rfl
    | with_reducible refine on_putEvent (sub_trans rfl hM)
    | intro _
    | dsimp only

theorem on_streamErrAt {M : List StateField} {page c code : Nat} (hM : ([.regs, .rings, .free, .out] : List StateField) ⊆ M) :
 (streamErrAt page c code).only (Within M) := by
  unfold streamErrAt
  repeat' first
    | with_reducible exact on_done
    | with_reducible refine on_look fun _ => ?_
    | with_reducible exact on_eff hM rfl
    | with_reducible refine on_withFree (sub_trans rfl hM) ?_
    | with_reducible refine on_recordErrI (sub_trans rfl hM)
    | intro _
    | dsimp only

theorem on_streamErr {M : List StateField} {c code : Nat} (hM : ([.regs, .rings, .free, .out] : List StateField) ⊆ M) :
 (streamErr c code).only (Within M) := by
  unfold streamErr
  repeat' first
    | with_reducible exact on_done
    | with_reducible refine on_look fun _ => ?_
    | with_reducible exact on_eff hM rfl
    | with_reducible refine on_streamErrAt (sub_trans rfl hM)
    | intro _
    | dsimp only

theorem on_endStreamJobAt {M : List StateField} {page n code : Nat} (hM : ([.regs, .rings, .jobs, .free, .out] : List StateField) ⊆ M) :
 (endStreamJobAt page n code).only (Within M) := by
  unfold endStreamJobAt
  repeat' first
    | with_reducible exact on_done
    | with_reducible refine on_look fun _ => ?_
    | with_reducible exact on_eff hM rfl
    | with_reducible refine on_seq ?_ ?_
    | with_reducible refine on_streamErrAt (sub_trans rfl hM)
    | with_reducible refine on_completeJob (sub_trans rfl hM) ?_
    | with_reducible refine on_jobEvent (sub_trans rfl hM)
    | with_reducible refine only_whenA fun _ => ?_
    | with_reducible refine only_optA fun _ _ => ?_
    | intro _
    | dsimp only

theorem on_endStreamJob {M : List StateField} {n code : Nat} (hM : ([.regs, .rings, .jobs, .free, .out] : List StateField) ⊆ M) :
 (endStreamJob n code).only (Within M) := by
  unfold endStreamJob
  repeat' first
    | with_reducible exact on_done
    | with_reducible refine on_look fun _ => ?_
    | with_reducible exact on_eff hM rfl
    | with_reducible refine on_endStreamJobAt (sub_trans rfl hM)
    | with_reducible refine only_optA fun _ _ => ?_
    | intro _
    | dsimp only

theorem on_countStall {M : List StateField} {c : Nat} (hM : ([.regs, .streams] : List StateField) ⊆ M) :
 (countStall c).only (Within M) := by
  unfold countStall
  repeat' first
    | with_reducible exact on_done
    | with_reducible refine on_look fun _ => ?_
    | with_reducible exact on_eff hM rfl
    | with_reducible refine on_seq ?_ ?_
    | with_reducible refine on_bump (sub_trans rfl hM)
    | with_reducible refine on_updStream (sub_trans rfl hM)
    | with_reducible refine only_optA fun _ _ => ?_
    | intro _
    | dsimp only

theorem on_endStall {M : List StateField} {c : Nat} (hM : ([.regs, .streams] : List StateField) ⊆ M) :
 (endStall c).only (Within M) := by
  unfold endStall
  repeat' first
    | with_reducible exact on_done
    | with_reducible refine on_look fun _ => ?_
    | with_reducible exact on_eff hM rfl
    | with_reducible refine on_seq ?_ ?_
    | with_reducible refine on_countStall (sub_trans rfl hM)
    | with_reducible refine on_updStream (sub_trans rfl hM)
    | with_reducible refine only_whenA fun _ => ?_
    | intro _
    | dsimp only

theorem on_leaveRunning {M : List StateField} {c : Nat} {dst : StreamState} {code : Nat} (hM : ([.regs, .rings, .jobs, .streams, .free, .out] : List StateField) ⊆ M) :
 (leaveRunning c dst code).only (Within M) := by
  unfold leaveRunning
  repeat' first
    | with_reducible exact on_done
    | with_reducible refine on_look fun _ => ?_
    | with_reducible exact on_nil
    | with_reducible refine on_cons ?_ ?_
    | with_reducible exact on_eff hM rfl
    | with_reducible refine on_endStall (sub_trans rfl hM)
    | with_reducible refine on_updStream (sub_trans rfl hM)
    | with_reducible refine on_streamEvent (sub_trans rfl hM)
    | with_reducible refine on_endStreamJob (sub_trans rfl hM)
    | with_reducible refine on_ite ?_ ?_
    | with_reducible refine only_forA fun _ _ => ?_
    | intro _
    | dsimp only

theorem on_setResync {M : List StateField} {c : Nat} {on : Bool} {cause : Nat} (hM : ([.regs, .rings, .streams, .free, .out] : List StateField) ⊆ M) :
 (setResync c on cause).only (Within M) := by
  unfold setResync
  repeat' first
    | with_reducible exact on_done
    | with_reducible refine on_look fun _ => ?_
    | with_reducible exact on_eff hM rfl
    | with_reducible refine on_seq ?_ ?_
    | with_reducible refine on_updStream (sub_trans rfl hM)
    | with_reducible refine on_streamEvent (sub_trans rfl hM)
    | with_reducible refine on_ite ?_ ?_
    | with_reducible refine only_whenA fun _ => ?_
    | intro _
    | dsimp only

theorem on_consumeFront {M : List StateField} {c : Nat} (hM : ([.regs, .rings, .jobs, .streams, .free, .out] : List StateField) ⊆ M) :
 (consumeFront c).only (Within M) := by
  unfold consumeFront
  repeat' first
    | with_reducible exact on_done
    | with_reducible refine on_look fun _ => ?_
    | with_reducible exact on_nil
    | with_reducible refine on_cons ?_ ?_
    | with_reducible exact on_eff hM rfl
    | with_reducible refine on_endStall (sub_trans rfl hM)
    | with_reducible refine on_updStream (sub_trans rfl hM)
    | with_reducible refine on_semAdd (sub_trans rfl hM)
    | with_reducible refine on_leaveRunning (sub_trans rfl hM)
    | with_reducible refine only_whenA fun _ => ?_
    | intro _
    | split
    | dsimp only

theorem on_consumeDropped {M : List StateField} {c : Nat} {a0 : Nat} (hM : ([.regs, .rings, .jobs, .streams, .free, .out] : List StateField) ⊆ M) :
 (consumeDropped c a0).only (Within M) := by
  induction a0 with
  | zero =>
    unfold consumeDropped
    repeat' first
      | with_reducible exact on_done
      | with_reducible refine on_look fun _ => ?_
      | with_reducible exact on_eff hM rfl
      | dsimp only
  | succ _ ih =>
    unfold consumeDropped
    repeat' first
      | with_reducible exact on_done
      | with_reducible refine on_look fun _ => ?_
      | with_reducible exact on_eff hM rfl
      | with_reducible refine on_seq ?_ ?_
      | with_reducible exact ih
      | with_reducible refine on_consumeFront (sub_trans rfl hM)
      | with_reducible refine only_whenA fun _ => ?_
      | intro _
      | dsimp only

theorem on_countDrop {M : List StateField} {c : Nat} {nonRef : Bool} (hM : ([.regs, .streams, .pipes] : List StateField) ⊆ M) :
 (countDrop c nonRef).only (Within M) := by
  unfold countDrop
  repeat' first
    | with_reducible exact on_done
    | with_reducible refine on_look fun _ => ?_
    | with_reducible exact on_nil
    | with_reducible refine on_cons ?_ ?_
    | with_reducible exact on_eff hM rfl
    | with_reducible refine on_updStream (sub_trans rfl hM)
    | with_reducible refine on_bump (sub_trans rfl hM)
    | with_reducible refine on_ite ?_ ?_
    | intro _
    | dsimp only

theorem on_tellDrops {M : List StateField} {p : Nat} (hM : ([.regs, .rings, .pipes, .free, .out] : List StateField) ⊆ M) :
 (tellDrops p).only (Within M) := by
  unfold tellDrops
  repeat' first
    | with_reducible exact on_done
    | with_reducible refine on_look fun _ => ?_
    | with_reducible exact on_eff hM rfl
    | with_reducible refine on_seq ?_ ?_
    | with_reducible refine on_pageEvent (sub_trans rfl hM)
    | with_reducible refine only_whenA fun _ => ?_
    | intro _
    | dsimp only

theorem on_configure {M : List StateField} {n c : Nat} {f : Func} {r : BitVec 512} (hM : ([.regs, .rings, .jobs, .streams, .free, .out] : List StateField) ⊆ M) :
 (configure n c f r).only (Within M) := by
  unfold configure
  repeat' first
    | with_reducible exact on_done
    | with_reducible refine on_look fun _ => ?_
    | with_reducible exact on_eff hM rfl
    | with_reducible refine on_seq ?_ ?_
    | with_reducible refine on_endStreamJobAt (sub_trans rfl hM)
    | with_reducible refine on_updStream (sub_trans rfl hM)
    | with_reducible refine on_endStreamJob (sub_trans rfl hM)
    | with_reducible refine on_ite ?_ ?_
    | intro _
    | dsimp only

theorem on_startStream {M : List StateField} {n : Nat} (hM : ([.regs, .rings, .jobs, .mem, .codingMap, .crcDiff, .held, .heldNext, .buffered, .tlb, .lcSlots, .lcWait, .lcFill, .streams, .trust, .free, .out] : List StateField) ⊆ M) :
 (startStream n).only (Within M) := by
  unfold startStream
  repeat' first
    | with_reducible exact on_done
    | with_reducible refine on_look fun _ => ?_
    | with_reducible exact on_nil
    | with_reducible refine on_cons ?_ ?_
    | with_reducible exact on_eff hM rfl
    | with_reducible refine on_seq ?_ ?_
    | with_reducible refine on_endStreamJob (sub_trans rfl hM)
    | with_reducible refine on_withBody (sub_trans rfl hM) ?_
    | with_reducible refine on_configure (sub_trans rfl hM)
    | with_reducible refine on_updStream (sub_trans rfl hM)
    | with_reducible refine on_leaveRunning (sub_trans rfl hM)
    | with_reducible refine on_virtWrite (sub_trans rfl hM) ?_
    | with_reducible refine on_endStall (sub_trans rfl hM)
    | with_reducible refine on_ite ?_ ?_
    | with_reducible refine only_whenA fun _ => ?_
    | with_reducible refine only_optA fun _ _ => ?_
    | with_reducible refine only_forA fun _ _ => ?_
    | intro _
    | split
    | dsimp only

theorem on_streamJob {M : List StateField} {ops : List Nat} {f : Func} {ring : Fin 8} {d : BitVec 1024} {body : List Byte} (hM : ([.regs, .rings, .jobs, .jobNext, .mem, .codingMap, .crcDiff, .held, .heldNext, .buffered, .tlb, .lcSlots, .lcWait, .lcFill, .streams, .trust, .free, .out] : List StateField) ⊆ M) :
 (streamJob ops f ring d body).only (Within M) := by
  unfold streamJob
  repeat' first
    | with_reducible exact on_done
    | with_reducible refine on_look fun _ => ?_
    | with_reducible exact on_eff hM rfl
    | with_reducible refine on_ofKind (sub_trans rfl hM) ?_
    | with_reducible refine on_acceptJob (sub_trans rfl hM) ?_
    | with_reducible refine on_endStreamJob (sub_trans rfl hM)
    | with_reducible refine on_startIfOpen (sub_trans rfl hM) ?_
    | with_reducible refine on_startStream (sub_trans rfl hM)
    | with_reducible refine only_whenA fun _ => ?_
    | intro _
    | split
    | dsimp only

theorem on_actContextConfigure {M : List StateField} {f : Func} {ring : Fin 8} {d : BitVec 1024} {body : List Byte} (hM : ([.regs, .rings, .jobs, .jobNext, .mem, .codingMap, .crcDiff, .held, .heldNext, .buffered, .tlb, .lcSlots, .lcWait, .lcFill, .streams, .trust, .free, .out] : List StateField) ⊆ M) :
 (actContextConfigure f ring d body).only (Within M) := by
  unfold actContextConfigure
  repeat' first
    | with_reducible exact on_done
    | with_reducible refine on_look fun _ => ?_
    | with_reducible exact on_eff hM rfl
    | with_reducible refine on_streamJob (sub_trans rfl hM)
    | dsimp only

theorem on_actContextStart {M : List StateField} {f : Func} {ring : Fin 8} {d : BitVec 1024} (hM : ([.regs, .rings, .jobs, .jobNext, .mem, .codingMap, .crcDiff, .held, .heldNext, .buffered, .tlb, .lcSlots, .lcWait, .lcFill, .streams, .trust, .free, .out] : List StateField) ⊆ M) :
 (actContextStart f ring d).only (Within M) := by
  unfold actContextStart
  repeat' first
    | with_reducible exact on_done
    | with_reducible refine on_look fun _ => ?_
    | with_reducible exact on_eff hM rfl
    | with_reducible refine on_streamJob (sub_trans rfl hM)
    | dsimp only

theorem on_actContextStop {M : List StateField} {f : Func} {ring : Fin 8} {d : BitVec 1024} (hM : ([.regs, .rings, .jobs, .jobNext, .mem, .codingMap, .crcDiff, .held, .heldNext, .buffered, .tlb, .lcSlots, .lcWait, .lcFill, .streams, .trust, .free, .out] : List StateField) ⊆ M) :
 (actContextStop f ring d).only (Within M) := by
  unfold actContextStop
  repeat' first
    | with_reducible exact on_done
    | with_reducible refine on_look fun _ => ?_
    | with_reducible exact on_eff hM rfl
    | with_reducible refine on_streamJob (sub_trans rfl hM)
    | dsimp only

theorem on_actContextFlush {M : List StateField} {f : Func} {ring : Fin 8} {d : BitVec 1024} (hM : ([.regs, .rings, .jobs, .jobNext, .mem, .codingMap, .crcDiff, .held, .heldNext, .buffered, .tlb, .lcSlots, .lcWait, .lcFill, .streams, .trust, .free, .out] : List StateField) ⊆ M) :
 (actContextFlush f ring d).only (Within M) := by
  unfold actContextFlush
  repeat' first
    | with_reducible exact on_done
    | with_reducible refine on_look fun _ => ?_
    | with_reducible exact on_eff hM rfl
    | with_reducible refine on_streamJob (sub_trans rfl hM)
    | dsimp only

theorem on_actContextQuery {M : List StateField} {f : Func} {ring : Fin 8} {d : BitVec 1024} (hM : ([.regs, .rings, .jobs, .jobNext, .mem, .codingMap, .crcDiff, .held, .heldNext, .buffered, .tlb, .lcSlots, .lcWait, .lcFill, .streams, .trust, .free, .out] : List StateField) ⊆ M) :
 (actContextQuery f ring d).only (Within M) := by
  unfold actContextQuery
  repeat' first
    | with_reducible exact on_done
    | with_reducible refine on_look fun _ => ?_
    | with_reducible exact on_eff hM rfl
    | with_reducible refine on_streamJob (sub_trans rfl hM)
    | dsimp only

theorem on_actContextReset {M : List StateField} {f : Func} {ring : Fin 8} {d : BitVec 1024} (hM : ([.regs, .rings, .jobs, .jobNext, .mem, .codingMap, .crcDiff, .held, .heldNext, .buffered, .tlb, .lcSlots, .lcWait, .lcFill, .streams, .trust, .free, .out] : List StateField) ⊆ M) :
 (actContextReset f ring d).only (Within M) := by
  unfold actContextReset
  repeat' first
    | with_reducible exact on_done
    | with_reducible refine on_look fun _ => ?_
    | with_reducible exact on_eff hM rfl
    | with_reducible refine on_streamJob (sub_trans rfl hM)
    | dsimp only

theorem on_doorbell {M : List StateField} {f : Func} {u : UnitId} {a : Act} (hM : ([.regs, .rings, .free, .out] : List StateField) ⊆ M) (h0 : a.only (Within M)) :
 (doorbell f u a).only (Within M) := by
  unfold doorbell
  repeat' first
    | with_reducible exact on_done
    | with_reducible refine on_look fun _ => ?_
    | with_reducible exact on_eff hM rfl
    | with_reducible exact h0
    | with_reducible refine on_hostErr (sub_trans rfl hM)
    | with_reducible refine on_ite ?_ ?_
    | intro _
    | dsimp only

theorem on_actStreamRingDoorbell {M : List StateField} {f : Func} {c : Fin 1024} {v : Word} (hM : ([.regs, .rings, .streams, .free, .out] : List StateField) ⊆ M) :
 (actStreamRingDoorbell f c v).only (Within M) := by
  unfold actStreamRingDoorbell
  repeat' first
    | with_reducible exact on_done
    | with_reducible refine on_look fun _ => ?_
    | with_reducible exact on_eff hM rfl
    | with_reducible refine on_doorbell (sub_trans rfl hM) ?_
    | with_reducible refine on_updStream (sub_trans rfl hM)
    | with_reducible refine on_hostErr (sub_trans rfl hM)
    | with_reducible refine on_ite ?_ ?_
    | intro _
    | dsimp only

theorem on_addUnit {M : List StateField} {c : Nat} {u : AccessUnit} (hM : ([.regs, .rings, .jobs, .streams, .free, .out] : List StateField) ⊆ M) :
 (addUnit c u).only (Within M) := by
  unfold addUnit
  repeat' first
    | with_reducible exact on_done
    | with_reducible refine on_look fun _ => ?_
    | with_reducible exact on_eff hM rfl
    | with_reducible refine on_seq ?_ ?_
    | with_reducible refine on_updStream (sub_trans rfl hM)
    | with_reducible refine on_consumeDropped (sub_trans rfl hM)
    | intro _
    | dsimp only

theorem on_fetchFailed {M : List StateField} {c : Nat} {entry : BitVec 256} (hM : ([.regs, .rings, .jobs, .streams, .pipes, .free, .out] : List StateField) ⊆ M) :
 (fetchFailed c entry).only (Within M) := by
  unfold fetchFailed
  repeat' first
    | with_reducible exact on_done
    | with_reducible refine on_look fun _ => ?_
    | with_reducible exact on_nil
    | with_reducible refine on_cons ?_ ?_
    | with_reducible exact on_eff hM rfl
    | with_reducible refine on_streamErr (sub_trans rfl hM)
    | with_reducible refine on_setResync (sub_trans rfl hM)
    | with_reducible refine on_countDrop (sub_trans rfl hM)
    | with_reducible refine on_addUnit (sub_trans rfl hM)
    | dsimp only

theorem on_actAccessUnitFetch {M : List StateField} {c : Fin 1024} {entry : BitVec 256} {fetched : Option UnitInfo} (hM : ([.regs, .rings, .jobs, .streams, .pipes, .free, .out] : List StateField) ⊆ M) :
 (actAccessUnitFetch c entry fetched).only (Within M) := by
  unfold actAccessUnitFetch
  repeat' first
    | with_reducible exact on_done
    | with_reducible refine on_look fun _ => ?_
    | with_reducible exact on_nil
    | with_reducible refine on_cons ?_ ?_
    | with_reducible exact on_eff hM rfl
    | with_reducible refine on_seq ?_ ?_
    | with_reducible refine on_streamErr (sub_trans rfl hM)
    | with_reducible refine on_addUnit (sub_trans rfl hM)
    | with_reducible refine on_setResync (sub_trans rfl hM)
    | with_reducible refine on_fetchFailed (sub_trans rfl hM)
    | with_reducible refine on_bump (sub_trans rfl hM)
    | with_reducible refine on_countDrop (sub_trans rfl hM)
    | with_reducible refine on_ite ?_ ?_
    | with_reducible refine only_whenA fun _ => ?_
    | intro _
    | split
    | dsimp only

theorem on_mapPending {M : List StateField} {c : Nat} {f : List AccessUnit → List AccessUnit} (hM : ([.streams] : List StateField) ⊆ M) :
 (mapPending c f).only (Within M) := by
  unfold mapPending
  repeat' first
    | with_reducible exact on_done
    | with_reducible refine on_look fun _ => ?_
    | with_reducible exact on_eff hM rfl
    | with_reducible refine on_updStream (sub_trans rfl hM)
    | with_reducible refine on_ite ?_ ?_
    | intro _
    | dsimp only

theorem on_shed {M : List StateField} {p : Nat} {a0 : Nat} (hM : ([.regs, .rings, .jobs, .streams, .pipes, .free, .out] : List StateField) ⊆ M) :
 (shed p a0).only (Within M) := by
  induction a0 with
  | zero =>
    unfold shed
    repeat' first
      | with_reducible exact on_done
      | with_reducible refine on_look fun _ => ?_
      | with_reducible exact on_eff hM rfl
      | dsimp only
  | succ _ ih =>
    unfold shed
    repeat' first
      | with_reducible exact on_done
      | with_reducible refine on_look fun _ => ?_
      | with_reducible exact on_nil
      | with_reducible refine on_cons ?_ ?_
      | with_reducible exact on_eff hM rfl
      | with_reducible exact ih
      | with_reducible refine on_mapPending (sub_trans rfl hM)
      | with_reducible refine on_countDrop (sub_trans rfl hM)
      | with_reducible refine on_consumeDropped (sub_trans rfl hM)
      | with_reducible refine on_setResync (sub_trans rfl hM)
      | with_reducible refine on_ite ?_ ?_
      | with_reducible refine only_whenA fun _ => ?_
      | with_reducible refine only_forA fun _ _ => ?_
      | intro _
      | split
      | dsimp only

theorem on_findSlot {M : List StateField} {c : Nat} {st : StreamSt} {f : Func} {found : Option Nat → Act} {a0 : List Nat} (hM : ([.regs, .rings, .jobs, .mem, .codingMap, .crcDiff, .buffered, .tlb, .lcSlots, .streams, .flog, .flogN, .free, .out] : List StateField) ⊆ M) (h0 : ∀ x0, (found x0).only (Within M)) :
 (findSlot c st f found a0).only (Within M) := by
  induction a0 with
  | nil =>
    unfold findSlot
    repeat' first
      | with_reducible exact on_done
      | with_reducible refine on_look fun _ => ?_
      | with_reducible exact on_eff hM rfl
      | with_reducible exact h0 _
      | dsimp only
  | cons _ _ ih =>
    unfold findSlot
    repeat' first
      | with_reducible exact on_done
      | with_reducible refine on_look fun _ => ?_
      | with_reducible exact on_nil
      | with_reducible refine on_cons ?_ ?_
      | with_reducible exact on_eff hM rfl
      | with_reducible exact h0 _
      | with_reducible exact ih
      | with_reducible refine on_virtRead (sub_trans rfl hM) ?_
      | with_reducible refine on_streamErr (sub_trans rfl hM)
      | with_reducible refine on_flog (sub_trans rfl hM)
      | with_reducible refine on_leaveRunning (sub_trans rfl hM)
      | with_reducible refine on_ite ?_ ?_
      | intro _
      | split
      | dsimp only

theorem on_takeUnit {M : List StateField} {p c slot : Nat} {u : AccessUnit} (hM : ([.regs, .rings, .jobs, .streams, .free, .out] : List StateField) ⊆ M) :
 (takeUnit p c slot u).only (Within M) := by
  unfold takeUnit
  repeat' first
    | with_reducible exact on_done
    | with_reducible refine on_look fun _ => ?_
    | with_reducible exact on_nil
    | with_reducible refine on_cons ?_ ?_
    | with_reducible exact on_eff hM rfl
    | with_reducible refine on_seq ?_ ?_
    | with_reducible refine on_endStall (sub_trans rfl hM)
    | with_reducible refine on_streamErr (sub_trans rfl hM)
    | with_reducible refine on_bump (sub_trans rfl hM)
    | with_reducible refine on_streamEvent (sub_trans rfl hM)
    | with_reducible refine on_updStream (sub_trans rfl hM)
    | with_reducible refine on_endStreamJob (sub_trans rfl hM)
    | with_reducible refine only_forA fun _ _ => ?_
    | intro _
    | split
    | dsimp only

theorem on_selectFrom {M : List StateField} {p : Nat} {a0 : List (Nat × StreamSt)} (hM : ([.regs, .rings, .jobs, .mem, .codingMap, .crcDiff, .buffered, .tlb, .lcSlots, .streams, .flog, .flogN, .free, .out] : List StateField) ⊆ M) :
 (selectFrom p a0).only (Within M) := by
  induction a0 with
  | nil =>
    unfold selectFrom
    repeat' first
      | with_reducible exact on_done
      | with_reducible refine on_look fun _ => ?_
      | with_reducible exact on_eff hM rfl
      | dsimp only
  | cons _ _ ih =>
    unfold selectFrom
    repeat' first
      | with_reducible exact on_done
      | with_reducible refine on_look fun _ => ?_
      | with_reducible exact on_eff hM rfl
      | with_reducible refine on_seq ?_ ?_
      | with_reducible exact ih
      | with_reducible refine on_findSlot (sub_trans rfl hM) ?_
      | with_reducible refine on_takeUnit (sub_trans rfl hM)
      | with_reducible refine on_updStream (sub_trans rfl hM)
      | intro _
      | split
      | dsimp only

theorem on_actPipeSelect {M : List StateField} {p : Fin 16} {now : Dword} (hM : ([.regs, .rings, .jobs, .time, .mem, .codingMap, .crcDiff, .buffered, .tlb, .lcSlots, .streams, .pipes, .flog, .flogN, .free, .out] : List StateField) ⊆ M) :
 (actPipeSelect p now).only (Within M) := by
  unfold actPipeSelect
  repeat' first
    | with_reducible exact on_done
    | with_reducible refine on_look fun _ => ?_
    | with_reducible exact on_nil
    | with_reducible refine on_cons ?_ ?_
    | with_reducible exact on_eff hM rfl
    | with_reducible refine on_seq ?_ ?_
    | with_reducible refine on_tick (sub_trans rfl hM)
    | with_reducible refine on_shed (sub_trans rfl hM)
    | with_reducible refine on_tellDrops (sub_trans rfl hM)
    | with_reducible refine on_selectFrom (sub_trans rfl hM)
    | with_reducible refine only_whenA fun _ => ?_
    | intro _
    | dsimp only

theorem on_tellConcealed {M : List StateField} {c p frame : Nat} {causes : List Nat} (hM : ([.regs, .rings, .streams, .free, .out] : List StateField) ⊆ M) :
 (tellConcealed c p frame causes).only (Within M) := by
  unfold tellConcealed
  repeat' first
    | with_reducible exact on_done
    | with_reducible refine on_look fun _ => ?_
    | with_reducible exact on_nil
    | with_reducible refine on_cons ?_ ?_
    | with_reducible exact on_eff hM rfl
    | with_reducible refine on_seq ?_ ?_
    | with_reducible refine on_updStream (sub_trans rfl hM)
    | with_reducible refine on_bump (sub_trans rfl hM)
    | with_reducible refine on_streamErr (sub_trans rfl hM)
    | with_reducible refine on_streamEvent (sub_trans rfl hM)
    | with_reducible refine on_ite ?_ ?_
    | with_reducible refine only_whenA fun _ => ?_
    | intro _
    | dsimp only

theorem on_writePicture {M : List StateField} {p c : Nat} {cur : Decoding} {pic : Picture} {areas : List (Nat × Nat × Nat × Nat)} {near : List (Option (List Byte))} {bad : List Nat} (hM : ([.regs, .rings, .jobs, .mem, .codingMap, .crcDiff, .held, .heldNext, .buffered, .tlb, .lcSlots, .lcWait, .lcFill, .streams, .trust, .flog, .flogN, .free, .out] : List StateField) ⊆ M) :
 (writePicture p c cur pic areas near bad).only (Within M) := by
  unfold writePicture
  repeat' first
    | with_reducible exact on_done
    | with_reducible refine on_look fun _ => ?_
    | with_reducible exact on_nil
    | with_reducible refine on_cons ?_ ?_
    | with_reducible exact on_eff hM rfl
    | with_reducible refine on_streamErr (sub_trans rfl hM)
    | with_reducible refine on_flog (sub_trans rfl hM)
    | with_reducible refine on_leaveRunning (sub_trans rfl hM)
    | with_reducible refine on_withFree (sub_trans rfl hM) ?_
    | with_reducible refine on_virtWrite (sub_trans rfl hM) ?_
    | with_reducible refine on_semAdd (sub_trans rfl hM)
    | with_reducible refine on_updStream (sub_trans rfl hM)
    | with_reducible refine on_bump (sub_trans rfl hM)
    | with_reducible refine on_tellConcealed (sub_trans rfl hM)
    | with_reducible refine on_consumeFront (sub_trans rfl hM)
    | with_reducible refine on_consumeDropped (sub_trans rfl hM)
    | with_reducible refine on_ite ?_ ?_
    | with_reducible refine only_whenA fun _ => ?_
    | intro _
    | dsimp only

theorem on_readRefs {M : List StateField} {cl : StackClient} {r : BitVec 512} {k : List Nat → Act} {a0 : List Nat} {a1 : List Nat} (hM : ([.regs, .rings, .mem, .codingMap, .crcDiff, .buffered, .tlb, .lcSlots, .free, .out] : List StateField) ⊆ M) (h0 : ∀ x0, (k x0).only (Within M)) :
 (readRefs cl r k a0 a1).only (Within M) := by
  induction a0 generalizing a1 with
  | nil =>
    unfold readRefs
    repeat' first
      | with_reducible exact on_done
      | with_reducible refine on_look fun _ => ?_
      | with_reducible exact on_eff hM rfl
      | with_reducible exact h0 _
      | dsimp only
  | cons _ _ ih =>
    unfold readRefs
    repeat' first
      | with_reducible exact on_done
      | with_reducible refine on_look fun _ => ?_
      | with_reducible exact on_eff hM rfl
      | with_reducible exact h0 _
      | with_reducible exact ih
      | with_reducible refine on_virtRead (sub_trans rfl hM) ?_
      | intro _
      | split
      | dsimp only

theorem on_readNear {M : List StateField} {cl : StackClient} {base size : Nat} {need : Nat → Bool} {k : List (Option (List Byte)) → List Nat → Act} {a0 : List Nat} {a1 : List (Option (List Byte))} {a2 : List Nat} (hM : ([.regs, .rings, .mem, .codingMap, .crcDiff, .buffered, .tlb, .lcSlots, .free, .out] : List StateField) ⊆ M) (h0 : ∀ x0 x1, (k x0 x1).only (Within M)) :
 (readNear cl base size need k a0 a1 a2).only (Within M) := by
  induction a0 generalizing a1 a2 with
  | nil =>
    unfold readNear
    repeat' first
      | with_reducible exact on_done
      | with_reducible refine on_look fun _ => ?_
      | with_reducible exact on_eff hM rfl
      | with_reducible exact h0 _ _
      | dsimp only
  | cons _ _ ih =>
    unfold readNear
    repeat' first
      | with_reducible exact on_done
      | with_reducible refine on_look fun _ => ?_
      | with_reducible exact on_eff hM rfl
      | with_reducible exact h0 _ _
      | with_reducible exact ih
      | with_reducible refine on_virtRead (sub_trans rfl hM) ?_
      | with_reducible refine on_ite ?_ ?_
      | intro _
      | split
      | dsimp only

theorem on_actPictureWritten {M : List StateField} {p : Fin 16} {pic : Picture} (hM : ([.regs, .rings, .jobs, .mem, .codingMap, .crcDiff, .held, .heldNext, .buffered, .tlb, .lcSlots, .lcWait, .lcFill, .streams, .trust, .flog, .flogN, .free, .out] : List StateField) ⊆ M) :
 (actPictureWritten p pic).only (Within M) := by
  unfold actPictureWritten
  repeat' first
    | with_reducible exact on_done
    | with_reducible refine on_look fun _ => ?_
    | with_reducible exact on_eff hM rfl
    | with_reducible refine on_writePicture (sub_trans rfl hM)
    | with_reducible refine on_readNear (sub_trans rfl hM) ?_
    | with_reducible refine on_readRefs (sub_trans rfl hM) ?_
    | with_reducible refine on_withFree (sub_trans rfl hM) ?_
    | with_reducible refine on_ite ?_ ?_
    | with_reducible refine only_optA fun _ _ => ?_
    | intro _
    | split
    | dsimp only

theorem on_stopPipe {M : List StateField} {p : Nat} (hM : ([.regs, .rings, .jobs, .streams, .pipes, .free, .out] : List StateField) ⊆ M) :
 (stopPipe p).only (Within M) := by
  unfold stopPipe
  repeat' first
    | with_reducible exact on_done
    | with_reducible refine on_look fun _ => ?_
    | with_reducible exact on_nil
    | with_reducible refine on_cons ?_ ?_
    | with_reducible exact on_eff hM rfl
    | with_reducible refine on_seq ?_ ?_
    | with_reducible refine on_countDrop (sub_trans rfl hM)
    | with_reducible refine on_updStream (sub_trans rfl hM)
    | with_reducible refine on_consumeFront (sub_trans rfl hM)
    | with_reducible refine on_leaveRunning (sub_trans rfl hM)
    | with_reducible refine only_whenA fun _ => ?_
    | with_reducible refine only_forA fun _ _ => ?_
    | intro _
    | dsimp only

end Sys2Proof.Machine
end

