-- ==== Sys2Proof/Laws/FieldsTrackOps.lean ====
section
/-! SUPPORT. The fields that the acts of Machine/TrackOps.lean may change. -/

namespace Sys2Proof.Machine

theorem on_updTrack {M : List StateField} {f : TrackSt → TrackSt} (hM : ([.track] : List StateField) ⊆ M) :
 (updTrack f).only (Within M) := by
  unfold updTrack
  repeat' first
    | with_reducible exact on_done
    | with_reducible refine on_look fun _ => ?_
    | with_reducible exact on_eff hM rfl
    | intro _

theorem on_putCached {M : List StateField} {t : Nat} {emb : Bool} {i : Nat} {bs : List Byte} (hM : ([.tcache] : List StateField) ⊆ M) :
 (putCached t emb i bs).only (Within M) := by
  unfold putCached
  repeat' first
    | with_reducible exact on_done
    | with_reducible refine on_look fun _ => ?_
    | with_reducible exact on_eff hM rfl
    | with_reducible refine only_optA fun _ _ => ?_
    | intro _

theorem on_putRec {M : List StateField} {t i : Nat} {r : TrackRec} (hM : ([.tcache] : List StateField) ⊆ M) :
 (putRec t i r).only (Within M) := by
  unfold putRec
  repeat' first
    | with_reducible exact on_done
    | with_reducible refine on_look fun _ => ?_
    | with_reducible exact on_eff hM rfl
    | with_reducible refine on_putCached (sub_trans rfl hM)
    | dsimp only

theorem on_partFault {M : List StateField} {t addr : Nat} (hM : ([.regs, .rings, .flog, .flogN, .free, .out] : List StateField) ⊆ M) :
 (partFault t addr).only (Within M) := by
  unfold partFault
  repeat' first
    | with_reducible exact on_done
    | with_reducible refine on_look fun _ => ?_
    | with_reducible exact on_nil
    | with_reducible refine on_cons ?_ ?_
    | with_reducible exact on_eff hM rfl
    | with_reducible refine on_setFld (sub_trans rfl hM)
    | with_reducible refine on_recordErr (sub_trans rfl hM)
    | with_reducible refine on_flog (sub_trans rfl hM)
    | with_reducible refine on_pageEvent (sub_trans rfl hM)
    | intro _
    | dsimp only

theorem on_writeBack {M : List StateField} {t : Nat} {emb : Bool} {b : Nat} {data : List Byte} {k : Bool → Act} (hM : ([.regs, .rings, .mem, .codingMap, .crcDiff, .held, .heldNext, .buffered, .tlb, .lcSlots, .lcWait, .lcFill, .trust, .flog, .flogN, .free, .out] : List StateField) ⊆ M) (h0 : ∀ x0, (k x0).only (Within M)) :
 (writeBack t emb b data k).only (Within M) := by
  unfold writeBack
  repeat' first
    | with_reducible exact on_done
    | with_reducible refine on_look fun _ => ?_
    | with_reducible exact on_eff hM rfl
    | with_reducible refine on_seq ?_ ?_
    | with_reducible exact h0 _
    | with_reducible refine on_virtWrite (sub_trans rfl hM) ?_
    | with_reducible refine on_bump (sub_trans rfl hM)
    | with_reducible refine on_partFault (sub_trans rfl hM)
    | with_reducible refine on_ite ?_ ?_
    | intro _
    | dsimp only

theorem on_cacheRoom {M : List StateField} {n : Nat} {a0 : Nat} {a1 : Bool → Act} (hM : ([.regs, .rings, .mem, .codingMap, .crcDiff, .held, .heldNext, .buffered, .tlb, .lcSlots, .lcWait, .lcFill, .trust, .tcache, .flog, .flogN, .free, .out] : List StateField) ⊆ M) (h0 : ∀ x0, (a1 x0).only (Within M)) :
 (cacheRoom n a0 a1).only (Within M) := by
  induction a0 with
  | zero =>
    unfold cacheRoom
    repeat' first
      | with_reducible exact on_done
      | with_reducible refine on_look fun _ => ?_
      | with_reducible exact on_eff hM rfl
      | with_reducible exact h0 _
      | dsimp only
  | succ _ ih =>
    unfold cacheRoom
    repeat' first
      | with_reducible exact on_done
      | with_reducible refine on_look fun _ => ?_
      | with_reducible exact on_eff hM rfl
      | with_reducible refine on_seq ?_ ?_
      | with_reducible exact h0 _
      | with_reducible exact ih
      | with_reducible refine on_writeBack (sub_trans rfl hM) ?_
      | with_reducible refine on_ite ?_ ?_
      | intro _
      | split
      | dsimp only

theorem on_cacheBlock {M : List StateField} {t : Nat} {emb : Bool} {b cam : Nat} {data : List Byte} {dirty : Bool} (hM : ([.regs, .rings, .mem, .codingMap, .crcDiff, .held, .heldNext, .buffered, .tlb, .lcSlots, .lcWait, .lcFill, .trust, .tcache, .flog, .flogN, .free, .out] : List StateField) ⊆ M) :
 (cacheBlock t emb b cam data dirty).only (Within M) := by
  unfold cacheBlock
  repeat' first
    | with_reducible exact on_done
    | with_reducible refine on_look fun _ => ?_
    | with_reducible exact on_eff hM rfl
    | with_reducible refine on_cacheRoom (sub_trans rfl hM) ?_
    | with_reducible refine only_whenA fun _ => ?_
    | intro _
    | dsimp only

theorem on_touchCam {M : List StateField} {t cam : Nat} (hM : ([.track, .tcam] : List StateField) ⊆ M) :
 (touchCam t cam).only (Within M) := by
  unfold touchCam
  repeat' first
    | with_reducible exact on_done
    | with_reducible refine on_look fun _ => ?_
    | with_reducible exact on_eff hM rfl
    | with_reducible refine on_seq ?_ ?_
    | with_reducible refine on_updTrack (sub_trans rfl hM)
    | intro _
    | dsimp only

theorem on_tringModerate {M : List StateField} {t : Nat} (hM : ([.regs, .trings, .out] : List StateField) ⊆ M) :
 (tringModerate t).only (Within M) := by
  unfold tringModerate
  repeat' first
    | with_reducible exact on_done
    | with_reducible refine on_look fun _ => ?_
    | with_reducible exact on_eff hM rfl
    | with_reducible refine on_seq ?_ ?_
    | with_reducible refine on_raiseIrq (sub_trans rfl hM)
    | with_reducible refine only_whenA fun _ => ?_
    | intro _
    | dsimp only

theorem on_tringWrite {M : List StateField} {t : Nat} {body : List Byte} (hM : ([.regs, .trings, .out] : List StateField) ⊆ M) :
 (tringWrite t body).only (Within M) := by
  unfold tringWrite
  repeat' first
    | with_reducible exact on_done
    | with_reducible refine on_look fun _ => ?_
    | with_reducible exact on_nil
    | with_reducible refine on_cons ?_ ?_
    | with_reducible exact on_eff hM rfl
    | with_reducible refine on_setRegN (sub_trans rfl hM)
    | with_reducible refine on_bump (sub_trans rfl hM)
    | with_reducible refine on_tringModerate (sub_trans rfl hM)
    | with_reducible refine on_ite ?_ ?_
    | intro _
    | dsimp only

theorem on_tringPut {M : List StateField} {t : Nat} {body : List Byte} (hM : ([.regs, .trings, .free, .out] : List StateField) ⊆ M) :
 (tringPut t body).only (Within M) := by
  unfold tringPut
  repeat' first
    | with_reducible exact on_done
    | with_reducible refine on_look fun _ => ?_
    | with_reducible exact on_nil
    | with_reducible refine on_cons ?_ ?_
    | with_reducible exact on_eff hM rfl
    | with_reducible refine on_setRegN (sub_trans rfl hM)
    | with_reducible refine on_withFree (sub_trans rfl hM) ?_
    | with_reducible refine on_recordQuiet (sub_trans rfl hM)
    | with_reducible refine on_tringWrite (sub_trans rfl hM)
    | with_reducible refine on_ite ?_ ?_
    | intro _
    | dsimp only

theorem on_recEntry {M : List StateField} {t kind reason i cost capture : Nat} {r : TrackRec} {tail : List Byte} (hM : ([.regs, .trings, .free, .out] : List StateField) ⊆ M) :
 (recEntry t kind reason i cost capture r tail).only (Within M) := by
  unfold recEntry
  repeat' first
    | with_reducible exact on_done
    | with_reducible refine on_look fun _ => ?_
    | with_reducible exact on_eff hM rfl
    | with_reducible refine on_tringPut (sub_trans rfl hM)
    | dsimp only

theorem on_freeRec {M : List StateField} {t i : Nat} (hM : ([.track, .tblk, .tcache] : List StateField) ⊆ M) :
 (freeRec t i).only (Within M) := by
  unfold freeRec
  repeat' first
    | with_reducible exact on_done
    | with_reducible refine on_look fun _ => ?_
    | with_reducible exact on_nil
    | with_reducible refine on_cons ?_ ?_
    | with_reducible exact on_eff hM rfl
    | with_reducible refine on_putRec (sub_trans rfl hM)
    | with_reducible refine on_updTrack (sub_trans rfl hM)
    | with_reducible refine on_ite ?_ ?_
    | intro _
    | dsimp only

theorem on_endTrack {M : List StateField} {t i reason capture : Nat} {r : TrackRec} {tail : List Byte} (hM : ([.regs, .track, .tblk, .tcache, .trings, .free, .out] : List StateField) ⊆ M) :
 (endTrack t i reason capture r tail).only (Within M) := by
  unfold endTrack
  repeat' first
    | with_reducible exact on_done
    | with_reducible refine on_look fun _ => ?_
    | with_reducible exact on_nil
    | with_reducible refine on_cons ?_ ?_
    | with_reducible exact on_eff hM rfl
    | with_reducible refine on_recEntry (sub_trans rfl hM)
    | with_reducible refine on_bump (sub_trans rfl hM)
    | with_reducible refine on_freeRec (sub_trans rfl hM)
    | dsimp only

theorem on_withRecords {M : List StateField} {t : Nat} {emb : Bool} {b : Nat} {data : List Byte} {k : List Byte → Act} (hM : ([.regs, .rings, .mem, .codingMap, .crcDiff, .buffered, .tlb, .lcSlots, .free, .out] : List StateField) ⊆ M) (h0 : ∀ x0, (k x0).only (Within M)) :
 (withRecords t emb b data k).only (Within M) := by
  unfold withRecords
  repeat' first
    | with_reducible exact on_done
    | with_reducible refine on_look fun _ => ?_
    | with_reducible exact on_eff hM rfl
    | with_reducible exact h0 _
    | with_reducible refine on_virtRead (sub_trans rfl hM) ?_
    | with_reducible refine on_ite ?_ ?_
    | intro _
    | split
    | dsimp only

theorem on_loseBlock {M : List StateField} {t : Nat} {emb : Bool} {b : Nat} {data : List Byte} (hM : ([.regs, .rings, .mem, .codingMap, .crcDiff, .held, .heldNext, .buffered, .tlb, .lcSlots, .lcWait, .lcFill, .trust, .track, .tblk, .tcache, .trings, .flog, .flogN, .free, .out] : List StateField) ⊆ M) :
 (loseBlock t emb b data).only (Within M) := by
  unfold loseBlock
  repeat' first
    | with_reducible exact on_done
    | with_reducible refine on_look fun _ => ?_
    | with_reducible exact on_nil
    | with_reducible refine on_cons ?_ ?_
    | with_reducible exact on_eff hM rfl
    | with_reducible refine on_withRecords (sub_trans rfl hM) ?_
    | with_reducible refine on_endTrack (sub_trans rfl hM)
    | with_reducible refine on_writeBack (sub_trans rfl hM) ?_
    | with_reducible refine on_recordErr (sub_trans rfl hM)
    | with_reducible refine on_bump (sub_trans rfl hM)
    | with_reducible refine on_pageEvent (sub_trans rfl hM)
    | with_reducible refine only_forA fun _ _ => ?_
    | intro _
    | dsimp only

theorem on_fillBlock {M : List StateField} {t : Nat} {emb : Bool} {b : Nat} {changes : List (Nat × Byte)} (hM : ([.regs, .rings, .mem, .codingMap, .crcDiff, .held, .heldNext, .buffered, .tlb, .lcSlots, .lcWait, .lcFill, .trust, .track, .tblk, .tcache, .tcam, .trings, .flog, .flogN, .free, .out] : List StateField) ⊆ M) :
 (fillBlock t emb b changes).only (Within M) := by
  unfold fillBlock
  repeat' first
    | with_reducible exact on_done
    | with_reducible refine on_look fun _ => ?_
    | with_reducible exact on_nil
    | with_reducible refine on_cons ?_ ?_
    | with_reducible exact on_eff hM rfl
    | with_reducible refine on_translate (sub_trans rfl hM) ?_
    | with_reducible refine on_touchCam (sub_trans rfl hM)
    | with_reducible refine on_bump (sub_trans rfl hM)
    | with_reducible refine on_upsetBillet (sub_trans rfl hM)
    | with_reducible refine on_virtRead (sub_trans rfl hM) ?_
    | with_reducible refine on_cacheBlock (sub_trans rfl hM)
    | with_reducible refine on_loseBlock (sub_trans rfl hM)
    | with_reducible refine on_partFault (sub_trans rfl hM)
    | with_reducible refine only_whenA fun _ => ?_
    | intro _
    | split
    | dsimp only

theorem on_fillStand {M : List StateField} {t cam : Nat} (hM : ([.regs, .rings, .mem, .codingMap, .crcDiff, .held, .heldNext, .buffered, .tlb, .lcSlots, .lcWait, .lcFill, .trust, .track, .tblk, .tcache, .tcam, .trings, .flog, .flogN, .free, .out] : List StateField) ⊆ M) :
 (fillStand t cam).only (Within M) := by
  unfold fillStand
  repeat' first
    | with_reducible exact on_done
    | with_reducible refine on_look fun _ => ?_
    | with_reducible exact on_eff hM rfl
    | with_reducible refine on_seq ?_ ?_
    | with_reducible refine on_fillBlock (sub_trans rfl hM)
    | with_reducible refine only_forA fun _ _ => ?_
    | intro _
    | dsimp only

theorem on_fillRec {M : List StateField} {t cam i : Nat} {r : TrackRec} {emb : List Byte} (hM : ([.regs, .rings, .mem, .codingMap, .crcDiff, .held, .heldNext, .buffered, .tlb, .lcSlots, .lcWait, .lcFill, .trust, .tblk, .tcache, .flog, .flogN, .free, .out] : List StateField) ⊆ M) :
 (fillRec t cam i r emb).only (Within M) := by
  unfold fillRec
  repeat' first
    | with_reducible exact on_done
    | with_reducible refine on_look fun _ => ?_
    | with_reducible exact on_nil
    | with_reducible refine on_cons ?_ ?_
    | with_reducible exact on_eff hM rfl
    | with_reducible refine on_seq ?_ ?_
    | with_reducible refine on_cacheBlock (sub_trans rfl hM)
    | with_reducible refine on_putRec (sub_trans rfl hM)
    | with_reducible refine on_putCached (sub_trans rfl hM)
    | with_reducible refine only_whenA fun _ => ?_
    | intro _
    | dsimp only

theorem on_newRec {M : List StateField} {t cam : Nat} {r : TrackRec} {emb : List Byte} {none_ : Act} {k : Nat → Act} (hM : ([.regs, .rings, .mem, .codingMap, .crcDiff, .held, .heldNext, .buffered, .tlb, .lcSlots, .lcWait, .lcFill, .trust, .tblk, .tcache, .flog, .flogN, .free, .out] : List StateField) ⊆ M) (h0 : none_.only (Within M)) (h1 : ∀ x0, (k x0).only (Within M)) :
 (newRec t cam r emb none_ k).only (Within M) := by
  unfold newRec
  repeat' first
    | with_reducible exact on_done
    | with_reducible refine on_look fun _ => ?_
    | with_reducible exact on_eff hM rfl
    | with_reducible refine on_seq ?_ ?_
    | with_reducible exact h0
    | with_reducible exact h1 _
    | with_reducible refine on_fillRec (sub_trans rfl hM)
    | intro _
    | split
    | dsimp only

theorem on_newIdent {M : List StateField} {k : Nat → Act} (hM : ([.track] : List StateField) ⊆ M) (h0 : ∀ x0, (k x0).only (Within M)) :
 (newIdent k).only (Within M) := by
  unfold newIdent
  repeat' first
    | with_reducible exact on_done
    | with_reducible refine on_look fun _ => ?_
    | with_reducible exact on_eff hM rfl
    | with_reducible refine on_seq ?_ ?_
    | with_reducible exact h0 _
    | with_reducible refine on_updTrack (sub_trans rfl hM)
    | intro _
    | dsimp only

theorem on_trackLost {M : List StateField} (hM : ([.regs, .rings, .free, .out] : List StateField) ⊆ M) :
 (trackLost ).only (Within M) := by
  unfold trackLost
  repeat' first
    | with_reducible exact on_done
    | with_reducible refine on_look fun _ => ?_
    | with_reducible exact on_nil
    | with_reducible refine on_cons ?_ ?_
    | with_reducible exact on_eff hM rfl
    | with_reducible refine on_recordErr (sub_trans rfl hM)
    | with_reducible refine on_bump (sub_trans rfl hM)
    | with_reducible refine on_raiseIrq (sub_trans rfl hM)
    | dsimp only

theorem on_sendTrack {M : List StateField} {dst len kind : Nat} {fields : List Nat} (hM : ([.regs, .rings, .ports, .remotes, .free, .out] : List StateField) ⊆ M) :
 (sendTrack dst len kind fields).only (Within M) := by
  unfold sendTrack
  repeat' first
    | with_reducible exact on_done
    | with_reducible refine on_look fun _ => ?_
    | with_reducible exact on_eff hM rfl
    | with_reducible refine on_seq ?_ ?_
    | with_reducible refine on_sendRemote (sub_trans rfl hM) ?_
    | with_reducible refine on_trackLost (sub_trans rfl hM)
    | intro _
    | dsimp only

theorem on_withFreeBytes {M : List StateField} {a0 : Nat} {a1 : List Byte} {a2 : List Byte → Act} (hM : ([.free] : List StateField) ⊆ M) (h0 : ∀ x0, (a2 x0).only (Within M)) :
 (withFreeBytes a0 a1 a2).only (Within M) := by
  induction a0 generalizing a1 with
  | zero =>
    unfold withFreeBytes
    repeat' first
      | with_reducible exact on_done
      | with_reducible refine on_look fun _ => ?_
      | with_reducible exact on_eff hM rfl
      | with_reducible exact h0 _
      | dsimp only
  | succ _ ih =>
    unfold withFreeBytes
    repeat' first
      | with_reducible exact on_done
      | with_reducible refine on_look fun _ => ?_
      | with_reducible exact on_eff hM rfl
      | with_reducible exact h0 _
      | with_reducible exact ih
      | with_reducible refine on_withFree (sub_trans rfl hM) ?_
      | intro _
      | dsimp only

theorem on_storeOffer {M : List StateField} {o : OfferMsg} (hM : ([.regs, .rings, .mem, .codingMap, .crcDiff, .held, .heldNext, .buffered, .lcSlots, .lcWait, .lcFill, .trust, .track, .free, .out] : List StateField) ⊆ M) :
 (storeOffer o).only (Within M) := by
  unfold storeOffer
  repeat' first
    | with_reducible exact on_done
    | with_reducible refine on_look fun _ => ?_
    | with_reducible exact on_nil
    | with_reducible refine on_cons ?_ ?_
    | with_reducible exact on_eff hM rfl
    | with_reducible refine on_seq ?_ ?_
    | with_reducible refine on_bump (sub_trans rfl hM)
    | with_reducible refine on_updTrack (sub_trans rfl hM)
    | with_reducible refine on_recordErr (sub_trans rfl hM)
    | with_reducible refine on_raiseIrq (sub_trans rfl hM)
    | with_reducible refine on_withFreeBytes (sub_trans rfl hM) ?_
    | with_reducible refine on_physWrite (sub_trans rfl hM)
    | with_reducible refine only_whenA fun _ => ?_
    | intro _
    | dsimp only

theorem on_dropOffers {M : List StateField} {ident : Nat} (hM : ([.track] : List StateField) ⊆ M) :
 (dropOffers ident).only (Within M) := by
  unfold dropOffers
  repeat' first
    | with_reducible exact on_done
    | with_reducible refine on_look fun _ => ?_
    | with_reducible exact on_eff hM rfl
    | with_reducible refine on_updTrack (sub_trans rfl hM)
    | intro _
    | dsimp only

theorem on_renameRec {M : List StateField} {ident : Nat} (hM : ([.regs, .rings, .mem, .codingMap, .crcDiff, .held, .heldNext, .buffered, .tlb, .lcSlots, .lcWait, .lcFill, .trust, .track, .tblk, .tcache, .tcam, .trings, .flog, .flogN, .free, .out] : List StateField) ⊆ M) :
 (renameRec ident).only (Within M) := by
  unfold renameRec
  repeat' first
    | with_reducible exact on_done
    | with_reducible refine on_look fun _ => ?_
    | with_reducible exact on_nil
    | with_reducible refine on_cons ?_ ?_
    | with_reducible exact on_eff hM rfl
    | with_reducible refine on_fillBlock (sub_trans rfl hM)
    | with_reducible refine on_newIdent (sub_trans rfl hM) ?_
    | with_reducible refine on_putRec (sub_trans rfl hM)
    | with_reducible refine on_updTrack (sub_trans rfl hM)
    | with_reducible refine on_withFree (sub_trans rfl hM) ?_
    | with_reducible refine on_recEntry (sub_trans rfl hM)
    | with_reducible refine only_whenA fun _ => ?_
    | with_reducible refine only_optA fun _ _ => ?_
    | intro _
    | dsimp only

theorem on_noteTaken {M : List StateField} {ident taker : Nat} (hM : ([.regs, .rings, .mem, .codingMap, .crcDiff, .held, .heldNext, .buffered, .tlb, .lcSlots, .lcWait, .lcFill, .ports, .remotes, .trust, .track, .tblk, .tcache, .tcam, .trings, .flog, .flogN, .free, .out] : List StateField) ⊆ M) :
 (noteTaken ident taker).only (Within M) := by
  unfold noteTaken
  repeat' first
    | with_reducible exact on_done
    | with_reducible refine on_look fun _ => ?_
    | with_reducible exact on_nil
    | with_reducible refine on_cons ?_ ?_
    | with_reducible exact on_eff hM rfl
    | with_reducible refine on_renameRec (sub_trans rfl hM)
    | with_reducible refine on_sendTrack (sub_trans rfl hM)
    | with_reducible refine on_updTrack (sub_trans rfl hM)
    | with_reducible refine on_bump (sub_trans rfl hM)
    | with_reducible refine on_withFree (sub_trans rfl hM) ?_
    | with_reducible refine on_tringPut (sub_trans rfl hM)
    | with_reducible refine on_dropOffers (sub_trans rfl hM)
    | with_reducible refine on_ite ?_ ?_
    | with_reducible refine only_optA fun _ _ => ?_
    | with_reducible refine only_forA fun _ _ => ?_
    | intro _
    | dsimp only

theorem on_endTrackJob {M : List StateField} {n code : Nat} (hM : ([.regs, .rings, .jobs, .free, .out] : List StateField) ⊆ M) :
 (endTrackJob n code).only (Within M) := by
  unfold endTrackJob
  repeat' first
    | with_reducible exact on_done
    | with_reducible refine on_look fun _ => ?_
    | with_reducible exact on_eff hM rfl
    | with_reducible refine on_seq ?_ ?_
    | with_reducible refine on_recordErr (sub_trans rfl hM)
    | with_reducible refine on_completeJob (sub_trans rfl hM) ?_
    | with_reducible refine on_jobEvent (sub_trans rfl hM)
    | with_reducible refine on_ite ?_ ?_
    | with_reducible refine only_whenA fun _ => ?_
    | with_reducible refine only_optA fun _ _ => ?_
    | intro _
    | dsimp only

end Sys2Proof.Machine
end

