-- ==== Sys2Proof/Laws/FieldsChain.lean ====
section
/-! SUPPORT. The fields that the acts of Machine/Chain.lean may change. -/

namespace Sys2Proof.Machine

theorem on_portTo {M : List StateField} {p dst code : Nat} (hM : ([.regs, .rings, .free, .out] : List StateField) ⊆ M) :
 (portTo p dst code).only (Within M) := by
  unfold portTo
  repeat' first
    | with_reducible exact on_done
    | with_reducible refine on_look fun _ => ?_
    | with_reducible exact on_nil
    | with_reducible refine on_cons ?_ ?_
    | with_reducible exact on_eff hM rfl
    | with_reducible refine on_setFld (sub_trans rfl hM)
    | with_reducible refine on_raiseIrq (sub_trans rfl hM)
    | with_reducible refine on_pageEvent (sub_trans rfl hM)
    | with_reducible refine only_whenA fun _ => ?_
    | intro _
    | dsimp only

theorem on_failRemote {M : List StateField} {r : RemoteReq} {status : Nat} (hM : ([.regs, .shadows, .commits, .units, .rings, .mem, .codingMap, .crcDiff, .held, .heldNext, .buffered, .tlb, .lcSlots, .lcWait, .lcFill, .sp, .arrays, .engines, .ctxs, .entries, .entryNext, .lanes, .ports, .remotes, .windows, .layers, .trust, .owed, .phase, .tripHold, .ruin, .relock, .faultsAt, .flog, .flogN, .free, .out] : List StateField) ⊆ M) :
 (failRemote r status).only (Within M) := by
  unfold failRemote
  repeat' first
    | with_reducible exact on_done
    | with_reducible refine on_look fun _ => ?_
    | with_reducible exact on_eff hM rfl
    | with_reducible refine on_endRemote (sub_trans rfl hM)
    | with_reducible refine on_trackLost (sub_trans rfl hM)
    | split
    | dsimp only

theorem on_dropArrivalsOf {M : List StateField} {p : Nat} (hM : ([.arrays, .windows] : List StateField) ⊆ M) :
 (dropArrivalsOf p).only (Within M) := by
  unfold dropArrivalsOf
  repeat' first
    | with_reducible exact on_done
    | with_reducible refine on_look fun _ => ?_
    | with_reducible exact on_eff hM rfl
    | with_reducible refine on_seq ?_ ?_
    | with_reducible refine on_updArr (sub_trans rfl hM)
    | with_reducible refine on_updWin (sub_trans rfl hM)
    | with_reducible refine on_ite ?_ ?_
    | with_reducible refine only_forA fun _ _ => ?_
    | intro _
    | dsimp only

theorem on_portDown {M : List StateField} {p code : Nat} {fault : Bool} (hM : ([.regs, .shadows, .commits, .units, .rings, .mem, .codingMap, .crcDiff, .held, .heldNext, .buffered, .tlb, .lcSlots, .lcWait, .lcFill, .sp, .arrays, .engines, .ctxs, .entries, .entryNext, .lanes, .ports, .remotes, .windows, .layers, .trust, .owed, .phase, .tripHold, .ruin, .relock, .faultsAt, .flog, .flogN, .free, .out] : List StateField) ⊆ M) :
 (portDown p code fault).only (Within M) := by
  unfold portDown
  repeat' first
    | with_reducible exact on_done
    | with_reducible refine on_look fun _ => ?_
    | with_reducible exact on_nil
    | with_reducible refine on_cons ?_ ?_
    | with_reducible exact on_eff hM rfl
    | with_reducible refine on_seq ?_ ?_
    | with_reducible refine on_portTo (sub_trans rfl hM)
    | with_reducible refine on_flog (sub_trans rfl hM)
    | with_reducible refine on_trackLost (sub_trans rfl hM)
    | with_reducible refine on_returnCredit (sub_trans rfl hM)
    | with_reducible refine on_updPort (sub_trans rfl hM)
    | with_reducible refine on_setRegN (sub_trans rfl hM)
    | with_reducible refine on_dropArrivalsOf (sub_trans rfl hM)
    | with_reducible refine on_failRemote (sub_trans rfl hM)
    | with_reducible refine on_ite ?_ ?_
    | with_reducible refine only_whenA fun _ => ?_
    | with_reducible refine only_optA fun _ _ => ?_
    | with_reducible refine only_forA fun _ _ => ?_
    | intro _
    | dsimp only

theorem on_actPortTrain {M : List StateField} {f : Func} {p : Nat} (hM : ([.regs, .rings, .free, .out] : List StateField) ⊆ M) :
 (actPortTrain f p).only (Within M) := by
  unfold actPortTrain
  repeat' first
    | with_reducible exact on_done
    | with_reducible refine on_look fun _ => ?_
    | with_reducible exact on_eff hM rfl
    | with_reducible refine on_withWrite (sub_trans rfl hM) ?_
    | with_reducible refine on_portTo (sub_trans rfl hM)
    | with_reducible refine only_whenA fun _ => ?_
    | intro _
    | dsimp only

theorem on_actPortDown {M : List StateField} {f : Func} {p : Nat} (hM : ([.regs, .shadows, .commits, .units, .rings, .mem, .codingMap, .crcDiff, .held, .heldNext, .buffered, .tlb, .lcSlots, .lcWait, .lcFill, .sp, .arrays, .engines, .ctxs, .entries, .entryNext, .lanes, .ports, .remotes, .windows, .layers, .trust, .owed, .phase, .tripHold, .ruin, .relock, .faultsAt, .flog, .flogN, .free, .out] : List StateField) ⊆ M) :
 (actPortDown f p).only (Within M) := by
  unfold actPortDown
  repeat' first
    | with_reducible exact on_done
    | with_reducible refine on_look fun _ => ?_
    | with_reducible exact on_eff hM rfl
    | with_reducible refine on_withWrite (sub_trans rfl hM) ?_
    | with_reducible refine on_portTo (sub_trans rfl hM)
    | with_reducible refine on_portDown (sub_trans rfl hM)
    | with_reducible refine on_ite ?_ ?_
    | intro _
    | dsimp only

theorem on_actPortTrainingDone {M : List StateField} {p : Fin 2} {lanes : BitVec 8} (hM : ([.regs, .rings, .ports, .flog, .flogN, .free, .out] : List StateField) ⊆ M) :
 (actPortTrainingDone p lanes).only (Within M) := by
  unfold actPortTrainingDone
  repeat' first
    | with_reducible exact on_done
    | with_reducible refine on_look fun _ => ?_
    | with_reducible exact on_nil
    | with_reducible refine on_cons ?_ ?_
    | with_reducible exact on_eff hM rfl
    | with_reducible refine on_seq ?_ ?_
    | with_reducible refine on_setFld (sub_trans rfl hM)
    | with_reducible refine on_pageErr (sub_trans rfl hM)
    | with_reducible refine on_portTo (sub_trans rfl hM)
    | with_reducible refine on_flog (sub_trans rfl hM)
    | with_reducible refine on_setRegN (sub_trans rfl hM)
    | with_reducible refine on_sendFrame (sub_trans rfl hM)
    | with_reducible refine on_ite ?_ ?_
    | with_reducible refine only_whenA fun _ => ?_
    | intro _
    | dsimp only

theorem on_actChIdWrite {M : List StateField} {f : Func} {v : Word} (hM : ([.regs, .rings, .free, .out] : List StateField) ⊆ M) :
 (actChIdWrite f v).only (Within M) := by
  unfold actChIdWrite
  repeat' first
    | with_reducible exact on_done
    | with_reducible refine on_look fun _ => ?_
    | with_reducible exact on_eff hM rfl
    | with_reducible refine on_withWrite (sub_trans rfl hM) ?_
    | with_reducible refine on_setReg (sub_trans rfl hM)
    | with_reducible refine on_pageErr (sub_trans rfl hM)
    | with_reducible refine on_ite ?_ ?_
    | intro _
    | dsimp only

theorem on_sendAck {M : List StateField} {p : Fin 2} (hM : ([.ports, .out] : List StateField) ⊆ M) :
 (sendAck p).only (Within M) := by
  unfold sendAck
  repeat' first
    | with_reducible exact on_done
    | with_reducible refine on_look fun _ => ?_
    | with_reducible exact on_eff hM rfl
    | with_reducible refine on_seq ?_ ?_
    | with_reducible refine on_updPort (sub_trans rfl hM)
    | with_reducible refine on_sendControl (sub_trans rfl hM)
    | intro _
    | dsimp only

theorem on_rejectFrame {M : List StateField} {p : Fin 2} (hM : ([.regs, .rings, .ports, .free, .out] : List StateField) ⊆ M) :
 (rejectFrame p).only (Within M) := by
  unfold rejectFrame
  repeat' first
    | with_reducible exact on_done
    | with_reducible refine on_look fun _ => ?_
    | with_reducible exact on_nil
    | with_reducible refine on_cons ?_ ?_
    | with_reducible exact on_eff hM rfl
    | with_reducible refine on_seq ?_ ?_
    | with_reducible refine on_bump (sub_trans rfl hM)
    | with_reducible refine on_pageErr (sub_trans rfl hM)
    | with_reducible refine on_updPort (sub_trans rfl hM)
    | with_reducible refine on_sendControl (sub_trans rfl hM)
    | with_reducible refine only_whenA fun _ => ?_
    | intro _
    | dsimp only

theorem on_receive {M : List StateField} {p : Fin 2} {frame : List Byte} {want : State → Header → Bool} {k : Header → List Byte → Act} (hM : ([.regs, .rings, .ports, .free, .out] : List StateField) ⊆ M) (h0 : ∀ x0 x1, (k x0 x1).only (Within M)) :
 (receive p frame want k).only (Within M) := by
  unfold receive
  repeat' first
    | with_reducible exact on_done
    | with_reducible refine on_look fun _ => ?_
    | with_reducible exact on_nil
    | with_reducible refine on_cons ?_ ?_
    | with_reducible exact on_eff hM rfl
    | with_reducible refine on_seq ?_ ?_
    | with_reducible exact h0 _ _
    | with_reducible refine on_updPort (sub_trans rfl hM)
    | with_reducible refine on_bump (sub_trans rfl hM)
    | with_reducible refine on_sendAck (sub_trans rfl hM)
    | with_reducible refine on_rejectFrame (sub_trans rfl hM)
    | with_reducible refine on_pageErr (sub_trans rfl hM)
    | with_reducible refine on_returnCredit (sub_trans rfl hM)
    | with_reducible refine on_ite ?_ ?_
    | with_reducible refine only_whenA fun _ => ?_
    | intro _
    | dsimp only

theorem on_receiveControl {M : List StateField} {p : Fin 2} {frame : List Byte} {typ : Nat} {k : Nat → Act} (hM : ([.regs, .rings, .ports, .free, .out] : List StateField) ⊆ M) (h0 : ∀ x0, (k x0).only (Within M)) :
 (receiveControl p frame typ k).only (Within M) := by
  unfold receiveControl
  repeat' first
    | with_reducible exact on_done
    | with_reducible refine on_look fun _ => ?_
    | with_reducible exact on_eff hM rfl
    | with_reducible exact h0 _
    | with_reducible refine on_rejectFrame (sub_trans rfl hM)
    | with_reducible refine on_ite ?_ ?_
    | with_reducible refine only_whenA fun _ => ?_
    | intro _
    | dsimp only

theorem on_ackFrames {M : List StateField} {p : Fin 2} {last : Nat} (hM : ([.regs, .ports, .out] : List StateField) ⊆ M) :
 (ackFrames p last).only (Within M) := by
  unfold ackFrames
  repeat' first
    | with_reducible exact on_done
    | with_reducible refine on_look fun _ => ?_
    | with_reducible exact on_eff hM rfl
    | with_reducible refine on_seq ?_ ?_
    | with_reducible refine on_updPort (sub_trans rfl hM)
    | with_reducible refine on_drainPort (sub_trans rfl hM)
    | with_reducible refine only_whenA fun _ => ?_
    | intro _
    | dsimp only

theorem on_replayAll {M : List StateField} {p : Fin 2} (hM : ([.regs, .shadows, .commits, .units, .rings, .mem, .codingMap, .crcDiff, .held, .heldNext, .buffered, .tlb, .lcSlots, .lcWait, .lcFill, .sp, .arrays, .engines, .ctxs, .entries, .entryNext, .lanes, .ports, .remotes, .windows, .layers, .trust, .owed, .phase, .tripHold, .ruin, .relock, .faultsAt, .flog, .flogN, .free, .out] : List StateField) ⊆ M) :
 (replayAll p).only (Within M) := by
  unfold replayAll
  repeat' first
    | with_reducible exact on_done
    | with_reducible refine on_look fun _ => ?_
    | with_reducible exact on_nil
    | with_reducible refine on_cons ?_ ?_
    | with_reducible exact on_eff hM rfl
    | with_reducible refine on_seq ?_ ?_
    | with_reducible refine on_pageErr (sub_trans rfl hM)
    | with_reducible refine on_portDown (sub_trans rfl hM)
    | with_reducible refine on_updPort (sub_trans rfl hM)
    | with_reducible refine on_bump (sub_trans rfl hM)
    | with_reducible refine on_ite ?_ ?_
    | with_reducible refine only_forA fun _ _ => ?_
    | intro _
    | dsimp only

theorem on_actCredit {M : List StateField} {p : Fin 2} {w : Nat} (hM : ([.regs, .ports, .out] : List StateField) ⊆ M) :
 (actCredit p w).only (Within M) := by
  unfold actCredit
  repeat' first
    | with_reducible exact on_done
    | with_reducible refine on_look fun _ => ?_
    | with_reducible exact on_eff hM rfl
    | with_reducible refine on_seq ?_ ?_
    | with_reducible refine on_setFld (sub_trans rfl hM)
    | with_reducible refine on_drainPort (sub_trans rfl hM)
    | with_reducible refine only_whenA fun _ => ?_
    | intro _
    | dsimp only

theorem on_actHello {M : List StateField} {p : Fin 2} {frame : List Byte} {count : Nat} {root : BitVec 64} (hM : ([.regs, .rings, .ports, .free, .out] : List StateField) ⊆ M) :
 (actHello p frame count root).only (Within M) := by
  unfold actHello
  repeat' first
    | with_reducible exact on_done
    | with_reducible refine on_look fun _ => ?_
    | with_reducible exact on_nil
    | with_reducible refine on_cons ?_ ?_
    | with_reducible exact on_eff hM rfl
    | with_reducible refine on_receive (sub_trans rfl hM) ?_
    | with_reducible refine on_returnCredit (sub_trans rfl hM)
    | with_reducible refine on_setFld (sub_trans rfl hM)
    | with_reducible refine on_pageErr (sub_trans rfl hM)
    | with_reducible refine on_portTo (sub_trans rfl hM)
    | with_reducible refine on_ite ?_ ?_
    | intro _
    | dsimp only

theorem on_serveWrite {M : List StateField} {p : Fin 2} {frame : List Byte} (hM : ([.regs, .rings, .mem, .codingMap, .crcDiff, .buffered, .tlb, .arrays, .ports, .windows, .free, .out] : List StateField) ⊆ M) :
 (serveWrite p frame).only (Within M) := by
  unfold serveWrite
  repeat' first
    | with_reducible exact on_done
    | with_reducible refine on_look fun _ => ?_
    | with_reducible exact on_eff hM rfl
    | with_reducible refine on_seq ?_ ?_
    | with_reducible refine on_windowWrite (sub_trans rfl hM) ?_
    | with_reducible refine on_sendCompletion (sub_trans rfl hM)
    | with_reducible refine on_returnCredit (sub_trans rfl hM)
    | with_reducible refine on_updPort (sub_trans rfl hM)
    | with_reducible refine only_whenA fun _ => ?_
    | intro _
    | split
    | dsimp only

theorem on_drainHeld {M : List StateField} {p : Fin 2} {a0 : Nat} (hM : ([.regs, .rings, .mem, .codingMap, .crcDiff, .buffered, .tlb, .arrays, .ports, .windows, .free, .out] : List StateField) ⊆ M) :
 (drainHeld p a0).only (Within M) := by
  induction a0 with
  | zero =>
    unfold drainHeld
    repeat' first
      | with_reducible exact on_done
      | with_reducible refine on_look fun _ => ?_
      | with_reducible exact on_eff hM rfl
      | dsimp only
  | succ _ ih =>
    unfold drainHeld
    repeat' first
      | with_reducible exact on_done
      | with_reducible refine on_look fun _ => ?_
      | with_reducible exact on_nil
      | with_reducible refine on_cons ?_ ?_
      | with_reducible exact on_eff hM rfl
      | with_reducible refine on_seq ?_ ?_
      | with_reducible exact ih
      | with_reducible refine on_updPort (sub_trans rfl hM)
      | with_reducible refine on_serveWrite (sub_trans rfl hM)
      | with_reducible refine on_ite ?_ ?_
      | intro _
      | split
      | dsimp only

theorem on_actWindowWrite {M : List StateField} {p : Fin 2} {frame : List Byte} (hM : ([.regs, .rings, .mem, .codingMap, .crcDiff, .buffered, .tlb, .arrays, .ports, .windows, .free, .out] : List StateField) ⊆ M) :
 (actWindowWrite p frame).only (Within M) := by
  unfold actWindowWrite
  repeat' first
    | with_reducible exact on_done
    | with_reducible refine on_look fun _ => ?_
    | with_reducible exact on_eff hM rfl
    | with_reducible refine on_seq ?_ ?_
    | with_reducible refine on_receive (sub_trans rfl hM) ?_
    | with_reducible refine on_serveWrite (sub_trans rfl hM)
    | with_reducible refine on_updPort (sub_trans rfl hM)
    | with_reducible refine on_drainHeld (sub_trans rfl hM)
    | with_reducible refine on_ite ?_ ?_
    | intro _
    | dsimp only

theorem on_actArrivalCommit {M : List StateField} {a : Nat} (hM : ([.regs, .rings, .mem, .codingMap, .crcDiff, .buffered, .tlb, .sp, .arrays, .ports, .windows, .free, .out] : List StateField) ⊆ M) :
 (actArrivalCommit a).only (Within M) := by
  unfold actArrivalCommit
  repeat' first
    | with_reducible exact on_done
    | with_reducible refine on_look fun _ => ?_
    | with_reducible exact on_eff hM rfl
    | with_reducible refine on_seq ?_ ?_
    | with_reducible refine on_updArr (sub_trans rfl hM)
    | with_reducible refine on_commitArrival (sub_trans rfl hM)
    | with_reducible refine on_drainHeld (sub_trans rfl hM)
    | with_reducible refine only_whenA fun _ => ?_
    | intro _
    | split
    | dsimp only

theorem on_commitWinWrite {M : List StateField} {w : Nat} (hM : ([.regs, .rings, .mem, .codingMap, .crcDiff, .held, .heldNext, .buffered, .tlb, .lcSlots, .lcWait, .lcFill, .ports, .windows, .trust, .free, .out] : List StateField) ⊆ M) :
 (commitWinWrite w).only (Within M) := by
  unfold commitWinWrite
  repeat' first
    | with_reducible exact on_done
    | with_reducible refine on_look fun _ => ?_
    | with_reducible exact on_nil
    | with_reducible refine on_cons ?_ ?_
    | with_reducible exact on_eff hM rfl
    | with_reducible refine on_seq ?_ ?_
    | with_reducible refine on_updWin (sub_trans rfl hM)
    | with_reducible refine on_reachable (sub_trans rfl hM) ?_
    | with_reducible refine on_replyTo (sub_trans rfl hM)
    | with_reducible refine on_virtWrite (sub_trans rfl hM) ?_
    | with_reducible refine on_bump (sub_trans rfl hM)
    | with_reducible refine on_semAdd (sub_trans rfl hM)
    | with_reducible refine on_ite ?_ ?_
    | with_reducible refine only_whenA fun _ => ?_
    | intro _
    | split
    | dsimp only

theorem on_actWindowReadRequest {M : List StateField} {p : Fin 2} {frame : List Byte} (hM : ([.regs, .rings, .mem, .codingMap, .crcDiff, .buffered, .tlb, .lcSlots, .ports, .windows, .free, .out] : List StateField) ⊆ M) :
 (actWindowReadRequest p frame).only (Within M) := by
  unfold actWindowReadRequest
  repeat' first
    | with_reducible exact on_done
    | with_reducible refine on_look fun _ => ?_
    | with_reducible exact on_eff hM rfl
    | with_reducible refine on_seq ?_ ?_
    | with_reducible refine on_receive (sub_trans rfl hM) ?_
    | with_reducible refine on_windowRead (sub_trans rfl hM) ?_
    | with_reducible refine on_sendCompletion (sub_trans rfl hM)
    | with_reducible refine on_returnCredit (sub_trans rfl hM)
    | with_reducible refine on_ite ?_ ?_
    | intro _
    | dsimp only

theorem on_actCompletion {M : List StateField} {p : Fin 2} {frame : List Byte} (hM : ([.regs, .shadows, .commits, .units, .rings, .mem, .codingMap, .crcDiff, .held, .heldNext, .buffered, .tlb, .lcSlots, .lcWait, .lcFill, .sp, .arrays, .engines, .ctxs, .entries, .entryNext, .lanes, .ports, .remotes, .windows, .layers, .trust, .owed, .phase, .tripHold, .ruin, .relock, .faultsAt, .flog, .flogN, .free, .out] : List StateField) ⊆ M) :
 (actCompletion p frame).only (Within M) := by
  unfold actCompletion
  repeat' first
    | with_reducible exact on_done
    | with_reducible refine on_look fun _ => ?_
    | with_reducible exact on_eff hM rfl
    | with_reducible refine on_seq ?_ ?_
    | with_reducible refine on_receive (sub_trans rfl hM) ?_
    | with_reducible refine on_returnCredit (sub_trans rfl hM)
    | with_reducible refine on_endRemote (sub_trans rfl hM)
    | with_reducible refine on_trackLost (sub_trans rfl hM)
    | with_reducible refine on_ite ?_ ?_
    | with_reducible refine only_whenA fun _ => ?_
    | with_reducible refine only_optA fun _ _ => ?_
    | intro _
    | split
    | dsimp only

theorem on_actBusyRetry {M : List StateField} {ttag : Nat} (hM : ([.regs, .shadows, .commits, .units, .rings, .mem, .codingMap, .crcDiff, .held, .heldNext, .buffered, .tlb, .lcSlots, .lcWait, .lcFill, .sp, .arrays, .engines, .ctxs, .entries, .entryNext, .lanes, .ports, .remotes, .windows, .layers, .trust, .owed, .phase, .tripHold, .ruin, .relock, .faultsAt, .flog, .flogN, .free, .out] : List StateField) ⊆ M) :
 (actBusyRetry ttag).only (Within M) := by
  unfold actBusyRetry
  repeat' first
    | with_reducible exact on_done
    | with_reducible refine on_look fun _ => ?_
    | with_reducible exact on_nil
    | with_reducible refine on_cons ?_ ?_
    | with_reducible exact on_eff hM rfl
    | with_reducible refine on_seq ?_ ?_
    | with_reducible refine on_updEng (sub_trans rfl hM)
    | with_reducible refine on_sourceReq (sub_trans rfl hM) ?_
    | with_reducible refine on_keepData (sub_trans rfl hM)
    | with_reducible refine on_sendWindow (sub_trans rfl hM)
    | with_reducible refine on_deliverReq (sub_trans rfl hM)
    | with_reducible refine on_sendRemote (sub_trans rfl hM) ?_
    | with_reducible refine on_failRemote (sub_trans rfl hM)
    | with_reducible refine on_ite ?_ ?_
    | with_reducible refine only_whenA fun _ => ?_
    | with_reducible refine only_optA fun _ _ => ?_
    | intro _
    | split
    | dsimp only

theorem on_actRemoteTimeout {M : List StateField} {ttag : Nat} (hM : ([.regs, .shadows, .commits, .units, .rings, .mem, .codingMap, .crcDiff, .held, .heldNext, .buffered, .tlb, .lcSlots, .lcWait, .lcFill, .sp, .arrays, .engines, .ctxs, .entries, .entryNext, .lanes, .ports, .remotes, .windows, .layers, .trust, .owed, .phase, .tripHold, .ruin, .relock, .faultsAt, .flog, .flogN, .free, .out] : List StateField) ⊆ M) :
 (actRemoteTimeout ttag).only (Within M) := by
  unfold actRemoteTimeout
  repeat' first
    | with_reducible exact on_done
    | with_reducible refine on_look fun _ => ?_
    | with_reducible exact on_nil
    | with_reducible refine on_cons ?_ ?_
    | with_reducible exact on_eff hM rfl
    | with_reducible refine on_bump (sub_trans rfl hM)
    | with_reducible refine on_pageErr (sub_trans rfl hM)
    | with_reducible refine on_pageEvent (sub_trans rfl hM)
    | with_reducible refine on_failRemote (sub_trans rfl hM)
    | with_reducible refine only_optA fun _ _ => ?_
    | intro _
    | dsimp only

theorem on_answerUnreached {M : List StateField} {p : Fin 2} {h : Header} {status : Nat} (hM : ([.regs, .rings, .ports, .free, .out] : List StateField) ⊆ M) :
 (answerUnreached p h status).only (Within M) := by
  unfold answerUnreached
  repeat' first
    | with_reducible exact on_done
    | with_reducible refine on_look fun _ => ?_
    | with_reducible exact on_nil
    | with_reducible refine on_cons ?_ ?_
    | with_reducible exact on_eff hM rfl
    | with_reducible refine on_seq ?_ ?_
    | with_reducible refine on_bump (sub_trans rfl hM)
    | with_reducible refine on_pageErr (sub_trans rfl hM)
    | with_reducible refine on_trackLost (sub_trans rfl hM)
    | with_reducible refine on_sendCompletion (sub_trans rfl hM)
    | with_reducible refine on_returnCredit (sub_trans rfl hM)
    | with_reducible refine only_whenA fun _ => ?_
    | dsimp only

theorem on_actFrameForward {M : List StateField} {p : Fin 2} {frame : List Byte} (hM : ([.regs, .rings, .ports, .free, .out] : List StateField) ⊆ M) :
 (actFrameForward p frame).only (Within M) := by
  unfold actFrameForward
  repeat' first
    | with_reducible exact on_done
    | with_reducible refine on_look fun _ => ?_
    | with_reducible exact on_nil
    | with_reducible refine on_cons ?_ ?_
    | with_reducible exact on_eff hM rfl
    | with_reducible refine on_seq ?_ ?_
    | with_reducible refine on_receive (sub_trans rfl hM) ?_
    | with_reducible refine on_bump (sub_trans rfl hM)
    | with_reducible refine on_pageErr (sub_trans rfl hM)
    | with_reducible refine on_returnCredit (sub_trans rfl hM)
    | with_reducible refine on_answerUnreached (sub_trans rfl hM)
    | with_reducible refine on_sendFrame (sub_trans rfl hM)
    | with_reducible refine on_ite ?_ ?_
    | intro _
    | dsimp only

theorem on_trackMessage {M : List StateField} {p : Fin 2} {frame : List Byte} {len : Nat} {k : Header → Act} (hM : ([.regs, .rings, .ports, .free, .out] : List StateField) ⊆ M) (h0 : ∀ x0, (k x0).only (Within M)) :
 (trackMessage p frame len k).only (Within M) := by
  unfold trackMessage
  repeat' first
    | with_reducible exact on_done
    | with_reducible refine on_look fun _ => ?_
    | with_reducible exact on_nil
    | with_reducible refine on_cons ?_ ?_
    | with_reducible exact on_eff hM rfl
    | with_reducible exact h0 _
    | with_reducible refine on_receive (sub_trans rfl hM) ?_
    | with_reducible refine on_sendCompletion (sub_trans rfl hM)
    | with_reducible refine on_returnCredit (sub_trans rfl hM)
    | intro _
    | dsimp only

end Sys2Proof.Machine
end

