-- ==== Sys2Proof/Laws/FieldsRaster.lean ====
section
/-! SUPPORT. The fields that the acts of Machine/Raster.lean may change. -/

namespace Sys2Proof.Machine

theorem on_addHold {M : List StateField} {f : Func} {ctx slot : Nat} {d : Int} (hM : ([.regs, .rings, .mem, .codingMap, .crcDiff, .held, .heldNext, .buffered, .tlb, .lcSlots, .lcWait, .lcFill, .trust, .free, .out] : List StateField) ⊆ M) :
 (addHold f ctx slot d).only (Within M) := by
  unfold addHold
  repeat' first
    | with_reducible exact on_done
    | with_reducible refine on_look fun _ => ?_
    | with_reducible exact on_eff hM rfl
    | with_reducible refine on_virtRead (sub_trans rfl hM) ?_
    | with_reducible refine on_virtWrite (sub_trans rfl hM) ?_
    | with_reducible refine only_whenA fun _ => ?_
    | intro _
    | split
    | dsimp only

theorem on_holdPics {M : List StateField} {slot : Nat} (hM : ([.regs, .rings, .mem, .codingMap, .crcDiff, .held, .heldNext, .buffered, .tlb, .lcSlots, .lcWait, .lcFill, .layers, .trust, .free, .out] : List StateField) ⊆ M) :
 (holdPics slot).only (Within M) := by
  unfold holdPics
  repeat' first
    | with_reducible exact on_done
    | with_reducible refine on_look fun _ => ?_
    | with_reducible exact on_eff hM rfl
    | with_reducible refine on_seq ?_ ?_
    | with_reducible refine on_updLayer (sub_trans rfl hM)
    | with_reducible refine on_addHold (sub_trans rfl hM)
    | with_reducible refine only_whenA fun _ => ?_
    | with_reducible refine only_optA fun _ _ => ?_
    | with_reducible refine only_forA fun _ _ => ?_
    | intro _
    | dsimp only

theorem on_releasePics {M : List StateField} {slot : Nat} (hM : ([.regs, .rings, .mem, .codingMap, .crcDiff, .held, .heldNext, .buffered, .tlb, .lcSlots, .lcWait, .lcFill, .layers, .trust, .free, .out] : List StateField) ⊆ M) :
 (releasePics slot).only (Within M) := by
  unfold releasePics
  repeat' first
    | with_reducible exact on_done
    | with_reducible refine on_look fun _ => ?_
    | with_reducible exact on_eff hM rfl
    | with_reducible refine on_seq ?_ ?_
    | with_reducible refine on_updLayer (sub_trans rfl hM)
    | with_reducible refine on_addHold (sub_trans rfl hM)
    | with_reducible refine only_forA fun _ _ => ?_
    | intro _
    | dsimp only

theorem on_countFlagsOf {M : List StateField} {o slot frame : Nat} {b : Bracket} {tc : Int} (hM : ([.regs, .rings, .layers, .free, .out] : List StateField) ⊆ M) :
 (countFlagsOf o slot frame b tc).only (Within M) := by
  unfold countFlagsOf
  repeat' first
    | with_reducible exact on_done
    | with_reducible refine on_look fun _ => ?_
    | with_reducible exact on_nil
    | with_reducible refine on_cons ?_ ?_
    | with_reducible exact on_eff hM rfl
    | with_reducible refine on_bump (sub_trans rfl hM)
    | with_reducible refine on_updLayer (sub_trans rfl hM)
    | with_reducible refine on_raiseIrq (sub_trans rfl hM)
    | with_reducible refine on_pageEvent (sub_trans rfl hM)
    | with_reducible refine only_whenA fun _ => ?_
    | with_reducible refine only_forA fun _ _ => ?_
    | intro _
    | dsimp only

theorem on_selectBracket {M : List StateField} {o k frame slot : Nat} (hM : ([.regs, .rings, .mem, .codingMap, .crcDiff, .held, .heldNext, .buffered, .tlb, .lcSlots, .lcWait, .lcFill, .layers, .trust, .free, .out] : List StateField) ⊆ M) :
 (selectBracket o k frame slot).only (Within M) := by
  unfold selectBracket
  repeat' first
    | with_reducible exact on_done
    | with_reducible refine on_look fun _ => ?_
    | with_reducible exact on_nil
    | with_reducible refine on_cons ?_ ?_
    | with_reducible exact on_eff hM rfl
    | with_reducible refine on_updLayer (sub_trans rfl hM)
    | with_reducible refine on_countFlagsOf (sub_trans rfl hM)
    | with_reducible refine on_holdPics (sub_trans rfl hM)
    | with_reducible refine on_releasePics (sub_trans rfl hM)
    | with_reducible refine on_virtRead (sub_trans rfl hM) ?_
    | with_reducible refine on_withFree (sub_trans rfl hM) ?_
    | with_reducible refine on_recordErrI (sub_trans rfl hM)
    | with_reducible refine on_ite ?_ ?_
    | intro _
    | split
    | dsimp only

theorem on_requestLayer {M : List StateField} {o k frame slot : Nat} (hM : ([.regs, .units, .rings, .mem, .codingMap, .crcDiff, .held, .heldNext, .buffered, .tlb, .lcSlots, .lcWait, .lcFill, .sp, .arrays, .engines, .ctxs, .entries, .entryNext, .lanes, .ports, .windows, .layers, .trust, .free, .out] : List StateField) ⊆ M) :
 (requestLayer o k frame slot).only (Within M) := by
  unfold requestLayer
  repeat' first
    | with_reducible exact on_done
    | with_reducible refine on_look fun _ => ?_
    | with_reducible exact on_nil
    | with_reducible refine on_cons ?_ ?_
    | with_reducible exact on_eff hM rfl
    | with_reducible refine on_seq ?_ ?_
    | with_reducible refine on_selectBracket (sub_trans rfl hM)
    | with_reducible refine on_updLayer (sub_trans rfl hM)
    | with_reducible refine on_setRegN (sub_trans rfl hM)
    | with_reducible refine on_bump (sub_trans rfl hM)
    | with_reducible refine on_withFree (sub_trans rfl hM) ?_
    | with_reducible refine on_recordErrI (sub_trans rfl hM)
    | with_reducible refine on_virtWrite (sub_trans rfl hM) ?_
    | with_reducible refine on_queueStrip (sub_trans rfl hM)
    | with_reducible refine on_stripWriteFailed (sub_trans rfl hM)
    | with_reducible refine on_floorStrip (sub_trans rfl hM)
    | with_reducible refine on_ite ?_ ?_
    | with_reducible refine only_whenA fun _ => ?_
    | intro _
    | dsimp only

theorem on_showNextReq {M : List StateField} {o : Nat} (hM : ([.regs] : List StateField) ⊆ M) :
 (showNextReq o).only (Within M) := by
  unfold showNextReq
  repeat' first
    | with_reducible exact on_done
    | with_reducible refine on_look fun _ => ?_
    | with_reducible exact on_eff hM rfl
    | with_reducible refine on_setFld (sub_trans rfl hM)
    | with_reducible refine on_ite ?_ ?_
    | intro _
    | dsimp only

theorem on_actStripRequest {M : List StateField} {o : Fin 4} {k : Nat} {now : Dword} (hM : ([.regs, .units, .rings, .time, .mem, .codingMap, .crcDiff, .held, .heldNext, .buffered, .tlb, .lcSlots, .lcWait, .lcFill, .sp, .arrays, .engines, .ctxs, .entries, .entryNext, .lanes, .ports, .windows, .layers, .outs, .trust, .free, .out] : List StateField) ⊆ M) :
 (actStripRequest o k now).only (Within M) := by
  unfold actStripRequest
  repeat' first
    | with_reducible exact on_done
    | with_reducible refine on_look fun _ => ?_
    | with_reducible exact on_nil
    | with_reducible refine on_cons ?_ ?_
    | with_reducible exact on_eff hM rfl
    | with_reducible refine on_seq ?_ ?_
    | with_reducible refine on_tick (sub_trans rfl hM)
    | with_reducible refine on_requestLayer (sub_trans rfl hM)
    | with_reducible refine on_updOut (sub_trans rfl hM)
    | with_reducible refine on_showNextReq (sub_trans rfl hM)
    | with_reducible refine on_ite ?_ ?_
    | with_reducible refine only_optA fun _ _ => ?_
    | with_reducible refine only_forA fun _ _ => ?_
    | intro _
    | dsimp only

theorem on_actDeadlineLine {M : List StateField} {o : Fin 4} {k : Nat} {now : Dword} (hM : ([.regs, .units, .rings, .time, .sp, .arrays, .engines, .ctxs, .entries, .entryNext, .lanes, .ports, .windows, .layers, .free, .out] : List StateField) ⊆ M) :
 (actDeadlineLine o k now).only (Within M) := by
  unfold actDeadlineLine
  repeat' first
    | with_reducible exact on_done
    | with_reducible refine on_look fun _ => ?_
    | with_reducible exact on_eff hM rfl
    | with_reducible refine on_seq ?_ ?_
    | with_reducible refine on_tick (sub_trans rfl hM)
    | with_reducible refine on_updStrip (sub_trans rfl hM)
    | with_reducible refine on_handDown (sub_trans rfl hM)
    | with_reducible refine only_whenA fun _ => ?_
    | with_reducible refine only_forA fun _ _ => ?_
    | intro _
    | dsimp only

theorem on_releaseLayer {M : List StateField} {slot : Nat} (hM : ([.regs, .rings, .mem, .codingMap, .crcDiff, .held, .heldNext, .buffered, .tlb, .lcSlots, .lcWait, .lcFill, .layers, .trust, .free, .out] : List StateField) ⊆ M) :
 (releaseLayer slot).only (Within M) := by
  unfold releaseLayer
  repeat' first
    | with_reducible exact on_done
    | with_reducible refine on_look fun _ => ?_
    | with_reducible exact on_eff hM rfl
    | with_reducible refine on_seq ?_ ?_
    | with_reducible refine on_updLayer (sub_trans rfl hM)
    | with_reducible refine on_releasePics (sub_trans rfl hM)
    | intro _
    | dsimp only

theorem on_dropStrips {M : List StateField} {slot : Nat} {gone : StripRec → Bool} (hM : ([.regs, .units, .rings, .mem, .codingMap, .crcDiff, .held, .heldNext, .buffered, .tlb, .lcSlots, .lcWait, .lcFill, .sp, .arrays, .engines, .ctxs, .entries, .entryNext, .lanes, .ports, .windows, .layers, .trust, .free, .out] : List StateField) ⊆ M) :
 (dropStrips slot gone).only (Within M) := by
  unfold dropStrips
  repeat' first
    | with_reducible exact on_done
    | with_reducible refine on_look fun _ => ?_
    | with_reducible exact on_nil
    | with_reducible refine on_cons ?_ ?_
    | with_reducible exact on_eff hM rfl
    | with_reducible refine on_endStripStep (sub_trans rfl hM)
    | with_reducible refine on_updLayer (sub_trans rfl hM)
    | with_reducible refine on_releasePics (sub_trans rfl hM)
    | with_reducible refine only_whenA fun _ => ?_
    | with_reducible refine only_optA fun _ _ => ?_
    | with_reducible refine only_forA fun _ _ => ?_
    | intro _
    | dsimp only

end Sys2Proof.Machine
end

