-- ==== Sys2Proof/Laws/FieldsCommit.lean ====
section
/-! SUPPORT. The fields that the acts of Machine/Commit.lean may change. -/

namespace Sys2Proof.Machine

theorem on_groupStands {M : List StateField} {g : GroupCommit} {state : Nat} (hM : ([.regs] : List StateField) ⊆ M) :
 (groupStands g state).only (Within M) := by
  unfold groupStands
  repeat' first
    | with_reducible exact on_done
    | with_reducible refine on_look fun _ => ?_
    | with_reducible exact on_eff hM rfl
    | with_reducible refine on_setRegN (sub_trans rfl hM)
    | with_reducible refine on_ite ?_ ?_
    | with_reducible refine only_forA fun _ _ => ?_
    | intro _
    | dsimp only

theorem on_groupSettled {M : List StateField} {o : Nat} {g : GroupCommit} {applied : Bool} {code : Nat} (hM : ([.regs, .rings, .free, .out] : List StateField) ⊆ M) :
 (groupSettled o g applied code).only (Within M) := by
  unfold groupSettled
  repeat' first
    | with_reducible exact on_done
    | with_reducible refine on_look fun _ => ?_
    | with_reducible exact on_nil
    | with_reducible refine on_cons ?_ ?_
    | with_reducible exact on_eff hM rfl
    | with_reducible refine on_seq ?_ ?_
    | with_reducible refine on_setRegN (sub_trans rfl hM)
    | with_reducible refine on_raiseIrq (sub_trans rfl hM)
    | with_reducible refine on_pageEvent (sub_trans rfl hM)
    | with_reducible refine on_ite ?_ ?_
    | with_reducible refine only_forA fun _ _ => ?_
    | intro _
    | dsimp only

theorem on_layersGone {M : List StateField} {o : Nat} {video graphic : List Nat} (hM : ([.regs, .rings, .mem, .codingMap, .crcDiff, .held, .heldNext, .buffered, .tlb, .lcSlots, .lcWait, .lcFill, .layers, .trust, .free, .out] : List StateField) ⊆ M) :
 (layersGone o video graphic).only (Within M) := by
  unfold layersGone
  repeat' first
    | with_reducible exact on_done
    | with_reducible refine on_look fun _ => ?_
    | with_reducible exact on_eff hM rfl
    | with_reducible refine on_seq ?_ ?_
    | with_reducible refine on_setFld (sub_trans rfl hM)
    | with_reducible refine on_releaseLayer (sub_trans rfl hM)
    | with_reducible refine only_forA fun _ _ => ?_
    | intro _
    | dsimp only

theorem on_applyGroup {M : List StateField} {o : Nat} {g : GroupCommit} (hM : ([.regs, .rings, .mem, .codingMap, .crcDiff, .held, .heldNext, .buffered, .tlb, .lcSlots, .lcWait, .lcFill, .layers, .outs, .trust, .free, .out] : List StateField) ⊆ M) :
 (applyGroup o g).only (Within M) := by
  unfold applyGroup
  repeat' first
    | with_reducible exact on_done
    | with_reducible refine on_look fun _ => ?_
    | with_reducible exact on_nil
    | with_reducible refine on_cons ?_ ?_
    | with_reducible exact on_eff hM rfl
    | with_reducible refine on_seq ?_ ?_
    | with_reducible refine on_updOut (sub_trans rfl hM)
    | with_reducible refine on_setRegN (sub_trans rfl hM)
    | with_reducible refine on_layersGone (sub_trans rfl hM)
    | with_reducible refine on_setFld (sub_trans rfl hM)
    | with_reducible refine on_bump (sub_trans rfl hM)
    | with_reducible refine on_groupSettled (sub_trans rfl hM)
    | with_reducible refine on_ite ?_ ?_
    | with_reducible refine only_forA fun _ _ => ?_
    | intro _
    | dsimp only

theorem on_takeSet {M : List StateField} {o : Nat} {g : GroupCommit} (hM : ([.regs, .rings, .mem, .codingMap, .crcDiff, .held, .heldNext, .buffered, .tlb, .lcSlots, .lcWait, .lcFill, .layers, .outs, .trust, .free, .out] : List StateField) ⊆ M) :
 (takeSet o g).only (Within M) := by
  unfold takeSet
  repeat' first
    | with_reducible exact on_done
    | with_reducible refine on_look fun _ => ?_
    | with_reducible exact on_nil
    | with_reducible refine on_cons ?_ ?_
    | with_reducible exact on_eff hM rfl
    | with_reducible refine on_seq ?_ ?_
    | with_reducible refine on_updOut (sub_trans rfl hM)
    | with_reducible refine on_setFld (sub_trans rfl hM)
    | with_reducible refine on_applyGroup (sub_trans rfl hM)
    | with_reducible refine on_ite ?_ ?_
    | intro _
    | dsimp only

theorem on_latchSet {M : List StateField} {o : Nat} {g : GroupCommit} (hM : ([.regs, .rings, .mem, .codingMap, .crcDiff, .held, .heldNext, .buffered, .tlb, .lcSlots, .lcWait, .lcFill, .layers, .outs, .trust, .free, .out] : List StateField) ⊆ M) :
 (latchSet o g).only (Within M) := by
  unfold latchSet
  repeat' first
    | with_reducible exact on_done
    | with_reducible refine on_look fun _ => ?_
    | with_reducible exact on_nil
    | with_reducible refine on_cons ?_ ?_
    | with_reducible exact on_eff hM rfl
    | with_reducible refine on_seq ?_ ?_
    | with_reducible refine on_pageEvent (sub_trans rfl hM)
    | with_reducible refine on_updOut (sub_trans rfl hM)
    | with_reducible refine on_bump (sub_trans rfl hM)
    | with_reducible refine on_groupSettled (sub_trans rfl hM)
    | with_reducible refine on_groupStands (sub_trans rfl hM)
    | with_reducible refine on_raiseIrq (sub_trans rfl hM)
    | with_reducible refine on_takeSet (sub_trans rfl hM)
    | with_reducible refine on_ite ?_ ?_
    | with_reducible refine only_whenA fun _ => ?_
    | intro _
    | dsimp only

theorem on_endFences {M : List StateField} {named : Nat → Bool} (hM : ([.regs, .rings, .mem, .codingMap, .crcDiff, .held, .heldNext, .buffered, .tlb, .lcSlots, .lcWait, .lcFill, .layers, .outs, .trust, .free, .out] : List StateField) ⊆ M) :
 (endFences named).only (Within M) := by
  unfold endFences
  repeat' first
    | with_reducible exact on_done
    | with_reducible refine on_look fun _ => ?_
    | with_reducible exact on_eff hM rfl
    | with_reducible refine on_latchSet (sub_trans rfl hM)
    | with_reducible refine only_whenA fun _ => ?_
    | with_reducible refine only_optA fun _ _ => ?_
    | with_reducible refine only_forA fun _ _ => ?_
    | intro _
    | dsimp only

theorem on_actCommitLatch {M : List StateField} {o : Fin 4} {now : Dword} (hM : ([.regs, .rings, .time, .mem, .codingMap, .crcDiff, .held, .heldNext, .buffered, .tlb, .lcSlots, .lcWait, .lcFill, .layers, .outs, .trust, .free, .out] : List StateField) ⊆ M) :
 (actCommitLatch o now).only (Within M) := by
  unfold actCommitLatch
  repeat' first
    | with_reducible exact on_done
    | with_reducible refine on_look fun _ => ?_
    | with_reducible exact on_eff hM rfl
    | with_reducible refine on_seq ?_ ?_
    | with_reducible refine on_tick (sub_trans rfl hM)
    | with_reducible refine on_latchSet (sub_trans rfl hM)
    | with_reducible refine on_ite ?_ ?_
    | with_reducible refine only_whenA fun _ => ?_
    | with_reducible refine only_optA fun _ _ => ?_
    | intro _
    | dsimp only

theorem on_goGroup {M : List StateField} {o page : Nat} {seq : BitVec 24} (hM : ([.regs, .rings, .mem, .codingMap, .crcDiff, .held, .heldNext, .buffered, .tlb, .lcSlots, .lcWait, .lcFill, .layers, .outs, .trust, .free, .out] : List StateField) ⊆ M) :
 (goGroup o page seq).only (Within M) := by
  unfold goGroup
  repeat' first
    | with_reducible exact on_done
    | with_reducible refine on_look fun _ => ?_
    | with_reducible exact on_nil
    | with_reducible refine on_cons ?_ ?_
    | with_reducible exact on_eff hM rfl
    | with_reducible refine on_seq ?_ ?_
    | with_reducible refine on_pageErr (sub_trans rfl hM)
    | with_reducible refine on_bump (sub_trans rfl hM)
    | with_reducible refine on_groupSettled (sub_trans rfl hM)
    | with_reducible refine on_updOut (sub_trans rfl hM)
    | with_reducible refine on_groupStands (sub_trans rfl hM)
    | with_reducible refine on_raiseIrq (sub_trans rfl hM)
    | with_reducible refine on_pageEvent (sub_trans rfl hM)
    | with_reducible refine on_latchSet (sub_trans rfl hM)
    | with_reducible refine on_ite ?_ ?_
    | with_reducible refine only_whenA fun _ => ?_
    | intro _
    | split
    | dsimp only

theorem on_actDisplayGroupCommit {M : List StateField} {f : Func} {page : Nat} {seq : BitVec 24} (hM : ([.regs, .rings, .mem, .codingMap, .crcDiff, .held, .heldNext, .buffered, .tlb, .lcSlots, .lcWait, .lcFill, .layers, .outs, .trust, .free, .out] : List StateField) ⊆ M) :
 (actDisplayGroupCommit f page seq).only (Within M) := by
  unfold actDisplayGroupCommit
  repeat' first
    | with_reducible exact on_done
    | with_reducible refine on_look fun _ => ?_
    | with_reducible exact on_eff hM rfl
    | with_reducible refine on_seq ?_ ?_
    | with_reducible refine on_withWrite (sub_trans rfl hM) ?_
    | with_reducible refine on_setRegN (sub_trans rfl hM)
    | with_reducible refine on_goGroup (sub_trans rfl hM)
    | with_reducible refine only_whenA fun _ => ?_
    | with_reducible refine only_optA fun _ _ => ?_
    | intro _
    | dsimp only

theorem on_abandonGroup {M : List StateField} {o : Nat} (hM : ([.regs, .outs] : List StateField) ⊆ M) :
 (abandonGroup o).only (Within M) := by
  unfold abandonGroup
  repeat' first
    | with_reducible exact on_done
    | with_reducible refine on_look fun _ => ?_
    | with_reducible exact on_eff hM rfl
    | with_reducible refine on_seq ?_ ?_
    | with_reducible refine on_updOut (sub_trans rfl hM)
    | with_reducible refine on_groupStands (sub_trans rfl hM)
    | with_reducible refine only_optA fun _ _ => ?_
    | intro _
    | dsimp only

theorem on_discardGroup {M : List StateField} {o : Nat} (hM : ([.regs, .outs] : List StateField) ⊆ M) :
 (discardGroup o).only (Within M) := by
  unfold discardGroup
  repeat' first
    | with_reducible exact on_done
    | with_reducible refine on_look fun _ => ?_
    | with_reducible exact on_nil
    | with_reducible refine on_cons ?_ ?_
    | with_reducible exact on_eff hM rfl
    | with_reducible refine on_groupStands (sub_trans rfl hM)
    | with_reducible refine on_updOut (sub_trans rfl hM)
    | with_reducible refine only_optA fun _ _ => ?_
    | intro _
    | dsimp only

theorem on_leaveGroups {M : List StateField} {p : Nat} (hM : ([.regs, .outs] : List StateField) ⊆ M) :
 (leaveGroups p).only (Within M) := by
  unfold leaveGroups
  repeat' first
    | with_reducible exact on_done
    | with_reducible refine on_look fun _ => ?_
    | with_reducible exact on_eff hM rfl
    | with_reducible refine on_seq ?_ ?_
    | with_reducible refine on_updOut (sub_trans rfl hM)
    | with_reducible refine on_setFld (sub_trans rfl hM)
    | with_reducible refine only_whenA fun _ => ?_
    | with_reducible refine only_forA fun _ _ => ?_
    | intro _
    | dsimp only

end Sys2Proof.Machine
end

