-- ==== Sys2Proof/Laws/FieldsDisplay.lean ====
section
/-! SUPPORT. The fields that the acts of Machine/Display.lean may change. -/

namespace Sys2Proof.Machine

theorem on_flatTo {M : List StateField} {o dst : Nat} (hM : ([.regs, .rings, .free, .out] : List StateField) ⊆ M) :
 (flatTo o dst).only (Within M) := by
  unfold flatTo
  repeat' first
    | with_reducible exact on_done
    | with_reducible refine on_look fun _ => ?_
    | with_reducible exact on_nil
    | with_reducible refine on_cons ?_ ?_
    | with_reducible exact on_eff hM rfl
    | with_reducible refine on_setRegN (sub_trans rfl hM)
    | with_reducible refine on_setFld (sub_trans rfl hM)
    | with_reducible refine on_pageEvent (sub_trans rfl hM)
    | with_reducible refine only_whenA fun _ => ?_
    | with_reducible refine only_forA fun _ _ => ?_
    | intro _
    | dsimp only

theorem on_flatFrame {M : List StateField} {o : Nat} (hM : ([.regs, .rings, .outs, .free, .out] : List StateField) ⊆ M) :
 (flatFrame o).only (Within M) := by
  unfold flatFrame
  repeat' first
    | with_reducible exact on_done
    | with_reducible refine on_look fun _ => ?_
    | with_reducible exact on_nil
    | with_reducible refine on_cons ?_ ?_
    | with_reducible exact on_eff hM rfl
    | with_reducible refine on_updOut (sub_trans rfl hM)
    | with_reducible refine on_flatTo (sub_trans rfl hM)
    | with_reducible refine on_bump (sub_trans rfl hM)
    | with_reducible refine on_ite ?_ ?_
    | with_reducible refine only_whenA fun _ => ?_
    | intro _
    | dsimp only

theorem on_flatFail {M : List StateField} {o : Nat} (hM : ([.regs, .rings, .outs, .free, .out] : List StateField) ⊆ M) :
 (flatFail o).only (Within M) := by
  unfold flatFail
  repeat' first
    | with_reducible exact on_done
    | with_reducible refine on_look fun _ => ?_
    | with_reducible exact on_eff hM rfl
    | with_reducible refine on_seq ?_ ?_
    | with_reducible refine on_updOut (sub_trans rfl hM)
    | with_reducible refine on_flatTo (sub_trans rfl hM)
    | intro _
    | dsimp only

theorem on_fetchRun {M : List StateField} {kind : ClientKind} {f : Func} {k : List Byte → Option Nat → Act} {a0 : Nat} {a1 : Nat} {a2 : Nat} {a3 : List Byte} (hM : ([.regs, .rings, .mem, .codingMap, .crcDiff, .buffered, .tlb, .lcSlots, .free, .out] : List StateField) ⊆ M) (h0 : ∀ x0 x1, (k x0 x1).only (Within M)) :
 (fetchRun kind f k a0 a1 a2 a3).only (Within M) := by
  induction a0 generalizing a1 a2 a3 with
  | zero =>
    unfold fetchRun
    repeat' first
      | with_reducible exact on_done
      | with_reducible refine on_look fun _ => ?_
      | with_reducible exact on_eff hM rfl
      | with_reducible exact h0 _ _
      | dsimp only
  | succ _ ih =>
    unfold fetchRun
    repeat' first
      | with_reducible exact on_done
      | with_reducible refine on_look fun _ => ?_
      | with_reducible exact on_eff hM rfl
      | with_reducible exact h0 _ _
      | with_reducible exact ih
      | with_reducible refine on_virtRead (sub_trans rfl hM) ?_
      | with_reducible refine on_ite ?_ ?_
      | intro _
      | split
      | dsimp only

theorem on_fetchRow {M : List StateField} {kind : ClientKind} {f : Func} {va n : Nat} {k : List Byte → Option Nat → Act} (hM : ([.regs, .rings, .mem, .codingMap, .crcDiff, .buffered, .tlb, .lcSlots, .free, .out] : List StateField) ⊆ M) (h0 : ∀ x0 x1, (k x0 x1).only (Within M)) :
 (fetchRow kind f va n k).only (Within M) := by
  unfold fetchRow
  repeat' first
    | with_reducible exact on_done
    | with_reducible refine on_look fun _ => ?_
    | with_reducible exact on_eff hM rfl
    | with_reducible exact h0 _ _
    | with_reducible refine on_fetchRun (sub_trans rfl hM) ?_
    | intro _
    | dsimp only

theorem on_fetchRows {M : List StateField} {kind : ClientKind} {f : Func} {n : Nat} {k : List (Nat × List Byte) → Option Nat → Act} {a0 : List (Nat × Nat)} {a1 : List (Nat × List Byte)} {a2 : Option Nat} (hM : ([.regs, .rings, .mem, .codingMap, .crcDiff, .buffered, .tlb, .lcSlots, .free, .out] : List StateField) ⊆ M) (h0 : ∀ x0 x1, (k x0 x1).only (Within M)) :
 (fetchRows kind f n k a0 a1 a2).only (Within M) := by
  induction a0 generalizing a1 a2 with
  | nil =>
    unfold fetchRows
    repeat' first
      | with_reducible exact on_done
      | with_reducible refine on_look fun _ => ?_
      | with_reducible exact on_eff hM rfl
      | with_reducible exact h0 _ _
      | dsimp only
  | cons _ _ ih =>
    unfold fetchRows
    repeat' first
      | with_reducible exact on_done
      | with_reducible refine on_look fun _ => ?_
      | with_reducible exact on_eff hM rfl
      | with_reducible exact h0 _ _
      | with_reducible exact ih
      | with_reducible refine on_fetchRow (sub_trans rfl hM) ?_
      | intro _
      | dsimp only

theorem on_countLine {M : List StateField} {o slot line : Nat} {a : Act} (hM : ([] : List StateField) ⊆ M) (h0 : a.only (Within M)) :
 (countLine o slot line a).only (Within M) := by
  unfold countLine
  repeat' first
    | with_reducible exact on_done
    | with_reducible refine on_look fun _ => ?_
    | with_reducible exact on_eff hM rfl
    | with_reducible exact h0
    | with_reducible refine only_whenA fun _ => ?_
    | intro _

theorem on_floorLine {M : List StateField} {o : Nat} {v : Table Word} {slot line : Nat} {b : Bracket} {k : List Nat → Option Nat → Act} (hM : ([.regs, .rings, .mem, .codingMap, .crcDiff, .buffered, .tlb, .lcSlots, .free, .out] : List StateField) ⊆ M) (h0 : ∀ x0 x1, (k x0 x1).only (Within M)) :
 (floorLine o v slot line b k).only (Within M) := by
  unfold floorLine
  repeat' first
    | with_reducible exact on_done
    | with_reducible refine on_look fun _ => ?_
    | with_reducible exact on_nil
    | with_reducible refine on_cons ?_ ?_
    | with_reducible exact on_eff hM rfl
    | with_reducible refine on_seq ?_ ?_
    | with_reducible exact h0 _ _
    | with_reducible refine on_fetchRows (sub_trans rfl hM) ?_
    | with_reducible refine on_countLine (sub_trans rfl hM) ?_
    | with_reducible refine on_bump (sub_trans rfl hM)
    | with_reducible refine on_ite ?_ ?_
    | intro _
    | dsimp only

theorem on_putPart {M : List StateField} {o : Nat} {p : LinePart} (hM : ([.outs] : List StateField) ⊆ M) :
 (putPart o p).only (Within M) := by
  unfold putPart
  repeat' first
    | with_reducible exact on_done
    | with_reducible refine on_look fun _ => ?_
    | with_reducible exact on_eff hM rfl
    | with_reducible refine on_updOut (sub_trans rfl hM)
    | intro _
    | dsimp only

theorem on_fetchVideo {M : List StateField} {o frame line slot : Nat} (hM : ([.regs, .rings, .mem, .codingMap, .crcDiff, .buffered, .tlb, .lcSlots, .outs, .free, .out] : List StateField) ⊆ M) :
 (fetchVideo o frame line slot).only (Within M) := by
  unfold fetchVideo
  repeat' first
    | with_reducible exact on_done
    | with_reducible refine on_look fun _ => ?_
    | with_reducible exact on_eff hM rfl
    | with_reducible refine on_seq ?_ ?_
    | with_reducible refine on_putPart (sub_trans rfl hM)
    | with_reducible refine on_fetchRow (sub_trans rfl hM) ?_
    | with_reducible refine on_countLine (sub_trans rfl hM) ?_
    | with_reducible refine on_bump (sub_trans rfl hM)
    | with_reducible refine on_floorLine (sub_trans rfl hM) ?_
    | with_reducible refine on_ite ?_ ?_
    | with_reducible refine only_whenA fun _ => ?_
    | with_reducible refine only_optA fun _ _ => ?_
    | intro _
    | dsimp only

theorem on_fetchGraphic {M : List StateField} {o frame line slot : Nat} (hM : ([.regs, .rings, .mem, .codingMap, .crcDiff, .buffered, .tlb, .lcSlots, .outs, .free, .out] : List StateField) ⊆ M) :
 (fetchGraphic o frame line slot).only (Within M) := by
  unfold fetchGraphic
  repeat' first
    | with_reducible exact on_done
    | with_reducible refine on_look fun _ => ?_
    | with_reducible exact on_eff hM rfl
    | with_reducible refine on_seq ?_ ?_
    | with_reducible refine on_fetchRow (sub_trans rfl hM) ?_
    | with_reducible refine on_bump (sub_trans rfl hM)
    | with_reducible refine on_putPart (sub_trans rfl hM)
    | with_reducible refine only_whenA fun _ => ?_
    | intro _
    | dsimp only

theorem on_fetchSurface {M : List StateField} {o frame line : Nat} (hM : ([.regs, .rings, .mem, .codingMap, .crcDiff, .buffered, .tlb, .lcSlots, .outs, .free, .out] : List StateField) ⊆ M) :
 (fetchSurface o frame line).only (Within M) := by
  unfold fetchSurface
  repeat' first
    | with_reducible exact on_done
    | with_reducible refine on_look fun _ => ?_
    | with_reducible exact on_eff hM rfl
    | with_reducible refine on_seq ?_ ?_
    | with_reducible refine on_fetchRow (sub_trans rfl hM) ?_
    | with_reducible refine on_bump (sub_trans rfl hM)
    | with_reducible refine on_putPart (sub_trans rfl hM)
    | with_reducible refine only_whenA fun _ => ?_
    | intro _
    | dsimp only

theorem on_fetchLine {M : List StateField} {o frame line : Nat} (hM : ([.regs, .rings, .mem, .codingMap, .crcDiff, .buffered, .tlb, .lcSlots, .outs, .free, .out] : List StateField) ⊆ M) :
 (fetchLine o frame line).only (Within M) := by
  unfold fetchLine
  repeat' first
    | with_reducible exact on_done
    | with_reducible refine on_look fun _ => ?_
    | with_reducible exact on_nil
    | with_reducible refine on_cons ?_ ?_
    | with_reducible exact on_eff hM rfl
    | with_reducible refine on_fetchVideo (sub_trans rfl hM)
    | with_reducible refine on_fetchSurface (sub_trans rfl hM)
    | with_reducible refine on_fetchGraphic (sub_trans rfl hM)
    | with_reducible refine on_ite ?_ ?_
    | with_reducible refine only_whenA fun _ => ?_
    | with_reducible refine only_forA fun _ _ => ?_
    | intro _
    | dsimp only

theorem on_fetchAhead {M : List StateField} {o : Nat} (hM : ([.regs, .rings, .mem, .codingMap, .crcDiff, .buffered, .tlb, .lcSlots, .outs, .free, .out] : List StateField) ⊆ M) :
 (fetchAhead o).only (Within M) := by
  unfold fetchAhead
  repeat' first
    | with_reducible exact on_done
    | with_reducible refine on_look fun _ => ?_
    | with_reducible exact on_eff hM rfl
    | with_reducible refine on_fetchLine (sub_trans rfl hM)
    | with_reducible refine on_ite ?_ ?_
    | with_reducible refine only_whenA fun _ => ?_
    | with_reducible refine only_forA fun _ _ => ?_
    | intro _
    | dsimp only

theorem on_flatLive {M : List StateField} {o : Nat} (hM : ([.regs, .rings, .mem, .codingMap, .crcDiff, .buffered, .tlb, .lcSlots, .outs, .free, .out] : List StateField) ⊆ M) :
 (flatLive o).only (Within M) := by
  unfold flatLive
  repeat' first
    | with_reducible exact on_done
    | with_reducible refine on_look fun _ => ?_
    | with_reducible exact on_nil
    | with_reducible refine on_cons ?_ ?_
    | with_reducible exact on_eff hM rfl
    | with_reducible refine on_flatTo (sub_trans rfl hM)
    | with_reducible refine on_updOut (sub_trans rfl hM)
    | with_reducible refine on_fetchLine (sub_trans rfl hM)
    | with_reducible refine only_forA fun _ _ => ?_
    | intro _
    | dsimp only

theorem on_retireBuffers {M : List StateField} {o seq : Nat} (hM : ([.regs, .rings, .free, .out] : List StateField) ⊆ M) :
 (retireBuffers o seq).only (Within M) := by
  unfold retireBuffers
  repeat' first
    | with_reducible exact on_done
    | with_reducible refine on_look fun _ => ?_
    | with_reducible exact on_nil
    | with_reducible refine on_cons ?_ ?_
    | with_reducible exact on_eff hM rfl
    | with_reducible refine on_bump (sub_trans rfl hM)
    | with_reducible refine on_raiseIrq (sub_trans rfl hM)
    | with_reducible refine on_pageEvent (sub_trans rfl hM)
    | with_reducible refine on_semAdd (sub_trans rfl hM)
    | with_reducible refine only_whenA fun _ => ?_
    | intro _
    | dsimp only

theorem on_wbFail {M : List StateField} {o cause counter : Nat} (hM : ([.regs, .rings, .outs, .free, .out] : List StateField) ⊆ M) :
 (wbFail o cause counter).only (Within M) := by
  unfold wbFail
  repeat' first
    | with_reducible exact on_done
    | with_reducible refine on_look fun _ => ?_
    | with_reducible exact on_nil
    | with_reducible refine on_cons ?_ ?_
    | with_reducible exact on_eff hM rfl
    | with_reducible refine on_updOut (sub_trans rfl hM)
    | with_reducible refine on_pageErr (sub_trans rfl hM)
    | with_reducible refine on_bump (sub_trans rfl hM)
    | with_reducible refine on_raiseIrq (sub_trans rfl hM)
    | with_reducible refine on_pageEvent (sub_trans rfl hM)
    | intro _
    | dsimp only

theorem on_wbFrame {M : List StateField} {o : Nat} (hM : ([.regs, .rings, .outs, .free, .out] : List StateField) ⊆ M) :
 (wbFrame o).only (Within M) := by
  unfold wbFrame
  repeat' first
    | with_reducible exact on_done
    | with_reducible refine on_look fun _ => ?_
    | with_reducible exact on_eff hM rfl
    | with_reducible refine on_updOut (sub_trans rfl hM)
    | with_reducible refine on_wbFail (sub_trans rfl hM)
    | with_reducible refine on_ite ?_ ?_
    | intro _
    | dsimp only

theorem on_dropFrame {M : List StateField} {o : Nat} {gone : StripRec → Bool} (hM : ([.regs, .units, .rings, .mem, .codingMap, .crcDiff, .held, .heldNext, .buffered, .tlb, .lcSlots, .lcWait, .lcFill, .sp, .arrays, .engines, .ctxs, .entries, .entryNext, .lanes, .ports, .windows, .layers, .trust, .free, .out] : List StateField) ⊆ M) :
 (dropFrame o gone).only (Within M) := by
  unfold dropFrame
  repeat' first
    | with_reducible exact on_done
    | with_reducible refine on_look fun _ => ?_
    | with_reducible exact on_eff hM rfl
    | with_reducible refine on_dropStrips (sub_trans rfl hM)
    | with_reducible refine only_forA fun _ _ => ?_
    | intro _
    | dsimp only

theorem on_forgetSync {M : List StateField} {o : Nat} (hM : ([.outs] : List StateField) ⊆ M) :
 (forgetSync o).only (Within M) := by
  unfold forgetSync
  repeat' first
    | with_reducible exact on_done
    | with_reducible refine on_look fun _ => ?_
    | with_reducible exact on_eff hM rfl
    | with_reducible refine on_updOut (sub_trans rfl hM)
    | intro _
    | dsimp only

theorem on_syncTo {M : List StateField} {o dst : Nat} (hM : ([.regs, .rings, .free, .out] : List StateField) ⊆ M) :
 (syncTo o dst).only (Within M) := by
  unfold syncTo
  repeat' first
    | with_reducible exact on_done
    | with_reducible refine on_look fun _ => ?_
    | with_reducible exact on_nil
    | with_reducible refine on_cons ?_ ?_
    | with_reducible exact on_eff hM rfl
    | with_reducible refine on_setFld (sub_trans rfl hM)
    | with_reducible refine on_raiseIrq (sub_trans rfl hM)
    | with_reducible refine on_pageEvent (sub_trans rfl hM)
    | with_reducible refine only_whenA fun _ => ?_
    | intro _
    | dsimp only

theorem on_startFrame {M : List StateField} {o : Nat} (hM : ([.regs, .units, .rings, .mem, .codingMap, .crcDiff, .held, .heldNext, .buffered, .tlb, .lcSlots, .lcWait, .lcFill, .sp, .arrays, .engines, .ctxs, .entries, .entryNext, .lanes, .ports, .windows, .layers, .outs, .trust, .free, .out] : List StateField) ⊆ M) :
 (startFrame o).only (Within M) := by
  unfold startFrame
  repeat' first
    | with_reducible exact on_done
    | with_reducible refine on_look fun _ => ?_
    | with_reducible exact on_nil
    | with_reducible refine on_cons ?_ ?_
    | with_reducible exact on_eff hM rfl
    | with_reducible refine on_seq ?_ ?_
    | with_reducible refine on_dropFrame (sub_trans rfl hM)
    | with_reducible refine on_updOut (sub_trans rfl hM)
    | with_reducible refine on_setRegN (sub_trans rfl hM)
    | with_reducible refine on_setReg64 (sub_trans rfl hM)
    | with_reducible refine on_applyGroup (sub_trans rfl hM)
    | with_reducible refine on_retireBuffers (sub_trans rfl hM)
    | with_reducible refine on_bump (sub_trans rfl hM)
    | with_reducible refine on_setFld (sub_trans rfl hM)
    | with_reducible refine on_wbFrame (sub_trans rfl hM)
    | with_reducible refine on_flatFrame (sub_trans rfl hM)
    | with_reducible refine on_showNextReq (sub_trans rfl hM)
    | with_reducible refine on_fetchLine (sub_trans rfl hM)
    | with_reducible refine on_forgetSync (sub_trans rfl hM)
    | with_reducible refine on_syncTo (sub_trans rfl hM)
    | with_reducible refine only_whenA fun _ => ?_
    | with_reducible refine only_optA fun _ _ => ?_
    | with_reducible refine only_forA fun _ _ => ?_
    | intro _
    | dsimp only

theorem on_countMissed {M : List StateField} {o : Nat} (hM : ([.regs] : List StateField) ⊆ M) :
 (countMissed o).only (Within M) := by
  unfold countMissed
  repeat' first
    | with_reducible exact on_done
    | with_reducible refine on_look fun _ => ?_
    | with_reducible exact on_eff hM rfl
    | with_reducible refine on_bump (sub_trans rfl hM)
    | with_reducible refine only_whenA fun _ => ?_
    | intro _
    | dsimp only

theorem on_actFrameStart {M : List StateField} {o : Fin 4} {now : Dword} (hM : ([.regs, .units, .rings, .time, .mem, .codingMap, .crcDiff, .held, .heldNext, .buffered, .tlb, .lcSlots, .lcWait, .lcFill, .sp, .arrays, .engines, .ctxs, .entries, .entryNext, .lanes, .ports, .windows, .layers, .outs, .trust, .free, .out] : List StateField) ⊆ M) :
 (actFrameStart o now).only (Within M) := by
  unfold actFrameStart
  repeat' first
    | with_reducible exact on_done
    | with_reducible refine on_look fun _ => ?_
    | with_reducible exact on_nil
    | with_reducible refine on_cons ?_ ?_
    | with_reducible exact on_eff hM rfl
    | with_reducible refine on_seq ?_ ?_
    | with_reducible refine on_tick (sub_trans rfl hM)
    | with_reducible refine on_countMissed (sub_trans rfl hM)
    | with_reducible refine on_setFld (sub_trans rfl hM)
    | with_reducible refine on_bump (sub_trans rfl hM)
    | with_reducible refine on_dropFrame (sub_trans rfl hM)
    | with_reducible refine on_setRegN (sub_trans rfl hM)
    | with_reducible refine on_updOut (sub_trans rfl hM)
    | with_reducible refine on_forgetSync (sub_trans rfl hM)
    | with_reducible refine on_applyGroup (sub_trans rfl hM)
    | with_reducible refine on_flatTo (sub_trans rfl hM)
    | with_reducible refine on_syncTo (sub_trans rfl hM)
    | with_reducible refine on_startFrame (sub_trans rfl hM)
    | with_reducible refine on_ite ?_ ?_
    | with_reducible refine only_whenA fun _ => ?_
    | with_reducible refine only_optA fun _ _ => ?_
    | intro _
    | dsimp only

theorem on_actDisplayPllLocked {M : List StateField} {o : Fin 4} {now : Dword} (hM : ([.regs, .units, .rings, .time, .mem, .codingMap, .crcDiff, .held, .heldNext, .buffered, .tlb, .lcSlots, .lcWait, .lcFill, .sp, .arrays, .engines, .ctxs, .entries, .entryNext, .lanes, .ports, .windows, .layers, .outs, .trust, .free, .out] : List StateField) ⊆ M) :
 (actDisplayPllLocked o now).only (Within M) := by
  unfold actDisplayPllLocked
  repeat' first
    | with_reducible exact on_done
    | with_reducible refine on_look fun _ => ?_
    | with_reducible exact on_nil
    | with_reducible refine on_cons ?_ ?_
    | with_reducible exact on_eff hM rfl
    | with_reducible refine on_seq ?_ ?_
    | with_reducible refine on_tick (sub_trans rfl hM)
    | with_reducible refine on_updOut (sub_trans rfl hM)
    | with_reducible refine on_setFld (sub_trans rfl hM)
    | with_reducible refine on_startFrame (sub_trans rfl hM)
    | with_reducible refine only_whenA fun _ => ?_
    | intro _
    | dsimp only

theorem on_layerOff {M : List StateField} {o : Nat} {graphic : Bool} {slot line cause : Nat} (hM : ([.regs, .rings, .outs, .flog, .flogN, .free, .out] : List StateField) ⊆ M) :
 (layerOff o graphic slot line cause).only (Within M) := by
  unfold layerOff
  repeat' first
    | with_reducible exact on_done
    | with_reducible refine on_look fun _ => ?_
    | with_reducible exact on_nil
    | with_reducible refine on_cons ?_ ?_
    | with_reducible exact on_eff hM rfl
    | with_reducible refine on_seq ?_ ?_
    | with_reducible refine on_setFld (sub_trans rfl hM)
    | with_reducible refine on_updOut (sub_trans rfl hM)
    | with_reducible refine on_pageErr (sub_trans rfl hM)
    | with_reducible refine on_bump (sub_trans rfl hM)
    | with_reducible refine on_raiseIrq (sub_trans rfl hM)
    | with_reducible refine on_pageEvent (sub_trans rfl hM)
    | with_reducible refine on_flog (sub_trans rfl hM)
    | with_reducible refine on_ite ?_ ?_
    | with_reducible refine only_whenA fun _ => ?_
    | intro _
    | dsimp only

theorem on_captureRow {M : List StateField} {o line : Nat} {runParts : List GfxRun} (hM : ([.regs, .rings, .mem, .codingMap, .crcDiff, .held, .heldNext, .buffered, .tlb, .lcSlots, .lcWait, .lcFill, .outs, .trust, .free, .out] : List StateField) ⊆ M) :
 (captureRow o line runParts).only (Within M) := by
  unfold captureRow
  repeat' first
    | with_reducible exact on_done
    | with_reducible refine on_look fun _ => ?_
    | with_reducible exact on_eff hM rfl
    | with_reducible refine on_seq ?_ ?_
    | with_reducible refine on_flatFail (sub_trans rfl hM)
    | with_reducible refine on_virtWrite (sub_trans rfl hM) ?_
    | with_reducible refine on_pageErr (sub_trans rfl hM)
    | with_reducible refine on_ite ?_ ?_
    | intro _
    | dsimp only

theorem on_rectDone {M : List StateField} {o r crc : Nat} (hM : ([.regs, .rings, .outs, .free, .out] : List StateField) ⊆ M) :
 (rectDone o r crc).only (Within M) := by
  unfold rectDone
  repeat' first
    | with_reducible exact on_done
    | with_reducible refine on_look fun _ => ?_
    | with_reducible exact on_nil
    | with_reducible refine on_cons ?_ ?_
    | with_reducible exact on_eff hM rfl
    | with_reducible refine on_seq ?_ ?_
    | with_reducible refine on_setRegN (sub_trans rfl hM)
    | with_reducible refine on_bump (sub_trans rfl hM)
    | with_reducible refine on_updOut (sub_trans rfl hM)
    | with_reducible refine on_raiseIrq (sub_trans rfl hM)
    | with_reducible refine on_pageErr (sub_trans rfl hM)
    | with_reducible refine on_ite ?_ ?_
    | intro _
    | dsimp only

theorem on_rectLine {M : List StateField} {o line : Nat} {ws : List Nat} (hM : ([.regs, .rings, .outs, .free, .out] : List StateField) ⊆ M) :
 (rectLine o line ws).only (Within M) := by
  unfold rectLine
  repeat' first
    | with_reducible exact on_done
    | with_reducible refine on_look fun _ => ?_
    | with_reducible exact on_eff hM rfl
    | with_reducible refine on_seq ?_ ?_
    | with_reducible refine on_updOut (sub_trans rfl hM)
    | with_reducible refine on_rectDone (sub_trans rfl hM)
    | with_reducible refine only_whenA fun _ => ?_
    | with_reducible refine only_forA fun _ _ => ?_
    | intro _
    | dsimp only

theorem on_rectFrame {M : List StateField} {o : Nat} (hM : ([.regs, .rings, .free, .out] : List StateField) ⊆ M) :
 (rectFrame o).only (Within M) := by
  unfold rectFrame
  repeat' first
    | with_reducible exact on_done
    | with_reducible refine on_look fun _ => ?_
    | with_reducible exact on_eff hM rfl
    | with_reducible refine on_seq ?_ ?_
    | with_reducible refine on_setRegN (sub_trans rfl hM)
    | with_reducible refine on_pageEvent (sub_trans rfl hM)
    | with_reducible refine only_whenA fun _ => ?_
    | intro _
    | dsimp only

theorem on_wbWrite {M : List StateField} {o va : Nat} {bs : List Byte} {good : Act} (hM : ([.regs, .rings, .mem, .codingMap, .crcDiff, .held, .heldNext, .buffered, .tlb, .lcSlots, .lcWait, .lcFill, .outs, .trust, .free, .out] : List StateField) ⊆ M) (h0 : good.only (Within M)) :
 (wbWrite o va bs good).only (Within M) := by
  unfold wbWrite
  repeat' first
    | with_reducible exact on_done
    | with_reducible refine on_look fun _ => ?_
    | with_reducible exact on_eff hM rfl
    | with_reducible exact h0
    | with_reducible refine on_virtWrite (sub_trans rfl hM) ?_
    | with_reducible refine on_wbFail (sub_trans rfl hM)
    | with_reducible refine on_ite ?_ ?_
    | intro _
    | dsimp only

theorem on_wbLine {M : List StateField} {o line : Nat} {ws : List Nat} (hM : ([.regs, .rings, .mem, .codingMap, .crcDiff, .held, .heldNext, .buffered, .tlb, .lcSlots, .lcWait, .lcFill, .outs, .trust, .free, .out] : List StateField) ⊆ M) :
 (wbLine o line ws).only (Within M) := by
  unfold wbLine
  repeat' first
    | with_reducible exact on_done
    | with_reducible refine on_look fun _ => ?_
    | with_reducible exact on_nil
    | with_reducible refine on_cons ?_ ?_
    | with_reducible exact on_eff hM rfl
    | with_reducible refine on_seq ?_ ?_
    | with_reducible refine on_wbWrite (sub_trans rfl hM) ?_
    | with_reducible refine on_bump (sub_trans rfl hM)
    | with_reducible refine on_semAdd (sub_trans rfl hM)
    | with_reducible refine on_setRegN (sub_trans rfl hM)
    | with_reducible refine on_raiseIrq (sub_trans rfl hM)
    | with_reducible refine on_updOut (sub_trans rfl hM)
    | with_reducible refine only_whenA fun _ => ?_
    | with_reducible refine only_optA fun _ _ => ?_
    | intro _
    | dsimp only

theorem on_composeLine {M : List StateField} {o : Fin 4} {line : Nat} {under : List Underrun} (hM : ([.regs, .rings, .mem, .codingMap, .crcDiff, .held, .heldNext, .buffered, .tlb, .lcSlots, .lcWait, .lcFill, .outs, .trust, .flog, .flogN, .free, .out] : List StateField) ⊆ M) :
 (composeLine o line under).only (Within M) := by
  unfold composeLine
  repeat' first
    | with_reducible exact on_done
    | with_reducible refine on_look fun _ => ?_
    | with_reducible exact on_nil
    | with_reducible refine on_cons ?_ ?_
    | with_reducible exact on_eff hM rfl
    | with_reducible refine on_seq ?_ ?_
    | with_reducible refine on_layerOff (sub_trans rfl hM)
    | with_reducible refine on_flatFail (sub_trans rfl hM)
    | with_reducible refine on_captureRow (sub_trans rfl hM)
    | with_reducible refine on_rectLine (sub_trans rfl hM)
    | with_reducible refine on_rectFrame (sub_trans rfl hM)
    | with_reducible refine on_wbLine (sub_trans rfl hM)
    | with_reducible refine on_updOut (sub_trans rfl hM)
    | with_reducible refine on_ite ?_ ?_
    | with_reducible refine only_whenA fun _ => ?_
    | with_reducible refine only_optA fun _ _ => ?_
    | with_reducible refine only_forA fun _ _ => ?_
    | intro _
    | dsimp only

theorem on_beginPorch {M : List StateField} {o : Nat} (hM : ([.outs] : List StateField) ⊆ M) :
 (beginPorch o).only (Within M) := by
  unfold beginPorch
  repeat' first
    | with_reducible exact on_done
    | with_reducible refine on_look fun _ => ?_
    | with_reducible exact on_eff hM rfl
    | with_reducible refine on_updOut (sub_trans rfl hM)
    | intro _
    | dsimp only

theorem on_actOutputLine {M : List StateField} {o : Fin 4} {line : Nat} {now : Dword} {under : List Underrun} (hM : ([.regs, .units, .rings, .time, .mem, .codingMap, .crcDiff, .held, .heldNext, .buffered, .tlb, .lcSlots, .lcWait, .lcFill, .sp, .arrays, .engines, .ctxs, .entries, .entryNext, .lanes, .ports, .windows, .layers, .outs, .trust, .flog, .flogN, .free, .out] : List StateField) ⊆ M) :
 (actOutputLine o line now under).only (Within M) := by
  unfold actOutputLine
  repeat' first
    | with_reducible exact on_done
    | with_reducible refine on_look fun _ => ?_
    | with_reducible exact on_nil
    | with_reducible refine on_cons ?_ ?_
    | with_reducible exact on_eff hM rfl
    | with_reducible refine on_seq ?_ ?_
    | with_reducible refine on_tick (sub_trans rfl hM)
    | with_reducible refine on_setRegN (sub_trans rfl hM)
    | with_reducible refine on_setFld (sub_trans rfl hM)
    | with_reducible refine on_composeLine (sub_trans rfl hM)
    | with_reducible refine on_dropFrame (sub_trans rfl hM)
    | with_reducible refine on_beginPorch (sub_trans rfl hM)
    | with_reducible refine on_fetchAhead (sub_trans rfl hM)
    | with_reducible refine on_updOut (sub_trans rfl hM)
    | with_reducible refine on_ite ?_ ?_
    | with_reducible refine only_whenA fun _ => ?_
    | intro _
    | dsimp only

theorem on_actTakeLine {M : List StateField} {o : Fin 4} {k : Nat} {now : Dword} (hM : ([.regs, .units, .rings, .time, .mem, .codingMap, .crcDiff, .buffered, .tlb, .lcSlots, .sp, .arrays, .engines, .ctxs, .entries, .entryNext, .lanes, .ports, .windows, .layers, .outs, .free, .out] : List StateField) ⊆ M) :
 (actTakeLine o k now).only (Within M) := by
  unfold actTakeLine
  repeat' first
    | with_reducible exact on_done
    | with_reducible refine on_look fun _ => ?_
    | with_reducible exact on_eff hM rfl
    | with_reducible refine on_seq ?_ ?_
    | with_reducible refine on_tick (sub_trans rfl hM)
    | with_reducible refine on_updStrip (sub_trans rfl hM)
    | with_reducible refine on_stripToFloor (sub_trans rfl hM)
    | with_reducible refine on_bump (sub_trans rfl hM)
    | with_reducible refine on_fetchAhead (sub_trans rfl hM)
    | with_reducible refine on_ite ?_ ?_
    | with_reducible refine only_whenA fun _ => ?_
    | with_reducible refine only_forA fun _ _ => ?_
    | intro _
    | dsimp only

theorem on_linkEvent {M : List StateField} {o : Nat} {up failed : Bool} (hM : ([.regs, .rings, .free, .out] : List StateField) ⊆ M) :
 (linkEvent o up failed).only (Within M) := by
  unfold linkEvent
  repeat' first
    | with_reducible exact on_done
    | with_reducible refine on_look fun _ => ?_
    | with_reducible exact on_eff hM rfl
    | with_reducible refine on_pageEvent (sub_trans rfl hM)
    | with_reducible refine on_ite ?_ ?_
    | intro _
    | dsimp only

theorem on_actDpTrain {M : List StateField} {f : Func} {o : Fin 4} (hM : ([.regs, .rings, .free, .out] : List StateField) ⊆ M) :
 (actDpTrain f o).only (Within M) := by
  unfold actDpTrain
  repeat' first
    | with_reducible exact on_done
    | with_reducible refine on_look fun _ => ?_
    | with_reducible exact on_eff hM rfl
    | with_reducible refine on_seq ?_ ?_
    | with_reducible refine on_withWrite (sub_trans rfl hM) ?_
    | with_reducible refine on_setRegN (sub_trans rfl hM)
    | with_reducible refine on_bump (sub_trans rfl hM)
    | with_reducible refine only_whenA fun _ => ?_
    | intro _
    | dsimp only

theorem on_actDpTrainDone {M : List StateField} {o : Fin 4} {ok : Bool} (hM : ([.regs, .rings, .free, .out] : List StateField) ⊆ M) :
 (actDpTrainDone o ok).only (Within M) := by
  unfold actDpTrainDone
  repeat' first
    | with_reducible exact on_done
    | with_reducible refine on_look fun _ => ?_
    | with_reducible exact on_nil
    | with_reducible refine on_cons ?_ ?_
    | with_reducible exact on_eff hM rfl
    | with_reducible refine on_seq ?_ ?_
    | with_reducible refine on_setRegN (sub_trans rfl hM)
    | with_reducible refine on_setFld (sub_trans rfl hM)
    | with_reducible refine on_pageErr (sub_trans rfl hM)
    | with_reducible refine on_bump (sub_trans rfl hM)
    | with_reducible refine on_raiseIrq (sub_trans rfl hM)
    | with_reducible refine on_linkEvent (sub_trans rfl hM)
    | with_reducible refine on_ite ?_ ?_
    | with_reducible refine only_whenA fun _ => ?_
    | intro _
    | dsimp only

theorem on_linkLost {M : List StateField} {o : Nat} (hM : ([.regs, .rings, .flog, .flogN, .free, .out] : List StateField) ⊆ M) :
 (linkLost o).only (Within M) := by
  unfold linkLost
  repeat' first
    | with_reducible exact on_done
    | with_reducible refine on_look fun _ => ?_
    | with_reducible exact on_nil
    | with_reducible refine on_cons ?_ ?_
    | with_reducible exact on_eff hM rfl
    | with_reducible refine on_setFld (sub_trans rfl hM)
    | with_reducible refine on_pageErr (sub_trans rfl hM)
    | with_reducible refine on_bump (sub_trans rfl hM)
    | with_reducible refine on_raiseIrq (sub_trans rfl hM)
    | with_reducible refine on_linkEvent (sub_trans rfl hM)
    | with_reducible refine on_flog (sub_trans rfl hM)
    | with_reducible refine only_whenA fun _ => ?_
    | intro _
    | dsimp only

theorem on_actHpdLowTimeout {M : List StateField} {o : Fin 4} (hM : ([.regs, .rings, .flog, .flogN, .free, .out] : List StateField) ⊆ M) :
 (actHpdLowTimeout o).only (Within M) := by
  unfold actHpdLowTimeout
  repeat' first
    | with_reducible exact on_done
    | with_reducible refine on_look fun _ => ?_
    | with_reducible exact on_eff hM rfl
    | with_reducible refine on_seq ?_ ?_
    | with_reducible refine on_setFld (sub_trans rfl hM)
    | with_reducible refine on_linkLost (sub_trans rfl hM)
    | dsimp only

theorem on_actIrqHpd {M : List StateField} {o : Fin 4} {locked : Bool} (hM : ([.regs, .rings, .flog, .flogN, .free, .out] : List StateField) ⊆ M) :
 (actIrqHpd o locked).only (Within M) := by
  unfold actIrqHpd
  repeat' first
    | with_reducible exact on_done
    | with_reducible refine on_look fun _ => ?_
    | with_reducible exact on_eff hM rfl
    | with_reducible refine on_seq ?_ ?_
    | with_reducible refine on_setFld (sub_trans rfl hM)
    | with_reducible refine on_linkLost (sub_trans rfl hM)
    | with_reducible refine only_whenA fun _ => ?_
    | dsimp only

theorem on_auxStart {M : List StateField} {f : Func} {o : Nat} {ctl : Word} (hM : ([.regs, .rings, .free, .out] : List StateField) ⊆ M) :
 (auxStart f o ctl).only (Within M) := by
  unfold auxStart
  repeat' first
    | with_reducible exact on_done
    | with_reducible refine on_look fun _ => ?_
    | with_reducible exact on_eff hM rfl
    | with_reducible refine on_seq ?_ ?_
    | with_reducible refine on_withWrite (sub_trans rfl hM) ?_
    | with_reducible refine on_setRegN (sub_trans rfl hM)
    | with_reducible refine on_bump (sub_trans rfl hM)
    | with_reducible refine on_pageErr (sub_trans rfl hM)
    | with_reducible refine on_ite ?_ ?_
    | intro _
    | dsimp only

theorem on_actAuxReply {M : List StateField} {o : Fin 4} {reply : AuxReply} (hM : ([.regs, .rings, .free, .out] : List StateField) ⊆ M) :
 (actAuxReply o reply).only (Within M) := by
  unfold actAuxReply
  repeat' first
    | with_reducible exact on_done
    | with_reducible refine on_look fun _ => ?_
    | with_reducible exact on_nil
    | with_reducible refine on_cons ?_ ?_
    | with_reducible exact on_eff hM rfl
    | with_reducible refine on_setFld (sub_trans rfl hM)
    | with_reducible refine on_setRegN (sub_trans rfl hM)
    | with_reducible refine on_bump (sub_trans rfl hM)
    | with_reducible refine on_raiseIrq (sub_trans rfl hM)
    | with_reducible refine on_pageEvent (sub_trans rfl hM)
    | with_reducible refine only_whenA fun _ => ?_
    | with_reducible refine only_forA fun _ _ => ?_
    | intro _
    | split
    | dsimp only

theorem on_actPsyncEdge {M : List StateField} {o : Fin 4} {now : Dword} (hM : ([.regs, .rings, .time, .outs, .free, .out] : List StateField) ⊆ M) :
 (actPsyncEdge o now).only (Within M) := by
  unfold actPsyncEdge
  repeat' first
    | with_reducible exact on_done
    | with_reducible refine on_look fun _ => ?_
    | with_reducible exact on_eff hM rfl
    | with_reducible refine on_seq ?_ ?_
    | with_reducible refine on_tick (sub_trans rfl hM)
    | with_reducible refine on_updOut (sub_trans rfl hM)
    | with_reducible refine on_syncTo (sub_trans rfl hM)
    | with_reducible refine on_ite ?_ ?_
    | with_reducible refine only_whenA fun _ => ?_
    | intro _
    | split
    | dsimp only

theorem on_actPsyncLost {M : List StateField} {o : Fin 4} (hM : ([.regs, .rings, .outs, .free, .out] : List StateField) ⊆ M) :
 (actPsyncLost o).only (Within M) := by
  unfold actPsyncLost
  repeat' first
    | with_reducible exact on_done
    | with_reducible refine on_look fun _ => ?_
    | with_reducible exact on_nil
    | with_reducible refine on_cons ?_ ?_
    | with_reducible exact on_eff hM rfl
    | with_reducible refine on_updOut (sub_trans rfl hM)
    | with_reducible refine on_pageErr (sub_trans rfl hM)
    | with_reducible refine on_syncTo (sub_trans rfl hM)
    | with_reducible refine only_whenA fun _ => ?_
    | intro _
    | dsimp only

end Sys2Proof.Machine
end

