-- ==== Sys2Proof/Laws/FieldsScheduler.lean ====
section
/-! SUPPORT. The fields that the acts of Machine/Scheduler.lean may change. -/

namespace Sys2Proof.Machine

theorem on_refuseBatch {M : List StateField} {j : Nat} {code : Nat} {quiet : Bool} (hM : ([.regs, .rings, .jobs, .free, .out] : List StateField) ⊆ M) :
 (refuseBatch j code quiet).only (Within M) := by
  unfold refuseBatch
  repeat' first
    | with_reducible exact on_done
    | with_reducible refine on_look fun _ => ?_
    | with_reducible exact on_nil
    | with_reducible refine on_cons ?_ ?_
    | with_reducible exact on_eff hM rfl
    | with_reducible refine on_recordErr (sub_trans rfl hM)
    | with_reducible refine on_jobEvent (sub_trans rfl hM)
    | with_reducible refine on_endJob (sub_trans rfl hM)
    | with_reducible refine only_whenA fun _ => ?_
    | with_reducible refine only_optA fun _ _ => ?_
    | intro _
    | dsimp only

theorem on_addEntries {M : List StateField} {j : Nat} {f : Func} {n : Fin 8} {d : BitVec 1024} {full cop : List (BitVec 512)} (hM : ([.entries, .entryNext] : List StateField) ⊆ M) :
 (addEntries j f n d full cop).only (Within M) := by
  unfold addEntries
  repeat' first
    | with_reducible exact on_done
    | with_reducible refine on_look fun _ => ?_
    | with_reducible exact on_eff hM rfl
    | with_reducible refine on_seq ?_ ?_
    | with_reducible refine only_forA fun _ _ => ?_
    | intro _

theorem on_startBatch {M : List StateField} {j : Nat} (hM : ([.regs, .rings, .jobs, .entries, .lanes, .free, .out] : List StateField) ⊆ M) :
 (startBatch j).only (Within M) := by
  unfold startBatch
  repeat' first
    | with_reducible exact on_done
    | with_reducible refine on_look fun _ => ?_
    | with_reducible exact on_nil
    | with_reducible refine on_cons ?_ ?_
    | with_reducible exact on_eff hM rfl
    | with_reducible refine on_updEntry (sub_trans rfl hM)
    | with_reducible refine on_jobEvent (sub_trans rfl hM)
    | with_reducible refine on_endJob (sub_trans rfl hM)
    | with_reducible refine on_refuseBatch (sub_trans rfl hM)
    | with_reducible refine on_ite ?_ ?_
    | with_reducible refine only_whenA fun _ => ?_
    | with_reducible refine only_optA fun _ _ => ?_
    | with_reducible refine only_forA fun _ _ => ?_
    | intro _
    | dsimp only

theorem on_checkBatch {M : List StateField} {j : Nat} {f : Func} {n : Fin 8} {d : BitVec 1024} (hM : ([.regs, .rings, .jobs, .mem, .codingMap, .crcDiff, .buffered, .tlb, .lcSlots, .entries, .entryNext, .lanes, .free, .out] : List StateField) ⊆ M) :
 (checkBatch j f n d).only (Within M) := by
  unfold checkBatch
  repeat' first
    | with_reducible exact on_done
    | with_reducible refine on_look fun _ => ?_
    | with_reducible exact on_eff hM rfl
    | with_reducible refine on_seq ?_ ?_
    | with_reducible refine on_refuseBatch (sub_trans rfl hM)
    | with_reducible refine on_addEntries (sub_trans rfl hM)
    | with_reducible refine on_startIfOpen (sub_trans rfl hM) ?_
    | with_reducible refine on_startBatch (sub_trans rfl hM)
    | with_reducible refine on_virtRead (sub_trans rfl hM) ?_
    | with_reducible refine on_ite ?_ ?_
    | intro _
    | split
    | dsimp only

theorem on_actBatchJob {M : List StateField} {f : Func} {n : Fin 8} {d : BitVec 1024} (hM : ([.regs, .rings, .jobs, .jobNext, .mem, .codingMap, .crcDiff, .buffered, .tlb, .lcSlots, .entries, .entryNext, .lanes, .free, .out] : List StateField) ⊆ M) :
 (actBatchJob f n d).only (Within M) := by
  unfold actBatchJob
  repeat' first
    | with_reducible exact on_done
    | with_reducible refine on_look fun _ => ?_
    | with_reducible exact on_eff hM rfl
    | with_reducible refine on_ofKind (sub_trans rfl hM) ?_
    | with_reducible refine on_acceptJob (sub_trans rfl hM) ?_
    | with_reducible refine on_checkBatch (sub_trans rfl hM)
    | intro _
    | dsimp only

theorem on_rangeEntry {M : List StateField} {n : Nat} {x : BitVec 64} (hM : ([.regs, .rings, .entries, .lanes, .free, .out] : List StateField) ⊆ M) :
 (rangeEntry n x).only (Within M) := by
  unfold rangeEntry
  repeat' first
    | with_reducible exact on_done
    | with_reducible refine on_look fun _ => ?_
    | with_reducible exact on_eff hM rfl
    | with_reducible refine on_seq ?_ ?_
    | with_reducible refine on_moveLane (sub_trans rfl hM)
    | with_reducible refine on_updEntry (sub_trans rfl hM)
    | with_reducible refine on_bump (sub_trans rfl hM)
    | with_reducible refine on_ite ?_ ?_
    | with_reducible refine only_whenA fun _ => ?_
    | with_reducible refine only_optA fun _ _ => ?_
    | intro _
    | split
    | dsimp only

theorem on_rangePass {M : List StateField} (hM : ([.regs, .rings, .entries, .lanes, .free, .out] : List StateField) ⊆ M) :
 (rangePass ).only (Within M) := by
  unfold rangePass
  repeat' first
    | with_reducible exact on_done
    | with_reducible refine on_look fun _ => ?_
    | with_reducible exact on_eff hM rfl
    | with_reducible refine on_withFree (sub_trans rfl hM) ?_
    | with_reducible refine on_rangeEntry (sub_trans rfl hM)
    | with_reducible refine on_ite ?_ ?_
    | with_reducible refine only_whenA fun _ => ?_
    | with_reducible refine only_forA fun _ _ => ?_
    | intro _
    | split
    | dsimp only

theorem on_actRangerPeriod {M : List StateField} {now : Dword} (hM : ([.regs, .rings, .time, .entries, .lanes, .free, .out] : List StateField) ⊆ M) :
 (actRangerPeriod now).only (Within M) := by
  unfold actRangerPeriod
  repeat' first
    | with_reducible exact on_done
    | with_reducible refine on_look fun _ => ?_
    | with_reducible exact on_eff hM rfl
    | with_reducible refine on_seq ?_ ?_
    | with_reducible refine on_tick (sub_trans rfl hM)
    | with_reducible refine on_rangePass (sub_trans rfl hM)
    | dsimp only

theorem on_deadlineTold {M : List StateField} {e : EntryRec} {c : Nat} (hM : ([.regs, .rings, .free, .out] : List StateField) ⊆ M) :
 (deadlineTold e c).only (Within M) := by
  unfold deadlineTold
  repeat' first
    | with_reducible exact on_done
    | with_reducible refine on_look fun _ => ?_
    | with_reducible exact on_nil
    | with_reducible refine on_cons ?_ ?_
    | with_reducible exact on_eff hM rfl
    | with_reducible refine on_withFree (sub_trans rfl hM) ?_
    | with_reducible refine on_recordErrI (sub_trans rfl hM)
    | with_reducible refine on_bump (sub_trans rfl hM)
    | with_reducible refine on_jobEvent (sub_trans rfl hM)
    | with_reducible refine only_optA fun _ _ => ?_
    | intro _
    | dsimp only

theorem on_actRangerDeadline {M : List StateField} {n : Nat} {now : Dword} (hM : ([.regs, .units, .rings, .jobs, .time, .sp, .arrays, .engines, .ctxs, .entries, .entryNext, .lanes, .classCounts, .ports, .windows, .layers, .free, .out] : List StateField) ⊆ M) :
 (actRangerDeadline n now).only (Within M) := by
  unfold actRangerDeadline
  repeat' first
    | with_reducible exact on_done
    | with_reducible refine on_look fun _ => ?_
    | with_reducible exact on_nil
    | with_reducible refine on_cons ?_ ?_
    | with_reducible exact on_eff hM rfl
    | with_reducible refine on_seq ?_ ?_
    | with_reducible refine on_tick (sub_trans rfl hM)
    | with_reducible refine on_deadlineTold (sub_trans rfl hM)
    | with_reducible refine on_releaseClaims (sub_trans rfl hM)
    | with_reducible refine on_releasePool (sub_trans rfl hM)
    | with_reducible refine on_bump (sub_trans rfl hM)
    | with_reducible refine on_endEntry (sub_trans rfl hM)
    | with_reducible refine on_endBatchStep (sub_trans rfl hM)
    | with_reducible refine on_ite ?_ ?_
    | with_reducible refine only_whenA fun _ => ?_
    | with_reducible refine only_optA fun _ _ => ?_
    | intro _
    | split
    | dsimp only

theorem on_actSlowdownReport {M : List StateField} {now : Dword} (hM : ([.regs, .rings, .time, .classCounts, .free, .out] : List StateField) ⊆ M) :
 (actSlowdownReport now).only (Within M) := by
  unfold actSlowdownReport
  repeat' first
    | with_reducible exact on_done
    | with_reducible refine on_look fun _ => ?_
    | with_reducible exact on_nil
    | with_reducible refine on_cons ?_ ?_
    | with_reducible exact on_eff hM rfl
    | with_reducible refine on_seq ?_ ?_
    | with_reducible refine on_tick (sub_trans rfl hM)
    | with_reducible refine on_raiseIrq (sub_trans rfl hM)
    | with_reducible refine on_funcEvent (sub_trans rfl hM)
    | with_reducible refine on_ite ?_ ?_
    | with_reducible refine only_whenA fun _ => ?_
    | with_reducible refine only_forA fun _ _ => ?_
    | intro _
    | dsimp only

theorem on_actRngLaneWrite {M : List StateField} {f : Func} {lane : Nat} {v : Word} (hM : ([.regs, .rings, .lanes, .free, .out] : List StateField) ⊆ M) :
 (actRngLaneWrite f lane v).only (Within M) := by
  unfold actRngLaneWrite
  repeat' first
    | with_reducible exact on_done
    | with_reducible refine on_look fun _ => ?_
    | with_reducible exact on_eff hM rfl
    | with_reducible refine on_seq ?_ ?_
    | with_reducible refine on_withWrite (sub_trans rfl hM) ?_
    | with_reducible refine on_pageErr (sub_trans rfl hM)
    | with_reducible refine on_moveLane (sub_trans rfl hM)
    | with_reducible refine on_ite ?_ ?_
    | intro _
    | dsimp only

theorem on_loadList {M : List StateField} {e c asid : Nat} {list : Nat × Nat} {pend : List (Nat × Rearm)} (hM : ([.regs, .engines] : List StateField) ⊆ M) :
 (loadList e c asid list pend).only (Within M) := by
  unfold loadList
  repeat' first
    | with_reducible exact on_done
    | with_reducible refine on_look fun _ => ?_
    | with_reducible exact on_nil
    | with_reducible refine on_cons ?_ ?_
    | with_reducible exact on_eff hM rfl
    | with_reducible refine on_seq ?_ ?_
    | with_reducible refine on_setReg64 (sub_trans rfl hM)
    | with_reducible refine on_setFld (sub_trans rfl hM)
    | with_reducible refine on_updEng (sub_trans rfl hM)
    | with_reducible refine on_startList (sub_trans rfl hM)
    | with_reducible refine on_ite ?_ ?_
    | intro _
    | dsimp only

theorem on_refuseDispatch {M : List StateField} {a c code : Nat} (hM : ([.regs, .rings, .jobs, .arrays, .ctxs, .entries, .lanes, .classCounts, .free, .out] : List StateField) ⊆ M) :
 (refuseDispatch a c code).only (Within M) := by
  unfold refuseDispatch
  repeat' first
    | with_reducible exact on_done
    | with_reducible refine on_look fun _ => ?_
    | with_reducible exact on_nil
    | with_reducible refine on_cons ?_ ?_
    | with_reducible exact on_eff hM rfl
    | with_reducible refine on_releaseClaims (sub_trans rfl hM)
    | with_reducible refine on_updArr (sub_trans rfl hM)
    | with_reducible refine on_bump (sub_trans rfl hM)
    | with_reducible refine on_endEntry (sub_trans rfl hM)
    | intro _
    | dsimp only

theorem on_finishDispatch {M : List StateField} {a c : Nat} (hM : ([.regs, .rings, .jobs, .arrays, .engines, .ctxs, .entries, .lanes, .classCounts, .free, .out] : List StateField) ⊆ M) :
 (finishDispatch a c).only (Within M) := by
  unfold finishDispatch
  repeat' first
    | with_reducible exact on_done
    | with_reducible refine on_look fun _ => ?_
    | with_reducible exact on_nil
    | with_reducible refine on_cons ?_ ?_
    | with_reducible exact on_eff hM rfl
    | with_reducible refine on_seq ?_ ?_
    | with_reducible refine on_clearHandles (sub_trans rfl hM)
    | with_reducible refine on_refuseDispatch (sub_trans rfl hM)
    | with_reducible refine on_loadList (sub_trans rfl hM)
    | with_reducible refine on_updEng (sub_trans rfl hM)
    | with_reducible refine on_startList (sub_trans rfl hM)
    | with_reducible refine on_updArr (sub_trans rfl hM)
    | with_reducible refine on_updCtx (sub_trans rfl hM)
    | with_reducible refine on_ite ?_ ?_
    | with_reducible refine only_optA fun _ _ => ?_
    | intro _
    | dsimp only

theorem on_mapRefused {M : List StateField} {a : Nat} {x : Nat × Nat} (hM : ([.regs, .rings, .free, .out] : List StateField) ⊆ M) :
 (mapRefused a x).only (Within M) := by
  unfold mapRefused
  repeat' first
    | with_reducible exact on_done
    | with_reducible refine on_look fun _ => ?_
    | with_reducible exact on_eff hM rfl
    | with_reducible refine on_withFree (sub_trans rfl hM) ?_
    | with_reducible refine on_recordErrI (sub_trans rfl hM)
    | intro _
    | dsimp only

theorem on_loadCtx {M : List StateField} {a c : Nat} (hM : ([.regs, .rings, .jobs, .mem, .codingMap, .crcDiff, .buffered, .tlb, .lcSlots, .arrays, .engines, .ctxs, .entries, .lanes, .classCounts, .free, .out] : List StateField) ⊆ M) :
 (loadCtx a c).only (Within M) := by
  unfold loadCtx
  repeat' first
    | with_reducible exact on_done
    | with_reducible refine on_look fun _ => ?_
    | with_reducible exact on_nil
    | with_reducible refine on_cons ?_ ?_
    | with_reducible exact on_eff hM rfl
    | with_reducible refine on_seq ?_ ?_
    | with_reducible refine on_updArr (sub_trans rfl hM)
    | with_reducible refine on_updCtx (sub_trans rfl hM)
    | with_reducible refine on_bump (sub_trans rfl hM)
    | with_reducible refine on_virtRead (sub_trans rfl hM) ?_
    | with_reducible refine on_mapRefused (sub_trans rfl hM)
    | with_reducible refine on_refuseDispatch (sub_trans rfl hM)
    | with_reducible refine on_withFree (sub_trans rfl hM) ?_
    | with_reducible refine on_recordErrI (sub_trans rfl hM)
    | with_reducible refine on_putHandle (sub_trans rfl hM)
    | with_reducible refine on_finishDispatch (sub_trans rfl hM)
    | with_reducible refine on_ite ?_ ?_
    | with_reducible refine only_whenA fun _ => ?_
    | with_reducible refine only_optA fun _ _ => ?_
    | with_reducible refine only_forA fun _ _ => ?_
    | intro _
    | split
    | dsimp only

theorem on_actBankWakeDone {M : List StateField} {a : Fin 32} {m : SpMem} {bank : Nat} (hM : ([.regs, .rings, .jobs, .arrays, .engines, .ctxs, .entries, .lanes, .classCounts, .free, .out] : List StateField) ⊆ M) :
 (actBankWakeDone a m bank).only (Within M) := by
  unfold actBankWakeDone
  repeat' first
    | with_reducible exact on_done
    | with_reducible refine on_look fun _ => ?_
    | with_reducible exact on_nil
    | with_reducible refine on_cons ?_ ?_
    | with_reducible exact on_eff hM rfl
    | with_reducible refine on_setBank (sub_trans rfl hM)
    | with_reducible refine on_bump (sub_trans rfl hM)
    | with_reducible refine on_updArr (sub_trans rfl hM)
    | with_reducible refine on_finishDispatch (sub_trans rfl hM)
    | with_reducible refine only_whenA fun _ => ?_
    | with_reducible refine only_optA fun _ _ => ?_
    | intro _
    | dsimp only

theorem on_fillRearms {M : List StateField} {a : Nat} {f : Func} {asid : Nat} {ld st : Nat × Nat} {k : Option (List (Nat × Nat × Rearm)) → Act} {a0 : List (Nat × Nat × Rearm)} {a1 : List (Nat × Nat × Rearm)} (hM : ([.regs, .rings, .mem, .codingMap, .crcDiff, .buffered, .tlb, .lcSlots, .free, .out] : List StateField) ⊆ M) (h0 : ∀ x0, (k x0).only (Within M)) :
 (fillRearms a f asid ld st k a0 a1).only (Within M) := by
  induction a0 generalizing a1 with
  | nil =>
    unfold fillRearms
    repeat' first
      | with_reducible exact on_done
      | with_reducible refine on_look fun _ => ?_
      | with_reducible exact on_eff hM rfl
      | with_reducible exact h0 _
      | dsimp only
  | cons _ _ ih =>
    unfold fillRearms
    repeat' first
      | with_reducible exact on_done
      | with_reducible refine on_look fun _ => ?_
      | with_reducible exact on_eff hM rfl
      | with_reducible exact h0 _
      | with_reducible exact ih
      | with_reducible refine on_virtRead (sub_trans rfl hM) ?_
      | with_reducible refine on_ite ?_ ?_
      | intro _
      | split
      | dsimp only

theorem on_dispatchEntry {M : List StateField} {a n : Nat} (hM : ([.regs, .rings, .jobs, .mem, .codingMap, .crcDiff, .buffered, .tlb, .lcSlots, .arrays, .engines, .ctxs, .entries, .lanes, .classCounts, .free, .out] : List StateField) ⊆ M) :
 (dispatchEntry a n).only (Within M) := by
  unfold dispatchEntry
  repeat' first
    | with_reducible exact on_done
    | with_reducible refine on_look fun _ => ?_
    | with_reducible exact on_eff hM rfl
    | with_reducible refine on_seq ?_ ?_
    | with_reducible refine on_assignCtx (sub_trans rfl hM) ?_
    | with_reducible refine on_loadCtx (sub_trans rfl hM)
    | with_reducible refine on_bump (sub_trans rfl hM)
    | with_reducible refine on_endEntry (sub_trans rfl hM)
    | with_reducible refine on_ite ?_ ?_
    | with_reducible refine only_optA fun _ _ => ?_
    | intro _
    | dsimp only

theorem on_layoutBroken {M : List StateField} {slot serial : Nat} (hM : ([.regs, .units, .rings, .sp, .arrays, .engines, .ctxs, .entries, .entryNext, .lanes, .ports, .windows, .layers, .free, .out] : List StateField) ⊆ M) :
 (layoutBroken slot serial).only (Within M) := by
  unfold layoutBroken
  repeat' first
    | with_reducible exact on_done
    | with_reducible refine on_look fun _ => ?_
    | with_reducible exact on_nil
    | with_reducible refine on_cons ?_ ?_
    | with_reducible exact on_eff hM rfl
    | with_reducible refine on_withFree (sub_trans rfl hM) ?_
    | with_reducible refine on_recordErrI (sub_trans rfl hM)
    | with_reducible refine on_pageEvent (sub_trans rfl hM)
    | with_reducible refine on_handDown (sub_trans rfl hM)
    | with_reducible refine only_optA fun _ _ => ?_
    | intro _
    | dsimp only

theorem on_dispatchRaster {M : List StateField} {a : Nat} {f : Func} {a0 : Nat} (hM : ([.regs, .units, .rings, .jobs, .mem, .codingMap, .crcDiff, .buffered, .tlb, .lcSlots, .sp, .arrays, .engines, .ctxs, .entries, .entryNext, .lanes, .classCounts, .ports, .windows, .layers, .free, .out] : List StateField) ⊆ M) :
 (dispatchRaster a f a0).only (Within M) := by
  induction a0 with
  | zero =>
    unfold dispatchRaster
    repeat' first
      | with_reducible exact on_done
      | with_reducible refine on_look fun _ => ?_
      | with_reducible exact on_eff hM rfl
      | dsimp only
  | succ _ ih =>
    unfold dispatchRaster
    repeat' first
      | with_reducible exact on_done
      | with_reducible refine on_look fun _ => ?_
      | with_reducible exact on_nil
      | with_reducible refine on_cons ?_ ?_
      | with_reducible exact on_eff hM rfl
      | with_reducible refine on_seq ?_ ?_
      | with_reducible exact ih
      | with_reducible refine on_stripToFloor (sub_trans rfl hM)
      | with_reducible refine on_updEntry (sub_trans rfl hM)
      | with_reducible refine on_setRung (sub_trans rfl hM)
      | with_reducible refine on_handDown (sub_trans rfl hM)
      | with_reducible refine on_fillRearms (sub_trans rfl hM) ?_
      | with_reducible refine on_layoutBroken (sub_trans rfl hM)
      | with_reducible refine on_dispatchEntry (sub_trans rfl hM)
      | with_reducible refine on_ite ?_ ?_
      | with_reducible refine only_optA fun _ _ => ?_
      | intro _
      | split
      | dsimp only

theorem on_startRestore {M : List StateField} {a c : Nat} (hM : ([.regs, .arrays, .ctxs] : List StateField) ⊆ M) :
 (startRestore a c).only (Within M) := by
  unfold startRestore
  repeat' first
    | with_reducible exact on_done
    | with_reducible refine on_look fun _ => ?_
    | with_reducible exact on_nil
    | with_reducible refine on_cons ?_ ?_
    | with_reducible exact on_eff hM rfl
    | with_reducible refine on_updArr (sub_trans rfl hM)
    | with_reducible refine on_updCtx (sub_trans rfl hM)
    | with_reducible refine on_bump (sub_trans rfl hM)
    | intro _
    | dsimp only

theorem on_actDispatch {M : List StateField} {a : Fin 32} (hM : ([.regs, .units, .rings, .jobs, .mem, .codingMap, .crcDiff, .buffered, .tlb, .lcSlots, .sp, .arrays, .engines, .ctxs, .entries, .entryNext, .lanes, .classCounts, .ports, .windows, .layers, .free, .out] : List StateField) ⊆ M) :
 (actDispatch a).only (Within M) := by
  unfold actDispatch
  repeat' first
    | with_reducible exact on_done
    | with_reducible refine on_look fun _ => ?_
    | with_reducible exact on_eff hM rfl
    | with_reducible refine on_seq ?_ ?_
    | with_reducible refine on_dispatchRaster (sub_trans rfl hM)
    | with_reducible refine on_dispatchEntry (sub_trans rfl hM)
    | with_reducible refine on_startRestore (sub_trans rfl hM)
    | with_reducible refine on_rangePass (sub_trans rfl hM)
    | with_reducible refine on_loadCtx (sub_trans rfl hM)
    | with_reducible refine on_unreserve (sub_trans rfl hM)
    | with_reducible refine on_ite ?_ ?_
    | with_reducible refine only_whenA fun _ => ?_
    | intro _
    | split
    | dsimp only

theorem on_loseCtx {M : List StateField} {c : Nat} (hM : ([.regs, .rings, .jobs, .sp, .arrays, .engines, .ctxs, .entries, .lanes, .classCounts, .free, .out] : List StateField) ⊆ M) :
 (loseCtx c).only (Within M) := by
  unfold loseCtx
  repeat' first
    | with_reducible exact on_done
    | with_reducible refine on_look fun _ => ?_
    | with_reducible exact on_nil
    | with_reducible refine on_cons ?_ ?_
    | with_reducible exact on_eff hM rfl
    | with_reducible refine on_withFree (sub_trans rfl hM) ?_
    | with_reducible refine on_recordErrI (sub_trans rfl hM)
    | with_reducible refine on_raiseIrq (sub_trans rfl hM)
    | with_reducible refine on_bump (sub_trans rfl hM)
    | with_reducible refine on_jobEvent (sub_trans rfl hM)
    | with_reducible refine on_zeroHandles (sub_trans rfl hM)
    | with_reducible refine on_clearHandles (sub_trans rfl hM)
    | with_reducible refine on_releaseClaims (sub_trans rfl hM)
    | with_reducible refine on_releasePool (sub_trans rfl hM)
    | with_reducible refine on_freeCtx (sub_trans rfl hM)
    | with_reducible refine on_endEntry (sub_trans rfl hM)
    | with_reducible refine only_optA fun _ _ => ?_
    | intro _
    | dsimp only

theorem on_vacate {M : List StateField} {c a : Nat} (hM : ([.regs, .sp, .arrays, .engines, .ctxs] : List StateField) ⊆ M) :
 (vacate c a).only (Within M) := by
  unfold vacate
  repeat' first
    | with_reducible exact on_done
    | with_reducible refine on_look fun _ => ?_
    | with_reducible exact on_nil
    | with_reducible refine on_cons ?_ ?_
    | with_reducible exact on_eff hM rfl
    | with_reducible refine on_seq ?_ ?_
    | with_reducible refine on_zeroHandles (sub_trans rfl hM)
    | with_reducible refine on_clearHandles (sub_trans rfl hM)
    | with_reducible refine on_bump (sub_trans rfl hM)
    | with_reducible refine on_updArr (sub_trans rfl hM)
    | with_reducible refine on_updEng (sub_trans rfl hM)
    | with_reducible refine on_updCtx (sub_trans rfl hM)
    | with_reducible refine on_ite ?_ ?_
    | with_reducible refine only_optA fun _ _ => ?_
    | with_reducible refine only_forA fun _ _ => ?_
    | intro _
    | dsimp only

theorem on_actContextSaveDone {M : List StateField} {c : Fin 2048} {parity : Option (SpMem × Nat)} (hM : ([.regs, .rings, .jobs, .mem, .codingMap, .crcDiff, .held, .heldNext, .buffered, .tlb, .lcSlots, .lcWait, .lcFill, .sp, .arrays, .engines, .ctxs, .entries, .lanes, .classCounts, .trust, .flog, .flogN, .free, .out] : List StateField) ⊆ M) :
 (actContextSaveDone c parity).only (Within M) := by
  unfold actContextSaveDone
  repeat' first
    | with_reducible exact on_done
    | with_reducible refine on_look fun _ => ?_
    | with_reducible exact on_nil
    | with_reducible refine on_cons ?_ ?_
    | with_reducible exact on_eff hM rfl
    | with_reducible refine on_virtWrite (sub_trans rfl hM) ?_
    | with_reducible refine on_loseCtx (sub_trans rfl hM)
    | with_reducible refine on_countRead (sub_trans rfl hM)
    | with_reducible refine on_withFree (sub_trans rfl hM) ?_
    | with_reducible refine on_recordErrI (sub_trans rfl hM)
    | with_reducible refine on_raiseIrq (sub_trans rfl hM)
    | with_reducible refine on_bump (sub_trans rfl hM)
    | with_reducible refine on_flog (sub_trans rfl hM)
    | with_reducible refine on_updCtx (sub_trans rfl hM)
    | with_reducible refine on_jobEvent (sub_trans rfl hM)
    | with_reducible refine on_vacate (sub_trans rfl hM)
    | with_reducible refine on_ite ?_ ?_
    | with_reducible refine only_whenA fun _ => ?_
    | with_reducible refine only_optA fun _ _ => ?_
    | with_reducible refine only_forA fun _ _ => ?_
    | intro _
    | split
    | dsimp only

theorem on_restoreEng {M : List StateField} {e c : Nat} {kept : EngineSt} {bs ps : List Byte} (hM : ([.regs, .shadows, .commits, .units, .rings, .lcSlots, .lcFill, .sp, .arrays, .engines, .ctxs, .entries, .entryNext, .lanes, .ports, .remotes, .windows, .layers, .owed, .phase, .tripHold, .ruin, .relock, .faultsAt, .flog, .flogN, .free, .out] : List StateField) ⊆ M) :
 (restoreEng e c kept bs ps).only (Within M) := by
  unfold restoreEng
  repeat' first
    | with_reducible exact on_done
    | with_reducible refine on_look fun _ => ?_
    | with_reducible exact on_nil
    | with_reducible refine on_cons ?_ ?_
    | with_reducible exact on_eff hM rfl
    | with_reducible refine on_seq ?_ ?_
    | with_reducible refine on_updEng (sub_trans rfl hM)
    | with_reducible refine on_setRegN (sub_trans rfl hM)
    | with_reducible refine on_resumeEngine (sub_trans rfl hM)
    | with_reducible refine on_rearmPass (sub_trans rfl hM)
    | with_reducible refine on_ite ?_ ?_
    | intro _
    | split
    | dsimp only

theorem on_restoreLines {M : List StateField} {a : Nat} {a0 : List (Nat × BitVec 128)} {a1 : List Byte} (hM : ([.regs, .sp] : List StateField) ⊆ M) :
 (restoreLines a a0 a1).only (Within M) := by
  induction a0 generalizing a1 with
  | nil =>
    unfold restoreLines
    repeat' first
      | with_reducible exact on_done
      | with_reducible refine on_look fun _ => ?_
      | with_reducible exact on_eff hM rfl
      | dsimp only
  | cons _ _ ih =>
    unfold restoreLines
    repeat' first
      | with_reducible exact on_done
      | with_reducible refine on_look fun _ => ?_
      | with_reducible exact on_nil
      | with_reducible refine on_cons ?_ ?_
      | with_reducible exact on_eff hM rfl
      | with_reducible exact ih
      | with_reducible refine on_putSpList (sub_trans rfl hM)
      | with_reducible refine on_bump (sub_trans rfl hM)
      | dsimp only

theorem on_actContextRestoreDone {M : List StateField} {c : Fin 2048} (hM : ([.regs, .shadows, .commits, .units, .rings, .jobs, .mem, .codingMap, .crcDiff, .buffered, .tlb, .lcSlots, .lcFill, .sp, .arrays, .engines, .ctxs, .entries, .entryNext, .lanes, .classCounts, .ports, .remotes, .windows, .layers, .owed, .phase, .tripHold, .ruin, .relock, .faultsAt, .flog, .flogN, .free, .out] : List StateField) ⊆ M) :
 (actContextRestoreDone c).only (Within M) := by
  unfold actContextRestoreDone
  repeat' first
    | with_reducible exact on_done
    | with_reducible refine on_look fun _ => ?_
    | with_reducible exact on_nil
    | with_reducible refine on_cons ?_ ?_
    | with_reducible exact on_eff hM rfl
    | with_reducible refine on_seq ?_ ?_
    | with_reducible refine on_virtRead (sub_trans rfl hM) ?_
    | with_reducible refine on_loseCtx (sub_trans rfl hM)
    | with_reducible refine on_mapRefused (sub_trans rfl hM)
    | with_reducible refine on_putHandle (sub_trans rfl hM)
    | with_reducible refine on_setBank (sub_trans rfl hM)
    | with_reducible refine on_bump (sub_trans rfl hM)
    | with_reducible refine on_restoreLines (sub_trans rfl hM)
    | with_reducible refine on_setReg64 (sub_trans rfl hM)
    | with_reducible refine on_setFld (sub_trans rfl hM)
    | with_reducible refine on_updArr (sub_trans rfl hM)
    | with_reducible refine on_updCtx (sub_trans rfl hM)
    | with_reducible refine on_restoreEng (sub_trans rfl hM)
    | with_reducible refine on_ite ?_ ?_
    | with_reducible refine only_whenA fun _ => ?_
    | with_reducible refine only_optA fun _ _ => ?_
    | with_reducible refine only_forA fun _ _ => ?_
    | intro _
    | split
    | dsimp only

theorem on_actTeardownOrphanTimeout {M : List StateField} {c : Fin 2048} (hM : ([.regs, .units, .rings, .engines, .ctxs, .entries, .lanes, .layers, .free, .out] : List StateField) ⊆ M) :
 (actTeardownOrphanTimeout c).only (Within M) := by
  unfold actTeardownOrphanTimeout
  repeat' first
    | with_reducible exact on_done
    | with_reducible refine on_look fun _ => ?_
    | with_reducible exact on_eff hM rfl
    | with_reducible refine on_seq ?_ ?_
    | with_reducible refine on_orphanTags (sub_trans rfl hM)
    | with_reducible refine on_settleRetire (sub_trans rfl hM)
    | with_reducible refine only_whenA fun _ => ?_
    | with_reducible refine only_forA fun _ _ => ?_
    | intro _
    | dsimp only

theorem on_tornDown {M : List StateField} {c : Nat} {r : CtxRec} (hM : ([.regs, .rings, .free, .out] : List StateField) ⊆ M) :
 (tornDown c r).only (Within M) := by
  unfold tornDown
  repeat' first
    | with_reducible exact on_done
    | with_reducible refine on_look fun _ => ?_
    | with_reducible exact on_nil
    | with_reducible refine on_cons ?_ ?_
    | with_reducible exact on_eff hM rfl
    | with_reducible refine on_recordErrI (sub_trans rfl hM)
    | with_reducible refine on_raiseIrq (sub_trans rfl hM)
    | with_reducible refine on_bump (sub_trans rfl hM)
    | with_reducible refine on_putEvent (sub_trans rfl hM)
    | with_reducible refine only_whenA fun _ => ?_
    | with_reducible refine only_optA fun _ _ => ?_
    | intro _
    | dsimp only

end Sys2Proof.Machine
end

