-- ==== Sys2Proof/Laws/FieldsTrack.lean ====
section
/-! SUPPORT. The fields that the acts of Machine/Track.lean may change. -/

namespace Sys2Proof.Machine

theorem on_trackRead {M : List StateField} {n : Nat} {f : Func} {va len : Nat} {k : List Byte → Act} (hM : ([.regs, .rings, .jobs, .mem, .codingMap, .crcDiff, .buffered, .tlb, .lcSlots, .free, .out] : List StateField) ⊆ M) (h0 : ∀ x0, (k x0).only (Within M)) :
 (trackRead n f va len k).only (Within M) := by
  unfold trackRead
  repeat' first
    | with_reducible exact on_done
    | with_reducible refine on_look fun _ => ?_
    | with_reducible exact on_eff hM rfl
    | with_reducible exact h0 _
    | with_reducible refine on_virtRead (sub_trans rfl hM) ?_
    | with_reducible refine on_endTrackJob (sub_trans rfl hM)
    | intro _
    | split
    | dsimp only

theorem on_withAnchors {M : List StateField} {f : Func} {anchors : Nat} {k : List (SetCand × List Nat) → Act} {a0 : List SetCand} {a1 : List (SetCand × List Nat)} (hM : ([.regs, .rings, .mem, .codingMap, .crcDiff, .buffered, .tlb, .lcSlots, .free, .out] : List StateField) ⊆ M) (h0 : ∀ x0, (k x0).only (Within M)) :
 (withAnchors f anchors k a0 a1).only (Within M) := by
  induction a0 generalizing a1 with
  | nil =>
    unfold withAnchors
    repeat' first
      | with_reducible exact on_done
      | with_reducible refine on_look fun _ => ?_
      | with_reducible exact on_eff hM rfl
      | with_reducible exact h0 _
      | dsimp only
  | cons _ _ ih =>
    unfold withAnchors
    repeat' first
      | with_reducible exact on_done
      | with_reducible refine on_look fun _ => ?_
      | with_reducible exact on_eff hM rfl
      | with_reducible exact h0 _
      | with_reducible exact ih
      | with_reducible refine on_virtRead (sub_trans rfl hM) ?_
      | intro _
      | split
      | dsimp only

theorem on_runSet {M : List StateField} {n : Nat} {j : Job} {b : List Byte} (hM : ([.regs, .rings, .jobs, .mem, .codingMap, .crcDiff, .held, .heldNext, .buffered, .tlb, .lcSlots, .lcWait, .lcFill, .trust, .free, .out] : List StateField) ⊆ M) :
 (runSet n j b).only (Within M) := by
  unfold runSet
  repeat' first
    | with_reducible exact on_done
    | with_reducible refine on_look fun _ => ?_
    | with_reducible exact on_nil
    | with_reducible refine on_cons ?_ ?_
    | with_reducible exact on_eff hM rfl
    | with_reducible refine on_seq ?_ ?_
    | with_reducible refine on_endTrackJob (sub_trans rfl hM)
    | with_reducible refine on_trackRead (sub_trans rfl hM) ?_
    | with_reducible refine on_recordErr (sub_trans rfl hM)
    | with_reducible refine on_bump (sub_trans rfl hM)
    | with_reducible refine on_withAnchors (sub_trans rfl hM) ?_
    | with_reducible refine on_virtWrite (sub_trans rfl hM) ?_
    | with_reducible refine on_ite ?_ ?_
    | with_reducible refine only_whenA fun _ => ?_
    | intro _
    | dsimp only

theorem on_runGraph {M : List StateField} {n : Nat} {j : Job} {b : List Byte} (hM : ([.regs, .rings, .jobs, .mem, .codingMap, .crcDiff, .buffered, .tlb, .lcSlots, .track, .free, .out] : List StateField) ⊆ M) :
 (runGraph n j b).only (Within M) := by
  unfold runGraph
  repeat' first
    | with_reducible exact on_done
    | with_reducible refine on_look fun _ => ?_
    | with_reducible exact on_nil
    | with_reducible refine on_cons ?_ ?_
    | with_reducible exact on_eff hM rfl
    | with_reducible refine on_endTrackJob (sub_trans rfl hM)
    | with_reducible refine on_trackRead (sub_trans rfl hM) ?_
    | with_reducible refine on_updTrack (sub_trans rfl hM)
    | with_reducible refine on_setRegN (sub_trans rfl hM)
    | with_reducible refine on_raiseIrq (sub_trans rfl hM)
    | with_reducible refine on_pageEvent (sub_trans rfl hM)
    | with_reducible refine on_ite ?_ ?_
    | intro _
    | dsimp only

theorem on_sendOffers {M : List StateField} {t : Nat} {r : TrackRec} {emb : List Byte} (hM : ([.regs, .rings, .mem, .codingMap, .crcDiff, .held, .heldNext, .buffered, .lcSlots, .lcWait, .lcFill, .ports, .remotes, .trust, .track, .free, .out] : List StateField) ⊆ M) :
 (sendOffers t r emb).only (Within M) := by
  unfold sendOffers
  repeat' first
    | with_reducible exact on_done
    | with_reducible refine on_look fun _ => ?_
    | with_reducible exact on_eff hM rfl
    | with_reducible refine on_seq ?_ ?_
    | with_reducible refine on_updTrack (sub_trans rfl hM)
    | with_reducible refine on_bump (sub_trans rfl hM)
    | with_reducible refine on_storeOffer (sub_trans rfl hM)
    | with_reducible refine on_sendTrack (sub_trans rfl hM)
    | with_reducible refine on_ite ?_ ?_
    | with_reducible refine only_forA fun _ _ => ?_
    | intro _
    | dsimp only

theorem on_hitTrack {M : List StateField} {p : Problem} {i : Nat} {r : TrackRec} {d : Det} {cost : Int} (hM : ([.regs, .tcache, .trings, .free, .out] : List StateField) ⊆ M) :
 (hitTrack p i r d cost).only (Within M) := by
  unfold hitTrack
  repeat' first
    | with_reducible exact on_done
    | with_reducible refine on_look fun _ => ?_
    | with_reducible exact on_nil
    | with_reducible refine on_cons ?_ ?_
    | with_reducible exact on_eff hM rfl
    | with_reducible refine on_putRec (sub_trans rfl hM)
    | with_reducible refine on_putCached (sub_trans rfl hM)
    | with_reducible refine on_recEntry (sub_trans rfl hM)
    | with_reducible refine on_bump (sub_trans rfl hM)
    | with_reducible refine on_ite ?_ ?_
    | with_reducible refine only_whenA fun _ => ?_
    | intro _
    | dsimp only

theorem on_takeOffer {M : List StateField} {p : Problem} {o : OfferMsg} {d : Det} {cost : Int} {k : Bool → Act} (hM : ([.regs, .rings, .mem, .codingMap, .crcDiff, .held, .heldNext, .buffered, .tlb, .lcSlots, .lcWait, .lcFill, .ports, .remotes, .trust, .track, .tblk, .tcache, .tcam, .trings, .flog, .flogN, .free, .out] : List StateField) ⊆ M) (h0 : ∀ x0, (k x0).only (Within M)) :
 (takeOffer p o d cost k).only (Within M) := by
  unfold takeOffer
  repeat' first
    | with_reducible exact on_done
    | with_reducible refine on_look fun _ => ?_
    | with_reducible exact on_nil
    | with_reducible refine on_cons ?_ ?_
    | with_reducible exact on_eff hM rfl
    | with_reducible exact h0 _
    | with_reducible refine on_newRec (sub_trans rfl hM) ?_ ?_
    | with_reducible refine on_recordErr (sub_trans rfl hM)
    | with_reducible refine on_bump (sub_trans rfl hM)
    | with_reducible refine on_updTrack (sub_trans rfl hM)
    | with_reducible refine on_recEntry (sub_trans rfl hM)
    | with_reducible refine on_noteTaken (sub_trans rfl hM)
    | with_reducible refine on_sendTrack (sub_trans rfl hM)
    | with_reducible refine on_ite ?_ ?_
    | intro _
    | dsimp only

theorem on_missTrack {M : List StateField} {p : Problem} {i : Nat} {r : TrackRec} (hM : ([.regs, .rings, .mem, .codingMap, .crcDiff, .held, .heldNext, .buffered, .lcSlots, .lcWait, .lcFill, .ports, .remotes, .trust, .track, .tblk, .tcache, .trings, .free, .out] : List StateField) ⊆ M) :
 (missTrack p i r).only (Within M) := by
  unfold missTrack
  repeat' first
    | with_reducible exact on_done
    | with_reducible refine on_look fun _ => ?_
    | with_reducible exact on_nil
    | with_reducible refine on_cons ?_ ?_
    | with_reducible exact on_eff hM rfl
    | with_reducible refine on_seq ?_ ?_
    | with_reducible refine on_endTrack (sub_trans rfl hM)
    | with_reducible refine on_sendOffers (sub_trans rfl hM)
    | with_reducible refine on_putRec (sub_trans rfl hM)
    | with_reducible refine on_recEntry (sub_trans rfl hM)
    | with_reducible refine on_bump (sub_trans rfl hM)
    | with_reducible refine on_ite ?_ ?_
    | intro _
    | dsimp only

theorem on_birth {M : List StateField} {p : Problem} {d : Det} {k : Bool → Act} (hM : ([.regs, .rings, .mem, .codingMap, .crcDiff, .held, .heldNext, .buffered, .tlb, .lcSlots, .lcWait, .lcFill, .trust, .track, .tblk, .tcache, .trings, .flog, .flogN, .free, .out] : List StateField) ⊆ M) (h0 : ∀ x0, (k x0).only (Within M)) :
 (birth p d k).only (Within M) := by
  unfold birth
  repeat' first
    | with_reducible exact on_done
    | with_reducible refine on_look fun _ => ?_
    | with_reducible exact on_nil
    | with_reducible refine on_cons ?_ ?_
    | with_reducible exact on_eff hM rfl
    | with_reducible exact h0 _
    | with_reducible refine on_recordErr (sub_trans rfl hM)
    | with_reducible refine on_bump (sub_trans rfl hM)
    | with_reducible refine on_newIdent (sub_trans rfl hM) ?_
    | with_reducible refine on_newRec (sub_trans rfl hM) ?_ ?_
    | with_reducible refine on_recEntry (sub_trans rfl hM)
    | intro _
    | split
    | dsimp only

theorem on_endProblem {M : List StateField} {p : Problem} {code : Nat} (hM : ([.regs, .rings, .jobs, .track, .free, .out] : List StateField) ⊆ M) :
 (endProblem p code).only (Within M) := by
  unfold endProblem
  repeat' first
    | with_reducible exact on_done
    | with_reducible refine on_look fun _ => ?_
    | with_reducible exact on_eff hM rfl
    | with_reducible refine on_seq ?_ ?_
    | with_reducible refine on_updTrack (sub_trans rfl hM)
    | with_reducible refine on_endTrackJob (sub_trans rfl hM)
    | intro _
    | dsimp only

theorem on_flushCam {M : List StateField} {p : Problem} (hM : ([.regs, .rings, .jobs, .track, .tblk, .tcache, .trings, .free, .out] : List StateField) ⊆ M) :
 (flushCam p).only (Within M) := by
  unfold flushCam
  repeat' first
    | with_reducible exact on_done
    | with_reducible refine on_look fun _ => ?_
    | with_reducible exact on_eff hM rfl
    | with_reducible refine on_seq ?_ ?_
    | with_reducible refine on_withFree (sub_trans rfl hM) ?_
    | with_reducible refine on_endTrack (sub_trans rfl hM)
    | with_reducible refine on_endProblem (sub_trans rfl hM)
    | with_reducible refine only_forA fun _ _ => ?_
    | intro _
    | dsimp only

theorem on_runFlushes {M : List StateField} {a0 : Nat} (hM : ([.regs, .rings, .jobs, .mem, .codingMap, .crcDiff, .held, .heldNext, .buffered, .tlb, .lcSlots, .lcWait, .lcFill, .trust, .track, .tblk, .tcache, .tcam, .trings, .flog, .flogN, .free, .out] : List StateField) ⊆ M) :
 (runFlushes a0).only (Within M) := by
  induction a0 with
  | zero =>
    unfold runFlushes
    repeat' first
      | with_reducible exact on_done
      | with_reducible refine on_look fun _ => ?_
      | with_reducible exact on_eff hM rfl
      | dsimp only
  | succ _ ih =>
    unfold runFlushes
    repeat' first
      | with_reducible exact on_done
      | with_reducible refine on_look fun _ => ?_
      | with_reducible exact on_eff hM rfl
      | with_reducible refine on_seq ?_ ?_
      | with_reducible exact ih
      | with_reducible refine on_fillStand (sub_trans rfl hM)
      | with_reducible refine on_flushCam (sub_trans rfl hM)
      | with_reducible refine only_whenA fun _ => ?_
      | with_reducible refine only_optA fun _ _ => ?_
      | intro _
      | dsimp only

theorem on_coast {M : List StateField} {p : Problem} (hM : ([.regs, .rings, .jobs, .track, .tcache, .trings, .free, .out] : List StateField) ⊆ M) :
 (coast p).only (Within M) := by
  unfold coast
  repeat' first
    | with_reducible exact on_done
    | with_reducible refine on_look fun _ => ?_
    | with_reducible exact on_nil
    | with_reducible refine on_cons ?_ ?_
    | with_reducible exact on_eff hM rfl
    | with_reducible refine on_putRec (sub_trans rfl hM)
    | with_reducible refine on_tringPut (sub_trans rfl hM)
    | with_reducible refine on_recordErr (sub_trans rfl hM)
    | with_reducible refine on_bump (sub_trans rfl hM)
    | with_reducible refine on_endProblem (sub_trans rfl hM)
    | with_reducible refine only_forA fun _ _ => ?_
    | intro _
    | dsimp only

theorem on_hitAll {M : List StateField} {p : Problem} {a0 : List (Det × Cand × Int)} {a1 : Nat} {a2 : Nat → Act} (hM : ([.regs, .rings, .mem, .codingMap, .crcDiff, .held, .heldNext, .buffered, .tlb, .lcSlots, .lcWait, .lcFill, .ports, .remotes, .trust, .track, .tblk, .tcache, .tcam, .trings, .flog, .flogN, .free, .out] : List StateField) ⊆ M) (h0 : ∀ x0, (a2 x0).only (Within M)) :
 (hitAll p a0 a1 a2).only (Within M) := by
  induction a0 generalizing a1 with
  | nil =>
    unfold hitAll
    repeat' first
      | with_reducible exact on_done
      | with_reducible refine on_look fun _ => ?_
      | with_reducible exact on_eff hM rfl
      | with_reducible exact h0 _
      | dsimp only
  | cons _ _ ih =>
    unfold hitAll
    repeat' first
      | with_reducible exact on_done
      | with_reducible refine on_look fun _ => ?_
      | with_reducible exact on_eff hM rfl
      | with_reducible refine on_seq ?_ ?_
      | with_reducible exact h0 _
      | with_reducible exact ih
      | with_reducible refine on_hitTrack (sub_trans rfl hM)
      | with_reducible refine on_takeOffer (sub_trans rfl hM) ?_
      | intro _
      | split
      | dsimp only

theorem on_birthAll {M : List StateField} {p : Problem} {a0 : List Det} {a1 : Nat} {a2 : Nat → Act} (hM : ([.regs, .rings, .mem, .codingMap, .crcDiff, .held, .heldNext, .buffered, .tlb, .lcSlots, .lcWait, .lcFill, .trust, .track, .tblk, .tcache, .trings, .flog, .flogN, .free, .out] : List StateField) ⊆ M) (h0 : ∀ x0, (a2 x0).only (Within M)) :
 (birthAll p a0 a1 a2).only (Within M) := by
  induction a0 generalizing a1 with
  | nil =>
    unfold birthAll
    repeat' first
      | with_reducible exact on_done
      | with_reducible refine on_look fun _ => ?_
      | with_reducible exact on_eff hM rfl
      | with_reducible exact h0 _
      | dsimp only
  | cons _ _ ih =>
    unfold birthAll
    repeat' first
      | with_reducible exact on_done
      | with_reducible refine on_look fun _ => ?_
      | with_reducible exact on_eff hM rfl
      | with_reducible exact h0 _
      | with_reducible exact ih
      | with_reducible refine on_birth (sub_trans rfl hM) ?_
      | intro _
      | dsimp only

theorem on_solve {M : List StateField} {p : Problem} {ds : List Det} (hM : ([.regs, .rings, .jobs, .mem, .codingMap, .crcDiff, .held, .heldNext, .buffered, .tlb, .lcSlots, .lcWait, .lcFill, .ports, .remotes, .trust, .track, .tblk, .tcache, .tcam, .trings, .flog, .flogN, .free, .out] : List StateField) ⊆ M) :
 (solve p ds).only (Within M) := by
  unfold solve
  repeat' first
    | with_reducible exact on_done
    | with_reducible refine on_look fun _ => ?_
    | with_reducible exact on_nil
    | with_reducible refine on_cons ?_ ?_
    | with_reducible exact on_eff hM rfl
    | with_reducible refine on_seq ?_ ?_
    | with_reducible refine on_cacheRoom (sub_trans rfl hM) ?_
    | with_reducible refine on_recordErr (sub_trans rfl hM)
    | with_reducible refine on_bump (sub_trans rfl hM)
    | with_reducible refine on_hitAll (sub_trans rfl hM) ?_
    | with_reducible refine on_missTrack (sub_trans rfl hM)
    | with_reducible refine on_birthAll (sub_trans rfl hM) ?_
    | with_reducible refine on_tringPut (sub_trans rfl hM)
    | with_reducible refine on_endProblem (sub_trans rfl hM)
    | with_reducible refine on_ite ?_ ?_
    | with_reducible refine only_whenA fun _ => ?_
    | with_reducible refine only_optA fun _ _ => ?_
    | with_reducible refine only_forA fun _ _ => ?_
    | intro _
    | split
    | dsimp only

theorem on_runProblem {M : List StateField} {p : Problem} {f : Func} (hM : ([.regs, .rings, .jobs, .mem, .codingMap, .crcDiff, .held, .heldNext, .buffered, .tlb, .lcSlots, .lcWait, .lcFill, .ports, .remotes, .trust, .track, .tblk, .tcache, .tcam, .trings, .flog, .flogN, .free, .out] : List StateField) ⊆ M) :
 (runProblem p f).only (Within M) := by
  unfold runProblem
  repeat' first
    | with_reducible exact on_done
    | with_reducible refine on_look fun _ => ?_
    | with_reducible exact on_eff hM rfl
    | with_reducible refine on_endProblem (sub_trans rfl hM)
    | with_reducible refine on_virtRead (sub_trans rfl hM) ?_
    | with_reducible refine on_solve (sub_trans rfl hM)
    | with_reducible refine on_ite ?_ ?_
    | intro _
    | split
    | dsimp only

theorem on_actProblemStart {M : List StateField} {now : Dword} (hM : ([.regs, .rings, .jobs, .time, .mem, .codingMap, .crcDiff, .held, .heldNext, .buffered, .tlb, .lcSlots, .lcWait, .lcFill, .ports, .remotes, .trust, .track, .tblk, .tcache, .tcam, .trings, .flog, .flogN, .free, .out] : List StateField) ⊆ M) :
 (actProblemStart now).only (Within M) := by
  unfold actProblemStart
  repeat' first
    | with_reducible exact on_done
    | with_reducible refine on_look fun _ => ?_
    | with_reducible exact on_eff hM rfl
    | with_reducible refine on_seq ?_ ?_
    | with_reducible refine on_tick (sub_trans rfl hM)
    | with_reducible refine on_touchCam (sub_trans rfl hM)
    | with_reducible refine on_coast (sub_trans rfl hM)
    | with_reducible refine on_runProblem (sub_trans rfl hM)
    | with_reducible refine on_runFlushes (sub_trans rfl hM)
    | with_reducible refine on_ite ?_ ?_
    | with_reducible refine only_whenA fun _ => ?_
    | with_reducible refine only_optA fun _ _ => ?_
    | intro _
    | dsimp only

theorem on_actPartitionResume {M : List StateField} {f : Func} {t : Nat} (hM : ([.regs, .rings, .jobs, .mem, .codingMap, .crcDiff, .held, .heldNext, .buffered, .tlb, .lcSlots, .lcWait, .lcFill, .trust, .track, .tblk, .tcache, .tcam, .trings, .flog, .flogN, .free, .out] : List StateField) ⊆ M) :
 (actPartitionResume f t).only (Within M) := by
  unfold actPartitionResume
  repeat' first
    | with_reducible exact on_done
    | with_reducible refine on_look fun _ => ?_
    | with_reducible exact on_eff hM rfl
    | with_reducible refine on_seq ?_ ?_
    | with_reducible refine on_withWrite (sub_trans rfl hM) ?_
    | with_reducible refine on_setFld (sub_trans rfl hM)
    | with_reducible refine on_runFlushes (sub_trans rfl hM)
    | with_reducible refine only_whenA fun _ => ?_
    | intro _
    | dsimp only

theorem on_queueProblem {M : List StateField} {n : Nat} {j : Job} {b : List Byte} (hM : ([.regs, .rings, .jobs, .mem, .codingMap, .crcDiff, .buffered, .tlb, .lcSlots, .track, .tcam, .free, .out] : List StateField) ⊆ M) :
 (queueProblem n j b).only (Within M) := by
  unfold queueProblem
  repeat' first
    | with_reducible exact on_done
    | with_reducible refine on_look fun _ => ?_
    | with_reducible exact on_eff hM rfl
    | with_reducible refine on_seq ?_ ?_
    | with_reducible refine on_endTrackJob (sub_trans rfl hM)
    | with_reducible refine on_trackRead (sub_trans rfl hM) ?_
    | with_reducible refine on_updTrack (sub_trans rfl hM)
    | with_reducible refine on_ite ?_ ?_
    | intro _
    | split
    | dsimp only

theorem on_startTrack {M : List StateField} {n : Nat} (hM : ([.regs, .rings, .jobs, .mem, .codingMap, .crcDiff, .held, .heldNext, .buffered, .tlb, .lcSlots, .lcWait, .lcFill, .trust, .track, .tblk, .tcache, .tcam, .trings, .flog, .flogN, .free, .out] : List StateField) ⊆ M) :
 (startTrack n).only (Within M) := by
  unfold startTrack
  repeat' first
    | with_reducible exact on_done
    | with_reducible refine on_look fun _ => ?_
    | with_reducible exact on_eff hM rfl
    | with_reducible refine on_seq ?_ ?_
    | with_reducible refine on_endTrackJob (sub_trans rfl hM)
    | with_reducible refine on_withBody (sub_trans rfl hM) ?_
    | with_reducible refine on_runSet (sub_trans rfl hM)
    | with_reducible refine on_queueProblem (sub_trans rfl hM)
    | with_reducible refine on_runGraph (sub_trans rfl hM)
    | with_reducible refine on_updTrack (sub_trans rfl hM)
    | with_reducible refine on_runFlushes (sub_trans rfl hM)
    | with_reducible refine on_ite ?_ ?_
    | with_reducible refine only_optA fun _ _ => ?_
    | intro _
    | split
    | dsimp only

theorem on_trackJob {M : List StateField} {ops : List Nat} {f : Func} {ring : Fin 8} {d : BitVec 1024} (hM : ([.regs, .rings, .jobs, .jobNext, .mem, .codingMap, .crcDiff, .held, .heldNext, .buffered, .tlb, .lcSlots, .lcWait, .lcFill, .trust, .track, .tblk, .tcache, .tcam, .trings, .flog, .flogN, .free, .out] : List StateField) ⊆ M) :
 (trackJob ops f ring d).only (Within M) := by
  unfold trackJob
  repeat' first
    | with_reducible exact on_done
    | with_reducible refine on_look fun _ => ?_
    | with_reducible exact on_eff hM rfl
    | with_reducible refine on_ofKind (sub_trans rfl hM) ?_
    | with_reducible refine on_acceptJob (sub_trans rfl hM) ?_
    | with_reducible refine on_endTrackJob (sub_trans rfl hM)
    | with_reducible refine on_startIfOpen (sub_trans rfl hM) ?_
    | with_reducible refine on_startTrack (sub_trans rfl hM)
    | with_reducible refine only_whenA fun _ => ?_
    | intro _
    | split
    | dsimp only

theorem on_actOfferExpiry {M : List StateField} {now : Dword} (hM : ([.regs, .time, .track] : List StateField) ⊆ M) :
 (actOfferExpiry now).only (Within M) := by
  unfold actOfferExpiry
  repeat' first
    | with_reducible exact on_done
    | with_reducible refine on_look fun _ => ?_
    | with_reducible exact on_eff hM rfl
    | with_reducible refine on_seq ?_ ?_
    | with_reducible refine on_tick (sub_trans rfl hM)
    | with_reducible refine on_bump (sub_trans rfl hM)
    | with_reducible refine on_updTrack (sub_trans rfl hM)
    | intro _
    | dsimp only

theorem on_actTpRingConsWrite {M : List StateField} {f : Func} {t : Nat} {v : Word} (hM : ([.regs, .rings, .trings, .free, .out] : List StateField) ⊆ M) :
 (actTpRingConsWrite f t v).only (Within M) := by
  unfold actTpRingConsWrite
  repeat' first
    | with_reducible exact on_done
    | with_reducible refine on_look fun _ => ?_
    | with_reducible exact on_eff hM rfl
    | with_reducible refine on_seq ?_ ?_
    | with_reducible refine on_withWrite (sub_trans rfl hM) ?_
    | with_reducible refine on_hostErr (sub_trans rfl hM)
    | with_reducible refine on_setReg (sub_trans rfl hM)
    | with_reducible refine on_tringWrite (sub_trans rfl hM)
    | with_reducible refine on_ite ?_ ?_
    | with_reducible refine only_whenA fun _ => ?_
    | intro _
    | dsimp only

theorem on_actTrackRingTimer {M : List StateField} {t : Nat} {now : Dword} (hM : ([.regs, .time, .trings, .out] : List StateField) ⊆ M) :
 (actTrackRingTimer t now).only (Within M) := by
  unfold actTrackRingTimer
  repeat' first
    | with_reducible exact on_done
    | with_reducible refine on_look fun _ => ?_
    | with_reducible exact on_eff hM rfl
    | with_reducible refine on_seq ?_ ?_
    | with_reducible refine on_tick (sub_trans rfl hM)
    | with_reducible refine on_raiseIrq (sub_trans rfl hM)
    | with_reducible refine only_whenA fun _ => ?_
    | intro _
    | dsimp only

end Sys2Proof.Machine
end

