-- ==== Sys2Proof/Laws/FieldsLandingCache.lean ====
section
/-! SUPPORT. The fields that the acts of Machine/LandingCache.lean may change. -/

namespace Sys2Proof.Machine

theorem on_bundleEvent {M : List StateField} {j : Job} {code : Nat} (hM : ([.regs, .rings, .free, .out] : List StateField) ⊆ M) :
 (bundleEvent j code).only (Within M) := by
  unfold bundleEvent
  repeat' first
    | with_reducible exact on_done
    | with_reducible refine on_look fun _ => ?_
    | with_reducible exact on_eff hM rfl
    | with_reducible refine on_jobEvent (sub_trans rfl hM)
    | intro _
    | dsimp only

theorem on_endBundle {M : List StateField} {n code : Nat} (hM : ([.regs, .rings, .jobs, .free, .out] : List StateField) ⊆ M) :
 (endBundle n code).only (Within M) := by
  unfold endBundle
  repeat' first
    | with_reducible exact on_done
    | with_reducible refine on_look fun _ => ?_
    | with_reducible exact on_eff hM rfl
    | with_reducible refine on_completeJob (sub_trans rfl hM) ?_
    | with_reducible refine on_bundleEvent (sub_trans rfl hM)
    | with_reducible refine only_optA fun _ _ => ?_
    | intro _
    | dsimp only

theorem on_lcRefuse {M : List StateField} {n code : Nat} (hM : ([.regs, .rings, .jobs, .free, .out] : List StateField) ⊆ M) :
 (lcRefuse n code).only (Within M) := by
  unfold lcRefuse
  repeat' first
    | with_reducible exact on_done
    | with_reducible refine on_look fun _ => ?_
    | with_reducible exact on_nil
    | with_reducible refine on_cons ?_ ?_
    | with_reducible exact on_eff hM rfl
    | with_reducible refine on_recordErr (sub_trans rfl hM)
    | with_reducible refine on_bump (sub_trans rfl hM)
    | with_reducible refine on_endBundle (sub_trans rfl hM)
    | dsimp only

theorem on_lcEvict {M : List StateField} {q : LcInstall} (hM : ([.regs, .rings, .jobs, .lcSlots, .free, .out] : List StateField) ⊆ M) :
 (lcEvict q).only (Within M) := by
  unfold lcEvict
  repeat' first
    | with_reducible exact on_done
    | with_reducible refine on_look fun _ => ?_
    | with_reducible exact on_eff hM rfl
    | with_reducible refine on_seq ?_ ?_
    | with_reducible refine on_endBundle (sub_trans rfl hM)
    | with_reducible refine on_lcRefuse (sub_trans rfl hM)
    | with_reducible refine on_ite ?_ ?_
    | intro _
    | dsimp only

theorem on_lcSetPins {M : List StateField} {q : LcInstall} (hM : ([.regs, .rings, .jobs, .lcSlots, .free, .out] : List StateField) ⊆ M) :
 (lcSetPins q).only (Within M) := by
  unfold lcSetPins
  repeat' first
    | with_reducible exact on_done
    | with_reducible refine on_look fun _ => ?_
    | with_reducible exact on_eff hM rfl
    | with_reducible refine on_seq ?_ ?_
    | with_reducible refine on_lcRefuse (sub_trans rfl hM)
    | with_reducible refine on_endBundle (sub_trans rfl hM)
    | with_reducible refine on_ite ?_ ?_
    | intro _
    | split
    | dsimp only

theorem on_lcNext {M : List StateField} {a0 : Nat} (hM : ([.regs, .rings, .jobs, .lcSlots, .lcWait, .free, .out] : List StateField) ⊆ M) :
 (lcNext a0).only (Within M) := by
  induction a0 with
  | zero =>
    unfold lcNext
    repeat' first
      | with_reducible exact on_done
      | with_reducible refine on_look fun _ => ?_
      | with_reducible exact on_eff hM rfl
      | dsimp only
  | succ _ ih =>
    unfold lcNext
    repeat' first
      | with_reducible exact on_done
      | with_reducible refine on_look fun _ => ?_
      | with_reducible exact on_nil
      | with_reducible refine on_cons ?_ ?_
      | with_reducible exact on_eff hM rfl
      | with_reducible exact ih
      | with_reducible refine on_lcEvict (sub_trans rfl hM)
      | with_reducible refine on_lcSetPins (sub_trans rfl hM)
      | with_reducible refine on_ite ?_ ?_
      | with_reducible refine only_whenA fun _ => ?_
      | intro _
      | split
      | dsimp only

theorem on_lcGo {M : List StateField} (hM : ([.regs, .rings, .jobs, .lcSlots, .lcWait, .free, .out] : List StateField) ⊆ M) :
 (lcGo ).only (Within M) := by
  unfold lcGo
  repeat' first
    | with_reducible exact on_done
    | with_reducible refine on_look fun _ => ?_
    | with_reducible exact on_eff hM rfl
    | with_reducible refine on_lcNext (sub_trans rfl hM)
    | intro _
    | dsimp only

theorem on_lcAsk {M : List StateField} {q : LcInstall} (hM : ([.regs, .rings, .jobs, .lcSlots, .lcWait, .free, .out] : List StateField) ⊆ M) :
 (lcAsk q).only (Within M) := by
  unfold lcAsk
  repeat' first
    | with_reducible exact on_done
    | with_reducible refine on_look fun _ => ?_
    | with_reducible exact on_eff hM rfl
    | with_reducible refine on_seq ?_ ?_
    | with_reducible refine on_lcGo (sub_trans rfl hM)
    | intro _
    | dsimp only

theorem on_actLcInstall {M : List StateField} (hM : ([.regs, .rings, .jobs, .lcSlots, .lcWait, .lcFill, .free, .out] : List StateField) ⊆ M) :
 (actLcInstall ).only (Within M) := by
  unfold actLcInstall
  repeat' first
    | with_reducible exact on_done
    | with_reducible refine on_look fun _ => ?_
    | with_reducible exact on_nil
    | with_reducible refine on_cons ?_ ?_
    | with_reducible exact on_eff hM rfl
    | with_reducible refine on_seq ?_ ?_
    | with_reducible refine on_lcRefuse (sub_trans rfl hM)
    | with_reducible refine on_lcNext (sub_trans rfl hM)
    | with_reducible refine on_recordErr (sub_trans rfl hM)
    | with_reducible refine on_bump (sub_trans rfl hM)
    | with_reducible refine on_endBundle (sub_trans rfl hM)
    | with_reducible refine on_pageEvent (sub_trans rfl hM)
    | with_reducible refine on_ite ?_ ?_
    | with_reducible refine only_forA fun _ _ => ?_
    | intro _
    | split
    | dsimp only

theorem on_actLcFillDone {M : List StateField} (hM : ([.regs, .rings, .jobs, .mem, .codingMap, .crcDiff, .buffered, .tlb, .lcSlots, .lcWait, .lcFill, .free, .out] : List StateField) ⊆ M) :
 (actLcFillDone ).only (Within M) := by
  unfold actLcFillDone
  repeat' first
    | with_reducible exact on_done
    | with_reducible refine on_look fun _ => ?_
    | with_reducible exact on_nil
    | with_reducible refine on_cons ?_ ?_
    | with_reducible exact on_eff hM rfl
    | with_reducible refine on_seq ?_ ?_
    | with_reducible refine on_lcRefuse (sub_trans rfl hM)
    | with_reducible refine on_virtRead (sub_trans rfl hM) ?_
    | with_reducible refine on_bump (sub_trans rfl hM)
    | with_reducible refine on_pageEvent (sub_trans rfl hM)
    | with_reducible refine on_endJob (sub_trans rfl hM)
    | with_reducible refine on_lcGo (sub_trans rfl hM)
    | with_reducible refine on_ite ?_ ?_
    | with_reducible refine only_optA fun _ _ => ?_
    | intro _
    | split
    | dsimp only

theorem on_startLc {M : List StateField} {n : Nat} (hM : ([.regs, .rings, .jobs, .lcSlots, .lcWait, .free, .out] : List StateField) ⊆ M) :
 (startLc n).only (Within M) := by
  unfold startLc
  repeat' first
    | with_reducible exact on_done
    | with_reducible refine on_look fun _ => ?_
    | with_reducible exact on_eff hM rfl
    | with_reducible refine on_lcAsk (sub_trans rfl hM)
    | with_reducible refine only_optA fun _ _ => ?_
    | intro _
    | dsimp only

theorem on_lcJob {M : List StateField} {op : Nat} {f : Func} {ring : Fin 8} {d : BitVec 1024} (hM : ([.regs, .rings, .jobs, .jobNext, .lcSlots, .lcWait, .free, .out] : List StateField) ⊆ M) :
 (lcJob op f ring d).only (Within M) := by
  unfold lcJob
  repeat' first
    | with_reducible exact on_done
    | with_reducible refine on_look fun _ => ?_
    | with_reducible exact on_eff hM rfl
    | with_reducible refine on_ofKind (sub_trans rfl hM) ?_
    | with_reducible refine on_acceptJob (sub_trans rfl hM) ?_
    | with_reducible refine on_lcRefuse (sub_trans rfl hM)
    | with_reducible refine on_startIfOpen (sub_trans rfl hM) ?_
    | with_reducible refine on_startLc (sub_trans rfl hM)
    | with_reducible refine on_ite ?_ ?_
    | with_reducible refine only_whenA fun _ => ?_
    | intro _
    | dsimp only

end Sys2Proof.Machine
end

