-- ==== Sys2Proof/Laws/FieldsTrust.lean ====
section
/-! SUPPORT. The fields that the acts of Machine/Trust.lean may change. -/

namespace Sys2Proof.Machine

theorem on_updTrust {M : List StateField} {f : TrustSt → TrustSt} (hM : ([.trust] : List StateField) ⊆ M) :
 (updTrust f).only (Within M) := by
  unfold updTrust
  repeat' first
    | with_reducible exact on_done
    | with_reducible refine on_look fun _ => ?_
    | with_reducible exact on_eff hM rfl
    | intro _

theorem on_updKeep {M : List StateField} {f : KeepSt → KeepSt} (hM : ([.keep] : List StateField) ⊆ M) :
 (updKeep f).only (Within M) := by
  unfold updKeep
  repeat' first
    | with_reducible exact on_done
    | with_reducible refine on_look fun _ => ?_
    | with_reducible exact on_eff hM rfl
    | intro _

theorem on_setRegBytes {M : List StateField} {p : Nat} {a0 : Nat} {a1 : Nat} {a2 : List Byte} (hM : ([.regs] : List StateField) ⊆ M) :
 (setRegBytes p a0 a1 a2).only (Within M) := by
  induction a0 generalizing a1 a2 with
  | zero =>
    unfold setRegBytes
    repeat' first
      | with_reducible exact on_done
      | with_reducible refine on_look fun _ => ?_
      | with_reducible exact on_eff hM rfl
      | dsimp only
  | succ _ ih =>
    unfold setRegBytes
    repeat' first
      | with_reducible exact on_done
      | with_reducible refine on_look fun _ => ?_
      | with_reducible exact on_eff hM rfl
      | with_reducible refine on_seq ?_ ?_
      | with_reducible exact ih
      | with_reducible refine on_setRegN (sub_trans rfl hM)
      | dsimp only

theorem on_showKeep {M : List StateField} (hM : ([.regs] : List StateField) ⊆ M) :
 (showKeep ).only (Within M) := by
  unfold showKeep
  repeat' first
    | with_reducible exact on_done
    | with_reducible refine on_look fun _ => ?_
    | with_reducible exact on_nil
    | with_reducible refine on_cons ?_ ?_
    | with_reducible exact on_eff hM rfl
    | with_reducible refine on_seq ?_ ?_
    | with_reducible refine on_setRegN (sub_trans rfl hM)
    | with_reducible refine on_setFld (sub_trans rfl hM)
    | with_reducible refine on_setRegBytes (sub_trans rfl hM)
    | intro _
    | dsimp only

theorem on_endKeep {M : List StateField} {n setting code : Nat} (hM : ([.regs, .rings, .jobs, .free, .out] : List StateField) ⊆ M) :
 (endKeep n setting code).only (Within M) := by
  unfold endKeep
  repeat' first
    | with_reducible exact on_done
    | with_reducible refine on_look fun _ => ?_
    | with_reducible exact on_eff hM rfl
    | with_reducible refine on_seq ?_ ?_
    | with_reducible refine on_completeJob (sub_trans rfl hM) ?_
    | with_reducible refine on_jobEvent (sub_trans rfl hM)
    | with_reducible refine only_optA fun _ _ => ?_
    | intro _
    | dsimp only

theorem on_keepRefuse {M : List StateField} {n setting cause : Nat} (hM : ([.regs, .rings, .jobs, .free, .out] : List StateField) ⊆ M) :
 (keepRefuse n setting cause).only (Within M) := by
  unfold keepRefuse
  repeat' first
    | with_reducible exact on_done
    | with_reducible refine on_look fun _ => ?_
    | with_reducible exact on_nil
    | with_reducible refine on_cons ?_ ?_
    | with_reducible exact on_eff hM rfl
    | with_reducible refine on_recordErr (sub_trans rfl hM)
    | with_reducible refine on_bump (sub_trans rfl hM)
    | with_reducible refine on_endKeep (sub_trans rfl hM)
    | dsimp only

theorem on_writeBody {M : List StateField} {j : Job} {off : Nat} {bs : List Byte} {k : Bool → Act} (hM : ([.regs, .rings, .mem, .codingMap, .crcDiff, .held, .heldNext, .buffered, .tlb, .lcSlots, .lcWait, .lcFill, .trust, .free, .out] : List StateField) ⊆ M) (h0 : ∀ x0, (k x0).only (Within M)) :
 (writeBody j off bs k).only (Within M) := by
  unfold writeBody
  repeat' first
    | with_reducible exact on_done
    | with_reducible refine on_look fun _ => ?_
    | with_reducible exact on_eff hM rfl
    | with_reducible refine on_seq ?_ ?_
    | with_reducible exact h0 _
    | with_reducible refine on_virtWrite (sub_trans rfl hM) ?_
    | with_reducible refine on_ite ?_ ?_
    | intro _
    | dsimp only

theorem on_attest {M : List StateField} {n : Nat} {j : Job} (hM : ([.regs, .rings, .jobs, .mem, .codingMap, .crcDiff, .held, .heldNext, .buffered, .tlb, .lcSlots, .lcWait, .lcFill, .trust, .free, .out] : List StateField) ⊆ M) :
 (attest n j).only (Within M) := by
  unfold attest
  repeat' first
    | with_reducible exact on_done
    | with_reducible refine on_look fun _ => ?_
    | with_reducible exact on_eff hM rfl
    | with_reducible refine on_seq ?_ ?_
    | with_reducible refine on_keepRefuse (sub_trans rfl hM)
    | with_reducible refine on_bump (sub_trans rfl hM)
    | with_reducible refine on_writeBody (sub_trans rfl hM) ?_
    | with_reducible refine on_endKeep (sub_trans rfl hM)
    | with_reducible refine on_ite ?_ ?_
    | intro _
    | dsimp only

theorem on_beginCommit {M : List StateField} {n id : Nat} {value shown : List Byte} {signer : Option (List Byte)} {slot : Option IdSlot} (hM : ([.regs, .rings, .jobs, .keep, .trust, .free, .out] : List StateField) ⊆ M) :
 (beginCommit n id value shown signer slot).only (Within M) := by
  unfold beginCommit
  repeat' first
    | with_reducible exact on_done
    | with_reducible refine on_look fun _ => ?_
    | with_reducible exact on_nil
    | with_reducible refine on_cons ?_ ?_
    | with_reducible exact on_eff hM rfl
    | with_reducible refine on_seq ?_ ?_
    | with_reducible refine on_keepRefuse (sub_trans rfl hM)
    | with_reducible refine on_updTrust (sub_trans rfl hM)
    | with_reducible refine on_showKeep (sub_trans rfl hM)
    | with_reducible refine on_ite ?_ ?_
    | intro _
    | dsimp only

theorem on_ordinarySet {M : List StateField} {n : Nat} {j : Job} (hM : ([.regs, .rings, .jobs, .mem, .codingMap, .crcDiff, .buffered, .tlb, .lcSlots, .keep, .trust, .free, .out] : List StateField) ⊆ M) :
 (ordinarySet n j).only (Within M) := by
  unfold ordinarySet
  repeat' first
    | with_reducible exact on_done
    | with_reducible refine on_look fun _ => ?_
    | with_reducible exact on_eff hM rfl
    | with_reducible refine on_withBody (sub_trans rfl hM) ?_
    | with_reducible refine on_keepRefuse (sub_trans rfl hM)
    | with_reducible refine on_beginCommit (sub_trans rfl hM)
    | intro _
    | split
    | dsimp only

theorem on_withFrees {M : List StateField} {a0 : Nat} {a1 : List Byte} {a2 : List Byte → Act} (hM : ([.free] : List StateField) ⊆ M) (h0 : ∀ x0, (a2 x0).only (Within M)) :
 (withFrees a0 a1 a2).only (Within M) := by
  induction a0 generalizing a1 with
  | zero =>
    unfold withFrees
    repeat' first
      | with_reducible exact on_done
      | with_reducible refine on_look fun _ => ?_
      | with_reducible exact on_eff hM rfl
      | with_reducible exact h0 _
      | dsimp only
  | succ _ ih =>
    unfold withFrees
    repeat' first
      | with_reducible exact on_done
      | with_reducible refine on_look fun _ => ?_
      | with_reducible exact on_eff hM rfl
      | with_reducible exact h0 _
      | with_reducible exact ih
      | with_reducible refine on_withFree (sub_trans rfl hM) ?_
      | intro _
      | dsimp only

theorem on_enrol {M : List StateField} {n : Nat} {j : Job} {signer : List Byte} (hM : ([.regs, .rings, .jobs, .mem, .codingMap, .crcDiff, .held, .heldNext, .buffered, .tlb, .lcSlots, .lcWait, .lcFill, .keep, .trust, .free, .out] : List StateField) ⊆ M) :
 (enrol n j signer).only (Within M) := by
  unfold enrol
  repeat' first
    | with_reducible exact on_done
    | with_reducible refine on_look fun _ => ?_
    | with_reducible exact on_eff hM rfl
    | with_reducible refine on_seq ?_ ?_
    | with_reducible refine on_keepRefuse (sub_trans rfl hM)
    | with_reducible refine on_withFrees (sub_trans rfl hM) ?_
    | with_reducible refine on_writeBody (sub_trans rfl hM) ?_
    | with_reducible refine on_beginCommit (sub_trans rfl hM)
    | with_reducible refine on_ite ?_ ?_
    | intro _
    | dsimp only

theorem on_signedChange {M : List StateField} {n : Nat} {j : Job} (hM : ([.regs, .rings, .jobs, .mem, .codingMap, .crcDiff, .held, .heldNext, .buffered, .tlb, .lcSlots, .lcWait, .lcFill, .keep, .trust, .free, .out] : List StateField) ⊆ M) :
 (signedChange n j).only (Within M) := by
  unfold signedChange
  repeat' first
    | with_reducible exact on_done
    | with_reducible refine on_look fun _ => ?_
    | with_reducible exact on_eff hM rfl
    | with_reducible refine on_withBody (sub_trans rfl hM) ?_
    | with_reducible refine on_keepRefuse (sub_trans rfl hM)
    | with_reducible refine on_enrol (sub_trans rfl hM)
    | with_reducible refine on_beginCommit (sub_trans rfl hM)
    | with_reducible refine on_ite ?_ ?_
    | intro _
    | split
    | dsimp only

theorem on_serveKeep {M : List StateField} {n : Nat} {j : Job} (hM : ([.regs, .rings, .jobs, .mem, .codingMap, .crcDiff, .held, .heldNext, .buffered, .tlb, .lcSlots, .lcWait, .lcFill, .keep, .trust, .free, .out] : List StateField) ⊆ M) :
 (serveKeep n j).only (Within M) := by
  unfold serveKeep
  repeat' first
    | with_reducible exact on_done
    | with_reducible refine on_look fun _ => ?_
    | with_reducible exact on_eff hM rfl
    | with_reducible refine on_keepRefuse (sub_trans rfl hM)
    | with_reducible refine on_ordinarySet (sub_trans rfl hM)
    | with_reducible refine on_signedChange (sub_trans rfl hM)
    | with_reducible refine on_attest (sub_trans rfl hM)
    | with_reducible refine on_ite ?_ ?_
    | split
    | dsimp only

theorem on_imagePages {M : List StateField} {f : Func} {k : List (Nat × Nat) → Act} {a0 : Nat} {a1 : Nat} {a2 : Nat} {a3 : List (Nat × Nat)} (hM : ([.regs, .rings, .mem, .codingMap, .crcDiff, .buffered, .tlb, .free, .out] : List StateField) ⊆ M) (h0 : ∀ x0, (k x0).only (Within M)) :
 (imagePages f k a0 a1 a2 a3).only (Within M) := by
  induction a0 generalizing a1 a2 a3 with
  | zero =>
    unfold imagePages
    repeat' first
      | with_reducible exact on_done
      | with_reducible refine on_look fun _ => ?_
      | with_reducible exact on_eff hM rfl
      | with_reducible exact h0 _
      | dsimp only
  | succ _ ih =>
    unfold imagePages
    repeat' first
      | with_reducible exact on_done
      | with_reducible refine on_look fun _ => ?_
      | with_reducible exact on_eff hM rfl
      | with_reducible exact h0 _
      | with_reducible exact ih
      | with_reducible refine on_translate (sub_trans rfl hM) ?_
      | with_reducible refine on_ite ?_ ?_
      | intro _
      | split
      | dsimp only

theorem on_placeImage {M : List StateField} {q : LcInstall} {k : LcInstall → Act} (hM : ([.regs, .rings, .mem, .codingMap, .crcDiff, .buffered, .tlb, .free, .out] : List StateField) ⊆ M) (h0 : ∀ x0, (k x0).only (Within M)) :
 (placeImage q k).only (Within M) := by
  unfold placeImage
  repeat' first
    | with_reducible exact on_done
    | with_reducible refine on_look fun _ => ?_
    | with_reducible exact on_eff hM rfl
    | with_reducible exact h0 _
    | with_reducible refine on_imagePages (sub_trans rfl hM) ?_
    | intro _
    | dsimp only

theorem on_startCheck {M : List StateField} {n : Nat} {j : Job} (hM : ([.regs, .rings, .mem, .codingMap, .crcDiff, .buffered, .tlb, .trust, .free, .out] : List StateField) ⊆ M) :
 (startCheck n j).only (Within M) := by
  unfold startCheck
  repeat' first
    | with_reducible exact on_done
    | with_reducible refine on_look fun _ => ?_
    | with_reducible exact on_eff hM rfl
    | with_reducible refine on_placeImage (sub_trans rfl hM) ?_
    | with_reducible refine on_updTrust (sub_trans rfl hM)
    | intro _
    | dsimp only

theorem on_trustNext {M : List StateField} {a0 : Nat} (hM : ([.regs, .rings, .jobs, .mem, .codingMap, .crcDiff, .held, .heldNext, .buffered, .tlb, .lcSlots, .lcWait, .lcFill, .keep, .trust, .free, .out] : List StateField) ⊆ M) :
 (trustNext a0).only (Within M) := by
  induction a0 with
  | zero =>
    unfold trustNext
    repeat' first
      | with_reducible exact on_done
      | with_reducible refine on_look fun _ => ?_
      | with_reducible exact on_eff hM rfl
      | dsimp only
  | succ _ ih =>
    unfold trustNext
    repeat' first
      | with_reducible exact on_done
      | with_reducible refine on_look fun _ => ?_
      | with_reducible exact on_eff hM rfl
      | with_reducible refine on_seq ?_ ?_
      | with_reducible exact ih
      | with_reducible refine on_updTrust (sub_trans rfl hM)
      | with_reducible refine on_startCheck (sub_trans rfl hM)
      | with_reducible refine on_serveKeep (sub_trans rfl hM)
      | with_reducible refine on_ite ?_ ?_
      | intro _
      | split
      | dsimp only

theorem on_trustGo {M : List StateField} (hM : ([.regs, .rings, .jobs, .mem, .codingMap, .crcDiff, .held, .heldNext, .buffered, .tlb, .lcSlots, .lcWait, .lcFill, .keep, .trust, .free, .out] : List StateField) ⊆ M) :
 (trustGo ).only (Within M) := by
  unfold trustGo
  repeat' first
    | with_reducible exact on_done
    | with_reducible refine on_look fun _ => ?_
    | with_reducible exact on_eff hM rfl
    | with_reducible refine on_trustNext (sub_trans rfl hM)
    | intro _
    | dsimp only

theorem on_startTrust {M : List StateField} {n : Nat} (hM : ([.regs, .rings, .jobs, .mem, .codingMap, .crcDiff, .held, .heldNext, .buffered, .tlb, .lcSlots, .lcWait, .lcFill, .keep, .trust, .free, .out] : List StateField) ⊆ M) :
 (startTrust n).only (Within M) := by
  unfold startTrust
  repeat' first
    | with_reducible exact on_done
    | with_reducible refine on_look fun _ => ?_
    | with_reducible exact on_eff hM rfl
    | with_reducible refine on_seq ?_ ?_
    | with_reducible refine on_updTrust (sub_trans rfl hM)
    | with_reducible refine on_trustGo (sub_trans rfl hM)
    | intro _
    | dsimp only

theorem on_bundleRefuse {M : List StateField} {n code : Nat} (hM : ([.regs, .rings, .jobs, .free, .out] : List StateField) ⊆ M) :
 (bundleRefuse n code).only (Within M) := by
  unfold bundleRefuse
  repeat' first
    | with_reducible exact on_done
    | with_reducible refine on_look fun _ => ?_
    | with_reducible exact on_nil
    | with_reducible refine on_cons ?_ ?_
    | with_reducible exact on_eff hM rfl
    | with_reducible refine on_recordErr (sub_trans rfl hM)
    | with_reducible refine on_bump (sub_trans rfl hM)
    | with_reducible refine on_endBundle (sub_trans rfl hM)
    | dsimp only

theorem on_actModelBundleLoad {M : List StateField} {f : Func} {ring : Fin 8} {d : BitVec 1024} (hM : ([.regs, .rings, .jobs, .jobNext, .mem, .codingMap, .crcDiff, .held, .heldNext, .buffered, .tlb, .lcSlots, .lcWait, .lcFill, .keep, .trust, .free, .out] : List StateField) ⊆ M) :
 (actModelBundleLoad f ring d).only (Within M) := by
  unfold actModelBundleLoad
  repeat' first
    | with_reducible exact on_done
    | with_reducible refine on_look fun _ => ?_
    | with_reducible exact on_eff hM rfl
    | with_reducible refine on_ofKind (sub_trans rfl hM) ?_
    | with_reducible refine on_acceptJob (sub_trans rfl hM) ?_
    | with_reducible refine on_lcRefuse (sub_trans rfl hM)
    | with_reducible refine on_bundleRefuse (sub_trans rfl hM)
    | with_reducible refine on_startIfOpen (sub_trans rfl hM) ?_
    | with_reducible refine on_startTrust (sub_trans rfl hM)
    | with_reducible refine only_whenA fun _ => ?_
    | intro _
    | split
    | dsimp only

theorem on_actBundleCheckDone {M : List StateField} (hM : ([.regs, .rings, .jobs, .mem, .codingMap, .crcDiff, .held, .heldNext, .buffered, .tlb, .lcSlots, .lcWait, .lcFill, .keep, .trust, .free, .out] : List StateField) ⊆ M) :
 (actBundleCheckDone ).only (Within M) := by
  unfold actBundleCheckDone
  repeat' first
    | with_reducible exact on_done
    | with_reducible refine on_look fun _ => ?_
    | with_reducible exact on_nil
    | with_reducible refine on_cons ?_ ?_
    | with_reducible exact on_eff hM rfl
    | with_reducible refine on_seq ?_ ?_
    | with_reducible refine on_virtRead (sub_trans rfl hM) ?_
    | with_reducible refine on_updTrust (sub_trans rfl hM)
    | with_reducible refine on_bump (sub_trans rfl hM)
    | with_reducible refine on_bundleRefuse (sub_trans rfl hM)
    | with_reducible refine on_bundleEvent (sub_trans rfl hM)
    | with_reducible refine on_placeImage (sub_trans rfl hM) ?_
    | with_reducible refine on_lcAsk (sub_trans rfl hM)
    | with_reducible refine on_endBundle (sub_trans rfl hM)
    | with_reducible refine on_trustGo (sub_trans rfl hM)
    | with_reducible refine on_lcGo (sub_trans rfl hM)
    | with_reducible refine on_ite ?_ ?_
    | with_reducible refine only_whenA fun _ => ?_
    | with_reducible refine only_optA fun _ _ => ?_
    | intro _
    | split
    | dsimp only

theorem on_keepJob {M : List StateField} {ops : List Nat} {f : Func} {ring : Fin 8} {d : BitVec 1024} {body : List Byte} (hM : ([.regs, .rings, .jobs, .jobNext, .mem, .codingMap, .crcDiff, .held, .heldNext, .buffered, .tlb, .lcSlots, .lcWait, .lcFill, .keep, .trust, .free, .out] : List StateField) ⊆ M) :
 (keepJob ops f ring d body).only (Within M) := by
  unfold keepJob
  repeat' first
    | with_reducible exact on_done
    | with_reducible refine on_look fun _ => ?_
    | with_reducible exact on_eff hM rfl
    | with_reducible refine on_ofKind (sub_trans rfl hM) ?_
    | with_reducible refine on_acceptJob (sub_trans rfl hM) ?_
    | with_reducible refine on_startIfOpen (sub_trans rfl hM) ?_
    | with_reducible refine on_startTrust (sub_trans rfl hM)
    | with_reducible refine only_whenA fun _ => ?_
    | intro _
    | dsimp only

theorem on_actKeepCommitDone {M : List StateField} {failed : Bool} (hM : ([.regs, .rings, .jobs, .mem, .codingMap, .crcDiff, .held, .heldNext, .buffered, .tlb, .lcSlots, .lcWait, .lcFill, .keep, .trust, .free, .out] : List StateField) ⊆ M) :
 (actKeepCommitDone failed).only (Within M) := by
  unfold actKeepCommitDone
  repeat' first
    | with_reducible exact on_done
    | with_reducible refine on_look fun _ => ?_
    | with_reducible exact on_nil
    | with_reducible refine on_cons ?_ ?_
    | with_reducible exact on_eff hM rfl
    | with_reducible refine on_seq ?_ ?_
    | with_reducible refine on_updTrust (sub_trans rfl hM)
    | with_reducible refine on_showKeep (sub_trans rfl hM)
    | with_reducible refine on_recordErr (sub_trans rfl hM)
    | with_reducible refine on_endKeep (sub_trans rfl hM)
    | with_reducible refine on_updKeep (sub_trans rfl hM)
    | with_reducible refine on_bump (sub_trans rfl hM)
    | with_reducible refine on_raiseIrq (sub_trans rfl hM)
    | with_reducible refine on_trustGo (sub_trans rfl hM)
    | with_reducible refine on_ite ?_ ?_
    | with_reducible refine only_optA fun _ _ => ?_
    | intro _
    | split
    | dsimp only

theorem on_withTrustPage {M : List StateField} {f : Func} {a : Act} (hM : ([] : List StateField) ⊆ M) (h0 : a.only (Within M)) :
 (withTrustPage f a).only (Within M) := by
  unfold withTrustPage
  repeat' first
    | with_reducible exact on_done
    | with_reducible refine on_look fun _ => ?_
    | with_reducible exact on_eff hM rfl
    | with_reducible exact h0
    | with_reducible refine on_whenServed (sub_trans rfl hM) ?_
    | intro _
    | dsimp only

theorem on_actRngHealthFailure {M : List StateField} {which : BitVec 2} (hM : ([.regs, .rings, .free, .out] : List StateField) ⊆ M) :
 (actRngHealthFailure which).only (Within M) := by
  unfold actRngHealthFailure
  repeat' first
    | with_reducible exact on_done
    | with_reducible refine on_look fun _ => ?_
    | with_reducible exact on_nil
    | with_reducible refine on_cons ?_ ?_
    | with_reducible exact on_eff hM rfl
    | with_reducible refine on_setRegN (sub_trans rfl hM)
    | with_reducible refine on_bump (sub_trans rfl hM)
    | with_reducible refine on_recordErr (sub_trans rfl hM)
    | with_reducible refine on_raiseIrq (sub_trans rfl hM)
    | with_reducible refine on_pageEvent (sub_trans rfl hM)
    | dsimp only

theorem on_actTrRngDataRead {M : List StateField} {f : Func} (hM : ([.regs, .rings, .free, .out] : List StateField) ⊆ M) :
 (actTrRngDataRead f).only (Within M) := by
  unfold actTrRngDataRead
  repeat' first
    | with_reducible exact on_done
    | with_reducible refine on_look fun _ => ?_
    | with_reducible exact on_eff hM rfl
    | with_reducible refine on_seq ?_ ?_
    | with_reducible refine on_withRead (sub_trans rfl hM) ?_
    | with_reducible refine on_readZero (sub_trans rfl hM)
    | with_reducible refine on_recordErr (sub_trans rfl hM)
    | with_reducible refine on_withFree (sub_trans rfl hM) ?_
    | with_reducible refine on_readWord (sub_trans rfl hM)
    | with_reducible refine on_ite ?_ ?_
    | intro _
    | dsimp only

theorem on_startFlash {M : List StateField} {f : Func} {op align : Nat} (hM : ([.regs, .rings, .trust, .free, .out] : List StateField) ⊆ M) :
 (startFlash f op align).only (Within M) := by
  unfold startFlash
  repeat' first
    | with_reducible exact on_done
    | with_reducible refine on_look fun _ => ?_
    | with_reducible exact on_eff hM rfl
    | with_reducible refine on_seq ?_ ?_
    | with_reducible refine on_withWrite (sub_trans rfl hM) ?_
    | with_reducible refine on_setFld (sub_trans rfl hM)
    | with_reducible refine on_recordErr (sub_trans rfl hM)
    | with_reducible refine on_updTrust (sub_trans rfl hM)
    | with_reducible refine on_ite ?_ ?_
    | intro _
    | dsimp only

theorem on_putFlash {M : List StateField} {a0 : Nat} {a1 : List Byte} (hM : ([.flash] : List StateField) ⊆ M) :
 (putFlash a0 a1).only (Within M) := by
  induction a1 generalizing a0 with
  | nil =>
    unfold putFlash
    repeat' first
      | with_reducible exact on_done
      | with_reducible refine on_look fun _ => ?_
      | with_reducible exact on_eff hM rfl
  | cons _ _ ih =>
    unfold putFlash
    repeat' first
      | with_reducible exact on_done
      | with_reducible refine on_look fun _ => ?_
      | with_reducible exact on_eff hM rfl
      | with_reducible refine on_seq ?_ ?_
      | with_reducible exact ih

theorem on_actFlashDone {M : List StateField} (hM : ([.regs, .trust, .flash, .out] : List StateField) ⊆ M) :
 (actFlashDone ).only (Within M) := by
  unfold actFlashDone
  repeat' first
    | with_reducible exact on_done
    | with_reducible refine on_look fun _ => ?_
    | with_reducible exact on_nil
    | with_reducible refine on_cons ?_ ?_
    | with_reducible exact on_eff hM rfl
    | with_reducible refine on_setRegBytes (sub_trans rfl hM)
    | with_reducible refine on_putFlash (sub_trans rfl hM)
    | with_reducible refine on_updTrust (sub_trans rfl hM)
    | with_reducible refine on_setFld (sub_trans rfl hM)
    | with_reducible refine on_raiseIrq (sub_trans rfl hM)
    | with_reducible refine only_optA fun _ _ => ?_
    | intro _
    | split
    | dsimp only

end Sys2Proof.Machine
end

