-- ==== Sys2Proof/Laws/FieldsBinding.lean ====
section
/-! SUPPORT. The fields that the acts of Machine/Binding.lean may change. -/

namespace Sys2Proof.Machine

theorem on_endBinding {M : List StateField} {n op : Nat} {kind num : Nat} {felled : Bool} {epoch code : Nat} (hM : ([.regs, .rings, .jobs, .free, .out] : List StateField) ⊆ M) :
 (endBinding n op kind num felled epoch code).only (Within M) := by
  unfold endBinding
  repeat' first
    | with_reducible exact on_done
    | with_reducible refine on_look fun _ => ?_
    | with_reducible exact on_eff hM rfl
    | with_reducible refine on_seq ?_ ?_
    | with_reducible refine on_putEvent (sub_trans rfl hM)
    | with_reducible refine on_endJob (sub_trans rfl hM)
    | with_reducible refine only_whenA fun _ => ?_
    | with_reducible refine only_optA fun _ _ => ?_
    | intro _
    | dsimp only

theorem on_endUnstarted {M : List StateField} {n : Nat} (hM : ([.regs, .rings, .jobs, .entries, .free, .out] : List StateField) ⊆ M) :
 (endUnstarted n).only (Within M) := by
  unfold endUnstarted
  repeat' first
    | with_reducible exact on_done
    | with_reducible refine on_look fun _ => ?_
    | with_reducible exact on_eff hM rfl
    | with_reducible refine on_seq ?_ ?_
    | with_reducible refine on_refuseBatch (sub_trans rfl hM)
    | with_reducible refine on_endBundle (sub_trans rfl hM)
    | with_reducible refine on_endStreamJob (sub_trans rfl hM)
    | with_reducible refine on_endTrackJob (sub_trans rfl hM)
    | with_reducible refine on_endBinding (sub_trans rfl hM)
    | with_reducible refine on_endKeep (sub_trans rfl hM)
    | with_reducible refine only_optA fun _ _ => ?_
    | with_reducible refine only_forA fun _ _ => ?_
    | intro _
    | split
    | dsimp only

theorem on_endWaits {M : List StateField} {r : Nat} (hM : ([.regs, .units, .rings, .jobs, .mem, .codingMap, .crcDiff, .held, .heldNext, .buffered, .tlb, .lcSlots, .lcWait, .lcFill, .sp, .arrays, .engines, .ctxs, .entries, .entryNext, .lanes, .ports, .windows, .layers, .outs, .trust, .flog, .flogN, .free, .out] : List StateField) ⊆ M) :
 (endWaits r).only (Within M) := by
  unfold endWaits
  repeat' first
    | with_reducible exact on_done
    | with_reducible refine on_look fun _ => ?_
    | with_reducible exact on_nil
    | with_reducible refine on_cons ?_ ?_
    | with_reducible exact on_eff hM rfl
    | with_reducible refine on_endUnstarted (sub_trans rfl hM)
    | with_reducible refine on_refuseWait (sub_trans rfl hM)
    | with_reducible refine on_refuseTake (sub_trans rfl hM)
    | with_reducible refine on_endFences (sub_trans rfl hM)
    | with_reducible refine only_whenA fun _ => ?_
    | with_reducible refine only_optA fun _ _ => ?_
    | with_reducible refine only_forA fun _ _ => ?_
    | intro _
    | dsimp only

theorem on_clearVideo {M : List StateField} {slot : Nat} (hM : ([.regs, .units, .rings, .mem, .codingMap, .crcDiff, .held, .heldNext, .buffered, .tlb, .lcSlots, .lcWait, .lcFill, .sp, .arrays, .engines, .ctxs, .entries, .entryNext, .lanes, .ports, .windows, .layers, .trust, .free, .out] : List StateField) ⊆ M) :
 (clearVideo slot).only (Within M) := by
  unfold clearVideo
  repeat' first
    | with_reducible exact on_done
    | with_reducible refine on_look fun _ => ?_
    | with_reducible exact on_nil
    | with_reducible refine on_cons ?_ ?_
    | with_reducible exact on_eff hM rfl
    | with_reducible refine on_setFld (sub_trans rfl hM)
    | with_reducible refine on_dropStrips (sub_trans rfl hM)
    | with_reducible refine on_releaseLayer (sub_trans rfl hM)
    | intro _
    | dsimp only

theorem on_clearGraphics {M : List StateField} {slots : List Nat} (hM : ([.regs, .rings, .mem, .codingMap, .crcDiff, .buffered, .tlb, .lcSlots, .outs, .free, .out] : List StateField) ⊆ M) :
 (clearGraphics slots).only (Within M) := by
  unfold clearGraphics
  repeat' first
    | with_reducible exact on_done
    | with_reducible refine on_look fun _ => ?_
    | with_reducible exact on_eff hM rfl
    | with_reducible refine on_seq ?_ ?_
    | with_reducible refine on_setFld (sub_trans rfl hM)
    | with_reducible refine on_flatLive (sub_trans rfl hM)
    | with_reducible refine only_forA fun _ _ => ?_
    | intro _
    | dsimp only

theorem on_stopOutput {M : List StateField} {o : Nat} (hM : ([.regs, .shadows, .units, .rings, .mem, .codingMap, .crcDiff, .held, .heldNext, .buffered, .tlb, .lcSlots, .lcWait, .lcFill, .sp, .arrays, .engines, .ctxs, .entries, .entryNext, .lanes, .ports, .windows, .layers, .outs, .trust, .free, .out] : List StateField) ⊆ M) :
 (stopOutput o).only (Within M) := by
  unfold stopOutput
  repeat' first
    | with_reducible exact on_done
    | with_reducible refine on_look fun _ => ?_
    | with_reducible exact on_nil
    | with_reducible refine on_cons ?_ ?_
    | with_reducible exact on_eff hM rfl
    | with_reducible refine on_discardGroup (sub_trans rfl hM)
    | with_reducible refine on_clearVideo (sub_trans rfl hM)
    | with_reducible refine on_clearGraphics (sub_trans rfl hM)
    | with_reducible refine on_setShadow (sub_trans rfl hM)
    | with_reducible refine on_setFld (sub_trans rfl hM)
    | with_reducible refine on_updOut (sub_trans rfl hM)
    | with_reducible refine only_forA fun _ _ => ?_
    | intro _
    | dsimp only

theorem on_stopPartition {M : List StateField} {t : Nat} (hM : ([.regs, .rings, .jobs, .track, .tcache, .free, .out] : List StateField) ⊆ M) :
 (stopPartition t).only (Within M) := by
  unfold stopPartition
  repeat' first
    | with_reducible exact on_done
    | with_reducible refine on_look fun _ => ?_
    | with_reducible exact on_nil
    | with_reducible refine on_cons ?_ ?_
    | with_reducible exact on_eff hM rfl
    | with_reducible refine on_endProblem (sub_trans rfl hM)
    | with_reducible refine on_updTrack (sub_trans rfl hM)
    | with_reducible refine only_forA fun _ _ => ?_
    | intro _
    | dsimp only

theorem on_stopUnit {M : List StateField} {u : UnitId} (hM : ([.regs, .shadows, .units, .rings, .jobs, .mem, .codingMap, .crcDiff, .held, .heldNext, .buffered, .tlb, .lcSlots, .lcWait, .lcFill, .sp, .arrays, .engines, .ctxs, .entries, .entryNext, .lanes, .ports, .windows, .streams, .pipes, .layers, .outs, .trust, .track, .tcache, .free, .out] : List StateField) ⊆ M) :
 (stopUnit u).only (Within M) := by
  unfold stopUnit
  repeat' first
    | with_reducible exact on_done
    | with_reducible refine on_look fun _ => ?_
    | with_reducible exact on_nil
    | with_reducible refine on_cons ?_ ?_
    | with_reducible exact on_eff hM rfl
    | with_reducible refine on_seq ?_ ?_
    | with_reducible refine on_handFelled (sub_trans rfl hM)
    | with_reducible refine on_floorQueued (sub_trans rfl hM)
    | with_reducible refine on_stopUnitCtx (sub_trans rfl hM)
    | with_reducible refine on_stopEngine (sub_trans rfl hM)
    | with_reducible refine on_stopPipe (sub_trans rfl hM)
    | with_reducible refine on_leaveRunning (sub_trans rfl hM)
    | with_reducible refine on_stopOutput (sub_trans rfl hM)
    | with_reducible refine on_leaveGroups (sub_trans rfl hM)
    | with_reducible refine on_clearVideo (sub_trans rfl hM)
    | with_reducible refine on_clearGraphics (sub_trans rfl hM)
    | with_reducible refine on_stopPartition (sub_trans rfl hM)
    | with_reducible refine only_whenA fun _ => ?_
    | with_reducible refine only_optA fun _ _ => ?_
    | with_reducible refine only_forA fun _ _ => ?_
    | intro _
    | split
    | dsimp only

theorem on_startSeq {M : List StateField} {u : UnitId} {r : Rebind} (hM : ([.regs, .shadows, .commits, .units, .rings, .jobs, .mem, .codingMap, .crcDiff, .held, .heldNext, .buffered, .tlb, .lcSlots, .lcWait, .lcFill, .sp, .arrays, .engines, .ctxs, .entries, .entryNext, .lanes, .ports, .windows, .streams, .pipes, .layers, .outs, .trust, .track, .tcache, .flog, .flogN, .free, .out] : List StateField) ⊆ M) :
 (startSeq u r).only (Within M) := by
  unfold startSeq
  repeat' first
    | with_reducible exact on_done
    | with_reducible refine on_look fun _ => ?_
    | with_reducible exact on_nil
    | with_reducible refine on_cons ?_ ?_
    | with_reducible exact on_eff hM rfl
    | with_reducible refine on_withdrawUnit (sub_trans rfl hM)
    | with_reducible refine on_endWaits (sub_trans rfl hM)
    | with_reducible refine on_stopUnit (sub_trans rfl hM)
    | with_reducible refine only_whenA fun _ => ?_
    | dsimp only

theorem on_endUnitCtx {M : List StateField} {a : Nat} (hM : ([.regs, .rings, .jobs, .arrays, .engines, .ctxs, .entries, .lanes, .classCounts, .free, .out] : List StateField) ⊆ M) :
 (endUnitCtx a).only (Within M) := by
  unfold endUnitCtx
  repeat' first
    | with_reducible exact on_done
    | with_reducible refine on_look fun _ => ?_
    | with_reducible exact on_nil
    | with_reducible refine on_cons ?_ ?_
    | with_reducible exact on_eff hM rfl
    | with_reducible refine on_releaseClaims (sub_trans rfl hM)
    | with_reducible refine on_releasePool (sub_trans rfl hM)
    | with_reducible refine on_tornDown (sub_trans rfl hM)
    | with_reducible refine on_bump (sub_trans rfl hM)
    | with_reducible refine on_updArr (sub_trans rfl hM)
    | with_reducible refine on_endEntry (sub_trans rfl hM)
    | with_reducible refine on_ite ?_ ?_
    | with_reducible refine only_optA fun _ _ => ?_
    | intro _
    | dsimp only

theorem on_startScrub {M : List StateField} {u : UnitId} (hM : ([.regs, .units] : List StateField) ⊆ M) :
 (startScrub u).only (Within M) := by
  unfold startScrub
  repeat' first
    | with_reducible exact on_done
    | with_reducible refine on_look fun _ => ?_
    | with_reducible exact on_eff hM rfl
    | with_reducible refine on_seq ?_ ?_
    | with_reducible refine on_updSeq (sub_trans rfl hM)
    | with_reducible refine on_setScrub (sub_trans rfl hM)
    | with_reducible refine only_whenA fun _ => ?_
    | intro _
    | dsimp only

theorem on_actRebindStopDone {M : List StateField} {u : UnitId} (hM : ([.regs, .units, .rings, .jobs, .arrays, .engines, .ctxs, .entries, .lanes, .classCounts, .free, .out] : List StateField) ⊆ M) :
 (actRebindStopDone u).only (Within M) := by
  unfold actRebindStopDone
  repeat' first
    | with_reducible exact on_done
    | with_reducible refine on_look fun _ => ?_
    | with_reducible exact on_nil
    | with_reducible refine on_cons ?_ ?_
    | with_reducible exact on_eff hM rfl
    | with_reducible refine on_seq ?_ ?_
    | with_reducible refine on_orphanTags (sub_trans rfl hM)
    | with_reducible refine on_endUnitCtx (sub_trans rfl hM)
    | with_reducible refine on_setUnit (sub_trans rfl hM)
    | with_reducible refine on_bindEvent (sub_trans rfl hM)
    | with_reducible refine on_startScrub (sub_trans rfl hM)
    | with_reducible refine on_ite ?_ ?_
    | with_reducible refine only_whenA fun _ => ?_
    | with_reducible refine only_optA fun _ _ => ?_
    | with_reducible refine only_forA fun _ _ => ?_
    | intro _
    | dsimp only

theorem on_commitWindow {M : List StateField} {w : Nat} {a0 : Nat} (hM : ([.regs, .rings, .mem, .codingMap, .crcDiff, .held, .heldNext, .buffered, .tlb, .lcSlots, .lcWait, .lcFill, .ports, .windows, .trust, .free, .out] : List StateField) ⊆ M) :
 (commitWindow w a0).only (Within M) := by
  induction a0 with
  | zero =>
    unfold commitWindow
    repeat' first
      | with_reducible exact on_done
      | with_reducible refine on_look fun _ => ?_
      | with_reducible exact on_eff hM rfl
      | dsimp only
  | succ _ ih =>
    unfold commitWindow
    repeat' first
      | with_reducible exact on_done
      | with_reducible refine on_look fun _ => ?_
      | with_reducible exact on_eff hM rfl
      | with_reducible refine on_seq ?_ ?_
      | with_reducible exact ih
      | with_reducible refine on_commitWinWrite (sub_trans rfl hM)
      | dsimp only

theorem on_commitWinArrivals {M : List StateField} {w : Nat} (hM : ([.regs, .sp, .arrays, .ports, .windows, .free, .out] : List StateField) ⊆ M) :
 (commitWinArrivals w).only (Within M) := by
  unfold commitWinArrivals
  repeat' first
    | with_reducible exact on_done
    | with_reducible refine on_look fun _ => ?_
    | with_reducible exact on_eff hM rfl
    | with_reducible refine on_seq ?_ ?_
    | with_reducible refine on_updArr (sub_trans rfl hM)
    | with_reducible refine on_commitArrival (sub_trans rfl hM)
    | with_reducible refine only_whenA fun _ => ?_
    | with_reducible refine only_forA fun _ _ => ?_
    | intro _
    | dsimp only

theorem on_endPrograms {M : List StateField} {l : Nat} (hM : ([.lanes] : List StateField) ⊆ M) :
 (endPrograms l).only (Within M) := by
  unfold endPrograms
  repeat' first
    | with_reducible exact on_done
    | with_reducible refine on_look fun _ => ?_
    | with_reducible exact on_eff hM rfl
    | intro _
    | dsimp only

theorem on_scrubUnit {M : List StateField} {u : UnitId} (hM : ([.regs, .rings, .mem, .codingMap, .crcDiff, .held, .heldNext, .buffered, .tlb, .lcSlots, .lcWait, .lcFill, .sp, .arrays, .engines, .ctxs, .lanes, .ports, .windows, .streams, .layers, .trust, .tblk, .tcam, .trings, .free, .out] : List StateField) ⊆ M) :
 (scrubUnit u).only (Within M) := by
  unfold scrubUnit
  repeat' first
    | with_reducible exact on_done
    | with_reducible refine on_look fun _ => ?_
    | with_reducible exact on_nil
    | with_reducible refine on_cons ?_ ?_
    | with_reducible exact on_eff hM rfl
    | with_reducible refine on_seq ?_ ?_
    | with_reducible refine on_zeroArray (sub_trans rfl hM)
    | with_reducible refine on_clearHandles (sub_trans rfl hM)
    | with_reducible refine on_dropQueued (sub_trans rfl hM)
    | with_reducible refine on_setScrub (sub_trans rfl hM)
    | with_reducible refine on_bump (sub_trans rfl hM)
    | with_reducible refine on_raiseIrq (sub_trans rfl hM)
    | with_reducible refine on_pageEvent (sub_trans rfl hM)
    | with_reducible refine on_updArr (sub_trans rfl hM)
    | with_reducible refine on_updEng (sub_trans rfl hM)
    | with_reducible refine on_unpinArray (sub_trans rfl hM)
    | with_reducible refine on_updCtx (sub_trans rfl hM)
    | with_reducible refine on_endPrograms (sub_trans rfl hM)
    | with_reducible refine on_commitWindow (sub_trans rfl hM)
    | with_reducible refine on_commitWinArrivals (sub_trans rfl hM)
    | with_reducible refine on_setFld (sub_trans rfl hM)
    | with_reducible refine only_whenA fun _ => ?_
    | with_reducible refine only_forA fun _ _ => ?_
    | intro _
    | split
    | dsimp only

theorem on_flrUnit {M : List StateField} {u : UnitId} (hM : ([.regs, .shadows, .commits, .units, .rings, .jobs, .mem, .codingMap, .crcDiff, .held, .heldNext, .buffered, .tlb, .lcSlots, .lcWait, .lcFill, .sp, .arrays, .engines, .ctxs, .entries, .entryNext, .lanes, .ports, .windows, .streams, .pipes, .layers, .outs, .trust, .track, .tcache, .flog, .flogN, .free, .out] : List StateField) ⊆ M) :
 (flrUnit u).only (Within M) := by
  unfold flrUnit
  repeat' first
    | with_reducible exact on_done
    | with_reducible refine on_look fun _ => ?_
    | with_reducible exact on_eff hM rfl
    | with_reducible refine on_startSeq (sub_trans rfl hM)
    | intro _
    | dsimp only

theorem on_handOver {M : List StateField} {u : UnitId} {r : Rebind} (hM : ([.regs, .shadows, .commits, .units, .rings, .jobs, .mem, .codingMap, .crcDiff, .held, .heldNext, .buffered, .tlb, .lcSlots, .lcWait, .lcFill, .sp, .arrays, .engines, .ctxs, .entries, .entryNext, .lanes, .ports, .windows, .streams, .pipes, .layers, .outs, .trust, .track, .tcache, .flog, .flogN, .free, .out] : List StateField) ⊆ M) :
 (handOver u r).only (Within M) := by
  unfold handOver
  repeat' first
    | with_reducible exact on_done
    | with_reducible refine on_look fun _ => ?_
    | with_reducible exact on_nil
    | with_reducible refine on_cons ?_ ?_
    | with_reducible exact on_eff hM rfl
    | with_reducible refine on_unmapPages (sub_trans rfl hM)
    | with_reducible refine on_mapPage (sub_trans rfl hM)
    | with_reducible refine on_setUnit (sub_trans rfl hM)
    | with_reducible refine on_setRegN (sub_trans rfl hM)
    | with_reducible refine on_bindEvent (sub_trans rfl hM)
    | with_reducible refine on_endBinding (sub_trans rfl hM)
    | with_reducible refine on_flrUnit (sub_trans rfl hM)
    | with_reducible refine on_ite ?_ ?_
    | with_reducible refine only_whenA fun _ => ?_
    | with_reducible refine only_optA fun _ _ => ?_
    | with_reducible refine only_forA fun _ _ => ?_
    | intro _
    | dsimp only

theorem on_endHold {M : List StateField} {u : UnitId} (hM : ([.regs, .shadows, .commits, .units, .rings, .jobs, .mem, .codingMap, .crcDiff, .held, .heldNext, .buffered, .tlb, .lcSlots, .lcWait, .lcFill, .sp, .arrays, .engines, .ctxs, .entries, .entryNext, .lanes, .ports, .windows, .streams, .pipes, .layers, .outs, .trust, .track, .tcache, .flog, .flogN, .free, .out] : List StateField) ⊆ M) :
 (endHold u).only (Within M) := by
  unfold endHold
  repeat' first
    | with_reducible exact on_done
    | with_reducible refine on_look fun _ => ?_
    | with_reducible exact on_nil
    | with_reducible refine on_cons ?_ ?_
    | with_reducible exact on_eff hM rfl
    | with_reducible refine on_seq ?_ ?_
    | with_reducible refine on_setUnit (sub_trans rfl hM)
    | with_reducible refine on_endBinding (sub_trans rfl hM)
    | with_reducible refine on_startSeq (sub_trans rfl hM)
    | with_reducible refine on_flrUnit (sub_trans rfl hM)
    | with_reducible refine on_ite ?_ ?_
    | with_reducible refine only_whenA fun _ => ?_
    | with_reducible refine only_optA fun _ _ => ?_
    | intro _
    | dsimp only

theorem on_actRebindScrubDone {M : List StateField} {u : UnitId} (hM : ([.regs, .shadows, .commits, .units, .rings, .jobs, .mem, .codingMap, .crcDiff, .held, .heldNext, .buffered, .tlb, .lcSlots, .lcWait, .lcFill, .sp, .arrays, .engines, .ctxs, .entries, .entryNext, .lanes, .ports, .windows, .streams, .pipes, .layers, .outs, .trust, .track, .tblk, .tcache, .tcam, .trings, .flog, .flogN, .free, .out] : List StateField) ⊆ M) :
 (actRebindScrubDone u).only (Within M) := by
  unfold actRebindScrubDone
  repeat' first
    | with_reducible exact on_done
    | with_reducible refine on_look fun _ => ?_
    | with_reducible exact on_eff hM rfl
    | with_reducible refine on_seq ?_ ?_
    | with_reducible refine on_scrubUnit (sub_trans rfl hM)
    | with_reducible refine on_handOver (sub_trans rfl hM)
    | with_reducible refine only_whenA fun _ => ?_
    | with_reducible refine only_optA fun _ _ => ?_
    | intro _
    | dsimp only

theorem on_actContextScrubDone {M : List StateField} {c : Fin 2048} (hM : ([.regs, .shadows, .commits, .units, .rings, .jobs, .mem, .codingMap, .crcDiff, .held, .heldNext, .buffered, .tlb, .lcSlots, .lcWait, .lcFill, .sp, .arrays, .engines, .ctxs, .entries, .entryNext, .lanes, .classCounts, .ports, .windows, .streams, .pipes, .layers, .outs, .trust, .track, .tcache, .flog, .flogN, .free, .out] : List StateField) ⊆ M) :
 (actContextScrubDone c).only (Within M) := by
  unfold actContextScrubDone
  repeat' first
    | with_reducible exact on_done
    | with_reducible refine on_look fun _ => ?_
    | with_reducible exact on_nil
    | with_reducible refine on_cons ?_ ?_
    | with_reducible exact on_eff hM rfl
    | with_reducible refine on_zeroHandles (sub_trans rfl hM)
    | with_reducible refine on_clearHandles (sub_trans rfl hM)
    | with_reducible refine on_dropQueued (sub_trans rfl hM)
    | with_reducible refine on_setScrub (sub_trans rfl hM)
    | with_reducible refine on_raiseIrq (sub_trans rfl hM)
    | with_reducible refine on_bump (sub_trans rfl hM)
    | with_reducible refine on_pageEvent (sub_trans rfl hM)
    | with_reducible refine on_tornDown (sub_trans rfl hM)
    | with_reducible refine on_freeCtx (sub_trans rfl hM)
    | with_reducible refine on_endEntry (sub_trans rfl hM)
    | with_reducible refine on_endHold (sub_trans rfl hM)
    | with_reducible refine on_ite ?_ ?_
    | with_reducible refine only_whenA fun _ => ?_
    | intro _
    | dsimp only

theorem on_releaseHold {M : List StateField} {n : Nat} {u : UnitId} {r : Rebind} (hM : ([.regs, .units, .rings, .mem, .codingMap, .crcDiff, .held, .heldNext, .buffered, .lcSlots, .lcWait, .lcFill, .arrays, .ctxs, .trust, .free, .out] : List StateField) ⊆ M) :
 (releaseHold n u r).only (Within M) := by
  unfold releaseHold
  repeat' first
    | with_reducible exact on_done
    | with_reducible refine on_look fun _ => ?_
    | with_reducible exact on_nil
    | with_reducible refine on_cons ?_ ?_
    | with_reducible exact on_eff hM rfl
    | with_reducible refine on_seq ?_ ?_
    | with_reducible refine on_cutDump (sub_trans rfl hM)
    | with_reducible refine on_setUnit (sub_trans rfl hM)
    | with_reducible refine on_updCtx (sub_trans rfl hM)
    | with_reducible refine on_setScrub (sub_trans rfl hM)
    | with_reducible refine on_ite ?_ ?_
    | with_reducible refine only_whenA fun _ => ?_
    | with_reducible refine only_optA fun _ _ => ?_
    | intro _
    | dsimp only

theorem on_sharePage {M : List StateField} {n : Nat} {d : BitVec 1024} (hM : ([.regs, .rings, .jobs, .free, .out] : List StateField) ⊆ M) :
 (sharePage n d).only (Within M) := by
  unfold sharePage
  repeat' first
    | with_reducible exact on_done
    | with_reducible refine on_look fun _ => ?_
    | with_reducible exact on_eff hM rfl
    | with_reducible refine on_seq ?_ ?_
    | with_reducible refine on_unmapPages (sub_trans rfl hM)
    | with_reducible refine on_mapPage (sub_trans rfl hM)
    | with_reducible refine on_endBinding (sub_trans rfl hM)
    | with_reducible refine on_ite ?_ ?_
    | with_reducible refine only_whenA fun _ => ?_
    | intro _
    | dsimp only

theorem on_startBinding {M : List StateField} {n : Nat} (hM : ([.regs, .shadows, .commits, .units, .rings, .jobs, .mem, .codingMap, .crcDiff, .held, .heldNext, .buffered, .tlb, .lcSlots, .lcWait, .lcFill, .sp, .arrays, .engines, .ctxs, .entries, .entryNext, .lanes, .ports, .windows, .streams, .pipes, .layers, .outs, .trust, .track, .tcache, .flog, .flogN, .free, .out] : List StateField) ⊆ M) :
 (startBinding n).only (Within M) := by
  unfold startBinding
  repeat' first
    | with_reducible exact on_done
    | with_reducible refine on_look fun _ => ?_
    | with_reducible exact on_eff hM rfl
    | with_reducible refine on_seq ?_ ?_
    | with_reducible refine on_sharePage (sub_trans rfl hM)
    | with_reducible refine on_endBinding (sub_trans rfl hM)
    | with_reducible refine on_releaseHold (sub_trans rfl hM)
    | with_reducible refine on_startSeq (sub_trans rfl hM)
    | with_reducible refine on_ite ?_ ?_
    | with_reducible refine only_optA fun _ _ => ?_
    | intro _
    | dsimp only

theorem on_bindJob {M : List StateField} {ops : List Nat} {f : Func} {ring : Fin 8} {d : BitVec 1024} (hM : ([.regs, .shadows, .commits, .units, .rings, .jobs, .jobNext, .mem, .codingMap, .crcDiff, .held, .heldNext, .buffered, .tlb, .lcSlots, .lcWait, .lcFill, .sp, .arrays, .engines, .ctxs, .entries, .entryNext, .lanes, .ports, .windows, .streams, .pipes, .layers, .outs, .trust, .track, .tcache, .flog, .flogN, .free, .out] : List StateField) ⊆ M) :
 (bindJob ops f ring d).only (Within M) := by
  unfold bindJob
  repeat' first
    | with_reducible exact on_done
    | with_reducible refine on_look fun _ => ?_
    | with_reducible exact on_eff hM rfl
    | with_reducible refine on_ofKind (sub_trans rfl hM) ?_
    | with_reducible refine on_acceptJob (sub_trans rfl hM) ?_
    | with_reducible refine on_startIfOpen (sub_trans rfl hM) ?_
    | with_reducible refine on_startBinding (sub_trans rfl hM)
    | with_reducible refine only_whenA fun _ => ?_
    | intro _
    | dsimp only

theorem on_flrMeets {M : List StateField} {f : Func} {u : UnitId} (hM : ([.regs, .shadows, .commits, .units, .rings, .jobs, .mem, .codingMap, .crcDiff, .held, .heldNext, .buffered, .tlb, .lcSlots, .lcWait, .lcFill, .sp, .arrays, .engines, .ctxs, .entries, .entryNext, .lanes, .ports, .windows, .streams, .pipes, .layers, .outs, .trust, .track, .tcache, .flog, .flogN, .free, .out] : List StateField) ⊆ M) :
 (flrMeets f u).only (Within M) := by
  unfold flrMeets
  repeat' first
    | with_reducible exact on_done
    | with_reducible refine on_look fun _ => ?_
    | with_reducible exact on_eff hM rfl
    | with_reducible refine on_seq ?_ ?_
    | with_reducible refine on_flrUnit (sub_trans rfl hM)
    | with_reducible refine on_updSeq (sub_trans rfl hM)
    | with_reducible refine only_whenA fun _ => ?_
    | intro _
    | split
    | dsimp only

theorem on_resetVf {M : List StateField} {f : Func} (hM : ([.regs, .shadows, .commits, .units, .rings, .jobs, .mem, .codingMap, .crcDiff, .held, .heldNext, .buffered, .tlb, .lcSlots, .lcWait, .lcFill, .sp, .arrays, .engines, .ctxs, .entries, .entryNext, .lanes, .classCounts, .ports, .windows, .streams, .pipes, .layers, .outs, .trust, .track, .tcache, .flog, .flogN, .free, .out] : List StateField) ⊆ M) :
 (resetVf f).only (Within M) := by
  unfold resetVf
  repeat' first
    | with_reducible exact on_done
    | with_reducible refine on_look fun _ => ?_
    | with_reducible exact on_nil
    | with_reducible refine on_cons ?_ ?_
    | with_reducible exact on_eff hM rfl
    | with_reducible refine on_setFld (sub_trans rfl hM)
    | with_reducible refine on_updArr (sub_trans rfl hM)
    | with_reducible refine on_releaseClaims (sub_trans rfl hM)
    | with_reducible refine on_endEntry (sub_trans rfl hM)
    | with_reducible refine on_flrMeets (sub_trans rfl hM)
    | with_reducible refine only_whenA fun _ => ?_
    | with_reducible refine only_optA fun _ _ => ?_
    | with_reducible refine only_forA fun _ _ => ?_
    | intro _
    | dsimp only

theorem on_actVfFlr {M : List StateField} {f : Func} (hM : ([.regs, .shadows, .commits, .units, .rings, .jobs, .mem, .codingMap, .crcDiff, .held, .heldNext, .buffered, .tlb, .lcSlots, .lcWait, .lcFill, .sp, .arrays, .engines, .ctxs, .entries, .entryNext, .lanes, .classCounts, .ports, .windows, .streams, .pipes, .layers, .outs, .trust, .track, .tcache, .flog, .flogN, .free, .out] : List StateField) ⊆ M) :
 (actVfFlr f).only (Within M) := by
  unfold actVfFlr
  repeat' first
    | with_reducible exact on_done
    | with_reducible refine on_look fun _ => ?_
    | with_reducible exact on_eff hM rfl
    | with_reducible refine on_resetVf (sub_trans rfl hM)
    | with_reducible refine only_whenA fun _ => ?_
    | intro _
    | dsimp only

theorem on_actSriovVfEnable {M : List StateField} {count : Nat} (hM : ([.regs, .shadows, .commits, .units, .rings, .jobs, .mem, .codingMap, .crcDiff, .held, .heldNext, .buffered, .tlb, .lcSlots, .lcWait, .lcFill, .sp, .arrays, .engines, .ctxs, .entries, .entryNext, .lanes, .classCounts, .ports, .windows, .streams, .pipes, .layers, .outs, .trust, .track, .tcache, .vfs, .flog, .flogN, .free, .out] : List StateField) ⊆ M) :
 (actSriovVfEnable count).only (Within M) := by
  unfold actSriovVfEnable
  repeat' first
    | with_reducible exact on_done
    | with_reducible refine on_look fun _ => ?_
    | with_reducible exact on_eff hM rfl
    | with_reducible refine on_seq ?_ ?_
    | with_reducible refine on_actVfFlr (sub_trans rfl hM)
    | with_reducible refine only_forA fun _ _ => ?_
    | intro _
    | dsimp only

end Sys2Proof.Machine
end

