-- ==== Sys2Proof/Laws/FieldsCommits.lean ====
section
/-! SUPPORT. The fields that the acts of Machine/Commits.lean may change. -/

namespace Sys2Proof.Machine

theorem on_goCommit {M : List StateField} {p : Nat} {seq : BitVec 24} (hM : ([.regs, .commits, .rings, .free, .out] : List StateField) ⊆ M) :
 (goCommit p seq).only (Within M) := by
  unfold goCommit
  repeat' first
    | with_reducible exact on_done
    | with_reducible refine on_look fun _ => ?_
    | with_reducible exact on_nil
    | with_reducible refine on_cons ?_ ?_
    | with_reducible exact on_eff hM rfl
    | with_reducible refine on_pageErr (sub_trans rfl hM)
    | with_reducible refine on_setRegN (sub_trans rfl hM)
    | with_reducible refine on_settleCommit (sub_trans rfl hM)
    | with_reducible refine on_ite ?_ ?_
    | with_reducible refine only_optA fun _ _ => ?_
    | intro _
    | dsimp only

theorem on_writeGo {M : List StateField} {p : Nat} {seq : BitVec 24} (hM : ([.regs, .commits, .rings, .mem, .codingMap, .crcDiff, .held, .heldNext, .buffered, .tlb, .lcSlots, .lcWait, .lcFill, .layers, .outs, .trust, .free, .out] : List StateField) ⊆ M) :
 (writeGo p seq).only (Within M) := by
  unfold writeGo
  repeat' first
    | with_reducible exact on_done
    | with_reducible refine on_look fun _ => ?_
    | with_reducible exact on_eff hM rfl
    | with_reducible refine on_seq ?_ ?_
    | with_reducible refine on_setRegN (sub_trans rfl hM)
    | with_reducible refine on_goGroup (sub_trans rfl hM)
    | with_reducible refine on_goCommit (sub_trans rfl hM)
    | with_reducible refine only_whenA fun _ => ?_
    | intro _
    | split
    | dsimp only

theorem on_actCommitPoint {M : List StateField} {p : Nat} (hM : ([.regs, .commits, .rings, .free, .out] : List StateField) ⊆ M) :
 (actCommitPoint p).only (Within M) := by
  unfold actCommitPoint
  repeat' first
    | with_reducible exact on_done
    | with_reducible refine on_look fun _ => ?_
    | with_reducible exact on_eff hM rfl
    | with_reducible refine on_seq ?_ ?_
    | with_reducible refine on_bump (sub_trans rfl hM)
    | with_reducible refine on_applyCommit (sub_trans rfl hM)
    | with_reducible refine only_whenA fun _ => ?_
    | intro _
    | dsimp only

theorem on_writeAbandon {M : List StateField} {p : Nat} (hM : ([.regs, .commits, .outs] : List StateField) ⊆ M) :
 (writeAbandon p).only (Within M) := by
  unfold writeAbandon
  repeat' first
    | with_reducible exact on_done
    | with_reducible refine on_look fun _ => ?_
    | with_reducible exact on_eff hM rfl
    | with_reducible refine on_abandonGroup (sub_trans rfl hM)
    | with_reducible refine on_discardCommit (sub_trans rfl hM)
    | with_reducible refine only_whenA fun _ => ?_
    | split
    | dsimp only

theorem on_clearErr {M : List StateField} {p : Nat} (hM : ([.regs] : List StateField) ⊆ M) :
 (clearErr p).only (Within M) := by
  unfold clearErr
  repeat' first
    | with_reducible exact on_done
    | with_reducible refine on_look fun _ => ?_
    | with_reducible exact on_nil
    | with_reducible refine on_cons ?_ ?_
    | with_reducible exact on_eff hM rfl
    | with_reducible refine on_setReg (sub_trans rfl hM)
    | with_reducible refine only_whenA fun _ => ?_
    | dsimp only

end Sys2Proof.Machine
end

