-- ==== Sys2Proof/Laws/FieldsHostPort.lean ====
section
/-! SUPPORT. The fields that the acts of Machine/HostPort.lean may change. -/

namespace Sys2Proof.Machine

theorem on_globalWrite {M : List StateField} {f : Func} {a : Act} (hM : ([.regs, .rings, .free, .out] : List StateField) ⊆ M) (h0 : a.only (Within M)) :
 (globalWrite f a).only (Within M) := by
  unfold globalWrite
  repeat' first
    | with_reducible exact on_done
    | with_reducible refine on_look fun _ => ?_
    | with_reducible exact on_eff hM rfl
    | with_reducible exact h0
    | with_reducible refine on_whenServed (sub_trans rfl hM) ?_
    | with_reducible refine on_withWrite (sub_trans rfl hM) ?_
    | intro _
    | dsimp only

theorem on_actLinkChange {M : List StateField} {speed width : Nat} (hM : ([.regs, .rings, .linkWait, .free, .out] : List StateField) ⊆ M) :
 (actLinkChange speed width).only (Within M) := by
  unfold actLinkChange
  repeat' first
    | with_reducible exact on_done
    | with_reducible refine on_look fun _ => ?_
    | with_reducible exact on_nil
    | with_reducible refine on_cons ?_ ?_
    | with_reducible exact on_eff hM rfl
    | with_reducible refine on_setRegN (sub_trans rfl hM)
    | with_reducible refine on_putEvent (sub_trans rfl hM)
    | with_reducible refine only_whenA fun _ => ?_
    | intro _
    | dsimp only

theorem on_ringDoorbell {M : List StateField} {f : Func} {a : Act} (hM : ([.regs, .rings, .free, .out] : List StateField) ⊆ M) (h0 : a.only (Within M)) :
 (ringDoorbell f a).only (Within M) := by
  unfold ringDoorbell
  repeat' first
    | with_reducible exact on_done
    | with_reducible refine on_look fun _ => ?_
    | with_reducible exact on_eff hM rfl
    | with_reducible exact h0
    | with_reducible refine on_hostErr (sub_trans rfl hM)
    | with_reducible refine on_ite ?_ ?_
    | intro _
    | dsimp only

theorem on_actJobRingProducerDoorbell {M : List StateField} {f : Func} {n : Fin 8} {v : Word} (hM : ([.regs, .rings, .free, .out] : List StateField) ⊆ M) :
 (actJobRingProducerDoorbell f n v).only (Within M) := by
  unfold actJobRingProducerDoorbell
  repeat' first
    | with_reducible exact on_done
    | with_reducible refine on_look fun _ => ?_
    | with_reducible exact on_eff hM rfl
    | with_reducible refine on_ringDoorbell (sub_trans rfl hM) ?_
    | with_reducible refine on_setReg (sub_trans rfl hM)
    | with_reducible refine on_hostErr (sub_trans rfl hM)
    | with_reducible refine on_ite ?_ ?_
    | intro _
    | dsimp only

theorem on_overflowMarker {M : List StateField} {f : Func} {n : Nat} (hM : ([.regs, .rings, .out] : List StateField) ⊆ M) :
 (overflowMarker f n).only (Within M) := by
  unfold overflowMarker
  repeat' first
    | with_reducible exact on_done
    | with_reducible refine on_look fun _ => ?_
    | with_reducible exact on_eff hM rfl
    | with_reducible refine on_seq ?_ ?_
    | with_reducible refine on_writeRecord (sub_trans rfl hM)
    | with_reducible refine only_whenA fun _ => ?_
    | intro _
    | dsimp only

theorem on_actEventRingConsumerDoorbell {M : List StateField} {f : Func} {n : Fin 8} {v : Word} (hM : ([.regs, .rings, .free, .out] : List StateField) ⊆ M) :
 (actEventRingConsumerDoorbell f n v).only (Within M) := by
  unfold actEventRingConsumerDoorbell
  repeat' first
    | with_reducible exact on_done
    | with_reducible refine on_look fun _ => ?_
    | with_reducible exact on_eff hM rfl
    | with_reducible refine on_seq ?_ ?_
    | with_reducible refine on_ringDoorbell (sub_trans rfl hM) ?_
    | with_reducible refine on_setReg (sub_trans rfl hM)
    | with_reducible refine on_overflowMarker (sub_trans rfl hM)
    | with_reducible refine on_hostErr (sub_trans rfl hM)
    | with_reducible refine on_ite ?_ ?_
    | intro _
    | dsimp only

theorem on_actSemaphoreSignalDoorbell {M : List StateField} {f : Func} {n : Fin 4096} {v : Word} (hM : ([.regs, .rings, .free, .out] : List StateField) ⊆ M) :
 (actSemaphoreSignalDoorbell f n v).only (Within M) := by
  unfold actSemaphoreSignalDoorbell
  repeat' first
    | with_reducible exact on_done
    | with_reducible refine on_look fun _ => ?_
    | with_reducible exact on_eff hM rfl
    | with_reducible refine on_doorbell (sub_trans rfl hM) ?_
    | with_reducible refine on_semAdd (sub_trans rfl hM)
    | intro _
    | dsimp only

theorem on_actEventRingInterruptTimer {M : List StateField} {f : Func} {n : Fin 8} {now : Dword} (hM : ([.regs, .rings, .time, .out] : List StateField) ⊆ M) :
 (actEventRingInterruptTimer f n now).only (Within M) := by
  unfold actEventRingInterruptTimer
  repeat' first
    | with_reducible exact on_done
    | with_reducible refine on_look fun _ => ?_
    | with_reducible exact on_eff hM rfl
    | with_reducible refine on_seq ?_ ?_
    | with_reducible refine on_tick (sub_trans rfl hM)
    | with_reducible refine on_fireVector (sub_trans rfl hM)
    | with_reducible refine only_whenA fun _ => ?_
    | intro _
    | dsimp only

theorem on_ringCfg {M : List StateField} {f : Func} {off : Nat} {mask : Word} {maxLog : Nat} {v : Word} {start : Act} (hM : ([.regs, .rings, .free, .out] : List StateField) ⊆ M) (h0 : start.only (Within M)) :
 (ringCfg f off mask maxLog v start).only (Within M) := by
  unfold ringCfg
  repeat' first
    | with_reducible exact on_done
    | with_reducible refine on_look fun _ => ?_
    | with_reducible exact on_eff hM rfl
    | with_reducible refine on_seq ?_ ?_
    | with_reducible exact h0
    | with_reducible refine on_hostErr (sub_trans rfl hM)
    | with_reducible refine on_setFld (sub_trans rfl hM)
    | with_reducible refine on_setReg (sub_trans rfl hM)
    | with_reducible refine on_setRegN (sub_trans rfl hM)
    | with_reducible refine on_ite ?_ ?_
    | with_reducible refine only_whenA fun _ => ?_
    | intro _
    | dsimp only

theorem on_startEvr {M : List StateField} {f : Func} {n : Nat} (hM : ([.regs, .rings, .owed, .free, .out] : List StateField) ⊆ M) :
 (startEvr f n).only (Within M) := by
  unfold startEvr
  repeat' first
    | with_reducible exact on_done
    | with_reducible refine on_look fun _ => ?_
    | with_reducible exact on_nil
    | with_reducible refine on_cons ?_ ?_
    | with_reducible exact on_eff hM rfl
    | with_reducible refine on_seq ?_ ?_
    | with_reducible refine on_setRegN (sub_trans rfl hM)
    | with_reducible refine on_putEvent (sub_trans rfl hM)
    | with_reducible refine only_whenA fun _ => ?_
    | with_reducible refine only_forA fun _ _ => ?_
    | intro _
    | dsimp only

theorem on_writeEvrCfg {M : List StateField} {f : Func} {n : Nat} {v : Word} (hM : ([.regs, .rings, .owed, .free, .out] : List StateField) ⊆ M) :
 (writeEvrCfg f n v).only (Within M) := by
  unfold writeEvrCfg
  repeat' first
    | with_reducible exact on_done
    | with_reducible refine on_look fun _ => ?_
    | with_reducible exact on_eff hM rfl
    | with_reducible refine on_ringCfg (sub_trans rfl hM) ?_
    | with_reducible refine on_startEvr (sub_trans rfl hM)
    | intro _
    | dsimp only

theorem on_startJr {M : List StateField} {f : Func} {n : Nat} (hM : ([.regs] : List StateField) ⊆ M) :
 (startJr f n).only (Within M) := by
  unfold startJr
  repeat' first
    | with_reducible exact on_done
    | with_reducible refine on_look fun _ => ?_
    | with_reducible exact on_nil
    | with_reducible refine on_cons ?_ ?_
    | with_reducible exact on_eff hM rfl
    | with_reducible refine on_setRegN (sub_trans rfl hM)
    | dsimp only

theorem on_writeJrCfg {M : List StateField} {f : Func} {n : Nat} {v : Word} (hM : ([.regs, .rings, .free, .out] : List StateField) ⊆ M) :
 (writeJrCfg f n v).only (Within M) := by
  unfold writeJrCfg
  repeat' first
    | with_reducible exact on_done
    | with_reducible refine on_look fun _ => ?_
    | with_reducible exact on_eff hM rfl
    | with_reducible refine on_ringCfg (sub_trans rfl hM) ?_
    | with_reducible refine on_startJr (sub_trans rfl hM)
    | intro _
    | dsimp only

theorem on_writeJrSeq {M : List StateField} {f : Func} {n : Nat} {v : Word} (hM : ([.regs, .rings, .free, .out] : List StateField) ⊆ M) :
 (writeJrSeq f n v).only (Within M) := by
  unfold writeJrSeq
  repeat' first
    | with_reducible exact on_done
    | with_reducible refine on_look fun _ => ?_
    | with_reducible exact on_eff hM rfl
    | with_reducible refine on_hostErr (sub_trans rfl hM)
    | with_reducible refine on_setReg (sub_trans rfl hM)
    | with_reducible refine on_ite ?_ ?_
    | intro _
    | dsimp only

theorem on_jrRestart {M : List StateField} {f : Func} {n : Nat} (hM : ([.regs] : List StateField) ⊆ M) :
 (jrRestart f n).only (Within M) := by
  unfold jrRestart
  repeat' first
    | with_reducible exact on_done
    | with_reducible refine on_look fun _ => ?_
    | with_reducible exact on_eff hM rfl
    | with_reducible refine on_setFld (sub_trans rfl hM)
    | dsimp only

theorem on_jrSkip {M : List StateField} {f : Func} {n : Nat} (hM : ([.regs, .rings, .free, .out] : List StateField) ⊆ M) :
 (jrSkip f n).only (Within M) := by
  unfold jrSkip
  repeat' first
    | with_reducible exact on_done
    | with_reducible refine on_look fun _ => ?_
    | with_reducible exact on_eff hM rfl
    | with_reducible refine on_seq ?_ ?_
    | with_reducible refine on_setRegN (sub_trans rfl hM)
    | with_reducible refine on_jrRestart (sub_trans rfl hM)
    | with_reducible refine on_hostErr (sub_trans rfl hM)
    | with_reducible refine on_ite ?_ ?_
    | intro _
    | dsimp only

end Sys2Proof.Machine
end

