-- ==== Sys2Proof/Laws/FieldsJobs.lean ====
section
/-! SUPPORT. The fields that the acts of Machine/Jobs.lean may change. -/

namespace Sys2Proof.Machine

theorem on_startFence {M : List StateField} {n : Nat} (hM : ([.regs, .jobs] : List StateField) ⊆ M) :
 (startFence n).only (Within M) := by
  unfold startFence
  repeat' first
    | with_reducible exact on_done
    | with_reducible refine on_look fun _ => ?_
    | with_reducible exact on_eff hM rfl
    | with_reducible refine on_endJob (sub_trans rfl hM)
    | with_reducible refine only_optA fun _ _ => ?_
    | intro _
    | dsimp only

theorem on_startJob {M : List StateField} {n : Nat} (hM : ([.regs, .shadows, .commits, .units, .rings, .jobs, .mem, .codingMap, .crcDiff, .held, .heldNext, .buffered, .tlb, .lcSlots, .lcWait, .lcFill, .sp, .arrays, .engines, .ctxs, .entries, .entryNext, .lanes, .ports, .windows, .streams, .pipes, .layers, .outs, .keep, .trust, .track, .tblk, .tcache, .tcam, .trings, .flog, .flogN, .free, .out] : List StateField) ⊆ M) :
 (startJob n).only (Within M) := by
  unfold startJob
  repeat' first
    | with_reducible exact on_done
    | with_reducible refine on_look fun _ => ?_
    | with_reducible exact on_eff hM rfl
    | with_reducible refine on_startBatch (sub_trans rfl hM)
    | with_reducible refine on_startTrust (sub_trans rfl hM)
    | with_reducible refine on_startLc (sub_trans rfl hM)
    | with_reducible refine on_startStream (sub_trans rfl hM)
    | with_reducible refine on_startTrack (sub_trans rfl hM)
    | with_reducible refine on_startFence (sub_trans rfl hM)
    | with_reducible refine on_startBinding (sub_trans rfl hM)
    | with_reducible refine on_ite ?_ ?_
    | with_reducible refine only_optA fun _ _ => ?_
    | intro _
    | split
    | dsimp only

theorem on_actFence {M : List StateField} {f : Func} {ring : Fin 8} {d : BitVec 1024} (hM : ([.regs, .rings, .jobs, .jobNext, .free, .out] : List StateField) ⊆ M) :
 (actFence f ring d).only (Within M) := by
  unfold actFence
  repeat' first
    | with_reducible exact on_done
    | with_reducible refine on_look fun _ => ?_
    | with_reducible exact on_eff hM rfl
    | with_reducible refine on_ofKind (sub_trans rfl hM) ?_
    | with_reducible refine on_acceptJob (sub_trans rfl hM) ?_
    | with_reducible refine on_startIfOpen (sub_trans rfl hM) ?_
    | with_reducible refine on_startFence (sub_trans rfl hM)
    | with_reducible refine on_ite ?_ ?_
    | intro _
    | dsimp only

theorem on_hostReadFails {M : List StateField} {cause : Nat} {r : HostReader} (hM : ([.regs, .shadows, .commits, .units, .rings, .jobs, .jobNext, .mem, .codingMap, .crcDiff, .held, .heldNext, .buffered, .tlb, .lcSlots, .lcWait, .lcFill, .sp, .arrays, .engines, .ctxs, .entries, .entryNext, .lanes, .ports, .remotes, .windows, .streams, .pipes, .layers, .keep, .trust, .owed, .phase, .tripHold, .ruin, .relock, .faultsAt, .flog, .flogN, .free, .out] : List StateField) ⊆ M) :
 (hostReadFails cause r).only (Within M) := by
  unfold hostReadFails
  repeat' first
    | with_reducible exact on_done
    | with_reducible refine on_look fun _ => ?_
    | with_reducible exact on_eff hM rfl
    | with_reducible refine on_seq ?_ ?_
    | with_reducible refine on_withFree (sub_trans rfl hM) ?_
    | with_reducible refine on_haltRing (sub_trans rfl hM)
    | with_reducible refine on_hostErr (sub_trans rfl hM)
    | with_reducible refine on_actAccessUnitFetch (sub_trans rfl hM)
    | with_reducible refine on_actRequestRetire (sub_trans rfl hM)
    | with_reducible refine on_streamJob (sub_trans rfl hM)
    | with_reducible refine on_keepJob (sub_trans rfl hM)
    | with_reducible refine on_ite ?_ ?_
    | with_reducible refine only_whenA fun _ => ?_
    | intro _
    | split
    | dsimp only

end Sys2Proof.Machine
end

