-- ==== Sys2Proof/Laws/FieldsRegView.lean ====
section
/-! SUPPORT. The fields that the acts of Machine/RegView.lean may change. -/

namespace Sys2Proof.Machine

theorem on_countStalls {M : List StateField} {p : Nat} (hM : ([.regs, .streams] : List StateField) ⊆ M) :
 (countStalls p).only (Within M) := by
  unfold countStalls
  repeat' first
    | with_reducible exact on_done
    | with_reducible refine on_look fun _ => ?_
    | with_reducible exact on_eff hM rfl
    | with_reducible refine on_countStall (sub_trans rfl hM)
    | with_reducible refine only_forA fun _ _ => ?_
    | intro _
    | dsimp only

theorem on_accrue {M : List StateField} {p off : Nat} (hM : ([.regs, .streams, .free] : List StateField) ⊆ M) :
 (accrue p off).only (Within M) := by
  unfold accrue
  repeat' first
    | with_reducible exact on_done
    | with_reducible refine on_look fun _ => ?_
    | with_reducible exact on_eff hM rfl
    | with_reducible refine on_seq ?_ ?_
    | with_reducible refine on_withFree (sub_trans rfl hM) ?_
    | with_reducible refine on_bump (sub_trans rfl hM)
    | with_reducible refine on_countStalls (sub_trans rfl hM)
    | with_reducible refine only_whenA fun _ => ?_
    | intro _
    | dsimp only

theorem on_withOpen {M : List StateField} {m : Word} {k : BitVec 64 → Act} (hM : ([.free] : List StateField) ⊆ M) (h0 : ∀ x0, (k x0).only (Within M)) :
 (withOpen m k).only (Within M) := by
  unfold withOpen
  repeat' first
    | with_reducible exact on_done
    | with_reducible refine on_look fun _ => ?_
    | with_reducible exact on_eff hM rfl
    | with_reducible exact h0 _
    | with_reducible refine on_withFree (sub_trans rfl hM) ?_
    | with_reducible refine on_ite ?_ ?_
    | intro _
    | dsimp only

theorem on_readEffect {M : List StateField} {f : Func} {p off : Nat} (hM : ([.regs, .rings, .free, .out] : List StateField) ⊆ M) :
 (readEffect f p off).only (Within M) := by
  unfold readEffect
  repeat' first
    | with_reducible exact on_done
    | with_reducible refine on_look fun _ => ?_
    | with_reducible exact on_nil
    | with_reducible refine on_cons ?_ ?_
    | with_reducible exact on_eff hM rfl
    | with_reducible refine on_setReg (sub_trans rfl hM)
    | with_reducible refine on_pageErr (sub_trans rfl hM)
    | with_reducible refine only_whenA fun _ => ?_
    | intro _
    | split
    | dsimp only

theorem on_countPmw {M : List StateField} {f : Func} {p off : Nat} (hM : ([.regs] : List StateField) ⊆ M) :
 (countPmw f p off).only (Within M) := by
  unfold countPmw
  repeat' first
    | with_reducible exact on_done
    | with_reducible refine on_look fun _ => ?_
    | with_reducible exact on_eff hM rfl
    | with_reducible refine on_countRead (sub_trans rfl hM)
    | with_reducible refine only_whenA fun _ => ?_
    | intro _
    | dsimp only

theorem on_readReg {M : List StateField} {f : Func} {p off : Nat} (hM : ([.regs, .latches, .rings, .streams, .free, .out] : List StateField) ⊆ M) :
 (readReg f p off).only (Within M) := by
  unfold readReg
  repeat' first
    | with_reducible exact on_done
    | with_reducible refine on_look fun _ => ?_
    | with_reducible exact on_nil
    | with_reducible refine on_cons ?_ ?_
    | with_reducible exact on_eff hM rfl
    | with_reducible refine on_seq ?_ ?_
    | with_reducible refine on_accrue (sub_trans rfl hM)
    | with_reducible refine on_withOpen (sub_trans rfl hM) ?_
    | with_reducible refine on_readWord (sub_trans rfl hM)
    | with_reducible refine on_readEffect (sub_trans rfl hM)
    | with_reducible refine on_countPmw (sub_trans rfl hM)
    | with_reducible refine on_ite ?_ ?_
    | intro _
    | split
    | dsimp only

theorem on_readPair {M : List StateField} {f : Func} {p off : Nat} (hM : ([.regs, .rings, .streams, .free, .out] : List StateField) ⊆ M) :
 (readPair f p off).only (Within M) := by
  unfold readPair
  repeat' first
    | with_reducible exact on_done
    | with_reducible refine on_look fun _ => ?_
    | with_reducible exact on_nil
    | with_reducible refine on_cons ?_ ?_
    | with_reducible exact on_eff hM rfl
    | with_reducible refine on_seq ?_ ?_
    | with_reducible refine on_accrue (sub_trans rfl hM)
    | with_reducible refine on_withOpen (sub_trans rfl hM) ?_
    | with_reducible refine on_readEffect (sub_trans rfl hM)
    | with_reducible refine on_countPmw (sub_trans rfl hM)
    | intro _
    | dsimp only

end Sys2Proof.Machine
end

