-- ==== Sys2Proof/Laws/FieldsTimebase.lean ====
section
/-! SUPPORT. The fields that the acts of Machine/Timebase.lean may change. -/

namespace Sys2Proof.Machine

theorem on_updTb {M : List StateField} {f : TimeAux → TimeAux} (hM : ([.tb] : List StateField) ⊆ M) :
 (updTb f).only (Within M) := by
  unfold updTb
  repeat' first
    | with_reducible exact on_done
    | with_reducible refine on_look fun _ => ?_
    | with_reducible exact on_eff hM rfl
    | intro _

theorem on_ptmState {M : List StateField} {dst : Nat} (hM : ([.regs, .rings, .free, .out] : List StateField) ⊆ M) :
 (ptmState dst).only (Within M) := by
  unfold ptmState
  repeat' first
    | with_reducible exact on_done
    | with_reducible refine on_look fun _ => ?_
    | with_reducible exact on_nil
    | with_reducible refine on_cons ?_ ?_
    | with_reducible exact on_eff hM rfl
    | with_reducible refine on_setRegN (sub_trans rfl hM)
    | with_reducible refine on_raiseIrq (sub_trans rfl hM)
    | with_reducible refine on_pageEvent (sub_trans rfl hM)
    | with_reducible refine only_whenA fun _ => ?_
    | intro _
    | dsimp only

theorem on_actPtmDialogue {M : List StateField} {now : Dword} {master : Option Dword} (hM : ([.regs, .rings, .time, .tb, .free, .out] : List StateField) ⊆ M) :
 (actPtmDialogue now master).only (Within M) := by
  unfold actPtmDialogue
  repeat' first
    | with_reducible exact on_done
    | with_reducible refine on_look fun _ => ?_
    | with_reducible exact on_nil
    | with_reducible refine on_cons ?_ ?_
    | with_reducible exact on_eff hM rfl
    | with_reducible refine on_tick (sub_trans rfl hM)
    | with_reducible refine on_bump (sub_trans rfl hM)
    | with_reducible refine on_updTb (sub_trans rfl hM)
    | with_reducible refine on_ptmState (sub_trans rfl hM)
    | with_reducible refine on_setRegN (sub_trans rfl hM)
    | with_reducible refine on_ite ?_ ?_
    | with_reducible refine only_whenA fun _ => ?_
    | intro _
    | split
    | dsimp only

theorem on_actTbSet {M : List StateField} (hM : ([.regs, .rings, .time, .tb, .free, .out] : List StateField) ⊆ M) :
 (actTbSet ).only (Within M) := by
  unfold actTbSet
  repeat' first
    | with_reducible exact on_done
    | with_reducible refine on_look fun _ => ?_
    | with_reducible exact on_eff hM rfl
    | with_reducible refine on_seq ?_ ?_
    | with_reducible refine on_pageErr (sub_trans rfl hM)
    | with_reducible refine on_updTb (sub_trans rfl hM)
    | with_reducible refine on_ite ?_ ?_
    | intro _
    | dsimp only

theorem on_mainsTo {M : List StateField} {dst : Nat} (hM : ([.regs, .rings, .free, .out] : List StateField) ⊆ M) :
 (mainsTo dst).only (Within M) := by
  unfold mainsTo
  repeat' first
    | with_reducible exact on_done
    | with_reducible refine on_look fun _ => ?_
    | with_reducible exact on_eff hM rfl
    | with_reducible refine on_seq ?_ ?_
    | with_reducible refine on_setFld (sub_trans rfl hM)
    | with_reducible refine on_pageEvent (sub_trans rfl hM)
    | with_reducible refine only_whenA fun _ => ?_
    | intro _
    | dsimp only

theorem on_disturb {M : List StateField} {cls : Nat} {theta : Nat} (hM : ([.regs, .tb, .out] : List StateField) ⊆ M) :
 (disturb cls theta).only (Within M) := by
  unfold disturb
  repeat' first
    | with_reducible exact on_done
    | with_reducible refine on_look fun _ => ?_
    | with_reducible exact on_nil
    | with_reducible refine on_cons ?_ ?_
    | with_reducible exact on_eff hM rfl
    | with_reducible refine on_setReg (sub_trans rfl hM)
    | with_reducible refine on_bump (sub_trans rfl hM)
    | with_reducible refine on_raiseIrq (sub_trans rfl hM)
    | with_reducible refine on_updTb (sub_trans rfl hM)
    | with_reducible refine on_ite ?_ ?_
    | intro _
    | dsimp only

theorem on_endCycle {M : List StateField} (hM : ([.regs, .rings, .tb, .free, .out] : List StateField) ⊆ M) :
 (endCycle ).only (Within M) := by
  unfold endCycle
  repeat' first
    | with_reducible exact on_done
    | with_reducible refine on_look fun _ => ?_
    | with_reducible exact on_eff hM rfl
    | with_reducible refine on_seq ?_ ?_
    | with_reducible refine on_pageEvent (sub_trans rfl hM)
    | with_reducible refine on_updTb (sub_trans rfl hM)
    | with_reducible refine only_whenA fun _ => ?_
    | intro _
    | dsimp only

theorem on_missCrossing {M : List StateField} {t : Nat} (hM : ([.regs, .rings, .tb, .free, .out] : List StateField) ⊆ M) :
 (missCrossing t).only (Within M) := by
  unfold missCrossing
  repeat' first
    | with_reducible exact on_done
    | with_reducible refine on_look fun _ => ?_
    | with_reducible exact on_nil
    | with_reducible refine on_cons ?_ ?_
    | with_reducible exact on_eff hM rfl
    | with_reducible refine on_disturb (sub_trans rfl hM)
    | with_reducible refine on_updTb (sub_trans rfl hM)
    | with_reducible refine on_mainsTo (sub_trans rfl hM)
    | intro _
    | dsimp only

theorem on_acceptCrossing {M : List StateField} {now : Nat} {period : Option Nat} (hM : ([.regs, .rings, .tb, .free, .out] : List StateField) ⊆ M) :
 (acceptCrossing now period).only (Within M) := by
  unfold acceptCrossing
  repeat' first
    | with_reducible exact on_done
    | with_reducible refine on_look fun _ => ?_
    | with_reducible exact on_nil
    | with_reducible refine on_cons ?_ ?_
    | with_reducible exact on_eff hM rfl
    | with_reducible refine on_disturb (sub_trans rfl hM)
    | with_reducible refine on_updTb (sub_trans rfl hM)
    | with_reducible refine on_setReg64 (sub_trans rfl hM)
    | with_reducible refine on_setRegN (sub_trans rfl hM)
    | with_reducible refine on_mainsTo (sub_trans rfl hM)
    | with_reducible refine on_ite ?_ ?_
    | with_reducible refine only_whenA fun _ => ?_
    | intro _
    | split
    | dsimp only

theorem on_actMainsPositiveCrossing {M : List StateField} {now : Dword} (hM : ([.regs, .rings, .time, .tb, .free, .out] : List StateField) ⊆ M) :
 (actMainsPositiveCrossing now).only (Within M) := by
  unfold actMainsPositiveCrossing
  repeat' first
    | with_reducible exact on_done
    | with_reducible refine on_look fun _ => ?_
    | with_reducible exact on_nil
    | with_reducible refine on_cons ?_ ?_
    | with_reducible exact on_eff hM rfl
    | with_reducible refine on_seq ?_ ?_
    | with_reducible refine on_tick (sub_trans rfl hM)
    | with_reducible refine on_updTb (sub_trans rfl hM)
    | with_reducible refine on_acceptCrossing (sub_trans rfl hM)
    | with_reducible refine on_missCrossing (sub_trans rfl hM)
    | with_reducible refine on_pageErr (sub_trans rfl hM)
    | with_reducible refine on_endCycle (sub_trans rfl hM)
    | with_reducible refine on_ite ?_ ?_
    | with_reducible refine only_whenA fun _ => ?_
    | intro _
    | dsimp only

theorem on_actMainsNegativeCrossing {M : List StateField} {now : Dword} (hM : ([.regs, .time, .tb, .out] : List StateField) ⊆ M) :
 (actMainsNegativeCrossing now).only (Within M) := by
  unfold actMainsNegativeCrossing
  repeat' first
    | with_reducible exact on_done
    | with_reducible refine on_look fun _ => ?_
    | with_reducible exact on_eff hM rfl
    | with_reducible refine on_seq ?_ ?_
    | with_reducible refine on_tick (sub_trans rfl hM)
    | with_reducible refine on_disturb (sub_trans rfl hM)
    | with_reducible refine only_whenA fun _ => ?_
    | intro _
    | dsimp only

theorem on_actMainsMissingCrossing {M : List StateField} {now : Dword} (hM : ([.regs, .rings, .time, .tb, .free, .out] : List StateField) ⊆ M) :
 (actMainsMissingCrossing now).only (Within M) := by
  unfold actMainsMissingCrossing
  repeat' first
    | with_reducible exact on_done
    | with_reducible refine on_look fun _ => ?_
    | with_reducible exact on_eff hM rfl
    | with_reducible refine on_seq ?_ ?_
    | with_reducible refine on_tick (sub_trans rfl hM)
    | with_reducible refine on_missCrossing (sub_trans rfl hM)
    | with_reducible refine on_endCycle (sub_trans rfl hM)
    | with_reducible refine only_whenA fun _ => ?_
    | intro _
    | split
    | dsimp only

theorem on_writeTbCfg {M : List StateField} {v : Word} (hM : ([.regs, .rings, .tb, .free, .out] : List StateField) ⊆ M) :
 (writeTbCfg v).only (Within M) := by
  unfold writeTbCfg
  repeat' first
    | with_reducible exact on_done
    | with_reducible refine on_look fun _ => ?_
    | with_reducible exact on_nil
    | with_reducible refine on_cons ?_ ?_
    | with_reducible exact on_eff hM rfl
    | with_reducible refine on_seq ?_ ?_
    | with_reducible refine on_setReg (sub_trans rfl hM)
    | with_reducible refine on_updTb (sub_trans rfl hM)
    | with_reducible refine on_ptmState (sub_trans rfl hM)
    | with_reducible refine on_mainsTo (sub_trans rfl hM)
    | with_reducible refine only_whenA fun _ => ?_
    | intro _
    | dsimp only

theorem on_actPfwFall {M : List StateField} {now : Dword} (hM : ([.regs, .rings, .time, .tb, .free, .out] : List StateField) ⊆ M) :
 (actPfwFall now).only (Within M) := by
  unfold actPfwFall
  repeat' first
    | with_reducible exact on_done
    | with_reducible refine on_look fun _ => ?_
    | with_reducible exact on_nil
    | with_reducible refine on_cons ?_ ?_
    | with_reducible exact on_eff hM rfl
    | with_reducible refine on_seq ?_ ?_
    | with_reducible refine on_tick (sub_trans rfl hM)
    | with_reducible refine on_setRegN (sub_trans rfl hM)
    | with_reducible refine on_setReg64 (sub_trans rfl hM)
    | with_reducible refine on_bump (sub_trans rfl hM)
    | with_reducible refine on_raiseIrq (sub_trans rfl hM)
    | with_reducible refine on_disturb (sub_trans rfl hM)
    | with_reducible refine on_updTb (sub_trans rfl hM)
    | with_reducible refine on_funcEvent (sub_trans rfl hM)
    | with_reducible refine on_ite ?_ ?_
    | with_reducible refine only_whenA fun _ => ?_
    | intro _
    | dsimp only

theorem on_actPfwRise {M : List StateField} {now : Dword} (hM : ([.regs, .rings, .time, .tb, .free, .out] : List StateField) ⊆ M) :
 (actPfwRise now).only (Within M) := by
  unfold actPfwRise
  repeat' first
    | with_reducible exact on_done
    | with_reducible refine on_look fun _ => ?_
    | with_reducible exact on_nil
    | with_reducible refine on_cons ?_ ?_
    | with_reducible exact on_eff hM rfl
    | with_reducible refine on_seq ?_ ?_
    | with_reducible refine on_tick (sub_trans rfl hM)
    | with_reducible refine on_setFld (sub_trans rfl hM)
    | with_reducible refine on_updTb (sub_trans rfl hM)
    | with_reducible refine on_funcEvent (sub_trans rfl hM)
    | with_reducible refine on_ite ?_ ?_
    | with_reducible refine only_whenA fun _ => ?_
    | intro _
    | dsimp only

theorem on_actPfwRearm {M : List StateField} {now : Dword} (hM : ([.time, .tb] : List StateField) ⊆ M) :
 (actPfwRearm now).only (Within M) := by
  unfold actPfwRearm
  repeat' first
    | with_reducible exact on_done
    | with_reducible refine on_look fun _ => ?_
    | with_reducible exact on_eff hM rfl
    | with_reducible refine on_seq ?_ ?_
    | with_reducible refine on_tick (sub_trans rfl hM)
    | with_reducible refine on_updTb (sub_trans rfl hM)
    | with_reducible refine only_whenA fun _ => ?_
    | intro _
    | dsimp only

end Sys2Proof.Machine
end

