-- ==== Sys2Proof/Laws/FieldsResets.lean ====
section
/-! SUPPORT. The fields that the acts of Machine/Resets.lean may change. -/

namespace Sys2Proof.Machine

theorem on_rebuildSettings {M : List StateField} (hM : ([.regs, .rings, .keep, .free, .out] : List StateField) ⊆ M) :
 (rebuildSettings ).only (Within M) := by
  unfold rebuildSettings
  repeat' first
    | with_reducible exact on_done
    | with_reducible refine on_look fun _ => ?_
    | with_reducible exact on_nil
    | with_reducible refine on_cons ?_ ?_
    | with_reducible exact on_eff hM rfl
    | with_reducible refine on_showKeep (sub_trans rfl hM)
    | with_reducible refine on_recordErr (sub_trans rfl hM)
    | with_reducible refine on_pageEvent (sub_trans rfl hM)
    | with_reducible refine only_whenA fun _ => ?_
    | intro _
    | dsimp only

theorem on_selectKeep {M : List StateField} (hM : ([.regs, .rings, .keep, .trust, .free, .out] : List StateField) ⊆ M) :
 (selectKeep ).only (Within M) := by
  unfold selectKeep
  repeat' first
    | with_reducible exact on_done
    | with_reducible refine on_look fun _ => ?_
    | with_reducible exact on_nil
    | with_reducible refine on_cons ?_ ?_
    | with_reducible exact on_eff hM rfl
    | with_reducible refine on_seq ?_ ?_
    | with_reducible refine on_updTrust (sub_trans rfl hM)
    | with_reducible refine on_rebuildSettings (sub_trans rfl hM)
    | with_reducible refine on_showKeep (sub_trans rfl hM)
    | with_reducible refine on_ite ?_ ?_
    | intro _
    | dsimp only

theorem on_applySettings {M : List StateField} (hM : ([.regs, .rings, .free, .out] : List StateField) ⊆ M) :
 (applySettings ).only (Within M) := by
  unfold applySettings
  repeat' first
    | with_reducible exact on_done
    | with_reducible refine on_look fun _ => ?_
    | with_reducible exact on_eff hM rfl
    | with_reducible refine on_seq ?_ ?_
    | with_reducible refine on_setFld (sub_trans rfl hM)
    | with_reducible refine on_ptmState (sub_trans rfl hM)
    | with_reducible refine only_whenA fun _ => ?_
    | with_reducible refine only_optA fun _ _ => ?_
    | intro _
    | dsimp only

theorem on_actPfwRearmed {M : List StateField} {now : Dword} (hM : ([.regs, .rings, .time, .keep, .tb, .free, .out] : List StateField) ⊆ M) :
 (actPfwRearmed now).only (Within M) := by
  unfold actPfwRearmed
  repeat' first
    | with_reducible exact on_done
    | with_reducible refine on_look fun _ => ?_
    | with_reducible exact on_eff hM rfl
    | with_reducible refine on_seq ?_ ?_
    | with_reducible refine on_actPfwRearm (sub_trans rfl hM)
    | with_reducible refine on_rebuildSettings (sub_trans rfl hM)
    | with_reducible refine on_ite ?_ ?_
    | intro _
    | dsimp only

theorem on_resetRegs {M : List StateField} {lo : Nat} {a0 : List (Nat × Nat)} (hM : ([.regs] : List StateField) ⊆ M) :
 (resetRegs lo a0).only (Within M) := by
  induction a0 generalizing lo with
  | nil =>
    unfold resetRegs
    repeat' first
      | with_reducible exact on_done
      | with_reducible refine on_look fun _ => ?_
      | with_reducible exact on_eff hM rfl
  | cons _ _ ih =>
    unfold resetRegs
    repeat' first
      | with_reducible exact on_done
      | with_reducible refine on_look fun _ => ?_
      | with_reducible exact on_eff hM rfl
      | with_reducible refine on_seq ?_ ?_
      | with_reducible exact ih

theorem on_cutFlash {M : List StateField} (hM : ([.regs, .flash, .free] : List StateField) ⊆ M) :
 (cutFlash ).only (Within M) := by
  unfold cutFlash
  repeat' first
    | with_reducible exact on_done
    | with_reducible refine on_look fun _ => ?_
    | with_reducible exact on_eff hM rfl
    | with_reducible refine on_seq ?_ ?_
    | with_reducible refine on_withFree (sub_trans rfl hM) ?_
    | with_reducible refine on_setFld (sub_trans rfl hM)
    | with_reducible refine on_ite ?_ ?_
    | with_reducible refine only_whenA fun _ => ?_
    | with_reducible refine only_optA fun _ _ => ?_
    | with_reducible refine only_forA fun _ _ => ?_
    | intro _
    | dsimp only

theorem on_updTrackCount {M : List StateField} (hM : ([.track] : List StateField) ⊆ M) :
 (updTrackCount ).only (Within M) := by
  unfold updTrackCount
  repeat' first
    | with_reducible exact on_done
    | with_reducible refine on_look fun _ => ?_
    | with_reducible exact on_eff hM rfl
    | intro _

theorem on_dropWork {M : List StateField} (hM : ([.regs, .shadows, .commits, .latches, .rings, .jobs, .held, .buffered, .tlb, .inval, .lcSlots, .lcWait, .lcFill, .sp, .arrays, .engines, .ctxs, .entries, .lanes, .classCounts, .ports, .remotes, .windows, .streams, .pipes, .layers, .outs, .trust, .flash, .track, .tblk, .tcache, .tcam, .trings, .free] : List StateField) ⊆ M) :
 (dropWork ).only (Within M) := by
  unfold dropWork
  repeat' first
    | with_reducible exact on_done
    | with_reducible refine on_look fun _ => ?_
    | with_reducible exact on_nil
    | with_reducible refine on_cons ?_ ?_
    | with_reducible exact on_eff hM rfl
    | with_reducible refine on_cutFlash (sub_trans rfl hM)
    | with_reducible refine on_updTrust (sub_trans rfl hM)
    | with_reducible refine on_updTrackCount (sub_trans rfl hM)
    | with_reducible refine only_forA fun _ _ => ?_
    | intro _
    | dsimp only

theorem on_clearAll {M : List StateField} (hM : ([.regs, .shadows, .commits, .latches, .units, .rings, .jobs, .time, .mem, .codingMap, .crcDiff, .held, .buffered, .tlb, .inval, .zeroing, .lcSlots, .lcWait, .lcFill, .sp, .arrays, .engines, .ctxs, .entries, .lanes, .classCounts, .ports, .remotes, .windows, .streams, .pipes, .layers, .outs, .trust, .flash, .track, .tblk, .tcache, .tcam, .trings, .vfs, .d3, .pcieAfter, .owed, .tripHold, .ruin, .relock, .linkWait, .lost, .thermtrip, .faultsAt, .flog, .flogN, .tb, .free] : List StateField) ⊆ M) :
 (clearAll ).only (Within M) := by
  unfold clearAll
  repeat' first
    | with_reducible exact on_done
    | with_reducible refine on_look fun _ => ?_
    | with_reducible exact on_nil
    | with_reducible refine on_cons ?_ ?_
    | with_reducible exact on_eff hM rfl
    | with_reducible refine on_dropWork (sub_trans rfl hM)
    | with_reducible refine on_resetRegs (sub_trans rfl hM)
    | with_reducible refine on_updTrust (sub_trans rfl hM)
    | intro _
    | dsimp only

theorem on_selfTest {M : List StateField} {t : SelfTest} (hM : ([.regs, .units, .rings, .owed, .flog, .flogN, .free, .out] : List StateField) ⊆ M) :
 (selfTest t).only (Within M) := by
  unfold selfTest
  repeat' first
    | with_reducible exact on_done
    | with_reducible refine on_look fun _ => ?_
    | with_reducible exact on_nil
    | with_reducible refine on_cons ?_ ?_
    | with_reducible exact on_eff hM rfl
    | with_reducible refine on_seq ?_ ?_
    | with_reducible refine on_recordErr (sub_trans rfl hM)
    | with_reducible refine on_flog (sub_trans rfl hM)
    | with_reducible refine on_setUnit (sub_trans rfl hM)
    | with_reducible refine on_setReg (sub_trans rfl hM)
    | with_reducible refine on_setRegN (sub_trans rfl hM)
    | with_reducible refine only_whenA fun _ => ?_
    | with_reducible refine only_forA fun _ _ => ?_
    | intro _
    | dsimp only

theorem on_endUnserved {M : List StateField} (hM : ([.regs, .rings, .phase, .free, .out] : List StateField) ⊆ M) :
 (endUnserved ).only (Within M) := by
  unfold endUnserved
  repeat' first
    | with_reducible exact on_done
    | with_reducible refine on_look fun _ => ?_
    | with_reducible exact on_eff hM rfl
    | with_reducible refine on_seq ?_ ?_
    | with_reducible refine on_recordErr (sub_trans rfl hM)
    | with_reducible refine on_enterNoService (sub_trans rfl hM)
    | with_reducible refine on_withFree (sub_trans rfl hM) ?_
    | with_reducible refine on_ite ?_ ?_
    | with_reducible refine only_whenA fun _ => ?_
    | intro _
    | split
    | dsimp only

theorem on_loadImage {M : List StateField} {c : Nat} {fallback : Bool} {code : Nat} (hM : ([.regs, .rings, .trust, .free, .out] : List StateField) ⊆ M) :
 (loadImage c fallback code).only (Within M) := by
  unfold loadImage
  repeat' first
    | with_reducible exact on_done
    | with_reducible refine on_look fun _ => ?_
    | with_reducible exact on_nil
    | with_reducible refine on_cons ?_ ?_
    | with_reducible exact on_eff hM rfl
    | with_reducible refine on_setRegN (sub_trans rfl hM)
    | with_reducible refine on_updTrust (sub_trans rfl hM)
    | with_reducible refine on_applySettings (sub_trans rfl hM)
    | intro _
    | dsimp only

theorem on_enterRecovery {M : List StateField} {fallback : Bool} {code : Nat} (hM : ([.regs, .rings, .phase, .free, .out] : List StateField) ⊆ M) :
 (enterRecovery fallback code).only (Within M) := by
  unfold enterRecovery
  repeat' first
    | with_reducible exact on_done
    | with_reducible refine on_look fun _ => ?_
    | with_reducible exact on_nil
    | with_reducible refine on_cons ?_ ?_
    | with_reducible exact on_eff hM rfl
    | with_reducible refine on_setRegN (sub_trans rfl hM)
    | with_reducible refine on_recordErr (sub_trans rfl hM)
    | dsimp only

theorem on_bootSteps {M : List StateField} (hM : ([.regs, .rings, .zeroing, .keep, .trust, .phase, .free, .out] : List StateField) ⊆ M) :
 (bootSteps ).only (Within M) := by
  unfold bootSteps
  repeat' first
    | with_reducible exact on_done
    | with_reducible refine on_look fun _ => ?_
    | with_reducible exact on_nil
    | with_reducible refine on_cons ?_ ?_
    | with_reducible exact on_eff hM rfl
    | with_reducible refine on_seq ?_ ?_
    | with_reducible refine on_selectKeep (sub_trans rfl hM)
    | with_reducible refine on_setFld (sub_trans rfl hM)
    | with_reducible refine on_enterRecovery (sub_trans rfl hM)
    | with_reducible refine on_bump (sub_trans rfl hM)
    | with_reducible refine on_loadImage (sub_trans rfl hM)
    | with_reducible refine on_ite ?_ ?_
    | intro _
    | split
    | dsimp only

theorem on_bootFromStep1 {M : List StateField} (hM : ([.regs, .rings, .zeroing, .keep, .trust, .phase, .free, .out] : List StateField) ⊆ M) :
 (bootFromStep1 ).only (Within M) := by
  unfold bootFromStep1
  repeat' first
    | with_reducible exact on_done
    | with_reducible refine on_look fun _ => ?_
    | with_reducible exact on_eff hM rfl
    | with_reducible refine on_bootSteps (sub_trans rfl hM)
    | with_reducible refine only_whenA fun _ => ?_
    | intro _
    | dsimp only

theorem on_restartBoot {M : List StateField} (hM : ([.regs, .rings, .time, .zeroing, .keep, .trust, .phase, .faultsAt, .free, .out] : List StateField) ⊆ M) :
 (restartBoot ).only (Within M) := by
  unfold restartBoot
  repeat' first
    | with_reducible exact on_done
    | with_reducible refine on_look fun _ => ?_
    | with_reducible exact on_nil
    | with_reducible refine on_cons ?_ ?_
    | with_reducible exact on_eff hM rfl
    | with_reducible refine on_setRegN (sub_trans rfl hM)
    | with_reducible refine on_bootFromStep1 (sub_trans rfl hM)
    | intro _
    | dsimp only

theorem on_actDeviceFault {M : List StateField} {code : Nat} (hM : ([.regs, .rings, .time, .zeroing, .keep, .trust, .owed, .phase, .tripHold, .ruin, .relock, .faultsAt, .flog, .flogN, .free, .out] : List StateField) ⊆ M) :
 (actDeviceFault code).only (Within M) := by
  unfold actDeviceFault
  repeat' first
    | with_reducible exact on_done
    | with_reducible refine on_look fun _ => ?_
    | with_reducible exact on_eff hM rfl
    | with_reducible refine on_seq ?_ ?_
    | with_reducible refine on_noteFault (sub_trans rfl hM)
    | with_reducible refine on_enterNoService (sub_trans rfl hM)
    | with_reducible refine on_restartBoot (sub_trans rfl hM)
    | with_reducible refine on_deviceFault (sub_trans rfl hM)
    | with_reducible refine on_ite ?_ ?_
    | intro _
    | split
    | dsimp only

theorem on_takeTemp {M : List StateField} {h : Int × Nat} (hM : ([.regs, .shadows, .commits, .latches, .units, .rings, .jobs, .time, .mem, .codingMap, .crcDiff, .held, .buffered, .tlb, .inval, .zeroing, .lcSlots, .lcWait, .lcFill, .sp, .arrays, .engines, .ctxs, .entries, .lanes, .classCounts, .ports, .remotes, .windows, .streams, .pipes, .layers, .outs, .keep, .trust, .flash, .track, .tblk, .tcache, .tcam, .trings, .vfs, .d3, .pcieAfter, .owed, .phase, .tripHold, .ruin, .relock, .linkWait, .lost, .thermtrip, .faultsAt, .flog, .flogN, .tb, .free, .out] : List StateField) ⊆ M) :
 (takeTemp h).only (Within M) := by
  unfold takeTemp
  repeat' first
    | with_reducible exact on_done
    | with_reducible refine on_look fun _ => ?_
    | with_reducible exact on_nil
    | with_reducible refine on_cons ?_ ?_
    | with_reducible exact on_eff hM rfl
    | with_reducible refine on_seq ?_ ?_
    | with_reducible refine on_setFld (sub_trans rfl hM)
    | with_reducible refine on_putEvent (sub_trans rfl hM)
    | with_reducible refine on_clearAll (sub_trans rfl hM)
    | with_reducible refine on_actDeviceFault (sub_trans rfl hM)
    | with_reducible refine on_bootSteps (sub_trans rfl hM)
    | with_reducible refine on_ite ?_ ?_
    | with_reducible refine only_whenA fun _ => ?_
    | intro _
    | dsimp only

theorem on_actPowerOnReset {M : List StateField} {t : Straps} (hM : ([.regs, .shadows, .commits, .latches, .units, .rings, .jobs, .time, .mem, .codingMap, .crcDiff, .held, .buffered, .tlb, .inval, .zeroing, .lcSlots, .lcWait, .lcFill, .sp, .arrays, .engines, .ctxs, .entries, .lanes, .classCounts, .ports, .remotes, .windows, .streams, .pipes, .layers, .outs, .keep, .trust, .flash, .track, .tblk, .tcache, .tcam, .trings, .vfs, .d3, .pcieAfter, .owed, .phase, .tripHold, .ruin, .relock, .linkWait, .lost, .thermtrip, .faultsAt, .flog, .flogN, .tb, .free, .out] : List StateField) ⊆ M) :
 (actPowerOnReset t).only (Within M) := by
  unfold actPowerOnReset
  repeat' first
    | with_reducible exact on_done
    | with_reducible refine on_look fun _ => ?_
    | with_reducible exact on_nil
    | with_reducible refine on_cons ?_ ?_
    | with_reducible exact on_eff hM rfl
    | with_reducible refine on_clearAll (sub_trans rfl hM)
    | with_reducible refine on_setRegN (sub_trans rfl hM)
    | with_reducible refine on_flog (sub_trans rfl hM)
    | with_reducible refine on_selfTest (sub_trans rfl hM)
    | with_reducible refine on_withFree (sub_trans rfl hM) ?_
    | with_reducible refine on_takeTemp (sub_trans rfl hM)
    | intro _
    | dsimp only

theorem on_actPorNFall {M : List StateField} (hM : ([.regs, .shadows, .commits, .latches, .units, .rings, .jobs, .time, .mem, .codingMap, .crcDiff, .held, .buffered, .tlb, .inval, .zeroing, .lcSlots, .lcWait, .lcFill, .sp, .arrays, .engines, .ctxs, .entries, .lanes, .classCounts, .ports, .remotes, .windows, .streams, .pipes, .layers, .outs, .trust, .flash, .track, .tblk, .tcache, .tcam, .trings, .vfs, .d3, .pcieAfter, .owed, .phase, .tripHold, .ruin, .relock, .linkWait, .lost, .thermtrip, .faultsAt, .flog, .flogN, .tb, .free] : List StateField) ⊆ M) :
 (actPorNFall ).only (Within M) := by
  unfold actPorNFall
  repeat' first
    | with_reducible exact on_done
    | with_reducible refine on_look fun _ => ?_
    | with_reducible exact on_eff hM rfl
    | with_reducible refine on_seq ?_ ?_
    | with_reducible refine on_clearAll (sub_trans rfl hM)
    | dsimp only

theorem on_actBootComplete {M : List StateField} (hM : ([.regs, .rings, .owed, .phase, .free, .out] : List StateField) ⊆ M) :
 (actBootComplete ).only (Within M) := by
  unfold actBootComplete
  repeat' first
    | with_reducible exact on_done
    | with_reducible refine on_look fun _ => ?_
    | with_reducible exact on_nil
    | with_reducible refine on_cons ?_ ?_
    | with_reducible exact on_eff hM rfl
    | with_reducible refine on_setFld (sub_trans rfl hM)
    | with_reducible refine on_endUnserved (sub_trans rfl hM)
    | with_reducible refine on_setScrub (sub_trans rfl hM)
    | with_reducible refine only_whenA fun _ => ?_
    | with_reducible refine only_forA fun _ _ => ?_
    | intro _
    | dsimp only

theorem on_actBootScrubDone {M : List StateField} (hM : ([.regs, .lcSlots, .sp, .out] : List StateField) ⊆ M) :
 (actBootScrubDone ).only (Within M) := by
  unfold actBootScrubDone
  repeat' first
    | with_reducible exact on_done
    | with_reducible refine on_look fun _ => ?_
    | with_reducible exact on_nil
    | with_reducible refine on_cons ?_ ?_
    | with_reducible exact on_eff hM rfl
    | with_reducible refine on_seq ?_ ?_
    | with_reducible refine on_zeroArray (sub_trans rfl hM)
    | with_reducible refine on_setScrub (sub_trans rfl hM)
    | with_reducible refine on_bump (sub_trans rfl hM)
    | with_reducible refine on_raiseIrq (sub_trans rfl hM)
    | with_reducible refine only_whenA fun _ => ?_
    | with_reducible refine only_forA fun _ _ => ?_
    | intro _
    | dsimp only

theorem on_unbindAll {M : List StateField} (hM : ([.units] : List StateField) ⊆ M) :
 (unbindAll ).only (Within M) := by
  unfold unbindAll
  repeat' first
    | with_reducible exact on_done
    | with_reducible refine on_look fun _ => ?_
    | with_reducible exact on_eff hM rfl
    | with_reducible refine on_setUnit (sub_trans rfl hM)
    | with_reducible refine only_forA fun _ _ => ?_
    | intro _
    | dsimp only

theorem on_cutSaves {M : List StateField} (hM : ([.regs, .rings, .mem, .codingMap, .crcDiff, .held, .heldNext, .buffered, .tlb, .lcSlots, .lcWait, .lcFill, .trust, .free, .out] : List StateField) ⊆ M) :
 (cutSaves ).only (Within M) := by
  unfold cutSaves
  repeat' first
    | with_reducible exact on_done
    | with_reducible refine on_look fun _ => ?_
    | with_reducible exact on_nil
    | with_reducible refine on_cons ?_ ?_
    | with_reducible exact on_eff hM rfl
    | with_reducible refine on_virtWrite (sub_trans rfl hM) ?_
    | with_reducible refine on_finishMerge (sub_trans rfl hM)
    | with_reducible refine only_whenA fun _ => ?_
    | with_reducible refine only_optA fun _ _ => ?_
    | with_reducible refine only_forA fun _ _ => ?_
    | intro _
    | dsimp only

theorem on_beginReset {M : List StateField} {kind : ResetKind} (hM : ([.vfs, .d3, .phase, .linkWait] : List StateField) ⊆ M) :
 (beginReset kind).only (Within M) := by
  unfold beginReset
  repeat' first
    | with_reducible exact on_done
    | with_reducible refine on_look fun _ => ?_
    | with_reducible exact on_nil
    | with_reducible refine on_cons ?_ ?_
    | with_reducible exact on_eff hM rfl
    | with_reducible refine on_seq ?_ ?_
    | with_reducible refine only_whenA fun _ => ?_

theorem on_warmSteps {M : List StateField} {code : Nat} {test : SelfTest} {lost : LostUnits} (hM : ([.regs, .shadows, .commits, .latches, .units, .rings, .jobs, .mem, .codingMap, .crcDiff, .held, .heldNext, .buffered, .tlb, .inval, .lcSlots, .lcWait, .lcFill, .sp, .arrays, .engines, .ctxs, .entries, .lanes, .classCounts, .ports, .remotes, .windows, .streams, .pipes, .layers, .outs, .keep, .trust, .flash, .track, .tblk, .tcache, .tcam, .trings, .owed, .phase, .lost, .flog, .flogN, .tb, .free, .out] : List StateField) ⊆ M) :
 (warmSteps code test lost).only (Within M) := by
  unfold warmSteps
  repeat' first
    | with_reducible exact on_done
    | with_reducible refine on_look fun _ => ?_
    | with_reducible exact on_nil
    | with_reducible refine on_cons ?_ ?_
    | with_reducible exact on_eff hM rfl
    | with_reducible refine on_seq ?_ ?_
    | with_reducible refine on_cutSaves (sub_trans rfl hM)
    | with_reducible refine on_cutDump (sub_trans rfl hM)
    | with_reducible refine on_dropWork (sub_trans rfl hM)
    | with_reducible refine on_selectKeep (sub_trans rfl hM)
    | with_reducible refine on_resetRegs (sub_trans rfl hM)
    | with_reducible refine on_setReg (sub_trans rfl hM)
    | with_reducible refine on_updTb (sub_trans rfl hM)
    | with_reducible refine on_setFld (sub_trans rfl hM)
    | with_reducible refine on_unbindAll (sub_trans rfl hM)
    | with_reducible refine on_selfTest (sub_trans rfl hM)
    | with_reducible refine on_applySettings (sub_trans rfl hM)
    | with_reducible refine on_flog (sub_trans rfl hM)
    | with_reducible refine on_endUnserved (sub_trans rfl hM)
    | with_reducible refine only_whenA fun _ => ?_
    | with_reducible refine only_forA fun _ _ => ?_
    | intro _
    | dsimp only

theorem on_warmReset {M : List StateField} {code : Nat} {test : SelfTest} {lost : LostUnits} (hM : ([.regs, .shadows, .commits, .latches, .units, .rings, .jobs, .mem, .codingMap, .crcDiff, .held, .heldNext, .buffered, .tlb, .inval, .lcSlots, .lcWait, .lcFill, .sp, .arrays, .engines, .ctxs, .entries, .lanes, .classCounts, .ports, .remotes, .windows, .streams, .pipes, .layers, .outs, .keep, .trust, .flash, .track, .tblk, .tcache, .tcam, .trings, .vfs, .d3, .pcieAfter, .owed, .phase, .linkWait, .lost, .flog, .flogN, .tb, .free, .out] : List StateField) ⊆ M) :
 (warmReset code test lost).only (Within M) := by
  unfold warmReset
  repeat' first
    | with_reducible exact on_done
    | with_reducible refine on_look fun _ => ?_
    | with_reducible exact on_eff hM rfl
    | with_reducible refine on_seq ?_ ?_
    | with_reducible refine on_warmSteps (sub_trans rfl hM)
    | with_reducible refine on_beginReset (sub_trans rfl hM)
    | with_reducible refine only_whenA fun _ => ?_
    | intro _
    | dsimp only

theorem on_resetTrigger {M : List StateField} {kind : ResetKind} (hM : ([.regs, .rings, .time, .zeroing, .keep, .trust, .vfs, .d3, .phase, .linkWait, .faultsAt, .free, .out] : List StateField) ⊆ M) :
 (resetTrigger kind).only (Within M) := by
  unfold resetTrigger
  repeat' first
    | with_reducible exact on_done
    | with_reducible refine on_look fun _ => ?_
    | with_reducible exact on_eff hM rfl
    | with_reducible refine on_beginReset (sub_trans rfl hM)
    | with_reducible refine on_restartBoot (sub_trans rfl hM)
    | intro _
    | split
    | dsimp only

theorem on_actWarmReset {M : List StateField} {t : ResetTrigger} (hM : ([.regs, .shadows, .commits, .latches, .units, .rings, .jobs, .time, .mem, .codingMap, .crcDiff, .held, .heldNext, .buffered, .tlb, .inval, .zeroing, .lcSlots, .lcWait, .lcFill, .sp, .arrays, .engines, .ctxs, .entries, .lanes, .classCounts, .ports, .remotes, .windows, .streams, .pipes, .layers, .outs, .keep, .trust, .flash, .track, .tblk, .tcache, .tcam, .trings, .vfs, .d3, .pcieAfter, .owed, .phase, .tripHold, .ruin, .relock, .linkWait, .lost, .faultsAt, .flog, .flogN, .tb, .free, .out] : List StateField) ⊆ M) :
 (actWarmReset t).only (Within M) := by
  unfold actWarmReset
  repeat' first
    | with_reducible exact on_done
    | with_reducible refine on_look fun _ => ?_
    | with_reducible exact on_nil
    | with_reducible refine on_cons ?_ ?_
    | with_reducible exact on_eff hM rfl
    | with_reducible refine on_warmReset (sub_trans rfl hM)
    | with_reducible refine on_resetTrigger (sub_trans rfl hM)
    | with_reducible refine on_ite ?_ ?_
    | with_reducible refine only_whenA fun _ => ?_
    | intro _
    | split
    | dsimp only

theorem on_actPfFlr {M : List StateField} {now : Dword} (hM : ([.regs, .rings, .time, .zeroing, .keep, .trust, .vfs, .d3, .phase, .linkWait, .faultsAt, .free, .out] : List StateField) ⊆ M) :
 (actPfFlr now).only (Within M) := by
  unfold actPfFlr
  repeat' first
    | with_reducible exact on_done
    | with_reducible refine on_look fun _ => ?_
    | with_reducible exact on_eff hM rfl
    | with_reducible refine on_seq ?_ ?_
    | with_reducible refine on_inService (sub_trans rfl hM) ?_
    | with_reducible refine on_tick (sub_trans rfl hM)
    | with_reducible refine on_resetTrigger (sub_trans rfl hM)
    | intro _
    | dsimp only

theorem on_actPcieReset {M : List StateField} {cause : PcieReset} (hM : ([.regs, .rings, .time, .zeroing, .keep, .trust, .vfs, .d3, .pcieAfter, .phase, .linkWait, .faultsAt, .free, .out] : List StateField) ⊆ M) :
 (actPcieReset cause).only (Within M) := by
  unfold actPcieReset
  repeat' first
    | with_reducible exact on_done
    | with_reducible refine on_look fun _ => ?_
    | with_reducible exact on_eff hM rfl
    | with_reducible refine on_resetTrigger (sub_trans rfl hM)
    | with_reducible refine only_whenA fun _ => ?_
    | intro _
    | split
    | dsimp only

theorem on_actReferenceClockLoss {M : List StateField} {clk : RefClock} (hM : ([.regs, .shadows, .commits, .units, .rings, .time, .mem, .codingMap, .crcDiff, .held, .heldNext, .buffered, .tlb, .zeroing, .lcSlots, .lcWait, .lcFill, .sp, .arrays, .engines, .ctxs, .entries, .entryNext, .lanes, .ports, .remotes, .windows, .layers, .keep, .trust, .vfs, .d3, .owed, .phase, .tripHold, .ruin, .relock, .linkWait, .faultsAt, .flog, .flogN, .free, .out] : List StateField) ⊆ M) :
 (actReferenceClockLoss clk).only (Within M) := by
  unfold actReferenceClockLoss
  repeat' first
    | with_reducible exact on_done
    | with_reducible refine on_look fun _ => ?_
    | with_reducible exact on_nil
    | with_reducible refine on_cons ?_ ?_
    | with_reducible exact on_eff hM rfl
    | with_reducible refine on_actDeviceFault (sub_trans rfl hM)
    | with_reducible refine on_resetTrigger (sub_trans rfl hM)
    | with_reducible refine on_inService (sub_trans rfl hM) ?_
    | with_reducible refine on_pageErr (sub_trans rfl hM)
    | with_reducible refine on_portDown (sub_trans rfl hM)
    | with_reducible refine on_portTo (sub_trans rfl hM)
    | with_reducible refine only_forA fun _ _ => ?_
    | intro _
    | split
    | dsimp only

theorem on_actThermalSensorRead {M : List StateField} {now : Dword} {sensors : List Int} (hM : ([.regs, .shadows, .commits, .latches, .units, .rings, .jobs, .time, .mem, .codingMap, .crcDiff, .held, .buffered, .tlb, .inval, .zeroing, .lcSlots, .lcWait, .lcFill, .sp, .arrays, .engines, .ctxs, .entries, .lanes, .classCounts, .ports, .remotes, .windows, .streams, .pipes, .layers, .outs, .keep, .trust, .flash, .track, .tblk, .tcache, .tcam, .trings, .vfs, .d3, .pcieAfter, .owed, .phase, .tripHold, .ruin, .relock, .linkWait, .lost, .thermtrip, .faultsAt, .flog, .flogN, .tb, .free, .out] : List StateField) ⊆ M) :
 (actThermalSensorRead now sensors).only (Within M) := by
  unfold actThermalSensorRead
  repeat' first
    | with_reducible exact on_done
    | with_reducible refine on_look fun _ => ?_
    | with_reducible exact on_eff hM rfl
    | with_reducible refine on_seq ?_ ?_
    | with_reducible refine on_tick (sub_trans rfl hM)
    | with_reducible refine on_takeTemp (sub_trans rfl hM)
    | with_reducible refine on_ite ?_ ?_
    | intro _
    | dsimp only

theorem on_actD3hotEntry {M : List StateField} {f : Func} (hM : ([.regs, .shadows, .commits, .units, .rings, .jobs, .time, .mem, .codingMap, .crcDiff, .held, .heldNext, .buffered, .tlb, .zeroing, .lcSlots, .lcWait, .lcFill, .sp, .arrays, .engines, .ctxs, .entries, .entryNext, .lanes, .classCounts, .ports, .windows, .streams, .pipes, .layers, .outs, .keep, .trust, .track, .tcache, .vfs, .d3, .phase, .linkWait, .faultsAt, .flog, .flogN, .free, .out] : List StateField) ⊆ M) :
 (actD3hotEntry f).only (Within M) := by
  unfold actD3hotEntry
  repeat' first
    | with_reducible exact on_done
    | with_reducible refine on_look fun _ => ?_
    | with_reducible exact on_eff hM rfl
    | with_reducible refine on_seq ?_ ?_
    | with_reducible refine on_resetTrigger (sub_trans rfl hM)
    | with_reducible refine on_actVfFlr (sub_trans rfl hM)
    | with_reducible refine on_ite ?_ ?_
    | intro _
    | dsimp only

theorem on_actD3hotExit {M : List StateField} {f : Func} (hM : ([.d3] : List StateField) ⊆ M) :
 (actD3hotExit f).only (Within M) := by
  unfold actD3hotExit
  repeat' first
    | with_reducible exact on_done
    | with_reducible refine on_look fun _ => ?_
    | with_reducible exact on_eff hM rfl
    | intro _

end Sys2Proof.Machine
end

