-- ==== Sys2Proof/Laws/FieldsSpads.lean ====
section
/-! SUPPORT. The fields that the acts of Machine/Spads.lean may change. -/

namespace Sys2Proof.Machine

theorem on_actBankRetention {M : List StateField} {a : Fin 32} {m : SpMem} {b : Nat} (hM : ([.regs, .free] : List StateField) ⊆ M) :
 (actBankRetention a m b).only (Within M) := by
  unfold actBankRetention
  repeat' first
    | with_reducible exact on_done
    | with_reducible refine on_look fun _ => ?_
    | with_reducible exact on_eff hM rfl
    | with_reducible refine on_setBank (sub_trans rfl hM)
    | with_reducible refine only_whenA fun _ => ?_
    | intro _
    | dsimp only

theorem on_actSpPmwRead {M : List StateField} {f : Func} {a : Fin 32} {word : Fin 512} {bad : Bool} (hM : ([.regs, .rings, .free, .out] : List StateField) ⊆ M) :
 (actSpPmwRead f a word bad).only (Within M) := by
  unfold actSpPmwRead
  repeat' first
    | with_reducible exact on_done
    | with_reducible refine on_look fun _ => ?_
    | with_reducible exact on_eff hM rfl
    | with_reducible refine on_seq ?_ ?_
    | with_reducible refine on_withRead (sub_trans rfl hM) ?_
    | with_reducible refine on_readZero (sub_trans rfl hM)
    | with_reducible refine on_pageErr (sub_trans rfl hM)
    | with_reducible refine on_countRead (sub_trans rfl hM)
    | with_reducible refine on_bump (sub_trans rfl hM)
    | with_reducible refine on_ite ?_ ?_
    | with_reducible refine only_whenA fun _ => ?_
    | intro _
    | dsimp only

theorem on_actSpDumpStart {M : List StateField} {f : Func} {a : Fin 32} {ctl : Word} (hM : ([.regs, .rings, .arrays, .free, .out] : List StateField) ⊆ M) :
 (actSpDumpStart f a ctl).only (Within M) := by
  unfold actSpDumpStart
  repeat' first
    | with_reducible exact on_done
    | with_reducible refine on_look fun _ => ?_
    | with_reducible exact on_eff hM rfl
    | with_reducible refine on_seq ?_ ?_
    | with_reducible refine on_withWrite (sub_trans rfl hM) ?_
    | with_reducible refine on_hostErr (sub_trans rfl hM)
    | with_reducible refine on_setFld (sub_trans rfl hM)
    | with_reducible refine on_pageErr (sub_trans rfl hM)
    | with_reducible refine on_updArr (sub_trans rfl hM)
    | with_reducible refine on_ite ?_ ?_
    | intro _
    | split
    | dsimp only

theorem on_actSpDumpDone {M : List StateField} {a : Fin 32} {bad : Nat} (hM : ([.regs, .rings, .mem, .codingMap, .crcDiff, .held, .heldNext, .buffered, .lcSlots, .lcWait, .lcFill, .arrays, .trust, .free, .out] : List StateField) ⊆ M) :
 (actSpDumpDone a bad).only (Within M) := by
  unfold actSpDumpDone
  repeat' first
    | with_reducible exact on_done
    | with_reducible refine on_look fun _ => ?_
    | with_reducible exact on_nil
    | with_reducible refine on_cons ?_ ?_
    | with_reducible exact on_eff hM rfl
    | with_reducible refine on_dumpLines (sub_trans rfl hM)
    | with_reducible refine on_bump (sub_trans rfl hM)
    | with_reducible refine on_setFld (sub_trans rfl hM)
    | with_reducible refine on_updArr (sub_trans rfl hM)
    | with_reducible refine on_raiseIrq (sub_trans rfl hM)
    | with_reducible refine only_whenA fun _ => ?_
    | intro _
    | dsimp only

end Sys2Proof.Machine
end

