-- ==== Sys2Proof/Laws/FieldsTimedActions.lean ====
section
/-! SUPPORT. The fields that the acts of Machine/TimedActions.lean may change. -/

namespace Sys2Proof.Machine

theorem on_taCommit {M : List StateField} {n : Nat} (hM : ([.regs, .commits, .rings, .mem, .codingMap, .crcDiff, .held, .heldNext, .buffered, .tlb, .lcSlots, .lcWait, .lcFill, .layers, .outs, .trust, .free, .out] : List StateField) ⊆ M) :
 (taCommit n).only (Within M) := by
  unfold taCommit
  repeat' first
    | with_reducible exact on_done
    | with_reducible refine on_look fun _ => ?_
    | with_reducible exact on_eff hM rfl
    | with_reducible refine on_seq ?_ ?_
    | with_reducible refine on_bump (sub_trans rfl hM)
    | with_reducible refine on_pageErr (sub_trans rfl hM)
    | with_reducible refine on_withWrite (sub_trans rfl hM) ?_
    | with_reducible refine on_writeGo (sub_trans rfl hM)
    | with_reducible refine on_ite ?_ ?_
    | intro _
    | dsimp only

theorem on_taSignal {M : List StateField} {n : Nat} (hM : ([.regs, .rings, .free, .out] : List StateField) ⊆ M) :
 (taSignal n).only (Within M) := by
  unfold taSignal
  repeat' first
    | with_reducible exact on_done
    | with_reducible refine on_look fun _ => ?_
    | with_reducible exact on_eff hM rfl
    | with_reducible refine on_semAdd (sub_trans rfl hM)
    | with_reducible refine on_pageErr (sub_trans rfl hM)
    | with_reducible refine on_ite ?_ ?_
    | intro _
    | dsimp only

theorem on_taEvent {M : List StateField} {n : Nat} (hM : ([.regs, .rings, .free, .out] : List StateField) ⊆ M) :
 (taEvent n).only (Within M) := by
  unfold taEvent
  repeat' first
    | with_reducible exact on_done
    | with_reducible refine on_look fun _ => ?_
    | with_reducible exact on_eff hM rfl
    | with_reducible refine on_withFree (sub_trans rfl hM) ?_
    | with_reducible refine on_funcEvent (sub_trans rfl hM)
    | intro _
    | dsimp only

theorem on_taSnapshot {M : List StateField} {n : Nat} (hM : ([.regs] : List StateField) ⊆ M) :
 (taSnapshot n).only (Within M) := by
  unfold taSnapshot
  repeat' first
    | with_reducible exact on_done
    | with_reducible refine on_look fun _ => ?_
    | with_reducible exact on_nil
    | with_reducible refine on_cons ?_ ?_
    | with_reducible exact on_eff hM rfl
    | with_reducible refine on_setReg64 (sub_trans rfl hM)
    | with_reducible refine on_setRegN (sub_trans rfl hM)
    | with_reducible refine on_setReg (sub_trans rfl hM)
    | intro _
    | dsimp only

theorem on_taAct {M : List StateField} {n : Nat} (hM : ([.regs, .commits, .rings, .mem, .codingMap, .crcDiff, .held, .heldNext, .buffered, .tlb, .lcSlots, .lcWait, .lcFill, .layers, .outs, .trust, .free, .out] : List StateField) ⊆ M) :
 (taAct n).only (Within M) := by
  unfold taAct
  repeat' first
    | with_reducible exact on_done
    | with_reducible refine on_look fun _ => ?_
    | with_reducible exact on_eff hM rfl
    | with_reducible refine on_taCommit (sub_trans rfl hM)
    | with_reducible refine on_taSignal (sub_trans rfl hM)
    | with_reducible refine on_taEvent (sub_trans rfl hM)
    | with_reducible refine on_taSnapshot (sub_trans rfl hM)
    | intro _
    | split
    | dsimp only

theorem on_taMark {M : List StateField} {n k : Nat} (hM : ([.tb] : List StateField) ⊆ M) :
 (taMark n k).only (Within M) := by
  unfold taMark
  repeat' first
    | with_reducible exact on_done
    | with_reducible refine on_look fun _ => ?_
    | with_reducible exact on_eff hM rfl
    | with_reducible refine on_updTb (sub_trans rfl hM)
    | intro _
    | dsimp only

theorem on_taBegin {M : List StateField} {n : Nat} (hM : ([.tb] : List StateField) ⊆ M) :
 (taBegin n).only (Within M) := by
  unfold taBegin
  repeat' first
    | with_reducible exact on_done
    | with_reducible refine on_look fun _ => ?_
    | with_reducible exact on_eff hM rfl
    | with_reducible refine on_taMark (sub_trans rfl hM)
    | with_reducible refine on_ite ?_ ?_
    | intro _
    | split
    | dsimp only

theorem on_taFire {M : List StateField} {n : Nat} {late : Bool} (hM : ([.regs, .commits, .rings, .mem, .codingMap, .crcDiff, .held, .heldNext, .buffered, .tlb, .lcSlots, .lcWait, .lcFill, .layers, .outs, .trust, .tb, .free, .out] : List StateField) ⊆ M) :
 (taFire n late).only (Within M) := by
  unfold taFire
  repeat' first
    | with_reducible exact on_done
    | with_reducible refine on_look fun _ => ?_
    | with_reducible exact on_nil
    | with_reducible refine on_cons ?_ ?_
    | with_reducible exact on_eff hM rfl
    | with_reducible refine on_seq ?_ ?_
    | with_reducible refine on_setFld (sub_trans rfl hM)
    | with_reducible refine on_bump (sub_trans rfl hM)
    | with_reducible refine on_taMark (sub_trans rfl hM)
    | with_reducible refine on_taAct (sub_trans rfl hM)
    | with_reducible refine only_whenA fun _ => ?_
    | intro _
    | dsimp only

theorem on_writeTaCtl {M : List StateField} {n : Nat} {c : Word} (hM : ([.regs, .commits, .rings, .mem, .codingMap, .crcDiff, .held, .heldNext, .buffered, .tlb, .lcSlots, .lcWait, .lcFill, .layers, .outs, .trust, .tb, .free, .out] : List StateField) ⊆ M) :
 (writeTaCtl n c).only (Within M) := by
  unfold writeTaCtl
  repeat' first
    | with_reducible exact on_done
    | with_reducible refine on_look fun _ => ?_
    | with_reducible exact on_nil
    | with_reducible refine on_cons ?_ ?_
    | with_reducible exact on_eff hM rfl
    | with_reducible refine on_seq ?_ ?_
    | with_reducible refine on_setReg (sub_trans rfl hM)
    | with_reducible refine on_setFld (sub_trans rfl hM)
    | with_reducible refine on_withFree (sub_trans rfl hM) ?_
    | with_reducible refine on_recordErrI (sub_trans rfl hM)
    | with_reducible refine on_setRegN (sub_trans rfl hM)
    | with_reducible refine on_taBegin (sub_trans rfl hM)
    | with_reducible refine on_taFire (sub_trans rfl hM)
    | with_reducible refine on_ite ?_ ?_
    | with_reducible refine only_whenA fun _ => ?_
    | intro _
    | split
    | dsimp only

theorem on_taFireOf {M : List StateField} {act : Nat} {n : Nat} {now : Dword} (hM : ([.regs, .commits, .rings, .time, .mem, .codingMap, .crcDiff, .held, .heldNext, .buffered, .tlb, .lcSlots, .lcWait, .lcFill, .layers, .outs, .trust, .tb, .free, .out] : List StateField) ⊆ M) :
 (taFireOf act n now).only (Within M) := by
  unfold taFireOf
  repeat' first
    | with_reducible exact on_done
    | with_reducible refine on_look fun _ => ?_
    | with_reducible exact on_eff hM rfl
    | with_reducible refine on_seq ?_ ?_
    | with_reducible refine on_tick (sub_trans rfl hM)
    | with_reducible refine on_taFire (sub_trans rfl hM)
    | with_reducible refine only_whenA fun _ => ?_
    | intro _
    | dsimp only

theorem on_taStatRead {M : List StateField} {n : Nat} (hM : ([.regs, .out] : List StateField) ⊆ M) :
 (taStatRead n).only (Within M) := by
  unfold taStatRead
  repeat' first
    | with_reducible exact on_done
    | with_reducible refine on_look fun _ => ?_
    | with_reducible exact on_eff hM rfl
    | with_reducible refine on_seq ?_ ?_
    | with_reducible refine on_readWord (sub_trans rfl hM)
    | with_reducible refine on_setFld (sub_trans rfl hM)
    | intro _
    | dsimp only

end Sys2Proof.Machine
end

