-- ==== Sys2Proof/Laws/FieldsRegisters.lean ====
section
/-! SUPPORT. The fields that the acts of Machine/Registers.lean may change. -/

namespace Sys2Proof.Machine

theorem on_plainWrite {M : List StateField} {p off : Nat} {v : Word} (hM : ([.regs, .shadows] : List StateField) ⊆ M) :
 (plainWrite p off v).only (Within M) := by
  unfold plainWrite
  repeat' first
    | with_reducible exact on_done
    | with_reducible refine on_look fun _ => ?_
    | with_reducible exact on_eff hM rfl
    | with_reducible refine on_seq ?_ ?_
    | with_reducible refine on_setReg (sub_trans rfl hM)
    | with_reducible refine on_setShadow (sub_trans rfl hM)
    | with_reducible refine only_whenA fun _ => ?_
    | intro _
    | dsimp only

theorem on_lockedWrite {M : List StateField} {p off i : Nat} {locked : Bool} {v : Word} (hM : ([.regs, .shadows, .rings, .free, .out] : List StateField) ⊆ M) :
 (lockedWrite p off i locked v).only (Within M) := by
  unfold lockedWrite
  repeat' first
    | with_reducible exact on_done
    | with_reducible refine on_look fun _ => ?_
    | with_reducible exact on_eff hM rfl
    | with_reducible refine on_seq ?_ ?_
    | with_reducible refine on_plainWrite (sub_trans rfl hM)
    | with_reducible refine on_pageErr (sub_trans rfl hM)
    | with_reducible refine on_ite ?_ ?_
    | with_reducible refine only_whenA fun _ => ?_
    | intro _
    | dsimp only

theorem on_writeTbCfgLocked {M : List StateField} {v : Word} (hM : ([.regs, .rings, .tb, .free, .out] : List StateField) ⊆ M) :
 (writeTbCfgLocked v).only (Within M) := by
  unfold writeTbCfgLocked
  repeat' first
    | with_reducible exact on_done
    | with_reducible refine on_look fun _ => ?_
    | with_reducible exact on_eff hM rfl
    | with_reducible refine on_seq ?_ ?_
    | with_reducible refine on_writeTbCfg (sub_trans rfl hM)
    | with_reducible refine on_pageErr (sub_trans rfl hM)
    | with_reducible refine on_ite ?_ ?_
    | with_reducible refine only_whenA fun _ => ?_
    | intro _
    | dsimp only

theorem on_writeTbSet {M : List StateField} (hM : ([.regs, .rings, .time, .tb, .free, .out] : List StateField) ⊆ M) :
 (writeTbSet ).only (Within M) := by
  unfold writeTbSet
  repeat' first
    | with_reducible exact on_done
    | with_reducible refine on_look fun _ => ?_
    | with_reducible exact on_eff hM rfl
    | with_reducible refine on_pageErr (sub_trans rfl hM)
    | with_reducible refine on_actTbSet (sub_trans rfl hM)
    | with_reducible refine on_ite ?_ ?_
    | intro _
    | dsimp only

theorem on_writeCommit {M : List StateField} {p : Nat} {v : Word} (hM : ([.regs, .commits, .rings, .mem, .codingMap, .crcDiff, .held, .heldNext, .buffered, .tlb, .lcSlots, .lcWait, .lcFill, .layers, .outs, .trust, .free, .out] : List StateField) ⊆ M) :
 (writeCommit p v).only (Within M) := by
  unfold writeCommit
  repeat' first
    | with_reducible exact on_done
    | with_reducible refine on_look fun _ => ?_
    | with_reducible exact on_nil
    | with_reducible refine on_cons ?_ ?_
    | with_reducible exact on_eff hM rfl
    | with_reducible refine on_writeGo (sub_trans rfl hM)
    | with_reducible refine on_setReg (sub_trans rfl hM)
    | with_reducible refine on_writeAbandon (sub_trans rfl hM)
    | with_reducible refine on_ite ?_ ?_
    | with_reducible refine only_whenA fun _ => ?_
    | intro _
    | dsimp only

theorem on_writeRingBase {M : List StateField} {f : Func} {p off cfg : Nat} {v : Word} (hM : ([.regs, .rings, .free, .out] : List StateField) ⊆ M) :
 (writeRingBase f p off cfg v).only (Within M) := by
  unfold writeRingBase
  repeat' first
    | with_reducible exact on_done
    | with_reducible refine on_look fun _ => ?_
    | with_reducible exact on_eff hM rfl
    | with_reducible refine on_hostErr (sub_trans rfl hM)
    | with_reducible refine on_setReg (sub_trans rfl hM)
    | with_reducible refine on_ite ?_ ?_
    | with_reducible refine only_whenA fun _ => ?_
    | intro _
    | dsimp only

theorem on_writeEvr {M : List StateField} {f : Func} {n off : Nat} {v : Word} (hM : ([.regs, .shadows, .rings, .owed, .free, .out] : List StateField) ⊆ M) :
 (writeEvr f n off v).only (Within M) := by
  unfold writeEvr
  repeat' first
    | with_reducible exact on_done
    | with_reducible refine on_look fun _ => ?_
    | with_reducible exact on_eff hM rfl
    | with_reducible refine on_writeRingBase (sub_trans rfl hM)
    | with_reducible refine on_writeEvrCfg (sub_trans rfl hM)
    | with_reducible refine on_plainWrite (sub_trans rfl hM)
    | split
    | dsimp only

theorem on_writeJr {M : List StateField} {f : Func} {n off : Nat} {v : Word} (hM : ([.regs, .shadows, .rings, .free, .out] : List StateField) ⊆ M) :
 (writeJr f n off v).only (Within M) := by
  unfold writeJr
  repeat' first
    | with_reducible exact on_done
    | with_reducible refine on_look fun _ => ?_
    | with_reducible exact on_eff hM rfl
    | with_reducible refine on_writeRingBase (sub_trans rfl hM)
    | with_reducible refine on_writeJrCfg (sub_trans rfl hM)
    | with_reducible refine on_writeJrSeq (sub_trans rfl hM)
    | with_reducible refine on_jrSkip (sub_trans rfl hM)
    | with_reducible refine on_jrRestart (sub_trans rfl hM)
    | with_reducible refine on_plainWrite (sub_trans rfl hM)
    | with_reducible refine on_ite ?_ ?_
    | with_reducible refine only_whenA fun _ => ?_
    | split
    | dsimp only

theorem on_writeGlobal {M : List StateField} {f : Func} {off : Nat} {v : Word} (hM : ([.regs, .shadows, .rings, .time, .zeroing, .keep, .trust, .vfs, .d3, .owed, .phase, .linkWait, .faultsAt, .free, .out] : List StateField) ⊆ M) :
 (writeGlobal f off v).only (Within M) := by
  unfold writeGlobal
  repeat' first
    | with_reducible exact on_done
    | with_reducible refine on_look fun _ => ?_
    | with_reducible exact on_eff hM rfl
    | with_reducible refine on_seq ?_ ?_
    | with_reducible refine on_hostErr (sub_trans rfl hM)
    | with_reducible refine on_writeEvr (sub_trans rfl hM)
    | with_reducible refine on_writeJr (sub_trans rfl hM)
    | with_reducible refine on_plainWrite (sub_trans rfl hM)
    | with_reducible refine on_resetTrigger (sub_trans rfl hM)
    | with_reducible refine on_ite ?_ ?_
    | with_reducible refine only_whenA fun _ => ?_
    | dsimp only

theorem on_writeMsix {M : List StateField} {p off : Nat} {v : Word} (hM : ([.regs, .shadows, .out] : List StateField) ⊆ M) :
 (writeMsix p off v).only (Within M) := by
  unfold writeMsix
  repeat' first
    | with_reducible exact on_done
    | with_reducible refine on_look fun _ => ?_
    | with_reducible exact on_eff hM rfl
    | with_reducible refine on_seq ?_ ?_
    | with_reducible refine on_plainWrite (sub_trans rfl hM)
    | with_reducible refine on_setFld (sub_trans rfl hM)
    | with_reducible refine on_fireVector (sub_trans rfl hM)
    | with_reducible refine on_ite ?_ ?_
    | with_reducible refine only_whenA fun _ => ?_
    | intro _
    | dsimp only

theorem on_writeList {M : List StateField} {e off : Nat} {v : Word} (hM : ([.regs, .shadows, .rings, .free, .out] : List StateField) ⊆ M) :
 (writeList e off v).only (Within M) := by
  unfold writeList
  repeat' first
    | with_reducible exact on_done
    | with_reducible refine on_look fun _ => ?_
    | with_reducible exact on_eff hM rfl
    | with_reducible refine on_pageErr (sub_trans rfl hM)
    | with_reducible refine on_plainWrite (sub_trans rfl hM)
    | with_reducible refine on_ite ?_ ?_
    | with_reducible refine only_whenA fun _ => ?_
    | intro _
    | dsimp only

theorem on_writeTa {M : List StateField} {p off : Nat} {v : Word} (hM : ([.regs, .shadows, .commits, .rings, .mem, .codingMap, .crcDiff, .held, .heldNext, .buffered, .tlb, .lcSlots, .lcWait, .lcFill, .layers, .outs, .trust, .tb, .free, .out] : List StateField) ⊆ M) :
 (writeTa p off v).only (Within M) := by
  unfold writeTa
  repeat' first
    | with_reducible exact on_done
    | with_reducible refine on_look fun _ => ?_
    | with_reducible exact on_eff hM rfl
    | with_reducible refine on_writeTaCtl (sub_trans rfl hM)
    | with_reducible refine on_withFree (sub_trans rfl hM) ?_
    | with_reducible refine on_recordErrI (sub_trans rfl hM)
    | with_reducible refine on_plainWrite (sub_trans rfl hM)
    | with_reducible refine on_ite ?_ ?_
    | intro _
    | dsimp only

theorem on_writeTpRingCfg {M : List StateField} {f : Func} {t : Nat} {v : Word} (hM : ([.regs, .rings, .trings, .free, .out] : List StateField) ⊆ M) :
 (writeTpRingCfg f t v).only (Within M) := by
  unfold writeTpRingCfg
  repeat' first
    | with_reducible exact on_done
    | with_reducible refine on_look fun _ => ?_
    | with_reducible exact on_nil
    | with_reducible refine on_cons ?_ ?_
    | with_reducible exact on_eff hM rfl
    | with_reducible refine on_seq ?_ ?_
    | with_reducible refine on_hostErr (sub_trans rfl hM)
    | with_reducible refine on_setFld (sub_trans rfl hM)
    | with_reducible refine on_setReg (sub_trans rfl hM)
    | with_reducible refine on_setRegN (sub_trans rfl hM)
    | with_reducible refine on_ite ?_ ?_
    | with_reducible refine only_whenA fun _ => ?_
    | intro _
    | dsimp only

theorem on_writeFlCtl {M : List StateField} {f : Func} {v : Word} (hM : ([.regs, .shadows, .rings, .trust, .free, .out] : List StateField) ⊆ M) :
 (writeFlCtl f v).only (Within M) := by
  unfold writeFlCtl
  repeat' first
    | with_reducible exact on_done
    | with_reducible refine on_look fun _ => ?_
    | with_reducible exact on_eff hM rfl
    | with_reducible refine on_seq ?_ ?_
    | with_reducible refine on_startFlash (sub_trans rfl hM)
    | with_reducible refine on_setFld (sub_trans rfl hM)
    | with_reducible refine on_pageErr (sub_trans rfl hM)
    | with_reducible refine on_plainWrite (sub_trans rfl hM)
    | with_reducible refine on_ite ?_ ?_
    | split
    | dsimp only

theorem on_ctlStrobes {M : List StateField} {f : Func} {p : Nat} {v : Word} (hM : ([.regs, .shadows, .commits, .units, .rings, .jobs, .mem, .codingMap, .crcDiff, .held, .heldNext, .buffered, .tlb, .lcSlots, .lcWait, .lcFill, .sp, .arrays, .engines, .ctxs, .entries, .entryNext, .lanes, .ports, .remotes, .windows, .layers, .trust, .track, .tblk, .tcache, .tcam, .trings, .owed, .phase, .tripHold, .ruin, .relock, .faultsAt, .flog, .flogN, .free, .out] : List StateField) ⊆ M) :
 (ctlStrobes f p v).only (Within M) := by
  unfold ctlStrobes
  repeat' first
    | with_reducible exact on_done
    | with_reducible refine on_look fun _ => ?_
    | with_reducible exact on_nil
    | with_reducible refine on_cons ?_ ?_
    | with_reducible exact on_eff hM rfl
    | with_reducible refine on_actArrayStopRequest (sub_trans rfl hM)
    | with_reducible refine on_actSingleStepNext (sub_trans rfl hM)
    | with_reducible refine on_actArrayFell (sub_trans rfl hM)
    | with_reducible refine on_actEngineStart (sub_trans rfl hM)
    | with_reducible refine on_actEngineResume (sub_trans rfl hM)
    | with_reducible refine on_actEngineReset (sub_trans rfl hM)
    | with_reducible refine on_actPartitionResume (sub_trans rfl hM)
    | with_reducible refine on_actPortTrain (sub_trans rfl hM)
    | with_reducible refine on_actPortDown (sub_trans rfl hM)
    | with_reducible refine only_whenA fun _ => ?_
    | split
    | dsimp only

theorem on_writePgCtl {M : List StateField} {f : Func} {p : Nat} {v : Word} (hM : ([.regs, .shadows, .commits, .units, .rings, .jobs, .mem, .codingMap, .crcDiff, .held, .heldNext, .buffered, .tlb, .lcSlots, .lcWait, .lcFill, .sp, .arrays, .engines, .ctxs, .entries, .entryNext, .lanes, .ports, .remotes, .windows, .streams, .layers, .trust, .track, .tblk, .tcache, .tcam, .trings, .owed, .phase, .tripHold, .ruin, .relock, .faultsAt, .flog, .flogN, .free, .out] : List StateField) ⊆ M) :
 (writePgCtl f p v).only (Within M) := by
  unfold writePgCtl
  repeat' first
    | with_reducible exact on_done
    | with_reducible refine on_look fun _ => ?_
    | with_reducible exact on_nil
    | with_reducible refine on_cons ?_ ?_
    | with_reducible exact on_eff hM rfl
    | with_reducible refine on_countStalls (sub_trans rfl hM)
    | with_reducible refine on_plainWrite (sub_trans rfl hM)
    | with_reducible refine on_clearErr (sub_trans rfl hM)
    | with_reducible refine on_ctlStrobes (sub_trans rfl hM)
    | with_reducible refine on_ite ?_ ?_
    | with_reducible refine only_whenA fun _ => ?_
    | intro _
    | dsimp only

theorem on_writeBlock {M : List StateField} {f : Func} {p off : Nat} {v : Word} (hM : ([.regs, .shadows, .commits, .units, .rings, .time, .mem, .codingMap, .crcDiff, .held, .heldNext, .buffered, .tlb, .inval, .zeroing, .lcSlots, .lcWait, .lcFill, .sp, .arrays, .engines, .ctxs, .entries, .entryNext, .lanes, .ports, .windows, .layers, .outs, .keep, .trust, .trings, .vfs, .d3, .owed, .phase, .linkWait, .faultsAt, .flog, .flogN, .tb, .free, .out] : List StateField) ⊆ M) :
 (writeBlock f p off v).only (Within M) := by
  unfold writeBlock
  repeat' first
    | with_reducible exact on_done
    | with_reducible refine on_look fun _ => ?_
    | with_reducible exact on_eff hM rfl
    | with_reducible refine on_writeGlobal (sub_trans rfl hM)
    | with_reducible refine on_writeMsix (sub_trans rfl hM)
    | with_reducible refine on_actSpDumpStart (sub_trans rfl hM)
    | with_reducible refine on_plainWrite (sub_trans rfl hM)
    | with_reducible refine on_writeList (sub_trans rfl hM)
    | with_reducible refine on_actRearm (sub_trans rfl hM)
    | with_reducible refine on_actSemaphoreSet (sub_trans rfl hM)
    | with_reducible refine on_actSemaphoreAdd (sub_trans rfl hM)
    | with_reducible refine on_actInvalidationStart (sub_trans rfl hM)
    | with_reducible refine on_actRngLaneWrite (sub_trans rfl hM)
    | with_reducible refine on_writeTbCfgLocked (sub_trans rfl hM)
    | with_reducible refine on_writeTbSet (sub_trans rfl hM)
    | with_reducible refine on_writeTa (sub_trans rfl hM)
    | with_reducible refine on_actDpTrain (sub_trans rfl hM)
    | with_reducible refine on_auxStart (sub_trans rfl hM)
    | with_reducible refine on_lockedWrite (sub_trans rfl hM)
    | with_reducible refine on_writeRingBase (sub_trans rfl hM)
    | with_reducible refine on_writeTpRingCfg (sub_trans rfl hM)
    | with_reducible refine on_actTpRingConsWrite (sub_trans rfl hM)
    | with_reducible refine on_actChIdWrite (sub_trans rfl hM)
    | with_reducible refine on_writeFlCtl (sub_trans rfl hM)
    | with_reducible refine on_ite ?_ ?_
    | with_reducible refine only_whenA fun _ => ?_
    | intro _
    | split
    | dsimp only

theorem on_writeReg {M : List StateField} {f : Func} {p off : Nat} {v : Word} (hM : ([.regs, .shadows, .commits, .units, .rings, .jobs, .time, .mem, .codingMap, .crcDiff, .held, .heldNext, .buffered, .tlb, .inval, .zeroing, .lcSlots, .lcWait, .lcFill, .sp, .arrays, .engines, .ctxs, .entries, .entryNext, .lanes, .ports, .remotes, .windows, .streams, .layers, .outs, .keep, .trust, .track, .tblk, .tcache, .tcam, .trings, .vfs, .d3, .owed, .phase, .tripHold, .ruin, .relock, .linkWait, .faultsAt, .flog, .flogN, .tb, .free, .out] : List StateField) ⊆ M) :
 (writeReg f p off v).only (Within M) := by
  unfold writeReg
  repeat' first
    | with_reducible exact on_done
    | with_reducible refine on_look fun _ => ?_
    | with_reducible exact on_eff hM rfl
    | with_reducible refine on_writePgCtl (sub_trans rfl hM)
    | with_reducible refine on_writeCommit (sub_trans rfl hM)
    | with_reducible refine on_plainWrite (sub_trans rfl hM)
    | with_reducible refine on_writeBlock (sub_trans rfl hM)
    | with_reducible refine on_ite ?_ ?_
    | dsimp only

theorem on_pageWrite {M : List StateField} {f : Func} {p off size : Nat} {v : Dword} (hM : ([.regs, .shadows, .commits, .units, .rings, .jobs, .time, .mem, .codingMap, .crcDiff, .held, .heldNext, .buffered, .tlb, .inval, .zeroing, .lcSlots, .lcWait, .lcFill, .sp, .arrays, .engines, .ctxs, .entries, .entryNext, .lanes, .ports, .remotes, .windows, .streams, .layers, .outs, .keep, .trust, .track, .tblk, .tcache, .tcam, .trings, .vfs, .d3, .owed, .phase, .tripHold, .ruin, .relock, .linkWait, .faultsAt, .flog, .flogN, .tb, .free, .out] : List StateField) ⊆ M) :
 (pageWrite f p off size v).only (Within M) := by
  unfold pageWrite
  repeat' first
    | with_reducible exact on_done
    | with_reducible refine on_look fun _ => ?_
    | with_reducible exact on_eff hM rfl
    | with_reducible refine on_seq ?_ ?_
    | with_reducible refine on_writeReg (sub_trans rfl hM)
    | with_reducible refine on_withWrite (sub_trans rfl hM) ?_
    | with_reducible refine on_ite ?_ ?_
    | with_reducible refine only_whenA fun _ => ?_
    | intro _
    | dsimp only

theorem on_bar0Write {M : List StateField} {f : Func} {off size : Nat} {v : Dword} (hM : ([.regs, .shadows, .commits, .units, .rings, .jobs, .time, .mem, .codingMap, .crcDiff, .held, .heldNext, .buffered, .tlb, .inval, .zeroing, .lcSlots, .lcWait, .lcFill, .sp, .arrays, .engines, .ctxs, .entries, .entryNext, .lanes, .ports, .remotes, .windows, .streams, .layers, .outs, .keep, .trust, .track, .tblk, .tcache, .tcam, .trings, .vfs, .d3, .owed, .phase, .tripHold, .ruin, .relock, .linkWait, .faultsAt, .flog, .flogN, .tb, .free, .out] : List StateField) ⊆ M) :
 (bar0Write f off size v).only (Within M) := by
  unfold bar0Write
  repeat' first
    | with_reducible exact on_done
    | with_reducible refine on_look fun _ => ?_
    | with_reducible exact on_eff hM rfl
    | with_reducible refine on_hostErr (sub_trans rfl hM)
    | with_reducible refine on_pageWrite (sub_trans rfl hM)
    | with_reducible refine on_ite ?_ ?_
    | intro _
    | split
    | dsimp only

theorem on_bar0Read {M : List StateField} {f : Func} {off size : Nat} (hM : ([.regs, .latches, .rings, .streams, .free, .out] : List StateField) ⊆ M) :
 (bar0Read f off size).only (Within M) := by
  unfold bar0Read
  repeat' first
    | with_reducible exact on_done
    | with_reducible refine on_look fun _ => ?_
    | with_reducible exact on_eff hM rfl
    | with_reducible refine on_seq ?_ ?_
    | with_reducible refine on_readZero (sub_trans rfl hM)
    | with_reducible refine on_hostErr (sub_trans rfl hM)
    | with_reducible refine on_withRead (sub_trans rfl hM) ?_
    | with_reducible refine on_readPair (sub_trans rfl hM)
    | with_reducible refine on_readReg (sub_trans rfl hM)
    | with_reducible refine on_ite ?_ ?_
    | intro _
    | split
    | dsimp only

theorem on_doorbellWrite {M : List StateField} {f : Func} {off : Nat} {v : Word} (hM : ([.regs, .rings, .streams, .free, .out] : List StateField) ⊆ M) :
 (doorbellWrite f off v).only (Within M) := by
  unfold doorbellWrite
  repeat' first
    | with_reducible exact on_done
    | with_reducible refine on_look fun _ => ?_
    | with_reducible exact on_eff hM rfl
    | with_reducible refine on_actStreamRingDoorbell (sub_trans rfl hM)
    | with_reducible refine on_actJobRingProducerDoorbell (sub_trans rfl hM)
    | with_reducible refine on_actEventRingConsumerDoorbell (sub_trans rfl hM)
    | with_reducible refine on_actSemaphoreSignalDoorbell (sub_trans rfl hM)
    | with_reducible refine on_hostErr (sub_trans rfl hM)
    | with_reducible refine on_ite ?_ ?_
    | dsimp only

theorem on_bar4Write {M : List StateField} {f : Func} {off size : Nat} {v : Dword} (hM : ([.regs, .rings, .streams, .free, .out] : List StateField) ⊆ M) :
 (bar4Write f off size v).only (Within M) := by
  unfold bar4Write
  repeat' first
    | with_reducible exact on_done
    | with_reducible refine on_look fun _ => ?_
    | with_reducible exact on_eff hM rfl
    | with_reducible refine on_seq ?_ ?_
    | with_reducible refine on_hostErr (sub_trans rfl hM)
    | with_reducible refine on_doorbellWrite (sub_trans rfl hM)
    | with_reducible refine on_ite ?_ ?_
    | with_reducible refine only_whenA fun _ => ?_
    | intro _
    | dsimp only

theorem on_bar4Read {M : List StateField} {f : Func} {off size : Nat} (hM : ([.out] : List StateField) ⊆ M) :
 (bar4Read f off size).only (Within M) := by
  unfold bar4Read
  repeat' first
    | with_reducible exact on_done
    | with_reducible refine on_look fun _ => ?_
    | with_reducible exact on_eff hM rfl
    | with_reducible refine on_readZero (sub_trans rfl hM)
    | with_reducible refine on_ite ?_ ?_
    | intro _
    | dsimp only

theorem on_actRegisterWrite {M : List StateField} {f : Func} {bar : Bar} {off : Nat} {acc : Access} (hM : ([.regs, .shadows, .commits, .latches, .units, .rings, .jobs, .time, .mem, .codingMap, .crcDiff, .held, .heldNext, .buffered, .tlb, .inval, .zeroing, .lcSlots, .lcWait, .lcFill, .sp, .arrays, .engines, .ctxs, .entries, .entryNext, .lanes, .ports, .remotes, .windows, .streams, .layers, .outs, .keep, .trust, .track, .tblk, .tcache, .tcam, .trings, .vfs, .d3, .owed, .phase, .tripHold, .ruin, .relock, .linkWait, .faultsAt, .flog, .flogN, .tb, .free, .out] : List StateField) ⊆ M) :
 (actRegisterWrite f bar off acc).only (Within M) := by
  unfold actRegisterWrite
  repeat' first
    | with_reducible exact on_done
    | with_reducible refine on_look fun _ => ?_
    | with_reducible exact on_eff hM rfl
    | with_reducible refine on_bar0Read (sub_trans rfl hM)
    | with_reducible refine on_bar0Write (sub_trans rfl hM)
    | with_reducible refine on_bar4Read (sub_trans rfl hM)
    | with_reducible refine on_bar4Write (sub_trans rfl hM)
    | with_reducible refine on_served (sub_trans rfl hM) ?_
    | with_reducible refine on_readZero (sub_trans rfl hM)
    | with_reducible refine on_ite ?_ ?_
    | intro _
    | split
    | dsimp only

end Sys2Proof.Machine
end

