-- ==== Sys2Proof/Laws/Invariant.lean ====
section
/-! SUPPORT. Every effect keeps the canonical form of the memory and of every other table, and keeps reserved bits at 0;
and nothing that has been sent is taken back. -/

namespace Sys2Proof.Machine

/-- Every memory operation keeps the canonical form of the memory. -/
theorem memory_wf_apply (e : Effect) (s : State) (h : Memory.wf s.mem = true) : Memory.wf (e.apply s).mem = true := by
  cases e <;> first | exact h | exact tblOk_tblSet _ _ _ _ h | exact tblOk_tblClear _ _ _ _ h

/-- Every act keeps the canonical form of the memory. -/
theorem memory_wf_run (a : Act) (s : State) (h : Memory.wf s.mem = true) : Memory.wf (run a s).mem = true :=
  run_keeps (I := fun s => Memory.wf s.mem = true) memory_wf_apply a s h

/-- Every effect keeps every table canonical. -/
theorem tablesWf_apply (e : Effect) (s : State) (h : tablesWf s = true) : tablesWf (e.apply s) = true := by
  unfold tablesWf Memory.wf at h ⊢
  simp only [Bool.and_eq_true] at h ⊢
  cases e <;> simp only [Effect.apply] <;>
    first
    | exact h
    | (simp only [tblOk_tblSet, tblOk_tblClear, h, and_self])

theorem all_tblDrop {α : Type} (p : Nat × α → Bool) (k : Nat) :
    ∀ t : Table α, t.all p = true → (tblDrop k t).all p = true
  | [], _ => rfl
  | (k', v) :: t, h => by
    simp only [List.all_cons, Bool.and_eq_true] at h
    have ih := all_tblDrop p k t h.2
    by_cases hk : k' = k
    · simpa [tblDrop, hk] using ih
    · rw [tblDrop, if_neg hk, List.all_cons, h.1, ih]; rfl

theorem all_tblPut {α : Type} (p : Nat × α → Bool) (k : Nat) (v : α) (hv : p (k, v) = true) :
    ∀ t : Table α, t.all p = true → (tblPut k v t).all p = true
  | [], _ => by simp [tblPut, hv]
  | (k', w) :: t, h => by
    have h' := h
    simp only [List.all_cons, Bool.and_eq_true] at h
    by_cases hlt : k < k'
    · rw [tblPut, if_pos hlt, List.all_cons, hv, h']; rfl
    · rw [tblPut, if_neg hlt, List.all_cons, h.1, all_tblPut p k v hv t h.2]; rfl

theorem all_tblSet {α : Type} [DecidableEq α] (p : Nat × α → Bool) (d : Nat → α) (k : Nat) (v : α) (hv : p (k, v) = true)
    (t : Table α) (h : t.all p = true) : (tblSet d k v t).all p = true := by
  unfold tblSet
  split
  · exact all_tblDrop p k t h
  · exact all_tblPut p k v hv _ (all_tblDrop p k t h)

theorem all_tblClear {α : Type} (p : Nat × α → Bool) (lo hi : Nat) (t : Table α) (h : t.all p = true) :
    (tblClear lo hi t).all p = true := by
  simp only [tblClear, List.all_eq_true, List.mem_filter] at h ⊢
  exact fun x hx => h x hx.1

theorem masked_ok (m v : Word) : v &&& m &&& ~~~ m = 0 := by
  rw [BitVec.and_assoc, BitVec.and_not_self]; exact BitVec.and_zero

/-- Every effect keeps reserved bits at 0. -/
theorem reservedZero_apply (e : Effect) (s : State) (h : reservedZero s = true) : reservedZero (e.apply s) = true := by
  unfold reservedZero at h ⊢
  simp only [Bool.and_eq_true] at h ⊢
  cases e <;>
    first
    | exact h
    | exact ⟨all_tblSet _ _ _ _ (by simp only [masked_ok, beq_self_eq_true]) _ h.1, h.2⟩
    | exact ⟨h.1, all_tblSet _ _ _ _ (by simp only [masked_ok, beq_self_eq_true]) _ h.2⟩
    | exact ⟨all_tblClear _ _ _ _ h.1, h.2⟩
    | exact ⟨h.1, all_tblClear _ _ _ _ h.2⟩

/-- Every act keeps the form of the state. -/
theorem stateWf_run (a : Act) (s : State) (h : stateWf s = true) : stateWf (run a s) = true :=
  run_keeps (I := fun s => stateWf s = true) (fun e s hs => by
    simp only [stateWf, Bool.and_eq_true] at hs ⊢
    exact ⟨tablesWf_apply e s hs.1, reservedZero_apply e s hs.2⟩) a s h

/-- Nothing sent is taken back: an act only adds to what the device has sent. -/
theorem sentBefore_run (a : Act) (s : State) : sentBefore s (run a s) :=
  run_rel (R := sentBefore) (fun _ => ⟨[], rfl⟩)
    (fun _ _ _ ⟨l, hl⟩ ⟨l', hl'⟩ => ⟨l' ++ l, by rw [hl', hl, List.append_assoc]⟩)
    (fun e s => by cases e <;> first | exact ⟨[], rfl⟩ | exact ⟨[_], rfl⟩) a s

/-- Free values are taken in order and never given back. -/
theorem free_le_run (a : Act) (s : State) : s.free ≤ (run a s).free :=
  run_rel (R := fun s t => s.free ≤ t.free) (fun _ => Nat.le_refl _) (fun _ _ _ => Nat.le_trans)
    (fun e s => by cases e <;> first | exact Nat.le_refl _ | exact Nat.le_succ _) a s

end Sys2Proof.Machine
end

