-- ==== Sys2Proof/Laws/Jobs.lean ====
section
/-! SUPPORT. Jobs: what taking a descriptor off its ring does, once for all kinds; when a job starts; and how a ring halts
(R41 to R43). -/

namespace Sys2Proof.Machine

/-- What taking a descriptor off its ring leaves: the consumer index one on, the next expected seq, the job recorded as
not started under the next acceptance number, and everything else as it was. -/
structure Accepted (s : State) (f : Func) (n : Fin 8) (d : BitVec 1024) (body : List Byte) (u : State) : Prop where
  cons : u.reg (globalPage f) (jrOff n.val + 0x14) = s.reg (globalPage f) (jrOff n.val + 0x14) + 1
  job : u.atJobs s.jobNext = some ⟨f, n, d, body, false⟩
  others : ∀ k, k ≠ s.jobNext → u.atJobs k = s.atJobs k
  next : u.jobNext = s.jobNext + 1
  regs : ∀ p off, off < 4096 → ¬ (p = globalPage f ∧ (off = jrOff n.val + 0x14 ∨ off = jrOff n.val + 0x0C)) →
    u.reg p off = s.reg p off
  fields : ∀ x, [StateField.regs, .jobs, .jobNext].elem x = false → sameField x s u

theorem mem_of_elem_false {M : List StateField} {x : StateField} (h : M.elem x = false) : x ∉ M := fun hc => by
  rw [List.elem_eq_true_of_mem hc] at h; cases h

/-- A field an act does not name is the same after it. -/
theorem field_run {M : List StateField} (x : StateField) (hx : M.elem x = false) {a : Act} (h : a.only (Within M))
    (s : State) : sameField x s (run a s) := sameField_run (mem_of_elem_false hx) a s h

/-- A field that neither the command nor the pre-emption test names is the same after a command that is watched. -/
theorem field_watched {M : List StateField} (x : StateField) (hx : M.elem x = false)
    (hp : [StateField.regs, .arrays, .ctxs, .entries, .free].elem x = false) {a : Act} (h : a.only (Within M)) (s : State) :
    sameField x s (run (watched a) s) := by
  have h1 := field_run x hx h s
  have h2 := sameField_watched (mem_of_elem_false hp) a s
  cases x <;> exact Eq.trans h2 h1

/-- A job whose descriptor passes every check is accepted, and its kind's work goes on from there. -/
theorem run_acceptJob {s : State} {f : Func} {n : Fin 8} {d : BitVec 1024} {body : List Byte}
    {halting : State → Option Nat} {k : Nat → Act} (hf : s.jrFetches f n.val = true)
    (he : envelopeRefusal s f n.val d = none) (hh : halting s = none) :
    ∃ u, run (acceptJob f n d body halting k) s = run (k s.jobNext) u ∧ Accepted s f n d body u := by
  have hn : jrOff n.val + 0x14 < 4096 := by unfold jrOff; omega
  refine ⟨run (acts [setRegN (globalPage f) (jrOff n.val + 0x14) ((s.reg (globalPage f) (jrOff n.val + 0x14)).toNat + 1),
      setFld (globalPage f) (jrOff n.val + 0x0C) 0 24 (jobSeq d + 1),
      .eff (.jobs s.jobNext (some ⟨f, n, d, body, false⟩)), .eff (.jobNext (s.jobNext + 1))]) s, ?_, ?_⟩
  · unfold acceptJob
    rw [run_look]
    simp only [hf, not_true, if_false, he, hh, Option.or_none, run_acts_cons, run_acts_nil]
  · constructor
    · refine (reg_setReg_off (p := globalPage f) (off := jrOff n.val + 0x0C) (off' := jrOff n.val + 0x14) (by omega)
        _ _).trans ((reg_setReg _ _ _ _).trans ?_)
      rw [regMask_jr f n (by omega), mask_jrCons, and_ones]
      apply BitVec.eq_of_toNat_eq
      simp [BitVec.toNat_add]
    · simp only [run_acts_cons, run_acts_nil, run_eff]
      exact (atJobs_other (by intro h; cases h) _ _).trans (atJobs_same _ _ _)
    · intro k hk
      simp only [run_acts_cons, run_acts_nil, run_eff]
      exact (atJobs_other (by intro h; cases h) _ _).trans ((atJobs_set _ _ _ _).trans (if_neg hk))
    · rfl
    · intro p off ho hne
      refine (reg_setReg_other (p := globalPage f) (off := jrOff n.val + 0x0C) (p' := p) (off' := off) ?_ _ _).trans
        (reg_setReg_other (regAddr_ne hn ho fun h => hne ⟨h.1, .inl h.2⟩) _ _)
      exact regAddr_ne (by omega) ho fun h => hne ⟨h.1, .inr h.2⟩
    · intro x hx
      exact field_run (M := [.regs, .jobs, .jobNext]) x hx (on_cons (on_setRegN (sub_trans rfl (List.Subset.refl _)))
        (on_cons (on_setFld (sub_trans rfl (List.Subset.refl _))) (on_cons (on_eff (List.Subset.refl _) rfl)
        (on_cons (on_eff (List.Subset.refl _) rfl) on_nil)))) s

/-- A job whose gates are open starts: it is marked started and its kind's work runs. -/
theorem run_startIfOpen {s : State} {n : Nat} {j : Job} {start : Act} (hj : s.atJobs n = some j)
    (hs : j.started = false) (hg : gatesOpen s n j = true) :
    run (startIfOpen n start) s = run start (run (whenA (bit j.desc 271) (bump (semPage (fld j.desc 256 12)) 0x050 1))
      ((Effect.jobs n (some { j with started := true })).apply s)) := by
  unfold startIfOpen
  rw [run_look, hj, run_optA_some, hs, hg]
  rfl

/-- A job whose gates are not open waits. -/
theorem run_startIfOpen_waits {s : State} {n : Nat} {j : Job} {start : Act} (hj : s.atJobs n = some j)
    (hg : gatesOpen s n j = false) : run (startIfOpen n start) s = s := by
  unfold startIfOpen
  rw [run_look, hj, run_optA_some, hg, Bool.and_false, run_whenA_false]

/-- A ring that halts says so, with its code, and keeps its consumer index (R41). -/
theorem haltRing_regs {f : Func} {n : Fin 8} {code seq : Nat} (hc : code < 2 ^ 16) (s : State) :
    (run (haltRing f n.val code seq) s).jrHalted f n.val = true ∧
      (run (haltRing f n.val code seq) s).rfld (globalPage f) (jrOff n.val + 0x18) 16 16 = code ∧
      (run (haltRing f n.val code seq) s).reg (globalPage f) (jrOff n.val + 0x14)
        = s.reg (globalPage f) (jrOff n.val + 0x14) := by
  have hn : jrOff n.val + 0x18 < 4096 := by unfold jrOff; omega
  have hr : Reports (globalPage f) (fun _ => True) (reportKey (globalPage f)) :=
    ⟨trivial, trivial, trivial, trivial, fun _ h => h⟩
  have hk : ∀ off, 0x500 ≤ off → off < 4096 → ¬ reportKey (globalPage f) (regAddr (globalPage f) off) := by
    intro off h1 h2
    rintro (h | h | h)
    · rw [regAddr_mod h2] at h; omega
    · exact not_msgKey_global h2 h
    · unfold evrKey at h; rw [regAddr_mod h2] at h; omega
  have keep : ∀ off, 0x500 ≤ off → off < 4096 → (run (haltRing f n.val code seq) s).reg (globalPage f) off
      = (run (setRegN (globalPage f) (jrOff n.val + 0x18) (1 + 65536 * code)) s).reg (globalPage f) off := by
    intro off h1 h2
    unfold haltRing
    rw [run_look]
    dsimp only
    rw [run_acts_cons, run_acts_cons, run_acts_cons, run_acts_nil]
    exact (reg_of_fits (fits_putEvent (by decide) hr) (hk off h1 h2) _).trans
      (reg_of_fits (fits_recordErr hr) (hk off h1 h2) _)
  have h18 := (keep (jrOff n.val + 0x18) (by unfold jrOff; omega) hn).trans (reg_setRegN _ _ _ _)
  rw [regMask_jr f n (by omega), mask_jrStat] at h18
  refine ⟨?_, ?_, ?_⟩
  · unfold State.jrHalted State.rbit
    rw [h18, bit_and]
    have : bit (BitVec.ofNat 32 (1 + 65536 * code)) 0 = true := by
      unfold bit; rw [BitVec.toNat_ofNat, Nat.testBit_zero]; simp; omega
    rw [this]; decide
  · unfold State.rfld
    rw [h18]
    have h1 : fld (BitVec.ofNat 32 (1 + 65536 * code) &&& 0xFFFF0001) 16 16
        = fld (BitVec.ofNat 32 (1 + 65536 * code)) 16 16 := by
      refine fld_eq_bits _ _ _ _ fun i h1 h2 => ?_
      have hz : ∀ i, i < 32 → 16 ≤ i → bit (0xFFFF0001 : Word) i = true := by decide
      rw [bit_and, hz i h2 h1, Bool.and_true]
    rw [h1]
    unfold fld
    rw [BitVec.toNat_ofNat, Nat.shiftRight_eq_div_pow]
    omega
  · exact (keep (jrOff n.val + 0x14) (by unfold jrOff; omega) (by omega)).trans (reg_setReg_off (by omega) _ _)

/-- What ends a job takes it off the list of jobs, and adds its signal if its semaphore is still its function's. -/
theorem run_endJob {n : Nat} {d : BitVec 1024} {s : State} {j : Job} (hj : s.atJobs n = some j) :
    (run (endJob n d) s).atJobs n = none ∧
      (bit d 335 = true → s.semBound (fld d 320 12) j.func = true → (run (endJob n d) s).sem (fld d 320 12)
        = s.sem (fld d 320 12) + BitVec.ofNat 32 (fld d 352 32)) ∧
      (bit d 335 = true → s.semBound (fld d 320 12) j.func = false →
        (run (endJob n d) s).sem (fld d 320 12) = s.sem (fld d 320 12)) := by
  have hb : (run (.eff (.jobs n none)) s).semBound = s.semBound := rfl
  unfold endJob jobSignal
  rw [run_look, hj, run_optA_some, run_seq, run_look, hb]
  refine ⟨?_, fun h hs => ?_, fun h hs => ?_⟩
  · rw [atJobs_run (M := [.regs]) rfl (only_whenA fun _ => on_semAdd (List.Subset.refl _)), run_eff, atJobs_same]
  · rw [h, hs, Bool.and_self, run_whenA_true, sem_semAdd (by unfold fld; exact Nat.mod_lt _ (by decide))]
    rfl
  · rw [h, hs, Bool.and_false, run_whenA_false]
    rfl

end Sys2Proof.Machine
end

