-- ==== Sys2Proof/Laws/PerInstr.lean ====
section
/-! SUPPORT. Per command: a well-formed command names only pages that exist (R26). -/

namespace Sys2Proof.Laws

open Sys2Proof.Machine

/-- The register pages a command names. -/
def pagesNamed : Instr → List Nat
  | .pgCommitGo _ page _ | .pgCommitAbandon _ page | .commitPoint page | .errClear _ page
  | .displayGroupCommit _ page _ => [page]
  | _ => []

/-- What is said of every command: if it is well formed, every page it names exists. -/
def Pages.Statement (i : Instr) : Prop := i.wf = true → ∀ p ∈ pagesNamed i, p < pageCount

/-- A command that names no page. -/
theorem Pages.of_none {i : Instr} (h : pagesNamed i = []) : Pages.Statement i := by
  intro _ p hp
  rw [h] at hp
  exact absurd hp List.not_mem_nil

/-- A command that names one page, which well-formedness bounds. -/
theorem Pages.of_one {i : Instr} {p : Nat} (h : pagesNamed i = [p]) (hw : i.wf = decide (p < pageCount)) :
    Pages.Statement i := by
  intro w q hq
  rw [h] at hq
  rw [List.mem_singleton.mp hq]
  exact of_decide_eq_true (hw.symm.trans w)

theorem Pages.linkChange (speed width : Nat) : Pages.Statement (.linkChange speed width) := of_none rfl
theorem Pages.d3hotEntry (f : Func) (now : Dword) : Pages.Statement (.d3hotEntry f now) := of_none rfl
theorem Pages.registerWrite (f : Func) (bar : Bar) (off : Nat) (acc : Access) : Pages.Statement (.registerWrite f bar off acc) := of_none rfl
theorem Pages.bar2Read (off len : Nat) : Pages.Statement (.bar2Read off len) := of_none rfl
theorem Pages.bar2Write (off : Nat) (data : List Byte) : Pages.Statement (.bar2Write off data) := of_none rfl
theorem Pages.streamRingDoorbell (f : Func) (ctx : Fin 1024) (value : Word) : Pages.Statement (.streamRingDoorbell f ctx value) := of_none rfl
theorem Pages.jobRingProducerDoorbell (f : Func) (ring : Fin 8) (value : Word) : Pages.Statement (.jobRingProducerDoorbell f ring value) := of_none rfl
theorem Pages.eventRingConsumerDoorbell (f : Func) (ring : Fin 8) (value : Word) : Pages.Statement (.eventRingConsumerDoorbell f ring value) := of_none rfl
theorem Pages.semaphoreSignalDoorbell (f : Func) (sem : Fin 4096) (value : Word) : Pages.Statement (.semaphoreSignalDoorbell f sem value) := of_none rfl
theorem Pages.eventRingInterruptTimer (f : Func) (ring : Fin 8) (now : Dword) : Pages.Statement (.eventRingInterruptTimer f ring now) := of_none rfl
theorem Pages.eventRingEnable (f : Func) (ring : Fin 8) (cfg : Word) : Pages.Statement (.eventRingEnable f ring cfg) := of_none rfl
theorem Pages.eventRingDisable (f : Func) (ring : Fin 8) (cfg : Word) : Pages.Statement (.eventRingDisable f ring cfg) := of_none rfl
theorem Pages.jobRingEnable (f : Func) (ring : Fin 8) (cfg : Word) : Pages.Statement (.jobRingEnable f ring cfg) := of_none rfl
theorem Pages.jobRingDisable (f : Func) (ring : Fin 8) (cfg : Word) : Pages.Statement (.jobRingDisable f ring cfg) := of_none rfl
theorem Pages.jrSeqWrite (f : Func) (ring : Fin 8) (value : Word) : Pages.Statement (.jrSeqWrite f ring value) := of_none rfl
theorem Pages.jobRingRestart (f : Func) (ring : Fin 8) : Pages.Statement (.jobRingRestart f ring) := of_none rfl
theorem Pages.jobRingSkip (f : Func) (ring : Fin 8) : Pages.Statement (.jobRingSkip f ring) := of_none rfl
theorem Pages.jobKindRefused (f : Func) (ring : Fin 8) (desc : BitVec 1024) : Pages.Statement (.jobKindRefused f ring desc) := of_none rfl
theorem Pages.jobWaitEnd (job : Nat) : Pages.Statement (.jobWaitEnd job) := of_none rfl
theorem Pages.jobNotBefore (job : Nat) (now : Dword) : Pages.Statement (.jobNotBefore job now) := of_none rfl
theorem Pages.hostCompletionTimeout (reader : HostReader) : Pages.Statement (.hostCompletionTimeout reader) := of_none rfl
theorem Pages.fence (f : Func) (ring : Fin 8) (desc : BitVec 1024) : Pages.Statement (.fence f ring desc) := of_none rfl
theorem Pages.vfFlr (f : Func) : Pages.Statement (.vfFlr f) := of_none rfl
theorem Pages.pfFlr (now : Dword) : Pages.Statement (.pfFlr now) := of_none rfl
theorem Pages.pgCommitGo (f : Func) (page : Nat) (seq : BitVec 24) : Pages.Statement (.pgCommitGo f page seq) := of_one rfl rfl
theorem Pages.commitPoint (page : Nat) : Pages.Statement (.commitPoint page) := of_one rfl rfl
theorem Pages.pgCommitAbandon (f : Func) (page : Nat) : Pages.Statement (.pgCommitAbandon f page) := of_one rfl rfl
theorem Pages.errClear (f : Func) (page : Nat) : Pages.Statement (.errClear f page) := of_one rfl rfl
theorem Pages.bind (f : Func) (ring : Fin 8) (desc : BitVec 1024) : Pages.Statement (.bind f ring desc) := of_none rfl
theorem Pages.unbind (f : Func) (ring : Fin 8) (desc : BitVec 1024) : Pages.Statement (.unbind f ring desc) := of_none rfl
theorem Pages.move (f : Func) (ring : Fin 8) (desc : BitVec 1024) : Pages.Statement (.move f ring desc) := of_none rfl
theorem Pages.releaseHold (f : Func) (ring : Fin 8) (desc : BitVec 1024) : Pages.Statement (.releaseHold f ring desc) := of_none rfl
theorem Pages.shareReadOnly (f : Func) (ring : Fin 8) (desc : BitVec 1024) : Pages.Statement (.shareReadOnly f ring desc) := of_none rfl
theorem Pages.withdrawShare (f : Func) (ring : Fin 8) (desc : BitVec 1024) : Pages.Statement (.withdrawShare f ring desc) := of_none rfl
theorem Pages.rebindStopDone (unit : UnitId) : Pages.Statement (.rebindStopDone unit) := of_none rfl
theorem Pages.rebindScrubDone (unit : UnitId) : Pages.Statement (.rebindScrubDone unit) := of_none rfl
theorem Pages.orphanedTagReturn (engine : Fin 80) (tag : Nat) : Pages.Statement (.orphanedTagReturn engine tag) := of_none rfl
theorem Pages.qpMaxabsRead (f : Func) (array : Fin 32) (profile : Fin 8) : Pages.Statement (.qpMaxabsRead f array profile) := of_none rfl
theorem Pages.qpHwMaxabsRead (f : Func) (array : Fin 32) (profile : Fin 8) : Pages.Statement (.qpHwMaxabsRead f array profile) := of_none rfl
theorem Pages.tileStepFetch (array : Fin 32) : Pages.Statement (.tileStepFetch array) := of_none rfl
theorem Pages.stepIssue (array : Fin 32) (parity : Option (SpMem × Nat)) : Pages.Statement (.stepIssue array parity) := of_none rfl
theorem Pages.phaseWaitMet (array : Fin 32) : Pages.Statement (.phaseWaitMet array) := of_none rfl
theorem Pages.stepComplete (array : Fin 32) : Pages.Statement (.stepComplete array) := of_none rfl
theorem Pages.stepOverrun (array : Fin 32) : Pages.Statement (.stepOverrun array) := of_none rfl
theorem Pages.arraySelfCheckFailure (array : Fin 32) (check : SelfCheck) : Pages.Statement (.arraySelfCheckFailure array check) := of_none rfl
theorem Pages.arrayStopRequest (f : Func) (array : Fin 32) : Pages.Statement (.arrayStopRequest f array) := of_none rfl
theorem Pages.kerfPoint (array : Fin 32) : Pages.Statement (.kerfPoint array) := of_none rfl
theorem Pages.arrayFell (f : Func) (array : Fin 32) : Pages.Statement (.arrayFell f array) := of_none rfl
theorem Pages.singleStepNext (f : Func) (array : Fin 32) : Pages.Statement (.singleStepNext f array) := of_none rfl
theorem Pages.windowWrite (port : Fin 2) (frame : List Byte) : Pages.Statement (.windowWrite port frame) := of_none rfl
theorem Pages.arrivalCommit (array : Fin 32) : Pages.Statement (.arrivalCommit array) := of_none rfl
theorem Pages.windowWriteCommit (window : Fin 64) : Pages.Statement (.windowWriteCommit window) := of_none rfl
theorem Pages.bankRetention (array : Fin 32) (mem : SpMem) (bank : Nat) : Pages.Statement (.bankRetention array mem bank) := of_none rfl
theorem Pages.bankWakeDone (array : Fin 32) (mem : SpMem) (bank : Nat) : Pages.Statement (.bankWakeDone array mem bank) := of_none rfl
theorem Pages.contextScrubDone (ctx : Fin 2048) : Pages.Statement (.contextScrubDone ctx) := of_none rfl
theorem Pages.bootScrubDone  : Pages.Statement (.bootScrubDone) := of_none rfl
theorem Pages.spPmwRead (f : Func) (array : Fin 32) (word : Fin 512) (bad : Bool) : Pages.Statement (.spPmwRead f array word bad) := of_none rfl
theorem Pages.spDumpStart (f : Func) (array : Fin 32) (ctl : Word) : Pages.Statement (.spDumpStart f array ctl) := of_none rfl
theorem Pages.spDumpDone (array : Fin 32) (bad : Nat) : Pages.Statement (.spDumpDone array bad) := of_none rfl
theorem Pages.modelBundleLoad (f : Func) (ring : Fin 8) (desc : BitVec 1024) : Pages.Statement (.modelBundleLoad f ring desc) := of_none rfl
theorem Pages.bundleCheckDone  : Pages.Statement (.bundleCheckDone) := of_none rfl
theorem Pages.lcInstall  : Pages.Statement (.lcInstall) := of_none rfl
theorem Pages.lcEvict (f : Func) (ring : Fin 8) (desc : BitVec 1024) : Pages.Statement (.lcEvict f ring desc) := of_none rfl
theorem Pages.lcSetPins (f : Func) (ring : Fin 8) (desc : BitVec 1024) : Pages.Statement (.lcSetPins f ring desc) := of_none rfl
theorem Pages.lcFillDone  : Pages.Statement (.lcFillDone) := of_none rfl
theorem Pages.streamListFetch (engine : Fin 80) : Pages.Statement (.streamListFetch engine) := of_none rfl
theorem Pages.descriptorCurrent (engine : Fin 80) : Pages.Statement (.descriptorCurrent engine) := of_none rfl
theorem Pages.unitTake (engine : Fin 80) : Pages.Statement (.unitTake engine) := of_none rfl
theorem Pages.requestRetire (engine : Fin 80) (tag : Nat) (result : RequestResult) : Pages.Statement (.requestRetire engine tag result) := of_none rfl
theorem Pages.rearm (f : Func) (engine : Fin 80) (ctl : Word) : Pages.Statement (.rearm f engine ctl) := of_none rfl
theorem Pages.engineStart (f : Func) (pooled : Fin 16) : Pages.Statement (.engineStart f pooled) := of_none rfl
theorem Pages.engineResume (f : Func) (engine : Fin 80) : Pages.Statement (.engineResume f engine) := of_none rfl
theorem Pages.engineReset (f : Func) (pooled : Fin 16) : Pages.Statement (.engineReset f pooled) := of_none rfl
theorem Pages.semaphoreSet (f : Func) (sem : Fin 4096) (value : Word) : Pages.Statement (.semaphoreSet f sem value) := of_none rfl
theorem Pages.semaphoreAdd (f : Func) (sem : Fin 4096) (value : Word) : Pages.Statement (.semaphoreAdd f sem value) := of_none rfl
theorem Pages.stackRead (client : StackClient) (asid : Option (Fin 4)) (addr len : Nat) (upset : List (Nat × Byte)) (parity : Bool) : Pages.Statement (.stackRead client asid addr len upset parity) := of_none rfl
theorem Pages.stackWrite (client : StackClient) (asid : Option (Fin 4)) (addr : Nat) (data : List Byte) : Pages.Statement (.stackWrite client asid addr data) := of_none rfl
theorem Pages.partialWriteTimeout (billet : Nat) : Pages.Statement (.partialWriteTimeout billet) := of_none rfl
theorem Pages.mergeReadDone (billet : Nat) (upset : List (Nat × Byte)) : Pages.Statement (.mergeReadDone billet upset) := of_none rfl
theorem Pages.patrolRead (upset : List (Nat × Byte)) : Pages.Statement (.patrolRead upset) := of_none rfl
theorem Pages.stackZeroingDone  : Pages.Statement (.stackZeroingDone) := of_none rfl
theorem Pages.translationWalkDone (client : StackClient) (asid : Fin 4) (va len : Nat) (write : Bool) : Pages.Statement (.translationWalkDone client asid va len write) := of_none rfl
theorem Pages.invalidationStart (f : Func) (ctl : Word) : Pages.Statement (.invalidationStart f ctl) := of_none rfl
theorem Pages.invalidationDone  : Pages.Statement (.invalidationDone) := of_none rfl
theorem Pages.contextConfigure (f : Func) (ring : Fin 8) (desc : BitVec 1024) (body : List Byte) : Pages.Statement (.contextConfigure f ring desc body) := of_none rfl
theorem Pages.contextStart (f : Func) (ring : Fin 8) (desc : BitVec 1024) : Pages.Statement (.contextStart f ring desc) := of_none rfl
theorem Pages.contextStop (f : Func) (ring : Fin 8) (desc : BitVec 1024) : Pages.Statement (.contextStop f ring desc) := of_none rfl
theorem Pages.contextFlush (f : Func) (ring : Fin 8) (desc : BitVec 1024) : Pages.Statement (.contextFlush f ring desc) := of_none rfl
theorem Pages.contextQuery (f : Func) (ring : Fin 8) (desc : BitVec 1024) : Pages.Statement (.contextQuery f ring desc) := of_none rfl
theorem Pages.contextReset (f : Func) (ring : Fin 8) (desc : BitVec 1024) : Pages.Statement (.contextReset f ring desc) := of_none rfl
theorem Pages.accessUnitFetch (ctx : Fin 1024) (entry : BitVec 256) (fetched : Option UnitInfo) : Pages.Statement (.accessUnitFetch ctx entry fetched) := of_none rfl
theorem Pages.pipeSelect (pipe : Fin 16) (now : Dword) : Pages.Statement (.pipeSelect pipe now) := of_none rfl
theorem Pages.pictureWritten (pipe : Fin 16) (pic : Picture) : Pages.Statement (.pictureWritten pipe pic) := of_none rfl
theorem Pages.batchJob (f : Func) (ring : Fin 8) (desc : BitVec 1024) : Pages.Statement (.batchJob f ring desc) := of_none rfl
theorem Pages.dispatch (array : Fin 32) : Pages.Statement (.dispatch array) := of_none rfl
theorem Pages.contextSaveDone (ctx : Fin 2048) (parity : Option (SpMem × Nat)) : Pages.Statement (.contextSaveDone ctx parity) := of_none rfl
theorem Pages.contextRestoreDone (ctx : Fin 2048) : Pages.Statement (.contextRestoreDone ctx) := of_none rfl
theorem Pages.teardownOrphanTimeout (ctx : Fin 2048) : Pages.Statement (.teardownOrphanTimeout ctx) := of_none rfl
theorem Pages.rangerPeriod (now : Dword) : Pages.Statement (.rangerPeriod now) := of_none rfl
theorem Pages.rangerDeadline (entry : Nat) (now : Dword) : Pages.Statement (.rangerDeadline entry now) := of_none rfl
theorem Pages.slowdownReport (now : Dword) : Pages.Statement (.slowdownReport now) := of_none rfl
theorem Pages.rngLaneWrite (f : Func) (lane : Nat) (value : Word) : Pages.Statement (.rngLaneWrite f lane value) := of_none rfl
theorem Pages.ptmDialogue (now : Dword) (master : Option Dword) : Pages.Statement (.ptmDialogue now master) := of_none rfl
theorem Pages.tbSet (f : Func) : Pages.Statement (.tbSet f) := of_none rfl
theorem Pages.mainsPositiveCrossing (now : Dword) : Pages.Statement (.mainsPositiveCrossing now) := of_none rfl
theorem Pages.mainsNegativeCrossing (now : Dword) : Pages.Statement (.mainsNegativeCrossing now) := of_none rfl
theorem Pages.mainsMissingCrossing (now : Dword) : Pages.Statement (.mainsMissingCrossing now) := of_none rfl
theorem Pages.pfwFall (now : Dword) : Pages.Statement (.pfwFall now) := of_none rfl
theorem Pages.pfwRise (now : Dword) : Pages.Statement (.pfwRise now) := of_none rfl
theorem Pages.pfwRearm (now : Dword) : Pages.Statement (.pfwRearm now) := of_none rfl
theorem Pages.taArm (f : Func) (entry : Fin 256) (ctl : Word) : Pages.Statement (.taArm f entry ctl) := of_none rfl
theorem Pages.taDisarm (f : Func) (entry : Fin 256) (ctl : Word) : Pages.Statement (.taDisarm f entry ctl) := of_none rfl
theorem Pages.taFireCommit (entry : Fin 256) (now : Dword) : Pages.Statement (.taFireCommit entry now) := of_none rfl
theorem Pages.taFireSignal (entry : Fin 256) (now : Dword) : Pages.Statement (.taFireSignal entry now) := of_none rfl
theorem Pages.taFireEvent (entry : Fin 256) (now : Dword) : Pages.Statement (.taFireEvent entry now) := of_none rfl
theorem Pages.taFireSnapshot (entry : Fin 256) (now : Dword) : Pages.Statement (.taFireSnapshot entry now) := of_none rfl
theorem Pages.taStatRead (f : Func) (entry : Fin 256) : Pages.Statement (.taStatRead f entry) := of_none rfl
theorem Pages.outputLine (out : Fin 4) (line : Nat) (now : Dword) (underruns : List Underrun) : Pages.Statement (.outputLine out line now underruns) := of_none rfl
theorem Pages.stripRequest (out : Fin 4) (strip : Nat) (now : Dword) : Pages.Statement (.stripRequest out strip now) := of_none rfl
theorem Pages.deadlineLine (out : Fin 4) (strip : Nat) (now : Dword) : Pages.Statement (.deadlineLine out strip now) := of_none rfl
theorem Pages.takeLine (out : Fin 4) (strip : Nat) (now : Dword) : Pages.Statement (.takeLine out strip now) := of_none rfl
theorem Pages.displayGroupCommit (f : Func) (page : Nat) (seq : BitVec 24) : Pages.Statement (.displayGroupCommit f page seq) := of_one rfl rfl
theorem Pages.commitLatch (out : Fin 4) (now : Dword) : Pages.Statement (.commitLatch out now) := of_none rfl
theorem Pages.frameStart (out : Fin 4) (now : Dword) : Pages.Statement (.frameStart out now) := of_none rfl
theorem Pages.displayPllLocked (out : Fin 4) (now : Dword) : Pages.Statement (.displayPllLocked out now) := of_none rfl
theorem Pages.dpTrain (f : Func) (out : Fin 4) : Pages.Statement (.dpTrain f out) := of_none rfl
theorem Pages.dpTrainDone (out : Fin 4) (ok : Bool) : Pages.Statement (.dpTrainDone out ok) := of_none rfl
theorem Pages.hpdLowTimeout (out : Fin 4) : Pages.Statement (.hpdLowTimeout out) := of_none rfl
theorem Pages.irqHpd (out : Fin 4) (locked : Bool) : Pages.Statement (.irqHpd out locked) := of_none rfl
theorem Pages.auxNativeWrite (f : Func) (out : Fin 4) (ctl : Word) : Pages.Statement (.auxNativeWrite f out ctl) := of_none rfl
theorem Pages.auxNativeRead (f : Func) (out : Fin 4) (ctl : Word) : Pages.Statement (.auxNativeRead f out ctl) := of_none rfl
theorem Pages.auxI2cWrite (f : Func) (out : Fin 4) (ctl : Word) : Pages.Statement (.auxI2cWrite f out ctl) := of_none rfl
theorem Pages.auxI2cRead (f : Func) (out : Fin 4) (ctl : Word) : Pages.Statement (.auxI2cRead f out ctl) := of_none rfl
theorem Pages.auxI2cWriteMot (f : Func) (out : Fin 4) (ctl : Word) : Pages.Statement (.auxI2cWriteMot f out ctl) := of_none rfl
theorem Pages.auxI2cReadMot (f : Func) (out : Fin 4) (ctl : Word) : Pages.Statement (.auxI2cReadMot f out ctl) := of_none rfl
theorem Pages.auxReply (out : Fin 4) (reply : AuxReply) : Pages.Statement (.auxReply out reply) := of_none rfl
theorem Pages.psyncEdge (out : Fin 4) (now : Dword) : Pages.Statement (.psyncEdge out now) := of_none rfl
theorem Pages.psyncLost (out : Fin 4) : Pages.Statement (.psyncLost out) := of_none rfl
theorem Pages.trackSet (f : Func) (ring : Fin 8) (desc : BitVec 1024) : Pages.Statement (.trackSet f ring desc) := of_none rfl
theorem Pages.trackAssociate (f : Func) (ring : Fin 8) (desc : BitVec 1024) : Pages.Statement (.trackAssociate f ring desc) := of_none rfl
theorem Pages.graphLoad (f : Func) (ring : Fin 8) (desc : BitVec 1024) : Pages.Statement (.graphLoad f ring desc) := of_none rfl
theorem Pages.trackFlush (f : Func) (ring : Fin 8) (desc : BitVec 1024) : Pages.Statement (.trackFlush f ring desc) := of_none rfl
theorem Pages.problemStart (now : Dword) : Pages.Statement (.problemStart now) := of_none rfl
theorem Pages.trackBlockFill (part : Fin 8) (emb : Bool) (block : Fin 2048) (upset : List (Nat × Byte)) : Pages.Statement (.trackBlockFill part emb block upset) := of_none rfl
theorem Pages.partitionResume (f : Func) (part : Fin 8) : Pages.Statement (.partitionResume f part) := of_none rfl
theorem Pages.offer (port : Fin 2) (frame : List Byte) (offer : OfferMsg) : Pages.Statement (.offer port frame offer) := of_none rfl
theorem Pages.takenNotice (port : Fin 2) (frame : List Byte) (ident : Nat) : Pages.Statement (.takenNotice port frame ident) := of_none rfl
theorem Pages.withdrawal (port : Fin 2) (frame : List Byte) (ident : Nat) : Pages.Statement (.withdrawal port frame ident) := of_none rfl
theorem Pages.duplicateNotice (port : Fin 2) (frame : List Byte) (ident : Nat) : Pages.Statement (.duplicateNotice port frame ident) := of_none rfl
theorem Pages.offerExpiry (now : Dword) : Pages.Statement (.offerExpiry now) := of_none rfl
theorem Pages.tpRingConsWrite (f : Func) (part : Fin 8) (value : Word) : Pages.Statement (.tpRingConsWrite f part value) := of_none rfl
theorem Pages.portTrain (f : Func) (port : Fin 2) : Pages.Statement (.portTrain f port) := of_none rfl
theorem Pages.portDown (f : Func) (port : Fin 2) : Pages.Statement (.portDown f port) := of_none rfl
theorem Pages.portTrainingDone (port : Fin 2) (lanes : BitVec 8) : Pages.Statement (.portTrainingDone port lanes) := of_none rfl
theorem Pages.hello (port : Fin 2) (frame : List Byte) (count : Nat) (root : BitVec 64) : Pages.Statement (.hello port frame count root) := of_none rfl
theorem Pages.chIdWrite (f : Func) (value : Word) : Pages.Statement (.chIdWrite f value) := of_none rfl
theorem Pages.windowReadRequest (port : Fin 2) (frame : List Byte) : Pages.Statement (.windowReadRequest port frame) := of_none rfl
theorem Pages.completion (port : Fin 2) (frame : List Byte) : Pages.Statement (.completion port frame) := of_none rfl
theorem Pages.frameForward (port : Fin 2) (frame : List Byte) : Pages.Statement (.frameForward port frame) := of_none rfl
theorem Pages.ack (port : Fin 2) (frame : List Byte) : Pages.Statement (.ack port frame) := of_none rfl
theorem Pages.nak (port : Fin 2) (frame : List Byte) : Pages.Statement (.nak port frame) := of_none rfl
theorem Pages.credit (port : Fin 2) (frame : List Byte) : Pages.Statement (.credit port frame) := of_none rfl
theorem Pages.ackTimer (port : Fin 2) : Pages.Statement (.ackTimer port) := of_none rfl
theorem Pages.replayTimeout (port : Fin 2) : Pages.Statement (.replayTimeout port) := of_none rfl
theorem Pages.remoteTimeout (ttag : Nat) : Pages.Statement (.remoteTimeout ttag) := of_none rfl
theorem Pages.busyRetry (ttag : Nat) : Pages.Statement (.busyRetry ttag) := of_none rfl
theorem Pages.powerOnReset (straps : Straps) : Pages.Statement (.powerOnReset straps) := of_none rfl
theorem Pages.bootComplete  : Pages.Statement (.bootComplete) := of_none rfl
theorem Pages.flashRead (f : Func) : Pages.Statement (.flashRead f) := of_none rfl
theorem Pages.flashProgram (f : Func) : Pages.Statement (.flashProgram f) := of_none rfl
theorem Pages.flashErase (f : Func) : Pages.Statement (.flashErase f) := of_none rfl
theorem Pages.flashDone  : Pages.Statement (.flashDone) := of_none rfl
theorem Pages.ordinarySet (f : Func) (ring : Fin 8) (desc : BitVec 1024) (body : List Byte) : Pages.Statement (.ordinarySet f ring desc body) := of_none rfl
theorem Pages.signedChange (f : Func) (ring : Fin 8) (desc : BitVec 1024) (body : List Byte) : Pages.Statement (.signedChange f ring desc body) := of_none rfl
theorem Pages.attest (f : Func) (ring : Fin 8) (desc : BitVec 1024) : Pages.Statement (.attest f ring desc) := of_none rfl
theorem Pages.keepCommitDone (failed : Bool) : Pages.Statement (.keepCommitDone failed) := of_none rfl
theorem Pages.rngHealthFailure (which : BitVec 2) : Pages.Statement (.rngHealthFailure which) := of_none rfl
theorem Pages.trRngDataRead (f : Func) : Pages.Statement (.trRngDataRead f) := of_none rfl
theorem Pages.warmReset (trigger : ResetTrigger) : Pages.Statement (.warmReset trigger) := of_none rfl
theorem Pages.deviceFault (code : BitVec 16) : Pages.Statement (.deviceFault code) := of_none rfl
theorem Pages.pcieReset (cause : PcieReset) : Pages.Statement (.pcieReset cause) := of_none rfl
theorem Pages.referenceClockLoss (clk : RefClock) : Pages.Statement (.referenceClockLoss clk) := of_none rfl
theorem Pages.thermalSensorRead (now : Dword) (sensors : List Int) : Pages.Statement (.thermalSensorRead now sensors) := of_none rfl
theorem Pages.d3hotExit (f : Func) : Pages.Statement (.d3hotExit f) := of_none rfl
theorem Pages.porNFall  : Pages.Statement (.porNFall) := of_none rfl
theorem Pages.neighbourLinkDown (port : Fin 2) : Pages.Statement (.neighbourLinkDown port) := of_none rfl
theorem Pages.hostCompletionError (reader : HostReader) : Pages.Statement (.hostCompletionError reader) := of_none rfl
theorem Pages.trackRingInterruptTimer (part : Fin 8) (now : Dword) : Pages.Statement (.trackRingInterruptTimer part now) := of_none rfl
theorem Pages.sriovVfEnable (count : Nat) : Pages.Statement (.sriovVfEnable count) := of_none rfl

end Sys2Proof.Laws
end

