-- ==== Sys2Proof/Laws/Ranges.lean ====
section
/-! SUPPORT. Virtual ranges of the stack that a client may read or write: the statements' `readsAs` and `writesAt` follow
from checks that evaluate. -/

namespace Sys2Proof

open Sys2Proof.Machine

/-- Whether the translation caches and the contents give the bytes, from an address on. -/
def bytesCheck (s : State) (c : StackClient) (asid : Nat) : Nat → List Byte → Bool
  | _, [] => true
  | va, b :: bs =>
    (match standingLeaf s c asid va with
      | none => false
      | some l => decide (l.coding = .plain) && decide (16 ≤ l.shift) && l.r && steadyBillet s (leafAddr l va / 2048)
          && decide (b = s.content (leafAddr l va))) && bytesCheck s c asid (va + 1) bs

/-- What the check of a range says of each byte. -/
theorem bytesCheck_get {s : State} {c : StackClient} {asid : Nat} : ∀ {bs : List Byte} {va : Nat},
    bytesCheck s c asid va bs = true → ∀ i (h : i < bs.length), ∃ l, standingLeaf s c asid (va + i) = some l ∧
      l.coding = .plain ∧ 16 ≤ l.shift ∧ l.r = true ∧ steadyBillet s (leafAddr l (va + i) / 2048) = true ∧
      bs[i] = s.content (leafAddr l (va + i))
  | [], _, _, i, hi => absurd hi (Nat.not_lt_zero i)
  | b :: bs, va, h, i, hi => by
    rw [bytesCheck, Bool.and_eq_true] at h
    cases i with
    | zero =>
      have h1 := h.1
      revert h1
      split
      · intro h1; exact absurd h1 Bool.false_ne_true
      · next l hl =>
        simp only [Bool.and_eq_true, decide_eq_true_eq]
        rintro ⟨⟨⟨⟨h1, h2⟩, h3⟩, h4⟩, h5⟩
        exact ⟨l, hl, h1, h2, h3, h4, h5⟩
    | succ i =>
      obtain ⟨l, h1⟩ := bytesCheck_get h.2 i (Nat.lt_of_succ_lt_succ hi)
      have e : va + 1 + i = va + (i + 1) := by omega
      rw [e] at h1
      exact ⟨l, h1⟩

/-- A range that passes the check reads as it says. -/
theorem readsAs_of_check {s : State} {c : StackClient} {asid va : Nat} {bs : List Byte}
    (h : ((!lcClient c.kind || (List.range 64).all fun k => !(s.atLcSlots k).valid) && bytesCheck s c asid va bs) = true) :
    readsAs s c asid va bs := by
  rw [Bool.and_eq_true, Bool.or_eq_true, Bool.not_eq_true', List.all_eq_true] at h
  refine ⟨h.1.imp_right fun h k hk => ?_, bytesCheck_get h.2⟩
  simpa using h k (List.mem_range.mpr hk)

/-- `writesAt` as a check, for bytes that stand one after the other from `base` on. -/
def writesCheck (s : State) (c : StackClient) (asid va n base : Nat) : Bool :=
  (List.range n).all fun i => decide (base + i < dataTop) && (s.atHeld ((base + i) / 2048)).isNone &&
    match standingLeaf s c asid (va + i) with
    | none => false
    | some l => decide (l.coding = .plain) && decide (16 ≤ l.shift) && l.w && decide (base + i = leafAddr l (va + i))

/-- A range that passes the check is written where it says. -/
theorem writesAt_of_check {s : State} {c : StackClient} {asid va n base : Nat}
    (h : writesCheck s c asid va n base = true) : writesAt s c asid va n (base + ·) := by
  rw [writesCheck, List.all_eq_true] at h
  refine ⟨fun i hi => ?_, fun i j _ _ e => Nat.add_left_cancel e⟩
  have hb := h i (List.mem_range.mpr hi)
  rw [Bool.and_eq_true, Bool.and_eq_true, decide_eq_true_eq] at hb
  obtain ⟨⟨h1, h2⟩, h3⟩ := hb
  refine ⟨h1, Option.isNone_iff_eq_none.mp h2, ?_⟩
  revert h3
  split
  · intro h3; exact absurd h3 Bool.false_ne_true
  · next l hl =>
    simp only [Bool.and_eq_true, decide_eq_true_eq]
    rintro ⟨⟨⟨h4, h5⟩, h6⟩, h7⟩
    exact ⟨l, hl, h4, h5, h6, h7⟩

end Sys2Proof
end

