-- ==== Sys2Proof/Tests/Slice0.lean ====
section
/-! SUPPORT. Tests: ill-formed commands change nothing, values worked out by hand from the spec come out, and the hypotheses of
every statement can be met. -/

namespace Sys2Proof.Tests

open Sys2Proof Sys2Proof.Machine

set_option Elab.async false

/-! ## Small states and descriptors -/

/-- The state after reset. -/
def S0 : State := State.reset

/-- Registers (page, offset, value) take their values. -/
def withRegs (s : State) (l : List (Nat × Nat × Nat)) : State := run (acts (l.map fun e => setRegN e.1 e.2.1 e.2.2)) s

/-- Effects, one after the other. -/
def eff (s : State) (l : List Effect) : State := l.foldl (fun s e => e.apply s) s

/-- A word of `w` bits from fields (first bit, length, value). -/
def fields (w : Nat) (l : List (Nat × Nat × Nat)) : BitVec w :=
  l.foldl (fun d e => d ||| BitVec.ofNat w (e.2.2 % 2 ^ e.2.1 * 2 ^ e.1)) 0

/-- A job descriptor. -/
def D (l : List (Nat × Nat × Nat)) : BitVec 1024 := fields 1024 l

/-- A descriptor of 64 bytes. -/
def D5 (l : List (Nat × Nat × Nat)) : BitVec 512 := fields 512 l

/-- `n` bytes that differ. -/
def bytes (n k : Nat) : List Byte := (List.range n).map fun i => BitVec.ofNat 8 (i * k + 1)

/-- Job ring `n` of a function fetches, with sequence number `q` expected. -/
def JR (s : State) (f : Func) (n q : Nat) : State :=
  let g := globalPage f
  withRegs s [(g, jrOff n, 0x2000), (g, jrOff n + 8, 0x80000006), (g, jrOff n + 0x0C, q), (g, jrOff n + 0x10, 5),
    (g, jrOff n + 0x14, 4)]

/-- Event ring `n` of the first three functions runs, with `used` records in it. -/
def evOn (n used : Nat) (s : State) : State :=
  (List.range 3).foldl (fun s f => let g := globalPage (Fin.ofNat 32 f)
    withRegs s [(g, evrOff n, 0x1000), (g, evrOff n + 8, 0x80000006), (g, evrOff n + 16, used), (g, evrOff n + 20, 0)]) s

/-- Five virtual functions are there. -/
def pVf (s : State) : State := { s with vfs := max s.vfs 5 }

/-- A unit is bound to a function. -/
def boundU (s : State) (u : UnitId) (f : Func) : State :=
  eff s [.units (unitKey u) { s.unitAt u with state := .bound, owner := f }]

/-- A re-binding sequence runs on a unit. -/
def seqd (s : State) (u : UnitId) (r : Rebind) (st : BindState := .rebinding) : State :=
  eff s [.units (unitKey u) { s.unitAt u with state := st, seq := some r, epoch := 3 }]

/-- A sequence of an op at a step. -/
def rb0 (op : RebindOp) (step : RebindStep) : Rebind :=
  { op := op, step := step, oldOwner := 0, newOwner := 1, hadOwner := true, bound := true }

/-- A binding command. -/
def BJ (op kind owner target : Nat) : BitVec 1024 :=
  D [(0, 8, 6), (8, 8, 1), (16, 2, 2), (32, 24, 3), (208, 16, target), (512, 4, op), (516, 4, kind), (520, 5, owner)]

/-- Bytes in the stack. -/
def raw (s : State) (a : Nat) (bs : List Byte) : State :=
  eff s ((bs.zipIdx.filter fun e => decide (e.1 ≠ 0)).map fun e => Effect.mem (a + e.2) e.1)

/-- Some content at the start of the stack. -/
def pMem (s : State) : State := raw s 0 (bytes 40 3)

/-- A cached leaf of 64 KiB that allows everything. -/
def L0 (pa va : Nat) : Leaf := ⟨0, 0, va / 65536, 16, pa, true, true, true, .plain⟩

/-- Every translation cache and the shared walker hold some leaves. -/
def tlb (s : State) (l : List Leaf) : State :=
  { s with tlb := ⟨(List.range 51).flatMap fun k => l.map fun x => (k, x), l.map WalkRes.leaf⟩ }

/-- The write buffer holds a billet. -/
def held (s : State) (b : Nat) (h : HeldBillet) : State := eff s [.held b (some h)]

/-- Translation tables of function 0 that map address 0 to 4 MiB, 2 MiB long. -/
def walkS (s : State) : State :=
  let put (s : State) (a v : Nat) : State := raw s a (natBytes 8 v)
  put (put (put (withRegs s [(memPage, 0x400, 0x1000001)]) 0x1000000 0x1001001) 0x1001000 0x1002001) 0x1002000 0x40000F

/-- An invalidation. -/
def inv0 (f : Func) (asid : Nat) (all : Bool) (va pages : Nat) : Inval := ⟨f, asid, all, va, pages⟩

/-- A landing-cache job. -/
def LCd (op slot : Nat) (pins := 0) : BitVec 1024 :=
  D [(0, 8, 2), (8, 8, 1), (32, 24, 3), (512, 2, op), (514, 6, slot), (544, 32, pins)]

/-- A landing-cache request. -/
def q0 (op : Nat) : LcInstall := ⟨70, 0, op, 5, false, 0, 1, 0, 256, 3, 100, [], 0, false⟩

/-- Array `a` is bound to function 0 and runs context `c`. -/
def arr (s : State) (a c : Nat) (st : ArraySt) (cs : CtxState := .running) : State :=
  eff (boundU s (arrUnit a) 0) [.ctxs c { state := cs, array := a, entry := 4000 }, .arrays a { st with ctx := some c }]

/-- A MOVE step of two rows of eight. -/
def mv : BitVec 512 := D5 [(0, 4, 7), (36, 4, 1), (256, 16, 2), (288, 16, 8), (336, 16, 8), (128, 6, 1)]

/-- A step in flight. -/
def fl0 (d : BitVec 512) : InFlight :=
  ⟨⟨4, d, false, none, 20⟩, [(5, 9), (8388607, 7)], 3, false, 1, [(2, false, 5), (2, true, 7)], [(0x60, 1)], [3]⟩

/-- A PHASE step that takes 3 of semaphore 5. -/
def phd : BitVec 512 := D5 [(0, 4, 8), (448, 12, 5), (463, 1, 1), (464, 16, 3)]

/-- What a calculation gives. -/
def got (c : Calc StepOut) : StepOut := match c with | .ok a => a | .error _ => {}

/-- The neutral point of the curve as a public key (RFC 8032). -/
def ident : List Byte := 1 :: List.replicate 56 0

/-- A signed change of the owner's key to the neutral point, which R = neutral and S = 0 sign. -/
def chg : List Byte :=
  natBytes 4 0x434B564C ++ natBytes 2 1 ++ [1, 0] ++ natBytes 8 S0.idSlot.serial.toNat ++ natBytes 4 S0.keepBank.seq
    ++ natBytes 2 57 ++ [0, 0] ++ (ident ++ List.replicate 7 0) ++ List.replicate 8 0 ++ ident ++ List.replicate 71 0

/-- The state of an engine. -/
def eng (s : State) (e : Nat) (st : EngineSt) : State := eff s [.engines e st]

/-- The header of a window write from device 2. -/
def hd0 : Header :=
  { typ := 1, vc := 0, dst := 0, src := 2, len := 64, ttag := 9, window := 7, requester := 5, offset := 64, first := 0,
    last := 63 }

/-- A frame. -/
def fr (h : Header) (pl : List Byte) (q := 0) : List Byte := sealFrame (frameBody h pl) q

/-- A port is up, with credits. -/
def portUp (s : State) (p : Nat := 0) : State := withRegs s [(portPage p, 0x100, 3), (portPage p, 0x104, 0x3FFFFFFF)]

/-- A window is bound and open. -/
def winOn (s : State) (w kind : Nat) : State :=
  withRegs (boundU s (winUnit w) 0) [(winPage w, 0x100, kind + 4 + 8), (winPage w, 0x114, 0xFFFFFFFF),
    (winPage w, 0x118, 0xFFFFFFFF), (winPage w, 0x10C, 4)]

/-- A stream descriptor of four units of 64 bytes; `kinds` gives the kinds of the two sides. -/
def sd0 (src dst : Nat) (kinds := 0) : BitVec 512 :=
  D5 [(0, 4, 1), (4, 3, kinds % 8), (7, 3, kinds / 8), (12, 3, 2), (15, 3, 1), (64, 48, src), (112, 48, dst), (160, 16, 63),
    (176, 12, 3), (256, 32, 64), (384, 32, 64)]

/-- A descriptor that takes of and adds to semaphore 5. -/
def sdS (d : BitVec 512) (take add : Nat) : BitVec 512 := d ||| D5 [(188, 4, take), (236, 12, 5), (216, 4, add), (20, 12, 5)]

/-- Semaphore 5 is bound and holds a value. -/
def sem5 (s : State) (v : Nat) : State := withRegs (boundU s (semUnit 5) 0) [(semPage 5, 0x114, v)]

/-- Pooled engine 3, bound, with a list of 9. -/
def pool (s : State) (st : EngineSt) : State :=
  withRegs (eng (boundU s ⟨.pooled, 3⟩ 0) 67 st) [(engPage 67, 0x110, 0x555), (engPage 67, 0x108, 9)]

/-- A bound engine of an array in a phase; handle 4 of the array has eight lines. -/
def aeng (s : State) (e : Nat) (st : EngineSt) (ph : ArrayPhase := .transfer) : State :=
  withRegs (eng (arr s (e / 2) 50 { phase := ph }) e st) [(engPage e, 0x110, 0x555), (htPage (e / 2), 0x140, 9),
    (htPage (e / 2), 0x144, 2 + 65536 * 8)]

/-- A window whose target is handle `h` of array `a`. -/
def wtgt (s : State) (w a h : Nat) (ph : ArrayPhase := .transfer) (arrs : List Arrival := []) : State :=
  withRegs (winOn (arr s a 50 { phase := ph, arrivals := arrs }) w 2) [
    (winPage w, 0x100, 2 + 4 + 8 + 256 * a + 65536 * h), (htPage a, 0x100 + 16 * h, 9),
    (htPage a, 0x104 + 16 * h, 2 + 65536 * 8), (htPage a, 0x108 + 16 * h, 5 + 32768)]

/-- A request of sixteen bytes. -/
def rq : EReq := { tag := 3, pass := 1, unit := 0, idx := 0, src := 500, dst := 64, len := 16 }

/-- An engine in the middle of a pass of a descriptor, with a request outstanding. -/
def mid (d : BitVec 512) (r : EReq := rq) : EngineSt :=
  { state := .running, fetchNext := 2, cur := some ⟨d, 1, true, 1, 0, [], [], []⟩, reqs := [r] }

/-- A handle of one line. -/
def hE : BitVec 128 := BitVec.ofNat 128 (1 + 2 ^ 32 * (2 + 65536))

/-- A handle map with handle 4 alone. -/
def hmapBytes : List Byte := List.replicate 64 0 ++ natBytes 16 hE.toNat ++ List.replicate (1024 - 80) 0

/-- A batch entry. -/
def ent0 : EntryRec :=
  ⟨900, 0, 0, none, 0, 0, 0, 0, 0, 0, 0, none, false, .queued, none, 0, 0, false, 0, none, [], false, 0⟩

/-- An entry for any array. -/
def entT : EntryRec := { ent0 with target := 0xFFFF }

/-- A body entry. -/
def body0 : BitVec 512 :=
  D5 [(0, 48, 64), (64, 48, 4096), (304, 16, 1), (320, 48, 65536), (368, 16, 8), (384, 32, 1000)]

/-- A body entry that claims pooled engine 3. -/
def bodyQ : BitVec 512 := body0 ||| D5 [(450, 1, 1), (452, 4, 3)]

/-- A raster body entry. -/
def rb1 : BitVec 512 := D5 [(0, 48, 64), (64, 48, 4096), (304, 16, 1), (384, 32, 1000)]

/-- The bytes of a body entry. -/
def ebody (b : BitVec 512) : List Byte := natBytes 64 b.toNat

/-- A queued entry with a body, and a bound array that may take it. -/
def queued0 (b : BitVec 512) : State :=
  withRegs (tlb (raw (eff (boundU S0 (arrUnit 3) 0) [.entries 900 (some { entT with body := b }),
    .jobs 900 (some ⟨0, 0, D [(0, 8, 1), (8, 8, 1), (32, 24, 3), (208, 16, 0xFFFF), (448, 24, 64)], [], true⟩)]) 4096 hmapBytes)
    [L0 0 0]) [(spPage 3, 0x104, 0xFFFFFFFF)]

/-- Context 50 on array 3 with one handle. -/
def svc (s : State) (st : CtxState) : State :=
  let s := arr s 3 50 { phase := .stopped }
  let s := eff s [.ctxs 50 { s.atCtxs 50 with state := st, entry := 900, generation := 4 },
    .entries 900 (some { entT with body := body0, state := .running, ctx := some 50 })]
  tlb (withRegs s [(htPage 3, 0x140, 1), (htPage 3, 0x144, 2 + 65536)]) [L0 65536 65536]

/-- A save image of context 50 with one line, without its CRC. -/
def img1 (crc : Nat) : List Byte :=
  natBytes 4 0x4652454B ++ natBytes 4 (1 + 65536 * 50) ++ List.replicate 20 0 ++ natBytes 4 4 ++ List.replicate 28 0
    ++ natBytes 4 crc ++ List.replicate 128 0 ++ (S0.profiles 3).flatMap (fun w => natBytes 4 w.toNat) ++ hmapBytes
    ++ List.replicate (4096 - 1280 + 128) 0

/-- The image with its CRC. -/
def img0 : List Byte := img1 850877163

/-- What a save has kept. -/
def sv0 : SavedCtx := ⟨{}, {}, {}, none, S0.profiles 3, 65536, 4224⟩

/-- Context 50, saved, in a state on an array. -/
def saved0 (st : CtxState) (a : Nat) : State :=
  let s := boundU (svc (raw S0 65536 img0) st) (arrUnit a) 0
  eff s [.ctxs 50 { s.atCtxs 50 with array := a, saved := some sv0 }, .arrays 3 {}, .arrays a { ctx := some 50 }]

/-- A stream context on pipe 2. -/
def strm (s : State) (c : Nat) (st : StreamSt) : State := eff (boundU (boundU s (streamUnit c) 0) ⟨.pipe, 2⟩ 0) [.streams c st]

/-- A stream context's record. -/
def rec0 : BitVec 512 :=
  D5 [(4, 4, 2), (8, 3, 0), (32, 16, 64), (48, 16, 64), (128, 4, 4), (136, 8, 2), (160, 16, 30), (176, 16, 5), (192, 48, 65536),
    (256, 48, 0)]

/-- A stream context control job for context 9. -/
def sj (op : Nat) (len := 0) (host := 0) (addr := 0) : BitVec 1024 :=
  D [(0, 8, 3), (8, 8, 1), (32, 24, 3), (208, 16, 9), (512, 4, op), (448, 24, len), (472, 1, host), (384, 64, addr)]

/-- An access unit. -/
def au (n : Nat) : AccessUnit := ⟨n, false, 5, 7, ⟨false, true, none⟩, false⟩

/-- A picture of 64 by 64. -/
def pic0 : Picture := ⟨64, 64, 8, List.replicate 4096 3, List.replicate 2048 4, true, [1], [], [], [], none⟩

/-- A batch job. -/
def bjd (len : Nat) (cls := 0) (lane : Option Nat := none) (addr := 0) (tgt := 0xFFFF) : BitVec 1024 :=
  D [(0, 8, 1), (8, 8, 1), (16, 2, cls), (32, 24, 3), (208, 16, tgt), (448, 24, len), (384, 64, addr),
    (531, 1, if lane.isSome then 1 else 0), (520, 11, lane.getD 0)]

/-- The timing of an output of 640 by 480. -/
def outRegs : List (Nat × Nat) :=
  [(0x100, 640 + 65536 * 800), (0x104, 16 + 65536 * 96), (0x108, 480 + 65536 * 525), (0x10C, 33 + 65536 * 2), (0x110, 25175),
    (0x114, 1 + 8 + 48)]

/-- An output that scans, at a line of frame 7. -/
def disp (s : State) (o : Nat) (st : OutSt := {}) (line : Nat := 5) : State :=
  let s := withRegs (boundU s (outUnit o) 0) (outRegs.map fun e => (linkPage o, e.1, e.2))
  let s := run (acts (outRegs.map fun e => setShadow (linkPage o) e.1 e.2)) s
  eff (withRegs s [(linkPage o, 0x118, 1), (tbPage, lineOff o, line), (tbPage, lineOff o + 4, 7)]) [.outs o st]

/-- A commit of output 1 gives graphic slot 6 another address and a fence that has not come. -/
def gsl (s : State) : State :=
  run (acts [setShadow (gPage 6) (blockOff 6) 3, setShadow (gPage 6) (blockOff 6 + 4) 4096,
    setShadow (gPage 6) (blockOff 6 + 0x0C) 256, setShadow (gPage 6) (blockOff 6 + 0x14) (64 + 65536 * 4),
    setShadow (gPage 6) (blockOff 6 + 0x18) (5 + 32768), setShadow (gPage 6) (blockOff 6 + 0x1C) 9,
    setFld (compPage 1) 0x010 8 1 1]) (boundU (sem5 s 2) ⟨.graphicPair, 3⟩ 0)

/-- A group commit of output 1. -/
def gc1 (s : State) : GroupCommit :=
  { seq := 9, snap := s.groupSnap 1, aon := true, late := false, deferred := false, since := 0 }

/-- The commit word of output 1 is written with sequence number 9. -/
def cmt (s : State) : State := run (setRegN (linkPage 1) 0x030 (256 * 9)) s

/-- That commit while the output does not scan. -/
def gc2 (s : State) : GroupCommit :=
  { gc1 (cmt s) with
    aon := (cmt s).rbit (compPage 1) 0x010 8, since := (cmt s).frameOf 1, pages := groupPages 1 ((cmt s).groupSnap 1) }

/-- Output 1 has the commit pending at its cut-off line. -/
def gpend (s : State) : State :=
  withRegs (eff s [.outs 1 { pend := some (gc1 s) }]) [(tbPage, lineOff 1, 431)]

/-- A set with graphic slot 6's address and fence alone. -/
def gc3 : GroupCommit :=
  { seq := 9, snap := [(regAddr (gPage 6) 0x100, 3), (regAddr (gPage 6) 0x104, 4096), (regAddr (gPage 6) 0x118, 32773),
      (regAddr (gPage 6) 0x11C, 9)],
    aon := true, late := false, deferred := false, since := 0, pages := [linkPage 1] }

/-- Every set of this form names display registers alone. -/
theorem display_set : displaySet gc3 := by
  have h : ∀ e ∈ gc3.snap, ∃ r ∈ shadowRegs 0x1A3, e.1 = regAddr 0x1A3 r.1 := by decide +kernel
  exact ⟨fun e he => ⟨0x1A3, by decide, by decide, h e he⟩, by decide⟩

/-- Output 1 has that set pending at its cut-off line, while semaphore 5 is nobody's. -/
def gheld : State :=
  withRegs (eff (gsl (disp S0 1)) [.outs 1 { pend := some gc3 }, .units (unitKey (semUnit 5)) {}]) [(tbPage, lineOff 1, 431)]

/-- Output 1 does not scan. -/
def dark (s : State) : State := withRegs s [(linkPage 1, 0x118, 0)]

/-- A timed action's words. -/
def ta (s : State) (n ctl arg : Nat) (time : Nat := 0) (stat := 1) : State :=
  withRegs s [(taPage n, taOff n, ctl), (taPage n, taOff n + 4, arg), (taPage n, taOff n + 8, time),
    (taPage n, taStatOff n, stat)]

/-- A video layer. -/
def vlay (s : State) (slot o : Nat) : State :=
  withRegs (boundU (boundU s ⟨.videoPair, slot / 2⟩ 0) ⟨.stream, 3⟩ 0) [
    (vPage slot, blockOff slot, 1 + 2 * o + 65536 * (3 + 8 * 3)), (vPage slot, blockOff slot + 8, 64 + 65536 * 64),
    (vPage slot, blockOff slot + 0x10, 64 + 65536 * 64), (vPage slot, rasterOff slot, 3 * 256)]

/-- A layer strip. -/
def srec (o k frame serial rung : Nat) : StripRec :=
  { out := o, strip := k, frame := frame, serial := serial, rung := rung, br := { ctx := 3 }, deadline := 1000 }

/-- Layer 3 of output 1 has a strip, at a line. -/
def lstrip (s : State) (r : StripRec) (line : Nat) : State :=
  eff (vlay (disp s 1 {} line) 3 1) [.layers 3 { strips := [r] }]

/-- Entry 900, which context 50 runs on array 3. -/
def eRun : EntryRec := { ent0 with state := .running, ctx := some 50 }

/-- Its strip, which has a coppice program. -/
def sRun : StripRec := { srec 1 2 7 40 0 with entry := some 900, lane := { cop := some rb1 } }

/-- A track control job. -/
def tj (op len : Nat) (tgt := 3) (cam := 0) : BitVec 1024 :=
  D [(0, 8, 4), (8, 8, 1), (32, 24, 3), (208, 16, tgt), (512, 4, op), (544, 16, cam), (448, 24, len)]

/-- Partition 3 is bound, with its tables. -/
def part (s : State) : State := withRegs (boundU s (partUnit 3) 0) [(partPage 3, 0x100, 65536), (partPage 3, 0x108, 131072)]

/-- The body of a set job. -/
def setB : List Byte :=
  natBytes 6 1024 ++ natBytes 2 1 ++ natBytes 6 2048 ++ natBytes 2 0 ++ natBytes 6 4096 ++ natBytes 2 0 ++ natBytes 2 0x3800
    ++ natBytes 2 0x3800 ++ natBytes 2 5 ++ List.replicate 34 0

/-- A candidate. -/
def candsB : List Byte :=
  natBytes 2 0x3C00 ++ natBytes 2 7 ++ natBytes 2 1 ++ natBytes 10 0

/-- An anchor: a box of side 2 at (1, 1). -/
def anc : List Byte := natBytes 4 0x3F800000 ++ natBytes 4 0x3F800000 ++ natBytes 4 0x40000000 ++ natBytes 4 0x40000000

/-- A set job's data in the stack. -/
def setS : State := tlb (raw (raw (raw (part S0) 0 setB) 1024 candsB) 2048 (anc ++ anc)) [L0 0 0]

/-- The candidates. -/
def setC : List SetCand := (List.range 1).map fun i => (i, sliceBytes candsB (16 * i) 16)

/-- The detections. -/
def setO : List (SetCand × List Nat) :=
  (suppress (fHalf 0x3800) 5 ((setKeep (fHalf 0x3800) setC).1.map fun c => (c, setBox c (some anc))) [] 0).1

/-- The body of an associate job. -/
def asB : List Byte :=
  natBytes 2 9 ++ natBytes 2 33 ++ natBytes 4 0 ++ natBytes 8 777 ++ natBytes 6 1024 ++ natBytes 42 0

/-- The body of a graph load. -/
def grB (nc ne : Nat) : List Byte := natBytes 6 1024 ++ natBytes 2 nc ++ natBytes 6 2048 ++ natBytes 2 ne ++ natBytes 16 0

/-- Two cameras. -/
def cb1 : List Byte := natBytes 8 (64 * 3 + 2 ^ 48) ++ natBytes 8 0 ++ natBytes 8 (64 * 3 + 2 ^ 32) ++ natBytes 8 0

/-- An edge. -/
def eb1 : List Byte := natBytes 8 (1 + 2 ^ 32 * 5 + 2 ^ 48 * 9)

/-- A problem. -/
def prob : Problem := ⟨70, 3, 9, 33, 777, 1024, 0, 100, false⟩

/-- A detection list of one. -/
def det1 : List Byte := natBytes 2 1 ++ List.replicate 30 0 ++ anc ++ natBytes 2 0x3C00 ++ natBytes 2 7 ++ List.replicate 12 0

/-- Problems wait. -/
def prs (ps : List Problem) (s : State := part S0) : State :=
  eff { s with track := { s.track with problems := ps, created := 6 } } [.jobs 70 (some ⟨0, 2, tj 2 64, [], true⟩)]

/-- A track record. -/
def rec1 : TrackRec :=
  ⟨5, 1, 7, 9, 3, 0, [0x3F800000, 0x3F800000, 0x40000000, 0x40000000], [0x3F800000, 0, 0, 0], 500, 400, 0⟩

/-- The block with it. -/
def blk1 : List Byte :=
  (List.range 2048).map fun i => if 128 ≤ i ∧ i < 256 then (recBytes rec1).getD (i - 128) 0 else 0

/-- It is cached. -/
def stnd (s : State) : State :=
  eff s [.tblk (blkKey 3 4) ⟨some 9, 2⟩, .tcache (cacheKey 3 false 4) (some ⟨blk1, false, 9⟩),
    .tcache (cacheKey 3 true 4) (some ⟨List.replicate 2048 0, false, 9⟩)]

/-- The header of a track message. -/
def h5 (len : Nat) : Header := { hd0 with typ := 5, len := len }

/-- The header of a completion. -/
def h3 (st : Nat) : Header := { hd0 with typ := 3, vc := 2, status := st }

/-- Request 9 to device 2 is open, through port 0. -/
def rem9 (s : State) (r : RemoteReq) : State :=
  eff (withRegs (portUp s) [(chainPage, 0x110, 0x10)]) [.remotes 9 (some r)]

/-- A track message that waits for its completion, or was answered busy. -/
def rTrack (busy : Bool) : RemoteReq := ⟨none, 2, 5, frameBody { hd0 with typ := 1 } (bytes 64 4), busy, none⟩

/-- A remote read of an engine. -/
def rEng (e : Nat) (busy : Bool) : RemoteReq :=
  ⟨some (e, 3), 2, 5, frameBody { hd0 with typ := 2, vc := 1, len := 0 } [], busy, none⟩

/-- A pass that reads from another device. -/
def midR : EngineSt := mid (sd0 4096 (4 * 2 ^ 21) 11) { rq with src := 520, remote := true }

/-- An offer. -/
def om (i : Nat) : OfferMsg := ⟨i, 7, [], 500, 9, 0, 10, 0, 5, 9⟩

/-- The CRC register after some bytes, where each step waits for the one before. -/
def crcLoop : List Byte → Nat → Nat
  | [], c => c
  | b :: bs, c => if c < 2 ^ 64 then crcLoop bs (crcByte c b) else bs.foldl crcByte (crcByte c b)

theorem crcLoop_eq : ∀ (bs : List Byte) (c : Nat), bs.foldl crcByte c = crcLoop bs c
  | [], _ => rfl
  | b :: bs, c => by
    rw [List.foldl_cons, crcLoop, crcLoop_eq bs]
    split <;> rfl

/-- The CRC-32C of a list, step by step. -/
theorem crc_eq (bs : List Byte) : crc32c bs = BitVec.ofNat 32 (crcLoop bs 0xFFFFFFFF ^^^ 0xFFFFFFFF) := by
  rw [crc32c, crcLoop_eq]

/-- A calculation that gives something gives what `got` says. -/
theorem eq_got {c : Calc StepOut} (h : c.toOption.isSome = true) : c = .ok (got c) := by
  cases c with
  | ok a => rfl
  | error e => exact absurd h Bool.false_ne_true

/-- Nothing is said of what is not there. -/
theorem of_isNone {α : Type} {o : Option α} {p : Prop} {a : α} (h : o.isNone = true) (ha : o = some a) : p := by
  rw [ha] at h
  exact absurd h Bool.false_ne_true

/-- Four facts beside what follows them. -/
theorem four {a b c d e : Prop} (h : a ∧ b ∧ c ∧ d) (k : e) : a ∧ b ∧ c ∧ d ∧ e := ⟨h.1, h.2.1, h.2.2.1, h.2.2.2, k⟩

/-- A billet buffer that holds nothing holds nothing that is old. -/
theorem fresh {s : State} (h : s.buffered = []) : buffersFresh s := by
  intro ch x hx
  rw [State.atBuffered, h] at hx
  exact absurd hx List.not_mem_nil

/-- A leaf of 64 KiB that the shared walker holds stands for every address of its page. -/
theorem walker_leaf {s : State} {f : Func} {k : ClientKind} {asid va : Nat} {l : Leaf} (hk : cacheOf k = none)
    (h : s.tlb.results = [.leaf l]) (hl : l.func = f ∧ l.asid = asid ∧ l.shift = 16 ∧ va = 65536 * l.vpage) (i : Nat)
    (hi : i < 65536) : standingLeaf s ⟨k, f⟩ asid (va + i) = some l := by
  obtain ⟨h1, h2, h3, rfl⟩ := hl
  have h4 : l.vpage = (65536 * l.vpage + i) / 65536 := by omega
  simp [standingLeaf, hk, State.walkerLeaf, h, leafOf, h1, h2, h3, ← h4]

/-! ## Hypotheses that can be met -/

/-- The hypotheses of DoorbellsTakeEffectInTheirWindows can be met, clause by clause. -/
theorem witness_doorbells_take_effect_in_their_windows :
    (∃ (s : State) (f : Func) (n : Fin 8) (v : Word), s.phase = .service ∧ s.present f = true ∧ s.resetting f =
      false ∧ s.jrOn f n.val = true ∧ sub32 v.toNat (s.reg (globalPage f) (jrOff n.val + 0x14)).toNat ≤ 2 ^ s.rfld
      (globalPage f) (jrOff n.val + 8) 0 5) ∧
    (∃ (s : State) (f : Func) (n : Fin 8) (v : Word), s.phase = .service ∧ s.present f = true ∧ s.resetting f =
      false ∧ evrOn s f n.val = true ∧ sub32 v.toNat (s.reg (globalPage f) (evrOff n.val + 20)).toNat ≤ sub32 (s.reg
      (globalPage f) (evrOff n.val + 16)).toNat (s.reg (globalPage f) (evrOff n.val + 20)).toNat) ∧
    (∃ (s : State) (f : Func) (n : Fin 4096), s.phase = .service ∧ s.present f = true ∧ s.resetting f = false ∧
      s.semBound n.val f = true) ∧
    (∃ (s : State) (f : Func) (c : Fin 1024) (v : Word), s.phase = .service ∧ s.present f = true ∧ s.resetting f =
      false ∧ s.boundTo (streamUnit c.val) f = true ∧ sub32 v.toNat (s.atStreams c.val).cons ≤ srEntries
      (s.atStreams c.val).record) ∧
    (∃ (s : State) (f : Func) (n : Fin 8) (v : Word), s.phase = .service ∧ s.present f = true ∧ s.resetting f =
      false ∧ (s.jrOn f n.val = false ∨ 2 ^ s.rfld (globalPage f) (jrOff n.val + 8) 0 5 < sub32 v.toNat (s.reg
      (globalPage f) (jrOff n.val + 0x14)).toNat)) ∧
    (∃ (s : State) (f : Func) (n : Fin 8) (v : Word), s.phase = .service ∧ s.present f = true ∧ s.resetting f =
      false ∧ (evrOn s f n.val = false ∨ sub32 (s.reg (globalPage f) (evrOff n.val + 16)).toNat (s.reg (globalPage
      f) (evrOff n.val + 20)).toNat < sub32 v.toNat (s.reg (globalPage f) (evrOff n.val + 20)).toNat)) ∧
    (∃ (s : State) (f : Func) (c : Fin 1024) (v : Word), s.phase = .service ∧ s.present f = true ∧ s.resetting f =
      false ∧ s.boundTo (streamUnit c.val) f = true ∧ srEntries (s.atStreams c.val).record < sub32 v.toNat
      (s.atStreams c.val).cons) :=
  ⟨⟨JR S0 0 0 0, 0, 0, 68, by decide +kernel⟩,
   ⟨evOn 0 10 S0, 0, 0, 10, by decide +kernel⟩,
   ⟨boundU S0 (semUnit 5) 0, 0, 5, by decide +kernel⟩,
   ⟨eff (boundU S0 (streamUnit 3) 0) [.streams 3 { record := D5 [(128,4,8)], cons := 4294967290 }], 0, 3, 250,
    by decide +kernel⟩,
   ⟨S0, 0, 0, 1, by decide +kernel⟩,
   ⟨S0, 0, 0, 1, by decide +kernel⟩,
   ⟨eff (boundU S0 (streamUnit 3) 0) [.streams 3 { record := D5 [(128,4,8)], cons := 4294967290 }], 0, 3, 251,
    by decide +kernel⟩⟩

/-- The hypotheses of EventRingsStartAndStop can be met, clause by clause. -/
theorem witness_event_rings_start_and_stop :
    (∃ (s : State) (f : Func) (n : Fin 8) (cfg : Word), mayWrite s f (globalPage f) ∧ evrOn s f n.val = false ∧ fld
      (s.reg (globalPage f) (evrOff n.val)) 0 12 = 0 ∧ 6 ≤ fld cfg 0 5 ∧ fld cfg 0 5 ≤ 16) ∧
    (∃ (s : State) (f : Func) (n : Fin 8), mayWrite s f (globalPage f) ∧ evrOn s f n.val = true) ∧
    (∃ (s : State) (f : Func) (n : Fin 8) (now : Dword), s.phase = .service ∧ s.time.toNat ≤ now.toNat ∧ evrOn s f n.val
      = true ∧ s.rfld (globalPage f) (evrOff n.val + 12) 16 16 ≠ 0 ∧ 0 < (s.atRings (ringKey f n.val)).unsignalled ∧
      (s.atRings (ringKey f n.val)).firstAt.toNat + 1000 * s.rfld (globalPage f) (evrOff n.val + 12) 16 16 ≤
      now.toNat ∧ s.reg (globalPage f) (evrOff n.val + 16) ≠ s.reg (globalPage f) (evrOff n.val + 20)) :=
  ⟨⟨withRegs S0 [(0,0x400,0x1000)], 0, 0, 0x80000006, by unfold mayWrite; decide +kernel⟩,
   ⟨evOn 0 0 S0, 0, 0, by unfold mayWrite; decide +kernel⟩,
   ⟨withRegs (eff (evOn 0 3 S0) [.rings 0 ⟨0,3,10⟩]) [(0,0x40C,0x10000)], 0, 0, 1010, by decide +kernel⟩⟩

/-- The hypotheses of JobRingsStartStopAndRecover can be met, clause by clause. -/
theorem witness_job_rings_start_stop_and_recover :
    (∃ (s : State) (f : Func) (n : Fin 8) (cfg : Word), mayWrite s f (globalPage f) ∧ s.jrOn f n.val = false ∧ fld
      (s.reg (globalPage f) (jrOff n.val)) 0 12 = 0 ∧ 6 ≤ fld cfg 0 5 ∧ fld cfg 0 5 ≤ 12) ∧
    (∃ (s : State) (f : Func) (n : Fin 8), mayWrite s f (globalPage f) ∧ s.jrOn f n.val = true) ∧
    (∃ (s : State) (f : Func) (n : Fin 8), mayWrite s f (globalPage f) ∧ (s.jrOn f n.val = false ∨ s.jrHalted f n.val =
      true)) ∧
    (∃ (s : State) (f : Func) (n : Fin 8), mayWrite s f (globalPage f) ∧ s.jrOn f n.val = true ∧ s.jrHalted f n.val =
      false) ∧
    (∃ (s : State) (f : Func), mayWrite s f (globalPage f)) ∧
    (∃ (s : State) (f : Func) (n : Fin 8), mayWrite s f (globalPage f) ∧ s.jrHalted f n.val = true) :=
  ⟨⟨withRegs S0 [(0,0x500,0x1000)], 0, 0, 0x80000006, by unfold mayWrite; decide +kernel⟩,
   ⟨JR S0 0 0 3, 0, 0, by unfold mayWrite; decide +kernel⟩,
   ⟨S0, 0, 0, by unfold mayWrite; decide +kernel⟩,
   ⟨JR S0 0 0 3, 0, 0, by unfold mayWrite; decide +kernel⟩,
   ⟨withRegs (JR S0 0 0 3) [(0,0x518,1)], 0, by unfold mayWrite; decide +kernel⟩,
   ⟨withRegs (JR S0 0 0 3) [(0,0x518,1)], 0, 0, by unfold mayWrite; decide +kernel⟩⟩

/-- The hypotheses of RefusedDescriptorsHaltTheRing can be met, clause by clause. -/
theorem witness_refused_descriptors_halt_the_ring :
    (∃ (s : State) (f : Func) (n : Fin 8) (d : BitVec 1024) (code : Nat), s.phase = .service ∧ s.jrFetches f n.val =
      true ∧ envelopeRefusal s f n.val d = some code) ∧
    (∃ (s : State) (f : Func) (n : Fin 8), s.phase = .service ∧ s.jrFetches f n.val = true) ∧
    (∃ (s : State) (f : Func) (n : Fin 8), s.phase = .service ∧ s.jrFetches f n.val = true) :=
  ⟨⟨JR S0 0 0 3, 0, 0, D [(0,8,5),(8,8,2),(32,24,3)], 0x0117, by decide +kernel⟩,
   ⟨JR S0 0 0 3, 0, 0, by decide +kernel⟩,
   ⟨JR S0 0 0 3, 0, 0, by decide +kernel⟩⟩

/-- The hypotheses of FencesCompleteWhenTheirGatesOpen can be met, clause by clause. -/
theorem witness_fences_complete_when_their_gates_open :
    (∃ (s : State) (f : Func) (n : Fin 8) (d : BitVec 1024), s.phase = .service ∧ s.jrFetches f n.val = true ∧ jobKind d
      = 5 ∧ envelopeRefusal s f n.val d = none ∧ jobBodyLen d = 0 ∧ jobTarget d = 0 ∧ fld d 512 480 = 0) ∧
    (∃ (s : State) (n : Nat) (j : Job), s.phase = .service ∧ s.atJobs n = some j ∧ jobKind j.desc = 5 ∧ j.started =
      false ∧ gatesOpen s n j = true) ∧
    (∃ (s : State) (n : Nat) (j : Job) (now : Dword), s.phase = .service ∧ s.atJobs n = some j ∧ jobKind j.desc = 5 ∧
      j.started = false ∧ s.time.toNat ≤ now.toNat ∧ gatesOpen { s with time := now } n j = true) :=
  ⟨⟨boundU (JR S0 0 0 3) (semUnit 5) 0, 0, 0, D [(0,8,5),(8,8,1),(32,24,3),(320,12,5),(335,1,1),(352,32,9)],
    by decide +kernel⟩,
   ⟨eff (boundU S0 (semUnit 5) 0) [.jobs 50 (some ⟨0,0,D
    [(0,8,5),(8,8,1),(32,24,3),(320,12,5),(335,1,1),(352,32,9)],[],false⟩)], 50, ⟨0,0,D
    [(0,8,5),(8,8,1),(32,24,3),(320,12,5),(335,1,1),(352,32,9)],[],false⟩, by decide +kernel⟩,
   ⟨eff (boundU S0 (semUnit 5) 0) [.jobs 50 (some ⟨0,0,D [(0,8,5),(8,8,1),(32,24,3),(320,12,5),(335,1,1),(352,32,9)] |||
    D [(192,64,55)],[],false⟩)], 50, ⟨0,0,D [(0,8,5),(8,8,1),(32,24,3),(320,12,5),(335,1,1),(352,32,9)] ||| D
    [(192,64,55)],[],false⟩, 55, by decide +kernel⟩⟩

/-- The hypotheses of FunctionsAndTheLinkReportTheirState can be met, clause by clause. -/
theorem witness_functions_and_the_link_report_their_state :
    (∃ (s : State) (speed width : Nat), s.phase ≠ .held ∧ (Instr.linkChange speed width).wf = true) ∧
    (∃ (s : State), s.phase = .service) ∧
    (∃ (s : State), s.phase = .service) ∧
    (∃ (s : State) (f : Func), s.phase = .service ∧ f ≠ 0 ∧ f.val ≤ s.vfs ∧ (∀ e ∈ s.units, e.2.owner ≠ f ∧ e.2.seq =
      none) ∧ (∀ e ∈ s.ctxs, e.2.func ≠ f) ∧ (∀ e ∈ s.entries, ∀ x, e.2 = some x → x.func ≠ f)) ∧
    (∃ (s : State) (f : Func) (c : Instr), s.phase = .service ∧ stateWf s = true ∧ f ≠ 0 ∧ f.val ≤ s.vfs ∧ (c = .vfFlr f ∨
      ∃ now, c = .d3hotEntry f now) ∧ (∀ e ∈ s.ctxs, e.2.faulted = true → (s.unitAt (arrUnit e.2.array)).owner ≠ f) ∧
      (s.unitAt (arrUnit 3)).state = .bound ∧ (s.unitAt (arrUnit 3)).owner = f ∧ (s.unitAt (arrUnit 3)).seq = none ∧
      (s.atCtxs 50).func = f ∧ (s.atCtxs 50).state = .saved) ∧
    (∃ (s : State) (f : Func) (c : Instr) (n : Nat) (x : EntryRec), s.phase = .service ∧ stateWf s = true ∧ f ≠ 0 ∧
      f.val ≤ s.vfs ∧ (c = .vfFlr f ∨ ∃ now, c = .d3hotEntry f now) ∧ s.atEntries n = some x ∧ x.func = f ∧ (x.state =
      .waiting ∨ x.state = .queued) ∧ n < s.entryNext ∧ (∀ e ∈ s.ctxs, e.2.entry ≠ n)) ∧
    (∃ (s : State) (f : Func) (c : Instr) (a : Fin 32) (n : Nat), s.phase = .service ∧ stateWf s = true ∧ f ≠ 0 ∧
      f.val ≤ s.vfs ∧ (c = .vfFlr f ∨ ∃ now, c = .d3hotEntry f now) ∧ (∀ e ∈ s.ctxs, e.2.faulted = true → (s.unitAt
      (arrUnit e.2.array)).owner ≠ f) ∧ (s.unitAt (arrUnit a.val)).state = .bound ∧ (s.unitAt (arrUnit a.val)).owner =
      f ∧ (s.unitAt (arrUnit a.val)).seq = none ∧ (s.atArrays a.val).ctx = some n ∧ (∀ e ∈ s.arrays, e.2.ctx = some n →
      e.1 = a.val) ∧ (s.atCtxs n).state = .running) ∧
    (∃ (s : State), s.phase = .service) :=
  ⟨⟨S0, 4, 8, by decide +kernel⟩,
   ⟨S0, by decide +kernel⟩,
   ⟨S0, by decide +kernel⟩,
   ⟨evOn 1 9 (evOn 0 4 (JR (pVf S0) 1 2 3)), 1, by decide +kernel⟩,
   ⟨eff (boundU (pVf S0) (arrUnit 3) 1) [.ctxs 50 {state:=.saved, func:=1}], 1, .d3hotEntry 1 5, rfl, by decide +kernel,
    by decide +kernel, by decide +kernel, .inr ⟨_, rfl⟩, by decide +kernel⟩,
   ⟨{eff (pVf S0) [.entries 900 (some {ent0 with func:=1, state:=.queued})] with entryNext := 901}, 1, .vfFlr 1, 900,
    {ent0 with func:=1, state:=.queued}, rfl, by decide +kernel, by decide +kernel, by decide +kernel, .inl rfl,
    by decide +kernel⟩,
   ⟨boundU (arr (pVf S0) 3 50 {phase:=.transfer}) (arrUnit 3) 1, 1, .vfFlr 1, 3, 50, rfl, by decide +kernel,
    by decide +kernel, by decide +kernel, .inl rfl, by decide +kernel⟩,
   ⟨S0, rfl⟩⟩

/-- The hypotheses of WarmResetsRestartTheDevice can be met, clause by clause. -/
theorem witness_warm_resets_restart_the_device :
    (∃ (s : State) (now : Dword), s.phase = .service ∧ s.time ≤ now) ∧
    (∃ (s : State) (c : Instr), s.phase = .service ∧ (c = .referenceClockLoss .pcie ∨ (∃ k, c = .pcieReset k))) ∧
    (∃ (s : State) (r : ResetTrigger), s.phase = .service ∧ r.kind ≠ .fault) ∧
    (∃ (s : State) (k : Nat) (f : Func) (b : Bar) (off n : Nat), s.phase = .fenced k ∧ 0 < n ∧ off + n ≤ barSize f b
      ∧ (f ≠ 0 ∨ b ≠ .bar0 ∨ corePage (off / 0x1000) = false)) ∧
    (∃ (s : State) (k : Nat), s.phase = .fenced k) ∧
    (∃ (s : State) (k : Nat) (c : Instr), s.phase = .fenced k ∧ ((∃ now, c = .pfFlr now) ∨ c = .referenceClockLoss .pcie ∨ c =
      .pcieReset .hot ∨ c = .pcieReset .linkDown ∨ (∃ r, c = .warmReset r ∧ resetCode r.kind ≠ k))) ∧
    (∃ (s : State) (r : ResetTrigger), s.phase = .fenced (resetCode r.kind) ∧ s.pcieAfter = false ∧ s.linkWait =
      false ∧ s.tripHold = false ∧ (∀ e ∈ s.ctxs, e.2.state ≠ .saving) ∧ (∀ a, a < 32 → s.rbit (spPage a) 0x11C 8 =
      false) ∧ (∀ e ∈ s.held, e.1 < billetCount) ∧ s.rbit 0 0x300 1 = false) ∧
    (∃ (s : State) (r : ResetTrigger), s.phase = .fenced (resetCode r.kind) ∧ s.pcieAfter = false ∧ s.linkWait =
      false ∧ s.tripHold = false ∧ (∀ e ∈ s.ctxs, e.2.state ≠ .saving) ∧ s.rbit 0 0x300 1 = true) :=
  ⟨⟨S0, 5, by decide +kernel⟩,
   ⟨S0, .pcieReset .hot, by decide +kernel, .inr ⟨_, rfl⟩⟩,
   ⟨S0, ⟨.pfWrite,⟨0,0⟩,true,0⟩, by decide +kernel⟩,
   ⟨{S0 with phase := .fenced 4}, 4, 0, .bar0, 0x1FFF, 2, by decide +kernel⟩,
   ⟨{S0 with phase := .fenced 4}, 4, rfl⟩,
   ⟨{S0 with phase := .fenced 3}, 3, .warmReset ⟨.fault,⟨0,0⟩,true,0⟩, rfl, .inr (.inr (.inr (.inr ⟨⟨.fault,⟨0,0⟩,true,0⟩, rfl, by decide⟩)))⟩,
   ⟨{S0 with phase := .fenced 4}, ⟨.fault,⟨0,0⟩,true,0⟩, by decide +kernel⟩,
   ⟨withRegs {S0 with phase := .fenced 1} [(0,0x300,2)], ⟨.pfWrite,⟨0,0⟩,true,0⟩, by decide +kernel⟩⟩

/-- The hypotheses of DeviceFaultsAndHeat can be met, clause by clause. -/
theorem witness_device_faults_and_heat :
    (∃ (s : State) (code : BitVec 16), s.phase = .service ∧ deviceFaultCodes.contains code = true) ∧
    (∃ (s : State), s.phase = .service) ∧
    (∃ (s : State) (now : Dword) (l : List Int), s.phase = .service ∧ (Instr.thermalSensorRead now l).wf = true ∧
      s.time.toNat ≤ now.toNat ∧ (hottestOf l).1 < 125 ∧ (hottestOf l).1 < (s.rfld 0 0x218 8 8 : Int)) :=
  ⟨⟨S0, 0x0130, by decide +kernel⟩,
   ⟨S0, by decide +kernel⟩,
   ⟨withRegs S0 [(0,0x218,0x7D69)], 5, [-5,3,3]++List.replicate 13 (-20), by decide +kernel⟩⟩

/-- The hypotheses of PowerOnAndBootLeaveZeros can be met, clause by clause. -/
theorem witness_power_on_and_boot_leave_zeros :
    (∃ (p : Straps), (Instr.powerOnReset p).wf = true ∧ p.hottest < 0) ∧
    (∃ (p : Straps), (Instr.powerOnReset p).wf = true ∧ 125 ≤ p.hottest) ∧
    (∃ (s : State), s.phase = .booting ∧ s.zeroing = false ∧ s.rfld trustPage 0x100 0 4 = 6 ∧ s.noArray = false ∧
      s.ruin = none ∧ s.lost.getLsbD 4 = false ∧ s.lost.getLsbD 5 = false ∧ s.lost.getLsbD 6 = false) ∧
    (∃ (s : State), s.zeroing = true) ∧
    (∃ (s : State), s.phase = .service ∧ s.bootScrub = true) :=
  ⟨⟨⟨true,false,true,-5,⟨0,0⟩,0⟩, by decide +kernel⟩,
   ⟨⟨true,false,true,125,⟨0,0⟩,0⟩, by decide +kernel⟩,
   ⟨withRegs {S0 with phase := .booting} [(0x20,0x100,6)], by decide +kernel⟩,
   ⟨{pMem S0 with zeroing := true}, by decide +kernel⟩,
   ⟨eff (withRegs S0 ((List.range 32).map fun a => (0x082+4*a,0x10C,7))) [.sp 77 5, .sp (spKey 31 8388607) 6,.lcSlots 3
    {valid:=true}], by decide +kernel⟩⟩

/-- The hypotheses of WindowsTakeTheAccessesTheyServe can be met, clause by clause. -/
theorem witness_windows_take_the_accesses_they_serve :
    (∃ (s : State) (f : Func) (b : Bar) (off n : Nat), s.phase = .service ∧ 0 < n ∧ off + n ≤ barSize f b ∧
      (s.present f = false ∨ (n ≠ 4 ∧ n ≠ 8) ∨ off % n ≠ 0)) ∧
    (∃ (s : State) (f : Func) (off n : Nat), s.phase = .service ∧ s.present f = true ∧ (n = 4 ∨ n = 8) ∧ off % n = 0
      ∧ off + n ≤ barSize f .bar4) ∧
    (∃ (s : State) (f : Func) (b : Bar) (off n : Nat) (v : Dword), s.phase = .service ∧ s.present f = false ∧ 0 < n
      ∧ off + n ≤ barSize f b ∧ v.toNat < 256 ^ n) ∧
    (∃ (s : State) (f : Func) (n : Fin 4096), s.phase = .service ∧ s.present f = true ∧ s.resetting f = false ∧
      s.semBound n.val f = true) ∧
    (∃ (s : State) (off len : Nat), s.phase = .service ∧ s.present 0 = true ∧ off + len ≤ stackTop ∧ (∀ b ∈
      billetsOf off len, freshBillet s b)) ∧
    (∃ (s : State) (off len : Nat), s.phase = .service ∧ s.present 0 = true ∧ off + len ≤ bar2Size ∧ stackTop < off
      + len) ∧
    (∃ (s : State) (off len : Nat), s.phase = .service ∧ s.present 0 = false ∧ 0 < len ∧ off + len ≤ bar2Size) ∧
    (∃ (s : State), s.phase = .service ∧ s.present 0 = false) ∧
    (∃ (s : State) (off : Nat) (data : List Byte), s.phase = .service ∧ s.present 0 = true ∧ data ≠ [] ∧ off +
      data.length ≤ dataTop ∧ (∀ b h, s.atHeld b = some h → tblOk (fun _ => none) h.bytes = true) ∧ (∀ b ∈ billetsOf
      off data.length, (s.atHeld b).isSome = true ∨ (s.heldOf (channelOf b)).length < 15) ∧ (∀ b ∈ billetsOf off
      data.length, s.rawBillet b = true ∨ (off ≤ 2048 * b ∧ 2048 * (b + 1) ≤ off + data.length))) ∧
    (∃ (s : State) (off : Nat) (data : List Byte), s.phase = .service ∧ s.present 0 = true ∧ data ≠ [] ∧ off +
      data.length ≤ dataTop ∧ off % 2048 + data.length < 2048 ∧ s.rawBillet (off / 2048) = false) ∧
    (∃ (s : State) (off : Nat) (data : List Byte), s.phase = .service ∧ off + data.length ≤ bar2Size ∧ dataTop < off
      + data.length) ∧
    (∃ (s : State) (f : Func) (b : Bar) (off n : Nat) (v : Dword), s.phase = .service ∧ s.present f = true ∧ 0 < n ∧
      off + n ≤ barSize f b ∧ v.toNat < 256 ^ n ∧ ((n ≠ 4 ∧ n ≠ 8) ∨ off % n ≠ 0)) ∧
    (∃ (s : State) (f : Func), s.phase = .service ∧ s.present f = true) ∧
    (∃ (s : State) (f : Func) (off : Nat), s.phase = .service ∧ s.present f = true ∧ off % 4 = 0 ∧ off + 4 ≤ barSize f
      .bar4 ∧ ((0x1040 ≤ off ∧ off < 0x2000) ∨ 0x6000 ≤ off)) :=
  ⟨⟨S0, 0, .bar0, 4, 3, by decide +kernel⟩,
   ⟨S0, 0, 8, 8, by decide +kernel⟩,
   ⟨S0, 31, .bar0, 3, 2, 0xFFFF, by decide +kernel⟩,
   ⟨boundU S0 (semUnit 4095) 0, 0, 4095, by decide +kernel⟩,
   ⟨pMem S0, 5, 300, by decide +kernel, by decide +kernel, by decide +kernel,
    fun b _ x hx _ => absurd (show x ∈ ([] : List BufBillet) from hx)
    List.not_mem_nil⟩,
   ⟨S0, stackTop-1, 2, by decide +kernel⟩,
   ⟨{S0 with d3 := 1}, 0, 5, by decide +kernel⟩,
   ⟨{S0 with d3 := 1}, by decide +kernel⟩,
   ⟨pMem S0, 2040, bytes 20 3, (four (by decide +kernel) ⟨fun _ _ e => of_isNone rfl e, by decide +kernel,
    by decide +kernel⟩)⟩,
   ⟨eff S0 [.codingMap 0 1], 10, bytes 20 3, by decide +kernel⟩,
   ⟨S0, dataTop-1, [1,2], by decide +kernel⟩,
   ⟨S0, 0, .bar0, 4, 3, 0xFFFF, by decide +kernel⟩,
   ⟨pVf S0, 5, by decide +kernel⟩,
   ⟨pVf S0, 5, 0x1FFC, by decide +kernel⟩⟩

/-- The hypotheses of CommitsApplyWhole can be met, clause by clause. -/
theorem witness_commits_apply_whole :
    (∃ (s : State) (f : Func) (p : Nat), p < pageCount ∧ mayWrite s f p ∧ ownCommit p = true ∧ s.atCommits p = none ∧
      commitRefusal s p (s.pageSnap p) = none) ∧
    (∃ (s : State) (f : Func) (p : Nat) (code : Nat), p < pageCount ∧ mayWrite s f p ∧ ownCommit p = true ∧ s.atCommits
      p = none ∧ commitRefusal s p (s.pageSnap p) = some code) ∧
    (∃ (s : State) (p : Nat) (c : CommitRec), p < pageCount ∧ s.phase = .service ∧ ownCommit p = true ∧ s.atCommitPoint
      p = true ∧ s.atCommits p = some c) ∧
    (∃ (s : State) (f : Func) (p : Nat), p < pageCount ∧ mayWrite s f p ∧ ownCommit p = true ∧ (s.atCommits p).isSome =
      true) ∧
    (∃ (s : State) (f : Func) (p : Nat), p < pageCount ∧ mayWrite s f p ∧ headed p = true) :=
  ⟨⟨S0, 0, 0x081, by unfold mayWrite; decide +kernel⟩,
   ⟨run (setShadow 0x081 0x104 0xFFFFFFFF) (run (setShadow 0x081 0x100 0xFFFFFFFF) S0), 0, 0x081, 0x0615,
    by unfold mayWrite; decide +kernel⟩,
   ⟨eff S0 [.commits 0x081 (some ⟨77,S0.pageSnap 0x081⟩)], 0x081, ⟨77,S0.pageSnap 0x081⟩, by decide +kernel⟩,
   ⟨eff S0 [.commits 0x081 (some ⟨77,S0.pageSnap 0x081⟩)], 0, 0x081, by unfold mayWrite; decide +kernel⟩,
   ⟨withRegs S0 [(0x081,0x20,5),(0x81,0x24,9)], 0, 0x081, by unfold mayWrite; decide +kernel⟩⟩

/-- The hypotheses of StackAccessesReachTheContents can be met, clause by clause. -/
theorem witness_stack_accesses_reach_the_contents :
    (∃ (s : State) (c : StackClient) (a n : Nat), s.phase = .service ∧ s.zeroing = false ∧ a + n ≤ dataTop ∧ s.lcHit
      c a n = none ∧ (∀ b ∈ billetsOf a n, steadyBillet s b = true)) ∧
    (∃ (s : State) (c : StackClient) (a n k : Nat), s.phase = .service ∧ s.zeroing = false ∧ a + n ≤ dataTop ∧
      s.lcHit c a n = some k) ∧
    (∃ (s : State) (c : StackClient) (a n : Nat), s.phase = .service ∧ s.zeroing = false ∧ a + n ≤ dataTop ∧ s.lcHit
      c a n = none ∧ (∃ b ∈ billetsOf a n, brokenBillet s b = true)) ∧
    (∃ (s : State) (a : Nat) (data : List Byte), s.phase = .service ∧ s.zeroing = false ∧ data ≠ [] ∧ a % 2048 +
      data.length < 2048 ∧ a + data.length ≤ dataTop ∧ s.atHeld (a / 2048) = none ∧ (s.heldOf (channelOf (a /
      2048))).length < 16) ∧
    (∃ (s : State) (a : Nat) (data : List Byte) (h : HeldBillet), s.phase = .service ∧ s.zeroing = false ∧ data ≠ []
      ∧ a % 2048 + data.length ≤ 2048 ∧ a + data.length ≤ dataTop ∧ s.atHeld (a / 2048) = some h ∧ tblOk (fun _ =>
      none) h.bytes = true ∧ h.bytes.length + data.length < 2048) ∧
    (∃ (s : State) (b : Nat) (data : List Byte), s.phase = .service ∧ s.zeroing = false ∧ data.length = 2048 ∧ b <
      billetCount ∧ s.atHeld b = none) ∧
    (∃ (s : State) (c : StackClient) (asid : Fin 4) (va : Nat) (data : List Byte) (l : Leaf), data ≠ [] ∧ va % 65536
      + data.length ≤ 65536 ∧ standingLeaf s c asid.val va = some l ∧ l.coding = .plain ∧ permitted l c .write va
      data.length = true ∧ leafAddr l va + data.length ≤ dataTop) :=
  ⟨⟨held (pMem S0) 0 ⟨[(3,some 9)],none,0,false,false,false⟩, ⟨.display,0⟩, 0, 64, by decide +kernel⟩,
   ⟨eff S0 [.lcSlots 63 {valid:=true,frames:=2,base:=3,data:=bytes 4096 5}], ⟨.engine 0,0⟩, 6144+10, 64, 63,
    by decide +kernel⟩,
   ⟨eff S0 [.crcDiff 2 9], ⟨.display,0⟩, 4095, 4, by decide +kernel⟩,
   ⟨pMem S0, 10, bytes 33 7, by decide +kernel⟩,
   ⟨held (pMem S0) 0 ⟨[(3,some 9)],none,0,true,false,false⟩, 2, bytes 2046 7, ⟨[(3,some 9)],none,0,true,false,false⟩,
    by decide +kernel⟩,
   ⟨pMem S0, 0, bytes 2048 7, by decide +kernel⟩,
   ⟨tlb S0 [L0 0x10000 0], ⟨.display,0⟩, 0, 65530, bytes 6 3, L0 0x10000 0, by decide +kernel⟩⟩

/-- The hypotheses of MergesAndThePatrolKeepBillets can be met, clause by clause. -/
theorem witness_merges_and_the_patrol_keep_billets :
    (∃ (s : State) (b : Nat) (h : HeldBillet), s.phase = .service ∧ s.atHeld b = some h) ∧
    (∃ (s : State) (b : Nat) (h : HeldBillet), s.phase = .service ∧ s.atHeld b = some h ∧ h.merging = true ∧
      h.superseded = false ∧ h.failed = false ∧ h.ref = none ∧ steadyBillet s b = true) ∧
    (∃ (s : State) (b : Nat) (h : HeldBillet), s.phase = .service ∧ s.atHeld b = some h ∧ h.merging = true ∧
      h.superseded = false ∧ brokenBillet s b = true) ∧
    (∃ (s : State), s.phase = .service ∧ s.rbit memPage 0x104 0 = true ∧ s.zeroing = false) ∧
    (∃ (s : State), s.phase = .service ∧ s.rbit memPage 0x104 0 = false) :=
  ⟨⟨held S0 9 ⟨[(3,some 9)],none,0,false,false,false⟩, 9, ⟨[(3,some 9)],none,0,false,false,false⟩, by decide +kernel⟩,
   ⟨held (pMem S0) 0 ⟨[(3,some 9)],none,0,true,false,false⟩, 0, ⟨[(3,some 9)],none,0,true,false,false⟩,
    by decide +kernel⟩,
   ⟨held (eff S0 [.crcDiff 9 1]) 9 ⟨[(3,some 9)],none,0,true,false,false⟩, 9, ⟨[(3,some 9)],none,0,true,false,false⟩,
    by decide +kernel⟩,
   ⟨withRegs S0 [(0x30,0x104,1),(0x30,0x108,billetCount-1)], by decide +kernel⟩,
   ⟨S0, by decide +kernel⟩⟩

/-- The hypotheses of TranslationsAreCachedAndInvalidated can be met, clause by clause. -/
theorem witness_translations_are_cached_and_invalidated :
    (∃ (s : State) (c : StackClient) (asid : Fin 4) (va : Nat) (l : Leaf), s.phase = .service ∧ walksFromRoot s c
      asid.val va ∧ buffersFresh s ∧ walk s c.func asid.val va = .leaf l ∧ s.inval = none) ∧
    (∃ (s : State) (c : StackClient) (asid : Fin 4) (va : Nat) (i : Inval), s.phase = .service ∧ s.inval = some i ∧
      i.func = c.func ∧ i.asid = asid.val ∧ (i.all = true ∨ (i.va ≤ va ∧ va < i.va + 65536 * i.pages))) ∧
    (∃ (s : State) (c : StackClient) (asid : Fin 4) (va : Nat), s.phase = .service ∧ walksFromRoot s c asid.val va ∧
      buffersFresh s ∧ walk s c.func asid.val va = .absent) ∧
    (∃ (s : State) (f : Func), mayWrite s f memPage ∧ s.inval = none) ∧
    (∃ (s : State) (f : Func), mayWrite s f memPage ∧ s.inval.isSome = true) ∧
    (∃ (s : State) (i : Inval), s.phase = .service ∧ s.inval = some i) :=
  ⟨⟨walkS S0, ⟨.engine 0,0⟩, 0, 4100, ⟨0,0,0,21,0x400000,true,true,false,.plain⟩, rfl, ⟨rfl, rfl, rfl⟩, fresh rfl,
    by decide +kernel⟩,
   ⟨{walkS S0 with inval := some (inv0 0 0 true 0 1)}, ⟨.display,0⟩, 0, 4100, inv0 0 0 true 0 1, by decide +kernel⟩,
   ⟨walkS S0, ⟨.engine 0,0⟩, 0, 0x200000, rfl, ⟨rfl, rfl, rfl⟩, fresh rfl, by decide +kernel⟩,
   ⟨S0, 0, by unfold mayWrite; decide +kernel⟩,
   ⟨{S0 with inval := some (inv0 0 0 true 0 1)}, 0, by unfold mayWrite; decide +kernel⟩,
   ⟨{tlb S0 [L0 0 0, L0 65536 65536, { L0 0 131072 with func := 1 }, { L0 0 327680 with asid := 1 }] with inval := some (inv0 0 0 false 65536 4)},
    inv0 0 0 false 65536 4, by decide +kernel⟩⟩

/-- The hypotheses of BindingCommandsStartTheSequence can be met, clause by clause. -/
theorem witness_binding_commands_start_the_sequence :
    (∃ (s : State) (f : Func) (n : Fin 8) (d : BitVec 1024) (k : UnitKind) (c : Instr) (o : RebindOp), ((c = .bind f n d
      ∧ bcOp d = 1 ∧ o = .bind) ∨ (c = .unbind f n d ∧ bcOp d = 2 ∧ o = .unbind) ∨ (c = .move f n d ∧ bcOp d = 3 ∧ o
      = .move)) ∧ readyJob s f n d 6 ∧ s.bootScrub = false ∧ bindRefusal s d = none ∧ kindOf (bcKind d) = some k) ∧
    (∃ (s : State) (f : Func) (n : Fin 8) (d : BitVec 1024) (k : UnitKind) (r : Rebind), readyJob s f n d 6 ∧ bcOp d = 4
      ∧ s.bootScrub = false ∧ bindRefusal s d = none ∧ kindOf (bcKind d) = some k ∧ (s.unitAt ⟨k, jobTarget d⟩).seq
      = some r) ∧
    (∃ (s : State) (f : Func) (n : Fin 8) (d : BitVec 1024), readyJob s f n d 6 ∧ bcOp d = 5 ∧ s.bootScrub = false ∧
      bindRefusal s d = none) ∧
    (∃ (s : State) (f : Func) (n : Fin 8) (d : BitVec 1024), readyJob s f n d 6 ∧ bcOp d = 6 ∧ s.bootScrub = false ∧
      bindRefusal s d = none) :=
  ⟨⟨JR (eff (pVf S0) [.units (unitKey ⟨.array,31⟩) {state:=.unbound, owner:=0}]) 0 0 3, 0, 0, BJ 1 1 1 31, .array, .bind
    0 0 (BJ 1 1 1 31), .bind, by unfold readyJob; decide +kernel⟩,
   ⟨JR (seqd S0 (arrUnit 3) {rb0 .hold .held with hold:=true} .held) 0 0 3, 0, 0, BJ 4 1 0 3 ||| D [(192,16,3)], .array,
    {rb0 .hold .held with hold:=true}, by unfold readyJob; decide +kernel⟩,
   ⟨JR (pVf S0) 0 0 3, 0, 0, BJ 5 0 2 450, by unfold readyJob; decide +kernel⟩,
   ⟨JR (run (mapPage 2 true 450) (pVf S0)) 0 0 3, 0, 0, BJ 6 0 2 450, by unfold readyJob; decide +kernel⟩⟩

/-- The hypotheses of TheRebindingSequenceGoesOn can be met, clause by clause. -/
theorem witness_the_rebinding_sequence_goes_on :
    (∃ (s : State) (u : UnitId) (r : Rebind), s.phase = .service ∧ u.wf = true ∧ (s.unitAt u).seq = some r ∧ r.step
      = .stop ∧ s.unitStopped u = true) ∧
    (∃ (s : State) (u : UnitId) (r : Rebind), s.phase = .service ∧ u.wf = true ∧ (s.unitAt u).seq = some r ∧ r.step
      = .scrub ∧ r.op ≠ .hold ∧ r.flrAfter = false) :=
  ⟨⟨seqd S0 ⟨.array,31⟩ (rb0 .unbind .stop), ⟨.array,31⟩, rb0 .unbind .stop, by decide +kernel⟩,
   ⟨seqd (pMem (eff S0 [.sp (spKey 31 5) 9])) ⟨.array,31⟩ (rb0 .move .scrub), ⟨.array,31⟩, rb0 .move .scrub,
    by decide +kernel⟩⟩

/-- The hypotheses of ModelsEnterTheLandingCache can be met, clause by clause. -/
theorem witness_models_enter_the_landing_cache :
    (∃ (s : State) (f : Func) (n : Fin 8) (d : BitVec 1024), readyJob s f n d 2 ∧ lcOp d = 2 ∧ lcMalformed d = false
      ∧ s.lcFill = none ∧ s.lcWait = [] ∧ s.lcEarlier s.jobNext = false ∧ (s.atLcSlots (fld d 514 6)).valid = true ∧
      (s.atLcSlots (fld d 514 6)).owner = f) ∧
    (∃ (s : State) (f : Func) (n : Fin 8) (d : BitVec 1024), readyJob s f n d 2 ∧ lcOp d = 2 ∧ lcMalformed d = false
      ∧ s.lcFill = none ∧ s.lcWait = [] ∧ s.lcEarlier s.jobNext = false ∧ ((s.atLcSlots (fld d 514 6)).valid = false
      ∨ (s.atLcSlots (fld d 514 6)).owner ≠ f)) ∧
    (∃ (s : State) (f : Func) (n : Fin 8) (d : BitVec 1024) (j : Job), readyJob s f n d 2 ∧ lcOp d = 3 ∧ lcMalformed
      d = false ∧ s.lcFill = none ∧ s.lcWait = [] ∧ s.lcEarlier s.jobNext = false ∧ (s.atLcSlots (fld d 514
      6)).valid = true ∧ (s.atLcSlots (fld d 514 6)).owner = f ∧ j = ⟨f, n, d, [], true⟩ ∧ pinRefusal s (lcRequest
      s.jobNext j) (fld d 514 6) (s.atLcSlots (fld d 514 6)).frames = none) ∧
    (∃ (s : State) (q : LcInstall) (l : List LcInstall) (out : List Nat), s.phase = .service ∧ s.lcFill = none ∧
      s.lcWait = q :: l ∧ q.op = 1 ∧ s.lcEarlier q.job = false ∧ q.written = false ∧ q.auto = false ∧ (s.atLcSlots
      q.slot).valid = false ∧ (s.atLcSlots q.slot).filling = false ∧ pinRefusal s q q.slot q.frames = none ∧
      s.lcEvictions q.frames false = some out) ∧
    (∃ (s : State) (q : LcInstall) (bs : List Byte), s.phase = .service ∧ s.lcFill = some q ∧ s.lcWait = [] ∧
      q.written = false ∧ bs.length = q.len ∧ buffersFresh s ∧ readsAs s ⟨.fill, q.func⟩ 0 q.va bs) ∧
    (∃ (s : State) (q : LcInstall), s.phase = .service ∧ s.lcFill = some q ∧ s.lcWait = [] ∧ q.written = true) ∧
    (∃ (s : State) (f : Func) (n : Fin 8) (d : BitVec 1024), readyJob s f n d 2 ∧ lcOp d ≤ 1 ∧ bundleMalformed d =
      none ∧ s.trust.check = none ∧ s.trust.commit = none ∧ s.trust.queue = []) ∧
    (∃ (s : State) (f : Func) (n : Fin 8) (d : BitVec 1024), readyJob s f n d 2 ∧ lcOp d ≤ 1 ∧ bundleMalformed d =
      none ∧ s.trust.check.isSome = true ∧ s.trust.queue = []) ∧
    (∃ (s : State) (q : LcInstall) (j : Job), s.phase = .service ∧ s.trust.check = some q ∧ s.atJobs q.job = some j
      ∧ s.trust.queue = [] ∧ q.op = lcOp j.desc) :=
  ⟨⟨JR (eff S0 [.lcSlots 63 {valid:=true}]) 0 0 3, 0, 0, LCd 2 63, by unfold readyJob; decide +kernel⟩,
   ⟨JR (eff S0 [.lcSlots 63 {valid:=true}]) 0 0 3, 0, 0, LCd 2 62, by unfold readyJob; decide +kernel⟩,
   ⟨JR (boundU (eff S0 [.lcSlots 63 {valid:=true,frames:=5}]) (arrUnit 0) 0) 0 0 3, 0, 0, LCd 3 63 1, ⟨0,0,LCd 3 63
    1,[],true⟩, by unfold readyJob; decide +kernel⟩,
   ⟨{S0 with lcWait := [q0 1,q0 2]}, q0 1, [q0 2], [], by decide +kernel⟩,
   ⟨{tlb (pMem S0) [L0 0 0] with lcFill := some (q0 1)}, q0 1, (pMem S0).contents 0 256,
    (four (by decide +kernel) ⟨by decide +kernel, fresh rfl, readsAs_of_check (by decide +kernel)⟩)⟩,
   ⟨{S0 with lcFill := some {q0 1 with written:=true}}, {q0 1 with written:=true}, by decide +kernel⟩,
   ⟨JR S0 0 0 3, 0, 0, LCd 0 0 ||| D [(448,24,576)], by unfold readyJob; decide +kernel⟩,
   ⟨JR {S0 with trust := {S0.trust with check := some (q0 1)}} 0 0 3, 0, 0, LCd 0 0 ||| D [(448,24,576)],
    by unfold readyJob; decide +kernel⟩,
   ⟨eff {S0 with trust := {S0.trust with check := some (q0 1)}} [.jobs 70 (some ⟨0,0,LCd 1 5 ||| D
    [(448,24,576)],[],true⟩)], q0 1, ⟨0,0,LCd 1 5 ||| D [(448,24,576)],[],true⟩, by decide +kernel⟩⟩

/-- The hypotheses of KeepStoreChangesCommitWhole can be met, clause by clause. -/
theorem witness_keep_store_changes_commit_whole :
    (∃ (s : State) (f : Func) (n : Fin 8) (d : BitVec 1024) (given b : List Byte), readyJob s f n d 7 ∧ keepOp d = 1 ∧
      jobClass d = 2 ∧ bodyIs s f d given b ∧ b.length = 8 ∧ ordinaryCause s d b = none ∧ s.tb.pfwBlock = false ∧
      s.trust.check = none ∧ s.trust.commit = none ∧ s.trust.queue = []) ∧
    (∃ (s : State) (f : Func) (n : Fin 8) (d : BitVec 1024) (given b : List Byte), readyJob s f n d 7 ∧ keepOp d = 2 ∧
      jobClass d = 2 ∧ bodyIs s f d given b ∧ b.length = jobBodyLen d ∧ changeCause s d b = none ∧ changeId b ≠ 5 ∧
      s.tb.pfwBlock = false ∧ s.trust.check = none ∧ s.trust.commit = none ∧ s.trust.queue = []) ∧
    (∃ (s : State) (c : KeepCommit), s.phase = .service ∧ s.trust.commit = some c ∧ c.setting ≠ 5 ∧ s.trust.queue = []) ∧
    (∃ (s : State) (c : KeepCommit), s.phase = .service ∧ s.trust.commit = some c ∧ s.trust.queue = []) :=
  ⟨⟨JR S0 0 0 3, 0, 0, (D [(0,8,7),(8,8,1),(16,2,2),(32,24,3),(448,24,8),(512,4,1)] ||| D [(472,1,1),(384,64,0x5000)]),
    [0x10,1,0,0,1,0,0,0], [0x10,1,0,0,1,0,0,0], by unfold readyJob; decide +kernel, by decide +kernel,
    by decide +kernel, .inl ⟨by decide +kernel, rfl⟩, by decide +kernel⟩,
   ⟨JR S0 0 0 3, 0, 0, (D [(0,8,7),(8,8,1),(16,2,2),(32,24,3),(448,24,224),(512,4,2)] ||| D [(472,1,1),(384,64,0x5000)]),
    chg, chg, by unfold readyJob; decide +kernel, by decide +kernel, by decide +kernel, .inl ⟨by decide +kernel, rfl⟩,
    by decide +kernel⟩,
   ⟨{S0 with trust := {S0.trust with commit := some ⟨70,0x14,[1],none⟩}}, ⟨70,0x14,[1],none⟩, by decide +kernel⟩,
   ⟨{S0 with trust := {S0.trust with commit := some ⟨70,0x14,[1],none⟩}}, ⟨70,0x14,[1],none⟩, by decide +kernel⟩⟩

/-- The hypotheses of AttestationAndTheRandomSource can be met, clause by clause. -/
theorem witness_attestation_and_the_random_source :
    (∃ (s : State) (f : Func) (n : Fin 8) (d : BitVec 1024), readyJob s f n d 7 ∧ keepOp d = 3 ∧ jobClass d = 2 ∧
      jobBodyHost d = true ∧ jobBodyLen d = 384 ∧ s.trust.check = none ∧ s.trust.commit = none ∧ s.trust.queue = []) ∧
    (∃ (s : State) (f : Func) (n : Fin 8) (d : BitVec 1024) (bs : List Byte) (pa : Nat → Nat), readyJob s f n d 7 ∧
      keepOp d = 3 ∧ jobClass d = 2 ∧ jobBodyHost d = false ∧ jobBodyLen d = 384 ∧ s.trust.check = none ∧
      s.trust.commit = none ∧ s.trust.queue = [] ∧ bs = report s 0 (keepNonce d) s.idSlot.pub ∧ writesAt s ⟨.trust,
      f⟩ 0 (jobBodyAddr d) bs.length pa) ∧
    (∃ (s : State), s.phase = .service) ∧
    (∃ (s : State) (f : Func), mayRead s f trustPage ∧ s.rbit trustPage 0x280 1 = false) ∧
    (∃ (s : State) (f : Func), mayRead s f trustPage ∧ s.rbit trustPage 0x280 1 = true) :=
  ⟨⟨JR S0 0 0 3, 0, 0, (D [(0,8,7),(8,8,1),(16,2,2),(32,24,3),(448,24,384),(512,4,3)] ||| D [(472,1,1),(384,64,0x5000)]),
    by unfold readyJob; decide +kernel⟩,
   ⟨(JR (tlb (pMem S0) [L0 0 0]) 0 0 3), 0, 0, (D [(0,8,7),(8,8,1),(16,2,2),(32,24,3),(448,24,384),(512,4,3)] ||| D
    [(384,64,100)]), report (JR (tlb (pMem S0) [L0 0 0]) 0 0 3) 0 (keepNonce (D
    [(0,8,7),(8,8,1),(16,2,2),(32,24,3),(448,24,384),(512,4,3)] ||| D [(384,64,100)])) (State.idSlot (JR (tlb (pMem
    S0) [L0 0 0]) 0 0 3)).pub, (100 + ·), by unfold readyJob; decide +kernel,
    (four (by decide +kernel) ⟨by decide +kernel, by decide +kernel, by decide +kernel, rfl,
    writesAt_of_check (by decide +kernel)⟩)⟩,
   ⟨S0, by decide +kernel⟩,
   ⟨S0, 0, by unfold mayRead; decide +kernel⟩,
   ⟨withRegs S0 [(trustPage,0x280,2)], 0, by unfold mayRead; decide +kernel⟩⟩

/-- The hypotheses of FlashOperationsRunOneAtATime can be met, clause by clause. -/
theorem witness_flash_operations_run_one_at_a_time :
    (∃ (s : State) (f : Func) (c : Instr) (op align : Nat), ((c = .flashRead f ∧ op = 1 ∧ align = 256) ∨ (c =
      .flashProgram f ∧ op = 2 ∧ align = 256) ∨ (c = .flashErase f ∧ op = 3 ∧ align = 65536)) ∧ mayWrite s f
      trustPage) ∧
    (∃ (s : State) (op a : Nat) (data : List Byte), (s.phase = .service ∨ s.phase = .recovery) ∧ s.trust.flashOp = some
      (op, a, data)) :=
  ⟨⟨withRegs S0 [(trustPage,0x300,65536)], 0, .flashRead 0, 1, 256, by unfold mayWrite; decide +kernel⟩,
   ⟨eff {S0 with trust := {S0.trust with flashOp := some (1,256,bytes 256 3)}} [.flash 259 9,.flash 512 7], 1, 256, bytes
    256 3, by decide +kernel⟩⟩

/-- The hypotheses of MaxAbsStatisticsClearWhenRead can be met, clause by clause. -/
theorem witness_max_abs_statistics_clear_when_read :
    (∃ (s : State) (f : Func) (a : Fin 32) (q : Fin 8) (c : Instr) (off : Nat), ((c = .qpMaxabsRead f a q ∧ off = 0x108
      + 32 * q.val) ∨ (c = .qpHwMaxabsRead f a q ∧ off = 0x10C + 32 * q.val)) ∧ mayRead s f (qntPage a.val)) :=
  ⟨withRegs (boundU S0 (arrUnit 0) 0) [(qntPage 0,0x108,5),(qntPage 0,0x10C,6)], 0, 0, 0, .qpMaxabsRead 0 0 0, 0x108,
    by unfold mayRead; decide +kernel⟩

/-- The hypotheses of StepsAreFetchedIssuedAndCommitted can be met, clause by clause. -/
theorem witness_steps_are_fetched_issued_and_committed :
    (∃ (s : State) (a : Fin 32) (c va : Nat) (l : Leaf), s.phase = .service ∧ s.liveCtx a.val = some c ∧ (s.atArrays
      a.val).closed = false ∧ (s.atArrays a.val).queue.length < 32 ∧ va = (s.atArrays a.val).prog + 64 * (s.atArrays
      a.val).fetched ∧ va % 65536 ≤ 65472 ∧ standingLeaf s (s.seqClient a.val) (s.atCtxs c).asid va = some l ∧
      l.coding = .plain ∧ permitted l (s.seqClient a.val) .fetch va 64 = true ∧ s.lcHit (s.seqClient a.val)
      (leafAddr l va) 64 = none ∧ (∀ b ∈ billetsOf (leafAddr l va) 64, steadyBillet s b = true)) ∧
    (∃ (s : State) (a : Fin 32) (c : Nat) (q : QStep) (l : List QStep) (o : StepOut), s.phase = .service ∧ s.liveCtx
      a.val = some c ∧ (s.atCtxs c).state ≠ .dispatching ∧ (s.atArrays a.val).phase ≠ .stopped ∧ (s.atArrays
      a.val).queue = q :: l ∧ q.failed = false ∧ q.refused = none ∧ tsOp q.desc ≠ 8 ∧ ((s.atArrays a.val).flight =
      [] ∨ ∃ x, (s.atArrays a.val).flight = [x] ∧ tsCells x.step.desc = true ∧ tsCells q.desc = true ∧ stepConflict
      s a.val x.step.desc q.desc = false) ∧ stripGate s c = true ∧ (s.atArrays a.val).stop = none ∧ s.atCommits
      (qntPage a.val) = none ∧ (s.atArrays a.val).fell = false ∧ (s.rbit (arrPage a.val) 0x010 11 = true → 0 <
      (s.atArrays a.val).grant) ∧ (tsGeo
      q.desc = true → checkGeometry s a.val q.desc (s.geo a.val q.desc) = none) ∧ computeStep s a.val q.desc = .ok o
      ∧ stepOverlaps s a.val q.desc = false ∧ (s.atArrays a.val).arrivals = []) ∧
    (∃ (s : State) (a : Fin 32) (c : Nat) (x : InFlight) (l : List InFlight), s.phase = .service ∧ s.liveCtx a.val =
      some c ∧ (s.atArrays a.val).flight = x :: l ∧ x.waiting = false ∧ tsCmpl x.step.desc = false ∧ tsLast
      x.step.desc = false) ∧
    (∃ (s : State) (a : Fin 32) (c : Nat) (x : InFlight) (l : List InFlight), s.phase = .service ∧ s.liveCtx a.val =
      some c ∧ (s.atArrays a.val).flight = x :: l ∧ x.waiting = true ∧ tsOp x.step.desc = 8 ∧ (s.atArrays
      a.val).stop = none ∧ (s.atArrays a.val).fell = false ∧ (s.atArrays a.val).phase ≠ .stopped ∧ tsCmpl x.step.desc = false ∧ tsLast x.step.desc =
      false ∧ s.semReached (tsWaitSem x.step.desc) (BitVec.ofNat 32 (tsTake x.step.desc)) = true ∧ semUsable s c
      (tsWaitSem x.step.desc) = true) :=
  ⟨⟨tlb (pMem (arr S0 3 50 {phase:=.transfer, closed:=false, prog:=4096, fetched:=2})) [{L0 0 0 with x := true}], 3, 50,
    4096+128, {L0 0 0 with x := true}, by decide +kernel⟩,
   ⟨arr (eff S0 [.sp (spKey 3 5) 9]) 3 50 {queue:=[⟨4,mv,false,none,30⟩]}, 3, 50, ⟨4,mv,false,none,30⟩, default, got
    (computeStep (arr (eff S0 [.sp (spKey 3 5) 9]) 3 50 {queue:=[⟨4,mv,false,none,30⟩]}) 3 mv),
    (four (by decide +kernel) (four (by decide +kernel) ⟨.inl (by decide +kernel),
    (four (by decide +kernel) ⟨by decide +kernel, by decide +kernel, eq_got (by decide +kernel),
    by decide +kernel⟩)⟩))⟩,
   ⟨boundU (arr S0 3 50 {flight:=[fl0 (mv ||| D5 [(14,1,1),(16,12,5),(496,16,9)])]}) (semUnit 5) 0, 3, 50, fl0 (mv ||| D5
    [(14,1,1),(16,12,5),(496,16,9)]), default, by decide +kernel⟩,
   ⟨withRegs (boundU (arr S0 3 50 {flight:=[{fl0 phd with waiting:=true}]}) (semUnit 5) 0) [(semPage 5,0x100+5*4,7)], 3,
    50, {fl0 phd with waiting:=true}, default, by decide +kernel⟩⟩

/-- The hypotheses of ArraysStopAtKerfPoints can be met, clause by clause. -/
theorem witness_arrays_stop_at_kerf_points :
    (∃ (s : State) (f : Func) (a : Fin 32) (c : Nat), mayWrite s f (arrPage a.val) ∧ s.liveCtx a.val = some c ∧
      (s.atArrays a.val).stop = none ∧ (s.atArrays a.val).phase ≠ .stopped) ∧
    (∃ (s : State) (a : Fin 32) (c : Nat) (w : StopWhy), s.phase = .service ∧ s.liveCtx a.val = some c ∧ (s.atArrays
      a.val).stop = some w ∧ (∀ x ∈ (s.atArrays a.val).flight, x.waiting = true) ∧ ((s.atArrays a.val).flight = [] →
      ∀ q, (s.atArrays a.val).queue.head? = some q → q.refused = none)) ∧
    (∃ (s : State) (a : Fin 32) (c : Nat) (w : StopWhy) (q : QStep) (l : List QStep) (code : Nat), s.phase =
      .service ∧ s.liveCtx a.val = some c ∧ (s.atArrays a.val).stop = some w ∧ (s.atArrays a.val).flight = [] ∧
      (s.atArrays a.val).queue = q :: l ∧ q.refused = some code) ∧
    (∃ (s : State) (a : Fin 32) (v : CommitRec), s.phase = .service ∧ (s.atArrays a.val).stop = none ∧ ((s.atArrays
      a.val).flight = [] ∨ ((s.atArrays a.val).phase = .stopped ∧ ∀ x ∈ (s.atArrays a.val).flight, x.waiting =
      true)) ∧ s.atCommits (qntPage a.val) = some v) ∧
    (∃ (s : State) (a : Fin 32), mayWrite s 0 (arrPage a.val) ∧ s.rbit (arrPage a.val) 0x010 11 = true) :=
  ⟨⟨arr S0 3 50 {phase:=.compute,flight:=[fl0 mv]}, 0, 3, 50, by unfold mayWrite; decide +kernel⟩,
   ⟨arr S0 3 50 {phase:=.transfer,stop:=some .host,flight:=[{fl0 phd with waiting := true}]}, 3, 50, .host,
    by decide +kernel⟩,
   ⟨arr S0 3 50 {phase:=.transfer,stop:=some .host,queue:=[⟨4,mv,false,some 0x0505,20⟩]}, 3, 50, .host,
    ⟨4,mv,false,some 0x0505,20⟩, [], 0x0505, by decide +kernel⟩,
   ⟨eff (arr S0 3 50 {phase:=.compute}) [.commits (qntPage 3) (some ⟨9,S0.pageSnap (qntPage 3)⟩)], 3, ⟨9,S0.pageSnap
    (qntPage 3)⟩, by decide +kernel⟩,
   ⟨withRegs S0 [(arrPage 3,0x10,0x800)], 3, by unfold mayWrite; decide +kernel⟩⟩

/-- The hypotheses of FelledArraysAreWithdrawn can be met, clause by clause. -/
theorem witness_felled_arrays_are_withdrawn :
    (∃ (s : State) (a : Fin 32) (c : Instr), ((c = .stepOverrun a ∧ s.phase = .service ∧ (s.atArrays a.val).flight ≠ [])
      ∨ ((∃ k : SelfCheck, c = .arraySelfCheckFailure a k ∧ k.wf = true) ∧ s.phase = .service ∧ (s.atArrays
      a.val).flight ≠ []) ∨ (c = .arrayFell 0 a ∧ mayWrite s 0 (arrPage a.val) ∧ ((s.atArrays
      a.val).phase = .transfer → s.engStopped (2 * a.val) = true ∧ s.engStopped (2 * a.val + 1) = true))) ∧
      (s.unitAt (arrUnit a.val)).felled = false) ∧
    (∃ (s : State) (a : Fin 32), mayWrite s 0 (arrPage a.val) ∧ (s.atArrays a.val).phase = .transfer ∧ (s.engStopped (2 *
      a.val) && s.engStopped (2 * a.val + 1)) = false ∧ (∀ k, k = 2 * a.val ∨ k = 2 * a.val + 1 → (s.atEngines
      k).resetting = false)) :=
  ⟨⟨arr S0 3 50 {phase:=.compute,flight:=[fl0 mv]}, 3, .stepOverrun 3, .inl ⟨rfl, by decide +kernel,
    by decide +kernel⟩, by decide +kernel⟩,
   ⟨aeng S0 6 (mid (sd0 4096 (4*2^21) 10) {rq with data := some (bytes 16 3)}), 3,
    by unfold mayWrite; decide +kernel, by decide +kernel, by decide +kernel,
    fun k h => h.elim (fun e => e ▸ by decide +kernel) (fun e => e ▸ by decide +kernel)⟩⟩

/-- The hypotheses of DescriptorsAreEnteredAndTheirUnitsTaken can be met, clause by clause. -/
theorem witness_descriptors_are_entered_and_their_units_taken :
    (∃ (s : State) (e : Fin 80) (va : Nat) (l : Leaf), s.phase = .service ∧ engActive (s.atEngines e.val) = true ∧
      (s.atEngines e.val).fetchNext < s.rfld (engPage e.val) 0x108 0 16 ∧ (s.atEngines e.val).fetched.length < 4 ∧
      (s.atEngines e.val).fetched.contains none = false ∧ va = s.reg64 (engPage e.val) 0x100 % 2 ^ 48 / 64 * 64 + 64
      * (s.atEngines e.val).fetchNext ∧ standingLeaf s ⟨.listFetch e.val, s.engOwner e.val⟩ (s.atEngines e.val).asid
      va = some l ∧ l.coding = .plain ∧ permitted l ⟨.listFetch e.val, s.engOwner e.val⟩ .fetch va 64 = true ∧
      s.lcHit ⟨.listFetch e.val, s.engOwner e.val⟩ (leafAddr l va) 64 = none ∧ (∀ b ∈ billetsOf (leafAddr l va) 64,
      steadyBillet s b = true)) ∧
    (∃ (s : State) (e : Fin 80) (d : BitVec 512) (l : List (Option (BitVec 512))), s.phase = .service ∧ engActive
      (s.atEngines e.val) = true ∧ (s.atEngines e.val).cur = none ∧ (s.atEngines e.val).fetched = some d :: l ∧
      checkDesc s e.val d = none ∧ (s.atEngines e.val).pend = []) ∧
    (∃ (s : State) (e : Fin 80) (d : BitVec 512) (l : List (Option (BitVec 512))) (code : Nat), s.phase = .service ∧
      64 ≤ e.val ∧ engActive (s.atEngines e.val) = true ∧ (s.atEngines e.val).cur = none ∧ (s.atEngines
      e.val).fetched = some d :: l ∧ checkDesc s e.val d = some code) ∧
    (∃ (s : State) (e : Fin 80) (p : EPass), s.phase = .service ∧ engActive (s.atEngines e.val) = true ∧
      (s.atEngines e.val).cur = some p ∧ (s.atEngines e.val).nxt = none ∧ p.started = true ∧ p.todo = [] ∧ p.taken <
      sdUnits p.desc ∧ p.taken - p.signalled < 16 ∧ (s.atArrays (e.val / 2)).fell =
      false ∧ (∀ c, s.engCtx e.val = some c → (s.atCtxs c).state ≠ .retiring)
      ∧ (sdTake p.desc ≠ 0 → s.semBound (sdWaitSem p.desc) (s.engOwner e.val) = true) ∧ (sdTake p.desc = 0 ∨
      s.semReached (sdWaitSem p.desc) (BitVec.ofNat 32 (sdTake p.desc)) = true)) ∧
    (∃ (s : State) (e : Fin 80) (p : EPass), s.phase = .service ∧ engActive (s.atEngines e.val) = true ∧
      (s.atEngines e.val).cur = some p ∧ (s.atEngines e.val).nxt = none ∧ p.started = true ∧ p.todo = [] ∧ p.taken <
      sdUnits p.desc ∧ p.taken - p.signalled < 16 ∧ (s.atArrays (e.val / 2)).fell =
      false ∧ (∀ c, s.engCtx e.val = some c → (s.atCtxs c).state ≠ .retiring)
      ∧ (sdTake p.desc ≠ 0 → s.semBound (sdWaitSem p.desc) (s.engOwner e.val) = true) ∧ sdTake p.desc ≠ 0 ∧
      s.semReached (sdWaitSem p.desc) (BitVec.ofNat 32 (sdTake p.desc)) = false) :=
  ⟨⟨withRegs (tlb (pMem (pool S0 {state:=.running,fetchNext:=2})) [L0 0 0]) [(engPage 67,0x100,128)], 67, 256, L0 0 0,
    by decide +kernel⟩,
   ⟨pool S0 {state:=.running,fetchNext:=2,fetched:=[some (sd0 4096 8192),none]}, 67, sd0 4096 8192, [none],
    by decide +kernel⟩,
   ⟨pool S0 {state:=.running,fetchNext:=2,fetched:=[some 0,none]}, 67, 0, [none], 0x0810, by decide +kernel⟩,
   ⟨pool (sem5 S0 2) (mid (sdS (sd0 4096 8192) 2 1)), 67, ⟨sdS (sd0 4096 8192) 2 1, 1, true, 1, 0, [], [], []⟩,
    (four (by decide +kernel) (four (by decide +kernel) ⟨by decide +kernel, fun _ => of_isNone rfl,
    by decide +kernel⟩))⟩,
   ⟨pool (sem5 S0 1) (mid (sdS (sd0 4096 8192) 2 1)), 67, ⟨sdS (sd0 4096 8192) 2 1, 1, true, 1, 0, [], [], []⟩,
    (four (by decide +kernel) (four (by decide +kernel) ⟨by decide +kernel, fun _ => of_isNone rfl,
    by decide +kernel⟩))⟩⟩

/-- The hypotheses of RequestsDeliverWaitOrFault can be met, clause by clause. -/
theorem witness_requests_deliver_wait_or_fault :
    (∃ (s : State) (e : Fin 80) (tag : Nat) (r : EReq) (d : BitVec 512) (bs host : List Byte), s.phase = .service ∧
      s.engReq e.val tag = some (r, d) ∧ s.busyReq
      e.val tag = false ∧ sourceBytes s e.val r d host bs ∧ sdKind d true = 1 ∧ commitPhase s e.val d
      = true ∧ (s.atEngines e.val).shadow = none ∧ (s.atArrays (e.val / 2)).arrivals = []) ∧
    (∃ (s : State) (e : Fin 80) (tag : Nat) (r : EReq) (d : BitVec 512) (bs host : List Byte), s.phase = .service ∧
      s.engReq e.val tag = some (r, d) ∧ s.busyReq
      e.val tag = false ∧ sourceBytes s e.val r d host bs ∧ r.data = none ∧ sdKind d true = 1 ∧
      commitPhase s e.val d = false) ∧
    (∃ (s : State) (e : Fin 80) (tag : Nat) (r : EReq) (d : BitVec 512) (bs host : List Byte) (pa : Nat → Nat),
      s.phase = .service ∧ s.engReq e.val tag = some (r, d) ∧ s.busyReq
      e.val tag = false ∧ sourceBytes s e.val r d host bs ∧ sdKind d true = 0 ∧
      sdIsAdd d = false ∧ (s.atEngines e.val).shadow = none ∧ writesAt s (s.engClient e.val) (s.atEngines
      e.val).asid r.dst bs.length pa) ∧
    (∃ (s : State) (e : Fin 80) (tag : Nat) (r : EReq) (d : BitVec 512) (bs host : List Byte), s.phase = .service ∧
      s.engReq e.val tag = some (r, d) ∧ s.busyReq
      e.val tag = false ∧ sourceBytes s e.val r d host bs ∧ sdKind d true = 2) ∧
    (∃ (s : State) (e : Fin 80) (tag : Nat) (r : EReq) (d : BitVec 512), s.phase = .service ∧ s.engReq e.val tag = some (r, d) ∧ s.busyReq
      e.val tag = false ∧ sdKind d false = 2 ∧ (s.atArrays (e.val / 2)).fell = false ∧ (∀ c, s.engCtx e.val = some c → (s.atCtxs c).state ≠ .retiring) ∧
      (s.atEngines e.val).stopping = false ∧ (∀ x ∈ (s.atEngines e.val).reqs, x.tag = tag)) ∧
    (∃ (s : State) (e : Fin 80) (tag : Nat), s.phase = .service ∧ s.busyReq e.val tag = true) :=
  ⟨⟨aeng S0 6 (mid (sd0 4096 (4*2^21) 10)), 6, 3, rq, sd0 4096 (4*2^21) 10, bytes 16 7, bytes 16 7, by decide +kernel,
    by decide +kernel, by decide +kernel, .inr ⟨rfl, rfl, rfl, .inl (by decide +kernel)⟩, by decide +kernel⟩,
   ⟨aeng S0 6 (mid (sd0 4096 (4*2^21) 10)) .compute, 6, 3, rq, sd0 4096 (4*2^21) 10, bytes 16 7, bytes 16 7,
    by decide +kernel, by decide +kernel, by decide +kernel, .inr ⟨rfl, rfl, rfl, .inl (by decide +kernel)⟩,
    by decide +kernel⟩,
   ⟨tlb (pool S0 (mid (sd0 4096 8192 2))) [L0 0 0], 67, 3, rq, sd0 4096 8192 2, bytes 16 7, bytes 16 7, (64 + ·),
    by decide +kernel, by decide +kernel, by decide +kernel, .inr ⟨rfl, rfl, rfl, .inl (by decide +kernel)⟩,
    by decide +kernel,
    by decide +kernel, by decide +kernel, writesAt_of_check (by decide +kernel)⟩,
   ⟨pool S0 (mid (sd0 4096 8192 16) { rq with data := some (bytes 16 3), write := true }), 67, 3,
    { rq with data := some (bytes 16 3), write := true }, sd0 4096 8192 16, bytes 16 3, [], by decide +kernel,
    by decide +kernel, by decide +kernel, .inl rfl, by decide +kernel⟩,
   ⟨pool S0 (mid (sd0 4096 8192 2)), 67, 3, rq, sd0 4096 8192 2,
    (four (by decide +kernel) ⟨by decide +kernel, fun _ => of_isNone rfl, by decide +kernel⟩)⟩,
   ⟨rem9 (aeng S0 6 midR) (rEng 6 true), 6, 3, by decide +kernel⟩⟩

/-- The hypotheses of EnginesStartResumeResetAndRearm can be met, clause by clause. -/
theorem witness_engines_start_resume_reset_and_rearm :
    (∃ (s : State) (f : Func) (e : Fin 80) (ctl : Word) (p : EPass) (ra : Rearm), mayWrite s f (engPage e.val) ∧
      (s.atEngines e.val).cur = some p ∧ fld ctl 8 16 = p.index ∧ sdPersist p.desc = true ∧ ra = ⟨s.reg64 (engPage
      e.val) 0x130 % 2 ^ 48, s.reg64 (engPage e.val) 0x138 % 2 ^ 48, s.rfld (engPage e.val) 0x140 0 24⟩ ∧ seqAhead
      ra.seq (sdSeq p.desc) = true ∧ p.started = false ∧ engActive (s.atEngines e.val) = true ∧ checkRearmed s e.val
      (sdRearmed p.desc ra) = none) ∧
    (∃ (s : State) (f : Func) (e : Fin 80) (ctl : Word) (p : EPass) (ra : Rearm), mayWrite s f (engPage e.val) ∧
      (s.atEngines e.val).cur = some p ∧ fld ctl 8 16 = p.index ∧ sdPersist p.desc = true ∧ ra = ⟨s.reg64 (engPage
      e.val) 0x130 % 2 ^ 48, s.reg64 (engPage e.val) 0x138 % 2 ^ 48, s.rfld (engPage e.val) 0x140 0 24⟩ ∧ seqAhead
      ra.seq (sdSeq p.desc) = true ∧ p.started = true) ∧
    (∃ (s : State) (f : Func) (q : Fin 16), mayWrite s f (engPage (64 + q.val)) ∧ (s.atEngines (64 + q.val)).state =
      .idle ∧ (s.atEngines (64 + q.val)).claimed = none ∧ (s.atEngines (64 + q.val)).stopping = false ∧ s.rfld
      (engPage (64 + q.val)) 0x108 0 16 ≠ 0) ∧
    (∃ (s : State) (f : Func) (q : Fin 16), mayWrite s f (engPage (64 + q.val)) ∧ (s.atEngines (64 + q.val)).state ≠
      .idle) ∧
    (∃ (s : State) (f : Func) (e : Fin 80), mayWrite s f (engPage e.val) ∧ (s.atEngines e.val).state = .faulted ∧
      (s.atEngines e.val).stopping = false ∧ (∀ p ∈ engPasses (s.atEngines e.val), sdRemote s.deviceNo p.desc =
      false)) ∧
    (∃ (s : State) (f : Func) (q : Fin 16), mayWrite s f (engPage (64 + q.val))) ∧
    (∃ (s : State) (e : Fin 80) (tag : Nat), s.phase = .service ∧ (∀ x ∈ s.remotes, (x.2.bind fun y => y.engine) ≠
      some (e.val, tag))) :=
  ⟨⟨withRegs (pool S0 {state:=.running,fetchNext:=2,cur:=some ⟨sd0 4096 8192 ||| D5 [(10,1,1)],1,false,0,0,[],[],[]⟩})
    [(engPage 67,0x130,12288),(engPage 67,0x138,0x4000),(engPage 67,0x140,9)], 0, 67, 0x101, ⟨sd0 4096 8192 ||| D5
    [(10,1,1)],1,false,0,0,[],[],[]⟩, ⟨0x3000,0x4000,9⟩, by unfold mayWrite; decide +kernel⟩,
   ⟨withRegs (pool S0 (mid (sd0 4096 8192 ||| D5 [(10,1,1)]))) [(engPage 67,0x140,9)], 0, 67, 0x101,
    ⟨sd0 4096 8192 ||| D5 [(10,1,1)],1,true,1,0,[],[],[]⟩, ⟨0,0,9⟩, by unfold mayWrite; decide +kernel⟩,
   ⟨pool S0 {orphans:=[1,2]}, 0, 3, by unfold mayWrite; decide +kernel⟩,
   ⟨pool S0 {state:=.stopped}, 0, 3, by unfold mayWrite; decide +kernel⟩,
   ⟨pool S0 {state:=.faulted,faults:=[(1,2,3,4)],halting:=true}, 0, 67, by unfold mayWrite; decide +kernel⟩,
   ⟨pool S0 {state:=.running,claimed:=some 50,orphans:=[1]}, 0, 3, by unfold mayWrite; decide +kernel⟩,
   ⟨pool S0 {state:=.running,claimed:=some 50,orphans:=[1,3]}, 67, 3, by decide +kernel⟩⟩

/-- The hypotheses of SemaphoresAreSetAndAdded can be met, clause by clause. -/
theorem witness_semaphores_are_set_and_added :
    (∃ (s : State) (f : Func) (n : Fin 4096), mayWrite s f (semPage n.val)) :=
  ⟨sem5 S0 7, 0, 5, by unfold mayWrite; decide +kernel⟩

/-- The hypotheses of ArrivalsAreAcceptedAndCommitted can be met, clause by clause. -/
theorem witness_arrivals_are_accepted_and_committed :
    (∃ (s : State) (p : Fin 2) (frame : List Byte) (h : Header) (a n : Nat) (e : BitVec 128), arrives s p frame 1 ∧
      h = parseHeader frame ∧ (s.atPorts p.val).heldBack = [] ∧ fitsScratch s h (framePayload frame) a n e) ∧
    (∃ (s : State) (p : Fin 2) (frame f : List Byte) (l : List (List Byte)), arrives s p frame 1 ∧ (s.atPorts
      p.val).heldBack = f :: l ∧ stillWaits s p f) ∧
    (∃ (s : State) (p : Fin 2) (frame : List Byte) (h : Header) (l : Leaf) (va : Nat), arrives s p frame 1 ∧ h =
      parseHeader frame ∧ (s.atPorts p.val).heldBack = [] ∧ windowOpen s h.window 3 h.src ∧ s.winKind h.window = 1 ∧
      h.offset + h.last + 1 ≤ 65536 * s.rfld (winPage h.window) 0x10C 0 16 ∧ h.first ≤ h.last ∧ h.last < h.len ∧
      (s.atWindows h.window).inFlight + h.len ≤ 8192 ∧ va = s.reg64 (winPage h.window) 0x104 % 2 ^ 48 + h.offset +
      h.first ∧ rangeWritable s ⟨.window, (s.unitAt (winUnit h.window)).owner⟩ va (h.last + 1 - h.first) l) ∧
    (∃ (s : State) (p : Fin 2) (frame : List Byte) (h : Header), arrives s p frame 1 ∧ h = parseHeader frame ∧
      (s.atPorts p.val).heldBack = [] ∧ ¬ windowOpen s h.window 3 h.src) ∧
    (∃ (s : State) (a : Fin 32) (v : Arrival) (l : List Arrival), s.phase = .service ∧ (s.atArrays a.val).arrivals =
      v :: l ∧ (s.unitAt (arrUnit a.val)).state ≠ .held) ∧
    (∃ (s : State) (w : Fin 64) (v : WinWrite) (l : List WinWrite) (p : Leaf), s.phase = .service ∧ (s.atWindows
      w.val).queue = v :: l ∧ v.data ≠ [] ∧ standingLeaf s ⟨.window, (s.unitAt (winUnit w.val)).owner⟩ 0 v.va = some
      p ∧ p.coding = .plain ∧ permitted p ⟨.window, (s.unitAt (winUnit w.val)).owner⟩ .write v.va v.data.length =
      true ∧ v.va % 65536 + v.data.length ≤ 65536 ∧ leafAddr p v.va + v.data.length ≤ dataTop ∧ leafAddr p v.va %
      2048 + v.data.length < 2048 ∧ s.atHeld (leafAddr p v.va / 2048) = none ∧ (s.heldOf (channelOf (leafAddr p v.va
      / 2048))).length < 16) :=
  ⟨⟨wtgt (portUp S0) 7 3 4, 0, fr hd0 (bytes 64 5), hd0, 3, 4, BitVec.ofNat 128 (9+2^32*(2+65536*8)+2^64*(5+32768)),
    by unfold fitsScratch windowOpen arrives; decide +kernel⟩,
   ⟨eff (wtgt (portUp S0) 7 3 4 .transfer (List.replicate 16 (arrivalOfFrame 0 (fr hd0 (bytes 64 5)) 4 (BitVec.ofNat 128
      (9+2^32*(2+65536*8)+2^64*(5+32768)))) ++ List.replicate 16 (arrivalOfFrame 0 (fr hd0 (bytes 64 5)) 4
      (BitVec.ofNat 128 (9+2^32*(2+65536*8)+2^64*(5+32768)))))) [.ports 0 {heldBack:=[fr hd0 (bytes 64 5)]}], 0,
    fr hd0 (bytes 64 5), fr hd0 (bytes 64 5), [], by unfold arrives; decide +kernel, by decide +kernel,
    ⟨3, 4, BitVec.ofNat 128 (9+2^32*(2+65536*8)+2^64*(5+32768)), by unfold fitsScratch windowOpen; decide +kernel⟩⟩,
   ⟨tlb (winOn (portUp S0) 7 1) [L0 0 0], 0, fr hd0 (bytes 64 5), hd0, L0 0 0, 64,
    by unfold arrives; decide +kernel, by decide +kernel, by decide +kernel, by unfold windowOpen; decide +kernel,
    (four (by decide +kernel) (four (by decide +kernel) ⟨by decide +kernel, by decide +kernel,
    .inl (by decide +kernel)⟩))⟩,
   ⟨portUp S0, 0, fr hd0 (bytes 64 5), hd0, by unfold windowOpen arrives; decide +kernel⟩,
   ⟨sem5 (wtgt (portUp S0) 7 3 4 .transfer [⟨4,hOff (BitVec.ofNat 128 (9+2^32*(2+65536*8))) 64,bytes 128 7,7,some 0,
    [],none⟩]) 7, 3, ⟨4,hOff (BitVec.ofNat 128 (9+2^32*(2+65536*8))) 64,bytes 128 7,7,some 0,[],none⟩, default,
    by decide +kernel⟩,
   ⟨withRegs (sem5 (eff (tlb (winOn (portUp S0) 7 1) [L0 0 0]) [.windows 7
    {queue:=[⟨67,bytes 7 5,1,some 0,none⟩],inFlight:=64}]) 7) [(winPage 7,0x110,5+32768)], 7,
    ⟨67,bytes 7 5,1,some 0,none⟩, default, L0 0 0, by decide +kernel⟩⟩

/-- The hypotheses of WindowReadsAreAnswered can be met, clause by clause. -/
theorem witness_window_reads_are_answered :
    (∃ (s : State) (p : Fin 2) (frame : List Byte) (h : Header) (va n : Nat) (data bs : List Byte), arrives s p frame 2
      ∧ h = parseHeader frame ∧ windowOpen s h.window 2 h.src ∧ s.winKind h.window = 1 ∧ h.offset + h.last + 1 ≤
      65536 * s.rfld (winPage h.window) 0x10C 0 16 ∧ h.first ≤ h.last ∧ va = s.reg64 (winPage h.window) 0x104 % 2 ^
      48 + h.offset + h.first ∧ n = h.last + 1 - h.first ∧ readsAs s ⟨.window, (s.unitAt (winUnit h.window)).owner⟩
      0 va data ∧ data.length = n ∧ s.route h.src = p.val + 1 ∧ bs = (List.replicate h.first 0 ++ data ++
      List.replicate 64 0).take ((h.first + n + 63) / 64 * 64) ∧ portFree s p 2 (completionOf s h 0 bs)) ∧
    (∃ (s : State) (p : Fin 2) (frame : List Byte) (h : Header), arrives s p frame 2 ∧ h = parseHeader frame ∧ (¬
      windowOpen s h.window 2 h.src ∨ s.winKind h.window ≠ 1) ∧ s.route h.src = p.val + 1 ∧ portFree s p 2
      (completionOf s h 1 [])) :=
  ⟨⟨(sem5 (tlb (pMem (winOn (withRegs (portUp S0) [(chainPage,0x110,0x10)]) 7 1)) [L0 0 0]) 7), 0, fr
    {hd0 with typ:=2,vc:=1,len:=0,last:=63} [], {hd0 with typ:=2,vc:=1,len:=0,last:=63}, 64, 64, (sem5 (tlb (pMem
    (winOn (withRegs (portUp S0) [(chainPage,0x110,0x10)]) 7 1)) [L0 0 0]) 7).contents 64 64, (sem5 (tlb (pMem (winOn
    (withRegs (portUp S0) [(chainPage,0x110,0x10)]) 7 1)) [L0 0 0]) 7).contents 64 64,
    by unfold arrives; decide +kernel, by decide +kernel, by unfold windowOpen; decide +kernel,
    (four (by decide +kernel) ⟨by decide +kernel, readsAs_of_check (by decide +kernel),
    by decide +kernel, by decide +kernel, by decide +kernel, by unfold portFree; decide +kernel⟩)⟩,
   ⟨withRegs (portUp S0) [(chainPage,0x110,0x10)], 0, fr {hd0 with typ:=2,vc:=1,len:=0,last:=63} [],
    {hd0 with typ:=2,vc:=1,len:=0,last:=63}, by unfold windowOpen portFree arrives; decide +kernel⟩⟩

/-- The hypotheses of ScratchpadsSleepShowAndScrub can be met, clause by clause. -/
theorem witness_scratchpads_sleep_show_and_scrub :
    (∃ (s : State) (a : Fin 32) (m : SpMem) (b : Nat), s.phase = .service ∧ b < memBanks m ∧ s.bankOn a.val m b =
      true ∧ s.rbit (spPage a.val) 0x10C 0 = false ∧ (s.atArrays a.val).arrivals = [] ∧ s.rfld (spPage a.val) 0x100
      0 16 ≠ 0) ∧
    (∃ (s : State) (a : Fin 32) (m : SpMem) (b : Nat), s.phase = .service ∧ b < memBanks m ∧ (s.atArrays
      a.val).waking.contains (memCode m, b) = true) ∧
    (∃ (s : State) (a : Fin 32) (word : Fin 512) (m : SpMem), mayRead s 0 (spPage a.val) ∧ (s.unitAt (arrUnit
      a.val)).state = .held ∧ memOf (s.rfld (spPage a.val) 0x110 0 2) = some m ∧ 128 * s.rfld (spPage a.val) 0x110
      16 14 + 4 * word.val < 128 * memLines m) ∧
    (∃ (s : State) (f : Func) (a : Fin 32), mayRead s f (spPage a.val) ∧ (f ≠ 0 ∨ (s.unitAt (arrUnit a.val)).state ≠
      .held)) ∧
    (∃ (s : State) (a : Fin 32) (addr : Nat), s.phase = .service ∧ s.rbit (spPage a.val) 0x11C 8 = false ∧ addr =
      s.reg64 (spPage a.val) 0x114 % 2 ^ 35 ∧ addr % 2 ^ 21 = 0 ∧ addr + 0x480000 ≤ dataTop ∧ (s.unitAt (arrUnit
      a.val)).state ≠ .rebinding) ∧
    (∃ (s : State) (a : Fin 32) (m : SpMem) (addr which : Nat), s.phase = .service ∧ s.rbit (spPage a.val) 0x11C 8 =
      true ∧ (s.atArrays a.val).dump = some (addr, which) ∧ which.testBit (memCode m) = true ∧ addr % 2 ^ 21 = 0 ∧
      addr + 0x480000 ≤ dataTop ∧ (∀ b, addr / 2048 ≤ b → b < (addr + 0x480000) / 2048 → s.atHeld b = none)) ∧
    (∃ (s : State) (c : Fin 2048), s.phase = .service ∧ (s.atCtxs c.val).state = .retiring ∧ (s.atCtxs
      c.val).scrubbing = true ∧ (s.atCtxs c.val).array < 32 ∧ (s.atArrays (s.atCtxs c.val).array).ctx = some c.val) :=
  ⟨⟨withRegs S0 [(spPage 3,0x100,5),(spPage 3,0x104,0xFFFFFFFF),(spPage 3,0x108,0xFFFFFFFF)], 3, .wm, 0,
    by decide +kernel⟩,
   ⟨arr S0 3 50 {waking:=[(0,2),(1,3)]}, 3, .wm, 2, by decide +kernel⟩,
   ⟨eff (withRegs (eff S0 [.sp (spKey 3 (128*5+9)) 9]) [(spPage 3,0x110,5*65536)]) [.units (unitKey (arrUnit 3))
    {state:=.held}], 3, 2, .wm, by unfold mayRead; decide +kernel⟩,
   ⟨S0, 0, 3, by unfold mayRead; decide +kernel⟩,
   ⟨withRegs S0 [(spPage 3,0x114,0x200000)], 3, 0x200000, by decide +kernel⟩,
   ⟨withRegs (pMem (eff S0 [.sp (spKey 3 7) 5,.sp (spKey 3 (spOff .pm 9)) 6,.arrays 3 { dump := some (0x200000,
    14) }])) [(spPage 3,0x11C,0x10E)], 3, .pm, 0x200000, 14, (four (by decide +kernel) ⟨by decide +kernel,
    by decide +kernel, fun _ _ _ => rfl⟩)⟩,
   ⟨eff (svc S0 .retiring) [.ctxs 50 {(svc S0 .retiring).atCtxs 50 with scrubbing:=true, endStatus:=3}], 50,
    by decide +kernel⟩⟩

/-- The hypotheses of StreamContextJobsDoTheirOps can be met, clause by clause. -/
theorem witness_stream_context_jobs_do_their_ops :
    (∃ (s : State) (f : Func) (n : Fin 8) (d : BitVec 1024) (given body : List Byte) (r : BitVec 512), readyStream s
      f n d 1 ∧ bodyIs s f d given body ∧ body.length = 64 ∧ r = BitVec.ofNat 512 (bytesNat body) ∧ recordOk s f r =
      true ∧ s.boundTo ⟨.pipe, srPipe r⟩ f = true ∧ s.outOfService ⟨.pipe, srPipe r⟩ = false ∧ (((s.onPipe (srPipe
      r)).filter fun e => decide (e.1 ≠ jobTarget d)).map fun e => srLoad e.2.record).sum + srLoad r ≤ 2000000000 *
      256) ∧
    (∃ (s : State) (f : Func) (n : Fin 8) (d : BitVec 1024), readyStream s f n d 2) ∧
    (∃ (s : State) (f : Func) (n : Fin 8) (d : BitVec 1024), readyStream s f n d 3) ∧
    (∃ (s : State) (f : Func) (n : Fin 8) (d : BitVec 1024), readyStream s f n d 4) ∧
    (∃ (s : State) (f : Func) (n : Fin 8) (d : BitVec 1024), readyStream s f n d 5 ∧ jobBodyHost d = true) ∧
    (∃ (s : State) (f : Func) (n : Fin 8) (d : BitVec 1024) (bs : List Byte) (pa : Nat → Nat), readyStream s f n d 5
      ∧ jobBodyHost d = false ∧ bs = natBytes 64 (s.atStreams (jobTarget d)).record.toNat ++ streamStatus s
      (jobTarget d) ∧ writesAt s ⟨.decoder, f⟩ 0 (jobBodyAddr d) bs.length pa) ∧
    (∃ (s : State) (f : Func) (n : Fin 8) (d : BitVec 1024), readyStream s f n d 6) ∧
    (∃ (s : State) (f : Func) (n : Fin 8) (d : BitVec 1024) (given : List Byte) (c : Instr) (op : Nat), ((c =
      .contextConfigure f n d given ∧ op = 1) ∨ (c = .contextStart f n d ∧ op = 2) ∨ (c = .contextStop f n d ∧ op =
      3) ∨ (c = .contextFlush f n d ∧ op = 4) ∨ (c = .contextReset f n d ∧ op = 6)) ∧ readyJob s f n d 3 ∧
      streamRefusal s d = none ∧ streamOp d = op ∧ opAllowed op (s.atStreams (jobTarget d)).state = false) :=
  ⟨⟨JR (strm S0 9 {cause:=4,refs:=[1]}) 0 0 3, 0, 0, sj 1 64 1 4096, natBytes 64 rec0.toNat, natBytes 64 rec0.toNat,
    rec0, by unfold readyStream readyJob; decide +kernel, .inl ⟨by decide +kernel, rfl⟩, by decide +kernel⟩,
   ⟨JR (strm S0 9 {state:=.stopped,record:=rec0,cons:=4,units:=[au 3]}) 0 0 3, 0, 0, sj 2,
    by unfold readyStream readyJob; decide +kernel⟩,
   ⟨JR (strm S0 9 {state:=.running,record:=rec0,cons:=4,units:=[au 3],fetch:=6}) 0 0 3, 0, 0, sj 3,
    by unfold readyStream readyJob; decide +kernel⟩,
   ⟨JR (strm S0 9 {state:=.running,record:=rec0,cons:=4,prod:=4}) 0 0 3, 0, 0, sj 4,
    by unfold readyStream readyJob; decide +kernel⟩,
   ⟨JR (strm S0 9 {state:=.running,record:=rec0,cons:=4,prod:=4}) 0 0 3, 0, 0, sj 5 128 1 8192,
    by unfold readyStream readyJob; decide +kernel⟩,
   ⟨JR (tlb (strm S0 9 {state:=.running,record:=rec0,cons:=4,prod:=4}) [L0 0 0]) 0 0 3, 0, 0, sj 5 128 0 100, natBytes 64
    rec0.toNat ++ streamStatus (strm S0 9 {state:=.running,record:=rec0,cons:=4,prod:=4}) 9, (100 + ·),
    by unfold readyStream readyJob; decide +kernel, by decide +kernel, by decide +kernel, writesAt_of_check
    (by decide +kernel)⟩,
   ⟨JR (strm S0 9 {state:=.running,record:=rec0,cons:=4,prod:=4,units:=[au 4],cur:=some ⟨0,au 3,4⟩}) 0 0 3, 0, 0, sj 6,
    by unfold readyStream readyJob; decide +kernel⟩,
   ⟨JR (strm S0 9 {state:=.running,record:=rec0,cons:=4,prod:=4}) 0 0 3, 0, 0, sj 2, [],
    .contextStart 0 0 (sj 2), 2, .inr (.inl ⟨rfl, rfl⟩), by unfold readyJob; decide +kernel⟩⟩

/-- An access unit that is selected: the hypotheses of the clause on DECODE_SELECT can be met. -/
theorem unit_selected :
    (∃ (s : State) (p : Fin 16) (now : Dword) (c : Fin 1024) (st : StreamSt) (u : AccessUnit) (l : List AccessUnit)
      (k va : Nat) (bs : List Byte), s.phase = .service ∧ s.time ≤ now ∧ (s.unitAt ⟨.pipe, p.val⟩).state = .bound ∧
      st = s.atStreams c.val ∧ s.onPipe p.val = [(c.val, st)] ∧ st.cur = none ∧ (st.state = .running ∨ st.state =
      .resync) ∧ st.stopping = false ∧ st.units = u :: l ∧ (s.unitAt (streamUnit c.val)).state = .bound ∧ ({ s with
      time := now } : State).backlog p.val ≤ 1000000 * max 1 (s.rfld (pipePage p.val) 0x100 0 8) ∧ k < srSlots
      st.record ∧ (∀ j, j < k → st.refs.contains j = true) ∧ st.refs.contains k = false ∧ va = srTable st.record +
      32 * k + 0x10 ∧ readsAs s ⟨.decoder, (s.unitAt (streamUnit c.val)).owner⟩ 0 va bs ∧ bs.length = 4 ∧ signedOf
      (bytesNat bs) 32 ≤ 0) :=
  ⟨tlb (strm S0 9 {state:=.running,record:=rec0,prod:=5,units:=[au 3],refs:=[0]}) [L0 0 0], 2, 7, 9,
    {state:=.running,record:=rec0,prod:=5,units:=[au 3],refs:=[0]}, au 3, [], 1, 48, [0,0,0,0], rfl,
    by decide +kernel, by decide +kernel, rfl, by decide +kernel, rfl,
    .inl rfl, rfl, rfl, (four (by decide +kernel) ⟨rfl,
    by decide +kernel, readsAs_of_check (by decide +kernel), by decide +kernel⟩)⟩

/-- A picture that is written: the hypotheses of the clause on PICTURE_WRITTEN can be met. -/
theorem picture_stored :
    (∃ (s : State) (p : Fin 16) (pic : Picture) (c : Fin 1024) (st : StreamSt) (cur : Decoding) (u : AccessUnit) (l
      : List AccessUnit) (ps pt : Nat → Nat) (f : Func), s.phase = .service ∧ st = s.atStreams c.val ∧ s.onPipe
      p.val = [(c.val, st)] ∧ st.cur = some cur ∧ pic.damaged = [] ∧ pic.causes = [] ∧ (pic.uses.any fun k => st.tainted.contains k) =
      false ∧ (∀ k ∈ pic.uses, ∃ bs, bs.length = srSlotSize st.record ∧ readsAs s ⟨.decoder, f⟩ 0 (srPool st.record
      + k * srSlotSize st.record) bs) ∧ st.units = u :: l ∧ (∀ x, l.head? = some x → x.dropped = false) ∧ u.eos =
      false ∧ st.stopping = false ∧ st.flushTo = none ∧ f = (s.unitAt (streamUnit c.val)).owner ∧ writesAt s
      ⟨.decoder, f⟩ 0 (srPool st.record + cur.slot * srSlotSize st.record) (srSlotSize st.record) ps ∧ writesAt s
      ⟨.decoder, f⟩ 0 (srTable st.record + 32 * cur.slot) 32 pt ∧ (∀ i j, i < srSlotSize st.record → j < 32 → ps i ≠
      pt j)) :=
  ⟨{ sem5 (strm S0 9
    {state:=.running,record:=rec0 ||| D5 [(320,12,5),(335,1,1)],prod:=5,units:=[au 3,au 4],cur:=some ⟨1,au 3,8⟩}) 5 with
      tlb := ⟨[(49, L0 65536 65536), (49, L0 0 0)], []⟩ }, 2, pic0, 9,
    {state:=.running,record:=rec0 ||| D5 [(320,12,5),(335,1,1)],prod:=5,units:=[au 3,au 4],cur:=some ⟨1,au 3,8⟩},
    ⟨1,au 3,8⟩, au 3, [au 4], (65536+6144 + ·), (32 + ·), 0, rfl, by decide +kernel, by decide +kernel, rfl, rfl,
    rfl, rfl, fun _ h => absurd h List.not_mem_nil,
    by decide +kernel, by decide +kernel, rfl, rfl, rfl, by decide +kernel, writesAt_of_check (by decide +kernel),
    writesAt_of_check (by decide +kernel), fun _ _ _ hj h => absurd (show 65536 + 6144 + _ = 32 + _ from h) (by omega)⟩

/-- The hypotheses of AccessUnitsBecomePictures can be met, clause by clause. -/
theorem witness_access_units_become_pictures :
    (∃ (s : State) (c : Fin 1024) (entry : BitVec 256) (i : UnitInfo) (st : StreamSt), s.phase = .service ∧ st =
      s.atStreams c.val ∧ streamFetches s c.val = true ∧ bit entry 89 = false ∧ fld entry 64 24 ≠ 0 ∧ fld entry 90 6
      = 0 ∧ fld entry 96 32 = 0 ∧ fld entry 224 32 = 0 ∧ (st.state = .running ∨ i.irap = true) ∧ (∀ u ∈ st.units,
      u.dropped = false)) ∧
    (∃ (s : State) (c : Fin 1024) (entry : BitVec 256) (i : UnitInfo) (st : StreamSt), s.phase = .service ∧ st =
      s.atStreams c.val ∧ streamFetches s c.val = true ∧ bit entry 89 = false ∧ fld entry 64 24 ≠ 0 ∧ fld entry 90 6
      = 0 ∧ fld entry 96 32 = 0 ∧ fld entry 224 32 = 0 ∧ st.state = .resync ∧ i.irap = false ∧ st.units = [] ∧
      st.cur = none) ∧
    (∃ (s : State) (c : Fin 1024) (entry : BitVec 256) (st : StreamSt), s.phase = .service ∧ st = s.atStreams c.val
      ∧ streamFetches s c.val = true ∧ bit entry 89 = false ∧ (fld entry 64 24 = 0 ∨ fld entry 90 6 ≠ 0 ∨ fld entry
      96 32 ≠ 0 ∨ fld entry 224 32 ≠ 0) ∧ st.units = [] ∧ st.cur = none ∧ (st.state = .running ∨ st.state =
      .resync)) ∧
    (∃ (s : State) (p : Fin 16) (now : Dword) (c : Fin 1024) (st : StreamSt) (u : AccessUnit) (l : List AccessUnit)
      (k va : Nat) (bs : List Byte), s.phase = .service ∧ s.time ≤ now ∧ (s.unitAt ⟨.pipe, p.val⟩).state = .bound ∧
      st = s.atStreams c.val ∧ s.onPipe p.val = [(c.val, st)] ∧ st.cur = none ∧ (st.state = .running ∨ st.state =
      .resync) ∧ st.stopping = false ∧ st.units = u :: l ∧ (s.unitAt (streamUnit c.val)).state = .bound ∧ ({ s with
      time := now } : State).backlog p.val ≤ 1000000 * max 1 (s.rfld (pipePage p.val) 0x100 0 8) ∧ k < srSlots
      st.record ∧ (∀ j, j < k → st.refs.contains j = true) ∧ st.refs.contains k = false ∧ va = srTable st.record +
      32 * k + 0x10 ∧ readsAs s ⟨.decoder, (s.unitAt (streamUnit c.val)).owner⟩ 0 va bs ∧ bs.length = 4 ∧ signedOf
      (bytesNat bs) 32 ≤ 0) ∧
    (∃ (s : State) (p : Fin 16) (pic : Picture) (c : Fin 1024) (st : StreamSt) (cur : Decoding) (u : AccessUnit) (l
      : List AccessUnit) (ps pt : Nat → Nat) (f : Func), s.phase = .service ∧ st = s.atStreams c.val ∧ s.onPipe
      p.val = [(c.val, st)] ∧ st.cur = some cur ∧ pic.damaged = [] ∧ pic.causes = [] ∧ (pic.uses.any fun k => st.tainted.contains k) =
      false ∧ (∀ k ∈ pic.uses, ∃ bs, bs.length = srSlotSize st.record ∧ readsAs s ⟨.decoder, f⟩ 0 (srPool st.record
      + k * srSlotSize st.record) bs) ∧ st.units = u :: l ∧ (∀ x, l.head? = some x → x.dropped = false) ∧ u.eos =
      false ∧ st.stopping = false ∧ st.flushTo = none ∧ f = (s.unitAt (streamUnit c.val)).owner ∧ writesAt s
      ⟨.decoder, f⟩ 0 (srPool st.record + cur.slot * srSlotSize st.record) (srSlotSize st.record) ps ∧ writesAt s
      ⟨.decoder, f⟩ 0 (srTable st.record + 32 * cur.slot) 32 pt ∧ (∀ i j, i < srSlotSize st.record → j < 32 → ps i ≠
      pt j)) :=
  ⟨⟨strm S0 9 {state:=.running,record:=rec0,prod:=5,units:=[au 3],fetch:=4294967295}, 9, BitVec.ofNat 256 (77*2^64+2^88*1+99*2^128+2^192*5), ⟨false,true,none⟩,
    {state:=.running,record:=rec0,prod:=5,units:=[au 3],fetch:=4294967295}, by decide +kernel⟩,
   ⟨strm S0 9 {state:=.resync,record:=rec0,prod:=5,fetch:=4294967295}, 9, BitVec.ofNat 256 (77*2^64+2^88*1+99*2^128+2^192*5), ⟨false,false,none⟩,
    {state:=.resync,record:=rec0,prod:=5,fetch:=4294967295}, by decide +kernel⟩,
   ⟨strm S0 9 {state:=.resync,record:=rec0,prod:=5,fetch:=4294967295}, 9, BitVec.ofNat 256 (2^88+99*2^128),
    {state:=.resync,record:=rec0,prod:=5,fetch:=4294967295}, by decide +kernel⟩,
   unit_selected, picture_stored⟩

/-- The hypotheses of BatchJobsEnterTheTable can be met, clause by clause. -/
theorem witness_batch_jobs_enter_the_table :
    (∃ (s : State) (f : Func) (n : Fin 8) (d : BitVec 1024) (body : List Byte) (es : List (BitVec 512)), readyJob s
      f n d 1 ∧ jobClass d = 0 ∧ batchRefusal s f d = none ∧ bjCop d = 0 ∧ readsAs s (jobClient f) (bjAsid d)
      (jobBodyAddr d) body ∧ body.length = jobBodyLen d ∧ es = bodyEntries body ∧ es.findSome? (entryRefusal s f 0)
      = none) ∧
    (∃ (s : State) (f : Func) (n : Fin 8) (d : BitVec 1024) (lane : Nat) (body : List Byte) (b : BitVec 512) (r :
      LaneRec), readyJob s f n d 1 ∧ jobClass d = 1 ∧ batchRefusal s f d = none ∧ bjCop d = 0 ∧ bjLane d = some lane
      ∧ readsAs s (jobClient f) (bjAsid d) (jobBodyAddr d) body ∧ body.length = 64 ∧ b = BitVec.ofNat 512 (bytesNat
      body) ∧ entryRefusal s f 1 b = none ∧ r = { s.atLanes lane with
        full := some b, cop := none, asid := bjAsid d, ring := jobRing d, job := s.jobNext, jobRing := n.val,
        notBefore := jobNotBefore d }) ∧
    (∃ (s : State) (f : Func) (n : Fin 8) (d : BitVec 1024) (code : Nat), readyJob s f n d 1 ∧ batchRefusal s f d =
      some code) :=
  ⟨⟨JR (tlb (raw S0 0 (ebody body0 ++ ebody (body0 ||| D5 [(448,1,1)]))) [L0 0 0]) 0 0 3, 0, 0, bjd 128, (ebody body0 ++
    ebody (body0 ||| D5 [(448,1,1)])), [body0, body0 ||| D5 [(448,1,1)]], by unfold readyJob; decide +kernel,
    by decide +kernel, by decide +kernel, by decide +kernel, readsAs_of_check (by decide +kernel), by decide +kernel,
    by decide +kernel, by decide +kernel⟩,
   ⟨JR (boundU (tlb (raw S0 0 (ebody rb1)) [L0 0 0]) ⟨.videoPair,2⟩ 0) 0 0 3, 0, 0, bjd 64 1 (some 1028), 1028, ebody
    rb1, rb1, {full:=some rb1,job:=S0.jobNext,jobRing:=0}, by unfold readyJob; decide +kernel,
    (four (by decide +kernel) ⟨readsAs_of_check (by decide +kernel), by decide +kernel⟩)⟩,
   ⟨JR S0 0 0 3, 0, 0, bjd 63, 0x0911, by unfold readyJob; decide +kernel⟩⟩

/-- The hypotheses of FreeArraysTakeWork can be met, clause by clause. -/
theorem witness_free_arrays_take_work :
    (∃ (s u : State) (a : Fin 32) (n c : Nat) (e0 e : EntryRec) (bs : List Byte) (map : List (Nat × BitVec 128)),
      s.phase = .service ∧ (s.unitAt (arrUnit a.val)).state = .bound ∧ (s.unitAt (arrUnit a.val)).felled = false ∧
      (s.unitAt (arrUnit a.val)).standing = false ∧ (s.atArrays a.val).ctx = none ∧ (s.atArrays a.val).reserved =
      none ∧ s.rbit schedPage 0x010 8 = false ∧ u = run rangePass s ∧ u.takes a.val (s.unitAt (arrUnit a.val)).owner
      = some (.entry n) ∧ u.atEntries n = some e0 ∧ u.freeCtxNo = some c ∧ e = rungBody u e0 ∧ claimsBound u e.func
      (entryBody e) = true ∧ readsAs u (jobClient e.func) e.asid (bodyHmap (entryBody e)) bs ∧ bs.length = 1024 ∧
      map = mapOf bs ∧ mapFailure u e.func map = none ∧ (e.cls = 0 → 4096 + liveBytes map ≤ 1024 * bodySaveKib
      (entryBody e)) ∧ sleepingBanks u a.val map = []) ∧
    (∃ (s u : State) (a : Fin 32) (n : Nat) (e : EntryRec), s.phase = .service ∧ (s.unitAt (arrUnit a.val)).state =
      .bound ∧ (s.unitAt (arrUnit a.val)).felled = false ∧ (s.unitAt (arrUnit a.val)).standing = false ∧ (s.atArrays
      a.val).ctx = none ∧ (s.atArrays a.val).reserved = none ∧ s.rbit schedPage 0x010 8 = false ∧ u = run rangePass
      s ∧ u.takes a.val (s.unitAt (arrUnit a.val)).owner = some (.entry n) ∧ u.atEntries n = some e ∧ claimsBound u
      e.func (entryBody (rungBody u e)) = false) ∧
    (∃ (s u : State) (a : Fin 32) (c : Nat), s.phase = .service ∧ (s.unitAt (arrUnit a.val)).state = .bound ∧
      (s.unitAt (arrUnit a.val)).felled = false ∧ (s.atArrays a.val).ctx = none ∧ s.rbit schedPage 0x010 8 = false ∧
      (s.atCtxs c).state = .saved ∧ u = run rangePass s ∧ (((s.atArrays a.val).reserved = some c ∧ u.canTake a.val
      (.saved c) = true) ∨ ((s.atArrays a.val).reserved = none ∧ (s.unitAt (arrUnit a.val)).standing = false ∧
      u.takes a.val (s.unitAt (arrUnit a.val)).owner = some (.saved c)))) :=
  ⟨⟨queued0 body0, run rangePass (queued0 body0), 3, 900, 0, {entT with body:=body0}, {entT with body:=body0}, hmapBytes,
    mapOf hmapBytes, (four (by decide +kernel) (four (by decide +kernel) (four (by decide +kernel) ⟨by decide +kernel,
    readsAs_of_check (by decide +kernel), by decide +kernel⟩)))⟩,
   ⟨queued0 bodyQ, run rangePass (queued0 bodyQ), 3, 900, {entT with body:=bodyQ}, by decide +kernel⟩,
   ⟨eff (saved0 .saved 3) [.arrays 3 {}], run rangePass (eff (saved0 .saved 3) [.arrays 3 {}]), 3, 50,
    by decide +kernel⟩⟩

/-- The image is the one that context 50 is restored from. -/
theorem image_ok : imageOk (saved0 .restoring 4) ((saved0 .restoring 4).atCtxs 50) 50 img0 = true := by
  simp only [imageOk, imageCrc, crc_eq]
  decide +kernel

/-- The hypotheses of the clause on CONTEXT_RESTORE_DONE can be met. -/
theorem context_restored :
    (∃ (s : State) (c : Fin 2048) (r : CtxRec) (v : SavedCtx) (e : EntryRec) (bs : List Byte) (map : List (Nat ×
      BitVec 128)), s.phase = .service ∧ r = s.atCtxs c.val ∧ r.state = .restoring ∧ r.saved
      = some v ∧ s.atEntries r.entry = some e ∧ r.array < 32 ∧ readsAs s ⟨.restore, r.func⟩ r.asid v.image bs ∧
      bs.length = v.size ∧ map = mapOf (sliceBytes bs 0x100 1024) ∧ imageOk s r c.val bs = true ∧ mapFailure s
      r.func map = none ∧ bs.length = 4096 + liveBytes map ∧ (s.atArrays r.array).arrivals = []) :=
  ⟨saved0 .restoring 4, 50, (saved0 .restoring 4).atCtxs 50, sv0,
    {entT with body := body0, state:=.running, ctx:=some 50}, img0, mapOf hmapBytes,
    (four (by decide +kernel) ⟨by decide +kernel, by decide +kernel, readsAs_of_check
    (by decide +kernel), by decide +kernel, by decide +kernel,
    image_ok, by decide +kernel, by decide +kernel, by decide +kernel⟩)⟩

/-- The hypotheses of ContextsAreSavedRestoredAndTornDown can be met, clause by clause. -/
theorem witness_contexts_are_saved_restored_and_torn_down :
    (∃ (s : State) (c : Fin 2048) (r : CtxRec) (e : EntryRec) (l : Leaf) (va : Nat), s.phase = .service ∧ r =
      s.atCtxs c.val ∧ r.state = .saving ∧ (∀ i ∈ ctxEngines r, (s.atEngines i).reqs = []) ∧ s.atEntries r.entry =
      some e ∧ va = bodySave (entryBody e) ∧ va % 65536 = 0 ∧ (∀ i, i < 65536 → standingLeaf s ⟨.restore, r.func⟩
      r.asid (va + i) = some l) ∧ 16 ≤ l.shift ∧ l.coding = .plain ∧ (∀ x n, permitted l ⟨.restore, r.func⟩ .write x
      n = true) ∧ 4096 + s.htLive r.array ≤ 65536 ∧ leafAddr l va + 65536 ≤ dataTop ∧ r.array < 32 ∧ (∀ i, i < 65536 → s.atHeld (leafAddr l (va + i) / 2048) = none) ∧
      ((s.validHandles r.array).filter fun x => !hTransient x.2) ≠ []) ∧
    (∃ (s : State) (c : Fin 2048) (r : CtxRec) (e : EntryRec) (l : Leaf) (va : Nat) (p : SpMem × Nat), s.phase =
      .service ∧ r = s.atCtxs c.val ∧ r.state = .saving ∧ (∀ i ∈ ctxEngines r, (s.atEngines i).reqs = []) ∧
      s.atEntries r.entry = some e ∧ e.strip = none ∧ va = bodySave (entryBody e) ∧ va % 65536 = 0 ∧ (∀ i, i < 65536
      → standingLeaf s ⟨.restore, r.func⟩ r.asid (va + i) = some l) ∧ 16 ≤ l.shift ∧ l.coding = .plain ∧ (∀ x n,
      permitted l ⟨.restore, r.func⟩ .write x n = true) ∧ 4096 + s.htLive r.array ≤ 65536 ∧ leafAddr l va + 65536 ≤
      dataTop ∧ r.array < 32 ∧ (Instr.contextSaveDone c (some p)).wf = true) ∧
    (∃ (s : State) (c : Fin 2048) (r : CtxRec) (v : SavedCtx) (e : EntryRec) (bs : List Byte) (map : List (Nat ×
      BitVec 128)), s.phase = .service ∧ r = s.atCtxs c.val ∧ r.state = .restoring ∧ r.saved = some v ∧ s.atEntries
      r.entry = some e ∧ r.array < 32 ∧ readsAs s ⟨.restore, r.func⟩ r.asid v.image bs ∧ bs.length = v.size ∧ map =
      mapOf (sliceBytes bs 0x100 1024) ∧ imageOk s r c.val bs = true ∧ mapFailure s r.func map = none ∧ bs.length =
      4096 + liveBytes map ∧ (s.atArrays r.array).arrivals = []) ∧
    (∃ (s : State) (c : Fin 2048) (r : CtxRec), s.phase = .service ∧ r = s.atCtxs c.val ∧ r.state = .retiring ∧
      r.faulted = true ∧ r.scrubbing = false) :=
  ⟨⟨svc S0 .saving, 50, (svc S0 .saving).atCtxs 50, { entT with body := body0, state := .running, ctx := some 50 },
    L0 65536 65536, 65536, rfl, rfl, (four (by decide +kernel) ⟨by decide +kernel,
    walker_leaf rfl rfl (by decide +kernel), by decide +kernel, rfl, fun _ _ => rfl, by decide +kernel,
    by decide +kernel, by decide +kernel, fun _ _ => rfl, by decide +kernel⟩)⟩,
   ⟨svc S0 .saving, 50, (svc S0 .saving).atCtxs 50, { entT with body := body0, state := .running, ctx := some 50 },
    L0 65536 65536, 65536, (.am, 3), rfl, rfl, by decide +kernel, by decide +kernel, by decide +kernel, rfl,
    by decide +kernel, by decide +kernel, walker_leaf rfl rfl (by decide +kernel), by decide +kernel, rfl,
    fun _ _ => rfl,
    by decide +kernel⟩,
   context_restored,
   ⟨eff (aeng S0 6 (mid (sd0 4096 (4*2^21) 8)))
    [.ctxs 50 {state:=.retiring,faulted:=true,array:=3}], 50, {state:=.retiring,faulted:=true,array:=3},
    by decide +kernel⟩⟩

/-- The hypotheses of TheRangerMovesLanesAndCountsSlowdown can be met, clause by clause. -/
theorem witness_the_ranger_moves_lanes_and_counts_slowdown :
    (∃ (s u : State) (now : Dword) (n l : Nat) (e : EntryRec) (j : Job) (b : BitVec 512), s.phase = .service ∧ s.time ≤
      now ∧ u = { s with time := now } ∧ s.entries = [(n, some e)] ∧ e.lane = some l ∧ e.cls = 0 ∧ e.deadline ≠ 0 ∧
      e.state = .queued ∧ e.usesCop = false ∧ e.cop = some b ∧ (s.atLanes l).rung = 0 ∧ (s.atLanes l).force = false
      ∧ s.atJobs e.job = some j ∧ bjCop j.desc ≠ 0 ∧ projectsLate u e 0 ((List.range 32).filter fun a => s.serves a
      0 e.func).length (bodyEst (entryBody e)) = true) ∧
    (∃ (s : State), s.phase = .service ∧ (∀ x ∈ s.entries, ∀ e, x.2 = some e → e.deadline = 0)) ∧
    (∃ (s : State) (now : Dword) (n : Nat) (e : EntryRec), s.phase = .service ∧ s.time ≤ now ∧ s.atEntries n = some e ∧
      e.cls = 0 ∧ (e.state = .queued ∨ e.state = .waiting) ∧ e.strip = none ∧ e.deadline ≠ 0 ∧ e.deadline ≤
      now.toNat) ∧
    (∃ (s : State) (f : Func) (lane : Nat), mayWrite s f schedPage ∧ lane < 2048) ∧
    (∃ (s : State), s.phase = .service) :=
  ⟨⟨eff (boundU S0 (arrUnit 3) 0) [.entries 900 (some
    {ent0 with lane:=some 7, deadline:=50, body:=body0, cop:=some 0}),.jobs 900 (some ⟨0,0,bjd 64 ||| D
    [(8*0x44,48,4096)],[],true⟩)],
    {eff (boundU S0 (arrUnit 3) 0) [.entries 900 (some {ent0 with lane:=some 7, deadline:=50, body:=body0, cop:=some 0}),.jobs 900 (some ⟨0,0,bjd 64 ||| D [(8*0x44,48,4096)],[],true⟩)] with time:=70},
    70, 900, 7, {ent0 with lane:=some 7, deadline:=50, body:=body0, cop:=some 0}, ⟨0,0,bjd 64 ||| D
    [(8*0x44,48,4096)],[],true⟩, 0, by decide +kernel⟩,
   ⟨S0, by decide +kernel⟩,
   ⟨eff S0 [.entries 900 (some {ent0 with deadline:=7})], 7, 900, {ent0 with deadline:=7}, by decide +kernel⟩,
   ⟨S0, 0, 5, by unfold mayWrite; decide +kernel⟩,
   ⟨withRegs (eff S0 [.classCounts 0 {done:=5,late:=3,spent:=3,est:=3}]) [(schedPage,0x11C,0)], by decide +kernel⟩⟩

/-- The hypotheses of DeviceTimeIsSetOncePerPowerOn can be met, clause by clause. -/
theorem witness_device_time_is_set_once_per_power_on :
    (∃ (s : State), mayWrite s 0 tbPage ∧ s.evLockedAny = false ∧ s.rbit tbPage 0x100 0 = false ∧ s.tb.setUsed =
      false ∧ s.time.toNat ≤ s.reg64 tbPage 0x10C) ∧
    (∃ (s : State), mayWrite s 0 tbPage ∧ s.evLockedAny = false ∧ s.rbit tbPage 0x100 0 = false ∧ (s.tb.setUsed =
      true ∨ s.reg64 tbPage 0x10C < s.time.toNat)) :=
  ⟨⟨withRegs {S0 with time := 5} [(tbPage,0x10C,900)], by unfold mayWrite; decide +kernel⟩,
   ⟨withRegs {S0 with time := 5} [(tbPage,0x10C,4)], by unfold mayWrite; decide +kernel⟩⟩

/-- The hypotheses of TimeAndTheMainsAreTracked can be met, clause by clause. -/
theorem witness_time_and_the_mains_are_tracked :
    (∃ (s : State) (now : Dword), s.phase = .service ∧ s.rbit tbPage 0x100 0 = true ∧ s.time ≤ now) ∧
    (∃ (s : State), s.phase = .service ∧ s.rbit tbPage 0x100 0 = true) ∧
    (∃ (s : State), s.phase = .service ∧ s.rbit tbPage 0x100 0 = false) ∧
    (∃ (s : State) (now e : Dword) (p : Nat), s.phase = .service ∧ s.mainsOn = true ∧ s.time ≤ now ∧ s.tb.lastEdge =
      some e ∧ p = now.toNat - e.toNat ∧ 10 ^ 9 ≤ 66 * p ∧ 45 * p ≤ 10 ^ 9) ∧
    (∃ (s : State) (now e : Dword) (p : Nat), s.phase = .service ∧ s.mainsOn = true ∧ s.time ≤ now ∧ s.tb.lastEdge =
      some e ∧ p = now.toNat - e.toNat ∧ (66 * p < 10 ^ 9 ∨ 10 ^ 9 < 45 * p)) ∧
    (∃ (s : State) (now : Dword), s.phase = .service ∧ s.mainsOn = true ∧ s.time ≤ now ∧ s.meanPeriod.1 ≠ 0) ∧
    (∃ (s : State) (now e : Dword), s.phase = .service ∧ s.mainsOn = true ∧ s.time ≤ now ∧ s.tb.missed = false ∧
      s.tb.lastEdge = some e ∧ 5 * s.meanPeriod.1 ≤ 4 * s.meanPeriod.2 * (now.toNat - e.toNat)) ∧
    (∃ (s : State) (now : Dword), s.phase ≠ .held ∧ s.rbit tbPage 0x140 0 = false ∧ s.time ≤ now) ∧
    (∃ (s : State), s.phase ≠ .held ∧ s.rbit tbPage 0x140 0 = true) ∧
    (∃ (s : State), s.phase ≠ .held ∧ s.rbit tbPage 0x140 0 = false) ∧
    (∃ (s : State), s.phase = .held) :=
  ⟨⟨withRegs {S0 with time := 5, tb := {S0.tb with ptmFirst := false, ptmFails := 3}} [(tbPage,0x100,1)], 7,
    by decide +kernel⟩,
   ⟨withRegs {S0 with time := 5, tb := {S0.tb with ptmFirst := false, ptmFails := 0}} [(tbPage,0x100,1)],
    by decide +kernel⟩,
   ⟨S0, by decide +kernel⟩,
   ⟨withRegs
    {S0 with time := 0, tb := {S0.tb with lastEdge := some 1000, periods := [20000000,20000000], streak := 3, cross := some 4}}
    [(tbPage,0x100,2),(tbPage,0x120,100)], 20001000, 1000, 20000000, by decide +kernel⟩,
   ⟨withRegs
    {S0 with time := 0, tb := {S0.tb with lastEdge := some 1000, periods := [20000000], streak := 3, cross := some 4}}
    [(tbPage,0x100,2),(tbPage,0x120,100)], 1100, 1000, 100, by decide +kernel⟩,
   ⟨withRegs
    {S0 with time := 0, tb := {S0.tb with lastEdge := some 1000, periods := [20000000], streak := 3, cross := some 1000}}
    [(tbPage,0x100,2),(tbPage,0x120,100)], 10001000, by decide +kernel⟩,
   ⟨withRegs
    {S0 with time := 0, tb := {S0.tb with lastEdge := some 1000, periods := [20000000,20000000], streak := 3, cross := some 1000}}
    [(tbPage,0x100,2),(tbPage,0x120,100)], 26000000, 1000, by decide +kernel⟩,
   ⟨S0, 77, by decide +kernel⟩,
   ⟨withRegs S0 [(tbPage,0x140,1),(tbPage,0x148,5)], by decide +kernel⟩,
   ⟨withRegs {S0 with tb := {S0.tb with pfwBlock := true, roseAt := 5}} [(tbPage,0x144,2)], by decide +kernel⟩,
   ⟨{S0 with phase := .held}, rfl⟩⟩

/-- The hypotheses of TimedActionsArmDisarmAndAct can be met, clause by clause. -/
theorem witness_timed_actions_arm_disarm_and_act :
    (∃ (s : State) (f : Func) (n : Fin 256) (c : Word), mayWrite s f (taPage n.val) ∧ fld c 0 2 ≠ 0 ∧ taRefusal s
      n.val c = none ∧ ¬ (fld c 0 2 = 3 ∧ s.taTime n.val < s.time.toNat)) ∧
    (∃ (s : State) (f : Func) (n : Fin 256) (c : Word) (code : Nat), mayWrite s f (taPage n.val) ∧ fld c 0 2 ≠ 0 ∧ taRefusal
      s n.val c = some code) ∧
    (∃ (s : State) (f : Func) (n : Fin 256), mayWrite s f (taPage n.val)) ∧
    (∃ (s : State) (f : Func) (n : Fin 256), mayRead s f (taPage n.val)) ∧
    (∃ (s : State) (n : Fin 256) (now : Dword), dueAction s n now 2 ∧ s.semBound (s.taArg n.val 0 12) (s.taFunc
      n.val) = true) ∧
    (∃ (s : State) (n : Fin 256) (now : Dword) (f : Func), dueAction s n now 3 ∧ f = s.taFunc n.val ∧ evrOn s f 0 =
      true ∧ evrFull s f 0 = false) ∧
    (∃ (s : State) (n : Fin 256) (now : Dword) (off : Nat), dueAction s n now 4 ∧ off = 0x200 + 32 * s.taArg n.val 0
      4) ∧
    (∃ (s : State) (n : Fin 256) (now : Dword) (a : Fin 32), dueAction s n now 1 ∧ s.taArg n.val 0 12 = qntPage
      a.val ∧ mayWrite s (s.taFunc n.val) (qntPage a.val) ∧ s.pageState (qntPage a.val) = .bound ∧ s.atCommits
      (qntPage a.val) = none ∧ commitRefusal s (qntPage a.val) (s.pageSnap (qntPage a.val)) = none) ∧
    (∃ (s : State) (n : Fin 256) (now : Dword) (c : Instr), (c = .taFireCommit n now ∨ c = .taFireSignal n now ∨ c =
      .taFireEvent n now ∨ c = .taFireSnapshot n now) ∧ s.taArmed n.val = false) :=
  ⟨⟨ta { S0 with time := 9 } 3 0 0 20, 0, 3, 3, by unfold mayWrite; decide +kernel⟩,
   ⟨ta S0 3 0 0, 0, 3, 161, 0x0A10, by unfold mayWrite; decide +kernel⟩,
   ⟨ta (S0) 3 (7) (0) (0) (1), 0, 3, by unfold mayWrite; decide +kernel⟩,
   ⟨ta (S0) 3 (589825) (0) (0) (0xABCD000F), 0, 3, by unfold mayRead; decide +kernel⟩,
   ⟨ta (sem5 S0 0xFFFFFFFF) 3 (3+32*2) (589829) (50) (0xFFFF0001), 3, 60, by unfold dueAction; decide +kernel⟩,
   ⟨ta (evOn 0 5 S0) 3 (3+32*3) (5) (50) (1), 3, 60, 0, by unfold dueAction; decide +kernel⟩,
   ⟨ta (S0) 3 (3+32*4) (3) (50) (1), 3, 60, 0x260, by unfold dueAction; decide +kernel⟩,
   ⟨ta (boundU S0 (arrUnit 3) 0) 3 (3+32*1) (qntPage 3) (50) (1), 3, 60, 3, by unfold mayWrite dueAction; decide +kernel⟩,
   ⟨ta (S0) 3 (3+32*1) (5) (50) (0), 3, 60, .taFireCommit 3 60, by decide +kernel⟩⟩

/-- The hypotheses of GroupCommitsPendAndLatch can be met, clause by clause. -/
theorem witness_group_commits_pend_and_latch :
    (∃ (s u : State) (f : Func) (page : Nat) (o : Fin 4) (seq : BitVec 24), mayWrite s f page ∧ outOfPage page =
      some o.val ∧ u = run (setRegN page 0x030 (256 * seq.toNat)) s ∧ ((s.atOuts o.val).pend.isSome = true ∨
      (s.atOuts o.val).latched.isSome = true)) ∧
    (∃ (s u : State) (f : Func) (page : Nat) (o : Fin 4) (seq : BitVec 24) (code : Nat), mayWrite s f page ∧ outOfPage page
      = some o.val ∧ u = run (setRegN page 0x030 (256 * seq.toNat)) s ∧ (s.atOuts o.val).pend = none ∧ (s.atOuts
      o.val).latched = none ∧ groupRefusal u (u.groupSnap o.val) o.val = some code) ∧
    (∃ (s u : State) (f : Func) (page : Nat) (o : Fin 4) (seq : BitVec 24), mayWrite s f page ∧ outOfPage page =
      some o.val ∧ u = run (setRegN page 0x030 (256 * seq.toNat)) s ∧ (s.atOuts o.val).pend = none ∧ (s.atOuts
      o.val).latched = none ∧ groupRefusal u (u.groupSnap o.val) o.val = none ∧ s.scanning o.val = true) ∧
    (∃ (s u : State) (f : Func) (page : Nat) (o : Fin 4) (seq : BitVec 24) (g : GroupCommit) (l : List Nat),
      mayWrite s f page ∧ outOfPage page = some o.val ∧ u = run (setRegN page 0x030 (256 * seq.toNat)) s ∧ (s.atOuts
      o.val).pend = none ∧ (s.atOuts o.val).latched = none ∧ groupRefusal u (u.groupSnap o.val) o.val = none ∧
      s.scanning o.val = false ∧
      g = { seq := seq, snap := u.groupSnap o.val, aon := u.rbit (compPage o.val) 0x010 8, late := false,
            deferred := false, since := u.frameOf o.val, pages := groupPages o.val (u.groupSnap o.val) } ∧ l = notReady u g ∧ g.aon = true ∧ l ≠ [] ∧ (∀ i ∈ l, u.fenceBound g i = true)) ∧
    (∃ (s u : State) (f : Func) (page : Nat) (o : Fin 4) (seq : BitVec 24) (g : GroupCommit) (l : List Nat),
      mayWrite s f page ∧ outOfPage page = some o.val ∧ u = run (setRegN page 0x030 (256 * seq.toNat)) s ∧ (s.atOuts
      o.val).pend = none ∧ (s.atOuts o.val).latched = none ∧ groupRefusal u (u.groupSnap o.val) o.val = none ∧
      s.scanning o.val = false ∧
      g = { seq := seq, snap := u.groupSnap o.val, aon := u.rbit (compPage o.val) 0x010 8, late := false,
            deferred := false, since := u.frameOf o.val, pages := groupPages o.val (u.groupSnap o.val) } ∧ l = notReady u g ∧ (g.aon = false ∨ l = [])) ∧
    (∃ (s u : State) (o : Fin 4) (now : Dword) (g : GroupCommit) (l : List Nat), s.phase = .service ∧ s.time ≤ now ∧
      u = { s with time := now } ∧ (u.atOuts o.val).pend = some g ∧ u.scanning o.val = true ∧ (u.lineOf o.val : Int)
      = u.cutLine [] o.val ∧ sub32 (u.frameOf o.val) g.since < 2 ^ 31 ∧ l = notReady u g ∧ g.aon = true ∧ l ≠ [] ∧
      (∀ i ∈ l, u.fenceBound g i = true)) ∧
    (∃ (s u : State) (o : Fin 4) (now : Dword) (g : GroupCommit) (l : List Nat), s.phase = .service ∧ s.time ≤ now ∧
      u = { s with time := now } ∧ (u.atOuts o.val).pend = some g ∧ u.scanning o.val = true ∧ (u.lineOf o.val : Int)
      = u.cutLine [] o.val ∧ sub32 (u.frameOf o.val) g.since < 2 ^ 31 ∧ l = notReady u g ∧ g.aon = true ∧ (∃ i ∈ l,
      u.fenceBound g i = false) ∧ displaySet g) ∧
    (∃ (s u : State) (o : Fin 4) (now : Dword) (g : GroupCommit) (l : List Nat), s.phase = .service ∧ s.time ≤ now ∧
      u = { s with time := now } ∧ (u.atOuts o.val).pend = some g ∧ u.scanning o.val = true ∧ (u.lineOf o.val : Int)
      = u.cutLine [] o.val ∧ sub32 (u.frameOf o.val) g.since < 2 ^ 31 ∧ l = notReady u g ∧ (g.aon = false ∨ l = [])) :=
  ⟨⟨gpend (disp S0 1), cmt (gpend (disp S0 1)), 0, linkPage 1, 1, 9, by unfold mayWrite; decide +kernel⟩,
   ⟨run (setShadow (linkPage 1) 0x110 26) (disp S0 1), cmt (run (setShadow (linkPage 1) 0x110 26) (disp S0 1)), 0,
    linkPage 1, 1, 9, 0x0B11, by unfold mayWrite; decide +kernel⟩,
   ⟨disp S0 1, cmt (disp S0 1), 0, linkPage 1, 1, 9, by unfold mayWrite; decide +kernel⟩,
   ⟨dark (gsl (disp S0 1)), cmt (dark (gsl (disp S0 1))), 0, linkPage 1, 1, 9, gc2 (dark (gsl (disp S0 1))), [6],
    by unfold mayWrite; decide +kernel⟩,
   ⟨dark (disp S0 1), cmt (dark (disp S0 1)), 0, linkPage 1, 1, 9, gc2 (dark (disp S0 1)), [], by unfold mayWrite; decide +kernel⟩,
   ⟨gpend (gsl (disp S0 1)), { gpend (gsl (disp S0 1)) with time := 9 }, 1, 9, gc1 (gsl (disp S0 1)), [6],
    by decide +kernel⟩,
   ⟨gheld, { gheld with time := 9 }, 1, 9, gc3, [6], by decide +kernel, by decide +kernel, rfl,
    (four (by decide +kernel) ⟨by decide +kernel, rfl, by decide +kernel, display_set⟩)⟩,
   ⟨gpend (disp S0 1), { gpend (disp S0 1) with time := 9 }, 1, 9, gc1 (disp S0 1), [], by decide +kernel⟩⟩

/-- The hypotheses of FramesAndLinesAreScannedOut can be met, clause by clause. -/
theorem witness_frames_and_lines_are_scanned_out :
    (∃ (s u : State) (o : Fin 4) (now : Dword), s.phase = .service ∧ s.time ≤ now ∧ u = { s with time := now } ∧
      u.scanning o.val = true ∧ (s.atOuts o.val).next = u.frameTotal o.val ∧ u.gapNext o.val = false ∧ (∀ g,
      (s.atOuts o.val).latched = some g → displaySet g)) ∧
    (∃ (s u : State) (o : Fin 4) (now : Dword) (g : GroupCommit), s.phase = .service ∧ s.time ≤ now ∧ u = { s with
      time := now } ∧ u.scanning o.val = true ∧ (s.atOuts o.val).next = u.frameTotal o.val ∧ u.gapNext o.val = true
      ∧ (s.atOuts o.val).latched = some g ∧ u.outOn g.snap o.val = true) ∧
    (∃ (s : State) (o : Fin 4) (now : Dword), s.phase = .service ∧ s.time ≤ now ∧ (s.atOuts o.val).gap = true ∧ (∀
      g, (s.atOuts o.val).latched = some g → displaySet g)) ∧
    (∃ (s u : State) (o : Fin 4) (line : Nat) (now : Dword), s.phase = .service ∧ line < 4096 ∧ s.time ≤ now ∧ u = {
      s with time := now } ∧ u.scanning o.val = true ∧ line = (s.atOuts o.val).next ∧ line < u.frameTotal o.val) ∧
    (∃ (s u : State) (o : Fin 4) (line : Nat) (now : Dword), s.phase = .service ∧ line < 4096 ∧ s.time ≤ now ∧ u = {
      s with time := now } ∧ u.scanning o.val = true ∧ line = (s.atOuts o.val).next ∧ line < u.frameTotal o.val ∧
      u.vActive [] o.val < line ∧ line + 2 < u.frameTotal o.val) ∧
    (∃ (s u : State) (o : Fin 4) (line : Nat) (now : Dword), s.phase = .service ∧ line < 4096 ∧ s.time ≤ now ∧ u = {
      s with time := now } ∧ u.scanning o.val = true ∧ line = (s.atOuts o.val).next ∧ line < u.frameTotal o.val ∧
      line < u.vActive [] o.val ∧ u.videoOn [] o.val = [] ∧ u.graphicOn [] o.val = [] ∧ u.flatState o.val = 0 ∧ (∀
      r, r < 16 → u.rectOn o.val r = false) ∧ (s.atOuts o.val).wb = none ∧ line + 1 < u.vActive [] o.val ∧ line + 2
      < u.frameTotal o.val ∧ line ≠ (u.stripLines [] o.val (line / 16)).2) :=
  ⟨⟨disp S0 1 { next := 525, latched := some gc3 } 524,
    { disp S0 1 { next := 525, latched := some gc3 } 524 with time := 9 }, 1, 9, (four (by decide +kernel) ⟨by decide +kernel,
    by decide +kernel, fun g h =>
    Option.some.inj ((show (disp S0 1 { next := 525, latched := some gc3 } 524 |>.atOuts 1).latched = some gc3 by decide +kernel).symm.trans h) ▸ display_set⟩)⟩,
   ⟨disp S0 1 { next := 525, latched := some (gc1 (run (setShadow (linkPage 1) 0x110 26000) (disp S0 1))) } 524,
    { disp S0 1 { next := 525, latched := some (gc1 (run (setShadow (linkPage 1) 0x110 26000) (disp S0 1))) } 524
      with time := 9 }, 1, 9, gc1 (run (setShadow (linkPage 1) 0x110 26000) (disp S0 1)), by decide +kernel⟩,
   ⟨disp S0 1 { gap := true, latched := some gc3 }, 1, 9, by decide +kernel, by decide +kernel, by decide +kernel,
    fun g h =>
    Option.some.inj ((show (disp S0 1 { gap := true, latched := some gc3 } |>.atOuts 1).latched = some gc3 by decide +kernel).symm.trans h) ▸ display_set⟩,
   ⟨disp S0 1 { next := 5 } 4, { disp S0 1 { next := 5 } 4 with time := 9 }, 1, 5, 9, by decide +kernel⟩,
   ⟨disp S0 1 { next := 490 } 489, { disp S0 1 { next := 490 } 489 with time := 9 }, 1, 490, 9, by decide +kernel⟩,
   ⟨disp S0 1 { next := 5 } 4, { disp S0 1 { next := 5 } 4 with time := 9 }, 1, 5, 9, by decide +kernel⟩⟩

/-- The hypotheses of StripsAreRequestedHandedDownAndTaken can be met, clause by clause. -/
theorem witness_strips_are_requested_handed_down_and_taken :
    (∃ (s u : State) (o : Fin 4) (k frame : Nat) (now : Dword) (v : Table Word), s.phase = .service ∧ k < 256 ∧
      s.time ≤ now ∧ u = { s with time := now } ∧ u.requestFrame o.val k = some frame ∧ v = u.frameView o.val frame)
      ∧
    (∃ (s u : State) (o : Fin 4) (k slot : Nat) (now : Dword) (r : StripRec), s.phase = .service ∧ k < 256 ∧ s.time
      ≤ now ∧ u = { s with time := now } ∧ (u.stripsAt o.val k fun v => u.guardOf v o.val) = [(slot, r)] ∧ u.stripOf
      slot r.serial = some r ∧ (∀ n e, r.entry = some n → s.atEntries n = some e → e.ctx = none)) ∧
    (∃ (s u : State) (o : Fin 4) (k slot : Nat) (now : Dword) (r : StripRec) (n c : Nat) (e : EntryRec), s.phase = .service ∧ k < 256 ∧
      s.time ≤ now ∧ u = { s with time := now } ∧ (u.stripsAt o.val k fun v => u.guardOf v o.val) = [(slot, r)] ∧
      u.stripOf slot r.serial = some r ∧ r.checked = false ∧ r.source = 0 ∧ r.done = none ∧ nextRung r.lane r.rung =
      1 ∧ r.entry = some n ∧ s.atEntries n = some e ∧ e.ctx = some c ∧ (s.atCtxs c).state = .running ∧ (s.atArrays
      (s.atCtxs c).array).ctx = some c ∧ (s.atArrays (s.atCtxs c).array).phase ≠ .stopped) ∧
    (∃ (s u : State) (o : Fin 4) (k slot : Nat) (now : Dword) (r : StripRec), s.phase = .service ∧ k < 256 ∧ s.time
      ≤ now ∧ u = { s with time := now } ∧ (u.stripsAt o.val k fun v => u.takeOf v o.val) = [(slot, r)] ∧ u.stripOf
      slot r.serial = some r ∧ (∀ n e, r.entry = some n → s.atEntries n = some e → e.ctx = none)) :=
  ⟨⟨vlay (disp S0 1 {} 477) 3 1, { vlay (disp S0 1 {} 477) 3 1 with time := 9 }, 1, 0, 8, 9, [], by decide +kernel⟩,
   ⟨lstrip S0 (srec 1 2 7 40 0) 28,
    { lstrip S0 (srec 1 2 7 40 0) 28 with time := 9 }, 1, 2, 3, 9, srec 1 2 7 40 0,
    (four (by decide +kernel) ⟨by decide +kernel, by decide +kernel, fun _ _ h => of_isNone (by decide +kernel) h⟩)⟩,
   ⟨eff (lstrip (arr S0 3 50 { phase := .compute }) sRun 28) [.entries 900 (some eRun)],
    { eff (lstrip (arr S0 3 50 { phase := .compute }) sRun 28) [.entries 900 (some eRun)] with time := 9 }, 1, 2, 3,
    9, sRun, 900, 50, eRun, by decide +kernel⟩,
   ⟨lstrip S0 (srec 1 2 7 40 0) 30,
    { lstrip S0 (srec 1 2 7 40 0) 30 with time := 9 }, 1, 2, 3, 9, srec 1 2 7 40 0,
    (four (by decide +kernel) ⟨by decide +kernel, by decide +kernel, fun _ _ h => of_isNone (by decide +kernel) h⟩)⟩⟩

/-- The hypotheses of LinksTrainAndPanelsSync can be met, clause by clause. -/
theorem witness_links_train_and_panels_sync :
    (∃ (s : State) (f : Func) (o : Fin 4), mayWrite s f (linkPage o.val)) ∧
    (∃ (s : State) (o : Fin 4), s.phase = .service ∧ s.rbit (linkPage o.val) 0x120 1 = true) ∧
    (∃ (s : State), s.phase = .service) ∧
    (∃ (s : State), s.phase = .service) ∧
    (∃ (s u : State) (o : Fin 4) (now : Dword) (win frame : Nat), s.phase = .service ∧ s.time ≤ now ∧ u =
      { s with time := now } ∧ u.scanning o.val = true ∧ s.rbit (linkPage o.val) 0x114 7 = true ∧ frame = u.linesNs
      [] o.val (u.vTotal [] o.val) ∧ (∀ e d, (s.atOuts o.val).edge = some e → d = now.toNat - e.toNat → 20 * (max d
      frame - min d frame) ≤ frame) ∧ win = (if u.pulseGap o.val now.toNat ≤ u.linesNs [] o.val 1 then (s.atOuts
      o.val).inWindow + 1 else 0)) ∧
    (∃ (s u : State) (o : Fin 4) (now e : Dword) (frame d : Nat), s.phase = .service ∧ s.time ≤ now ∧ u =
      { s with time := now } ∧ (s.atOuts o.val).edge = some e ∧ d = now.toNat - e.toNat ∧ frame = u.linesNs [] o.val
      (u.vTotal [] o.val) ∧ frame < 20 * (max d frame - min d frame)) ∧
    (∃ (s : State) (o : Fin 4), s.phase = .service ∧ s.scanning o.val = true ∧ s.rbit (linkPage o.val) 0x114 7 = true ∧
      s.rfld (linkPage o.val) 0x118 4 2 ≠ 3) :=
  ⟨⟨disp S0 1, 0, 1, by unfold mayWrite; decide +kernel⟩,
   ⟨withRegs (disp S0 1) [(linkPage 1,0x120,0xF2)], 1, by decide +kernel⟩,
   ⟨withRegs (disp S0 1) [(linkPage 1,0x118,15)], by decide +kernel⟩,
   ⟨withRegs (disp S0 1) [(linkPage 1,0x118,15)], by decide +kernel⟩,
   ⟨withRegs (disp S0 1 {edge:=none,inWindow:=3,pulses:=[9000,20]}) [(linkPage 1,0x114,0xB9)],
    {withRegs (disp S0 1 {edge:=none,inWindow:=3,pulses:=[9000,20]}) [(linkPage 1,0x114,0xB9)] with time:=10}, 1, 10, 4, (disp S0
    1).linesNs [] 1 525, (four (by decide +kernel) ⟨by decide +kernel, by decide +kernel,
    fun _ _ h => of_isNone (by decide +kernel) h, by decide +kernel⟩)⟩,
   ⟨withRegs (disp S0 1 {edge:=some 5}) [(linkPage 1,0x114,0xB9)],
    {withRegs (disp S0 1 {edge:=some 5}) [(linkPage 1,0x114,0xB9)] with time:=1000}, 1, 1000, 5, (disp S0 1).linesNs
    [] 1 525, 995, by decide +kernel⟩,
   ⟨withRegs (disp S0 1 {edge:=some 5}) [(linkPage 1,0x114,0xB9)], 1, by decide +kernel⟩⟩

/-- The hypotheses of AuxTransactionsRunOneAtATime can be met, clause by clause. -/
theorem witness_aux_transactions_run_one_at_a_time :
    (∃ (s : State) (f : Func) (o : Fin 4) (ctl : Word) (c : Instr) (code : Nat), mayWrite s f (linkPage o.val) ∧ ((c =
      .auxNativeWrite f o ctl ∧ code = 8) ∨ (c = .auxNativeRead f o ctl ∧ code = 9) ∨ (c = .auxI2cWrite f o ctl ∧
      code = 0) ∨ (c = .auxI2cRead f o ctl ∧ code = 1) ∨ (c = .auxI2cWriteMot f o ctl ∧ code = 4) ∨ (c =
      .auxI2cReadMot f o ctl ∧ code = 5))) ∧
    (∃ (s : State) (o : Fin 4), s.phase = .service ∧ s.rbit (linkPage o.val) 0x134 0 = true) :=
  ⟨⟨disp S0 1, 0, 1, 0xFFFFFFFF, .auxNativeWrite 0 1 0xFFFFFFFF, 8, by unfold mayWrite; decide +kernel⟩,
   ⟨withRegs (disp S0 1) [(linkPage 1,0x134,1),(linkPage 1,0x144,0xFFFFFFFF)], 1, by decide +kernel⟩⟩

/-- The hypotheses of TrackJobsDoTheirOps can be met, clause by clause. -/
theorem witness_track_jobs_do_their_ops :
    (∃ (s : State) (f : Func) (n : Fin 8) (d : BitVec 1024) (b bs list : List Byte) (w : Nat → Nat → Nat) (pa : Nat →
      Nat) (cands : List SetCand) (anchor : SetCand → List Byte) (out : List (SetCand × List Nat)), readyTrack s f n
      d 1 ∧ readsAs s ⟨.job, f⟩ 0 (jobBodyAddr d) b ∧ b.length = 64 ∧ setBodyOk b = true ∧ w = (fun i k => bytesNat
      (sliceBytes b i k)) ∧ readsAs s ⟨.track, f⟩ 0 (w 0 6) bs ∧ bs.length = 16 * w 6 2 ∧ cands = (List.range (w 6
      2)).map (fun i => (i, sliceBytes bs (16 * i) 16)) ∧ (setKeep (fHalf (w 0x18 2)) cands).2 = 0 ∧ (∀ c ∈ cands,
      (anchor c).length = 16 ∧ readsAs s ⟨.track, f⟩ 0 (w 8 6 + 16 * bytesNat (sliceBytes c.2 4 2)) (anchor c)) ∧
      out = (suppress (fHalf (w 0x1A 2)) (w 0x1C 2) ((setKeep (fHalf (w 0x18 2)) cands).1.map fun c => (c, setBox c (some (anchor c)))) [] 0).1 ∧ list = natBytes 32 out.length ++ out.flatMap detBytes ∧ writesAt s ⟨.track, f⟩ 0 (w
      0x10 6) list.length pa) ∧
    (∃ (s : State) (f : Func) (n : Fin 8) (d : BitVec 1024) (b head : List Byte) (w : Nat → Nat → Nat) (part cam : Nat),
      readyTrack s f n d 2 ∧ readsAs s ⟨.job, f⟩ 0 (jobBodyAddr d) b ∧ b.length = 64 ∧ w = (fun i k => bytesNat
      (sliceBytes b i k)) ∧ part = jobTarget d ∧ cam = w 0 2 ∧ cam < 4096 ∧ w 2 2 ≠ 0 ∧ w 4 4 = 0 ∧ w 0x16 2 = 0 ∧ w
      0x1E 2 = 0 ∧ w 0x20 32 = 0 ∧ w 0x10 6 % 64 = 0 ∧ w 0x18 6 % 64 = 0 ∧ readsAs s ⟨.track, f⟩ 0 (w 0x10 6) head ∧
      head.length = 32 ∧ bytesNat (sliceBytes head 0 2) % 1024 ≤ 512 ∧ (∀ c, s.camPlace cam = some c → c.device =
      s.deviceNo ∧ c.part = part) ∧ (∀ l, (s.atTcam (camKey part cam)).last = some l → l < w 8 8)) ∧
    (∃ (s : State) (n : Fin 8) (d : BitVec 1024) (b cb eb : List Byte) (w : Nat → Nat → Nat), readyTrack s 0 n d 3 ∧
      readsAs s ⟨.job, 0⟩ 0 (jobBodyAddr d) b ∧ b.length = 32 ∧ w = (fun i k => bytesNat (sliceBytes b i k)) ∧ w
      0x10 16 = 0 ∧ 1 ≤ w 6 2 ∧ w 6 2 ≤ 4096 ∧ w 0xE 2 ≤ 32768 ∧ readsAs s ⟨.track, 0⟩ 0 (w 0 6) cb ∧ cb.length = 16
      * w 6 2 ∧ readsAs s ⟨.track, 0⟩ 0 (w 8 6) eb ∧ eb.length = 8 * w 0xE 2) ∧
    (∃ (s : State) (f : Func) (n : Fin 8) (d : BitVec 1024) (part cam : Nat), readyTrack s f n d 4 ∧ part = jobTarget d
      ∧ cam = jobInline d 0x44 2 ∧ s.track.problems = [] ∧ (∀ x ∈ s.jobs, ∀ j, x.2 = some j → jobKind j.desc = 4 →
      trackOp j.desc = 2 → jobTarget j.desc = part → j.started = true) ∧ s.partFaulted part = false ∧
      s.standCached part cam = true) :=
  ⟨⟨JR (setS) 0 0 3, 0, 0, tj 1 64, setB, candsB, natBytes 32 setO.length ++ setO.flatMap detBytes, (fun i k => bytesNat
    (sliceBytes setB i k)), (4096 + ·), setC, fun _ => anc, setO, by unfold readyTrack readyJob; decide +kernel,
    readsAs_of_check (by decide +kernel), by decide +kernel, by decide +kernel, rfl, readsAs_of_check
    (by decide +kernel), by decide +kernel, by decide +kernel, by decide +kernel, fun c hc => List.mem_singleton.mp hc
    ▸ ⟨by decide +kernel, readsAs_of_check (by decide +kernel)⟩, rfl, rfl, writesAt_of_check (by decide +kernel)⟩,
   ⟨JR (tlb (raw (raw (part S0) 0 asB) 1024 [1]) [L0 0 0]) 0 0 3, 0, 0, tj 2 64, asB, 1::List.replicate 31 0, (fun i k =>
    bytesNat (sliceBytes asB i k)), 3, 9, by unfold readyTrack readyJob; decide +kernel, readsAs_of_check
    (by decide +kernel), by decide +kernel, rfl,
    (four (by decide +kernel) (four (by decide +kernel) ⟨by decide +kernel, by decide +kernel,
    readsAs_of_check (by decide +kernel), by decide +kernel⟩))⟩,
   ⟨JR (tlb (raw (raw (raw (part S0) 0 (grB 2 1)) 1024 cb1) 2048 eb1) [L0 0 0]) 0 0 3, 0, tj 3 32 0xFFFF, grB 2 1, cb1,
    eb1, (fun i k => bytesNat (sliceBytes (grB 2 1) i k)), by unfold readyTrack readyJob; decide +kernel,
    readsAs_of_check (by decide +kernel), by decide +kernel, rfl,
    (four (by decide +kernel) ⟨readsAs_of_check (by decide +kernel), by decide +kernel, readsAs_of_check
    (by decide +kernel), by decide +kernel⟩)⟩,
   ⟨JR (stnd (part S0)) 0 0 3, 0, 0, tj 4 0 3 9, 3, 9, by unfold readyTrack readyJob; decide +kernel, by decide +kernel,
    by decide +kernel, by decide +kernel, fun x h => (List.not_mem_nil h).elim, by decide +kernel⟩⟩

/-- The hypotheses of ProblemsAreSolvedOverTheCache can be met, clause by clause. -/
theorem witness_problems_are_solved_over_the_cache :
    (∃ (s u : State) (now : Dword) (p : Problem) (i : Nat) (db : List Byte), s.phase = .service ∧ s.time ≤ now ∧ u =
      { s with time := now } ∧ s.track.problems = [p] ∧ p.flush = false ∧ s.partFaulted p.part = false ∧ p.part < 8
      ∧ s.heldBack p = false ∧ s.camBlocks p.part p.cam = [] ∧ s.tcache.length < 2000 ∧ now.toNat - p.arrive.toNat ≤ 100000 * (max 1 (min 8
      (s.rfld trackPage 0x100 0 4)) * p.period) ∧ (u.candidates p).1 = [] ∧ p.emb = 0 ∧ readsAs s ⟨.track,
      s.partOwner p.part⟩ 0 p.det db ∧ db.length = 64 ∧ bytesNat (sliceBytes db 0 2) % 1024 = 1 ∧ s.freeRecord
      p.part p.cam = some i ∧ (s.atTblk (blkKey p.part (i / 16))).live = 0) ∧
    (∃ (s : State) (now : Dword) (p : Problem), s.phase = .service ∧ s.time ≤ now ∧ s.track.problems = [p] ∧ p.flush
      = false ∧ s.partFaulted p.part = false ∧ s.heldBack p = false ∧ s.standCached p.part p.cam = true ∧ 100000 * (max 1 (min 8 (s.rfld
      trackPage 0x100 0 4)) * p.period) < now.toNat - p.arrive.toNat) ∧
    (∃ (s : State) (part : Fin 8) (emb : Bool) (b : Fin 2048) (cam : Nat) (bs : List Byte), s.phase = .service ∧
      (s.atTblk (blkKey part.val b.val)).cam = some cam ∧ s.atTcache (cacheKey part.val emb b.val) = none ∧
      s.partFaulted part.val = false ∧ s.tcache.length < 2048 ∧ bs.length = 2048 ∧ readsAs s ⟨.track, s.partOwner
      part.val⟩ 0 (s.blkAddr part.val emb b.val) bs) ∧
    (∃ (s : State) (part : Fin 8) (emb : Bool) (b : Fin 2048) (cam va : Nat) (l : Leaf), s.phase = .service ∧
      (s.atTblk (blkKey part.val b.val)).cam = some cam ∧ s.atTcache (cacheKey part.val emb b.val) = none ∧
      s.partFaulted part.val = false ∧ va = s.blkAddr part.val emb b.val ∧ va % 65536 + 2048 ≤ 65536 ∧ standingLeaf
      s ⟨.track, s.partOwner part.val⟩ 0 va = some l ∧ l.coding = .plain ∧ 16 ≤ l.shift ∧ l.r = true ∧ (∃ x ∈
      billetsOf (leafAddr l va) 2048, brokenBillet s x = true)) ∧
    (∃ (s : State) (f : Func) (part : Fin 8), mayWrite s f (partPage part.val) ∧ (∀ p ∈ s.track.problems, p.flush =
      false)) ∧
    (∃ (s : State) (part : Fin 8) (now : Dword), s.phase = .service ∧ s.time ≤ now ∧ s.rfld (partPage part.val)
      0x148 16 16 ≠ 0 ∧ 0 < (s.atTrings part.val).unsignalled ∧ (s.atTrings part.val).firstAt.toNat + 1000 * s.rfld
      (partPage part.val) 0x148 16 16 ≤ now.toNat ∧ s.reg (partPage part.val) 0x13C ≠ s.reg (partPage part.val)
      0x140) ∧
    (∃ (s : State) (f : Func) (part : Fin 8), mayWrite s f (partPage part.val)) :=
  ⟨⟨prs [prob] (tlb (raw (part S0) 1024 det1) [L0 0 0]),
    {prs [prob] (tlb (raw (part S0) 1024 det1) [L0 0 0]) with time:=200}, 200, prob, (((prs [prob]).freeRecord 3
    9).getD 0), det1, (four (by decide +kernel) (four (by decide +kernel)
    (four (by decide +kernel) ⟨by decide +kernel, readsAs_of_check (by decide +kernel), by decide +kernel⟩)))⟩,
   ⟨prs [prob] (stnd (part S0)), 900000000, prob, by decide +kernel⟩,
   ⟨tlb (raw (eff (part S0) [.tblk (blkKey 3 4) ⟨some 9,2⟩]) (65536+8192) [7,7]) [L0 65536 65536], 3, false, 4, 9,
    [7,7]++List.replicate 2046 0, (four (by decide +kernel) ⟨by decide +kernel, by decide +kernel,
    readsAs_of_check (by decide +kernel)⟩)⟩,
   ⟨tlb (eff (stnd (part S0)) [.tcache (cacheKey 3 false 4) none,.crcDiff (73728/2048) 5]) [L0 65536 65536], 3, false, 4,
    9, 73728, L0 65536 65536, by decide +kernel⟩,
   ⟨withRegs (part S0) [(partPage 3,0x14,0xFFFFFFFF)], 0, 3, by unfold mayWrite; decide +kernel⟩,
   ⟨withRegs (eff (part S0) [.trings 3 {(part S0).atTrings 3 with unsignalled:=4,firstAt:=5}]) [(partPage
    3,0x148,0x20000),(partPage 3,0x13C,5)], 3, 2005, by decide +kernel⟩,
   ⟨withRegs (part S0) [(partPage 3,0x13C,5),(partPage 3,0x140,0xFFFFFFFF)], 0, 3, by unfold mayWrite; decide +kernel⟩⟩

/-- The hypotheses of OffersPassBetweenDevices can be met, clause by clause. -/
theorem witness_offers_pass_between_devices :
    (∃ (s : State) (p : Fin 2) (frame : List Byte), arrives s p frame 5 ∧ (parseHeader frame).len = 256) ∧
    (∃ (s : State) (p : Fin 2) (frame : List Byte), arrives s p frame 5 ∧ (parseHeader frame).len = 64) ∧
    (∃ (s : State) (p : Fin 2) (frame : List Byte) (ident : Nat) (e : SentOffer), arrives s p frame 5 ∧ (parseHeader
      frame).len = 64 ∧ (parseHeader frame).src ≠ s.deviceNo ∧ (s.track.sent.find? fun e => decide (e.ident =
      ident)) = some e) ∧
    (∃ (s : State) (p : Fin 2) (frame : List Byte) (ident part i : Nat) (c : CacheBlk), arrives s p frame 5 ∧
      (parseHeader frame).len = 64 ∧ (s.track.handed.find? fun h => decide (h.1 = ident)) = some (ident, part, i) ∧
      s.atTcache (cacheKey part false (i / 16)) = some c ∧ c.data.length = 2048) ∧
    (∃ (s : State) (now : Dword), s.phase = .service ∧ s.time ≤ now) :=
  ⟨⟨portUp S0, 0, fr (h5 256) (bytes 256 3), by simp only [arrives, frameCrcOk, fr, sealFrame, crc_eq]; decide +kernel,
    by decide +kernel⟩,
   ⟨{portUp S0 with track := {S0.track with offers := [(0,om 5),(2,om 6)]}}, 0, fr (h5 64) (bytes 64 3),
    by unfold arrives; decide +kernel⟩,
   ⟨stnd (part {portUp S0 with track := {S0.track with sent := [⟨5,3,9,7,3,[2,4],true⟩,⟨6,3,9,7,3,[2,4],false⟩]}}), 0, fr
    (h5 64) (bytes 64 3), 5, ⟨5,3,9,7,3,[2,4],true⟩, by unfold arrives; decide +kernel⟩,
   ⟨stnd (part {portUp S0 with track := {S0.track with handed := [(5,3,65),(6,3,66)],created := 8}}), 0, fr (h5 64)
    (bytes 64 3), 5, 3, 65, ⟨blk1,false,9⟩, by unfold arrives; decide +kernel, by decide +kernel, by decide +kernel,
    rfl, by simp [blk1]⟩,
   ⟨{portUp S0 with track := {S0.track with offers := [(0,om 5),(2,{om 6 with tMax:=2000})]}}, 300000000,
    by decide +kernel⟩⟩

/-- The hypotheses of PortsTrainGreetAndGoDown can be met, clause by clause. -/
theorem witness_ports_train_greet_and_go_down :
    (∃ (s : State) (f : Func) (p : Fin 2), mayWrite s f (portPage p.val)) ∧
    (∃ (s : State) (p : Fin 2), s.phase = .service ∧ s.portState p.val = 1) ∧
    (∃ (s : State) (p : Fin 2) (lanes : BitVec 8), s.phase = .service ∧ s.portState p.val = 1 ∧ lanes ≠ 0xFF) ∧
    (∃ (s : State) (p : Fin 2) (frame : List Byte), s.phase = .service ∧ s.portState p.val = 2 ∧ frameCrcOk frame = true
      ∧ frameSeq frame = (s.atPorts p.val).recvSeq ∧ frameFormOk frame = true ∧ (parseHeader frame).typ = 6) ∧
    (∃ (s : State) (p : Fin 2) (c : Instr), s.phase = .service ∧ (c = .neighbourLinkDown p ∨ ∃ f, c = .portDown f p ∧
      mayWrite s f (portPage p.val)) ∧ 1 ≤ s.portState p.val ∧ s.portState p.val ≤ 3 ∧ (∀ x ∈ s.remotes, ∀ r, x.2 =
      some r → s.route r.dst ≠ p.val + 1)) :=
  ⟨⟨withRegs (portUp S0) [(portPage 0,0x100,0)], 0, 0, by unfold mayWrite; decide +kernel⟩,
   ⟨eff (withRegs (portUp S0) [(portPage 0,0x100,1)]) [.ports 0 {replays:=3,waiting:=[⟨1,bytes 28 3,none⟩]}], 0,
    by decide +kernel⟩,
   ⟨withRegs (portUp S0) [(portPage 0,0x100,1)], 0, 0xFE, by decide +kernel⟩,
   ⟨eff (withRegs (portUp S0) [(portPage 0,0x100,2)]) [.ports 0 {}], 0, fr { hd0 with typ := 6, vc := 2 }
    (bytes 64 3), by decide +kernel⟩,
   ⟨wtgt (withRegs (portUp S0) [(portPage 0,0x100,1)]) 7 3 4 .transfer [⟨4,0,bytes 64 1,7,some 0,[],none⟩], 0, .neighbourLinkDown
    0, by unfold mayWrite; decide +kernel⟩⟩

/-- The hypotheses of TheChainNumberIsSetWhileThePortsAreIdle can be met, clause by clause. -/
theorem witness_the_chain_number_is_set_while_the_ports_are_idle :
    (∃ (s : State) (f : Func), mayWrite s f chainPage) :=
  ⟨S0, 0, by unfold mayWrite; decide +kernel⟩

/-- The hypotheses of TheLinkLayerAcknowledgesAndReplays can be met, clause by clause. -/
theorem witness_the_link_layer_acknowledges_and_replays :
    (∃ (s : State) (p : Fin 2) (w : Nat), s.phase = .service ∧ (s.portState p.val = 2 ∨ s.portState p.val = 3) ∧ w <
      2 ^ 32 ∧ w % 16 = 8 ∧ ((s.atPorts p.val).replay.any fun e => decide (e.1 = w / 2 ^ 20)) = true ∧ (s.atPorts
      p.val).waiting = []) ∧
    (∃ (s : State) (p : Fin 2), s.phase = .service ∧ (s.portState p.val = 2 ∨ s.portState p.val = 3) ∧ (s.atPorts
      p.val).replays < 4) ∧
    (∃ (s : State) (p : Fin 2) (w : Nat), s.phase = .service ∧ (s.portState p.val = 2 ∨ s.portState p.val = 3) ∧ w <
      2 ^ 32 ∧ w % 16 = 9 ∧ (s.atPorts p.val).replays < 4) ∧
    (∃ (s : State) (p : Fin 2) (w : Nat), s.phase = .service ∧ (s.portState p.val = 2 ∨ s.portState p.val = 3) ∧ w <
      2 ^ 32 ∧ w % 16 = 9 ∧ 4 ≤ (s.atPorts p.val).replays ∧ (s.atPorts p.val).replay ≠ [] ∧ (∀ x ∈ s.remotes, ∀ r, x.2 =
      some r → s.route r.dst ≠ p.val + 1)) ∧
    (∃ (s : State) (p : Fin 2), s.phase = .service ∧ (s.atPorts p.val).replay ≠ [] ∧ 4 ≤ (s.atPorts p.val).replays ∧
      (s.portState p.val = 2 ∨ s.portState p.val = 3) ∧ (∀ x ∈ s.remotes, ∀ r, x.2 = some r → s.route r.dst ≠ p.val
      + 1)) ∧
    (∃ (s : State) (p : Fin 2) (w : Nat), s.phase = .service ∧ (s.portState p.val = 2 ∨ s.portState p.val = 3) ∧ w <
      2 ^ 32 ∧ w % 16 = 0xA ∧ w / 16 % 4 < 3 ∧ (s.atPorts p.val).waiting = []) ∧
    (∃ (s : State) (p : Fin 2), s.phase = .service ∧ 0 < (s.atPorts p.val).inOrder) ∧
    (∃ (s : State) (p : Fin 2) (frame : List Byte) (c : Instr), s.phase = .service ∧ s.portState p.val = 3 ∧ (c =
      .windowWrite p frame ∨ c = .windowReadRequest p frame ∨ c = .completion p frame ∨ c = .frameForward p frame) ∧
      (frameCrcOk frame = false ∨ frameSeq frame ≠ (s.atPorts p.val).recvSeq) ∧ (s.atPorts p.val).nakOut = false) :=
  ⟨⟨eff (withRegs (portUp S0) [(portPage 0,0x100,3)]) [.ports 0
    {replay:=[(3,bytes 40 1),(4,bytes 50 1),(5,bytes 60 1)],sendSeq:=6,replays:=2}], 0, 8+2^20*3, by decide +kernel⟩,
   ⟨eff (withRegs (portUp S0) [(portPage 0,0x100,3)]) [.ports 0
    {replay:=[(3,bytes 40 1),(4,bytes 50 1),(5,bytes 60 1)],sendSeq:=6,replays:=0}], 0, by decide +kernel⟩,
   ⟨eff (portUp S0) [.ports 0 {replay:=[(3,bytes 40 1)],sendSeq:=6,replays:=3}], 0, 9+2^20*9, by decide +kernel⟩,
   ⟨eff (portUp S0) [.ports 0 {replay:=[(3,bytes 40 1)],sendSeq:=6,replays:=4}], 0, 9+2^20*9, by decide +kernel⟩,
   ⟨eff (withRegs (portUp S0) [(portPage 0,0x100,3)]) [.ports 0
    {replay:=[(3,bytes 40 1),(4,bytes 50 1),(5,bytes 60 1)],sendSeq:=6,replays:=4}], 0, by decide +kernel⟩,
   ⟨withRegs (withRegs (portUp S0) [(portPage 0,0x100,3)]) [(portPage 0,0x104,0)], 0, 10+16*0+64*5, by decide +kernel⟩,
   ⟨eff (withRegs (portUp S0) [(portPage 0,0x100,3)]) [.ports 0 {inOrder:=3,recvSeq:=0}], 0, by decide +kernel⟩,
   ⟨eff (withRegs (portUp S0) [(portPage 0,0x100,3)]) [.ports 0 {recvSeq:=4}], 0, fr hd0 (bytes 64 5), .windowWrite 0 (fr
    hd0 (bytes 64 5)), by decide +kernel⟩⟩

/-- The hypotheses of RemoteRequestsEndOrAreRetried can be met, clause by clause. -/
theorem witness_remote_requests_end_or_are_retried :
    (∃ (s : State) (p : Fin 2) (frame : List Byte) (c : Instr) (typ : Nat), arrives s p frame typ ∧ ((c = .windowWrite p
      frame ∧ typ = 1) ∨ (c = .windowReadRequest p frame ∧ typ = 2) ∨ (c = .completion p frame ∧ typ = 3) ∨ (typ = 5 ∧
      (parseHeader frame).len = 256 ∧ ∃ m, c = .offer p frame m) ∨ (typ = 5 ∧ (parseHeader frame).len = 64 ∧ ∃ i, c =
      .takenNotice p frame i ∨ c = .withdrawal p frame i ∨ c = .duplicateNotice p frame i))) ∧
    (∃ (s : State) (p : Fin 2) (frame : List Byte) (h : Header), inTransit s p frame h) ∧
    (∃ (s : State) (e : Fin 80) (tag w first len : Nat) (r : EReq) (d : BitVec 512) (bs host : List Byte), s.phase =
      .service ∧ s.engReq e.val tag = some (r, d) ∧ s.busyReq e.val tag = false ∧ r.remote = false ∧ sourceBytes s e.val
      r d host bs ∧ bs.length = r.len ∧ 0 < r.len ∧ sdKind d true = 3 ∧ w = sdWindow (sdBase d true) ∧ first = r.dst %
      64 ∧ len = (first + r.len + 63) / 64 * 64 ∧ windowOpen s w 3 s.deviceNo ∧ s.winKind w = 1 ∧ r.dst + r.len ≤ 65536
      * s.rfld (winPage w) 0x10C 0 16 ∧ 8192 < (s.atWindows w).inFlight + len) ∧
    (∃ (s : State) (p : Fin 2) (frame : List Byte) (h : Header) (r : RemoteReq), arrives s p frame 3 ∧ h =
      parseHeader frame ∧ s.atRemotes h.ttag = some r ∧ r.requester = h.requester ∧ h.status = 2) ∧
    (∃ (s : State) (p : Fin 2) (frame : List Byte) (h : Header) (r : RemoteReq), arrives s p frame 3 ∧ h =
      parseHeader frame ∧ s.atRemotes h.ttag = some r ∧ r.requester = h.requester ∧ h.status ≠ 2 ∧ r.engine = none)
      ∧
    (∃ (s : State) (p : Fin 2) (frame : List Byte) (h : Header) (r : RemoteReq) (e : Fin 64) (tag : Nat) (q : EReq)
      (d : BitVec 512), arrives s p frame 3 ∧ h = parseHeader frame ∧ s.atRemotes h.ttag = some r ∧ r.requester =
      h.requester ∧ h.status = 0 ∧ r.engine = some (e.val, tag) ∧ s.engReq e.val tag = some (q, d) ∧ sdKind d false
      = 3 ∧ sdKind d true = 1 ∧ commitPhase s e.val d = true ∧ q.src % 64 + q.len ≤ h.len ∧ tag ∉ (s.atEngines
      e.val).orphans ∧ (s.atEngines e.val).shadow = none ∧ (s.atArrays (e.val / 2)).arrivals = []) ∧
    (∃ (s : State) (p : Fin 2) (frame : List Byte) (h : Header) (r : RemoteReq) (e : Fin 80) (tag : Nat) (q : EReq)
      (d : BitVec 512), arrives s p frame 3 ∧ h = parseHeader frame ∧ s.atRemotes h.ttag = some r ∧ r.requester =
      h.requester ∧ h.status ≠ 0 ∧ h.status ≠ 2 ∧ r.engine = some (e.val, tag) ∧ s.engReq e.val tag = some (q, d) ∧
      (s.atArrays (e.val / 2)).fell = false ∧ (∀ x
      ∈ (s.atEngines e.val).reqs, x.tag = tag) ∧ tag ∉ (s.atEngines e.val).orphans ∧ (s.atEngines
      e.val).stopping = false ∧ (s.atEngines e.val).resetting = false ∧ (∀ c, s.engCtx e.val = some c → (s.atCtxs
      c).state ≠ .retiring)) ∧
    (∃ (s : State) (p : Fin 2) (frame : List Byte), arrives s p frame 3 ∧ s.atRemotes (parseHeader frame).ttag =
      none) ∧
    (∃ (s : State) (ttag : Nat) (r : RemoteReq), s.phase = .service ∧ s.atRemotes ttag = some r ∧ r.engine = none) ∧
    (∃ (s : State) (ttag : Nat) (r : RemoteReq) (e : Fin 80) (tag : Nat) (q : EReq) (d : BitVec 512), s.phase =
      .service ∧ s.atRemotes ttag = some r ∧ r.engine = some (e.val, tag) ∧ s.engReq e.val tag = some (q, d) ∧ (s.atArrays (e.val / 2)).fell = false ∧ (∀ x
      ∈ (s.atEngines e.val).reqs, x.tag = tag) ∧ tag ∉ (s.atEngines e.val).orphans ∧ (s.atEngines e.val).stopping =
      false ∧ (s.atEngines e.val).resetting = false ∧ (∀ c, s.engCtx e.val = some c → (s.atCtxs c).state ≠
      .retiring)) ∧
    (∃ (s : State) (ttag : Nat) (r : RemoteReq) (p : Fin 2), s.phase = .service ∧ s.atRemotes ttag = some r ∧ r.busy
      = true ∧ s.route r.dst = p.val + 1 ∧ r.engine = none ∧ portFree s p 0 r.bytes) ∧
    (∃ (s : State) (ttag : Nat) (r : RemoteReq) (p : Fin 2) (e tag : Nat) (q : EReq) (d : BitVec 512), s.phase =
      .service ∧ s.atRemotes ttag = some r ∧ r.busy = true ∧ s.route r.dst = p.val + 1 ∧ r.engine = some (e, tag) ∧
      s.engReq e tag = some (q, d) ∧ sdKind d true ≠ 3 ∧ portFree s p 1 r.bytes) ∧
    (∃ (s : State) (ttag : Nat) (r : RemoteReq) (e tag : Nat) (q : EReq) (d : BitVec 512), s.phase = .service ∧
      s.atRemotes ttag = some r ∧ r.busy = true ∧ r.engine = some (e, tag) ∧ s.engReq e tag = some (q, d) ∧ sdKind d
      true = 3 ∧ sdKind d false = 2 ∧ sourceOpen s e d = true) :=
  ⟨⟨portUp S0, 0, fr (h3 0) (bytes 64 3), .completion 0 (fr (h3 0) (bytes 64 3)), 3, by unfold arrives; decide +kernel,
    .inr (.inr (.inl ⟨rfl, rfl⟩))⟩,
   ⟨portUp S0, 0, fr {hd0 with dst:=5} (bytes 64 5), {hd0 with dst:=5}, by unfold inTransit; decide +kernel⟩,
   ⟨eff (winOn (pool S0 (mid (sd0 4096 (7 * 2 ^ 32) 26))) 7 1) [.windows 7 {inFlight := 8192}], 67, 3, 7, 0, 64, rq,
    sd0 4096 (7 * 2 ^ 32) 26, bytes 16 7, bytes 16 7, by decide +kernel, by decide +kernel, by decide +kernel, rfl,
    .inr ⟨rfl, rfl, rfl, .inl (by decide +kernel)⟩,
    ⟨rfl, (four (by decide +kernel) ⟨by decide +kernel, by unfold windowOpen; decide +kernel, by decide +kernel⟩)⟩⟩,
   ⟨rem9 S0 (rTrack false), 0, fr (h3 2) (bytes 64 3), h3 2, rTrack false, by unfold arrives; decide +kernel⟩,
   ⟨rem9 S0 (rTrack false), 0, fr (h3 1) (bytes 64 3), h3 1, rTrack false, by unfold arrives; decide +kernel⟩,
   ⟨rem9 (aeng S0 6 midR) (rEng 6 false), 0, fr (h3 0) (bytes 64 3), h3 0, rEng 6 false, 6, 3,
    { rq with src := 520, remote := true }, sd0 4096 (4 * 2 ^ 21) 11, by unfold arrives; decide +kernel⟩,
   ⟨rem9 (pool S0 midR) (rEng 67 false), 0, fr (h3 3) (bytes 64 3), h3 3, rEng 67 false, 67, 3,
    { rq with src := 520, remote := true }, sd0 4096 (4 * 2 ^ 21) 11, by unfold arrives; decide +kernel,
    (four (by decide +kernel) (four (by decide +kernel) (four (by decide +kernel) fun _ => of_isNone rfl)))⟩,
   ⟨portUp S0, 0, fr (h3 0) (bytes 64 3), by unfold arrives; decide +kernel⟩,
   ⟨rem9 S0 (rTrack true), 9, rTrack true, by decide +kernel⟩,
   ⟨rem9 (pool S0 midR) (rEng 67 false), 9, rEng 67 false, 67, 3, { rq with src := 520, remote := true }, sd0 4096 (4 * 2 ^ 21) 11,
    by decide +kernel, (four (by decide +kernel) (four (by decide +kernel) fun _ => of_isNone rfl))⟩,
   ⟨rem9 S0 (rTrack true), 9, rTrack true, 0, by unfold portFree; decide +kernel⟩,
   ⟨rem9 (aeng S0 6 midR) (rEng 6 true), 9, rEng 6 true, 0, 6, 3,
    { rq with src := 520, remote := true }, sd0 4096 (4 * 2 ^ 21) 11, by unfold portFree; decide +kernel⟩,
   ⟨rem9 (aeng S0 7 (mid (sd0 4096 64 26) { rq with remote := true })) (rEng 7 true), 9, rEng 7 true, 7, 3,
    { rq with remote := true }, sd0 4096 64 26, by decide +kernel⟩⟩

/-- The hypotheses of FramesForOthersAreForwarded can be met, clause by clause. -/
theorem witness_frames_for_others_are_forwarded :
    (∃ (s : State) (p q : Fin 2) (frame body : List Byte) (h : Header), inTransit s p frame h ∧ s.route h.dst =
      q.val + 1 ∧ p ≠ q ∧ body = frameBody { h with hops := h.hops + 1 } (framePayload frame) ∧ portFree s q h.vc
      body) ∧
    (∃ (s : State) (p : Fin 2) (frame : List Byte) (h : Header) (status : Nat), inTransit s p frame h ∧ s.rbit
      chainPage 0x104 (16 + p.val) = false ∧ h.hops + 1 < 63 ∧ ((status = 5 ∧ (s.route h.dst = 0 ∨ s.route h.dst = 3
      ∨ s.route h.dst = p.val + 1)) ∨ (status = 6 ∧ ∃ q : Fin 2, q ≠ p ∧ s.route h.dst = q.val + 1 ∧ s.portState
      q.val ≠ 3))) :=
  ⟨⟨withRegs (portUp (portUp S0 1) 0) [(chainPage,0x110,2*2^10),(chainPage,0x104,0)], 0, 1, fr {hd0 with dst:=5} (bytes
    64 3), frameBody {{hd0 with dst:=5} with hops := 1} (bytes 64 3), {hd0 with dst:=5},
    by unfold portFree inTransit; decide +kernel⟩,
   ⟨withRegs (portUp S0) [(chainPage,0x110,2*2^10),(chainPage,0x104,0)], 0, fr {hd0 with dst:=5} (bytes 64 3),
    {hd0 with dst:=5}, 6, by unfold inTransit; decide +kernel⟩⟩

/-- The hypotheses of AStepRunsTheFrontCommand can be met, clause by clause. -/
theorem witness_a_step_runs_the_front_command :
    (∃ (s : State) (c : Instr) (l : List Instr), s.pending = c :: l) ∧ ∃ s : State, s.pending = [] :=
  ⟨⟨{ S0 with pending := [.patrolRead []] }, .patrolRead [], [], rfl⟩, ⟨S0, rfl⟩⟩

/-- The state after reset is well formed: EveryStepKeepsTheStateWellFormed has states to speak of, and a step of one ends
in a next state. -/
theorem witness_every_step_keeps_the_state_well_formed : ∃ s t : State, stateWf s = true ∧ step s = .next t :=
  ⟨S0, S0, by decide +kernel, rfl⟩

/-- The hypothesis of CommandsChangeOnlyTheirFields can be met. -/
theorem witness_commands_change_only_their_fields : ∃ (c : Instr) (s t : State), exec c s = .next t :=
  ⟨.patrolRead [], S0, _, rfl⟩

/-- The hypotheses of RegisterWritesFollowTheirAccessTypes can be met, for a word of a page's header and for one of a
block. -/
theorem witness_register_writes_follow_their_access_types :
    (∃ (s : State) (f : Func) (a p off : Nat), stateWf s = true ∧ mayWrite s f p ∧ a + 4 ≤ barSize f .bar0 ∧ a % 4 = 0 ∧
      s.barPage f a = some p ∧ a % 0x1000 = off ∧ headed p = true ∧ off < 0x040 ∧ off ≠ 0x010 ∧ off ≠ 0x030) ∧
    (∃ (s : State) (f : Func) (a p off : Nat), stateWf s = true ∧ mayWrite s f p ∧ a + 4 ≤ barSize f .bar0 ∧ a % 4 = 0 ∧
      s.barPage f a = some p ∧ a % 0x1000 = off ∧ 0x100 ≤ off ∧ ∃ c, pageClass p = some c ∧
        [PageClass.hostPort, .array, .quant, .handles, .landing, .decode, .pipe, .comp, .strip, .vslot, .gslot, .floor,
          .track, .port, .window].contains c = true) :=
  ⟨⟨S0, 0, winPage 7 * 0x1000 + 0x014, winPage 7, 0x014, by decide +kernel, by unfold mayWrite; decide +kernel,
    by decide +kernel⟩,
   ⟨S0, 0, winPage 7 * 0x1000 + 0x10C, winPage 7, 0x10C, by decide +kernel, by unfold mayWrite; decide +kernel,
    (four (by decide +kernel) ⟨by decide +kernel, .window,
    by decide +kernel, by decide +kernel⟩)⟩⟩

/-- The hypotheses of ReadsShowReservedBitsAsZero can be met. -/
theorem witness_reads_show_reserved_bits_as_zero :
    ∃ (s : State) (f : Func) (a p off : Nat), stateWf s = true ∧ mayRead s f p ∧ a + 4 ≤ barSize f .bar0 ∧ a % 4 = 0 ∧
      s.barPage f a = some p ∧ a % 0x1000 = off ∧ s.atLatches (regAddr p off) = none :=
  ⟨S0, 0, tbPage * 0x1000 + 0x124, tbPage, 0x124, by decide +kernel, by unfold mayRead; decide +kernel,
    by decide +kernel⟩

/-! ## Commands that name nothing of the device -/

/-- A command is ill formed, and changes nothing (log entry 57). -/
def bad (c : Instr) : Bool :=
  !c.wf && match exec c S0 with
  | .next t => decide (t = S0)
  | _ => false

/-- Every check of `Instr.wf` refuses a command that breaks it: speeds and widths of the link, sizes and ranges of
accesses, pages, units, tags, lines, columns, banks, lanes, output lines, strips, fault codes and sensor readings. -/
theorem test_ill_formed_commands_change_nothing :
    ([.linkChange 0 1, .linkChange 5 1, .linkChange 4 2, .registerWrite 0 .bar0 0 (.read 0),
      .registerWrite 0 .bar0 (barSize 0 .bar0 - 3) (.read 4), .registerWrite 0 .bar0 0 (.write 0 0),
      .registerWrite 0 .bar0 (barSize 0 .bar0) (.write 4 0), .registerWrite 0 .bar0 0 (.write 1 256),
      .bar2Read bar2Size 1, .bar2Write bar2Size [0], .pgCommitGo 0 pageCount 0, .commitPoint pageCount,
      .pgCommitAbandon 0 pageCount, .errClear 0 pageCount, .displayGroupCommit 0 pageCount 0] : List Instr).all bad = true ∧
    ([.rebindStopDone ⟨.array, 32⟩, .rebindScrubDone ⟨.array, 32⟩, .orphanedTagReturn 0 (engTags 0),
      .stepIssue 0 (some (.wm, memLines .wm)), .contextSaveDone 0 (some (.am, memLines .am)),
      .arraySelfCheckFailure 0 (.parity 128), .arraySelfCheckFailure 0 (.residue 128),
      .bankRetention 0 .pm (memBanks .pm), .bankWakeDone 0 .pm (memBanks .pm), .requestRetire 0 (engTags 0) (.done []),
      .requestRetire 0 0 (.parity .am (memLines .am)), .hostCompletionTimeout (.engine 0 (engTags 0)),
      .hostCompletionError (.engine 0 (engTags 0)), .rngLaneWrite 0 2048 0, .outputLine 0 4096 0 [], .stripRequest 0 256 0,
      .deadlineLine 0 256 0, .takeLine 0 256 0, .deviceFault 0x0135, .thermalSensorRead 0 [],
      .thermalSensorRead 0 (List.replicate 16 128)] : List Instr).all bad = true := by decide +kernel

/-! ## What a step does -/

/-- A step takes one command, the first (one queue, first in, first out). -/
theorem test_step_takes_the_front_command :
    (match step { S0 with pending := [.bar2Read 0 0, .patrolRead []] } with
      | .next t => decide (t.pending = [.patrolRead []])
      | _ => false) = true := by decide +kernel

/-- With no command waiting the block idles. -/
theorem test_step_idles : step S0 = .next S0 := rfl

/-! ## The worked examples of the spec -/

/-- A tile step of words (number, value). -/
def step0 (l : List (Nat × Nat)) : BitVec 512 := D5 (l.map fun e => (32 * e.1, 32, e.2))

/-- Event ring 0 of function 5 as the example of chapter 2 has it. -/
def evS : State :=
  let g := globalPage 5
  eff (withRegs (pVf S0) [(g, evrOff 0, 0x8000), (g, evrOff 0 + 8, 0x80000006), (g, evrOff 0 + 16, 1000),
    (g, evrOff 0 + 20, 936), (g, evrOff 0 + 24, 20)])
    [.rings (ringKey 5 0) { S0.atRings (ringKey 5 0) with pendingDrop := 3 }]

/-- The overflow marker goes to slot 40 with phase 0, the 3 records dropped and EVR_DROP, and the next index is 1,001
(example of chapter 2). -/
theorem test_overflow_marker :
    (match exec (.eventRingConsumerDoorbell 5 0 950) evS with
      | .next t => decide (t.reg (globalPage 5) (evrOff 0 + 16) = 1001) && decide (t.out.head? = some (.hostWrite 5 0x8500
          (natBytes 4 0x110 ++ List.replicate 12 0 ++ natBytes 4 3 ++ natBytes 4 20 ++ List.replicate 8 0)))
      | _ => false) = true := by decide +kernel

/-- Completion order changes a binary32 sum (example of chapter 4). -/
theorem test_sum_order :
    f32Add false 0x4B800000 0x3F800000 = (0x4B800000, 0) ∧ f32Add false 0x3F800000 0x3F800000 = (0x40000000, 0) ∧
    f32Add false 0x40000000 0x4B800000 = (0x4B800001, 0) := by decide +kernel

/-- The conversion of −0.296875 to E4M3 by round field (example of chapter 4). -/
theorem test_e4m3_conversion :
    ffConvert 2 false 0xBE980000 = (0xAA, 0) ∧ ffConvert 2 true 0xBE980000 = (0xA9, 0) := by decide +kernel

/-- Step 41 of the detector has the bound 941 that its TS_COST says (example of chapter 6). -/
theorem test_bound_of_a_matmul :
    stepBound (withRegs S0 [(qntPage 22, 0x120, 0x1180), (qntPage 22, 0x140, 0x40)]) 22 (step0 [(0, 0x1C01),
      (1, 0x29A98000), (8, 0x007F0080), (9, 0x300), (12, 0x131), (15, 0x3AD)]) (geoOf []) = 941 := by decide +kernel

/-- The bounds of a 3 × 3 layer's steps, as a convolution and as a product alone (example of chapter 7). -/
theorem test_bound_of_a_convolution :
    stepBound S0 5 (step0 [(0, 0x1802), (1, 0x800111), (8, 0x001F0080), (9, 0x120), (12, 0x131), (15, 0x3B1)]) (geoOf [])
      = 945 ∧
    stepBound S0 5 (step0 [(0, 0x1801), (1, 0x800111), (8, 0x001F0080), (9, 0x120), (12, 0x131), (15, 0x3B1)]) (geoOf [])
      = 813 := by decide +kernel

/-- The descriptor of a tile load (example of chapter 9). -/
theorem test_stream_descriptor_fields :
    let d := step0 [(0, 0x2C414881), (5, 0x100F01FF), (6, 0x01003001), (7, 0x002C5000)]
    sdOp d = 1 ∧ sdDrain d = true ∧ sdNdims d = 4 ∧ sdUnitDims d = 2 ∧ sdReq d = 256 ∧ sdSigSem d = 0x2C4 ∧ sdTake d = 1 ∧
    sdAdd d = 1 ∧ sdWaitSem d = 0x2C5 ∧ (List.range 4).map (sdCount d) = [512, 16, 2, 4] ∧ sdUnits d = 8 := by
  decide +kernel

/-- Sub-block 0 of a spill block: 3.984375, −1.25, 0.59375 and 0.7001953125, then +0. -/
def spl : List Byte :=
  natBytes 2 0x43F8 ++ natBytes 2 0xBD00 ++ natBytes 2 0x38C0 ++ natBytes 2 0x399A ++ List.replicate 248 0

/-- It is coded, and read back as 3.9375, −1.25, 0.625 and 0.6875 (example of chapter 10). -/
theorem test_spill_coding :
    (spillEncode false spl).1.head? = some 0x80 ∧
    ((spillEncode false spl).1.drop 8).take 4 = [0x3F, 0xAA, 0x62, 0x01] ∧
    (spillDecode false (spillEncode false spl).1).take 8
      = natBytes 2 0x43E0 ++ natBytes 2 0xBD00 ++ natBytes 2 0x3900 ++ natBytes 2 0x3980 := by decide +kernel

/-- The angle of an exposure, flagged exact (example of chapter 13). -/
theorem test_angle_of_an_exposure :
    (withRegs { S0 with tb := { S0.tb with hist := [1019995201, 1000000000] } } [(tbPage, 0x100, 2)]).angleAt 1007500000
      = (24581, 0) := by decide +kernel

/-- The phase 40.0 / 66.667 of a refresh instant between two pictures (example of chapter 1). -/
theorem test_phase_of_a_refresh :
    (selectPics 3 [(0, 0, 0), (1, 66666667, 0)] 40000000 100000000).phase = 39322 := by decide +kernel

/-- 3840 × 2160 at 594 MHz fits four HBR3 lanes at 10 bpc, and four HBR2 lanes at 8 bpc alone (R302). -/
theorem test_timing_fits_its_link :
    ([(3, 1), (2, 1), (2, 0)].map fun (e : Nat × Nat) =>
      linkOk (withRegs S0 [(linkPage 0, 0x110, 594000), (linkPage 0, 0x114, 2 * e.2 + 8 + 16 * e.1)]) [] 0)
      = [true, false, true] := by decide +kernel

/-- The cost of D0 against T0 is 40 (example of chapter 16). -/
theorem test_pair_cost :
    pairCost (eff (withRegs S0 [(partPage 2, 0x110, 0x3C003C00), (partPage 2, 0x114, 0x3C003C00)])
        [.tcache (cacheKey 2 true 257) (some ⟨119 :: 1 :: List.replicate 2046 0, false, 9⟩)])
      ⟨70, 2, 1207, 33, 777, 1024, 64, 100, false⟩ ⟨[], 1, 127 :: 48 :: List.replicate 126 0⟩ (.track 4112 rec1) 0x3E000000
      = some 40 := by decide +kernel

/-- Two detections compete for one track: three bids, D0 takes T1 and D1 takes T0 (example of chapter 16). -/
theorem test_auction :
    auction 100 128 [(0, 0, 40), (0, 1, 100), (1, 0, 50)] 10 ⟨[0, 0], [none, none], [0, 1], 0, [], []⟩
      = ⟨[79, 20], [some 1, some 0], [], 3, [], []⟩ := by decide +kernel

end Sys2Proof.Tests
end

section
/-! SUPPORT. What every command does is the run of one act, so what every act keeps, every step keeps (R5). -/

namespace Sys2Proof.Machine

/-- Every command's meaning runs an act, which the operands and the state choose. -/
theorem exec_eq_meaning (c : Instr) (s : State) : ∃ a, exec c s = meaning c a s := by
  cases c <;> exact ⟨_, rfl⟩

/-- Every command keeps the form of the state. -/
theorem stateWf_exec {c : Instr} {s t : State} (hs : stateWf s = true) (h : exec c s = .next t) : stateWf t = true := by
  obtain ⟨a, ha⟩ := exec_eq_meaning c s
  rw [ha, meaning_next] at h
  subst h
  split
  · exact stateWf_run a s hs
  · exact hs

/-- Settles O3: the queue is no part of the form, an idle step changes nothing, and a command runs an act, whose effects
each keep the form. -/
theorem everyStepKeepsTheStateWellFormed : Obligations.EveryStepKeepsTheStateWellFormed := by
  intro s t hs h
  unfold step at h
  split at h
  · cases h; exact hs
  · next c l _ => exact stateWf_exec (s := { s with pending := l }) hs h

end Sys2Proof.Machine
end

section
/-! SUPPORT. The bits of a register: the masks of access types lie in the register's bits, and so does whatever a
well-formed state holds there (R4, R5). -/

namespace Sys2Proof.Machine

/-- Every bit of a word is a bit of a mask. -/
def Inside (v m : Word) : Prop := ∀ i, v.getLsbD i = true → m.getLsbD i = true

theorem Inside.and_eq {v m : Word} (h : Inside v m) : v &&& m = v := by
  apply BitVec.eq_of_getLsbD_eq
  intro i _
  rw [BitVec.getLsbD_and]
  cases hv : v.getLsbD i with
  | false => rfl
  | true => rw [h i hv]; rfl

theorem inside_iff {v m : Word} : Inside v m ↔ v &&& ~~~ m = 0 := by
  constructor
  · intro h
    rw [← h.and_eq, masked_ok]
  · intro h i hi
    have hz : (v &&& ~~~ m).getLsbD i = false := by rw [h]; exact BitVec.getLsbD_zero
    simpa [hi, BitVec.lt_of_getLsbD hi] using hz

theorem inside_and_right (v m : Word) : Inside (v &&& m) m := fun i h => by
  rw [BitVec.getLsbD_and, Bool.and_eq_true] at h; exact h.2

theorem Inside.and_left {v m : Word} (h : Inside v m) (w : Word) : Inside (v &&& w) m := fun i hi => by
  rw [BitVec.getLsbD_and, Bool.and_eq_true] at hi; exact h i hi.1

theorem Inside.or {v w m : Word} (hv : Inside v m) (hw : Inside w m) : Inside (v ||| w) m := fun i hi => by
  rw [BitVec.getLsbD_or, Bool.or_eq_true] at hi
  exact hi.elim (hv i) (hw i)

theorem Inside.trans {v m n : Word} (h : Inside v m) (h' : Inside m n) : Inside v n := fun i hi => h' i (h i hi)

theorem inside_zero (m : Word) : Inside 0 m := inside_iff.2 (BitVec.zero_and)

/-- The bits of an access type at an address are those of the rows that hold it. -/
theorem getLsbD_rowMask (sel : RegSpec → Nat) (p off i : Nat) :
    (rowMask sel p off).getLsbD i = (regRows p off).any fun r => (BitVec.ofNat 32 (sel r)).getLsbD i := by
  have hfold : ∀ (l : List RegSpec) (m : Word),
      (l.foldl (fun m r => m ||| BitVec.ofNat 32 (sel r)) m).getLsbD i
        = (m.getLsbD i || l.any fun r => (BitVec.ofNat 32 (sel r)).getLsbD i) := by
    intro l
    induction l with
    | nil => simp
    | cons r l ih => intro m; rw [List.foldl_cons, ih, BitVec.getLsbD_or, List.any_cons, Bool.or_assoc]
  rw [rowMask, hfold]
  simp

/-- All the bits of a row that exist. -/
def rowBits (r : RegSpec) : Nat := r.rw ||| r.sh ||| r.w1c ||| r.rc ||| r.ro

theorem regMask_eq (a : Nat) : regMask a = rowMask rowBits (a / 0x1000) (a % 0x1000) := rfl

theorem regMask_eq_rowMask {p off : Nat} (h : off < 4096) : regMask (regAddr p off) = rowMask rowBits p off := by
  rw [regMask_eq, regAddr_div h, regAddr_mod h]

/-- A choice of bits that lies in another row by row lies in it at every address. -/
theorem inside_rowMask {sel sel' : RegSpec → Nat} {p off : Nat}
    (h : ∀ r ∈ regRows p off, Inside (BitVec.ofNat 32 (sel r)) (BitVec.ofNat 32 (sel' r))) :
    Inside (rowMask sel p off) (rowMask sel' p off) := fun i hi => by
  rw [getLsbD_rowMask, List.any_eq_true] at hi ⊢
  obtain ⟨r, hr, hb⟩ := hi
  exact ⟨r, hr, h r hr i hb⟩

theorem inside_ofNat {m n : Nat} (h : ∀ i, m.testBit i = true → n.testBit i = true) :
    Inside (BitVec.ofNat 32 m) (BitVec.ofNat 32 n) := fun i hi => by
  rw [BitVec.getLsbD_ofNat, Bool.and_eq_true] at hi ⊢
  exact ⟨hi.1, h i hi.2⟩

theorem rw_inside {p off : Nat} (h : off < 4096) : Inside (rowMask RegSpec.rw p off) (regMask (regAddr p off)) := by
  rw [regMask_eq_rowMask h]
  exact inside_rowMask fun r _ => inside_ofNat fun i hi => by simp [rowBits, hi]

theorem sh_inside {p off : Nat} (h : off < 4096) : Inside (rowMask RegSpec.sh p off) (regMask (regAddr p off)) := by
  rw [regMask_eq_rowMask h]
  exact inside_rowMask fun r _ => inside_ofNat fun i hi => by simp [rowBits, hi]

/-! ## Reset values -/

/-- The rows of a page class: those of its header, if it has one, and its own. -/
def classRows (c : PageClass) : List RegSpec := (if hasHeader c then RegMap.headerRegs else []) ++ blockRegs c

theorem regRows_eq {p off : Nat} {c : PageClass} (hc : pageClass p = some c) :
    regRows p off = (classRows c).filter (rowHas off) := by
  simp only [regRows, hc, classRows]

theorem mem_regRows {p off : Nat} {c : PageClass} (hc : pageClass p = some c) {r : RegSpec} (h : r ∈ regRows p off) :
    r ∈ classRows c ∧ rowHas off r = true := by
  rwa [regRows_eq hc, List.mem_filter] at h

/-- No row's reset value has a bit that the row does not have. -/
theorem row_reset_inside (c : PageClass) :
    ∀ r ∈ classRows c, BitVec.ofNat 32 r.reset &&& ~~~ BitVec.ofNat 32 (rowBits r) = 0 := by
  cases c <;> decide

/-- Every header begins with the 24 bits of PG_ID, and its PG_CAP has every bit. -/
theorem header_masks (c : PageClass) :
    hasHeader c = true → classMask c 0 = 0x00FFFFFF ∧ classMask c 8 = 0xFFFFFFFF := by
  cases c <;> decide

/-- From page 0x280 on there are the global and the MSI-X pages of VFs alone (R31). -/
theorem pageClass_lt {p : Nat} {c : PageClass} (hc : pageClass p = some c) :
    p < 0x280 ∨ (0x1000 < p ∧ (c = .global ∨ c = .vfMsix)) := by
  by_cases hp : p < 0x280
  · exact .inl hp
  · refine .inr ?_
    by_cases hg : 0x1000 < p ∧ p < 0x1020
    · rw [pageClass, if_pos (.inr hg)] at hc
      cases hc
      exact ⟨hg.1, .inl rfl⟩
    · by_cases hm : 0x1020 < p ∧ p < 0x1040
      · rw [pageClass, if_neg (by omega), if_neg (by omega), if_neg (by omega), if_neg (by omega), if_pos hm] at hc
        cases hc
        exact ⟨by omega, .inr rfl⟩
      · unfold pageClass at hc
        repeat rw [if_neg (by omega)] at hc
        cases hc

theorem pageInstance_le (p : Nat) : pageInstance p ≤ 0x280 := by
  cases hc : pageClass p with
  | none => simp only [pageInstance, hc]; omega
  | some c =>
    rcases pageClass_lt hc with h | ⟨_, rfl | rfl⟩
    · unfold pageInstance; split <;> omega
    · simp only [pageInstance, hc]; omega
    · simp only [pageInstance, hc]; omega

theorem pageKind_le (p : Nat) : pageKind p ≤ 3 := by
  unfold pageKind
  split <;> omega

theorem blockClass_le (c : PageClass) : blockClass c ≤ 0x0D := by
  cases c <;> decide

theorem idWord_lt (p : Nat) : idWord p < 2 ^ 24 := by
  have hi := pageInstance_le p
  have hk := pageKind_le p
  unfold idWord
  split
  · decide
  · next c _ _ => have := blockClass_le c; omega
  · decide

/-- From 0x800 on the rows of the floor scaler's page have every bit (R326). -/
theorem floor_rows : ∀ r ∈ classRows .floor,
    r.base + r.stride * r.count ≤ 0x800 ∨ BitVec.ofNat 32 (rowBits r) = BitVec.allOnes 32 := by decide

theorem rowHas_lt {off : Nat} {r : RegSpec} (hs : 0 < r.stride) (h : rowHas off r = true) :
    r.base ≤ off ∧ off < r.base + r.stride * r.count := by
  simp only [rowHas, Bool.and_eq_true, decide_eq_true_eq] at h
  obtain ⟨⟨hb, hm⟩, hc⟩ := h
  have hd := Nat.div_add_mod (off - r.base) r.stride
  have := Nat.mul_lt_mul_of_pos_left hc hs
  omega

theorem classRows_stride_pos (c : PageClass) : ∀ r ∈ classRows c, 0 < r.stride := by
  cases c <;> decide

theorem inside_of_lt {n m : Nat} (h : n < 2 ^ m) : Inside (BitVec.ofNat 32 n) (BitVec.ofNat 32 (2 ^ m - 1)) :=
  inside_ofNat fun i hi => by
    rw [Nat.testBit_two_pow_sub_one, decide_eq_true_eq]
    refine Decidable.byContradiction fun hc => ?_
    rw [Nat.testBit_lt_two_pow (Nat.lt_of_lt_of_le h (Nat.pow_le_pow_right (by decide) (by omega)))] at hi
    cases hi

theorem inside_allOnes (v : Word) : Inside v (BitVec.allOnes 32) := fun i hi => by
  rw [BitVec.getLsbD_allOnes, decide_eq_true_eq]; exact BitVec.lt_of_getLsbD hi

/-- A register's reset value has no reserved bit. -/
theorem regReset_inside (a : Nat) : Inside (regReset a) (regMask a) := by
  have ho : a % 0x1000 < 4096 := Nat.mod_lt _ (by decide)
  have ha : regAddr (a / 0x1000) (a % 0x1000) = a := Nat.div_add_mod' a 0x1000
  unfold regReset
  dsimp only
  cases hc : pageClass (a / 0x1000) with
  | none => exact inside_zero _
  | some c =>
    have hm : regMask a = classMask c (a % 0x1000) := by rw [← regMask_regAddr hc ho, ha]
    dsimp only
    split
    · next h =>
      rw [hm, h.2, (header_masks c h.1).1]
      exact inside_of_lt (idWord_lt _)
    · split
      · next h =>
        rw [hm, h.2, (header_masks c h.1).2]
        exact inside_allOnes _
      · split
        · next h =>
          rw [regMask_eq]
          refine inside_rowMask fun r hr => ?_
          obtain ⟨hrow, hhas⟩ := mem_regRows hc hr
          have hlt := rowHas_lt (classRows_stride_pos c r hrow) hhas
          obtain ⟨hfl, h8⟩ := h
          rw [(floor_rows r (hfl ▸ hrow)).resolve_left (by omega)]
          exact inside_allOnes _
        · rw [regMask_eq]
          exact inside_rowMask fun r hr => inside_iff.2 (row_reset_inside c r (mem_regRows hc hr).1)

/-! ## What a well-formed state holds -/

/-- What holds of every entry of a table and of every default holds of what the table gives. -/
theorem tblGet_of_all {α : Type} {P : Nat → α → Prop} {d : Nat → α} (hd : ∀ k, P k (d k)) :
    ∀ t : Table α, (∀ e ∈ t, P e.1 e.2) → ∀ k, P k (tblGet d k t)
  | [], _, k => hd k
  | (k', v) :: t, h, k => by
    by_cases hk : k' = k
    · subst hk; simpa [tblGet] using h (k', v) (by simp)
    · simpa [tblGet, hk] using tblGet_of_all hd t (fun e he => h e (by simp [he])) k

/-- No register of a well-formed state holds a reserved bit (R5). -/
theorem reg_inside {s : State} (h : stateWf s = true) (p off : Nat) : Inside (s.reg p off) (regMask (regAddr p off)) := by
  simp only [stateWf, reservedZero, Bool.and_eq_true, List.all_eq_true, beq_iff_eq] at h
  obtain ⟨_, hregs, _⟩ := h
  exact tblGet_of_all (P := fun k v => Inside v (regMask k)) regReset_inside s.regs
    (fun e he => inside_iff.2 (hregs e he)) _

/-- No shadow of a well-formed state holds a reserved bit (R5). -/
theorem shadow_inside {s : State} (h : stateWf s = true) (p off : Nat) :
    Inside (s.shadow p off) (regMask (regAddr p off)) := by
  simp only [stateWf, reservedZero, Bool.and_eq_true, List.all_eq_true, beq_iff_eq] at h
  obtain ⟨_, _, hshadows⟩ := h
  exact tblGet_of_all (P := fun k v => Inside v (regMask k)) regReset_inside s.shadows
    (fun e he => inside_iff.2 (hshadows e he)) _

end Sys2Proof.Machine
end

section
/-! SUPPORT. Registers that stay: how frames of registers compose, what the scheduler's reaction leaves, and a write by
access type (R4, R247). -/

namespace Sys2Proof.Machine

theorem sameRegs_trans {P : Nat → Nat → Prop} {s t u : State} (h : sameRegs P s t) (h' : sameRegs P t u) :
    sameRegs P s u := fun p off ho hn => (h' p off ho hn).trans (h p off ho hn)

theorem sameRegs_mono {P Q : Nat → Nat → Prop} (hPQ : ∀ p off, P p off → Q p off) {s t : State} (h : sameRegs P s t) :
    sameRegs Q s t := fun p off ho hn => h p off ho fun hp => hn (hPQ p off hp)

theorem sameRegs_of_regs {P : Nat → Nat → Prop} {s t : State} (h : t.regs = s.regs) : sameRegs P s t :=
  fun p off _ _ => congrArg (tblGet regReset (regAddr p off)) h

/-- An act of a reach leaves the registers outside it. -/
theorem sameRegs_of_fits {F : StateField → Prop} {K : Nat → Prop} {P : Nat → Nat → Prop} {a : Act}
    (h : a.only (Fits F K)) (hP : ∀ p off, off < 4096 → K (regAddr p off) → P p off) (s : State) :
    sameRegs P s (run a s) := fun p off ho hn => reg_of_fits h (fun hk => hn (hP p off ho hk)) s

theorem preemptKey_regAddr {p off : Nat} (h : off < 4096) : preemptKey (regAddr p off) ↔ schedulerReacts p off := by
  unfold preemptKey schedulerReacts
  rw [regAddr_div h, regAddr_mod h]

/-- The scheduler's reaction reaches no page of another class than its own and the semaphores'. -/
theorem not_schedulerReacts {p off : Nat} {c : PageClass} (hc : pageClass p = some c) (hsem : c ≠ .sem)
    (ho : off < 0x048 ∨ 0x050 ≤ off) : ¬ schedulerReacts p off := by
  rintro (⟨_, h⟩ | ⟨hlo, hhi, _⟩)
  · omega
  · have hp : p < 0x280 := by rcases pageClass_lt hc with h | ⟨h, _⟩ <;> omega
    have hsp := pageClass_sem (n := 64 * (p - 0x240)) (by omega)
    rw [semPage, show 0x240 + 64 * (p - 0x240) / 64 = p by omega, hc] at hsp
    cases hsp
    exact hsem rfl

/-- After a command that the scheduler watches, no register differs from what its act leaves but for what the scheduler
does of its own. -/
theorem sameRegs_watched (a : Act) (s : State) : sameRegs schedulerReacts (run a s) (run (watched a) s) :=
  fun _ _ ho hn => reg_watched a (fun hk => hn ((preemptKey_regAddr ho).1 hk)) s

/-- What a command that the scheduler watches has sent is what its act has sent. -/
theorem out_watched (a : Act) (s : State) : (run (watched a) s).out = (run a s).out :=
  sameField_watched (x := .out) (by decide) a s

theorem shadow_watched (a : Act) (s : State) (p off : Nat) :
    (run (watched a) s).shadow p off = (run a s).shadow p off :=
  congrArg (tblGet regReset (regAddr p off)) (sameField_watched (x := .shadows) (by decide) a s)

theorem shadow_setReg (p off : Nat) (v : Word) (s : State) (q o : Nat) :
    (run (setReg p off v) s).shadow q o = s.shadow q o := rfl

theorem reg_setShadow (p off : Nat) (v : Word) (s : State) (q o : Nat) :
    (run (setShadow p off v) s).reg q o = s.reg q o := rfl

theorem shadow_setShadow (p off : Nat) (v : Word) (s : State) :
    (run (setShadow p off v) s).shadow p off = v &&& regMask (regAddr p off) := tblGet_tblSet_same _ _ _ _

/-! ## A write by access type -/

theorem reg_plainWrite {s : State} (hs : stateWf s = true) {p off : Nat} (ho : off < 4096) (v : Word) :
    (run (plainWrite p off v) s).reg p off
      = ((s.reg p off &&& ~~~ rowMask RegSpec.rw p off) ||| (v &&& rowMask RegSpec.rw p off))
        &&& ~~~ (v &&& rowMask RegSpec.w1c p off) := by
  have hin : Inside (((s.reg p off &&& ~~~ rowMask RegSpec.rw p off) ||| (v &&& rowMask RegSpec.rw p off))
      &&& ~~~ (v &&& rowMask RegSpec.w1c p off)) (regMask (regAddr p off)) :=
    (((reg_inside hs p off).and_left _).or ((inside_and_right v _).trans (rw_inside ho))).and_left _
  simp only [plainWrite, run_look, run_seq, run_whenA, apply_ite (fun t : State => t.reg p off), reg_setShadow,
    ite_self, decide_eq_true_eq]
  split
  · rw [reg_setReg, hin.and_eq]
  · next h =>
    obtain ⟨hrw, hwc⟩ := BitVec.or_eq_zero_iff.1 (Decidable.not_not.1 h)
    rw [hrw, hwc, BitVec.and_zero, BitVec.or_zero, BitVec.not_zero, BitVec.and_allOnes, BitVec.and_allOnes]

theorem shadow_plainWrite {s : State} (hs : stateWf s = true) {p off : Nat} (ho : off < 4096) (v : Word) :
    (run (plainWrite p off v) s).shadow p off
      = (s.shadow p off &&& ~~~ rowMask RegSpec.sh p off) ||| (v &&& rowMask RegSpec.sh p off) := by
  have hin : Inside ((s.shadow p off &&& ~~~ rowMask RegSpec.sh p off) ||| (v &&& rowMask RegSpec.sh p off))
      (regMask (regAddr p off)) :=
    ((shadow_inside hs p off).and_left _).or ((inside_and_right v _).trans (sh_inside ho))
  simp only [plainWrite, run_look, run_seq, run_whenA, apply_ite (fun t : State => t.shadow p off), shadow_setReg,
    shadow_setShadow, ite_self, decide_eq_true_eq]
  split
  · exact hin.and_eq
  · next h =>
    have hsh : rowMask RegSpec.sh p off = 0#32 := Decidable.not_not.1 h
    rw [hsh, BitVec.and_zero, BitVec.or_zero, BitVec.not_zero, BitVec.and_allOnes]

theorem fits_plainWrite {F : StateField → Prop} {P : Nat → Prop} {p off : Nat} {v : Word} (hr : F .regs)
    (hs : F .shadows) (hP : P (regAddr p off)) : (plainWrite p off v).only (Fits F P) := fun _ =>
  on_seq (only_whenA fun _ => fits_setReg hr hP) (only_whenA fun _ => ⟨hs, trivial⟩)

/-- A write by access type changes its own register alone. -/
theorem sameRegs_plainWrite {p off : Nat} (ho : off < 4096) (v : Word) (s : State) :
    sameRegs (fun q o => q = p ∧ o = off) s (run (plainWrite p off v) s) :=
  sameRegs_of_fits (F := fun _ => True) (K := fun k => k = regAddr p off) (fits_plainWrite trivial trivial rfl)
    (fun _ _ ho' hk => Decidable.byContradiction fun hn => regAddr_ne ho ho' hn hk) s

/-! ## Accesses of BAR0 -/

/-- An access of BAR0, before the scheduler's reaction. -/
def bar0Access (f : Func) (a : Nat) : Access → Act
  | .read n => bar0Read f a n
  | .write n v => bar0Write f a n v

/-- In service an access of BAR0 is done under the scheduler's watch (R25, R247). -/
theorem answers_bar0 {s : State} {f : Func} {a : Nat} {acc : Access} {Q : State → Prop} (hph : s.phase = .service)
    (hw : accessWf (barSize f .bar0) a acc = true) (h : Q (run (watched (bar0Access f a acc)) s)) :
    answers (.registerWrite f .bar0 a acc) s Q := by
  refine answers_of (a := actRegisterWrite f .bar0 a acc) rfl hw ?_
  have hrun : run (actRegisterWrite f .bar0 a acc) s = run (watched (bar0Access f a acc)) s := by
    simp only [actRegisterWrite, run_look, hph]
    cases acc <;> exact run_served hph _
  rwa [hrun]

/-- An aligned 32-bit write that the page lets in writes the register. -/
theorem run_bar0Write {s : State} {f : Func} {a p : Nat} (hm : mayWrite s f p) (ha : a % 4 = 0)
    (hp : s.barPage f a = some p) (v : Word) :
    run (bar0Access f a (.write 4 (v.setWidth 64))) s = run (writeReg f p (a % 0x1000) v) s := by
  obtain ⟨_, hpres, hden⟩ := hm
  have hv : (v.setWidth 64).extractLsb' 0 32 = v := by
    apply BitVec.eq_of_toNat_eq
    have := v.isLt
    rw [BitVec.extractLsb'_toNat, BitVec.toNat_setWidth, Nat.shiftRight_zero]
    omega
  simp [bar0Access, bar0Write, pageWrite, hpres, ha, hp, hv, run_withWrite hpres hden, apply_ite (fun b => run b s)]

/-- A register of the common header, but for PG_CTL and PG_COMMIT, is written by access type. -/
theorem writeReg_header {p off : Nat} (hh : headed p = true) (ho : off < 0x040) (hc : off ≠ 0x010) (hg : off ≠ 0x030)
    (f : Func) (v : Word) : writeReg f p off v = plainWrite p off v := by
  simp [writeReg, hh, hc, hg, show off < 0x100 by omega]

/-- The page classes whose blocks are written by access type throughout. -/
def plainClass (c : PageClass) : Bool :=
  [PageClass.hostPort, .array, .quant, .handles, .landing, .decode, .pipe, .comp, .strip, .vslot, .gslot, .floor,
    .track, .port, .window].contains c

theorem writeReg_plainClass {p off : Nat} {c : PageClass} (hc : pageClass p = some c) (hpl : plainClass c = true)
    (ho : 0x100 ≤ off) (f : Func) (v : Word) : writeReg f p off v = plainWrite p off v := by
  rw [writeReg, if_neg (by omega), if_neg (by omega), if_neg (by omega), writeBlock, hc]
  cases c <;> first | rfl | cases hpl

/-- Settles O15: both kinds of register are written by `plainWrite`, whose three laws give the clauses, and the
scheduler's reaction meets none of these registers. -/
theorem registerWritesFollowTheirAccessTypes : Obligations.RegisterWritesFollowTheirAccessTypes := by
  intro s f a p off v hs hm hsize ha hp hoff hkind
  have ho : off < 4096 := hoff ▸ Nat.mod_lt _ (by decide)
  have hw : accessWf (barSize f .bar0) a (.write 4 (v.setWidth 64)) = true := by
    have := v.isLt
    simp only [accessWf, Bool.and_eq_true, decide_eq_true_eq, BitVec.toNat_setWidth]
    omega
  obtain ⟨hplain, hsched⟩ : writeReg f p off v = plainWrite p off v ∧ ¬ schedulerReacts p off := by
    rcases hkind with ⟨hh, hlt, hc, hg⟩ | ⟨hge, c, hc, hpl⟩
    · exact ⟨writeReg_header hh hlt hc hg f v, by unfold schedulerReacts; omega⟩
    · refine ⟨writeReg_plainClass hc hpl hge f v, not_schedulerReacts hc ?_ (.inr (by omega))⟩
      rintro rfl
      cases hpl
  have hrun := run_bar0Write hm ha hp v
  rw [hoff, hplain] at hrun
  refine answers_bar0 hm.1 hw ?_
  have hwatch := sameRegs_watched (bar0Access f a (.write 4 (v.setWidth 64))) s
  rw [hrun] at hwatch
  refine ⟨?_, ?_, ?_⟩
  · rw [hwatch p off ho hsched, reg_plainWrite hs ho]
  · rw [shadow_watched, hrun, shadow_plainWrite hs ho]
  · exact sameRegs_trans (sameRegs_mono (fun _ _ => .inl) (sameRegs_plainWrite ho v s))
      (sameRegs_mono (fun _ _ => .inr) hwatch)

end Sys2Proof.Machine
end

section
/-! SUPPORT. The clearing reads of the quantiser pages (R4, R91). -/

namespace Sys2Proof.Machine

theorem pageClass_qntPage : ∀ a : Fin 32, pageClass (qntPage a.val) = some .quant := by decide

/-- A read of a clearing register of a quantiser page answers with its value, leaves it 0 and no other register changed,
but for the scheduler's reaction. -/
theorem watched_readClear {s : State} {f : Func} {a : Fin 32} {off : Nat} (hm : mayRead s f (qntPage a.val))
    (hlo : 0x100 ≤ off) (ho : off < 4096) :
    (run (watched (readClear f (qntPage a.val) off)) s).out
        = .readData (natBytes 4 (s.reg (qntPage a.val) off).toNat) :: s.out ∧
      (run (watched (readClear f (qntPage a.val) off)) s).reg (qntPage a.val) off = 0 ∧
      sameRegs (fun p o => (p = qntPage a.val ∧ o = off) ∨ schedulerReacts p o) s
        (run (watched (readClear f (qntPage a.val) off)) s) := by
  obtain ⟨_, hpres, hden⟩ := hm
  have hwatch := sameRegs_watched (readClear f (qntPage a.val) off) s
  rw [out_watched]
  rw [show run (readClear f (qntPage a.val) off) s
    = run (setReg (qntPage a.val) off 0) (run (readWord (s.reg (qntPage a.val) off).toNat) s) from
      run_withRead hpres hden _] at hwatch ⊢
  refine ⟨rfl, ?_, ?_⟩
  · rw [hwatch _ _ ho (not_schedulerReacts (pageClass_qntPage a) (by decide) (.inr (by omega))), reg_setReg]
    exact BitVec.zero_and
  · exact sameRegs_trans (sameRegs_mono (fun _ _ => .inl) (sameRegs_setReg ho 0 (run (readWord _) s)))
      (sameRegs_mono (fun _ _ => .inr) hwatch)

/-- Settles O28: both commands are a clearing read of their register, under the scheduler's watch. -/
theorem maxAbsStatisticsClearWhenRead : Obligations.MaxAbsStatisticsClearWhenRead := by
  intro s f a q c off hc hm
  have hq := q.isLt
  rcases hc with ⟨rfl, rfl⟩ | ⟨rfl, rfl⟩
  · refine answers_of (a := served (actQpMaxabsRead f a q)) rfl rfl ?_
    rw [run_served hm.1]
    exact watched_readClear hm (by omega) (by omega)
  · refine answers_of (a := served (actQpHwMaxabsRead f a q)) rfl rfl ?_
    rw [run_served hm.1]
    exact watched_readClear hm (by omega) (by omega)

end Sys2Proof.Machine
end

section
/-! SUPPORT. What a read does to the registers: counters of passing time are brought up to date before it, RC fields clear
and a refusal may be reported after it (R4, R25, R32, R160, R236, R384). -/

namespace Sys2Proof.Machine

/-! ## Counters brought up to date -/

/-- The registers of a counter: the two halves at one low offset. -/
def pairKey (p off k : Nat) : Prop := k / 4096 = p ∧ k % 4096 / 8 = off / 8

theorem pairKey_regAddr {p off q o : Nat} (ho : o < 4096) : pairKey p off (regAddr q o) ↔ q = p ∧ o / 8 = off / 8 := by
  unfold pairKey
  rw [regAddr_div ho, regAddr_mod ho]

theorem fits_bump_pair {p off n : Nat} (ho : off < 4096) :
    (bump p (off / 8 * 8) n).only (Fits (fun _ => True) (pairKey p off)) :=
  fits_bump trivial ((pairKey_regAddr (by omega)).2 ⟨rfl, by omega⟩) ((pairKey_regAddr (by omega)).2 ⟨rfl, by omega⟩)

/-- Counting a context's wait is a bump of its pipe's stall count and a note of how far it has been counted, or nothing
(R236). -/
theorem run_countStall (c : Nat) (s : State) :
    run (countStall c) s = s ∨ ∃ n k, run (countStall c) s
      = run (updStream c fun x => { x with stalled := k })
          (run (bump (pipePage (srPipe (s.atStreams c).record)) 0x078 n) s) := by
  unfold countStall
  rw [run_look]
  dsimp only
  cases (s.atStreams c).noSlot with
  | none => exact .inl rfl
  | some t => exact .inr ⟨_, _, rfl⟩

/-- Counting a context's wait keeps every context's record. -/
theorem record_countStall (c d : Nat) (s : State) :
    ((run (countStall c) s).atStreams d).record = (s.atStreams d).record := by
  rcases run_countStall c s with h | ⟨n, k, h⟩
  · rw [h]
  · have hb (j : Nat) : (run (bump (pipePage (srPipe (s.atStreams c).record)) 0x078 n) s).atStreams j = s.atStreams j :=
      atStreams_run rfl (on_bump (List.Subset.refl _)) j s
    rw [h, updStream, run_look, run_eff, atStreams_set, hb, hb]
    split
    · next hd => rw [hd]
    · rfl

/-- Counting a context's wait changes the stall count of its pipe alone (R236). -/
theorem sameRegs_countStall {c p : Nat} {s : State} (h : pipePage (srPipe (s.atStreams c).record) = p) :
    sameRegs (fun q o => q = p ∧ o / 8 = 0x078 / 8) s (run (countStall c) s) := by
  rcases run_countStall c s with hr | ⟨n, k, hr⟩
  · rw [hr]; exact sameRegs_of_regs rfl
  · rw [hr, h]
    exact sameRegs_trans
      (sameRegs_of_fits (fits_bump_pair (off := 0x078) (by decide)) (fun q o ho => (pairKey_regAddr ho).1) s)
      (sameRegs_of_regs rfl)

theorem sameRegs_countStall_list {p : Nat} : ∀ (l : List (Nat × StreamSt)) (s : State),
    (∀ e ∈ l, pipePage (srPipe (s.atStreams e.1).record) = p) →
    sameRegs (fun q o => q = p ∧ o / 8 = 0x078 / 8) s (run (forA l fun e => countStall e.1) s)
  | [], _, _ => sameRegs_of_regs rfl
  | e :: l, s, h => by
    refine sameRegs_trans (sameRegs_countStall (h e (by simp))) (sameRegs_countStall_list l _ fun x hx => ?_)
    rw [record_countStall]
    exact h x (by simp [hx])

theorem tblRising_lt_of_mem {α : Type} : ∀ {t : Table α} {j k : Nat} {v : α}, tblRising j t = true → (k, v) ∈ t → j < k
  | (k', _) :: _, j, k, v, hr, h => by
    simp only [tblRising, Bool.and_eq_true, decide_eq_true_eq] at hr
    rcases List.mem_cons.1 h with he | ht
    · cases he; exact hr.1
    · exact Nat.lt_trans hr.1 (tblRising_lt_of_mem hr.2 ht)

/-- A canonical table gives at a listed key the value listed. -/
theorem tblGet_of_mem {α : Type} [DecidableEq α] {d : Nat → α} :
    ∀ {t : Table α}, tblOk d t = true → ∀ {k : Nat} {v : α}, (k, v) ∈ t → tblGet d k t = v
  | (k', _) :: _, hok, k, v, h => by
    obtain ⟨_, hr, ht⟩ := tblRising_of_tblOk_cons hok
    rcases List.mem_cons.1 h with he | hm
    · cases he; simp [tblGet]
    · have hlt := tblRising_lt_of_mem hr hm
      rw [tblGet, if_neg (by omega), tblGet_of_mem ht hm]

theorem streams_ok {s : State} (hs : stateWf s = true) : tblOk streamsDefault s.streams = true := by
  simp only [stateWf, tablesWf, Bool.and_eq_true] at hs
  simp only [hs]

/-- A context configured on a pipe has a record that names the pipe (R227). -/
theorem srPipe_of_onPipe {s : State} (hs : stateWf s = true) {q : Nat} {e : Nat × StreamSt} (he : e ∈ s.onPipe q) :
    srPipe (s.atStreams e.1).record = q := by
  simp only [State.onPipe, List.mem_filter, Bool.and_eq_true, decide_eq_true_eq] at he
  obtain ⟨hmem, _, hq⟩ := he
  rw [State.atStreams, tblGet_of_mem (streams_ok hs) hmem, hq]

theorem le_of_pageClass_pipe {p : Nat} (h : pageClass p = some .pipe) : pipePage 0 ≤ p := by
  have hp : ∀ k : Fin 0x50, pageClass k.val ≠ some .pipe := by decide
  exact Decidable.byContradiction fun hlt => hp ⟨p, by unfold pipePage at hlt; omega⟩ h

/-- The waits of a pipe's contexts change its stall count alone (R236). -/
theorem sameRegs_countStalls {s : State} (hs : stateWf s = true) {p : Nat} (h : pageClass p = some .pipe) :
    sameRegs (fun q o => q = p ∧ o / 8 = 0x078 / 8) s (run (countStalls p) s) := by
  refine sameRegs_countStall_list _ s fun e he => ?_
  have hp := le_of_pageClass_pipe h
  rw [srPipe_of_onPipe hs he]
  unfold pipePage at hp ⊢
  omega

theorem lt_of_accrues {p off : Nat} (h : accrues p off = true) : off < 0x100 := by
  simp only [accrues, Bool.and_eq_true, decide_eq_true_eq] at h
  exact h.1.2

/-- Before a read, the counter read changes, if it is one that counts on, and no other register (R32, R236). -/
theorem sameRegs_accrue {s : State} (hs : stateWf s = true) (p off : Nat) :
    sameRegs (fun q o => countsOn p off = true ∧ q = p ∧ o / 8 = off / 8) s (run (accrue p off) s) := by
  rw [accrue, run_look, run_seq]
  refine sameRegs_trans (t := run (whenA (accrues p off && s.accruesNow p)
    (withFree fun x => bump p (off / 8 * 8) x.toNat)) s) ?_ ?_
  · refine sameRegs_of_fits (F := fun _ => True) (K := fun k => countsOn p off = true ∧ pairKey p off k)
      (only_whenA fun h => fits_withFree trivial fun x => ?_) (fun q o ho hk => ⟨hk.1, (pairKey_regAddr ho).1 hk.2⟩) s
    rw [Bool.and_eq_true] at h
    have hlt := lt_of_accrues h.1
    exact only_mono (fun _ he => he.mono (fun _ => id) fun k hk => ⟨by simp [countsOn, h.1], hk⟩) _
      (fits_bump_pair (by omega))
  · by_cases h : pageClass p = some .pipe ∧ off / 8 * 8 = 0x078
    · rw [decide_eq_true h, run_whenA_true]
      exact sameRegs_mono (fun q o ho => ⟨by simp [countsOn, h], ho.1, by omega⟩)
        (sameRegs_countStalls (stateWf_run _ s hs) h.1)
    · rw [decide_eq_false h, run_whenA_false]
      exact sameRegs_of_regs rfl

theorem run_accrue_of_not_countsOn {p off : Nat} (h : countsOn p off = false) (s : State) :
    run (accrue p off) s = s := by
  rw [countsOn, Bool.or_eq_false_iff] at h
  rw [accrue, run_look, h.1, h.2]
  rfl

/-! ## The word shown -/

theorem openMask_inside (s : State) {p off : Nat} (ho : off < 4096) :
    Inside (s.openMask p off) (regMask (regAddr p off)) := by
  unfold State.openMask
  split
  · next hc =>
    split
    · next h => rw [regMask_regAddr hc ho, h]; exact inside_iff.2 (by decide)
    · exact inside_zero _
  · next hc =>
    split
    · next h => rw [regMask_regAddr hc ho, h.1]; exact inside_iff.2 (by decide)
    · exact inside_zero _
  · next hc =>
    split
    · next h => rw [regMask_regAddr hc ho, h.1]; exact inside_iff.2 (by decide)
    · exact inside_zero _
  · exact inside_zero _

theorem view_inside (s : State) (f : Func) (p off : Nat) : Inside (s.view f p off) (regMask (regAddr p off)) :=
  inside_and_right _ _

theorem fillOpen_inside {v m k : Word} (hv : Inside v k) (hm : Inside m k) (x : BitVec 64) (high : Bool) :
    Inside (fillOpen v m x high) k :=
  (hv.and_left _).or ((inside_and_right _ m).trans hm)

theorem fillOpen_zero (v : Word) (x : BitVec 64) (high : Bool) : fillOpen v 0 x high = v := by
  have h0 : (0 : Word) = 0#32 := rfl
  rw [fillOpen, h0, BitVec.and_zero, BitVec.or_zero, BitVec.not_zero, BitVec.and_allOnes]

theorem run_withOpen (m : Word) (k : BitVec 64 → Act) (s : State) :
    ∃ x n, run (withOpen m k) s = run (k x) { s with free := n } := by
  unfold withOpen
  split
  · exact ⟨_, s.free, rfl⟩
  · exact ⟨_, s.free + 1, rfl⟩

/-- A 32-bit read with nothing latched: counters are brought up to date, the high half may be latched, a word without
reserved bits is sent, and the read's own effects follow (R4, R25). -/
theorem run_readReg {s : State} {f : Func} {p off : Nat} (ho : off < 4096) (hl : s.atLatches (regAddr p off) = none) :
    ∃ (w : Word) (n : Nat) (latch : Act), latch.only (Within [.latches]) ∧ Inside w (regMask (regAddr p off)) ∧
      ((run (accrue p off) s).openMask p off = 0 → w = (run (accrue p off) s).view f p off) ∧
      run (readReg f p off) s = run (acts [latch, readWord w.toNat, readEffect f p off, countPmw f p off])
        { run (accrue p off) s with free := n } := by
  have hl' : (run (accrue p off) s).atLatches (regAddr p off) = none :=
    (atLatches_run rfl (on_accrue (List.Subset.refl _)) _ s).trans hl
  rw [readReg, run_seq, run_look]
  dsimp only
  rw [hl']
  obtain ⟨x, n, hx⟩ := run_withOpen ((run (accrue p off) s).openMask p off) _ (run (accrue p off) s)
  rw [hx]
  refine ⟨_, n, _, ?_, fillOpen_inside (view_inside _ f p off) (openMask_inside _ ho) x false, fun h => ?_, rfl⟩
  · exact on_ite (on_eff (List.Subset.refl _) rfl) on_done
  · rw [h, fillOpen_zero]

/-! ## What follows the answer -/

/-- A read's own effects: RC fields clear, and a report may follow, on the trust page and in the post-mortem window
alone (R4, R160, R384). -/
theorem run_readEffect (f : Func) (p off : Nat) (s : State) :
    ∃ report : Act, report.only (Fits (fun _ => True) (reportKey p)) ∧
      (pageClass p ≠ some .trust → ¬ (pageClass p = some .spad ∧ 0x800 ≤ off) → ∀ t, run report t = t) ∧
      run (readEffect f p off) s = run report (run (whenA (decide (rowMask RegSpec.rc p off ≠ 0))
        (setReg p off (s.reg p off &&& ~~~ rowMask RegSpec.rc p off))) s) := by
  have hrep : Reports p (fun _ => True) (reportKey p) := ⟨trivial, trivial, trivial, trivial, fun _ => id⟩
  refine ⟨_, ?_, fun ht hp t => ?_, rfl⟩
  · refine on_cons ?_ on_nil
    split
    · exact only_whenA fun _ => fits_pageErr hrep
    · exact only_whenA fun _ => fits_pageErr hrep
    · exact on_done
  · rw [run_acts_cons, run_acts_nil]
    split
    · next hc =>
      have hoff : ¬ (0x800 ≤ off ∧ off < 0x1000 ∧ off % 4 = 0 ∧ f = 0) := fun h => hp ⟨hc, h.1⟩
      rw [decide_eq_false hoff, Bool.false_and, run_whenA_false]
    · next hc => exact absurd hc ht
    · rfl

/-- Outside the post-mortem window no line is counted (R170). -/
theorem run_countPmw_of_not (f : Func) {p off : Nat} (h : ¬ (pageClass p = some .spad ∧ 0x800 ≤ off)) (s : State) :
    run (countPmw f p off) s = s := by
  have hc : ¬ (pageClass p = some .spad ∧ 0x800 ≤ off ∧ off < 0x1000 ∧ f = 0) := fun hc => h ⟨hc.1, hc.2.1⟩
  rw [countPmw, run_look, decide_eq_false hc]
  rfl

theorem sameRegs_whenA_setReg {s : State} {p off : Nat} (ho : off < 4096) (c : Bool) (v : Word) :
    sameRegs (fun q o => q = p ∧ o = off) s (run (whenA c (setReg p off v)) s) := by
  cases c with
  | false => exact sameRegs_of_regs rfl
  | true => exact sameRegs_setReg ho v s

/-! ## Where RC fields stand -/

theorem row_rc (c : PageClass) : ∀ r ∈ classRows c, r.rc ≠ 0 →
    (c = .quant ∨ c = .actions ∨ c = .trust) ∧ 0x100 ≤ r.base := by
  cases c <;> decide

theorem exists_row_of_rowMask {sel : RegSpec → Nat} {p off : Nat} (h : rowMask sel p off ≠ 0) :
    ∃ r ∈ regRows p off, sel r ≠ 0 := by
  refine Classical.byContradiction fun hn => h (BitVec.eq_of_getLsbD_eq fun i _ => ?_)
  have hz : ∀ r ∈ regRows p off, sel r = 0 := fun r hr => Decidable.byContradiction fun hne => hn ⟨r, hr, hne⟩
  rw [getLsbD_rowMask, List.any_eq_false.2 fun r hr => by rw [hz r hr, BitVec.getLsbD_zero]; decide]
  exact BitVec.getLsbD_zero.symm

/-- RC fields stand in quantiser pages, pages of timed actions and the trust page, behind the header. -/
theorem rc_place {p off : Nat} (h : rowMask RegSpec.rc p off ≠ 0) :
    ∃ c, pageClass p = some c ∧ (c = .quant ∨ c = .actions ∨ c = .trust) ∧ 0x100 ≤ off := by
  obtain ⟨r, hr, hrc⟩ := exists_row_of_rowMask h
  cases hc : pageClass p with
  | none => rw [regRows, hc] at hr; cases hr
  | some c =>
    obtain ⟨hrow, hhas⟩ := mem_regRows hc hr
    obtain ⟨hcl, hb⟩ := row_rc c r hrow hrc
    exact ⟨c, rfl, hcl, Nat.le_trans hb (rowHas_lt (classRows_stride_pos c r hrow) hhas).1⟩

theorem rc_page {p off : Nat} (h : rowMask RegSpec.rc p off ≠ 0) : 0x020 ≤ p ∧ p < 0x280 := by
  obtain ⟨c, hc, hcl, _⟩ := rc_place h
  refine ⟨?_, ?_⟩
  · have hlow : ∀ k : Fin 0x020, ∀ c ∈ [PageClass.quant, .actions, .trust], pageClass k.val ≠ some c := by decide
    have hmem : c ∈ [PageClass.quant, .actions, .trust] := by
      rcases hcl with rfl | rfl | rfl <;> decide
    exact Decidable.byContradiction fun hp => hlow ⟨p, by omega⟩ c hmem hc
  · rcases pageClass_lt hc with hp | ⟨_, rfl | rfl⟩
    · exact hp
    · exact absurd hcl (by decide)
    · exact absurd hcl (by decide)

theorem not_countsOn_of_rc {p off : Nat} (h : rowMask RegSpec.rc p off ≠ 0) : countsOn p off = false := by
  obtain ⟨c, _, _, ho⟩ := rc_place h
  rw [countsOn, Bool.or_eq_false_iff]
  refine ⟨Bool.eq_false_iff.2 fun hacc => ?_, decide_eq_false fun hc => by omega⟩
  have := lt_of_accrues hacc
  omega

/-- No report changes a register with RC fields. -/
theorem not_reportKey_of_rc {p off : Nat} (ho : off < 4096) (h : rowMask RegSpec.rc p off ≠ 0) :
    ¬ reportKey p (regAddr p off) := by
  obtain ⟨_, _, _, hlo⟩ := rc_place h
  have hp := rc_page h
  unfold reportKey msgKey evrKey
  rw [regAddr_div ho, regAddr_mod ho]
  omega

/-! ## The whole read -/

section
variable {s : State} {f : Func} {p off : Nat}

/-- A read sends one word without reserved bits: the register's view, where no bits are open and no time counts. -/
theorem readReg_sends (ho : off < 4096) (hl : s.atLatches (regAddr p off) = none) :
    ∃ w : Word, sends (.readData (natBytes 4 w.toNat)) s (run (readReg f p off) s) ∧
      w &&& ~~~ regMask (regAddr p off) = 0 ∧
      (s.openMask p off = 0 → countsOn p off = false → w = s.view f p off) := by
  obtain ⟨w, n, latch, _, hin, hview, hrun⟩ := run_readReg (f := f) ho hl
  refine ⟨w, ?_, inside_iff.1 hin, fun hopen hcount => ?_⟩
  · obtain ⟨m, hm⟩ : sentBefore s (run latch { run (accrue p off) s with free := n }) := by
      obtain ⟨l, h1⟩ := sentBefore_run (accrue p off) s
      obtain ⟨l', h2⟩ := sentBefore_run latch { run (accrue p off) s with free := n }
      exact ⟨l' ++ l, by rw [h2, h1, List.append_assoc]⟩
    obtain ⟨l, hl⟩ := sentBefore_run (acts [readEffect f p off, countPmw f p off])
      (run (readWord w.toNat) (run latch { run (accrue p off) s with free := n }))
    refine ⟨l, m, ?_⟩
    rw [hrun, ← hm]
    exact hl
  · rw [run_accrue_of_not_countsOn hcount] at hview
    exact hview hopen

/-- A read clears the register's RC fields and leaves its other bits (R4). -/
theorem readReg_clears (hs : stateWf s = true) (ho : off < 4096) (hl : s.atLatches (regAddr p off) = none)
    (hrc : rowMask RegSpec.rc p off ≠ 0) :
    (run (readReg f p off) s).reg p off = s.reg p off &&& ~~~ rowMask RegSpec.rc p off := by
  obtain ⟨w, n, latch, hlatch, _, _, hrun⟩ := run_readReg (f := f) ho hl
  rw [run_accrue_of_not_countsOn (not_countsOn_of_rc hrc)] at hrun
  have hreg : (run (readWord w.toNat) (run latch { s with free := n })).reg p off = s.reg p off :=
    congrArg (tblGet regReset (regAddr p off)) (sameField_run (x := .regs) (by decide) latch { s with free := n } hlatch)
  have hpmw : ¬ (pageClass p = some .spad ∧ 0x800 ≤ off) := by
    obtain ⟨c, hc, hcl, _⟩ := rc_place hrc
    rw [hc]
    rcases hcl with rfl | rfl | rfl <;> simp
  obtain ⟨report, hrep, _, heff⟩ := run_readEffect f p off (run (readWord w.toNat) (run latch { s with free := n }))
  rw [hrun]
  simp only [run_acts_cons, run_acts_nil]
  rw [run_countPmw_of_not f hpmw, heff, reg_of_fits hrep (not_reportKey_of_rc ho hrc), decide_eq_true hrc,
    run_whenA_true, reg_setReg, hreg, ((reg_inside hs p off).and_left _).and_eq]

/-- Outside the trust page and the post-mortem window a read changes the register read and a counter it brings up to
date, and no other register. -/
theorem sameRegs_readReg (hs : stateWf s = true) (ho : off < 4096) (hl : s.atLatches (regAddr p off) = none)
    (ht : pageClass p ≠ some .trust) (hp : ¬ (pageClass p = some .spad ∧ 0x800 ≤ off)) :
    sameRegs (fun q o => (q = p ∧ o = off) ∨ (countsOn p off = true ∧ q = p ∧ o / 8 = off / 8)) s
      (run (readReg f p off) s) := by
  obtain ⟨w, n, latch, hlatch, _, _, hrun⟩ := run_readReg (f := f) ho hl
  have hregs : (run latch { run (accrue p off) s with free := n }).regs = (run (accrue p off) s).regs :=
    sameField_run (x := .regs) (by decide) latch _ hlatch
  obtain ⟨report, _, hdone, heff⟩ := run_readEffect f p off
    (run (readWord w.toNat) (run latch { run (accrue p off) s with free := n }))
  rw [hrun]
  simp only [run_acts_cons, run_acts_nil]
  rw [run_countPmw_of_not f hp, heff, hdone ht hp]
  exact sameRegs_trans (sameRegs_mono (fun _ _ => .inr) (sameRegs_accrue hs p off))
    (sameRegs_trans (sameRegs_of_regs (t := run (readWord w.toNat) _) hregs)
      (sameRegs_mono (fun _ _ => .inl) (sameRegs_whenA_setReg ho _ _)))

end

/-- An aligned 32-bit read that the page lets in reads the register. -/
theorem run_bar0Read {s : State} {f : Func} {a p : Nat} (hm : mayRead s f p) (ha : a % 4 = 0)
    (hp : s.barPage f a = some p) :
    run (bar0Access f a (.read 4)) s = run (readReg f p (a % 0x1000)) s := by
  obtain ⟨_, hpres, hden⟩ := hm
  simp [bar0Access, bar0Read, hpres, ha, hp, run_withRead hpres hden]

/-- Settles O16: the read is `readReg`, whose three laws give the clauses, and the scheduler's reaction sends nothing and
meets no register with RC fields. -/
theorem readsShowReservedBitsAsZero : Obligations.ReadsShowReservedBitsAsZero := by
  intro s f a p off hs hm hsize ha hp hoff hl
  have ho : off < 4096 := hoff ▸ Nat.mod_lt _ (by decide)
  have hrun := run_bar0Read hm ha hp
  rw [hoff] at hrun
  refine answers_bar0 hm.1 (by simp [accessWf, hsize]) ?_
  have hwatch := sameRegs_watched (bar0Access f a (.read 4)) s
  rw [hrun] at hwatch
  refine ⟨?_, fun hrc => ?_, fun ht hpmw => ?_⟩
  · obtain ⟨w, ⟨l, m, hsent⟩, hw⟩ := readReg_sends (f := f) ho hl
    exact ⟨w, ⟨l, m, by rw [out_watched, hrun, hsent]⟩, hw⟩
  · obtain ⟨c, hc, hcl, hlo⟩ := rc_place hrc
    have hsem : c ≠ .sem := by rcases hcl with rfl | rfl | rfl <;> decide
    rw [hwatch p off ho (not_schedulerReacts hc hsem (.inr (by omega))), readReg_clears hs ho hl hrc]
  · refine sameRegs_trans (sameRegs_mono (fun _ _ h => ?_) (sameRegs_readReg hs ho hl ht hpmw))
      (sameRegs_mono (fun _ _ h => .inr (.inr h)) hwatch)
    exact h.imp_right .inl

end Sys2Proof.Machine
end
